-- ==== Sys2Proof/Word.lean ====
section
/-! DEFINITION. The words the part's links and registers are made of, the numbers that name its chains and
runners, and the two fixed-size groups of like things (four chains, three runners). -/

namespace Sys2Proof

/-- One byte on a link (R193, R195, R197, R199). -/
abbrev Byte := BitVec 8
/-- A 16-bit field: a frame number (R12), a CRC-16 (R192). -/
abbrev Word16 := BitVec 16
/-- A 32-bit field: a CRC-32 (R192), a serial number (R199). -/
abbrev Word32 := BitVec 32

/-- Chains and chain ports 0 to 3. -/
abbrev ChainId := Fin 4
/-- Runners 0 to 2 (R150). -/
abbrev RunnerId := Fin 3

/-- One thing for each chain. -/
structure Four (α : Type) where
  c0 : α
  c1 : α
  c2 : α
  c3 : α
  deriving DecidableEq, Repr

namespace Four
/-- The thing of chain `c`. -/
def get {α : Type} (q : Four α) (c : ChainId) : α :=
  match c with
  | 0 => q.c0
  | 1 => q.c1
  | 2 => q.c2
  | 3 => q.c3

/-- The thing of chain `c` replaced. -/
def set {α : Type} (q : Four α) (c : ChainId) (x : α) : Four α :=
  match c with
  | 0 => { q with c0 := x }
  | 1 => { q with c1 := x }
  | 2 => { q with c2 := x }
  | 3 => { q with c3 := x }

/-- The same thing for every chain. -/
def all {α : Type} (x : α) : Four α := ⟨x, x, x, x⟩

/-- The four things in chain order. -/
def toList {α : Type} (q : Four α) : List α := [q.c0, q.c1, q.c2, q.c3]
end Four

/-- One thing for each runner. -/
structure Three (α : Type) where
  r0 : α
  r1 : α
  r2 : α
  deriving DecidableEq, Repr

namespace Three
/-- The thing of runner `r`. -/
def get {α : Type} (q : Three α) (r : RunnerId) : α :=
  match r with
  | 0 => q.r0
  | 1 => q.r1
  | 2 => q.r2

/-- The thing of runner `r` replaced. -/
def set {α : Type} (q : Three α) (r : RunnerId) (x : α) : Three α :=
  match r with
  | 0 => { q with r0 := x }
  | 1 => { q with r1 := x }
  | 2 => { q with r2 := x }

/-- The same thing for every runner. -/
def all {α : Type} (x : α) : Three α := ⟨x, x, x⟩

/-- The three things in runner order. -/
def toList {α : Type} (q : Three α) : List α := [q.r0, q.r1, q.r2]
end Three

end Sys2Proof
end

