-- ==== Sys2Proof/Syntax.lean ====
section
/-! DEFINITION. The commands: one constructor for each row of spec/opcode_table.json. A command is one indivisible
event at one block (95_what_each_step_holds.md). Its operands are what the world outside the part supplies; what one
block hands to another waits in `State`, and the fields of a request wait in its request place (log 1, 3). -/

namespace Sys2Proof

/-- The two reference inputs (R1). -/
inductive RefInput
  | a
  | b
  deriving DecidableEq, Repr

/-- The two parameters that fade and glide (R118, R123). -/
inductive LevelName
  | brightness
  | intensity
  deriving DecidableEq, Repr

/-- The order in which one event releases the three runners; the manual leaves it open (R156, R172). -/
inductive RunnerOrder
  | o012
  | o021
  | o102
  | o120
  | o201
  | o210
  deriving DecidableEq, Repr

/-- The order as a list of runners. -/
def RunnerOrder.toList : RunnerOrder → List RunnerId
  | .o012 => [0, 1, 2]
  | .o021 => [0, 2, 1]
  | .o102 => [1, 0, 2]
  | .o120 => [1, 2, 0]
  | .o201 => [2, 0, 1]
  | .o210 => [2, 1, 0]

/-- What a room notice comes with: its chain, and the order in which the runners that it names go on (R172). -/
structure RoomTurn where
  chain : ChainId
  order : RunnerOrder
  deriving DecidableEq, Repr

/-- The commands, in the table's order. `moment` operands count 1/12,000,000 s (log 4). -/
inductive Instr
  /-- PIN_RESET (R191): RESET_N or power, its end at `moment`. -/
  | pinReset (moment : Nat)
  /-- REF_EDGE (R2): an edge of input `x` at `moment`; with `both`, an edge of the other input is taken together with
  it (R6). -/
  | refEdge (x : RefInput) (moment : Nat) (both : Bool)
  /-- ABSENCE_WATCH_EXPIRY (R3). -/
  | absenceWatchExpiry (x : RefInput)
  /-- HOLDOVER_TIMER_EXPIRY (R10). -/
  | holdoverTimerExpiry
  /-- CHAIN_MANAGER_TICK (R26). -/
  | chainManagerTick (c : ChainId)
  /-- RETURN_DEADLINE (R41). -/
  | returnDeadline (c : ChainId)
  /-- RETURN_ITEM_RECEIVED (R200): the bytes of one item of the return stream. -/
  | returnItemReceived (c : ChainId) (item : List Byte)
  /-- SEGMENT_START (R68). -/
  | segmentStart
  /-- SEGMENT_HEADER (R69): the six header bytes as their four fields. -/
  | segmentHeader (chain : Byte) (address : Byte) (frame : Word16) (length : Word16)
  /-- SEGMENT_END (R71): the payload and the CRC-32 whose last byte is taken. -/
  | segmentEnd (payload : List Byte) (crc : Word32)
  /-- SEGMENT_STALL_EXPIRY (R70). -/
  | segmentStallExpiry
  /-- SEGMENT_INTAKE_TICK (R70). -/
  | segmentIntakeTick
  /-- STORE_COMPLETE (R77). -/
  | storeComplete
  /-- BUFFER_POOL_TICK (R79). -/
  | bufferPoolTick
  /-- SCRUB_TEST_COMPLETE (R84): whether every word read back matched. -/
  | scrubTestComplete (matched : Bool)
  /-- FRAME_ORDER (R91). -/
  | frameOrder (c : ChainId)
  /-- EMISSION_READ_COMPLETE (R99): whether the contents matched their integrity code, and whether the bundle's
  next read is requested before the memory is granted again (log 7). -/
  | emissionReadComplete (matched : Bool) (nextFirst : Bool)
  /-- STILL_READ_REQUEST (R112): the Stills Store takes chain `c`'s request. -/
  | stillReadRequest (c : ChainId)
  /-- STILL_READ_COMPLETE (R112). -/
  | stillReadComplete
  /-- RETURN_TOKEN_SENT (R95). -/
  | returnTokenSent (c : ChainId)
  /-- FAULTED_NOTICE (R105). -/
  | faultedNotice (c : ChainId)
  /-- SCENE_TABLE_TICK (R128). -/
  | sceneTableTick
  /-- FADE_COMPLETE (R128). -/
  | fadeComplete (c : ChainId) (address : Nat) (p : LevelName)
  /-- GLIDE_END (R128). -/
  | glideEnd (c : ChainId) (address : Nat) (p : LevelName)
  /-- CLAMP_NOTICE (R126). -/
  | clampNotice (c : ChainId)
  /-- HALT_NOTICE (R122). -/
  | haltNotice
  /-- SCENE_WRITE (R120, R122). -/
  | sceneWrite
  /-- TALLY_TICK (R134): the levels the eight lines hold when the tick is taken. -/
  | tallyTick (levels : BitVec 8)
  /-- TALLY_BATCH (R140). -/
  | tallyBatch
  /-- RUNNERS_TICK (R156). -/
  | runnersTick (order : RunnerOrder)
  /-- WAIT_EXPIRY (R158). -/
  | waitExpiry (r : RunnerId)
  /-- EXPECT_EXPIRY (R165). -/
  | expectExpiry (r : RunnerId)
  /-- CONFIRM_FIRST_EXPIRY (R168). -/
  | confirmFirstExpiry (r : RunnerId)
  /-- CONFIRM_SECOND_EXPIRY (R170). -/
  | confirmSecondExpiry (r : RunnerId)
  /-- COMPLETE_RETURN_NOTICE (R165). -/
  | completeReturnNotice (c : ChainId) (order : RunnerOrder)
  /-- NODE_LOST_NOTICE (R166). -/
  | nodeLostNotice (c : ChainId) (order : RunnerOrder)
  /-- ROOM_NOTICE (R161): the runners it names go on in `order`. -/
  | roomNotice (turn : RoomTurn)
  /-- EVICTION_NOTICE (R162). -/
  | evictionNotice (c : ChainId)
  /-- CONTROL_LINK_TICK (R184). -/
  | controlLinkTick
  /-- FRAME_REPORT_DUE (R184). -/
  | frameReportDue
  /-- LINK_STALL_EXPIRY (R176). -/
  | linkStallExpiry
  /-- CONTROL_FRAME (R176): the last byte of the frame being received. -/
  | controlFrame (last : Byte)
  /-- UNKNOWN_REQUEST (R179). -/
  | unknownRequest
  /-- TRANSMIT_DONE (R182): the last byte of the frame being sent has left, at `moment`. -/
  | transmitDone (moment : Nat)
  /-- STATUS section REFERENCE (R181). -/
  | statusReference
  /-- STATUS section CHAIN (R181). -/
  | statusChain
  /-- STATUS section INTAKE (R181). -/
  | statusIntake
  /-- STATUS section POOL (R181). -/
  | statusPool
  /-- STATUS section STILLS (R181). -/
  | statusStills
  /-- STATUS section SCENE (R181). -/
  | statusScene
  /-- STATUS section GROUPS (R181). -/
  | statusGroups
  /-- STATUS section TALLY (R181). -/
  | statusTally
  /-- STATUS section RUNNERS (R181). -/
  | statusRunners
  /-- STATUS section LINK (R181). -/
  | statusLink
  /-- REF_SET (R14), taken at `moment`. -/
  | refSet (moment : Nat)
  /-- FRAME_SET (R13). -/
  | frameSet
  /-- CHAIN_SET with ENABLE (R34). -/
  | chainSetEnable
  /-- CHAIN_SET with DISABLE (R36). -/
  | chainSetDisable
  /-- CHAIN_REWALK (R54). -/
  | chainRewalk
  /-- NODE_GET (R37). -/
  | nodeGet
  /-- NODE_SET (R38). -/
  | nodeSet
  /-- NODE_COMMAND with CONFIGURE (R39). -/
  | nodeCommandConfigure
  /-- NODE_COMMAND with ENABLE (R39). -/
  | nodeCommandEnable
  /-- NODE_REINSTATE (R62). -/
  | nodeReinstate
  /-- SEG_SET (R80). -/
  | segSet
  /-- FLOW_CLEAR (R85). -/
  | flowClear
  /-- POOL_SCRUB (R83). -/
  | poolScrub
  /-- STILL_WRITE at offset 0 (R109). -/
  | stillWriteBegin
  /-- STILL_WRITE at a nonzero offset (R110). -/
  | stillWriteContinue
  /-- STILL_CLEAR with scope SLOT (R113). -/
  | stillClearSlot
  /-- STILL_CLEAR with scope PAGE (R113). -/
  | stillClearPage
  /-- LOOK_SET (R121). -/
  | lookSet
  /-- GROUP_SET (R132). -/
  | groupSet
  /-- TALLY_RULE_SET (R137). -/
  | tallyRuleSet
  /-- TALLY_MASK (R135). -/
  | tallyMask
  /-- CUE_LOAD (R148). -/
  | cueLoad
  /-- CUE_READ (R149). -/
  | cueRead
  /-- RUNNER_ARM (R151). -/
  | runnerArm
  /-- RUNNER_GO (R152). -/
  | runnerGo
  /-- RUNNER_HALT (R153). -/
  | runnerHalt
  /-- RUNNER_CONFIRM (R169). -/
  | runnerConfirm
  /-- RUNNER_RESUME (R154). -/
  | runnerResume
  /-- RUNNER_CLEAR (R154). -/
  | runnerClear
  /-- REPORT_SET (R183). -/
  | reportSet
  /-- FAULT_GET (R188). -/
  | faultGet
  /-- FAULT_CLEAR (R189). -/
  | faultClear
  /-- RESET (R190). -/
  | reset
  /-- INCOMING_BYTE (R175): a byte other than the last of a frame, and the line rate it comes at in bit/s (R177). -/
  | incomingByte (b : Byte) (rate : Nat)
  /-- FLOW_MESSAGE_END (R196). -/
  | flowMessageEnd
  deriving DecidableEq, Repr

end Sys2Proof
end

