-- ==== Sys2Proof/Decode.lean ====
section
/-! DEFINITION. The command a word spells. No row of spec/opcode_table.json gives bits: the LF-4120 takes events, not
encoded instructions, so no word spells a command. -/

namespace Sys2Proof

/-- The command that a word of `nbits` bits spells by the table's bits: none, since no row gives bits. -/
def decodeTableWord (_nbits _w : Nat) : Option Instr := none

end Sys2Proof
end

