-- ==== Sys2Proof/Config.lean ====
section
/-! DEFINITION. What one implementation of the part fixes and the manual does not state: constants with no body,
so that no proof can learn a value of theirs. -/

namespace Sys2Proof.Config

/-- The part's identity code, carried by HELLO (R185); the manual gives no value (log 9). -/
opaque identityCode : Word16
/-- The silicon revision, carried by HELLO (R185); the manual gives no value (log 9). -/
opaque siliconRevision : Byte
/-- The integrity code a store writes over the bytes it stored (R77); the manual gives no algorithm (log 6). -/
opaque integrityCode : List Byte → Nat
/-- What a scrub test's pattern leaves at each offset of the buffer it tested (R84); the manual gives no pattern
(log 8). -/
opaque testPattern : Nat → Byte

end Sys2Proof.Config
end

