-- ==== Sys2Proof/Machine/State.lean ====
section
/-! DEFINITION. The state of the LF-4120: every block's registers, tables, queues and buffers as plain data, the messages
on their way between blocks, the queue of commands, and the values after reset. Chapter and rule numbers are those of
spec/. -/

namespace Sys2Proof.Machine

/-- Why a step of the machine would stop. The manual gives every event an effect, so no command raises one: the type
has no constructor (its fourteen "faults", R186, are `PartFault` entries of the capture record). -/
inductive Fault
  deriving DecidableEq, Repr

/-- Why a command would have no meaning here. -/
inductive Refusal
  /-- Raised by `exec` alone, for a row whose meaning is not written; safe, since nothing can be proved of it. -/
  | notModelled (mnemonic : String)
  deriving DecidableEq, Repr

/-! ### Chapter 1: the Reference Unit -/

/-- State of one reference input (R1). -/
inductive InputState
  | absent
  | unstable
  | good
  deriving DecidableEq, Repr

/-- The host's reference modes (R4). -/
inductive RefMode
  | autoA
  | autoB
  | forceA
  | forceB
  | free
  deriving DecidableEq, Repr

/-- The frame rates (R1). -/
inductive FrameRate
  | r25
  | r29_97
  | r50
  | r59_94
  deriving DecidableEq, Repr

/-- The tick sources (R4). -/
inductive TickSource
  | locked (x : RefInput)
  | holdover
  | freeRun
  deriving DecidableEq, Repr

/-- One input record (R1). An UNSTABLE input whose run count is 0 is one that a rate change left so (R15). -/
structure InputRec where
  state : InputState
  run : Nat
  lastEdge : Option Nat
  deriving DecidableEq, Repr

/-- The Reference Unit (chapter 1). Moments count 1/12,000,000 s (log 4). -/
structure RefUnit where
  a : InputRec
  b : InputRec
  mode : RefMode
  rate : FrameRate
  source : TickSource
  /-- Pending switch (R8). -/
  switch : Option RefInput
  /-- Frame counter; its value is E (R12). -/
  counter : Word16
  pendingFrame : Option Word16
  lastTick : Option Nat
  /-- Moment of the holdover timer's next expiry; `none` while it is stopped (R10). -/
  timer : Option Nat
  /-- Moment the last reset ended (R10). -/
  resetEnd : Nat
  /-- Latest moment the unit has seen (log 4). -/
  now : Nat
  deriving DecidableEq, Repr

/-! ### Chapter 2: nodes, commands to nodes -/

/-- States of an enrolled record (R24); ABSENT is the absence of the record. -/
inductive NodeState
  | ident
  | live
  | suspect
  | failed
  | cut
  deriving DecidableEq, Repr

/-- A node's own mode (R20). -/
inductive NodeMode
  | ident
  | live
  deriving DecidableEq, Repr

/-- A route (R19). -/
inductive Route
  | normal
  | skipNext
  deriving DecidableEq, Repr

/-- A tile's gap policy (R100); `repeatHeld` is REPEAT. -/
inductive GapPolicy
  | repeatHeld
  | still
  | black
  deriving DecidableEq, Repr

/-- The kinds of node without their data. -/
inductive KindName
  | tile
  | lamp
  deriving DecidableEq, Repr

/-- What a record holds for a tile and not for a lamp (R23). -/
structure TileSettings where
  gap : GapPolicy
  fallback : Option Nat
  gapCount : Nat
  lateCount : Nat
  deriving DecidableEq, Repr

/-- The kind of a node, with the tile's own fields (R23). -/
inductive NodeKind
  | tile (t : TileSettings)
  | lamp
  deriving DecidableEq, Repr

/-- Identity: model code and serial number (R23, R199). -/
structure Identity where
  model : Word16
  serial : Word32
  deriving DecidableEq, Repr

/-- An enrolled node record (R23). The table hop is computed (R21); the held buffer is the assembler's (R89). -/
structure Node where
  kind : NodeKind
  position : Nat
  state : NodeState
  mode : NodeMode
  tag : Byte
  gen : Option (BitVec 4)
  silent : Nat
  mismatch : Bool
  /-- Bit 0 OVERHEAT, 1 PIXEL_FAULT, 2 LAMP_FAULT, 3 SUPPLY_WARN (R199). -/
  health : BitVec 4
  identity : Option Identity
  route : Route
  clamp : Nat
  deriving DecidableEq, Repr

/-- A node reference: chain and address. -/
structure NodeRef where
  chain : ChainId
  address : Nat
  deriving DecidableEq, Repr

/-- The five settings of a CONFIGURE (R39); `rotation` 0 to 3 stands for 0, 90, 180, 270. -/
structure ConfigSettings where
  colour : Nat
  gamma : Nat
  rotation : Nat
  dimming : Nat
  fan : Nat
  deriving DecidableEq, Repr

/-- Commands to nodes (R20, R28). A ROUTE with no target is for the chain port. -/
inductive Cmd
  | setEnd (hop : Nat) (on : Bool)
  | route (target : Option Nat) (r : Route)
  | configure (address : Nat) (tag : Byte) (settings : ConfigSettings)
  | enable (address : Nat)
  deriving DecidableEq, Repr

/-- Commands of the configuration class (R28), the only ones that a runner or the host offers. -/
inductive ConfigCmd
  | configure (address : Nat) (tag : Byte) (settings : ConfigSettings)
  | enable (address : Nat)
  deriving DecidableEq, Repr

/-- Who issued a queued command (R28). -/
inductive Issuer
  | manager
  | control
  | runner (r : RunnerId)
  deriving DecidableEq, Repr

/-- An entry of a command queue (R28). `ofAttempt` marks the ROUTE of the present repair attempt (R60, R64), `endsWalk` the
last command of the set-back of a walk that ended (R53). -/
structure QEntry where
  cmd : Cmd
  issuer : Issuer
  ofAttempt : Bool
  endsWalk : Bool := false
  deriving DecidableEq, Repr

/-- A runner's claim waiting on a command queue (R29). -/
structure QClaim where
  runner : RunnerId
  cmd : ConfigCmd
  deriving DecidableEq, Repr

/-! ### Chapters 2 and 3: the chain record -/

/-- Chain states (R25, R26). -/
inductive ChainMode
  | off
  | walking
  | running
  | extending
  | broken
  | faulted
  deriving DecidableEq, Repr

/-- Kinds of repair attempt (R57). -/
inductive AttemptKind
  | bypass
  | reinstate
  deriving DecidableEq, Repr

/-- Phases of a repair attempt (R57). -/
inductive AttemptPhase
  | routing
  | deciding
  deriving DecidableEq, Repr

/-- A repair attempt (R57). A predecessor that is absent is the chain port. -/
structure Attempt where
  kind : AttemptKind
  target : Nat
  pred : Option Nat
  phase : AttemptPhase
  trialEnd : Nat
  /-- The deciding bundle has been prepared (R60). -/
  bundled : Bool
  /-- The attempt's ROUTE was evicted from the queue (R64). -/
  evicted : Bool
  /-- The deciding bundle has left with no END designated, so that it has no return (R41, log 16). -/
  lapsed : Bool
  deriving DecidableEq, Repr

/-- A place on a bundle's path (R42): its position, and the address of the node there (none at the probe place). -/
structure Place where
  position : Nat
  address : Option Nat
  deriving DecidableEq, Repr

/-- What the Chain Manager keeps of a bundle it prepared (R41, R42). -/
structure BundleInfo where
  frame : Word16
  path : List Place
  /-- The probe hop, when the path ends with the probe place. -/
  probe : Option Nat
  /-- The position at which the path stopped (R51). -/
  stop : Nat
  /-- This is the deciding bundle of the present attempt (R60). -/
  deciding : Bool
  deriving DecidableEq, Repr

/-- A node block of a bundle (R197). -/
inductive Block
  | empty
  | poll
  | level (intensity : Nat) (preset : Nat)
  | tileBlack (brightness : Nat)
  | tileImage (brightness : Nat) (image : List Byte)
  deriving DecidableEq, Repr

/-- A status block as it came (R199). -/
structure StatusBlock where
  hop : Byte
  address : Byte
  kind : Byte
  mode : Byte
  tag : Byte
  gen : Byte
  health : Byte
  identity : Option Identity
  deriving DecidableEq, Repr

/-- A return being collected (R41, R200). -/
structure Collection where
  info : BundleInfo
  /-- An unknown type byte stopped the reading (R200, step 1). -/
  stopped : Bool
  /-- The bytes since the return began, or since its last discarded trailer. -/
  bytes : List Byte
  blocks : List StatusBlock
  deriving DecidableEq, Repr

/-- A node that entered FAILED, CUT or ABSENT while a return or a deadline was handled (R49): where it stood, its kind,
whether it was reachable just before, and the runners that reached an EXPECT after the loss (log 22). -/
structure LostNode where
  address : Nat
  position : Nat
  kind : KindName
  reachable : Bool
  since : Three Bool
  deriving DecidableEq, Repr

/-- A probe bundle whose return token has not left (R50). `ordered` tells that the assembler has taken the frame order of
its tick: a later order waits for it (R91, log 20). -/
structure ProbeBundle where
  info : BundleInfo
  gen : BitVec 4
  cmds : List Cmd
  blocks : List Block
  ordered : Bool
  deriving DecidableEq, Repr

/-- The chain counters of R25 and R200. -/
structure ChainCounters where
  sent : Nat
  discarded : Nat
  dropped : Nat
  complete : Nat
  missing : Nat
  returnCheck : Nat
  blockRange : Nat
  deriving DecidableEq, Repr

/-- One Chain Manager: chain record, command queue, its part of the node table, its return (chapters 2 and 3). -/
structure Chain where
  state : ChainMode
  endHop : Option Nat
  probeHop : Option Nat
  breakCount : Nat
  silentLimit : Nat
  breakLimit : Nat
  lookGen : BitVec 4
  portRoute : Route
  pendingDisable : Bool
  attempt : Option Attempt
  brokenFrom : Option Nat
  /-- Stranger memory: path hop and address (R43). -/
  stranger : Option (Byte × Byte)
  counters : ChainCounters
  queue : List QEntry
  claims : List QClaim
  /-- Records of addresses 1 to 30, in that order; `none` is ABSENT. -/
  nodes : List (Option Node)
  lastPath : List Place
  collect : Option Collection
  probes : List ProbeBundle
  walkDoneDue : Nat
  /-- Node-lost notices held until the handling of the tick ends (R49). -/
  lostHeld : List LostNode
  deriving DecidableEq, Repr

/-! ### Chapter 4: Segment Intake, Buffer Pool, memory arbiter -/

/-- A segment header (R66, R195). -/
structure SegHeader where
  chain : ChainId
  address : Nat
  frame : Word16
  length : Nat
  deriving DecidableEq, Repr

/-- A staging entry (R67). -/
inductive Entry
  | free
  | receiving (header : Option SegHeader) (ticks : Nat)
  | queued (header : SegHeader) (payload : List Byte) (buffer : Nat)
  | storing (header : SegHeader) (payload : List Byte) (buffer : Nat) (flushed : Bool)
  deriving DecidableEq, Repr

/-- The fourteen outcomes the intake counts (R82). -/
structure IntakeCounts where
  received : Nat
  filed : Nat
  badLength : Nat
  badTarget : Nat
  overrun : Nat
  stall : Nat
  check : Nat
  chainOff : Nat
  notLive : Nat
  late : Nat
  early : Nat
  nobuf : Nat
  dup : Nat
  flushed : Nat
  deriving DecidableEq, Repr

/-- The Segment Intake (chapter 4). -/
structure Intake where
  e0 : Entry
  e1 : Entry
  total : IntakeCounts
  since : IntakeCounts
  /-- A FLOW_CLEAR waits for its reply (R85). -/
  clearWaiting : Bool
  deriving DecidableEq, Repr

/-- The two staging entries by number. -/
inductive EntryId
  | e0
  | e1
  deriving DecidableEq, Repr

/-- A buffer on the free list, and the entry that reserved it (R74). -/
structure FreeBuf where
  buffer : Nat
  reservedBy : Option EntryId
  deriving DecidableEq, Repr

/-- An operation of the segment memory (R76). -/
inductive MemOp
  | read (c : ChainId) (buffer : Nat)
  | store (e : EntryId)
  | test (buffer : Nat)
  deriving DecidableEq, Repr

/-- A running scrub (R83, R84): buffers still to test, the first of them being tested or waiting for the arbiter. -/
structure Scrub where
  todo : List Nat
  tested : Nat
  returned : Nat
  kept : Nat
  deriving DecidableEq, Repr

/-- Length and integrity code of the segment stored in a buffer (R74). -/
structure BufInfo where
  length : Nat
  code : Nat
  deriving DecidableEq, Repr

/-- Flow messages (R195). -/
inductive FlowMsg
  | pause (frame : Word16) (p : Nat)
  | resume (frame : Word16)
  deriving DecidableEq, Repr

/-- The Buffer Pool, the memory arbiter and the segment memory (chapter 4). -/
structure Pool where
  free : List FreeBuf
  /-- Quarantine list: buffer and fail count. -/
  quarantine : List (Nat × Nat)
  pause : Bool
  exhausted : Bool
  threshold : Nat
  pauseLen : Nat
  scrub : Option Scrub
  info : List (Option BufInfo)
  /-- Segment memory, as address and byte, in canonical form (Machine/Memory.lean). -/
  memory : List Host.Cell
  busy : Option MemOp
  reads : List (ChainId × Nat)
  stores : List EntryId
  testWaiting : Bool
  /-- Flow messages on the outbound path, the first of them leaving (R196). -/
  flowOut : List FlowMsg
  deriving DecidableEq, Repr

/-! ### Chapter 5: Frame Assembler -/

/-- A tile's source (R116). -/
inductive TileSource
  | liveFeed
  | still (page : Nat)
  | freeze
  | black
  deriving DecidableEq, Repr

/-- The outputs of one scene entry in a post (R129). -/
structure Look where
  source : TileSource
  brightness : Nat
  intensity : Nat
  preset : Nat
  deriving DecidableEq, Repr

/-- A post (R94, R129): the look of 30 entries and its look generation. -/
structure Post where
  gen : BitVec 4
  looks : List Look
  deriving DecidableEq, Repr

/-- An entry of a chain's frame-slot map (R88). -/
structure FrameSlot where
  frame : Word16
  address : Nat
  buffer : Nat
  deriving DecidableEq, Repr

/-- What a frame order asks (R91). -/
inductive OrderKind
  | assemble (info : BundleInfo) (cmds : List Cmd)
  | disable
  | none
  deriving DecidableEq, Repr

/-- A frame order (R91). -/
structure FrameOrder where
  frame : Word16
  kind : OrderKind
  deriving DecidableEq, Repr

/-- A node block still to be built, with what was read when the order was taken (R91, R96). -/
inductive Job
  | fixed (b : Block)
  | tile (address : Nat) (source : TileSource) (brightness : Nat) (gap : GapPolicy) (fallback : Option Nat)
  deriving DecidableEq, Repr

/-- Why a read of segment memory was asked (R102). -/
inductive ReadWhy
  | segment
  | gapHeld
  | freeze
  deriving DecidableEq, Repr

/-- What a bundle in emission waits for. -/
inductive BundleWait
  /-- An emission read of a buffer, waiting at the arbiter or in progress (R101). -/
  | memRead (address : Nat) (brightness : Nat) (gap : GapPolicy) (fallback : Option Nat) (buffer : Nat) (why : ReadWhy)
  /-- A still read on its way to the Stills Store (R112); `gapFill` tells a gap from a STILL source. -/
  | stillAsk (address : Nat) (brightness : Nat) (page : Nat) (gapFill : Bool)
  /-- A still read the Stills Store has taken (R112). -/
  | stillRead (address : Nat) (brightness : Nat) (page : Nat)
  /-- Every block is out; the return token has not left (R95). -/
  | token
  deriving DecidableEq, Repr

/-- A bundle in emission (R90, R95). -/
structure Bundle where
  info : BundleInfo
  gen : BitVec 4
  cmds : List Cmd
  /-- Emitting set: address and buffer (R90). -/
  emitting : List (Nat × Nat)
  /-- Blocks gone out, in path-hop order. -/
  out : List Block
  jobs : List Job
  wait : BundleWait
  /-- Stopped by a FAULTED notice; a read in progress has still to complete (R105). -/
  stopping : Bool
  deriving DecidableEq, Repr

/-- The assembler's chain counters (R103). -/
structure AsmCounters where
  bundles : Nat
  overrun : Nat
  sent : Nat
  gaps : Nat
  stillEmpty : Nat
  superseded : Nat
  withdrawn : Nat
  expiredLate : Nat
  expiredEarly : Nat
  returned : Nat
  memCheck : Nat
  deriving DecidableEq, Repr

/-- The Frame Assembler's state for one chain (chapter 5). -/
structure AsmChain where
  slots : List FrameSlot
  /-- Held references of addresses 1 to 30 (R89). -/
  held : List (Option Nat)
  posts : List Post
  lastPost : Post
  bundle : Option Bundle
  /-- Orders waiting for the previous bundle (R91). -/
  waiting : List FrameOrder
  clearDue : Bool
  counters : AsmCounters
  deriving DecidableEq, Repr

/-! ### Chapter 6: Stills Store -/

/-- A still slot (R107). The next offset of a fill is the number of bytes received. -/
inductive StillSlot
  | empty
  | filling (total : Nat) (data : List Byte)
  | ready (data : List Byte) (reading : Bool)
  deriving DecidableEq, Repr

/-- A still slot's name (R107). -/
structure StillRef where
  page : Nat
  chain : ChainId
  address : Nat
  deriving DecidableEq, Repr

/-- The Stills Store (chapter 6). -/
structure Stills where
  /-- 480 slots: page × 120 + chain × 30 + address − 1. -/
  slots : List StillSlot
  /-- Reads taken and not completed; the first is being served (R112). -/
  reads : List StillRef
  deriving DecidableEq, Repr

/-! ### Chapters 7 and 8: Scene Table and Tally Unit -/

/-- Writer identities (00_scope.md). -/
inductive Writer
  | none
  | control
  | runner (r : RunnerId)
  deriving DecidableEq, Repr

/-- A fade (R118); its owner is the parameter's owner. -/
structure Fade where
  start : Nat
  target : Nat
  length : Nat
  elapsed : Nat
  deriving DecidableEq, Repr

/-- Glide kinds (R123). -/
inductive GlideKind
  | attack
  | release
  deriving DecidableEq, Repr

/-- A glide (R123). -/
structure Glide where
  kind : GlideKind
  start : Nat
  length : Nat
  elapsed : Nat
  deriving DecidableEq, Repr

/-- Driving rule and override value (R123). -/
structure Drive where
  rule : Nat
  value : Nat
  deriving DecidableEq, Repr

/-- SOURCE of an entry (R117). -/
structure SourceParam where
  base : TileSource
  owner : Writer
  deriving DecidableEq, Repr

/-- BRIGHTNESS or INTENSITY of an entry (R117, R118, R123). -/
structure LevelParam where
  base : Nat
  owner : Writer
  fade : Option Fade
  drive : Option Drive
  glide : Option Glide
  deriving DecidableEq, Repr

/-- PRESET of an entry (R117, R123). -/
structure PresetParam where
  base : Nat
  owner : Writer
  drive : Option Drive
  deriving DecidableEq, Repr

/-- A scene entry with its clamp notice (R116, R126). -/
structure SceneEntry where
  source : SourceParam
  brightness : LevelParam
  intensity : LevelParam
  preset : PresetParam
  clamp : Nat
  overheat : Bool
  deriving DecidableEq, Repr

/-- Kind filters of a selector. -/
inductive KindFilter
  | tile
  | lamp
  | any
  deriving DecidableEq, Repr

/-- Selectors (R119): an absent chain or address is ALL. -/
inductive Selector
  | nodes (chain : Option ChainId) (address : Option Nat) (filter : KindFilter)
  | group (g : Nat)
  deriving DecidableEq, Repr

/-- The parameters that can be overridden (R116). -/
inductive OverParam
  | brightness
  | intensity
  | preset
  deriving DecidableEq, Repr

/-- A claim record (R139). -/
structure ClaimRecord where
  param : OverParam
  value : Nat
  attack : Nat
  release : Nat
  entries : List NodeRef
  deriving DecidableEq, Repr

/-- The Scene Table (chapters 7 and 8). -/
structure Scene where
  /-- 120 entries: chain × 30 + address − 1. -/
  entries : List SceneEntry
  groups : List (List NodeRef)
  /-- The last post handed for each chain, with the chain's look generation (R130). -/
  previous : Four Post
  claims : List (Option ClaimRecord)
  deriving DecidableEq, Repr

/-- Senses of a tally rule (R136). -/
inductive Sense
  | on
  | off
  deriving DecidableEq, Repr

/-- A tally rule (R136). -/
structure TallyRule where
  enabled : Bool
  line : Nat
  sense : Sense
  target : Selector
  param : OverParam
  value : Nat
  attack : Nat
  release : Nat
  deriving DecidableEq, Repr

/-- The Tally Unit (chapter 8); bit k is line k. -/
structure Tally where
  sample : BitVec 8
  latched : BitVec 8
  mask : BitVec 8
  rules : List TallyRule
  deriving DecidableEq, Repr

/-- A claim of the Tally Unit (R138). -/
inductive TallyClaim
  | activate (rule : Nat) (target : Selector) (param : OverParam) (value attack release : Nat)
  | deactivate (rule : Nat)
  deriving DecidableEq, Repr

/-! ### Chapter 9: cue slots and runners -/

/-- A value for one look parameter (R121, R147). -/
inductive LookValue
  | source (s : TileSource)
  | brightness (v : Nat)
  | intensity (v : Nat)
  | preset (v : Nat)
  deriving DecidableEq, Repr

/-- Conditions of an EXPECT (R164). -/
inductive Condition
  | modeLive
  | configTag (t : Byte)
  | applied
  deriving DecidableEq, Repr

/-- Steps of a cue list (R147). -/
inductive CueStep
  | look (sel : Selector) (v : LookValue)
  | fade (sel : Selector) (p : LevelName) (target : Nat) (frames : Nat)
  | wait (frames : Nat)
  | syncFrame (f : Word16)
  | syncGo
  | configure (sel : Selector) (tag : Byte) (settings : ConfigSettings)
  | enable (sel : Selector)
  | expect (sel : Selector) (cond : Condition) (window : Nat) (strict : Bool)
  | confirm (window : Nat) (fallback : Option Nat)
  | finish
  | stop
  deriving DecidableEq, Repr

/-- Outcomes of a done mark (R146). -/
inductive MarkOutcome
  | done
  | late
  | missed
  | fellBack
  deriving DecidableEq, Repr

/-- A done mark (R146). -/
structure Mark where
  runner : RunnerId
  frame : Word16
  outcome : MarkOutcome
  deriving DecidableEq, Repr

/-- A step of a loaded slot with its done mark. -/
structure SlotStep where
  step : CueStep
  mark : Option Mark
  deriving DecidableEq, Repr

/-- Abort reasons (R150). -/
inductive AbortReason
  | halted
  | queueEvicted
  | expectFailed
  | unconfirmed
  deriving DecidableEq, Repr

/-- The waits of a runner (R150). -/
inductive Wait
  | ticks (left : Nat)
  | frame (f : Word16)
  | go
  /-- The waiting command's chain, the command, and the references still to offer. -/
  | room (chain : ChainId) (cmd : ConfigCmd) (rest : List NodeRef)
  /-- The selection, its kind filter where the selector has one, g0 of each selected chain, ticks left. -/
  | check (selection : List NodeRef) (filter : Option KindFilter) (g0 : List (ChainId × BitVec 4)) (left : Nat)
  | confirm (second : Bool) (left : Nat)
  deriving DecidableEq, Repr

/-- Runner states (R150). -/
inductive RunState
  | idle
  | armed
  | waiting (w : Wait)
  | parked
  | aborted (reason : AbortReason)
  deriving DecidableEq, Repr

/-- A runner record (R150). -/
structure Runner where
  state : RunState
  slot : Option Nat
  step : Option Nat
  deriving DecidableEq, Repr

/-- The Cue Store and Runners (chapter 9); an EMPTY slot is `none`. -/
structure Cues where
  slots : List (Option (List SlotStep))
  runners : Three Runner
  deriving DecidableEq, Repr

/-! ### Chapter 10: faults, reports, replies, the Control Link -/

/-- How a locked input was lost (R17). -/
inductive LossManner
  | absent
  | unstable
  deriving DecidableEq, Repr

/-- Why the Control Link discarded a frame (R175, R176). -/
inductive LinkCheck
  | length
  | check
  | stall
  deriving DecidableEq, Repr

/-- Why an EXPECT failed, with the node it names (R167). -/
inductive ExpectFail
  | expired (node : Option NodeRef)
  | nodeLost (node : NodeRef)
  deriving DecidableEq, Repr

/-- The fourteen faults of the part with their details (R186). -/
inductive PartFault
  | refLost (x : RefInput) (manner : LossManner)
  | refHoldover (left : TickSource)
  | chainBroken (endHop : Option Nat)
  | chainCut (h : Nat)
  | addrClash (recordPosition : Option Nat) (pathPosition : Option Nat) (hop : Nat)
  | modeMismatch (state : NodeState) (mode : NodeMode)
  | segCheck (frame : Word16)
  | segStall (frame : Option Word16)
  | segOverrun
  | poolEmpty (frame : Word16)
  | memCheck (buffer : Nat) (frame : Word16)
  | expectFailed (r : RunnerId) (step : Nat) (cond : Condition) (cause : ExpectFail)
  | confirmFallback (r : RunnerId) (step : Nat) (fallback : Nat)
  | linkCheck (detail : LinkCheck)
  deriving DecidableEq, Repr

/-- Sources of a fault (R186). -/
inductive FaultSource
  | reference
  | chain (c : ChainId)
  | intake
  | pool
  | assembler
  | runners
  | link
  deriving DecidableEq, Repr

/-- A fault as the Control Link captures it (R186). -/
structure FaultRecord where
  fault : PartFault
  source : FaultSource
  frame : Word16
  node : Option NodeRef
  deriving DecidableEq, Repr

/-- Causes of a reset that HELLO carries (R185). -/
inductive ResetCause
  | pin
  | request
  deriving DecidableEq, Repr

/-- Causes of a REF report (R16). -/
inductive RefCause
  | inputA
  | inputB
  | source
  deriving DecidableEq, Repr

/-- What every NODE report carries of an enrolled record (R49). -/
structure NodeBrief where
  state : NodeState
  position : Nat
  hop : Option Nat
  mode : NodeMode
  tag : Byte
  health : BitVec 4
  deriving DecidableEq, Repr

/-- Causes of a NODE report, with what the cause adds (R43, R45, R49). -/
inductive NodeCause
  | joined
  | found
  | left
  | stranger (hop : Byte) (kind : Byte)
  | replaced (identity : Identity)
  | health
  | mismatch
  | failed
  | cut
  | reinstated
  | reinstateFailed
  deriving DecidableEq, Repr

/-- Causes of a CHAIN report (R27). -/
inductive ChainCause
  | enabled
  | walkDone
  | rewalk
  | broken
  | repaired
  | cut
  | faulted
  | disabled
  | cmdDropped (cmd : Cmd) (issuer : Issuer)
  deriving DecidableEq, Repr

/-- The number of enrolled records in each state (R27). -/
structure StateCounts where
  ident : Nat
  live : Nat
  suspect : Nat
  failed : Nat
  cut : Nat
  deriving DecidableEq, Repr

/-- Causes of a FLOW report (R81). -/
inductive FlowCause
  | pauseStart
  | pauseEnd
  deriving DecidableEq, Repr

/-- A command evicted from a queue, as an eviction notice names it (R162). -/
structure Evicted where
  chain : ChainId
  cmd : Cmd
  deriving DecidableEq, Repr

/-- Causes of a CUE report with their details (R173). -/
inductive CueCause
  | syncLate (f : Word16) (e : Word16)
  | expectMissed (cond : Condition) (cause : ExpectFail)
  | confirmWanted (window : Nat)
  | confirmOverdue (window : Nat)
  | parked
  | done
  | aborted (reason : AbortReason) (evicted : Option Evicted)
  deriving DecidableEq, Repr

/-- Reports (R183 lists the rules that make them). -/
inductive ReportBody
  | hello (cause : ResetCause) (rate : Option Nat)
  | frame (e : Word16) (source : TickSource) (free quarantine : Nat) (pause : Bool) (chains : Four ChainMode)
      (intake : IntakeCounts) (lost : Nat) (faults : Nat)
  | ref (cause : RefCause) (mode : RefMode) (rate : FrameRate) (a b : InputState) (source : TickSource)
      (counter : Word16)
  | node (cause : NodeCause) (chain : ChainId) (address : Nat) (brief : Option NodeBrief)
  | chain (cause : ChainCause) (chain : ChainId) (state : ChainMode) (endHop : Option Nat) (counts : StateCounts)
  | flow (cause : FlowCause) (e : Word16) (free quarantine threshold pauseLen : Nat)
  | pool (tested returned kept quarantine free : Nat) (e : Word16)
  | cue (cause : CueCause) (runner : RunnerId) (slot : Option Nat) (step : Option Nat) (e : Word16)
  | fault (record : FaultRecord) (count : Nat) (captured : Bool)
  deriving DecidableEq, Repr

/-- A report in the queue: its sequence number, E when it was made, and its body (R182, R193). -/
structure Report where
  seq : Byte
  frame : Word16
  body : ReportBody
  deriving DecidableEq, Repr

/-- Reply codes, in the order of R180. -/
inductive ReplyCode
  | ok
  | unknown
  | badArg
  | busy
  | full
  | state
  | notFound
  | sequence
  | check
  deriving DecidableEq, Repr

/-- STATUS section CHAIN: the values of R25 that a reply returns, in its order, then those of R181. -/
structure ChainStatus where
  state : ChainMode
  endHop : Option Nat
  portRoute : Route
  breakCount : Nat
  silentLimit : Nat
  breakLimit : Nat
  counters : ChainCounters
  absent : Nat
  counts : StateCounts
  assembler : AsmCounters
  /-- Number of frame-slot entries for each frame that has one (log 54). -/
  slots : List (Word16 × Nat)
  deriving DecidableEq, Repr

/-- Phases of a staging entry as STATUS shows them (R181). -/
inductive EntryPhase
  | free
  | receiving
  | queued
  | storing
  deriving DecidableEq, Repr

/-- The number of still slots of a page in each state (R108). -/
structure PageCounts where
  empty : Nat
  filling : Nat
  ready : Nat
  deriving DecidableEq, Repr

/-- The number of parameters of a chain owned by each writer identity (R117). -/
structure OwnerCounts where
  none : Nat
  control : Nat
  runners : Three Nat
  deriving DecidableEq, Repr

/-- Counters of the Control Link (R176). -/
structure LinkCounters where
  received : Nat
  hunted : Nat
  lengthDiscards : Nat
  checkDiscards : Nat
  stallDiscards : Nat
  refusedFull : Nat
  dropped : Nat
  deriving DecidableEq, Repr

/-- States of a still slot as replies show them (R111). -/
inductive StillState
  | empty
  | filling
  | ready
  deriving DecidableEq, Repr

/-- The reply's own fields (R180). -/
inductive ReplyBody
  | empty
  | statusReference (source : TickSource) (mode : RefMode) (rate : FrameRate) (a b : InputState) (counter : Word16)
      (pending : Bool)
  | statusChain (s : ChainStatus)
  | statusIntake (e0 e1 : EntryPhase) (hold : Bool) (total : IntakeCounts)
  | statusPool (free quarantine : Nat) (pause : Bool) (threshold pauseLen : Nat) (exhausted : Bool)
      (scrub : Option Nat)
  | statusStills (reserved unreserved : Nat) (pages : Four PageCounts)
  | statusScene (gens : Four (BitVec 4)) (owners : Four OwnerCounts)
  | statusGroups (groups : List (List NodeRef))
  | statusTally (latched sample mask : BitVec 8) (rules : List (TallyRule × Bool)) (claims : List (Option Nat))
  | statusRunners (runners : Three Runner)
  | statusLink (held reports lost : Nat) (mask : BitVec 8) (period : Nat) (counters : LinkCounters) (faults : Nat)
      (rate : Option Nat)
  | nodeGet (address : Nat) (node : Option Node) (hop : Option Nat) (held : Bool)
  | still (slot : Option (StillState × Option Nat)) (unreserved : Nat)
  | stillClear (emptied unreserved : Nat)
  | look (written skipped : Nat)
  | group (kept : Nat)
  | ruleActive (active : Bool)
  | cueLoad (steps : Nat)
  | cueBadStep (index : Nat)
  | cueRead (steps : Option (List SlotStep)) (runners : List (RunnerId × RunState))
  | faults (count : Nat) (captured : Option FaultRecord)
  deriving DecidableEq, Repr

/-- A reply (R180). `refusal` tells the reply of the refusal place (R178). -/
structure Reply where
  kind : Byte
  tag : Byte
  code : ReplyCode
  body : ReplyBody
  refusal : Bool
  deriving DecidableEq, Repr

/-- A request in its place, not yet taken (R178). -/
structure Request where
  kind : Byte
  tag : Byte
  body : List Byte
  deriving DecidableEq, Repr

/-- What a deferred reply waits for (R180). -/
inductive Deferral
  | disable (c : ChainId)
  | flowClear
  deriving DecidableEq, Repr

/-- A deferred request in its place (R180). -/
structure Deferred where
  kind : Byte
  tag : Byte
  what : Deferral
  deriving DecidableEq, Repr

/-- The frame the transmitter sends (R182). -/
inductive Sending
  | reply (r : Reply)
  | report (r : Report)
  deriving DecidableEq, Repr

/-- The receiver (R175): the bytes after the sync byte, and the ticks of the stall watch. -/
inductive Receiver
  | hunting
  | receiving (bytes : List Byte) (ticks : Nat)
  deriving DecidableEq, Repr

/-- The Control Link (chapter 10). -/
structure Link where
  receiver : Receiver
  /-- Learned line rate in bit/s (R177). -/
  rate : Option Nat
  waiting : List Request
  deferred : List Deferred
  ready : List Reply
  tx : Option Sending
  reports : List Report
  /-- The next report sequence number. -/
  seq : Byte
  lost : Nat
  /-- Bit k is the k-th kind of R183: FRAME, REF, NODE, CHAIN, FLOW, POOL, CUE, FAULT. -/
  mask : BitVec 8
  period : Nat
  tickCount : Nat
  captured : Option FaultRecord
  faultCount : Nat
  counters : LinkCounters
  /-- A RESET has been taken (R190). -/
  resetting : Bool
  deriving DecidableEq, Repr

/-! ### Messages between blocks -/

/-- Delivered ticks not yet taken, by block (R12). -/
structure Ticks where
  chains : Four (List Word16)
  intake : List Word16
  pool : List Word16
  scene : List Word16
  tally : List Word16
  runners : Three (List Word16)
  link : List Word16
  deriving DecidableEq, Repr

/-- What a Chain Manager hands the Scene Table (R126). -/
inductive ClampMsg
  | enrolled (address : Nat) (clamp : Nat) (overheat : Bool)
  | health (address : Nat) (overheat : Bool)
  | clamp (address : Nat) (clamp : Nat)
  | absent (address : Nat)
  deriving DecidableEq, Repr

/-- What a Chain Manager hands the Frame Assembler: a frame order (R91), or the notice that its chain is FAULTED (R52). -/
inductive AsmMsg
  | order (o : FrameOrder)
  | faulted
  deriving DecidableEq, Repr

/-- What the Runners hand the Scene Table (R122). -/
inductive SceneMsg
  | write (sel : Selector) (v : LookValue) (fade : Option Nat) (r : RunnerId)
  | halt (r : RunnerId)
  deriving DecidableEq, Repr

/-- What a Chain Manager hands the Runners (R49, R161, R162). A node-lost notice tells the node's kind, whether it
was reachable just before, and the runners that reached an EXPECT after the loss (log 22). A room notice names every runner
that one event gave room, in the order of their claims (R172, log 24). -/
inductive RunnerMsg
  | lost (address : Nat) (kind : KindName) (reachable : Bool) (since : Three Bool)
  | complete
  | room (runners : List RunnerId)
  | evicted (r : RunnerId) (cmd : Cmd)
  deriving DecidableEq, Repr

/-- The messages on their way (log 3); each list is first in, first out. -/
structure Mail where
  ticks : Ticks
  orders : Four (List AsmMsg)
  clamps : Four (List ClampMsg)
  toScene : List SceneMsg
  batches : List (List TallyClaim)
  notices : Four (List RunnerMsg)
  deriving DecidableEq, Repr

/-! ### The whole part -/

/-- The state of the LF-4120 and the queue of commands that are waiting. -/
structure State where
  pending : List Instr
  ref : RefUnit
  chains : Four Chain
  intake : Intake
  pool : Pool
  asm : Four AsmChain
  stills : Stills
  scene : Scene
  tally : Tally
  cues : Cues
  link : Link
  mail : Mail
  deriving DecidableEq, Repr

/-! ### Values after reset -/

/-- R18, R1. -/
def InputRec.reset : InputRec := { state := .absent, run := 0, lastEdge := none }

/-- The nominal period of a frame rate in 1/12,000,000 s: 1/25, 1001/30000, 1/50, 1001/60000 s (R1, log 4). -/
def FrameRate.period : FrameRate → Nat
  | .r25 => 480000
  | .r29_97 => 400400
  | .r50 => 240000
  | .r59_94 => 200200

/-- R18; the timer's first expiry is one nominal period of rate 50 after the reset's end. -/
def RefUnit.resetAt (moment : Nat) : RefUnit :=
  { a := .reset, b := .reset, mode := .autoA, rate := .r50, source := .freeRun, switch := none, counter := 0,
    pendingFrame := none, lastTick := none, timer := some (moment + FrameRate.r50.period), resetEnd := moment,
    now := moment }

/-- R40, R65. -/
def Chain.reset : Chain :=
  { state := .off, endHop := none, probeHop := none, breakCount := 0, silentLimit := 3, breakLimit := 3, lookGen := 0,
    portRoute := .normal, pendingDisable := false, attempt := none, brokenFrom := none, stranger := none,
    counters := { sent := 0, discarded := 0, dropped := 0, complete := 0, missing := 0, returnCheck := 0, blockRange := 0 },
    queue := [], claims := [], nodes := List.replicate 30 none, lastPath := [], collect := none, probes := [],
    walkDoneDue := 0, lostHeld := [] }

/-- All fourteen counts 0. -/
def IntakeCounts.zero : IntakeCounts :=
  { received := 0, filed := 0, badLength := 0, badTarget := 0, overrun := 0, stall := 0, check := 0, chainOff := 0,
    notLive := 0, late := 0, early := 0, nobuf := 0, dup := 0, flushed := 0 }

/-- R87. -/
def Intake.reset : Intake := { e0 := .free, e1 := .free, total := .zero, since := .zero, clearWaiting := false }

/-- R87: the pool sends one RESUME at the end of the reset, when E is 0. Every byte of the segment memory is 0, after power-up,
a pin reset and a RESET request alike: the model's choice (log 8). -/
def Pool.reset : Pool :=
  { free := (List.range 512).map fun b => { buffer := b, reservedBy := none },
    quarantine := [], pause := false, exhausted := false, threshold := 64, pauseLen := 2, scrub := none,
    info := List.replicate 512 none, memory := [], busy := none, reads := [], stores := [], testWaiting := false,
    flowOut := [.resume 0] }

/-- The reset look (R133). -/
def Look.reset : Look := { source := .black, brightness := 1000, intensity := 0, preset := 0 }

/-- The reset look of a chain with generation 0 (R94, R133). -/
def Post.reset : Post := { gen := 0, looks := List.replicate 30 .reset }

/-- R106. The look last taken (R94), to which R106 gives no value, is the reset look: the model's choice (log 19). -/
def AsmChain.reset : AsmChain :=
  { slots := [], held := List.replicate 30 none, posts := [.reset], lastPost := .reset, bundle := none, waiting := [],
    clearDue := false,
    counters := { bundles := 0, overrun := 0, sent := 0, gaps := 0, stillEmpty := 0, superseded := 0, withdrawn := 0,
                  expiredLate := 0, expiredEarly := 0, returned := 0, memCheck := 0 } }

/-- R114. -/
def Stills.reset : Stills := { slots := List.replicate 480 .empty, reads := [] }

/-- A BRIGHTNESS or INTENSITY parameter with base `v` and nothing over it (R133). -/
def LevelParam.reset (v : Nat) : LevelParam := { base := v, owner := .none, fade := none, drive := none, glide := none }

/-- R133. -/
def SceneEntry.reset : SceneEntry :=
  { source := { base := .black, owner := .none }, brightness := .reset 1000, intensity := .reset 0,
    preset := { base := 0, owner := .none, drive := none }, clamp := 600, overheat := false }

/-- R133, R145. -/
def Scene.reset : Scene :=
  { entries := List.replicate 120 .reset, groups := List.replicate 16 [], previous := .all .reset,
    claims := List.replicate 16 none }

/-- R145. -/
def TallyRule.reset : TallyRule :=
  { enabled := false, line := 0, sense := .on, target := .group 0, param := .intensity, value := 0, attack := 0,
    release := 0 }

/-- R145. -/
def Tally.reset : Tally := { sample := 0, latched := 0, mask := 0, rules := List.replicate 16 .reset }

/-- R174. -/
def Cues.reset : Cues :=
  { slots := List.replicate 8 none, runners := .all { state := .idle, slot := none, step := none } }

/-- R191, R185: after a pin reset the rate is unknown, after a RESET request it is kept. -/
def Link.resetWith (cause : ResetCause) (rate : Option Nat) : Link :=
  { receiver := .hunting, rate := rate, waiting := [], deferred := [], ready := [], tx := none,
    reports := [{ seq := 0, frame := 0, body := .hello cause rate }], seq := 1, lost := 0, mask := 0xFF, period := 25,
    tickCount := 0, captured := none, faultCount := 0,
    counters := { received := 0, hunted := 0, lengthDiscards := 0, checkDiscards := 0, stallDiscards := 0,
                  refusedFull := 0, dropped := 0 },
    resetting := false }

/-- Nothing is on its way after a reset (R106, R133, R145, R174). -/
def Mail.reset : Mail :=
  { ticks := { chains := .all [], intake := [], pool := [], scene := [], tally := [], runners := .all [], link := [] },
    orders := .all [], clamps := .all [], toScene := [], batches := [], notices := .all [] }

/-- Every block at the values its chapter gives for a reset that ends at `moment`. -/
def State.resetAt (moment : Nat) (cause : ResetCause) (rate : Option Nat) : State :=
  { pending := [], ref := .resetAt moment, chains := .all .reset, intake := .reset, pool := .reset, asm := .all .reset,
    stills := .reset, scene := .reset, tally := .reset, cues := .reset, link := .resetWith cause rate, mail := .reset }

/-- The part right after a pin reset, at moment 0, with no command waiting. -/
def State.reset : State := State.resetAt 0 .pin none

end Sys2Proof.Machine
end

