-- ==== Sys2Proof/Machine/Flags.lean ====
section
/-! DEFINITION. Counters and flags: saturating counts, the intake's fourteen counters, the assembler's eleven, health
flags and the HOLD line. -/

namespace Sys2Proof.Machine

/-- A 16-bit saturating count (R25, R82, R103, R176, R182, R186). -/
def bump16 (n : Nat) : Nat := if n < 65535 then n + 1 else n

/-- A 16-bit saturating count increased `k` times. -/
def bump16By (k n : Nat) : Nat := bump16^[k] n

/-- A count of at most 15 (silent count R46, break count R55). -/
def bump15 (n : Nat) : Nat := if n < 15 then n + 1 else n

/-- A fail count of at most 255 (R74). -/
def bump8 (n : Nat) : Nat := if n < 255 then n + 1 else n

/-- The names of the intake counters (R82). -/
inductive IntakeCtr
  | received
  | filed
  | badLength
  | badTarget
  | overrun
  | stall
  | check
  | chainOff
  | notLive
  | late
  | early
  | nobuf
  | dup
  | flushed
  deriving DecidableEq, Repr

/-- One intake counter increased. -/
def IntakeCounts.bump (k : IntakeCtr) (c : IntakeCounts) : IntakeCounts :=
  match k with
  | .received => { c with received := bump16 c.received }
  | .filed => { c with filed := bump16 c.filed }
  | .badLength => { c with badLength := bump16 c.badLength }
  | .badTarget => { c with badTarget := bump16 c.badTarget }
  | .overrun => { c with overrun := bump16 c.overrun }
  | .stall => { c with stall := bump16 c.stall }
  | .check => { c with check := bump16 c.check }
  | .chainOff => { c with chainOff := bump16 c.chainOff }
  | .notLive => { c with notLive := bump16 c.notLive }
  | .late => { c with late := bump16 c.late }
  | .early => { c with early := bump16 c.early }
  | .nobuf => { c with nobuf := bump16 c.nobuf }
  | .dup => { c with dup := bump16 c.dup }
  | .flushed => { c with flushed := bump16 c.flushed }

/-- A segment's outcome counted in both values of its counter (R82). -/
def Intake.count (k : IntakeCtr) (i : Intake) : Intake :=
  { i with total := i.total.bump k, since := i.since.bump k }

/-- The names of the assembler's counters (R103). -/
inductive AsmCtr
  | bundles
  | overrun
  | sent
  | gaps
  | stillEmpty
  | superseded
  | withdrawn
  | expiredLate
  | expiredEarly
  | returned
  | memCheck
  deriving DecidableEq, Repr

/-- One assembler counter increased. -/
def AsmCounters.bump (k : AsmCtr) (c : AsmCounters) : AsmCounters :=
  match k with
  | .bundles => { c with bundles := bump16 c.bundles }
  | .overrun => { c with overrun := bump16 c.overrun }
  | .sent => { c with sent := bump16 c.sent }
  | .gaps => { c with gaps := bump16 c.gaps }
  | .stillEmpty => { c with stillEmpty := bump16 c.stillEmpty }
  | .superseded => { c with superseded := bump16 c.superseded }
  | .withdrawn => { c with withdrawn := bump16 c.withdrawn }
  | .expiredLate => { c with expiredLate := bump16 c.expiredLate }
  | .expiredEarly => { c with expiredEarly := bump16 c.expiredEarly }
  | .returned => { c with returned := bump16 c.returned }
  | .memCheck => { c with memCheck := bump16 c.memCheck }

/-- The same for a chain's share of the assembler. -/
def AsmChain.count (k : AsmCtr) (a : AsmChain) : AsmChain := { a with counters := a.counters.bump k }

/-- OVERHEAT among a set of health flags (R20, R199: bit 0). -/
def overheat (h : BitVec 4) : Bool := h.getLsbD 0

/-- A staging entry holds a segment (R67). -/
def Entry.occupied : Entry → Bool
  | .free => false
  | .receiving _ _ => true
  | .queued _ _ _ => true
  | .storing _ _ _ _ => true

/-- The HOLD line: asserted while both entries are occupied (R67). -/
def Intake.hold (i : Intake) : Bool := i.e0.occupied && i.e1.occupied

/-- The free count: unreserved buffers on the free list (R74). -/
def Pool.freeCount (p : Pool) : Nat := (p.free.filter fun f => f.reservedBy.isNone).length

/-- The bytes one still slot reserves (R108). -/
def StillSlot.reserved : StillSlot → Nat
  | .empty => 0
  | .filling total _ => total
  | .ready data _ => data.length

/-- The size of the still memory (R108). -/
def stillMemorySize : Nat := 1048576

/-- The reserved count (R108). -/
def Stills.reserved (st : Stills) : Nat := (st.slots.map StillSlot.reserved).sum

/-- The unreserved count (R108). -/
def Stills.unreserved (st : Stills) : Nat := stillMemorySize - st.reserved

end Sys2Proof.Machine
end

