-- ==== Sys2Proof/Machine/Memory.lean ====
section
/-! DEFINITION. The segment memory (R74): 512 buffers of 4096 bytes, held as address and byte in one canonical form.
Buffer `b` stands at addresses 4096 × b to 4096 × b + 4095. -/

namespace Sys2Proof.Machine.Memory

/-- What an address that is not listed reads as: 0 (DESIGN CHOICE, log 8). -/
def unlisted : Byte := 0

/-- The byte at an address. -/
def read (m : List Host.Cell) (a : Nat) : Byte :=
  match m with
  | [] => unlisted
  | (k, v) :: rest => if k = a then v else read rest a

/-- The byte at an address replaced; writing what an unlisted address reads as removes the entry. -/
def write (m : List Host.Cell) (a : Nat) (v : Byte) : List Host.Cell :=
  match m with
  | [] => if v = unlisted then [] else [(a, v)]
  | (k, w) :: rest =>
      if a < k then (if v = unlisted then (k, w) :: rest else (a, v) :: (k, w) :: rest)
      else if a = k then (if v = unlisted then rest else (a, v) :: rest)
      else (k, w) :: write rest a v

/-- Canonical form: addresses strictly rising, no entry equal to what an unlisted address reads as. -/
abbrev wf (m : List Host.Cell) : Prop :=
  m.Pairwise (fun x y => x.1 < y.1) ∧ ∀ c ∈ m, c.2 ≠ unlisted

/-- Bytes stored from an address on. -/
def writeBytes (m : List Host.Cell) (base : Nat) (bytes : List Byte) : List Host.Cell :=
  match bytes with
  | [] => m
  | b :: rest => writeBytes (write m base b) (base + 1) rest

/-- `n` bytes read from an address on. -/
def readBytes (m : List Host.Cell) (base : Nat) (n : Nat) : List Byte :=
  match n with
  | 0 => []
  | n + 1 => read m base :: readBytes m (base + 1) n

/-- The size of a buffer (R74). -/
def bufferSize : Nat := 4096

/-- The address of a buffer's first byte. -/
def bufferBase (buffer : Nat) : Nat := bufferSize * buffer

end Sys2Proof.Machine.Memory
end

