-- ==== Sys2Proof/WellFormed.lean ====
section
/-! DEFINITION. Which commands are well formed: operands that the links can carry. A command that is not well formed
names no event that can happen. -/

namespace Sys2Proof

/-- The items a return is made of, by type byte and length: a status block, one with identity, a trailer (R199).
An item of any other type byte is one byte: the reading stops there (R200). -/
def itemLength (type : Byte) : Nat :=
  if type = 0x51 then 8 else if type = 0x52 then 14 else if type = 0x54 then 5 else 1

/-- A node's address, 1 to 30 (R21). -/
def isAddress (a : Nat) : Bool := decide (1 ≤ a) && decide (a ≤ 30)

/-- The fastest line rate, 3 Mbit/s (R177). -/
def maxLineRate : Nat := 3000000

/-- The operands a command may carry. -/
def Instr.wf : Instr → Bool
  | .returnItemReceived _ item =>
      match item with
      | [] => false
      | ty :: _ => decide (item.length = itemLength ty)
  | .segmentEnd payload _ => decide (1 ≤ payload.length) && decide (payload.length ≤ 4096)
  | .fadeComplete _ a _ => isAddress a
  | .glideEnd _ a _ => isAddress a
  | .incomingByte _ rate => decide (1 ≤ rate) && decide (rate ≤ maxLineRate)
  | .pinReset _ | .refEdge _ _ _ | .absenceWatchExpiry _ | .holdoverTimerExpiry | .chainManagerTick _
  | .returnDeadline _ | .segmentStart | .segmentHeader _ _ _ _ | .segmentStallExpiry | .segmentIntakeTick
  | .storeComplete | .bufferPoolTick | .scrubTestComplete _ | .frameOrder _ | .emissionReadComplete _ _
  | .stillReadRequest _ | .stillReadComplete | .returnTokenSent _ | .faultedNotice _ | .sceneTableTick
  | .clampNotice _ | .haltNotice | .sceneWrite | .tallyTick _ | .tallyBatch | .runnersTick _ | .waitExpiry _
  | .expectExpiry _ | .confirmFirstExpiry _ | .confirmSecondExpiry _ | .completeReturnNotice _ _
  | .nodeLostNotice _ _ | .roomNotice _ | .evictionNotice _ | .controlLinkTick | .frameReportDue
  | .linkStallExpiry | .controlFrame _ | .unknownRequest | .transmitDone _ | .statusReference | .statusChain
  | .statusIntake | .statusPool | .statusStills | .statusScene | .statusGroups | .statusTally | .statusRunners
  | .statusLink | .refSet _ | .frameSet | .chainSetEnable | .chainSetDisable | .chainRewalk | .nodeGet | .nodeSet
  | .nodeCommandConfigure | .nodeCommandEnable | .nodeReinstate | .segSet | .flowClear | .poolScrub
  | .stillWriteBegin | .stillWriteContinue | .stillClearSlot | .stillClearPage | .lookSet | .groupSet
  | .tallyRuleSet | .tallyMask | .cueLoad | .cueRead | .runnerArm | .runnerGo | .runnerHalt | .runnerConfirm
  | .runnerResume | .runnerClear | .reportSet | .faultGet | .faultClear | .reset | .flowMessageEnd => true

end Sys2Proof
end

