-- ==== Sys2Proof/Machine/Ops.lean ====
section
/-! DEFINITION. The named operations every block uses: frame-number comparison, interpolation, check codes, access to the
tables, and what all blocks send to the Control Link (reports, faults, replies) and to the Buffer Pool (releases). -/

namespace Sys2Proof.Machine

/-- What a command answers. -/
abbrev Out := Host.Outcome State Fault Refusal

/-! ### Numbers -/

/-- How far frame `f` lies ahead of frame `g`, modulo 65536. -/
def frameDistance (f g : Word16) : Nat := (f - g).toNat

/-- Frame `f` is later than frame `g` by the serial rule (00_scope.md, "Frame numbers"). -/
def later (f g : Word16) : Bool := decide (1 ≤ frameDistance f g) && decide (frameDistance f g ≤ 32767)

/-- Frame `f` is in the window E+1 to E+4 (R72). -/
def inWindow (f e : Word16) : Bool := decide (1 ≤ frameDistance f e) && decide (frameDistance f e ≤ 4)

/-- The value `k` frames into a change of length `l` from `s` to `t`, truncated toward zero (00_scope.md,
"Interpolation"; R118, R125). -/
def interpolate (s t k l : Nat) : Nat := ((s : Int) + (((t : Int) - (s : Int)) * (k : Int)).tdiv (l : Int)).toNat

/-- A chain number in range. -/
def chainOf? (n : Nat) : Option ChainId := if h : n < 4 then some ⟨n, h⟩ else none

/-- A runner number in range. -/
def runnerOf? (n : Nat) : Option RunnerId := if h : n < 3 then some ⟨n, h⟩ else none

/-- The four chains in order. -/
def allChains : List ChainId := [0, 1, 2, 3]

/-- The three runners in order. -/
def allRunners : List RunnerId := [0, 1, 2]

/-- The addresses of a chain, 1 to 30. -/
def addresses : List Nat := (List.range 30).map (· + 1)

/-! ### Check codes (R192) -/

/-- One bit of the CRC-16, most significant bit first. -/
def crc16Bit (r : Word16) : Word16 := if r.msb then (r <<< 1) ^^^ 0x1021 else r <<< 1

/-- One byte of the CRC-16. -/
def crc16Byte (r : Word16) (b : Byte) : Word16 :=
  crc16Bit (crc16Bit (crc16Bit (crc16Bit (crc16Bit (crc16Bit (crc16Bit (crc16Bit (r ^^^ (b.setWidth 16 <<< 8)))))))))

/-- CRC-16: polynomial x^16 + x^12 + x^5 + 1, register all ones, not inverted. -/
def crc16 (bytes : List Byte) : Word16 := bytes.foldl crc16Byte 0xFFFF

/-- One bit of the CRC-32, least significant bit first. -/
def crc32Bit (r : Word32) : Word32 := if r.getLsbD 0 then (r >>> 1) ^^^ 0xEDB88320 else r >>> 1

/-- One byte of the CRC-32. -/
def crc32Byte (r : Word32) (b : Byte) : Word32 :=
  crc32Bit (crc32Bit (crc32Bit (crc32Bit (crc32Bit (crc32Bit (crc32Bit (crc32Bit (r ^^^ b.setWidth 32))))))))

/-- CRC-32: register all ones, least significant bit first, result inverted. -/
def crc32 (bytes : List Byte) : Word32 := ~~~ (bytes.foldl crc32Byte 0xFFFFFFFF)

/-! ### Bytes of fields, most significant byte first (00_scope.md, "Names and values") -/

/-- A one-byte field. -/
def put8 (n : Nat) : List Byte := [BitVec.ofNat 8 n]

/-- A two-byte field. -/
def put16 (w : Word16) : List Byte := [(w >>> 8).setWidth 8, w.setWidth 8]

/-- A two-byte number. -/
def putNum16 (n : Nat) : List Byte := put16 (BitVec.ofNat 16 n)

/-- A four-byte field. -/
def put32 (w : Word32) : List Byte :=
  [(w >>> 24).setWidth 8, (w >>> 16).setWidth 8, (w >>> 8).setWidth 8, w.setWidth 8]

/-- The value of a two-byte field. -/
def get16 (h l : Byte) : Word16 := h ++ l

/-- The value of a four-byte field. -/
def get32 (a b c d : Byte) : Word32 := a ++ b ++ c ++ d

/-! ### Tables -/

/-- The record of an address, `none` for ABSENT (R22). -/
def Chain.node (ch : Chain) (a : Nat) : Option Node :=
  if isAddress a then ch.nodes.getD (a - 1) none else none

/-- The record of an address replaced. -/
def Chain.setNode (ch : Chain) (a : Nat) (n : Option Node) : Chain :=
  { ch with nodes := ch.nodes.set (a - 1) n }

/-- The record of a node reference. -/
def State.node (s : State) (r : NodeRef) : Option Node := (s.chains.get r.chain).node r.address

/-- The kind of a record without its data. -/
def Node.kindName (n : Node) : KindName :=
  match n.kind with
  | .tile _ => .tile
  | .lamp => .lamp

/-- A tile's own fields. -/
def Node.tile? (n : Node) : Option TileSettings :=
  match n.kind with
  | .tile t => some t
  | .lamp => none

/-- A node in IDENT, LIVE or SUSPECT (R21). -/
def NodeState.reachable : NodeState → Bool
  | .ident | .live | .suspect => true
  | .failed | .cut => false

/-- A node that takes content and level blocks (R24). -/
def NodeState.shows : NodeState → Bool
  | .live | .suspect => true
  | .ident | .failed | .cut => false

/-- A chain whose bundles the assembler builds and for which segments are filed (R26, R72). -/
def ChainMode.carries : ChainMode → Bool
  | .running | .extending | .broken => true
  | .off | .walking | .faulted => false

/-- The tile fields of an address changed; a lamp or an ABSENT record stays as it is (R103). -/
def Chain.updateTile (ch : Chain) (a : Nat) (f : TileSettings → TileSettings) : Chain :=
  match ch.node a with
  | some n =>
      match n.kind with
      | .tile t => ch.setNode a (some { n with kind := .tile (f t) })
      | .lamp => ch
  | none => ch

/-- The held reference of an address (R89). -/
def AsmChain.heldAt (m : AsmChain) (a : Nat) : Option Nat := m.held.getD (a - 1) none

/-- The held reference of an address replaced. -/
def AsmChain.setHeld (m : AsmChain) (a : Nat) (b : Option Nat) : AsmChain := { m with held := m.held.set (a - 1) b }

/-- The place of a still slot in the store's table (R107). -/
def StillRef.index (r : StillRef) : Nat := r.page * 120 + r.chain.val * 30 + (r.address - 1)

/-- A still slot. -/
def Stills.slot (st : Stills) (r : StillRef) : StillSlot := st.slots.getD r.index .empty

/-- A still slot replaced. -/
def Stills.setSlot (st : Stills) (r : StillRef) (x : StillSlot) : Stills := { st with slots := st.slots.set r.index x }

/-- The place of a scene entry in its table (R116). -/
def NodeRef.index (r : NodeRef) : Nat := r.chain.val * 30 + (r.address - 1)

/-- A scene entry. -/
def Scene.entry (sc : Scene) (r : NodeRef) : SceneEntry := sc.entries.getD r.index .reset

/-- A scene entry replaced. -/
def Scene.setEntry (sc : Scene) (r : NodeRef) (e : SceneEntry) : Scene := { sc with entries := sc.entries.set r.index e }

/-! ### The Control Link's side of every block: reports, faults, replies -/

/-- The place of a report's kind in the mask; HELLO has none and is never excluded (R183). -/
def ReportBody.maskBit : ReportBody → Option Nat
  | .hello _ _ => none
  | .frame _ _ _ _ _ _ _ _ _ => some 0
  | .ref _ _ _ _ _ _ _ => some 1
  | .node _ _ _ _ => some 2
  | .chain _ _ _ _ _ => some 3
  | .flow _ _ _ _ _ _ => some 4
  | .pool _ _ _ _ _ _ => some 5
  | .cue _ _ _ _ _ => some 6
  | .fault _ _ _ => some 7

/-- The mask lets a report be made (R182). -/
def Link.admits (l : Link) (b : ReportBody) : Bool :=
  match b.maskBit with
  | none => true
  | some k => l.mask.getLsbD k

/-- The report queue's length (R182). -/
def reportQueueSize : Nat := 32

/-- A report offered: put to the mask, numbered, queued, or dropped on a full queue (R182). -/
def Link.offer (e : Word16) (b : ReportBody) (l : Link) : Link :=
  if l.admits b then
    if l.reports.length < reportQueueSize then
      { l with seq := l.seq + 1, reports := l.reports ++ [{ seq := l.seq, frame := e, body := b }] }
    else { l with seq := l.seq + 1, lost := bump16 l.lost }
  else l

/-- A fault taken: captured when the count is 0, counted, and reported (R186, R187). -/
def Link.takeFault (f : FaultRecord) (l : Link) : Link :=
  let captured := decide (l.faultCount = 0)
  let count := bump16 l.faultCount
  { l with captured := if captured then some f else l.captured, faultCount := count }.offer f.frame
    (.fault f count captured)

/-- E, the frame number of the last delivered tick (R12). -/
def State.e (s : State) : Word16 := s.ref.counter

/-- A block queues a report. -/
def State.report (b : ReportBody) (s : State) : State := { s with link := s.link.offer s.e b }

/-- A block raises a fault. -/
def State.raise (f : PartFault) (src : FaultSource) (node : Option NodeRef) (s : State) : State :=
  { s with link := s.link.takeFault { fault := f, source := src, frame := s.e, node := node } }

/-- The reply to a request becomes ready (R180). -/
def Link.answer (q : Request) (code : ReplyCode) (body : ReplyBody) (l : Link) : Link :=
  { l with ready := l.ready ++ [{ kind := q.kind, tag := q.tag, code := code, body := body, refusal := false }] }

/-- The owner of a request gives its reply. -/
def State.answer (q : Request) (code : ReplyCode) (body : ReplyBody) (s : State) : State :=
  { s with link := s.link.answer q code body }

/-- The reply of a deferred request becomes ready, OK (R36, R104). -/
def Link.undefer (what : Deferral) (l : Link) : Link :=
  match l.deferred.find? (fun d => decide (d.what = what)) with
  | some d =>
      { l with deferred := l.deferred.erase d,
               ready := l.ready ++ [{ kind := d.kind, tag := d.tag, code := .ok, body := .empty, refusal := false }] }
  | none => l

/-- The transmitter, when free and the rate known, chooses the oldest ready reply, otherwise the report at the head of
the queue; once RESET has been taken only replies are sent (R177, R182, R190). -/
def Link.pump (l : Link) : Link :=
  match l.tx, l.rate with
  | none, some _ =>
      match l.ready with
      | r :: rest => { l with ready := rest, tx := some (.reply r) }
      | [] =>
          if l.resetting then l
          else
            match l.reports with
            | r :: rest => { l with reports := rest, tx := some (.report r) }
            | [] => l
  | _, _ => l

/-- A command ends: the transmitter, if free, begins its next frame (log 11). -/
def done (s : State) : Out := .next { s with link := s.link.pump }

/-- A command whose event has not arisen has no effect (log 1). -/
def notDue (s : State) : Out := .next s

/-! ### The Buffer Pool's side of every block: releases (R75) -/

/-- A buffer joins the tail of the free list. -/
def Pool.release (b : Nat) (p : Pool) : Pool := { p with free := p.free ++ [{ buffer := b, reservedBy := none }] }

/-- Buffers join the tail of the free list in the order they are handed over. -/
def Pool.releaseAll (bs : List Nat) (p : Pool) : Pool := bs.foldl (fun p b => p.release b) p

/-- A buffer joins the tail of the quarantine list with fail count 0 (R75, R102). -/
def Pool.quarantineBuf (b : Nat) (p : Pool) : Pool := { p with quarantine := p.quarantine ++ [(b, 0)] }

/-- The memory, when free, is granted to the oldest waiting request of the highest-priority requester: emission reads,
then intake stores, then the scrub test (R76). -/
def Pool.grant (p : Pool) : Pool :=
  match p.busy with
  | some _ => p
  | none =>
      match p.reads with
      | (c, b) :: rest => { p with busy := some (.read c b), reads := rest }
      | [] =>
          match p.stores with
          | e :: rest => { p with busy := some (.store e), stores := rest }
          | [] =>
              if p.testWaiting then
                match p.scrub with
                | some sc =>
                    match sc.todo with
                    | b :: _ => { p with busy := some (.test b), testWaiting := false }
                    | [] => p
                | none => p
              else p

/-- An emission read is requested; a request made while the memory is free is granted at once (R76, R101). -/
def Pool.requestRead (c : ChainId) (b : Nat) (p : Pool) : Pool := { p with reads := p.reads ++ [(c, b)] }.grant

/-- The bytes stored in a buffer, by its recorded length (R74, R197). -/
def Pool.contents (p : Pool) (b : Nat) : List Byte :=
  match p.info.getD b none with
  | some i => Memory.readBytes p.memory (Memory.bufferBase b) i.length
  | none => []

/-- A pause starts when the free count is below T and none is in force (R78): PAUSE(P) is sent. -/
def Pool.startsPause (p : Pool) : Bool := !p.pause && decide (p.freeCount < p.threshold)

/-- The FLOW report (R81). -/
def State.flowReport (cause : FlowCause) (s : State) : State :=
  s.report (.flow cause s.e s.pool.freeCount s.pool.quarantine.length s.pool.threshold s.pool.pauseLen)

/-- A flow message joins the outbound path (R196). -/
def Pool.send (m : FlowMsg) (p : Pool) : Pool := { p with flowOut := p.flowOut ++ [m] }

/-- The pause evaluated after a reservation or a SEG_SET (R78, R80). -/
def State.checkPauseStart (s : State) : State :=
  if s.pool.startsPause then
    { s with pool := { s.pool with pause := true }.send (.pause s.e s.pool.pauseLen) }.flowReport .pauseStart
  else s

/-- The pause evaluated at a tick, or after the last share of a FLOW_CLEAR (R79, R86). -/
def State.evaluatePause (s : State) : State :=
  if s.pool.pause then
    if s.pool.freeCount < s.pool.threshold then
      { s with pool := s.pool.send (.pause s.e s.pool.pauseLen) }
    else
      { s with pool := { s.pool with pause := false, exhausted := false }.send (.resume s.e) }.flowReport .pauseEnd
  else s

/-- An entry of the intake whose store was granted goes to STORING (R77). -/
def Entry.toStoring : Entry → Entry
  | .queued h p b => .storing h p b false
  | .free => .free
  | .receiving h t => .receiving h t
  | .storing h p b f => .storing h p b f

/-- A staging entry by number. -/
def Intake.entry (i : Intake) (e : EntryId) : Entry :=
  match e with
  | .e0 => i.e0
  | .e1 => i.e1

/-- A staging entry replaced. -/
def Intake.setEntry (i : Intake) (e : EntryId) (x : Entry) : Intake :=
  match e with
  | .e0 => { i with e0 := x }
  | .e1 => { i with e1 := x }

/-- The intake after a grant: the entry whose store is under way is STORING (R77). -/
def Intake.noteGrant (busy : Option MemOp) (i : Intake) : Intake :=
  match busy with
  | some (.store e) => i.setEntry e (i.entry e).toStoring
  | some (.read _ _) => i
  | some (.test _) => i
  | none => i

/-- The freed or requested memory granted, with the entry it is granted to (R76, R77). -/
def State.grantMemory (s : State) : State :=
  { s with pool := s.pool.grant,
           intake := if s.pool.busy.isNone then s.intake.noteGrant s.pool.grant.busy else s.intake }

end Sys2Proof.Machine
end

