-- ==== Sys2Proof/Machine/Operands.lean ====
section
/-! DEFINITION. The operands of the requests: how the bytes of a request body are read (R194), which values are in range,
and which command takes a request. A body whose length differs from what its fields give, or a field out of range, gives
no operands: the answer is BAD_ARG either way (R179, log 10). -/

namespace Sys2Proof.Machine

/-! ### Which command takes a request (R179, R194) -/

/-- The commands that take a request from its place. -/
inductive ReqRow
  | unknown
  | statusReference
  | statusChain
  | statusIntake
  | statusPool
  | statusStills
  | statusScene
  | statusGroups
  | statusTally
  | statusRunners
  | statusLink
  | refSet
  | frameSet
  | chainSetEnable
  | chainSetDisable
  | chainRewalk
  | nodeGet
  | nodeSet
  | nodeCommandConfigure
  | nodeCommandEnable
  | nodeReinstate
  | segSet
  | flowClear
  | poolScrub
  | stillWriteBegin
  | stillWriteContinue
  | stillClearSlot
  | stillClearPage
  | lookSet
  | groupSet
  | tallyRuleSet
  | tallyMask
  | cueLoad
  | cueRead
  | runnerArm
  | runnerGo
  | runnerHalt
  | runnerConfirm
  | runnerResume
  | runnerClear
  | reportSet
  | faultGet
  | faultClear
  | reset
  deriving DecidableEq, Repr

/-- The STATUS section a body names, in the order of R181; any other body goes to the first (log 29). -/
def statusRow (body : List Byte) : ReqRow :=
  match body with
  | [] => .statusReference
  | b :: _ =>
      match b.toNat with
      | 1 => .statusChain
      | 2 => .statusIntake
      | 3 => .statusPool
      | 4 => .statusStills
      | 5 => .statusScene
      | 6 => .statusGroups
      | 7 => .statusTally
      | 8 => .statusRunners
      | 9 => .statusLink
      | _ => .statusReference

/-- The offset of a STILL_WRITE body is nonzero (R109, R110). -/
def stillContinues (body : List Byte) : Bool :=
  match body with
  | _ :: _ :: _ :: h :: l :: _ => decide (get16 h l ≠ 0)
  | _ => false

/-- The command that takes a request: its kind in the order of section 10.3, then what tells rows of one kind apart. -/
def Request.row (q : Request) : ReqRow :=
  match q.kind.toNat with
  | 0x01 => statusRow q.body
  | 0x02 => .refSet
  | 0x03 => .frameSet
  | 0x04 => if q.body.getD 1 0 = 1 then .chainSetDisable else .chainSetEnable
  | 0x05 => .chainRewalk
  | 0x06 => .nodeGet
  | 0x07 => .nodeSet
  | 0x08 => if q.body.getD 2 0 = 1 then .nodeCommandEnable else .nodeCommandConfigure
  | 0x09 => .nodeReinstate
  | 0x0A => .segSet
  | 0x0B => .flowClear
  | 0x0C => .poolScrub
  | 0x0D => if stillContinues q.body then .stillWriteContinue else .stillWriteBegin
  | 0x0E => if q.body.getD 1 0 = 1 then .stillClearPage else .stillClearSlot
  | 0x0F => .lookSet
  | 0x10 => .groupSet
  | 0x11 => .tallyRuleSet
  | 0x12 => .tallyMask
  | 0x13 => .cueLoad
  | 0x14 => .cueRead
  | 0x15 => .runnerArm
  | 0x16 => .runnerGo
  | 0x17 => .runnerHalt
  | 0x18 => .runnerConfirm
  | 0x19 => .runnerResume
  | 0x1A => .runnerClear
  | 0x1B => .reportSet
  | 0x1C => .faultGet
  | 0x1D => .faultClear
  | 0x1E => .reset
  | _ => .unknown

/-- The Control Link takes the oldest request that waits in a place, when it is one this command takes (R179); once
RESET has been taken no further request is taken (R190). -/
def State.takeRequest (row : ReqRow) (take : Request → State → State) (s : State) : Out :=
  match s.link.waiting with
  | q :: rest =>
      if s.link.resetting = false ∧ q.row = row then
        done (take q { s with link := { s.link with waiting := rest } })
      else notDue s
  | [] => notDue s

/-- A request whose operands are read by `parse`; BAD_ARG when the body gives none. -/
def State.takeWith {α : Type} (row : ReqRow) (parse : List Byte → Option α)
    (take : Request → α → State → State) (s : State) : Out :=
  s.takeRequest row fun q s =>
    match parse q.body with
    | some x => take q x s
    | none => s.answer q .badArg .empty

/-! ### Fields -/

/-- A number in a range, inclusive. -/
def inRange (lo hi n : Nat) : Option Nat := if lo ≤ n ∧ n ≤ hi then some n else none

/-- A guard as an operand check. -/
def check (b : Bool) : Option Unit := if b then some () else none

/-- Address 1 to 30. -/
def address? (b : Byte) : Option Nat := inRange 1 30 b.toNat

/-- Chain 0 to 3. -/
def chainByte? (b : Byte) : Option ChainId := chainOf? b.toNat

/-- Reference modes in the order of R14. -/
def refMode? (b : Byte) : Option RefMode :=
  match b.toNat with
  | 0 => some .autoA
  | 1 => some .autoB
  | 2 => some .forceA
  | 3 => some .forceB
  | 4 => some .free
  | _ => none

/-- Frame rates in the order of R14. -/
def frameRate? (b : Byte) : Option FrameRate :=
  match b.toNat with
  | 0 => some .r25
  | 1 => some .r29_97
  | 2 => some .r50
  | 3 => some .r59_94
  | _ => none

/-- Gap policies in the order of R38. -/
def gapPolicy? (b : Byte) : Option GapPolicy :=
  match b.toNat with
  | 0 => some .repeatHeld
  | 1 => some .still
  | 2 => some .black
  | _ => none

/-- A kind filter (R194). -/
def filter? (b : Byte) : Option KindFilter :=
  match b.toNat with
  | 0 => some .tile
  | 1 => some .lamp
  | 2 => some .any
  | _ => none

/-- A chain field of a selector: 0 to 3, or ALL coded 0xFF (R194). -/
def chainOrAll? (b : Byte) : Option (Option ChainId) :=
  if b = 0xFF then some none else (chainByte? b).map some

/-- An address field of a selector: 1 to 30, or ALL coded 0xFF (R194). -/
def addressOrAll? (b : Byte) : Option (Option Nat) :=
  if b = 0xFF then some none else (address? b).map some

/-- A selector's four bytes (R194): form, chain or group, address, kind filter. A group form whose last two bytes are not 0 is
taken as a selector field out of its range, and refused BAD_ARG by its owner (log 10). -/
def selector? (form x a f : Byte) : Option Selector :=
  if form = 0 then do
    let c ← chainOrAll? x
    let ad ← addressOrAll? a
    let k ← filter? f
    some (.nodes c ad k)
  else if form = 1 then do
    let g ← inRange 0 15 x.toNat
    check (a = 0 && f = 0)
    some (.group g)
  else none

/-- A tile source's byte (R194). -/
def tileSource? (n : Nat) : Option TileSource :=
  if n = 0 then some .liveFeed
  else if n ≤ 4 then some (.still (n - 1))
  else if n = 5 then some .freeze
  else if n = 6 then some .black
  else none

/-- A value read, with the bytes that follow: the outer `none` tells that the bytes give no length, the inner one that the
value is out of range. -/
abbrev Reading (α : Type) : Type := Option (Option α × List Byte)

/-- A value of one byte (R194). -/
def byteValue? {α : Type} (value? : Nat → Option α) (bytes : List Byte) : Reading α :=
  match bytes with
  | v :: rest => some (value? v.toNat, rest)
  | [] => none

/-- A BRIGHTNESS or INTENSITY, 0 to 1000, of two bytes (R194). -/
def levelValue? {α : Type} (value : Nat → α) (bytes : List Byte) : Reading α :=
  match bytes with
  | h :: l :: rest => some ((inRange 0 1000 (get16 h l).toNat).map value, rest)
  | _ => none

/-- A look parameter and its value: SOURCE 0, BRIGHTNESS 1, INTENSITY 2, PRESET 3 in the order of R121 and R147 (R194). The
value has the size of its own parameter's maximum: two bytes for a BRIGHTNESS or an INTENSITY, one for a PRESET (log 10). -/
def lookValue? (bytes : List Byte) : Reading LookValue :=
  match bytes with
  | p :: rest =>
      if p = 0 then byteValue? (fun n => (tileSource? n).map .source) rest
      else if p = 1 then levelValue? .brightness rest
      else if p = 2 then levelValue? .intensity rest
      else if p = 3 then byteValue? (fun n => (inRange 0 15 n).map .preset) rest
      else none
  | [] => none

/-- The five settings of a CONFIGURE (R39, R147). -/
def settings? (colour gamma rotation dimming fan : Byte) : Option ConfigSettings := do
  let c ← inRange 0 15 colour.toNat
  let g ← inRange 0 3 gamma.toNat
  let r ← inRange 0 3 rotation.toNat
  let d ← inRange 0 3 dimming.toNat
  let f ← inRange 0 2 fan.toNat
  some { colour := c, gamma := g, rotation := r, dimming := d, fan := f }

/-- An optional field of one byte: its presence byte, then the field (R194). -/
def opt8 (bytes : List Byte) : Option (Option Byte × List Byte) :=
  match bytes with
  | p :: rest =>
      if p = 0 then some (none, rest)
      else if p = 1 then
        match rest with
        | v :: rest => some (some v, rest)
        | [] => none
      else none
  | [] => none

/-- An optional field of two bytes. -/
def opt16 (bytes : List Byte) : Option (Option Word16 × List Byte) :=
  match bytes with
  | p :: rest =>
      if p = 0 then some (none, rest)
      else if p = 1 then
        match rest with
        | h :: l :: rest => some (some (get16 h l), rest)
        | _ => none
      else none
  | [] => none

/-- An optional field of four bytes. A presence byte that is neither 0 nor 1 makes the body one that does not have the length of
its fields: the model's choice (log 10). -/
def opt32 (bytes : List Byte) : Option (Option Word32 × List Byte) :=
  match bytes with
  | p :: rest =>
      if p = 0 then some (none, rest)
      else if p = 1 then
        match rest with
        | a :: b :: c :: d :: rest => some (some (get32 a b c d), rest)
        | _ => none
      else none
  | [] => none

/-! ### Request bodies -/

/-- A body of no fields. -/
def noFields? (body : List Byte) : Option Unit :=
  match body with
  | [] => some ()
  | _ => none

/-- STATUS with a section that takes no chain (R181). -/
def statusSection? (k : Nat) (body : List Byte) : Option Unit :=
  match body with
  | [b] => check (b.toNat = k)
  | _ => none

/-- STATUS section CHAIN: the section and a chain (R181). -/
def chainSection? (body : List Byte) : Option ChainId :=
  match body with
  | [b, c] => if b.toNat = 1 then chainByte? c else none
  | _ => none

/-- REF_SET (R14). -/
def refSet? (body : List Byte) : Option (RefMode × FrameRate) :=
  match body with
  | [m, r] => do
      let m ← refMode? m
      let r ← frameRate? r
      some (m, r)
  | _ => none

/-- FRAME_SET (R13). -/
def frameSet? (body : List Byte) : Option Word16 :=
  match body with
  | [h, l] => some (get16 h l)
  | _ => none

/-- The fields of a CHAIN_SET but its action (R34). -/
structure ChainSetArgs where
  chain : ChainId
  silent : Nat
  brk : Nat
  deriving DecidableEq, Repr

/-- CHAIN_SET with the action `action`: ENABLE 0, DISABLE 1 (R34). -/
def chainSet? (action : Byte) (body : List Byte) : Option ChainSetArgs :=
  match body with
  | [c, a, sl, bl] => do
      let c ← chainByte? c
      check (a = action)
      let sl ← inRange 0 15 sl.toNat
      let bl ← inRange 0 15 bl.toNat
      some { chain := c, silent := sl, brk := bl }
  | _ => none

/-- A chain (R54). -/
def chain? (body : List Byte) : Option ChainId :=
  match body with
  | [c] => chainByte? c
  | _ => none

/-- A chain and an address (R37, R62). -/
def nodeRef? (body : List Byte) : Option NodeRef :=
  match body with
  | [c, a] => do
      let c ← chainByte? c
      let a ← address? a
      some { chain := c, address := a }
  | _ => none

/-- The settings of a NODE_SET (R38). `fallback` is present to set a page or, as `some none`, to remove it. -/
structure NodeSetArgs where
  node : NodeRef
  gap : Option GapPolicy
  fallback : Option (Option Nat)
  clamp : Option Nat
  clear : Bool
  deriving DecidableEq, Repr

/-- A value mapped and checked when present. -/
def optCheck {α β : Type} (f : α → Option β) (x : Option α) : Option (Option β) :=
  match x with
  | none => some none
  | some v => (f v).map some

/-- NODE_SET (R38): NONE of the fallback page is coded 4, the counter clear is its presence byte alone (log 10). -/
def nodeSet? (body : List Byte) : Option NodeSetArgs :=
  match body with
  | c :: a :: rest => do
      let c ← chainByte? c
      let a ← address? a
      let (gap, rest) ← opt8 rest
      let (fb, rest) ← opt8 rest
      let (cl, rest) ← opt16 rest
      let clear ← (match rest with
        | [p] => if p = 0 then some false else if p = 1 then some true else none
        | _ => none)
      let gap ← optCheck gapPolicy? gap
      let fb ← optCheck (fun b : Byte => if b.toNat ≤ 3 then some (some b.toNat) else if b = 4 then some none else none) fb
      let cl ← optCheck (fun w : Word16 => inRange 0 1000 w.toNat) cl
      check (gap.isSome || fb.isSome || cl.isSome || clear)
      some { node := { chain := c, address := a }, gap := gap, fallback := fb, clamp := cl, clear := clear }
  | _ => none

/-- NODE_COMMAND with CONFIGURE, coded 0 (R39): chain, address 1 to 31, tag, settings. -/
def configure? (body : List Byte) : Option (ChainId × Nat × Byte × ConfigSettings) :=
  match body with
  | [c, a, k, tag, colour, gamma, rotation, dimming, fan] => do
      let c ← chainByte? c
      let a ← inRange 1 31 a.toNat
      check (k = 0)
      check (tag ≠ 0)
      let st ← settings? colour gamma rotation dimming fan
      some (c, a, tag, st)
  | _ => none

/-- NODE_COMMAND with ENABLE, coded 1 (R39). -/
def enable? (body : List Byte) : Option (ChainId × Nat) :=
  match body with
  | [c, a, k] => do
      let c ← chainByte? c
      let a ← inRange 1 31 a.toNat
      check (k = 1)
      some (c, a)
  | _ => none

/-- SEG_SET (R80): 0 leaves a setting unchanged. -/
def segSet? (body : List Byte) : Option (Nat × Nat) :=
  match body with
  | [h, l, p] => do
      let t := (get16 h l).toNat
      check (t = 0 || (8 ≤ t && t ≤ 256))
      let p ← inRange 0 15 p.toNat
      some (t, p)
  | _ => none

/-- The fields of a STILL_WRITE as they are coded, not yet checked for range (R109). -/
structure StillWriteArgs where
  page : Nat
  chain : Nat
  address : Nat
  offset : Nat
  total : Nat
  chunk : List Byte
  crc : Option Word32
  deriving DecidableEq, Repr

/-- STILL_WRITE (R109). -/
def stillWrite? (body : List Byte) : Option StillWriteArgs :=
  match body with
  | p :: c :: a :: oh :: ol :: th :: tl :: nh :: nl :: rest => do
      let n := (get16 nh nl).toNat
      check (n ≤ rest.length)
      let (crc, tail) ← opt32 (rest.drop n)
      check tail.isEmpty
      some { page := p.toNat, chain := c.toNat, address := a.toNat, offset := (get16 oh ol).toNat,
             total := (get16 th tl).toNat, chunk := rest.take n, crc := crc }
  | _ => none

/-- STILL_CLEAR with scope SLOT, coded 0 (R113). -/
def stillClearSlot? (body : List Byte) : Option StillRef :=
  match body with
  | [p, k, c, a] => do
      let p ← inRange 0 3 p.toNat
      check (k = 0)
      let c ← chainByte? c
      let a ← address? a
      some { page := p, chain := c, address := a }
  | _ => none

/-- STILL_CLEAR with scope PAGE, coded 1 (R113). -/
def stillClearPage? (body : List Byte) : Option Nat :=
  match body with
  | [p, k] => do
      let p ← inRange 0 3 p.toNat
      check (k = 1)
      some p
  | _ => none

/-- LOOK_SET (R121): selector, value, fade frames (0 for a step write). -/
def lookSet? (body : List Byte) : Option (Selector × LookValue × Option Nat) :=
  match body with
  | f :: x :: a :: k :: rest => do
      let sel ← selector? f x a k
      let (v, rest) ← lookValue? rest
      let v ← v
      match rest with
      | [h, l] => do
          let n ← inRange 0 1000 (get16 h l).toNat
          check (n = 0 || (match v with
            | .brightness _ => true
            | .intensity _ => true
            | .source _ => false
            | .preset _ => false))
          some (sel, v, if n = 0 then none else some n)
      | _ => none
  | _ => none

/-- References of a group, two bytes each (R132, R194). -/
def refList? (bytes : List Byte) : Option (List NodeRef) :=
  match bytes with
  | [] => some []
  | c :: a :: rest => do
      let c ← chainByte? c
      let a ← address? a
      let rs ← refList? rest
      some ({ chain := c, address := a } :: rs)
  | [_] => none

/-- GROUP_SET (R132). -/
def groupSet? (body : List Byte) : Option (Nat × List NodeRef) :=
  match body with
  | g :: n :: rest => do
      let g ← inRange 0 15 g.toNat
      let n ← inRange 0 32 n.toNat
      check (rest.length = 2 * n)
      let rs ← refList? rest
      some (g, rs)
  | _ => none

/-- The parameter and value of a tally rule (R137): BRIGHTNESS 0, INTENSITY 1, PRESET 2 in the order of R136 (R194). The
value has the size of its own parameter's maximum, as in `lookValue?` (log 10). -/
def overValue? (bytes : List Byte) : Reading (OverParam × Nat) :=
  match bytes with
  | p :: rest =>
      if p = 0 then levelValue? (fun n => (.brightness, n)) rest
      else if p = 1 then levelValue? (fun n => (.intensity, n)) rest
      else if p = 2 then byteValue? (fun n => (inRange 0 15 n).map fun n => (.preset, n)) rest
      else none
  | [] => none

/-- TALLY_RULE_SET (R137): enabled is coded yes 0, no 1, in the order of R136 (log 10). -/
def tallyRule? (body : List Byte) : Option (Nat × TallyRule) :=
  match body with
  | n :: en :: line :: sense :: f :: x :: a :: k :: rest => do
      let n ← inRange 0 15 n.toNat
      let en ← (if en = 0 then some true else if en = 1 then some false else none)
      let line ← inRange 0 7 line.toNat
      let sense ← (if sense = 0 then some Sense.on else if sense = 1 then some Sense.off else none)
      let sel ← selector? f x a k
      let (v, rest) ← overValue? rest
      let (p, v) ← v
      match rest with
      | [at_, re] => do
          let at_ ← inRange 0 250 at_.toNat
          let re ← inRange 0 250 re.toNat
          some (n, { enabled := en, line := line, sense := sense, target := sel, param := p, value := v,
                     attack := at_, release := re })
      | _ => none
  | _ => none

/-- TALLY_MASK (R135): one byte, bit k for line k; no byte can name a line above 7. -/
def tallyMask? (body : List Byte) : Option (BitVec 8) :=
  match body with
  | [m] => some m
  | _ => none

/-- A runner (R150). -/
def runner? (body : List Byte) : Option RunnerId :=
  match body with
  | [r] => runnerOf? r.toNat
  | _ => none

/-- RUNNER_ARM (R151): a runner and a slot. -/
def runnerArm? (body : List Byte) : Option (RunnerId × Nat) :=
  match body with
  | [r, k] => do
      let r ← runnerOf? r.toNat
      let k ← inRange 0 7 k.toNat
      some (r, k)
  | _ => none

/-- CUE_READ (R149): a slot. -/
def cueSlot? (body : List Byte) : Option Nat :=
  match body with
  | [k] => inRange 0 7 k.toNat
  | _ => none

/-- REPORT_SET (R183): the mask, one bit for each of the eight kinds, and the FRAME period. -/
def reportSet? (body : List Byte) : Option (BitVec 8 × Nat) :=
  match body with
  | [m, p] => do
      let p ← inRange 0 250 p.toNat
      some (m, p)
  | _ => none

/-- FAULT_CLEAR (R189): an optional seen count, 1 to 65535. -/
def faultClear? (body : List Byte) : Option (Option Nat) := do
  let (seen, rest) ← opt16 body
  check rest.isEmpty
  match seen with
  | none => some none
  | some w => do
      let n ← inRange 1 65535 w.toNat
      some (some n)

/-! ### Cue steps (R147, R194) -/

/-- What the bytes at a step give. -/
inductive StepBytes
  /-- The bytes end inside the step: the body's length is wrong. -/
  | short
  /-- The bytes name no kind, parameter, condition or form: no length can be known. -/
  | stuck
  /-- A step, absent when a field is out of range, and the bytes after it. -/
  | step (s : Option CueStep) (rest : List Byte)
  deriving DecidableEq, Repr

/-- LOOK: selector, parameter, value. -/
def lookStep? (bytes : List Byte) : StepBytes :=
  match bytes with
  | f :: x :: a :: k :: p :: rest =>
      if 3 < p.toNat then .stuck
      else
        match lookValue? (p :: rest) with
        | some (v, rest) =>
            .step (do
              let sel ← selector? f x a k
              let v ← v
              some (.look sel v)) rest
        | none => .short
  | _ => .short

/-- FADE: selector, parameter, target, frames. The parameter is BRIGHTNESS 0 or INTENSITY 1, in the order of R147 (R194). -/
def fadeStep? (bytes : List Byte) : StepBytes :=
  match bytes with
  | f :: x :: a :: k :: p :: th :: tl :: nh :: nl :: rest =>
      .step (do
        let sel ← selector? f x a k
        let lv ← (if p = 0 then some LevelName.brightness else if p = 1 then some LevelName.intensity else none)
        let t ← inRange 0 1000 (get16 th tl).toNat
        let n ← inRange 1 1000 (get16 nh nl).toNat
        some (.fade sel lv t n)) rest
  | _ => .short

/-- WAIT: frames. -/
def waitStep? (bytes : List Byte) : StepBytes :=
  match bytes with
  | h :: l :: rest => .step ((inRange 1 30000 (get16 h l).toNat).map .wait) rest
  | _ => .short

/-- SYNC: FRAME, coded 0, with a frame number, or GO, coded 1. -/
def syncStep? (bytes : List Byte) : StepBytes :=
  match bytes with
  | k :: rest =>
      if k = 0 then
        match rest with
        | h :: l :: rest => .step (some (.syncFrame (get16 h l))) rest
        | _ => .short
      else if k = 1 then .step (some .syncGo) rest
      else .stuck
  | [] => .short

/-- CONFIGURE: selector, tag, five settings. -/
def configureStep? (bytes : List Byte) : StepBytes :=
  match bytes with
  | f :: x :: a :: k :: tag :: colour :: gamma :: rotation :: dimming :: fan :: rest =>
      .step (do
        let sel ← selector? f x a k
        check (tag ≠ 0)
        let st ← settings? colour gamma rotation dimming fan
        some (.configure sel tag st)) rest
  | _ => .short

/-- ENABLE: selector. -/
def enableStep? (bytes : List Byte) : StepBytes :=
  match bytes with
  | f :: x :: a :: k :: rest => .step ((selector? f x a k).map .enable) rest
  | _ => .short

/-- The window and check of an EXPECT. -/
def expectTail? (sel : Option Selector) (cond : Condition) (most : Nat) (bytes : List Byte) : StepBytes :=
  match bytes with
  | w :: ck :: rest =>
      .step (do
        let sel ← sel
        let w ← inRange 1 most w.toNat
        let strict ← (if ck = 0 then some true else if ck = 1 then some false else none)
        some (.expect sel cond w strict)) rest
  | _ => .short

/-- EXPECT: selector, condition MODE_LIVE 0, CONFIG_TAG 1 with a tag, APPLIED 2, window, check STRICT 0, LENIENT 1. -/
def expectStep? (bytes : List Byte) : StepBytes :=
  match bytes with
  | f :: x :: a :: k :: cond :: rest =>
      if cond = 0 then expectTail? (selector? f x a k) .modeLive 250 rest
      else if cond = 1 then
        match rest with
        | t :: rest => expectTail? (selector? f x a k) (.configTag t) 250 rest
        | [] => .short
      else if cond = 2 then expectTail? (selector? f x a k) .applied 8 rest
      else .stuck
  | _ => .short

/-- CONFIRM: window, optional fallback step index. A presence byte that is neither 0 nor 1 gives the step no length, as a
kind byte with no kind does: the step is a bad one, which CUE_LOAD's owner answers BAD_ARG with its index (R148, log 10). -/
def confirmStep? (bytes : List Byte) : StepBytes :=
  match bytes with
  | h :: l :: p :: rest =>
      let w := inRange 1 1000 (get16 h l).toNat
      if p = 0 then .step (w.map (.confirm · none)) rest
      else if p = 1 then
        match rest with
        | v :: rest => .step (w.map (.confirm · (some v.toNat))) rest
        | [] => .short
      else .stuck
  | _ => .short

/-- A step: its kind byte in the order of R147, then the fields of that kind. -/
def cueStep? (bytes : List Byte) : StepBytes :=
  match bytes with
  | k :: rest =>
      match k.toNat with
      | 0 => lookStep? rest
      | 1 => fadeStep? rest
      | 2 => waitStep? rest
      | 3 => syncStep? rest
      | 4 => configureStep? rest
      | 5 => enableStep? rest
      | 6 => expectStep? rest
      | 7 => confirmStep? rest
      | 8 => .step (some .finish) rest
      | 9 => .step (some .stop) rest
      | _ => .stuck
  | [] => .short

/-- `n` steps: each a step or, out of range or unknown, `none`. A step whose length cannot be known ends the list. -/
def cueSteps? (n : Nat) (bytes : List Byte) : Option (List (Option CueStep)) :=
  match n with
  | 0 => if bytes.isEmpty then some [] else none
  | n + 1 =>
      match cueStep? bytes with
      | .short => none
      | .stuck => some [none]
      | .step st rest => (cueSteps? n rest).map (st :: ·)

/-- The fields of a CUE_LOAD: slot, number of steps, steps (R148). -/
structure CueLoadArgs where
  slot : Nat
  count : Nat
  steps : List (Option CueStep)
  deriving DecidableEq, Repr

/-- CUE_LOAD (R148). -/
def cueLoad? (body : List Byte) : Option CueLoadArgs :=
  match body with
  | k :: n :: rest => (cueSteps? n.toNat rest).map fun steps => { slot := k.toNat, count := n.toNat, steps := steps }
  | _ => none

end Sys2Proof.Machine
end

