-- ==== Sys2Proof/Machine/Queue.lean ====
section
/-! DEFINITION. A Chain Manager at work: what it hands to other blocks, its node table by position and by hop (chapter
2), its command queue (R28 to R33) and the path of its bundles (R42). -/

namespace Sys2Proof.Machine

/-- What a Chain Manager hands to other blocks, in the order in which it does. -/
inductive CmOut
  | report (b : ReportBody)
  | fault (f : PartFault) (node : Option NodeRef)
  | clamp (m : ClampMsg)
  | notice (m : RunnerMsg)
  | order (o : FrameOrder)
  | faulted
  | disabled
  deriving DecidableEq, Repr

/-- A Chain Manager at work on one event: its chain and what it has handed on so far. -/
structure Cm where
  id : ChainId
  ch : Chain
  out : List CmOut
  deriving DecidableEq, Repr

/-- Something handed on. -/
def Cm.emit (o : CmOut) (m : Cm) : Cm := { m with out := m.out ++ [o] }

/-- What a Chain Manager hands on reaches its mailbox, the Control Link or the deferred request. -/
def State.deliverCm (c : ChainId) (s : State) (o : CmOut) : State :=
  match o with
  | .report b => s.report b
  | .fault f node => s.raise f (.chain c) node
  | .clamp m => { s with mail := { s.mail with clamps := s.mail.clamps.set c (s.mail.clamps.get c ++ [m]) } }
  | .notice m => { s with mail := { s.mail with notices := s.mail.notices.set c (s.mail.notices.get c ++ [m]) } }
  | .order o => { s with mail := { s.mail with orders := s.mail.orders.set c (s.mail.orders.get c ++ [.order o]) } }
  | .faulted => { s with mail := { s.mail with orders := s.mail.orders.set c (s.mail.orders.get c ++ [.faulted]) } }
  | .disabled => { s with link := s.link.undefer (.disable c) }

/-- The Chain Manager of chain `c` does `f`, as one event. -/
def State.manage (c : ChainId) (f : Cm → Cm) (s : State) : State :=
  let m := f { id := c, ch := s.chains.get c, out := [] }
  m.out.foldl (State.deliverCm c) { s with chains := s.chains.set c m.ch }

/-! ### The node table by position and hop (R21, R22) -/

/-- The enrolled records with their addresses, in address order. -/
def Chain.enrolled (ch : Chain) : List (Nat × Node) :=
  addresses.filterMap fun a => (ch.node a).map fun n => (a, n)

/-- The enrolled record at a position. -/
def Chain.atPosition (ch : Chain) (q : Nat) : Option (Nat × Node) :=
  ch.enrolled.find? fun p => decide (p.2.position = q)

/-- The enrolled records in position order. -/
def Chain.inOrder (ch : Chain) : List (Nat × Node) := addresses.filterMap fun q => ch.atPosition q

/-- The hop of a node: its position minus the number of FAILED nodes at lower positions, when it is reachable (R21). -/
def Chain.hop (ch : Chain) (n : Node) : Option Nat :=
  if n.state.reachable then
    some (n.position - (ch.enrolled.filter fun p => decide (p.2.state = .failed ∧ p.2.position < n.position)).length)
  else none

/-- The number of enrolled records in a state. -/
def Chain.countIn (ch : Chain) (st : NodeState) : Nat :=
  (ch.enrolled.filter fun p => decide (p.2.state = st)).length

/-- The counts a CHAIN report carries (R27). -/
def Chain.stateCounts (ch : Chain) : StateCounts :=
  { ident := ch.countIn .ident, live := ch.countIn .live, suspect := ch.countIn .suspect, failed := ch.countIn .failed,
    cut := ch.countIn .cut }

/-! ### Reports of a Chain Manager (R27, R49) -/

/-- A CHAIN report (R27). -/
def Cm.chainReport (cause : ChainCause) (m : Cm) : Cm :=
  m.emit (.report (.chain cause m.id m.ch.state m.ch.endHop m.ch.stateCounts))

/-- A NODE report, with the record after the event that is its cause (R49). The record is shown as it stands when the report
is queued: later steps of the same return are not in it (log 53). -/
def Cm.nodeReport (cause : NodeCause) (a : Nat) (m : Cm) : Cm :=
  m.emit (.report (.node cause m.id a ((m.ch.node a).map fun n =>
    { state := n.state, position := n.position, hop := m.ch.hop n, mode := n.mode, tag := n.tag, health := n.health })))

/-- The node reference of an address of this chain. -/
def Cm.ref (m : Cm) (a : Nat) : NodeRef := { chain := m.id, address := a }

/-- A fault of this chain. -/
def Cm.fault (f : PartFault) (a : Option Nat) (m : Cm) : Cm := m.emit (.fault f (a.map m.ref))

/-- The chain record changed. -/
def Cm.modify (f : Chain → Chain) (m : Cm) : Cm := { m with ch := f m.ch }

/-- An enrolled record changed. -/
def Chain.updateNode (a : Nat) (f : Node → Node) (ch : Chain) : Chain :=
  match ch.node a with
  | some n => ch.setNode a (some (f n))
  | none => ch

/-- Every enrolled record changed. -/
def Chain.updateAll (f : Node → Node) (ch : Chain) : Chain := { ch with nodes := ch.nodes.map fun o => o.map f }

/-! ### The command queue (R28 to R33) -/

/-- The places of a command queue (R28). -/
def queueSize : Nat := 16

/-- SET_END and ROUTE are the repair class (R28). -/
def Cmd.isRepair : Cmd → Bool
  | .setEnd _ _ => true
  | .route _ _ => true
  | .configure _ _ _ => false
  | .enable _ => false

/-- A repair command joins behind the repair commands and ahead of the configuration commands (R28). -/
def insertRepair (q : List QEntry) (x : QEntry) : List QEntry :=
  q.takeWhile (fun y => y.cmd.isRepair) ++ x :: q.dropWhile (fun y => y.cmd.isRepair)

/-- The entry that makes room for a repair command in a full queue, and the queue without it: the newest configuration
command, else the oldest repair command (R30). -/
def evictFrom (q : List QEntry) : Option (QEntry × List QEntry) :=
  match q.getLast? with
  | none => none
  | some last => if last.cmd.isRepair then q.head?.map fun h => (h, q.tail) else some (last, q.dropLast)

/-- A counter of the chain record changed. -/
def Chain.counted (f : ChainCounters → ChainCounters) (ch : Chain) : Chain := { ch with counters := f ch.counters }

/-- The walks whose WALK_DONE falls due when an entry leaves its queue (R53). -/
def QEntry.walksEnded (x : QEntry) : Nat := if x.endsWalk then 1 else 0

/-- Room made in a full queue (R30): the removed command is counted as dropped and reported, its runner is told, and an
attempt that lost its ROUTE is marked (R64). A walk whose set-back is removed so has its WALK_DONE with the next bundle
(log 39). -/
def Cm.makeRoom (m : Cm) : Cm :=
  if m.ch.queue.length < queueSize then m
  else
    match evictFrom m.ch.queue with
    | none => m
    | some (x, q) =>
        let m := m.modify fun ch =>
          { ch with queue := q,
                    counters := { ch.counters with dropped := bump16 ch.counters.dropped },
                    walkDoneDue := ch.walkDoneDue + x.walksEnded,
                    attempt := if x.ofAttempt then ch.attempt.map fun t => { t with evicted := true } else ch.attempt }
        let m := m.chainReport (.cmdDropped x.cmd x.issuer)
        match x.issuer with
        | .runner r => m.emit (.notice (.evicted r x.cmd))
        | .manager => m
        | .control => m

/-- A repair command offered by the Chain Manager: always taken (R29, R30). -/
def Cm.offerEntry (x : QEntry) (m : Cm) : Cm :=
  m.makeRoom.modify fun ch => { ch with queue := insertRepair ch.queue x }

/-- A repair command that belongs to no attempt and ends no walk. -/
def Cm.offerRepair (cmd : Cmd) (m : Cm) : Cm := m.offerEntry { cmd := cmd, issuer := .manager, ofAttempt := false }

/-- The ROUTE of the present repair attempt offered (R58, R62). -/
def Cm.offerAttemptRoute (target : Option Nat) (r : Route) (m : Cm) : Cm :=
  m.offerEntry { cmd := .route target r, issuer := .manager, ofAttempt := true }

/-- The last command of a walk's set-back offered (R53). -/
def Cm.offerWalkEnd (cmd : Cmd) (m : Cm) : Cm :=
  m.offerEntry { cmd := cmd, issuer := .manager, ofAttempt := false, endsWalk := true }

/-- A configuration command as the queue holds it. -/
def ConfigCmd.toCmd : ConfigCmd → Cmd
  | .configure a tag settings => .configure a tag settings
  | .enable a => .enable a

/-- A configuration command can be taken at once (R29). -/
def Chain.takesConfig (ch : Chain) : Bool := decide (ch.queue.length < queueSize) && ch.claims.isEmpty

/-- A configuration command joins the queue (R28). -/
def Chain.enqueue (cmd : ConfigCmd) (by_ : Issuer) (ch : Chain) : Chain :=
  { ch with queue := ch.queue ++ [{ cmd := cmd.toCmd, issuer := by_, ofAttempt := false }] }

/-- Room handed to a runner (R161): it joins the room notice that the same event is making, or begins one (R172). -/
def Cm.giveRoom (r : RunnerId) (m : Cm) : Cm :=
  match m.out.getLast? with
  | some (.notice (.room l)) => { m with out := m.out.dropLast ++ [.notice (.room (l ++ [r]))] }
  | _ => m.emit (.notice (.room [r]))

/-- Freed places go to the waiting claims in their order, one command to each (R29); each runner is told (R161). -/
def Cm.serveClaims (claims : List QClaim) (m : Cm) : Cm :=
  match claims with
  | [] => m.modify fun ch => { ch with claims := [] }
  | k :: rest =>
      if m.ch.queue.length < queueSize then
        ((m.modify fun ch => ch.enqueue k.cmd (.runner k.runner)).giveRoom k.runner).serveClaims rest
      else m.modify fun ch => { ch with claims := k :: rest }

/-- The places that are free go to the claims that wait. -/
def Cm.fillPlaces (m : Cm) : Cm := m.serveClaims m.ch.claims

/-- The queue emptied and every waiting claim released, each command counted as discarded unsent (R28, R29, R161). -/
def Cm.emptyQueue (m : Cm) : Cm :=
  let runners := m.ch.claims.map fun k => k.runner
  let m := m.modify fun ch =>
    { ch with queue := [], claims := [],
              counters := { ch.counters with
                discarded := bump16By (ch.queue.length + ch.claims.length) ch.counters.discarded } }
  runners.foldl (fun m r => m.giveRoom r) m

/-- The END hop that a command leaves as it leaves, where it was `endHop` (R33). -/
def Cmd.endAfter (endHop : Option Nat) (cmd : Cmd) : Option Nat :=
  match cmd with
  | .setEnd h true => some h
  | .setEnd h false => if endHop = some h then none else endHop
  | .route _ _ => endHop
  | .configure _ _ _ => endHop
  | .enable _ => endHop

/-- The END hop when every SET_END that waits in the queue has left; that of the record when none waits. Where a rule computes
from the END hop, or puts it back, while a SET_END waits, the model takes this one: its own choice (log 52). -/
def Chain.comingEnd (ch : Chain) : Option Nat := ch.queue.foldl (fun e x => x.cmd.endAfter e) ch.endHop

/-- A command to a node whose record is ABSENT, FAILED or CUT is removed unsent at the head of the queue (R31). -/
def Chain.isDead (ch : Chain) (cmd : Cmd) : Bool :=
  let dead (a : Nat) : Bool :=
    isAddress a && (match ch.node a with
      | some n => !n.state.reachable
      | none => true)
  match cmd with
  | .setEnd _ _ => false
  | .route none _ => false
  | .route (some a) _ => dead a
  | .configure a _ _ => dead a
  | .enable a => dead a

/-- The new state of a record named by a CONFIGURE that leaves (R32). -/
def Node.configured (n : Node) : Node := if n.state.reachable then { n with state := .ident } else n

/-- The new state of a record named by an ENABLE that leaves (R32). -/
def Node.enabled (n : Node) : Node :=
  if n.state.reachable then { n with state := if n.silent = 0 then .live else .suspect } else n

/-- The table effect of a command at the moment it leaves (R32, R33). -/
def Chain.depart (cmd : Cmd) (ch : Chain) : Chain :=
  match cmd with
  | .setEnd h true => { ch with endHop := some h }
  | .setEnd h false => if ch.endHop = some h then { ch with endHop := none } else ch
  | .route none r => { ch with portRoute := r }
  | .route (some a) r => ch.updateNode a fun n => { n with route := r }
  | .configure a _ _ => if a = 31 then ch.updateAll Node.configured else ch.updateNode a Node.configured
  | .enable a => if a = 31 then ch.updateAll Node.enabled else ch.updateNode a Node.enabled

/-- A ROUTE for the chain port holds a place but is not carried (R31). -/
def Cmd.carried : Cmd → Bool
  | .route none _ => false
  | .route (some _) _ => true
  | .setEnd _ _ => true
  | .configure _ _ _ => true
  | .enable _ => true

/-- The command section filled from the head of the queue (R31): dead commands are removed unsent, `left` more may
leave; the commands carried are gathered in departure order. -/
def Cm.fillCommands (fuel left : Nat) (carried : List Cmd) (m : Cm) : Cm × List Cmd :=
  match fuel, left with
  | 0, _ => (m, carried)
  | _, 0 => (m, carried)
  | fuel + 1, left + 1 =>
      match m.ch.queue with
      | [] => (m, carried)
      | x :: rest =>
          if m.ch.isDead x.cmd then
            ((m.modify fun ch =>
              { ch with queue := rest,
                        counters := { ch.counters with discarded := bump16 ch.counters.discarded } }).fillPlaces).fillCommands
              fuel (left + 1) carried
          else
            ((m.modify fun ch =>
              { ch.depart x.cmd with
                queue := rest,
                counters := { ch.counters with sent := bump16 ch.counters.sent },
                walkDoneDue := ch.walkDoneDue + x.walksEnded,
                attempt := if x.ofAttempt then ch.attempt.map fun t => { t with phase := .deciding }
                           else ch.attempt }).fillPlaces).fillCommands
              fuel left (if x.cmd.carried then carried ++ [x.cmd] else carried)

/-- The commands of one bundle: up to four leave (R31). The sixteen entries and the claims of the three runners bound
how many can be looked at. -/
def Cm.departures (m : Cm) : Cm × List Cmd := m.fillCommands (queueSize + 4) 4 []

/-! ### The path of a bundle (R42) -/

/-- The places from position `q` on, and the position at which the path stops. -/
def Chain.pathFrom (ch : Chain) (fuel q : Nat) : List Place × Nat :=
  match fuel with
  | 0 => ([], q)
  | fuel + 1 =>
      if 30 < q then ([], q)
      else
        match ch.atPosition q with
        | none => ([], q)
        | some (a, n) =>
            if n.state = .cut then ([], q)
            else
              let r := ch.pathFrom fuel (if n.route = .normal then q + 1 else q + 2)
              ({ position := q, address := some a } :: r.1, r.2)

/-- The path's places on nodes, and where it stops. -/
def Chain.path (ch : Chain) : List Place × Nat := ch.pathFrom 31 (if ch.portRoute = .normal then 1 else 2)

/-- A chain whose bundles carry a probe place (R42). -/
def ChainMode.probes : ChainMode → Bool
  | .walking | .extending => true
  | .off | .running | .broken | .faulted => false

/-- The path hop of a position on a path. -/
def hopOfPosition (path : List Place) (q : Nat) : Option Nat :=
  (path.findIdx? fun p => decide (p.position = q)).map (· + 1)

/-- The path hop of an address on a path. -/
def hopOfAddress (path : List Place) (a : Nat) : Option Nat :=
  (path.findIdx? fun p => decide (p.address = some a)).map (· + 1)

/-- The place at a path hop. -/
def placeAt (path : List Place) (hop : Nat) : Option Place := if hop = 0 then none else path[hop - 1]?

/-- The END hop when the path changes from `old` to `new` (R42). A hop that no place of `old` has stays as it is: R42 speaks
of the node that held it, and the choice for a hop that none held is the model's (log 59). -/
def renumberEnd (old new : List Place) (endHop : Option Nat) : Option Nat :=
  match endHop with
  | none => none
  | some k =>
      if old = new then some k
      else
        match placeAt old k with
        | none => some k
        | some p =>
            match hopOfPosition new p.position with
            | some h => some h
            | none =>
                let before := (new.filter fun x => x.address.isSome && decide (x.position < p.position)).length
                if before = 0 then none else some before

/-- Two paths that have the same position at every hop that both have. -/
def hopsAgree (old new : List Place) : Bool := (old.zip new).all fun x => decide (x.1.position = x.2.position)

/-- A SET_END on for hop `h` that waits while the path changes from `old` to `new`: it follows its node as the END hop does
(R42). Where END becomes absent so, it turns END off at the hop beyond `new`, which no node has. The model's own (log 60). -/
def endOnPath (old new : List Place) (h : Nat) : Cmd :=
  match renumberEnd old new (some h) with
  | some k => .setEnd k true
  | none => .setEnd (new.length + 1) false

/-- The hop of a SET_END off that waits while the path changes from `old` to `new`, which stops at `stop`: it follows its node
(R42). One whose node is skipped on `new` names the hop beyond `new`, which no node has. The model's own (log 60). -/
def offOnPath (old new : List Place) (stop h : Nat) : Nat :=
  if hopsAgree old new then h
  else
    match placeAt old h with
    | none => h
    | some p => (hopOfPosition new p.position).getD (if p.position < stop then new.length + 1 else h)

/-- A command that waits while the path changes: every hop that travels is a path hop of its own bundle (R42, log 60). -/
def Cmd.onPath (old new : List Place) (stop : Nat) (cmd : Cmd) : Cmd :=
  match cmd with
  | .setEnd h true => endOnPath old new h
  | .setEnd h false => .setEnd (offOnPath old new stop h) false
  | .route a r => .route a r
  | .configure a tag x => .configure a tag x
  | .enable a => .enable a

/-- A ROUTE that waits taken as left; other commands change no route. -/
def Chain.takeRoute (ch : Chain) (cmd : Cmd) : Chain :=
  match cmd with
  | .route a r => if ch.isDead (.route a r) then ch else ch.depart (.route a r)
  | .setEnd _ _ => ch
  | .configure _ _ _ => ch
  | .enable _ => ch

/-- The path that the routes give when every ROUTE that waits in the queue has left. -/
def Chain.comingPath (ch : Chain) : List Place := (ch.queue.foldl (fun ch x => ch.takeRoute x.cmd) ch).path.1

/-- The END hop from which a trial END hop is reckoned (R58, R62): the one to which END comes, on the path that comes; that of
the record when no SET_END waits and the path stays. The model's own choice for what waits (log 52). -/
def Chain.nextEnd (ch : Chain) : Option Nat := renumberEnd ch.lastPath ch.comingPath ch.comingEnd

/-- The path of the bundle being prepared for `frame` (R42): the END hop and the SET_END commands that wait are renumbered to
it, and the probe hop is the path hop of the probe place. -/
def Cm.computePath (frame : Word16) (deciding : Bool) (m : Cm) : Cm × BundleInfo :=
  let p := m.ch.path
  let full := if m.ch.state.probes then p.1 ++ [{ position := p.2, address := none }] else p.1
  let probe := if m.ch.state.probes then m.ch.probeHop.map fun _ => full.length else none
  (m.modify fun ch =>
    { ch with endHop := renumberEnd ch.lastPath full ch.endHop, lastPath := full,
              probeHop := if ch.state.probes then probe else ch.probeHop,
              queue := ch.queue.map fun x => { x with cmd := x.cmd.onPath ch.lastPath full p.2 } },
   { frame := frame, path := full, probe := probe, stop := p.2, deciding := deciding })

end Sys2Proof.Machine
end

