-- ==== Sys2Proof/Machine/Returns.lean ====
section
/-! DEFINITION. Chapter 3: what a Chain Manager does with a return that arrives and with one that is missing: the
classification of status blocks, nodes, walks, breaks, bypass, cut and reinstate. -/

namespace Sys2Proof.Machine

/-! ### Status blocks (R43, R199, R200) -/

/-- A status block whose fields are in range (R200, step 4). -/
structure Answer where
  hop : Nat
  address : Nat
  kind : KindName
  mode : NodeMode
  tag : Byte
  gen : Option (BitVec 4)
  health : BitVec 4
  identity : Option Identity
  deriving DecidableEq, Repr

/-- The status block that the bytes of an item give (R199). -/
def readBlock (item : List Byte) : Option StatusBlock :=
  match item with
  | [_, h, a, k, m, t, g, f] =>
      some { hop := h, address := a, kind := k, mode := m, tag := t, gen := g, health := f, identity := none }
  | [_, h, a, k, m, t, g, f, m1, m0, s3, s2, s1, s0] =>
      some { hop := h, address := a, kind := k, mode := m, tag := t, gen := g, health := f,
             identity := some { model := get16 m1 m0, serial := get32 s3 s2 s1 s0 } }
  | _ => none

/-- The kind a status block's byte names (R199). -/
def kindByte? (b : Byte) : Option KindName := if b = 0 then some .tile else if b = 1 then some .lamp else none

/-- The mode a status block's byte names (R199). -/
def modeByte? (b : Byte) : Option NodeMode := if b = 0 then some .ident else if b = 1 then some .live else none

/-- The look generation a status block's byte gives: absent for 0xFF (R199). -/
def genByte? (b : Byte) : Option (Option (BitVec 4)) :=
  if b = 0xFF then some none else if b.toNat ≤ 15 then some (some (b.setWidth 4)) else none

/-- A status block checked for range (R200, step 4). -/
def StatusBlock.answer? (b : StatusBlock) : Option Answer := do
  let hop ← inRange 1 31 b.hop.toNat
  let a ← inRange 1 30 b.address.toNat
  let k ← kindByte? b.kind
  let m ← modeByte? b.mode
  let g ← genByte? b.gen
  check (decide (b.health.toNat ≤ 15))
  some { hop := hop, address := a, kind := k, mode := m, tag := b.tag, gen := g, health := b.health.setWidth 4,
         identity := b.identity }

/-- The first block of each path hop (R43). -/
def firstPerHop (seen : List Nat) (xs : List Answer) : List Answer :=
  match xs with
  | [] => []
  | x :: rest => if x.hop ∈ seen then firstPerHop seen rest else x :: firstPerHop (x.hop :: seen) rest

/-- A block at the bundle's probe place: the walk reads it, it is not classified (R43). -/
def BundleInfo.atProbe (info : BundleInfo) (x : Answer) : Bool := decide (info.probe = some x.hop)

/-- A clash block: its address is enrolled at another position than that of the place at its hop (R43). -/
def Chain.clashes (ch : Chain) (info : BundleInfo) (x : Answer) : Bool :=
  match ch.node x.address with
  | none => false
  | some n =>
      match placeAt info.path x.hop with
      | some p => decide (p.position ≠ n.position)
      | none => true

/-- A matched block: the node on the path at its hop has its address and kind (R43). -/
def Chain.matches (ch : Chain) (info : BundleInfo) (x : Answer) : Bool :=
  match placeAt info.path x.hop, ch.node x.address with
  | some p, some n => decide (p.address = some x.address ∧ n.kindName = x.kind)
  | _, _ => false

/-! ### Nodes that enter FAILED, CUT or ABSENT (R49) -/

/-- A lost node put in its place by position. -/
def insertLost (x : LostNode) (l : List LostNode) : List LostNode :=
  match l with
  | [] => [x]
  | y :: rest => if x.position < y.position then x :: y :: rest else y :: insertLost x rest

/-- An enrolled node is about to enter FAILED, CUT or ABSENT. -/
def Cm.lose (a : Nat) (m : Cm) : Cm :=
  match m.ch.node a with
  | some n =>
      m.modify fun ch =>
        { ch with lostHeld := insertLost { address := a, position := n.position, kind := n.kindName,
                                           reachable := n.state.reachable, since := .all false } ch.lostHeld }
  | none => m

/-- The node-lost notices, in position order (R49). -/
def Cm.flushLost (m : Cm) : Cm :=
  m.ch.lostHeld.foldl (fun m x => m.emit (.notice (.lost x.address x.kind x.reachable x.since)))
    (m.modify fun ch => { ch with lostHeld := [] })

/-- A record becomes ABSENT; the Scene Table is handed an empty health set (R47). -/
def Cm.makeAbsent (a : Nat) (m : Cm) : Cm := (m.modify fun ch => ch.setNode a none).emit (.clamp (.absent a))

/-! ### Attempts, cuts (R57 to R59) -/

/-- The repair attempt becomes absent; a ROUTE of it that still waits is a repair command like any other. -/
def Chain.endAttempt (ch : Chain) : Chain :=
  { ch with attempt := none, queue := ch.queue.map fun x => { x with ofAttempt := false } }

/-- The position of a predecessor, 0 for the port. -/
def Chain.positionOf (ch : Chain) (pred : Option Nat) : Nat :=
  match pred with
  | none => 0
  | some a =>
      match ch.node a with
      | some n => n.position
      | none => 0

/-- The route of a predecessor, the port route when it is the port (R58). -/
def Chain.routeOf (ch : Chain) (pred : Option Nat) : Route :=
  match pred with
  | none => ch.portRoute
  | some a =>
      match ch.node a with
      | some n => n.route
      | none => .normal

/-- The path hop of a predecessor, 0 for the port (R58). -/
def predHop (path : List Place) (pred : Option Nat) : Nat :=
  match pred with
  | none => 0
  | some a => (hopOfAddress path a).getD 0

/-- A record put in its place by position. -/
def insertByPosition (x : Nat × Node) (l : List (Nat × Node)) : List (Nat × Node) :=
  match l with
  | [] => [x]
  | y :: rest => if x.2.position < y.2.position then x :: y :: rest else y :: insertByPosition x rest

/-- A reachable record beyond a position (R59, step 1). -/
def Node.isBeyond (q : Nat) (n : Node) : Bool := n.state.reachable && decide (q < n.position)

/-- The reachable nodes beyond a position, in position order. -/
def Chain.beyond (ch : Chain) (q : Nat) : List Nat :=
  ((ch.enrolled.filter fun p => p.2.isBeyond q).foldl (fun l p => insertByPosition p l) []).map fun p => p.1

/-- A record when the chain is cut at a position (R59, step 1). -/
def Node.cutBeyond (q : Nat) (n : Node) : Node := if n.isBeyond q then { n with state := .cut } else n

/-- END brought to hop `h` by a cut (R59, step 2): SET_END on where END is not at `h`, or where a SET_END that waits takes it
elsewhere (log 52). At hop 0, SET_END off at the hop to which END comes; out of probe-back SET_END off at hop 1 waits already,
and any other cut at hop 0 offers its own: the model's choice (log 47). -/
def Cm.endAtCut (h : Nat) (m : Cm) : Cm :=
  if h = 0 then
    match m.ch.comingEnd with
    | some k => m.offerRepair (.setEnd k false)
    | none => m
  else if m.ch.endHop ≠ some h ∨ m.ch.comingEnd ≠ some h then m.offerRepair (.setEnd h true)
  else m

/-- The chain cut at hop `h`, whose node stands at position `q` (both 0 for the port); `target` is the node at hop
h + 1 (R59). -/
def Cm.cut (q h target : Nat) (m : Cm) : Cm :=
  let lost := m.ch.beyond q
  let m := ((lost.foldl (fun m a => m.lose a) m).modify (Chain.updateAll (Node.cutBeyond q))).endAtCut h
  let broken := decide (m.ch.state = .broken)
  let m := m.modify fun ch => { ch.endAttempt with breakCount := 0, brokenFrom := none, state := .running }
  let m := if broken then m.chainReport .cut else m
  let m := m.fault (.chainCut h) (some target)
  lost.foldl (fun m a => m.nodeReport .cut a) m

/-- A position next to that of a FAILED record (R58). -/
def Chain.besideFailed (ch : Chain) (q : Nat) : Bool :=
  ch.enrolled.any fun p => decide (p.2.state = .failed ∧ (p.2.position + 1 = q ∨ q + 1 = p.2.position))

/-- END taken from a FAILED predecessor at path hop `h` at which the chain was cut: behind R59's SET_END on at `h`, SET_END on
at the hop before and off at `h`, so that END stands at a reachable node (R42). No two FAILED nodes are next to each other (R58),
so the node before is reachable. The model's own (log 62). -/
def Cm.endBeforeFailed (pred : Option Nat) (h : Nat) (m : Cm) : Cm :=
  match pred.bind m.ch.node with
  | some n =>
      if n.state = .failed ∧ 1 < h then (m.offerRepair (.setEnd (h - 1) true)).offerRepair (.setEnd h false) else m
  | none => m

/-- A bypass attempt on `target` with its predecessor at path hop `h` (R58): begun, or the chain cut at `h`. On a RUNNING chain
the trial END hop is one less than the END hop that comes (log 52). -/
def Cm.beginBypass (target : Nat) (pred : Option Nat) (h : Nat) (m : Cm) : Cm :=
  if m.ch.besideFailed (m.ch.positionOf (some target)) ∨ m.ch.routeOf pred ≠ .normal then
    (m.cut (m.ch.positionOf pred) h target).endBeforeFailed pred h
  else
    let from_ := if m.ch.state = .broken then m.ch.brokenFrom else m.ch.nextEnd
    (m.modify fun ch =>
      { ch with attempt := some { kind := .bypass, target := target, pred := pred, phase := .routing,
                                  trialEnd := from_.getD 0 - 1, bundled := false, evicted := false,
                                  lapsed := false } }).offerAttemptRoute pred .skipNext

/-- A bypass attempt succeeds (R61). -/
def Cm.bypassSucceeds (t : Attempt) (m : Cm) : Cm :=
  let broken := decide (m.ch.state = .broken)
  let m := (m.lose t.target).modify fun ch => ch.updateNode t.target fun n => { n with state := .failed }
  let m := m.modify fun ch =>
    { ch.endAttempt with brokenFrom := none, state := if broken then .running else ch.state }
  let m := if broken then m.chainReport .repaired else m
  m.nodeReport .failed t.target

/-- A bypass attempt fails at the deadline of its deciding return (R61). -/
def Cm.bypassFails (t : Attempt) (path : List Place) (m : Cm) : Cm :=
  (m.offerRepair (.route t.pred .normal)).cut (m.ch.positionOf t.pred) (predHop path t.pred) t.target

/-- The table state that a reported mode gives (R24). -/
def NodeMode.state : NodeMode → NodeState
  | .ident => .ident
  | .live => .live

/-- A reinstate attempt succeeds (R63). -/
def Cm.reinstateSucceeds (t : Attempt) (mode : NodeMode) (m : Cm) : Cm :=
  (m.modify fun ch =>
    (ch.updateNode t.target fun n => { n with state := mode.state, silent := 0, mismatch := false }).endAttempt).nodeReport
    .reinstated t.target

/-- A reinstate attempt ends in failure (R63, R64). -/
def Cm.endReinstate (t : Attempt) (m : Cm) : Cm :=
  (m.modify fun ch => { ch.endAttempt with breakCount := 0 }).nodeReport .reinstateFailed t.target

/-- A reinstate attempt fails by its deciding return (R63): the route is taken back, and END returns to the predecessor
when the target held the trial END hop. -/
def Cm.reinstateFails (t : Attempt) (path : List Place) (m : Cm) : Cm :=
  let m := m.offerRepair (.route t.pred .skipNext)
  let m := if hopOfAddress path t.target = some t.trialEnd ∧ 0 < predHop path t.pred then
      m.offerRepair (.setEnd (predHop path t.pred) true)
    else m
  m.endReinstate t

/-- An attempt whose ROUTE was evicted fails at a deadline; routes stay as recorded (R64). -/
def Cm.failEvicted (m : Cm) : Cm :=
  match m.ch.attempt with
  | some t =>
      if t.evicted then
        match t.kind with
        | .bypass => m.cut (m.ch.positionOf t.pred) (predHop m.ch.lastPath t.pred) t.target
        | .reinstate => m.endReinstate t
      else m
  | none => m

/-- An attempt whose deciding bundle left with no END designated fails at a deadline, as one whose deciding return is
missing (R61, R63, log 16). -/
def Cm.failLapsed (m : Cm) : Cm :=
  match m.ch.attempt with
  | some t =>
      if t.lapsed then
        match t.kind with
        | .bypass => m.bypassFails t m.ch.lastPath
        | .reinstate => m.reinstateFails t m.ch.lastPath
      else m
  | none => m

/-! ### Walks (R51 to R53) -/

/-- The SET_END commands that set END back from probe hop `p` (R53, step 2); the walk's WALK_DONE follows the last. -/
def Cm.offerSetBack (p : Nat) (m : Cm) : Cm :=
  if 1 < p then (m.offerRepair (.setEnd (p - 1) true)).offerWalkEnd (.setEnd p false)
  else m.offerWalkEnd (.setEnd 1 false)

/-- The walk whose probe at hop `p` is not found ends (R53): no probe hop, the set-back offered, then RUNNING. -/
def Cm.endWalk (m : Cm) : Cm :=
  let walked := m.modify fun ch => { ch with probeHop := none }
  let m :=
    match m.ch.probeHop with
    | some p => walked.offerSetBack p
    | none => walked
  m.modify fun ch => { ch with state := .running }

/-- The tile fields of enrolment (R23). -/
def TileSettings.enrolment : TileSettings := { gap := .repeatHeld, fallback := none, gapCount := 0, lateCount := 0 }

/-- A kind with the values of enrolment (R23). -/
def KindName.enrolment : KindName → NodeKind
  | .tile => .tile .enrolment
  | .lamp => .lamp

/-- The clamp of enrolment (R23). -/
def enrolmentClamp : Nat := 600

/-- The record of a node enrolled at position `q` (R23, R51). -/
def Answer.enrol (q : Nat) (x : Answer) : Node :=
  { kind := x.kind.enrolment, position := q, state := x.mode.state, mode := x.mode, tag := x.tag, gen := x.gen,
    silent := 0, mismatch := false, health := x.health, identity := x.identity, route := .normal,
    clamp := enrolmentClamp }

/-- A CUT record found again (R51): a change of kind resets its settings and counters to enrolment values. -/
def Node.foundAgain (x : Answer) (n : Node) : Node :=
  let same := decide (n.kindName = x.kind)
  { n with kind := if same then n.kind else x.kind.enrolment, clamp := if same then n.clamp else enrolmentClamp,
           state := x.mode.state, mode := x.mode, tag := x.tag, gen := x.gen.or n.gen, silent := 0, mismatch := false,
           health := x.health, identity := x.identity.or n.identity }

/-- The Scene Table is handed a record's clamp and health set (R47). -/
def Cm.handClamp (a : Nat) (m : Cm) : Cm :=
  match m.ch.node a with
  | some n => m.emit (.clamp (.enrolled a n.clamp (overheat n.health)))
  | none => m

/-- A CUT record of another address that holds position `q` becomes ABSENT (R51). -/
def Cm.leavePosition (q : Nat) (m : Cm) : Cm :=
  match m.ch.atPosition q with
  | some (a, n) => if n.state = .cut then ((m.lose a).makeAbsent a).nodeReport .left a else m
  | none => m

/-- The walk found a node at its probe place, at position `q`, and it is no clash (R51). -/
def Cm.foundProbe (q : Nat) (x : Answer) (m : Cm) : Cm :=
  match m.ch.node x.address with
  | some _ => ((m.modify fun ch => ch.updateNode x.address (Node.foundAgain x)).handClamp x.address).nodeReport .found x.address
  | none =>
      (((m.leavePosition q).modify fun ch => ch.setNode x.address (some (x.enrol q))).handClamp x.address).nodeReport
        .joined x.address

/-- The return answers a bundle that carried the probe the walk is at (log 15). -/
def Chain.walksOn (ch : Chain) (info : BundleInfo) : Bool :=
  ch.state.probes && ch.probeHop.isSome && decide (info.probe = ch.probeHop)

/-- The walk reads its probe place (R51): found, or the walk ends. -/
def Cm.readProbe (info : BundleInfo) (answers : List Answer) (m : Cm) : Cm :=
  if m.ch.walksOn info then
    match answers.find? info.atProbe with
    | some x => (m.foundProbe info.stop x).modify fun ch => { ch with probeHop := ch.probeHop.map (· + 1) }
    | none => m.endWalk
  else m

/-- The block at the probe place is a clash: its position would be above 30, or its address is enrolled at another
position (R51). -/
def Chain.probeClash (ch : Chain) (info : BundleInfo) (answers : List Answer) : Option Answer :=
  if ch.walksOn info then
    match answers.find? info.atProbe with
    | some x =>
        match ch.node x.address with
        | some n => if 30 < info.stop ∨ n.position ≠ info.stop then some x else none
        | none => if 30 < info.stop then some x else none
    | none => none
  else none

/-- ADDR_CLASH (R52): the chain becomes FAULTED. -/
def Cm.clash (info : BundleInfo) (x : Answer) (m : Cm) : Cm :=
  let m := m.fault (.addrClash ((m.ch.node x.address).map fun n => n.position)
      ((placeAt info.path x.hop).map fun p => p.position) x.hop) (some x.address)
  let all := m.ch.enrolled.map fun p => p.1
  let m := all.foldl (fun m a => (m.lose a).makeAbsent a) m
  let m := m.emptyQueue
  let m := m.modify fun ch =>
    { ch with endHop := none, probeHop := none, brokenFrom := none, attempt := none, stranger := none, breakCount := 0,
              state := .faulted, lastPath := [], probes := [], walkDoneDue := 0 }
  (m.chainReport .faulted).emit .faulted

/-! ### Breaks (R55, R56) -/

/-- A missing return moves END inward, or ends probe-back at the port (R56). -/
def Cm.probeBack (info : BundleInfo) (m : Cm) : Cm :=
  match m.ch.endHop with
  | none => m
  | some k =>
      if 1 < k then (m.offerRepair (.setEnd (k - 1) true)).offerRepair (.setEnd k false)
      else
        match placeAt info.path 1 with
        | some { address := some a, .. } => (m.offerRepair (.setEnd 1 false)).beginBypass a none 0
        | _ => m

/-- A missing return on a RUNNING chain increases the break count; at the limit, with no attempt present, the chain
becomes BROKEN (R55). -/
def Cm.countBreak (info : BundleInfo) (m : Cm) : Cm :=
  let old := m.ch.breakCount
  let m := m.modify fun ch => { ch with breakCount := bump15 ch.breakCount }
  if old < m.ch.breakCount ∧ m.ch.breakLimit ≤ m.ch.breakCount ∧ m.ch.attempt = none then
    let m := m.modify fun ch => { ch with state := .broken, brokenFrom := ch.endHop }
    ((m.fault (.chainBroken m.ch.endHop) none).chainReport .broken).probeBack info
  else m

/-- A return arrives while the chain is BROKEN: END at hop `k` answers, and the node beyond it is the target (R56). -/
def Cm.endProbeBack (info : BundleInfo) (m : Cm) : Cm :=
  match m.ch.endHop with
  | none => m
  | some k =>
      match placeAt info.path (k + 1) with
      | some { address := some a, .. } => m.beginBypass a ((placeAt info.path k).bind fun p => p.address) k
      | _ => m

/-! ### The handling of a return (R44 to R48) -/

/-- A collected return answers the deciding bundle of the present attempt (R60). -/
def Chain.deciding (ch : Chain) (info : BundleInfo) : Option Attempt :=
  if info.deciding then ch.attempt.filter fun t => t.bundled else none

/-- The effect of the chain state (R44, step 2). -/
def Cm.stateEffect (info : BundleInfo) (answers : List Answer) (m : Cm) : Cm :=
  match m.ch.attempt with
  | some _ =>
      match m.ch.deciding info with
      | some t =>
          match t.kind with
          | .bypass => m.bypassSucceeds t
          | .reinstate =>
              match answers.find? (fun x => decide (x.address = t.target) && m.ch.matches info x) with
              | some x => m.reinstateSucceeds t x.mode
              | none => m.reinstateFails t info.path
      | none => m
  | none =>
      match m.ch.state with
      | .walking => m.readProbe info answers
      | .extending => m.readProbe info answers
      | .broken => m.endProbeBack info
      | .running => m
      | .off => m
      | .faulted => m

/-- The record of a node after a matched block, but for its health and its mismatch count (R45). -/
def Node.answered (x : Answer) (n : Node) : Node :=
  { n with silent := if n.state = .failed then n.silent else 0,
           state := if n.state = .suspect then .live else n.state,
           mode := x.mode, tag := x.tag, gen := x.gen.or n.gen, identity := x.identity.or n.identity }

/-- A different identity than the one recorded (R45). -/
def Node.replacedBy (x : Answer) (n : Node) : Option Identity :=
  match n.identity, x.identity with
  | some old, some new => if old = new then none else some new
  | _, _ => none

/-- A reported mode is consistent with a table state (R48). -/
def consistent (st : NodeState) (mode : NodeMode) : Bool :=
  match mode with
  | .live => decide (st = .live ∨ st = .suspect)
  | .ident => decide (st = .ident)

/-- The mode of a node that answered is compared with the table (R48). -/
def Cm.compareMode (a : Nat) (n : Node) (m : Cm) : Cm :=
  if n.state = .failed then m
  else if consistent n.state n.mode then m.modify fun ch => ch.updateNode a fun n => { n with mismatch := false }
  else if n.mismatch then
    ((m.fault (.modeMismatch n.state n.mode) (some a)).modify fun ch =>
      ch.updateNode a fun n => { n with state := n.mode.state, mismatch := false }).nodeReport .mismatch a
  else m.modify fun ch => ch.updateNode a fun n => { n with mismatch := true }

/-- A matched block taken by its node (R45, R47, R48). -/
def Cm.takeAnswer (a : Nat) (n : Node) (x : Answer) (m : Cm) : Cm :=
  let m := m.modify fun ch => ch.setNode a (some (n.answered x))
  let m :=
    match n.replacedBy x with
    | some new => m.nodeReport (.replaced new) a
    | none => m
  let m :=
    if n.health ≠ x.health then
      ((m.modify fun ch => ch.updateNode a fun n => { n with health := x.health }).emit
        (.clamp (.health a (overheat x.health)))).nodeReport .health a
    else m
  m.compareMode a (n.answered x)

/-- The record of a node in the return that gave no matched block (R46). -/
def Node.unanswered (n : Node) : Node :=
  { n with silent := bump15 n.silent, state := if n.state = .live then .suspect else n.state, mismatch := false }

/-- A node in the return gave no matched block (R46); at its limit a bypass attempt begins. -/
def Cm.takeSilence (path : List Place) (hop a : Nat) (n : Node) (m : Cm) : Cm :=
  let m := m.modify fun ch => ch.setNode a (some n.unanswered)
  if n.silent < n.unanswered.silent ∧ m.ch.silentLimit ≤ n.unanswered.silent ∧ m.ch.state = .running ∧
      m.ch.attempt = none then
    m.beginBypass a ((placeAt path (hop - 1)).bind fun p => p.address) (hop - 1)
  else m

/-- A path hop within the END hop (R46). -/
def Chain.inReturn (ch : Chain) (hop : Nat) : Bool :=
  match ch.endHop with
  | some k => decide (hop ≤ k)
  | none => false

/-- One place of the path taken (R44, step 4). A record that the handling made CUT is no node on the path any more. -/
def Cm.takePlace (info : BundleInfo) (answers : List Answer) (m : Cm) (at_ : Place × Nat) : Cm :=
  let hop := at_.2 + 1
  match at_.1.address with
  | none => m
  | some a =>
      match m.ch.node a with
      | none => m
      | some n =>
          if n.state = .cut then m
          else
            match answers.find? (fun x => decide (x.hop = hop) && m.ch.matches info x) with
            | some x => m.takeAnswer a n x
            | none => if n.state.reachable && m.ch.inReturn hop then m.takeSilence info.path hop a n else m

/-- Stranger blocks reported against the stranger memory (R43). -/
def Cm.strangers (xs : List Answer) (m : Cm) : Cm :=
  match xs with
  | [] => m.modify fun ch => { ch with stranger := none }
  | _ =>
      xs.foldl (fun m x =>
        let key : Byte × Byte := (BitVec.ofNat 8 x.hop, BitVec.ofNat 8 x.address)
        if m.ch.stranger = some key then m
        else
          (m.modify fun ch => { ch with stranger := some key }).nodeReport
            (.stranger key.1 (if x.kind = .tile then 0 else 1)) x.address) m

/-- END restated on a RUNNING chain with no attempt, when the trailer names another hop than the END hop (R44). While a
SET_END waits, END is restated at the hop to which it comes, and not turned off there (R42, log 52). -/
def Cm.restate (trailer : Nat) (m : Cm) : Cm :=
  if m.ch.endHop = none ∨ m.ch.endHop = some trailer then m
  else
    let coming := m.ch.comingEnd
    let m :=
      match coming with
      | some k => m.offerRepair (.setEnd k true)
      | none => m
    if coming = some trailer then m else m.offerRepair (.setEnd trailer false)

/-- RUNNING with no repair attempt present. -/
def Chain.settled (ch : Chain) : Bool := decide (ch.state = .running ∧ ch.attempt = none)

/-- The notices at the end of the handling of a return (R49). -/
def Cm.endHandling (m : Cm) : Cm := m.flushLost.emit (.notice .complete)

/-- A return without a clash handled (R44): strangers, the chain state's effect, the break count, END restated, the nodes. R44
gives the restatement no place among its steps; ahead of step 4 a cut among the nodes has the last word on END: the model's
choice (log 56). -/
def Cm.handleReturn (info : BundleInfo) (answers : List Answer) (trailer : Nat) (m : Cm) : Cm :=
  let m := m.strangers (answers.filter fun x => !info.atProbe x && !m.ch.matches info x)
  let m := m.stateEffect info answers
  let m := m.modify fun ch => { ch with breakCount := 0 }
  let m := if m.ch.settled then m.restate trailer else m
  info.path.zipIdx.foldl (Cm.takePlace info answers) m

/-- A return arrives (R41, R43, R44). -/
def Cm.arrival (info : BundleInfo) (blocks : List StatusBlock) (trailer : Nat) (m : Cm) : Cm :=
  let good := blocks.filterMap StatusBlock.answer?
  let answers := firstPerHop [] good
  let m := m.modify fun ch =>
    { ch with collect := none,
              counters := { ch.counters with complete := bump16 ch.counters.complete,
                                             blockRange := bump16By (blocks.length - good.length) ch.counters.blockRange } }
  match answers.find? (fun x => !info.atProbe x && m.ch.clashes info x) with
  | some x => (m.clash info x).endHandling
  | none =>
      match m.ch.probeClash info answers with
      | some x => (m.clash info x).endHandling
      | none => (m.handleReturn info answers trailer).endHandling

/-! ### A missing return (R41, R53, R55, R56, R61, R63) -/

/-- The return being collected is missing at its deadline. -/
def Cm.missing (m : Cm) : Cm :=
  match m.ch.collect with
  | none => m
  | some c =>
      let m := m.modify fun ch =>
        { ch with collect := none, counters := { ch.counters with missing := bump16 ch.counters.missing } }
      match m.ch.state with
      | .walking => m.endWalk
      | .extending => m.endWalk
      | .running =>
          match m.ch.deciding c.info with
          | some t =>
              match t.kind with
              | .bypass => m.bypassFails t c.info.path
              | .reinstate => m.reinstateFails t c.info.path
          | none => m.countBreak c.info
      | .broken =>
          match m.ch.attempt with
          | none => m.probeBack c.info
          | some _ =>
              match m.ch.deciding c.info with
              | some t =>
                  match t.kind with
                  | .bypass => m.bypassFails t c.info.path
                  | .reinstate => m.reinstateFails t c.info.path
              | none => m
      | .off => m
      | .faulted => m

/-- A deadline (R41, R64): a return still collected is missing; an attempt that lost its ROUTE, or whose deciding bundle has
no return, fails. The missing return is counted first, so that the failure leaves break count 0: the model's choice (log 61). -/
def Cm.deadline (m : Cm) : Cm := m.missing.failEvicted.failLapsed

/-! ### The items of a return (R200) -/

/-- A return being collected begins again behind a discarded trailer. -/
def Collection.restart (c : Collection) : Collection := { c with bytes := [], blocks := [] }

/-- A damaged item: RETURN_CHECK counted (R200, steps 1 and 2). -/
def Cm.returnCheck (c : Collection) (m : Cm) : Cm :=
  m.modify fun ch =>
    { ch with collect := some c, counters := { ch.counters with returnCheck := bump16 ch.counters.returnCheck } }

/-- A trailer (R200, steps 2 and 3). -/
def Cm.takeTrailer (c : Collection) (ty hop echo h l : Byte) (m : Cm) : Cm :=
  if crc16 (c.bytes ++ [ty, hop, echo]) ≠ get16 h l ∨ inRange 1 31 hop.toNat = none then m.returnCheck c.restart
  else if echo = c.info.frame.setWidth 8 then m.arrival c.info c.blocks hop.toNat
  else m.modify fun ch => { ch with collect := some c.restart }

/-- A status block joins the blocks gathered (R200). -/
def Cm.gather (c : Collection) (item : List Byte) (m : Cm) : Cm :=
  match readBlock item with
  | some b => m.modify fun ch => { ch with collect := some { c with bytes := c.bytes ++ item, blocks := c.blocks ++ [b] } }
  | none => m

/-- One item of the return stream (R41, R200). -/
def Cm.takeItem (item : List Byte) (m : Cm) : Cm :=
  match m.ch.collect with
  | none => m
  | some c =>
      if c.stopped then m
      else
        match item with
        | [] => m
        | ty :: rest =>
            if ty = 0x54 then
              match rest with
              | [hop, echo, h, l] => m.takeTrailer c ty hop echo h l
              | _ => m
            else if ty = 0x51 ∨ ty = 0x52 then m.gather c item
            else m.returnCheck { c.restart with stopped := true }

/-- RETURN_ITEM_RECEIVED (R200). -/
def execReturnItemReceived (c : ChainId) (item : List Byte) (s : State) : Out := done (s.manage c (Cm.takeItem item))

end Sys2Proof.Machine
end

