-- ==== Sys2Proof/Machine/ChainTick.lean ====
section
/-! DEFINITION. What a Chain Manager does at a tick: the deadline, a pending disable, probe bundles and the bundles it
has the Frame Assembler build (R26, R31, R36, R42, R50, R54, R60). -/

namespace Sys2Proof.Machine

/-- A disable carried out at its tick (R36, R65). A probe bundle in flight finishes: it stays until its token leaves. -/
def Cm.disable (frame : Word16) (m : Cm) : Cm :=
  let all := m.ch.enrolled.map fun p => p.1
  let m := m.modify fun ch => { ch with collect := none, walkDoneDue := 0, lastPath := [] }
  let m := all.foldl (fun m a => m.makeAbsent a) m
  let m := m.emptyQueue
  let m := m.modify fun ch =>
    { ch with endHop := none, probeHop := none, attempt := none, brokenFrom := none, stranger := none, breakCount := 0,
              portRoute := .normal, state := .off, pendingDisable := false }
  ((m.chainReport .disabled).emit .disabled).emit (.order { frame := frame, kind := .disable })

/-- The SET_END commands that move END to the probe hop (R50, R54). -/
def Cm.offerProbe (m : Cm) : Cm :=
  match m.ch.probeHop with
  | none => m
  | some p =>
      let m := m.offerRepair (.setEnd p true)
      if 1 < p then m.offerRepair (.setEnd (p - 1) false) else m

/-- The block of a place in a probe bundle: identity-poll for an enrolled node, empty for a FAILED node and at the probe
place (R42, R50). -/
def Chain.probeBlock (ch : Chain) (p : Place) : Block :=
  match p.address with
  | none => .empty
  | some a =>
      match ch.node a with
      | some n => if n.state = .failed then .empty else .poll
      | none => .empty

/-- A probe bundle prepared for `frame` (R50). -/
def Cm.prepareProbe (frame : Word16) (m : Cm) : Cm :=
  let r := m.computePath frame false
  let d := r.1.offerProbe.departures
  d.1.modify fun ch =>
    { ch with probes := ch.probes ++ [{ info := r.2, gen := ch.lookGen, cmds := d.2,
                                        blocks := r.2.path.map ch.probeBlock, ordered := false }] }

/-- The bundle to be prepared is the deciding bundle (R60). -/
def Chain.decidesNext (ch : Chain) : Bool :=
  match ch.attempt with
  | some t => decide (t.phase = .deciding) && !t.bundled && !t.evicted
  | none => false

/-- The SET_END commands of the deciding bundle, after END was renumbered (R60). A trial END hop of 0 is no hop: no node is
left inside END, and no SET_END on is offered (R25, log 16). -/
def Cm.offerTrial (m : Cm) : Cm :=
  match m.ch.attempt with
  | none => m
  | some t =>
      let renumbered := m.ch.endHop
      let m := m.modify fun ch => { ch with attempt := some { t with bundled := true } }
      let m := if t.trialEnd = 0 then m else m.offerRepair (.setEnd t.trialEnd true)
      match renumbered with
      | some k => if k ≠ t.trialEnd then m.offerRepair (.setEnd k false) else m
      | none => m

/-- `n` CHAIN reports WALK_DONE. -/
def Cm.walkReports (n : Nat) (m : Cm) : Cm :=
  match n with
  | 0 => m
  | n + 1 => (m.chainReport .walkDone).walkReports n

/-- The CHAIN report WALK_DONE, queued when the bundle that carries the set-back has left, one for each walk whose set-back
did (R53). Like every CHAIN report it shows the chain as it then is: EXTENDING when a CHAIN_REWALK was taken before the
set-back left (log 39). -/
def Cm.reportWalkDone (m : Cm) : Cm := (m.modify fun ch => { ch with walkDoneDue := 0 }).walkReports m.ch.walkDoneDue

/-- A bundle prepared for the Frame Assembler to build (R31, R42, R54, R60, R91). -/
def Cm.prepareBundle (frame : Word16) (m : Cm) : Cm :=
  let deciding := m.ch.decidesNext
  let r := m.computePath frame deciding
  let m := if deciding then r.1.offerTrial else r.1
  let m := if m.ch.state = .extending then m.offerProbe else m
  let d := m.departures
  d.1.reportWalkDone.emit (.order { frame := frame, kind := .assemble r.2 d.2 })

/-- What the chain sends at a tick (R26). -/
def Cm.send (frame : Word16) (m : Cm) : Cm :=
  match m.ch.state with
  | .off => m.emit (.order { frame := frame, kind := .none })
  | .faulted => m.emit (.order { frame := frame, kind := .none })
  | .walking => (m.prepareProbe frame).emit (.order { frame := frame, kind := .none })
  | .running => m.prepareBundle frame
  | .extending => m.prepareBundle frame
  | .broken => m.prepareBundle frame

/-- A Chain Manager takes the tick of `frame` (R26, R36, R41). -/
def Cm.tick (frame : Word16) (m : Cm) : Cm :=
  if m.ch.pendingDisable then (m.disable frame).flushLost else (m.deadline.send frame).flushLost

/-- The ticks waiting at a Chain Manager replaced. -/
def State.setChainTicks (c : ChainId) (l : List Word16) (s : State) : State :=
  { s with mail := { s.mail with ticks := { s.mail.ticks with chains := s.mail.ticks.chains.set c l } } }

/-- CHAIN_MANAGER_TICK (R26). -/
def execChainManagerTick (c : ChainId) (s : State) : Out :=
  match s.mail.ticks.chains.get c with
  | [] => notDue s
  | n :: rest => done ((s.setChainTicks c rest).manage c (Cm.tick n))

/-- RETURN_DEADLINE (R41): the handling of the missing return, ahead of the rest of the tick that is its deadline. -/
def execReturnDeadline (c : ChainId) (s : State) : Out :=
  let ch := s.chains.get c
  if ch.collect.isSome && !ch.pendingDisable && !(s.mail.ticks.chains.get c).isEmpty then
    done (s.manage c Cm.deadline)
  else notDue s

end Sys2Proof.Machine
end

