-- ==== Sys2Proof/Machine/Assembler.lean ====
section
/-! DEFINITION. Chapter 5: the Frame Assembler. Frame orders, posts, the window sweep, bundles block by block, reads of
segment memory, and the buffers it gives back. -/

namespace Sys2Proof.Machine

/-! ### The assembler's share of a chain -/

/-- The assembler's state for a chain changed. -/
def State.updAsm (c : ChainId) (f : AsmChain → AsmChain) (s : State) : State :=
  { s with asm := s.asm.set c (f (s.asm.get c)) }

/-- The bundle in emission changed. -/
def State.updBundle (c : ChainId) (f : Bundle → Bundle) (s : State) : State :=
  s.updAsm c fun m => { m with bundle := m.bundle.map f }

/-- One of the chain's assembler counters increased (R103). -/
def State.countAsm (k : AsmCtr) (c : ChainId) (s : State) : State := s.updAsm c fun m => m.count k

/-- A buffer released to the free tail (R75). -/
def State.toFree (b : Nat) (s : State) : State := { s with pool := s.pool.release b }

/-- A buffer released and counted. -/
def State.giveUp (k : AsmCtr) (c : ChainId) (s : State) (b : Nat) : State := (s.toFree b).countAsm k c

/-- A change to the tile fields of a node record (R23, R103). -/
def State.updTile (c : ChainId) (a : Nat) (f : TileSettings → TileSettings) (s : State) : State :=
  { s with chains := s.chains.set c ((s.chains.get c).updateTile a f) }

/-- A tile's late count increased (R103). -/
def State.countLate (c : ChainId) (a : Nat) (s : State) : State :=
  s.updTile c a fun t => { t with lateCount := bump16 t.lateCount }

/-! ### Frame slots in order -/

/-- By frame in serial order from `n`, and within a frame by address (R93, R104). -/
def FrameSlot.before (n : Word16) (x y : FrameSlot) : Bool :=
  decide (frameDistance x.frame n < frameDistance y.frame n) ||
    (decide (x.frame = y.frame) && decide (x.address < y.address))

/-- An entry put in its place. -/
def insertSlot (n : Word16) (x : FrameSlot) (l : List FrameSlot) : List FrameSlot :=
  match l with
  | [] => [x]
  | y :: rest => if x.before n y then x :: y :: rest else y :: insertSlot n x rest

/-- A chain's entries in the order in which they are released. -/
def AsmChain.slotsFrom (m : AsmChain) (n : Word16) : List FrameSlot := m.slots.foldl (fun l x => insertSlot n x l) []

/-- The held references of a chain with their addresses, in address order (R89). -/
def AsmChain.heldList (m : AsmChain) : List (Nat × Nat) := addresses.filterMap fun a => (m.heldAt a).map fun b => (a, b)

/-! ### Giving buffers back (R104, R105) -/

/-- Every entry and every held reference of a chain returned, each counted RETURNED (R104, R105). -/
def State.giveBack (c : ChainId) (n : Word16) (s : State) : State :=
  let m := s.asm.get c
  let s := (m.slotsFrom n).foldl (fun s x => s.giveUp .returned c x.buffer) s
  let s := m.heldList.foldl (fun s x => s.giveUp .returned c x.2) s
  s.updAsm c fun m => { m with slots := [], held := List.replicate 30 none }

/-- No chain has its share of a FLOW_CLEAR still to take. -/
def State.clearDone (s : State) : Bool := s.asm.toList.all fun m => !m.clearDue

/-- A chain's share of a FLOW_CLEAR (R104); after the last share the pause is evaluated (R86) and the reply sent. -/
def State.clearShare (c : ChainId) (n : Word16) (s : State) : State :=
  if (s.asm.get c).clearDue then
    let s := (s.giveBack c n).updAsm c fun m => { m with clearDue := false }
    if s.clearDone then
      let s := s.evaluatePause
      { s with link := s.link.undefer .flowClear, intake := { s.intake with clearWaiting := false } }
    else s
  else s

/-! ### The steps of a frame order (R91 to R94) -/

/-- The oldest post taken; on an empty queue the one taken last (R94). -/
def AsmChain.takePost (m : AsmChain) : AsmChain :=
  match m.posts with
  | p :: rest => { m with posts := rest, lastPost := p }
  | [] => m

/-- The held references of CUT records released, in address order (R91, step 4). -/
def State.dropCut (c : ChainId) (s : State) : State :=
  (s.asm.get c).heldList.foldl (fun s x =>
    match (s.chains.get c).node x.1 with
    | some n =>
        if n.state = .cut then (s.toFree x.2).updAsm c fun m => m.setHeld x.1 none else s
    | none => s) s

/-- What the sweep finds of an entry (R93). -/
inductive SweepCase
  | kept
  | withdrawn
  | late
  | early
  deriving DecidableEq, Repr

/-- The case of an entry's frame against the window of frame `n`; `assembles` when the order starts a bundle (R93). An entry
32768 to 32771 ahead of `n` is by the serial rule both not later than `n` and later than `n` + 4; it is taken as late, which is
the model's choice (log 35). -/
def sweepCase (assembles : Bool) (n f : Word16) : SweepCase :=
  if f = n then (if assembles then .kept else .withdrawn)
  else if inWindow f n then .kept
  else if later f n then .early
  else .late

/-- The chain's entries swept against the new window (R93). -/
def State.sweep (c : ChainId) (assembles : Bool) (n : Word16) (s : State) : State :=
  let m := s.asm.get c
  let s := (m.slotsFrom n).foldl (fun s x =>
    match sweepCase assembles n x.frame with
    | .kept => s
    | .withdrawn => s.giveUp .withdrawn c x.buffer
    | .early => s.giveUp .expiredEarly c x.buffer
    | .late => (s.giveUp .expiredLate c x.buffer).countLate c x.address) s
  s.updAsm c fun m => { m with slots := m.slots.filter fun x => decide (sweepCase assembles n x.frame = .kept) }

/-! ### The blocks of a bundle (R95 to R101) -/

/-- The look of an address in a post. -/
def Post.look (p : Post) (a : Nat) : Look := p.looks.getD (a - 1) .reset

/-- The job of a place, from the record and the look as they stand (R96). A place of an order that waited, whose record has
become CUT or ABSENT since, gives an empty block: the model's choice (log 51). -/
def Chain.job (ch : Chain) (post : Post) (p : Place) : Job :=
  match p.address with
  | none => .fixed .empty
  | some a =>
      match ch.node a with
      | none => .fixed .empty
      | some n =>
          match n.state with
          | .ident => .fixed .poll
          | .failed => .fixed .empty
          | .cut => .fixed .empty
          | .live | .suspect =>
              match n.kind with
              | .lamp => .fixed (.level (post.look a).intensity (post.look a).preset)
              | .tile t => .tile a (post.look a).source (post.look a).brightness t.gap t.fallback

/-- The buffer that the emitting set holds for a tile (R90). -/
def Bundle.segmentOf (b : Bundle) (a : Nat) : Option Nat := (b.emitting.find? fun x => decide (x.1 = a)).map fun x => x.2

/-- A tile's segment taken out of the emitting set. -/
def Bundle.dropSegment (a : Nat) (b : Bundle) : Bundle := { b with emitting := b.emitting.filter fun x => decide (x.1 ≠ a) }

/-- A block goes out. -/
def State.putOut (c : ChainId) (x : Block) (s : State) : State := s.updBundle c fun b => { b with out := b.out ++ [x] }

/-- A tile's settings at its turn. -/
structure TileTurn where
  address : Nat
  brightness : Nat
  gap : GapPolicy
  fallback : Option Nat
  deriving DecidableEq, Repr

/-- A read of a buffer of segment memory requested (R101). -/
def State.askRead (c : ChainId) (t : TileTurn) (buffer : Nat) (why : ReadWhy) (s : State) : State × Option BundleWait :=
  ({ s with pool := s.pool.requestRead c buffer },
   some (.memRead t.address t.brightness t.gap t.fallback buffer why))

/-- The held buffer if there is one, else BLACK (R97, R100). A block that waits for nothing is BLACK. -/
def State.askHeld (c : ChainId) (t : TileTurn) (why : ReadWhy) (s : State) : State × Option BundleWait :=
  match (s.asm.get c).heldAt t.address with
  | some b => s.askRead c t b why
  | none => (s, none)

/-- A gap counted and filled by the gap policy (R100). -/
def State.fillGap (c : ChainId) (t : TileTurn) (s : State) : State × Option BundleWait :=
  let s := (s.updTile c t.address fun x => { x with gapCount := bump16 x.gapCount }).countAsm .gaps c
  match t.gap with
  | .repeatHeld => s.askHeld c t .gapHeld
  | .black => (s, none)
  | .still =>
      match t.fallback with
      | some p => (s, some (.stillAsk t.address t.brightness p true))
      | none => s.askHeld c t .gapHeld

/-- A segment under STILL, FREEZE or BLACK is released at the tile's turn (R98). -/
def State.supersede (c : ChainId) (a : Nat) (s : State) : State :=
  match (s.asm.get c).bundle.bind fun b => b.segmentOf a with
  | some buffer => (s.giveUp .superseded c buffer).updBundle c (Bundle.dropSegment a)
  | none => s

/-- A tile's turn: what its block waits for, or BLACK at once (R97 to R100). -/
def State.tileTurn (c : ChainId) (t : TileTurn) (source : TileSource) (s : State) : State × Option BundleWait :=
  match source with
  | .liveFeed =>
      match (s.asm.get c).bundle.bind fun b => b.segmentOf t.address with
      | some buffer => s.askRead c t buffer .segment
      | none => s.fillGap c t
  | .still p => (s.supersede c t.address, some (.stillAsk t.address t.brightness p false))
  | .freeze => (s.supersede c t.address).askHeld c t .freeze
  | .black => (s.supersede c t.address, none)

/-- Blocks go out one behind another until one waits for a read, or the token stands next (R95). -/
def State.runJobs (c : ChainId) (jobs : List Job) (s : State) : State :=
  match jobs with
  | [] => s.updBundle c fun b => { b with jobs := [], wait := .token }
  | .fixed x :: rest => (s.putOut c x).runJobs c rest
  | .tile a source brightness gap fallback :: rest =>
      let r := s.tileTurn c { address := a, brightness := brightness, gap := gap, fallback := fallback } source
      match r.2 with
      | none => (r.1.putOut c (.tileBlack brightness)).runJobs c rest
      | some w => r.1.updBundle c fun b => { b with jobs := rest, wait := w }

/-- The block that waited is decided anew: it waits again, or goes out BLACK and the blocks behind it follow. -/
def State.fallBack (c : ChainId) (brightness : Nat) (r : State × Option BundleWait) : State :=
  match r.2 with
  | some w => r.1.updBundle c fun b => { b with wait := w }
  | none =>
      (r.1.putOut c (.tileBlack brightness)).runJobs c (((r.1.asm.get c).bundle.map fun b => b.jobs).getD [])

/-- The block that waited goes out with an image, and the blocks behind it follow. -/
def State.sendImage (c : ChainId) (brightness : Nat) (image : List Byte) (s : State) : State :=
  (s.putOut c (.tileImage brightness image)).runJobs c (((s.asm.get c).bundle.map fun b => b.jobs).getD [])

/-- An entry for frame n whose tile can take it: enrolled as a TILE, LIVE or SUSPECT, on the path (R92). -/
def Chain.takesSegment (ch : Chain) (path : List Place) (a : Nat) : Bool :=
  match ch.node a with
  | some n => n.tile?.isSome && n.state.shows && (hopOfAddress path a).isSome
  | none => false

/-- The bundle started (R92, R95): entries for frame n join the emitting set or are withdrawn, in address order. -/
def State.startBundle (c : ChainId) (info : BundleInfo) (cmds : List Cmd) (s : State) : State :=
  let m := s.asm.get c
  let ch := s.chains.get c
  let mine := (m.slotsFrom info.frame).filter fun x => decide (x.frame = info.frame)
  let s := (mine.filter fun x => !ch.takesSegment info.path x.address).foldl
    (fun s x => s.giveUp .withdrawn c x.buffer) s
  let s := s.updAsm c fun m =>
    { m with slots := m.slots.filter fun x => decide (x.frame ≠ info.frame),
             bundle := some
               { info := info, gen := m.lastPost.gen, cmds := cmds,
                 emitting := (mine.filter fun x => ch.takesSegment info.path x.address).map fun x => (x.address, x.buffer),
                 out := [], jobs := [], wait := .token, stopping := false } }
  s.runJobs c (info.path.map (ch.job (s.asm.get c).lastPost))

/-- The order of frame `n` has been taken: the chain's probe bundle of the same tick, if there is one, is marked. -/
def markOrdered (n : Word16) (probes : List ProbeBundle) : List ProbeBundle :=
  match probes with
  | [] => []
  | p :: rest => if p.info.frame = n ∧ p.ordered = false then { p with ordered := true } :: rest else p :: markOrdered n rest

/-- The probe bundle that the chain prepared at an order's tick is from now on one of an earlier tick (R91, log 20). -/
def State.orderTaken (c : ChainId) (n : Word16) (s : State) : State :=
  let ch := s.chains.get c
  { s with chains := s.chains.set c { ch with probes := markOrdered n ch.probes } }

/-- A frame order taken (R91). -/
def State.takeOrder (c : ChainId) (o : FrameOrder) (s : State) : State :=
  let s := (s.orderTaken c o.frame).clearShare c o.frame
  let s := if o.kind = .disable then s.giveBack c o.frame else s
  let s := s.updAsm c AsmChain.takePost
  let s := s.dropCut c
  match o.kind with
  | .assemble info cmds => (s.sweep c true o.frame).startBundle c info cmds
  | .disable => s.sweep c false o.frame
  | .none => s.sweep c false o.frame

/-- A chain's previous bundle has not left: one in emission, or a probe bundle of an earlier tick (R91, log 20). -/
def State.bundleLeaving (c : ChainId) (s : State) : Bool :=
  (s.asm.get c).bundle.isSome || (s.chains.get c).probes.any fun p => p.ordered

/-- Orders that waited are taken, one behind another, until one starts a bundle (R91). -/
def State.takeWaiting (c : ChainId) (orders : List FrameOrder) (s : State) : State :=
  match orders with
  | [] => s.updAsm c fun m => { m with waiting := [] }
  | o :: rest =>
      if s.bundleLeaving c then s.updAsm c fun m => { m with waiting := o :: rest }
      else (s.takeOrder c o).takeWaiting c rest

/-- The mail from a Chain Manager to the assembler replaced. -/
def State.setOrders (c : ChainId) (l : List AsmMsg) (s : State) : State :=
  { s with mail := { s.mail with orders := s.mail.orders.set c l } }

/-- FRAME_ORDER (R91): taken, or made to wait for the previous bundle, which counts OVERRUN. -/
def execFrameOrder (c : ChainId) (s : State) : Out :=
  match s.mail.orders.get c with
  | .order o :: rest =>
      let s := s.setOrders c rest
      if s.bundleLeaving c || !(s.asm.get c).waiting.isEmpty then
        done ((s.countAsm .overrun c).updAsm c fun m => { m with waiting := m.waiting ++ [o] })
      else done (s.takeOrder c o)
  | .faulted :: _ => notDue s
  | [] => notDue s

/-! ### Completion of a read (R99, R102) -/

/-- A read that failed its check: the buffer leaves its tile and goes to quarantine (R102). -/
def State.memCheck (c : ChainId) (a buffer : Nat) (frame : Word16) (s : State) : State :=
  let s := s.updAsm c fun m => if m.heldAt a = some buffer then m.setHeld a none else m
  let s := s.updBundle c fun b => { b with emitting := b.emitting.filter fun x => decide (x.2 ≠ buffer) }
  let s := { s with pool := s.pool.quarantineBuf buffer }
  (s.raise (.memCheck buffer frame) .assembler (some { chain := c, address := a })).countAsm .memCheck c

/-- A segment was sent: it becomes the held buffer, the previous one is released (R99). -/
def State.holdSegment (c : ChainId) (a buffer : Nat) (s : State) : State :=
  let old := (s.asm.get c).heldAt a
  let s := (s.updBundle c (Bundle.dropSegment a)).updAsm c fun m => m.setHeld a (some buffer)
  let s :=
    match old with
    | some b => s.toFree b
    | none => s
  s.countAsm .sent c

/-- What a completed read does to the block that waited for it (R99, R102). -/
def State.readDone (c : ChainId) (frame : Word16) (t : TileTurn) (buffer : Nat) (why : ReadWhy) (matched : Bool)
    (s : State) : State :=
  if matched then
    let image := s.pool.contents buffer
    match why with
    | .segment => (s.holdSegment c t.address buffer).sendImage c t.brightness image
    | .gapHeld => s.sendImage c t.brightness image
    | .freeze => s.sendImage c t.brightness image
  else
    let s := s.memCheck c t.address buffer frame
    match why with
    | .segment => State.fallBack c t.brightness (s.fillGap c t)
    | .gapHeld => State.fallBack c t.brightness (s, none)
    | .freeze => State.fallBack c t.brightness (s, none)

/-! ### A bundle stopped (R105) -/

/-- A waiting order of a FAULTED chain is taken as a NONE order (R105). -/
def FrameOrder.asNone (o : FrameOrder) : FrameOrder := { o with kind := .none }

/-- No read of the chain remains: the emitting set goes back in path-hop order, then entries and held buffers, and the
orders that waited are taken as NONE orders (R105). -/
def State.finishStop (c : ChainId) (s : State) : State :=
  let buffers :=
    match (s.asm.get c).bundle with
    | some b => b.info.path.filterMap fun (p : Place) => p.address.bind b.segmentOf
    | none => []
  let s := buffers.foldl (State.giveUp .returned c) s
  let s := (s.updAsm c fun m => { m with bundle := none }).giveBack c s.e
  s.takeWaiting c ((s.asm.get c).waiting.map FrameOrder.asNone)

/-- The chain's read in progress at the arbiter, if any. -/
def Pool.readingFor (c : ChainId) (p : Pool) : Bool :=
  match p.busy with
  | some (.read k _) => decide (k = c)
  | some (.store _) => false
  | some (.test _) => false
  | none => false

/-- A still read taken by the Stills Store and not yet being served is withdrawn, its slot no longer being read (R105). -/
def Stills.withdraw (r : StillRef) (st : Stills) : Stills :=
  let st := { st with reads := st.reads.erase r }
  match st.slot r with
  | .ready data _ => st.setSlot r (.ready data false)
  | .empty => st
  | .filling _ _ => st

/-- The bundle of a FAULTED chain stopped (R105). -/
def State.stopBundle (c : ChainId) (b : Bundle) (s : State) : State :=
  let stopping := s.updBundle c fun b => { b with stopping := true }
  match b.wait with
  | .memRead _ _ _ _ _ _ =>
      if s.pool.readingFor c then stopping
      else ({ s with pool := { s.pool with reads := s.pool.reads.filter fun r => decide (r.1 ≠ c) } }).finishStop c
  | .stillAsk _ _ _ _ => s.finishStop c
  | .stillRead a _ p =>
      let r : StillRef := { page := p, chain := c, address := a }
      if s.stills.reads.head? = some r then stopping
      else ({ s with stills := s.stills.withdraw r }).finishStop c
  | .token => s.finishStop c

/-- FAULTED_NOTICE (R105). -/
def execFaultedNotice (c : ChainId) (s : State) : Out :=
  match s.mail.orders.get c with
  | .faulted :: rest =>
      let s := s.setOrders c rest
      match (s.asm.get c).bundle with
      | some b => done (s.stopBundle c b)
      | none => done (s.finishStop c)
  | .order _ :: _ => notDue s
  | [] => notDue s

/-- What a completed emission read does to its bundle: a stopped one ends, another goes on. -/
def State.finishRead (c : ChainId) (buffer : Nat) (matched : Bool) (s : State) : State :=
  match (s.asm.get c).bundle with
  | some b =>
      if b.stopping then s.finishStop c
      else
        match b.wait with
        | .memRead a brightness gap fallback _ why =>
            s.readDone c b.info.frame { address := a, brightness := brightness, gap := gap, fallback := fallback } buffer
              why matched
        | .stillAsk _ _ _ _ => s
        | .stillRead _ _ _ => s
        | .token => s
  | none => s

/-- EMISSION_READ_COMPLETE (R99, R102). The freed memory is granted to the oldest request of the highest priority (R76);
`nextFirst` tells whether the bundle's next read is requested before that (log 7). -/
def execEmissionReadComplete (matched nextFirst : Bool) (s : State) : Out :=
  match s.pool.busy with
  | some (.read c buffer) =>
      let s := { s with pool := { s.pool with busy := none } }
      if nextFirst then done (s.finishRead c buffer matched).grantMemory
      else done (s.grantMemory.finishRead c buffer matched)
  | some (.store _) => notDue s
  | some (.test _) => notDue s
  | none => notDue s

/-! ### The return token (R41, R95) -/

/-- Collection of the return of a bundle begins when its token has left, if END is designated (R41). A deciding bundle that
leaves with no END has no return, and the attempt it was to decide lapses (log 16). -/
def Cm.beginCollect (info : BundleInfo) (m : Cm) : Cm :=
  if m.ch.endHop.isSome then
    m.modify fun ch => { ch with collect := some { info := info, stopped := false, bytes := [], blocks := [] } }
  else
    match m.ch.deciding info with
    | some t => m.modify fun ch => { ch with attempt := some { t with lapsed := true } }
    | none => m

/-- The Chain Manager at a return token: the deadline of a return still being collected, then the new collection
(R41). -/
def Cm.token (info : BundleInfo) (m : Cm) : Cm :=
  if m.ch.collect.isSome then (m.deadline.flushLost).beginCollect info else m.beginCollect info

/-- The orders waiting at the assembler are taken as far as they can be. -/
def State.resumeOrders (c : ChainId) (s : State) : State := s.takeWaiting c (s.asm.get c).waiting

/-- RETURN_TOKEN_SENT (R41, R95): of the bundle in emission, or of a probe bundle. -/
def execReturnTokenSent (c : ChainId) (s : State) : Out :=
  match (s.asm.get c).bundle with
  | some b =>
      if b.wait = .token ∧ b.stopping = false then
        let s := (s.updAsm c fun m => { m with bundle := none }).countAsm .bundles c
        done ((s.manage c (Cm.token b.info)).resumeOrders c)
      else notDue s
  | none =>
      match (s.chains.get c).probes with
      | p :: rest =>
          done ((s.manage c fun m => (m.modify fun ch => { ch with probes := rest }).token p.info).resumeOrders c)
      | [] => notDue s

end Sys2Proof.Machine
end

