-- ==== Sys2Proof/Machine/ChainRequests.lean ====
section
/-! DEFINITION. Chapters 2 and 3: the requests on chains and nodes. -/

namespace Sys2Proof.Machine

/-! ### CHAIN_SET (R34 to R36) -/

/-- The limits a CHAIN_SET gives; 0 leaves a limit as it is (R34). -/
def Chain.setLimits (x : ChainSetArgs) (ch : Chain) : Chain :=
  { ch with silentLimit := if x.silent = 0 then ch.silentLimit else x.silent,
            breakLimit := if x.brk = 0 then ch.breakLimit else x.brk }

/-- A chain prepared for walking (R34). -/
def Chain.prepareWalk (ch : Chain) : Chain :=
  { ch with endHop := none, probeHop := some 1, breakCount := 0, portRoute := .normal, attempt := none,
            state := .walking }

/-- CHAIN_SET with ENABLE accepted (R34). -/
def Cm.enable (x : ChainSetArgs) (m : Cm) : Cm :=
  let m := m.modify (Chain.setLimits x)
  if m.ch.state = .off then (m.modify Chain.prepareWalk).chainReport .enabled else m

/-- CHAIN_SET with ENABLE (R34). -/
def execChainSetEnable (s : State) : Out :=
  s.takeWith .chainSetEnable (chainSet? 0) fun q x s =>
    if (s.chains.get x.chain).pendingDisable then s.answer q .busy .empty
    else (s.manage x.chain (Cm.enable x)).answer q .ok .empty

/-- A pending disable recorded, its reply withheld (R36). -/
def State.beginDisable (q : Request) (c : ChainId) (s : State) : State :=
  { s with chains := s.chains.set c { s.chains.get c with pendingDisable := true },
           link := { s.link with deferred := s.link.deferred ++ [{ kind := q.kind, tag := q.tag, what := .disable c }] } }

/-- CHAIN_SET with DISABLE (R36). -/
def execChainSetDisable (s : State) : Out :=
  s.takeWith .chainSetDisable (chainSet? 1) fun q x s =>
    if (s.chains.get x.chain).pendingDisable then s.answer q .busy .empty
    else if (s.chains.get x.chain).state = .off then s.answer q .ok .empty
    else s.beginDisable q x.chain

/-! ### CHAIN_REWALK (R54) -/

/-- The reply to a CHAIN_REWALK (R54). -/
def Chain.rewalkCode (ch : Chain) : ReplyCode :=
  if ch.pendingDisable ∨ ch.state = .off ∨ ch.state = .faulted then .state
  else if ch.state = .running ∧ ch.attempt = none then .ok
  else .busy

/-- An extending walk begins (R54): the probe hop is END hop + 1. While a SET_END waits, as a set-back or a cut leaves one, the
END hop is the one to which END comes: the model's choice, which keeps the probe hop the index of the probe place (R42, log
52). -/
def Cm.rewalk (m : Cm) : Cm :=
  (m.modify fun ch => { ch with state := .extending, probeHop := some (ch.comingEnd.getD 0 + 1) }).chainReport .rewalk

/-- CHAIN_REWALK (R54). -/
def execChainRewalk (s : State) : Out :=
  s.takeWith .chainRewalk chain? fun q c s =>
    let code := (s.chains.get c).rewalkCode
    (if code = .ok then s.manage c Cm.rewalk else s).answer q code .empty

/-! ### NODE_GET and NODE_SET (R37, R38) -/

/-- NODE_GET (R37): the record, its table hop, and whether a held buffer is present. -/
def execNodeGet (s : State) : Out :=
  s.takeWith .nodeGet nodeRef? fun q r s =>
    let n := s.node r
    s.answer q .ok (.nodeGet r.address n (n.bind (s.chains.get r.chain).hop)
      ((n.bind Node.tile?).isSome && ((s.asm.get r.chain).heldAt r.address).isSome))

/-- A setting of a tile is asked (R38, check 3). -/
def NodeSetArgs.forTile (x : NodeSetArgs) : Bool := x.gap.isSome || x.fallback.isSome || x.clear

/-- The tile fields after a NODE_SET (R38). -/
def NodeSetArgs.applyTile (x : NodeSetArgs) (t : TileSettings) : TileSettings :=
  { gap := x.gap.getD t.gap, fallback := x.fallback.getD t.fallback, gapCount := if x.clear then 0 else t.gapCount,
    lateCount := if x.clear then 0 else t.lateCount }

/-- The record after a NODE_SET (R38). -/
def NodeSetArgs.apply (x : NodeSetArgs) (n : Node) : Node :=
  { n with clamp := x.clamp.getD n.clamp,
           kind := match n.kind with
             | .tile t => .tile (x.applyTile t)
             | .lamp => .lamp }

/-- NODE_SET accepted; a changed clamp is handed to the Scene Table (R38). -/
def Cm.nodeSet (x : NodeSetArgs) (old : Node) (m : Cm) : Cm :=
  let m := m.modify fun ch => ch.updateNode x.node.address x.apply
  if (x.apply old).clamp = old.clamp then m else m.emit (.clamp (.clamp x.node.address (x.apply old).clamp))

/-- NODE_SET (R38). -/
def execNodeSet (s : State) : Out :=
  s.takeWith .nodeSet nodeSet? fun q x s =>
    match s.node x.node with
    | none => s.answer q .notFound .empty
    | some n =>
        if n.tile?.isNone && x.forTile then s.answer q .badArg .empty
        else (s.manage x.node.chain (Cm.nodeSet x n)).answer q .ok .empty

/-! ### NODE_COMMAND (R39) -/

/-- The reply to a NODE_COMMAND for address `a`, whose fields are in range (R39, checks 2 to 5). -/
def Chain.commandCode (a : Nat) (ch : Chain) : ReplyCode :=
  if ch.pendingDisable ∨ ch.state = .off ∨ ch.state = .faulted then .state
  else
    match decide (a = 31), ch.node a with
    | true, _ => if ch.takesConfig then .ok else .full
    | false, none => .notFound
    | false, some n => if !n.state.reachable then .state else if ch.takesConfig then .ok else .full

/-- A NODE_COMMAND taken (R39): an accepted command joins the queue with issuer CONTROL. -/
def State.nodeCommand (q : Request) (c : ChainId) (a : Nat) (cmd : ConfigCmd) (s : State) : State :=
  let code := (s.chains.get c).commandCode a
  (if code = .ok then s.manage c (Cm.modify fun ch => ch.enqueue cmd .control) else s).answer q code .empty

/-- NODE_COMMAND with CONFIGURE (R39). -/
def execNodeCommandConfigure (s : State) : Out :=
  s.takeWith .nodeCommandConfigure configure? fun q x s =>
    s.nodeCommand q x.1 x.2.1 (.configure x.2.1 x.2.2.1 x.2.2.2)

/-- NODE_COMMAND with ENABLE (R39). -/
def execNodeCommandEnable (s : State) : Out :=
  s.takeWith .nodeCommandEnable enable? fun q x s => s.nodeCommand q x.1 x.2 (.enable x.2)

/-! ### NODE_REINSTATE (R62) -/

/-- The predecessor of a target: the record at the position before it, or the port at position 1 (R62). -/
def Chain.predecessor (ch : Chain) (q : Nat) : Option (Option Nat) :=
  if q ≤ 1 then some none
  else
    match ch.atPosition (q - 1) with
    | some (a, n) => if n.state.reachable then some (some a) else none
    | none => none

/-- A reinstate attempt begins (R62). The trial END hop is the END hop + 1, reckoned from the END hop that comes while a SET_END
or a ROUTE waits (log 52). -/
def Cm.reinstate (target : Nat) (pred : Option Nat) (m : Cm) : Cm :=
  (m.modify fun ch =>
    { ch with attempt := some { kind := .reinstate, target := target, pred := pred, phase := .routing,
                                trialEnd := ch.nextEnd.getD 0 + 1, bundled := false,
                                evicted := false, lapsed := false } }).offerAttemptRoute pred .normal

/-- NODE_REINSTATE put to its checks (R62). -/
def State.nodeReinstate (q : Request) (r : NodeRef) (s : State) : State :=
  let ch := s.chains.get r.chain
  match s.node r with
  | none => s.answer q .notFound .empty
  | some n =>
      if n.state ≠ .failed ∨ ch.pendingDisable then s.answer q .state .empty
      else
        match ch.predecessor n.position with
        | none => s.answer q .state .empty
        | some pred =>
            if ch.settled then (s.manage r.chain (Cm.reinstate r.address pred)).answer q .ok .empty
            else s.answer q .busy .empty

/-- NODE_REINSTATE (R62). -/
def execNodeReinstate (s : State) : Out := s.takeWith .nodeReinstate nodeRef? State.nodeReinstate

end Sys2Proof.Machine
end

