-- ==== Sys2Proof/Machine/ControlLink.lean ====
section
/-! DEFINITION. Chapter 10: the Control Link. The receiver, request places, the transmitter, FRAME reports, report
settings, the fault record, and the two resets. -/

namespace Sys2Proof.Machine

/-! ### The receiver (R175 to R177) -/

/-- The sync byte (R193). -/
def syncByte : Byte := 0xA7

/-- A counter of the link increased (R176). -/
def State.countLink (f : LinkCounters → LinkCounters) (s : State) : State :=
  { s with link := { s.link with counters := f s.link.counters } }

/-- The receiver's state replaced. -/
def State.setReceiver (x : Receiver) (s : State) : State := { s with link := { s.link with receiver := x } }

/-- The value of the length field, once both its bytes are taken (R193). -/
def frameLength? (bytes : List Byte) : Option Nat :=
  match bytes with
  | h :: l :: _ => some (get16 h l).toNat
  | _ => none

/-- A frame discarded: counted, LINK_CHECK raised, the receiver hunting (R175, R176). -/
def State.discardFrame (d : LinkCheck) (s : State) : State :=
  ((s.countLink fun c =>
    match d with
    | .length => { c with lengthDiscards := bump16 c.lengthDiscards }
    | .check => { c with checkDiscards := bump16 c.checkDiscards }
    | .stall => { c with stallDiscards := bump16 c.stallDiscards }).setReceiver .hunting).raise (.linkCheck d) .link none

/-- Request places held (R178): requests waiting, deferred, answered, and the one whose reply is leaving. -/
def Link.placesHeld (l : Link) : Nat :=
  l.waiting.length + l.deferred.length + (l.ready.filter fun r => !r.refusal).length +
    (match l.tx with
      | some (.reply r) => if r.refusal then 0 else 1
      | some (.report _) => 0
      | none => 0)

/-- The refusal place holds a reply that has not been sent (R178). -/
def Link.refusalHeld (l : Link) : Bool :=
  l.ready.any (fun r => r.refusal) ||
    (match l.tx with
      | some (.reply r) => r.refusal
      | some (.report _) => false
      | none => false)

/-- The reply that refuses a request FULL (R178). -/
def Request.refusal (q : Request) : Reply :=
  { kind := q.kind, tag := q.tag, code := .full, body := .empty, refusal := true }

/-- The number of request places (R178). -/
def placeCount : Nat := 4

/-- A request whose frame completed: it takes a place, or is refused FULL, or is dropped (R178); once RESET has been
taken it is discarded (R190). -/
def State.placeRequest (q : Request) (s : State) : State :=
  if s.link.resetting then s
  else if s.link.placesHeld < placeCount then
    { s with link := { s.link with waiting := s.link.waiting ++ [q] } }
  else if s.link.refusalHeld then s.countLink fun c => { c with dropped := bump16 c.dropped }
  else
    ({ s with link := { s.link with ready := s.link.ready ++ [q.refusal] } }).countLink fun c =>
      { c with refusedFull := bump16 c.refusedFull }

/-- A frame whose last byte has been taken, the sync byte left out (R176, R193). -/
def State.completeFrame (bytes : List Byte) (s : State) : State :=
  let n := bytes.length - 2
  match bytes.drop n, bytes with
  | [h, l], _ :: _ :: kind :: tag :: rest =>
      if crc16 (bytes.take n) = get16 h l then
        ((s.setReceiver .hunting).countLink fun c => { c with received := bump16 c.received }).placeRequest
          { kind := kind, tag := tag, body := rest.take (rest.length - 2) }
      else s.discardFrame .check
  | _, _ => s.discardFrame .check

/-- The bytes of a frame after its sync byte: the length field, the bytes it counts, the CRC-16 (R193). -/
def frameComplete (bytes : List Byte) : Bool :=
  match frameLength? bytes with
  | some n => decide (bytes.length = n + 4)
  | none => false

/-- A byte joins the frame being received (R175). -/
def State.joinFrame (bytes : List Byte) (ticks : Nat) (s : State) : State :=
  match frameLength? bytes with
  | none => s.setReceiver (.receiving bytes ticks)
  | some n =>
      if n < 2 ∨ 1102 < n then s.discardFrame .length
      else if frameComplete bytes then s.completeFrame bytes
      else s.setReceiver (.receiving bytes ticks)

/-- A byte taken once the rate is known (R175). -/
def State.takeByte (b : Byte) (s : State) : State :=
  match s.link.receiver with
  | .hunting =>
      if b = syncByte then s.setReceiver (.receiving [] 0)
      else s.countLink fun c => { c with hunted := bump16 c.hunted }
  | .receiving bytes ticks => s.joinFrame (bytes ++ [b]) ticks

/-- The first byte after a pin reset whose pattern is that of the sync byte sets the rate and is taken as the first sync
byte; earlier bytes are ignored (R177). -/
def State.learnRate (b : Byte) (rate : Nat) (s : State) : State :=
  if b = syncByte then ({ s with link := { s.link with rate := some rate } }).setReceiver (.receiving [] 0) else s

/-- INCOMING_BYTE (R175). -/
def execIncomingByte (b : Byte) (rate : Nat) (s : State) : Out :=
  match s.link.rate with
  | none => done (s.learnRate b rate)
  | some _ => done (s.takeByte b)

/-- CONTROL_FRAME (R176): the last byte of the frame being received. -/
def execControlFrame (last : Byte) (s : State) : Out :=
  match s.link.receiver with
  | .receiving bytes ticks =>
      if frameComplete (bytes ++ [last]) then done (s.joinFrame (bytes ++ [last]) ticks) else notDue s
  | .hunting => notDue s

/-- UNKNOWN_REQUEST (R179). -/
def execUnknownRequest (s : State) : Out := s.takeRequest .unknown fun q s => s.answer q .unknown .empty

/-! ### Ticks (R176, R184) -/

/-- The FRAME report made, and what joins the queue with it set back (R184). -/
def State.frameReport (s : State) : State :=
  let body : ReportBody :=
    .frame s.e s.ref.source s.pool.freeCount s.pool.quarantine.length s.pool.pause
      ⟨s.chains.c0.state, s.chains.c1.state, s.chains.c2.state, s.chains.c3.state⟩ s.intake.since s.link.lost
      s.link.faultCount
  let joins := s.link.admits body && decide (s.link.reports.length < reportQueueSize)
  let s := s.report body
  if joins then
    { s with link := { s.link with lost := 0 }, intake := { s.intake with since := .zero } }
  else s

/-- The FRAME tick count at a tick (R184). -/
def State.countFrameTick (s : State) : State :=
  if s.link.period = 0 then s
  else if s.link.period ≤ s.link.tickCount + 1 then
    ({ s with link := { s.link with tickCount := 0 } }).frameReport
  else { s with link := { s.link with tickCount := s.link.tickCount + 1 } }

/-- The stall watch at a tick (R176). -/
def State.watchFrame (s : State) : State :=
  match s.link.receiver with
  | .hunting => s
  | .receiving bytes ticks =>
      if 2 ≤ ticks + 1 then s.discardFrame .stall else s.setReceiver (.receiving bytes (ticks + 1))

/-- The ticks waiting at the Control Link replaced. -/
def State.setLinkTicks (l : List Word16) (s : State) : State :=
  { s with mail := { s.mail with ticks := { s.mail.ticks with link := l } } }

/-- CONTROL_LINK_TICK (R184). -/
def execControlLinkTick (s : State) : Out :=
  match s.mail.ticks.link with
  | _ :: rest => done ((s.setLinkTicks rest).countFrameTick.watchFrame)
  | [] => notDue s

/-- FRAME_REPORT_DUE (R184): the tick that brings the FRAME tick count to the period. -/
def execFrameReportDue (s : State) : Out :=
  match s.mail.ticks.link with
  | _ :: rest =>
      if s.link.period ≠ 0 ∧ s.link.period ≤ s.link.tickCount + 1 then
        done ((s.setLinkTicks rest).countFrameTick.watchFrame)
      else notDue s
  | [] => notDue s

/-- The next tick is the second of the stall watch (R176). -/
def Link.stallDue (l : Link) : Bool :=
  match l.receiver with
  | .hunting => false
  | .receiving _ ticks => decide (2 ≤ ticks + 1)

/-- LINK_STALL_EXPIRY (R176): the tick that ends the stall watch. -/
def execLinkStallExpiry (s : State) : Out :=
  match s.mail.ticks.link with
  | _ :: rest =>
      if s.link.stallDue then done ((s.setLinkTicks rest).watchFrame.countFrameTick) else notDue s
  | [] => notDue s

/-! ### Report settings and the fault record (R183, R188, R189) -/

/-- REPORT_SET (R183). -/
def execReportSet (s : State) : Out :=
  s.takeWith .reportSet reportSet? fun q x s =>
    ({ s with link := { s.link with mask := x.1, period := x.2, tickCount := 0 } }).answer q .ok .empty

/-- The fault count and the captured fault, as replies carry them (R188). -/
def Link.faultReply (l : Link) : ReplyBody := .faults l.faultCount l.captured

/-- FAULT_GET (R188). -/
def execFaultGet (s : State) : Out :=
  s.takeWith .faultGet noFields? fun q _ s => s.answer q .ok s.link.faultReply

/-- The record emptied (R189). -/
def State.clearFaults (s : State) : State := { s with link := { s.link with captured := none, faultCount := 0 } }

/-- FAULT_CLEAR (R189). -/
def execFaultClear (s : State) : Out :=
  s.takeWith .faultClear faultClear? fun q seen s =>
    match seen with
    | none => s.clearFaults.answer q .ok .empty
    | some n =>
        if n = s.link.faultCount then s.clearFaults.answer q .ok .empty
        else s.answer q .state s.link.faultReply

/-! ### Resets (R185, R190, R191) -/

/-- RESET (R190): the reply becomes ready, nothing further is taken, and the bytes already received are discarded (R191).
A frame that completes after this point is counted like any other and gets no place (log 43). -/
def execReset (s : State) : Out :=
  s.takeWith .reset noFields? fun q _ s =>
    (({ s with link := { s.link with resetting := true } }).setReceiver .hunting).answer q .ok .empty

/-- The part after a reset that ends at `moment`; the commands that wait are the world's and stay (log 5). -/
def State.restart (moment : Nat) (cause : ResetCause) (rate : Option Nat) (s : State) : State :=
  { State.resetAt (max s.ref.now moment) cause rate with pending := s.pending }

/-- PIN_RESET (R191). -/
def execPinReset (moment : Nat) (s : State) : Out := done (s.restart moment .pin none)

/-- The reply to a RESET that was accepted (R190). -/
def Reply.startsReset (r : Reply) : Bool := decide (r.kind = 0x1E ∧ r.code = .ok) && !r.refusal

/-- TRANSMIT_DONE (R182): the place of a sent reply is freed; the RESET reply's last byte lets the reset take effect
(R190). -/
def execTransmitDone (moment : Nat) (s : State) : Out :=
  match s.link.tx with
  | none => notDue s
  | some (.report _) => done { s with link := { s.link with tx := none } }
  | some (.reply r) =>
      if r.startsReset then done (s.restart moment .request s.link.rate)
      else done { s with link := { s.link with tx := none } }

end Sys2Proof.Machine
end

