-- ==== Sys2Proof/Machine/Intake.lean ====
section
/-! DEFINITION. Chapter 4: the Segment Intake. Staging entries, HOLD, the stall watch, the filing checks, stores and the
intake's side of FLOW_CLEAR. -/

namespace Sys2Proof.Machine

/-! ### Entries -/

/-- The entry that is RECEIVING, with its header and its ticks; at most one is (R67). -/
def Intake.receiving (i : Intake) : Option (EntryId × Option SegHeader × Nat) :=
  match i.e0 with
  | .receiving h t => some (.e0, h, t)
  | .free | .queued _ _ _ | .storing _ _ _ _ =>
      match i.e1 with
      | .receiving h t => some (.e1, h, t)
      | .free | .queued _ _ _ | .storing _ _ _ _ => none

/-- A staging entry changed. -/
def State.setStaging (e : EntryId) (x : Entry) (s : State) : State := { s with intake := s.intake.setEntry e x }

/-- A segment's outcome counted (R82). -/
def State.countSeg (k : IntakeCtr) (s : State) : State := { s with intake := s.intake.count k }

/-- A segment discarded: counted, its entry freed. -/
def State.discard (e : EntryId) (k : IntakeCtr) (s : State) : State := (s.setStaging e .free).countSeg k

/-- The node a header names. -/
def SegHeader.node (h : SegHeader) : NodeRef := { chain := h.chain, address := h.address }

/-! ### Arrival of a segment (R66 to R70) -/

/-- A segment still arriving when a start signal comes is truncated (R66). -/
def State.truncate (s : State) : State :=
  match s.intake.receiving with
  | some (e, _, _) => s.discard e .badLength
  | none => s

/-- A segment begins: it takes a free entry, or meets HOLD (R68). With both entries free it takes `e0`: the model's choice
(log 48). -/
def State.beginSegment (s : State) : State :=
  if s.intake.hold then (s.countSeg .overrun).raise .segOverrun .intake none
  else
    let e : EntryId := if s.intake.e0.occupied then .e1 else .e0
    (s.setStaging e (.receiving none 0)).countSeg .received

/-- SEGMENT_START (R66, R68). -/
def execSegmentStart (s : State) : Out := done s.truncate.beginSegment

/-- The header of the segment being received is complete (R69). Its length is looked at first, so that a header with both its
length and its target out of range counts BAD_LENGTH: the model's choice (log 50). -/
def State.takeHeader (e : EntryId) (ticks : Nat) (chain address : Byte) (frame length : Word16) (s : State) : State :=
  if length.toNat < 1 ∨ 4096 < length.toNat then s.discard e .badLength
  else
    match chainOf? chain.toNat, isAddress address.toNat with
    | some c, true =>
        s.setStaging e (.receiving (some { chain := c, address := address.toNat, frame := frame, length := length.toNat })
          ticks)
    | _, _ => s.discard e .badTarget

/-- SEGMENT_HEADER (R69). -/
def execSegmentHeader (chain address : Byte) (frame length : Word16) (s : State) : Out :=
  match s.intake.receiving with
  | some (e, none, t) => done (s.takeHeader e t chain address frame length)
  | some (_, some _, _) => notDue s
  | none => notDue s

/-- The stall watch of the segment being received reaches its second tick (R70). -/
def State.stall (e : EntryId) (h : Option SegHeader) (s : State) : State :=
  (s.discard e .stall).raise (.segStall (h.map fun x => x.frame)) .intake (h.map SegHeader.node)

/-- The intake takes a delivered tick (R70). -/
def State.intakeTick (s : State) : State :=
  match s.intake.receiving with
  | some (e, h, t) => if 2 ≤ t + 1 then s.stall e h else s.setStaging e (.receiving h (t + 1))
  | none => s

/-- The ticks waiting at the intake replaced. -/
def State.setIntakeTicks (l : List Word16) (s : State) : State :=
  { s with mail := { s.mail with ticks := { s.mail.ticks with intake := l } } }

/-- SEGMENT_INTAKE_TICK (R70). -/
def execSegmentIntakeTick (s : State) : Out :=
  match s.mail.ticks.intake with
  | _ :: rest => done (s.setIntakeTicks rest).intakeTick
  | [] => notDue s

/-- The next tick is the second of the stall watch (R70). -/
def Intake.stallDue (i : Intake) : Bool :=
  match i.receiving with
  | some (_, _, t) => decide (2 ≤ t + 1)
  | none => false

/-- SEGMENT_STALL_EXPIRY (R70): the tick that ends the stall watch. -/
def execSegmentStallExpiry (s : State) : Out :=
  match s.mail.ticks.intake with
  | _ :: rest => if s.intake.stallDue then done (s.setIntakeTicks rest).intakeTick else notDue s
  | [] => notDue s

/-! ### The end of a segment (R71 to R73) -/

/-- The six bytes of a header (R195). -/
def SegHeader.bytes (h : SegHeader) : List Byte :=
  put8 h.chain.val ++ put8 h.address ++ put16 h.frame ++ putNum16 h.length

/-- A tile that segments are filed for: an enrolled TILE in LIVE or SUSPECT (R24, R72). -/
def Chain.showsTile (ch : Chain) (a : Nat) : Bool :=
  match ch.node a with
  | some n => n.tile?.isSome && n.state.shows
  | none => false

/-- The first unreserved buffer on the free list (R72). -/
def Pool.firstFree (p : Pool) : Option Nat := (p.free.find? fun f => f.reservedBy.isNone).map fun f => f.buffer

/-- A buffer reserved in its place on the free list (R74). -/
def Pool.reserve (b : Nat) (e : EntryId) (p : Pool) : Pool :=
  { p with free := p.free.map fun f => if f.buffer = b then { f with reservedBy := some e } else f }

/-- A reserved buffer leaves its place and joins the tail (R74). -/
def Pool.lift (b : Nat) (p : Pool) : Pool :=
  ({ p with free := p.free.filter fun f => decide (f.buffer ≠ b) }).release b

/-- A segment for want of a buffer (R73). -/
def State.noBuffer (e : EntryId) (h : SegHeader) (s : State) : State :=
  let s := s.discard e .nobuf
  if s.pool.exhausted then s
  else ({ s with pool := { s.pool with exhausted := true } }).raise (.poolEmpty h.frame) .pool (some h.node)

/-- A segment that passed its checks: a buffer reserved, the pause evaluated, the store requested (R72, R76, R78). -/
def State.queueStore (e : EntryId) (h : SegHeader) (payload : List Byte) (buffer : Nat) (s : State) : State :=
  let s := { s with pool := s.pool.reserve buffer e }
  let s := (s.setStaging e (.queued h payload buffer)).checkPauseStart
  ({ s with pool := { s.pool with stores := s.pool.stores ++ [e] } }).grantMemory

/-- The filing checks (R72). -/
def State.file (e : EntryId) (h : SegHeader) (payload : List Byte) (s : State) : State :=
  if !(s.chains.get h.chain).state.carries then s.discard e .chainOff
  else if !(s.chains.get h.chain).showsTile h.address then s.discard e .notLive
  else if !later h.frame s.e then (s.discard e .late).countLate h.chain h.address
  else if !inWindow h.frame s.e then s.discard e .early
  else
    match s.pool.firstFree with
    | some b => s.queueStore e h payload b
    | none => s.noBuffer e h

/-- The last byte of a segment is taken (R71). -/
def State.endSegment (e : EntryId) (h : SegHeader) (payload : List Byte) (crc : Word32) (s : State) : State :=
  if crc32 (h.bytes ++ payload) = crc then s.file e h payload
  else (s.discard e .check).raise (.segCheck h.frame) .intake (some h.node)

/-- SEGMENT_END (R71). -/
def execSegmentEnd (payload : List Byte) (crc : Word32) (s : State) : Out :=
  match s.intake.receiving with
  | some (e, some h, _) => if payload.length = h.length then done (s.endSegment e h payload crc) else notDue s
  | some (_, none, _) => notDue s
  | none => notDue s

/-! ### Completion of a store (R77) -/

/-- What a store writes: the segment into its buffer, the length and the integrity code (R77). -/
def Pool.stored (b : Nat) (payload : List Byte) (p : Pool) : Pool :=
  { p with memory := Memory.writeBytes p.memory (Memory.bufferBase b) payload,
           info := p.info.set b (some { length := payload.length, code := Config.integrityCode payload }) }

/-- A stored segment discarded: its reservation lifted, the segment counted (R77). -/
def State.dropStored (k : IntakeCtr) (b : Nat) (s : State) : State :=
  ({ s with pool := s.pool.lift b }).countSeg k

/-- A stored segment filed in its frame slot; a duplicate replaces the buffer filed before (R77, R88). -/
def State.fileBuffer (h : SegHeader) (b : Nat) (s : State) : State :=
  let m := s.asm.get h.chain
  let s := { s with pool := { s.pool with free := s.pool.free.filter fun f => decide (f.buffer ≠ b) } }
  let s :=
    match m.slots.find? fun x => decide (x.address = h.address ∧ x.frame = h.frame) with
    | some old => (s.toFree old.buffer).countSeg .dup
    | none => s
  (s.updAsm h.chain fun m =>
    { m with slots := (m.slots.filter fun x => decide (¬(x.address = h.address ∧ x.frame = h.frame))) ++
                        [{ frame := h.frame, address := h.address, buffer := b }] }).countSeg .filed

/-- The recheck of a stored segment (R77). -/
def State.recheck (h : SegHeader) (b : Nat) (s : State) : State :=
  if !(s.chains.get h.chain).state.carries then s.dropStored .chainOff b
  else if !later h.frame s.e then (s.dropStored .late b).countLate h.chain h.address
  else if !inWindow h.frame s.e then s.dropStored .early b
  else s.fileBuffer h b

/-- A store completes (R77, R85). -/
def State.storeDone (e : EntryId) (h : SegHeader) (payload : List Byte) (b : Nat) (flushed : Bool) (s : State) : State :=
  let s := ({ s with pool := { s.pool with busy := none }.stored b payload }).setStaging e .free
  let s := if flushed then { s with pool := s.pool.lift b } else s.recheck h b
  s.grantMemory

/-- STORE_COMPLETE (R77). -/
def execStoreComplete (s : State) : Out :=
  match s.pool.busy with
  | some (.store e) =>
      match s.intake.entry e with
      | .storing h payload b flushed => done (s.storeDone e h payload b flushed)
      | .free => notDue s
      | .receiving _ _ => notDue s
      | .queued _ _ _ => notDue s
  | some (.read _ _) => notDue s
  | some (.test _) => notDue s
  | none => notDue s

/-! ### FLOW_CLEAR (R85) -/

/-- One staged segment discarded by a FLOW_CLEAR, by its phase (R85). -/
def State.flushEntry (e : EntryId) (s : State) : State :=
  match s.intake.entry e with
  | .free => s
  | .receiving _ _ => s.discard e .flushed
  | .queued _ _ b =>
      ({ s with pool := { s.pool with stores := s.pool.stores.filter fun x => decide (x ≠ e) }.lift b }).discard e .flushed
  | .storing h p b false => (s.setStaging e (.storing h p b true)).countSeg .flushed
  | .storing _ _ _ true => s

/-- A chain's share of a FLOW_CLEAR is due (R104). -/
def AsmChain.mark (m : AsmChain) : AsmChain := { m with clearDue := true }

/-- A FLOW_CLEAR accepted: staged segments flushed, every chain marked, the reply withheld (R85, R104). Entry `e0` is flushed
first, so that of two QUEUED entries its buffer joins the free tail first: the model's choice (log 49). -/
def State.beginClear (q : Request) (s : State) : State :=
  let s := (s.flushEntry .e0).flushEntry .e1
  { s with intake := { s.intake with clearWaiting := true },
           asm := ⟨s.asm.c0.mark, s.asm.c1.mark, s.asm.c2.mark, s.asm.c3.mark⟩,
           link := { s.link with deferred := s.link.deferred ++ [{ kind := q.kind, tag := q.tag, what := .flowClear }] } }

/-- FLOW_CLEAR (R85). -/
def execFlowClear (s : State) : Out :=
  s.takeWith .flowClear noFields? fun q _ s =>
    if s.intake.clearWaiting then s.answer q .busy .empty else s.beginClear q

end Sys2Proof.Machine
end

