-- ==== Sys2Proof/Machine/PoolUnit.lean ====
section
/-! DEFINITION. Chapter 4: the Buffer Pool. Its tick, SEG_SET, the scrub of the quarantine, and the flow messages that
leave. -/

namespace Sys2Proof.Machine

/-- BUFFER_POOL_TICK (R79): the pause evaluated. -/
def execBufferPoolTick (s : State) : Out :=
  match s.mail.ticks.pool with
  | _ :: rest =>
      done ({ s with mail := { s.mail with ticks := { s.mail.ticks with pool := rest } } }).evaluatePause
  | [] => notDue s

/-- SEG_SET accepted (R80). -/
def State.segSet (threshold pauseLen : Nat) (s : State) : State :=
  ({ s with pool := { s.pool with threshold := if threshold = 0 then s.pool.threshold else threshold,
                                  pauseLen := if pauseLen = 0 then s.pool.pauseLen else pauseLen } }).checkPauseStart

/-- SEG_SET (R80). -/
def execSegSet (s : State) : Out :=
  s.takeWith .segSet segSet? fun q x s => (s.segSet x.1 x.2).answer q .ok .empty

/-! ### Scrub (R83, R84) -/

/-- The POOL report of a scrub that ends (R84). -/
def State.poolReport (sc : Scrub) (s : State) : State :=
  s.report (.pool sc.tested sc.returned sc.kept s.pool.quarantine.length s.pool.freeCount s.e)

/-- The scrub requests its next test, or completes with its report (R83, R84). -/
def State.nextTest (sc : Scrub) (s : State) : State :=
  match sc.todo with
  | [] => ({ s with pool := { s.pool with scrub := none } }).poolReport sc
  | _ :: _ => { s with pool := { s.pool with scrub := some sc, testWaiting := true } }

/-- The quarantined buffers that are not retired, in quarantine order (R83). -/
def Pool.scrubList (p : Pool) : List Nat := (p.quarantine.filter fun q => decide (q.2 < 255)).map fun q => q.1

/-- POOL_SCRUB (R83). -/
def execPoolScrub (s : State) : Out :=
  s.takeWith .poolScrub noFields? fun q _ s =>
    if s.pool.scrub.isSome then s.answer q .busy .empty
    else
      ((s.nextTest { todo := s.pool.scrubList, tested := 0, returned := 0, kept := 0 }).grantMemory).answer q .ok .empty

/-- What the test's pattern leaves in a buffer (R84, log 8). -/
def testBytes : List Byte := (List.range Memory.bufferSize).map Config.testPattern

/-- A tested buffer that passed: it leaves the quarantine for the free tail (R84). -/
def Pool.restore (b : Nat) (p : Pool) : Pool :=
  ({ p with quarantine := p.quarantine.filter fun q => decide (q.1 ≠ b) }).release b

/-- A tested buffer that failed keeps its place, its fail count up by 1 (R84). -/
def Pool.failAgain (b : Nat) (p : Pool) : Pool :=
  { p with quarantine := p.quarantine.map fun q => if q.1 = b then (q.1, bump8 q.2) else q }

/-- The scrub after a test. -/
def Scrub.after (matched : Bool) (sc : Scrub) : Scrub :=
  { todo := sc.todo.tail, tested := sc.tested + 1, returned := if matched then sc.returned + 1 else sc.returned,
    kept := if matched then sc.kept else sc.kept + 1 }

/-- A scrub test completes (R84). -/
def State.testDone (b : Nat) (matched : Bool) (s : State) : State :=
  let p := { s.pool with busy := none, memory := Memory.writeBytes s.pool.memory (Memory.bufferBase b) testBytes }
  let s := { s with pool := if matched then p.restore b else p.failAgain b }
  match s.pool.scrub with
  | some sc => (s.nextTest (sc.after matched)).grantMemory
  | none => s.grantMemory

/-- SCRUB_TEST_COMPLETE (R84). -/
def execScrubTestComplete (matched : Bool) (s : State) : Out :=
  match s.pool.busy with
  | some (.test b) => done (s.testDone b matched)
  | some (.read _ _) => notDue s
  | some (.store _) => notDue s
  | none => notDue s

/-- FLOW_MESSAGE_END (R196): the flow message that was leaving has left, and the next one follows. -/
def execFlowMessageEnd (s : State) : Out :=
  match s.pool.flowOut with
  | _ :: rest => done { s with pool := { s.pool with flowOut := rest } }
  | [] => notDue s

end Sys2Proof.Machine
end

