-- ==== Sys2Proof/Machine/Reference.lean ====
section
/-! DEFINITION. Chapter 1: the Reference Unit. Inputs, tick source, ticks, the frame counter, REF_SET and FRAME_SET. -/

namespace Sys2Proof.Machine

/-! ### Inputs (R1 to R3) -/

/-- The record of an input. -/
def RefUnit.input (r : RefUnit) (x : RefInput) : InputRec :=
  match x with
  | .a => r.a
  | .b => r.b

/-- The record of an input replaced. -/
def RefUnit.setInput (r : RefUnit) (x : RefInput) (i : InputRec) : RefUnit :=
  match x with
  | .a => { r with a := i }
  | .b => { r with b := i }

/-- The other input. -/
def otherInput : RefInput → RefInput
  | .a => .b
  | .b => .a

/-- The nominal period in force. -/
def RefUnit.period (r : RefUnit) : Nat := r.rate.period

/-- An interval within tolerance: 0.995 to 1.005 of the nominal period, inclusive (R1). -/
def withinTolerance (period interval : Nat) : Bool :=
  decide (995 * period ≤ 1000 * interval) && decide (1000 * interval ≤ 1005 * period)

/-- The input record after an edge at `moment` (R2). An UNSTABLE input whose run count is 0 takes it as an ABSENT one
does (R15). -/
def InputRec.edge (period moment : Nat) (i : InputRec) : InputRec :=
  let fresh : InputRec := { state := .unstable, run := 1, lastEdge := some moment }
  match i.state, i.lastEdge with
  | .absent, _ => fresh
  | _, none => fresh
  | .unstable, some t =>
      if i.run = 0 then fresh
      else if withinTolerance period (moment - t) then
        { state := if 8 ≤ i.run + 1 then .good else .unstable, run := i.run + 1, lastEdge := some moment }
      else fresh
  | .good, some t =>
      if withinTolerance period (moment - t) then { i with lastEdge := some moment } else fresh

/-- The inputs a mode allows, in order of preference (R4). -/
def RefMode.list : RefMode → List RefInput
  | .autoA => [.a, .b]
  | .autoB => [.b, .a]
  | .forceA => [.a]
  | .forceB => [.b]
  | .free => []

/-- The first GOOD input of the mode's list (R4). -/
def RefUnit.firstGood (r : RefUnit) : Option RefInput :=
  r.mode.list.find? fun x => decide ((r.input x).state = .good)

/-! ### Reports of the unit (R16) -/

/-- The cause of an input state change. -/
def inputCause : RefInput → RefCause
  | .a => .inputA
  | .b => .inputB

/-- A REF report with the unit's values as they stand. -/
def State.refReport (cause : RefCause) (s : State) : State :=
  s.report (.ref cause s.ref.mode s.ref.rate s.ref.a.state s.ref.b.state s.ref.source s.ref.counter)

/-- The unit's record replaced. -/
def State.setRef (r : RefUnit) (s : State) : State := { s with ref := r }

/-! ### Ticks (R9 to R12) -/

/-- A candidate at `moment` comes less than half a nominal period after the last delivered tick (R11). -/
def RefUnit.suppresses (r : RefUnit) (moment : Nat) : Bool :=
  match r.lastTick with
  | some t => decide (2 * (moment - t) < r.period)
  | none => false

/-- The number the next delivered tick carries (R12, R13). -/
def RefUnit.nextFrame (r : RefUnit) : Word16 := r.pendingFrame.getD (r.counter + 1)

/-- A tick handed to every block that counts frames (R12). -/
def Ticks.deliver (n : Word16) (t : Ticks) : Ticks :=
  { chains := ⟨t.chains.c0 ++ [n], t.chains.c1 ++ [n], t.chains.c2 ++ [n], t.chains.c3 ++ [n]⟩,
    intake := t.intake ++ [n], pool := t.pool ++ [n], scene := t.scene ++ [n], tally := t.tally ++ [n],
    runners := ⟨t.runners.r0 ++ [n], t.runners.r1 ++ [n], t.runners.r2 ++ [n]⟩, link := t.link ++ [n] }

/-- A candidate tick: suppressed, or delivered (R11, R12). -/
def State.candidate (moment : Nat) (s : State) : State :=
  if s.ref.suppresses moment then s
  else
    { s with
      ref := { s.ref with counter := s.ref.nextFrame, pendingFrame := none, lastTick := some moment },
      mail := { s.mail with ticks := s.mail.ticks.deliver s.ref.nextFrame } }

/-- The holdover timer's first expiry when the source enters HOLDOVER or FREE_RUN at `moment`: one nominal period after
the last delivered tick, or after the reset's end when no tick has been delivered; at once when that has passed (R10). -/
def RefUnit.startTimer (moment : Nat) (r : RefUnit) : RefUnit :=
  { r with timer := some (max moment (r.lastTick.getD r.resetEnd + r.period)) }

/-! ### Choosing the source (R5 to R8) -/

/-- The unit enters HOLDOVER: the timer starts, the change is reported, REF_HOLDOVER is raised (R7, R14, R16, R17). -/
def State.enterHoldover (moment : Nat) (s : State) : State :=
  (({ s with ref := { s.ref with source := .holdover }.startTimer moment }).refReport .source).raise
    (.refHoldover s.ref.source) .reference none

/-- The unit locks to `x` at one of its edges: the timer stops, no switch is pending, the change is reported, and the
edge is the first candidate tick of the new source (R6, R8). -/
def State.lockAt (x : RefInput) (moment : Nat) (s : State) : State :=
  (({ s with ref := { s.ref with source := .locked x, timer := none, switch := none } }).refReport .source).candidate
    moment

/-- The locked input `x` is lost (R7, R8): REF_LOST; then the other input at once if it is allowed and GOOD, else
HOLDOVER. -/
def State.lockLost (x : RefInput) (manner : LossManner) (moment : Nat) (s : State) : State :=
  let s := s.raise (.refLost x manner) .reference none
  let s := { s with ref := { s.ref with switch := none } }
  if s.ref.mode.list.contains (otherInput x) && decide ((s.ref.input (otherInput x)).state = .good) then
    { s with ref := { s.ref with source := .locked (otherInput x) } }.refReport .source
  else s.enterHoldover moment

/-- An input that leaves GOOD clears a switch pending to it (R8), and is a loss when the unit is locked to it (R7). -/
def State.leftGood (x : RefInput) (manner : LossManner) (moment : Nat) (s : State) : State :=
  let s := if s.ref.switch = some x then { s with ref := { s.ref with switch := none } } else s
  if s.ref.source = .locked x then s.lockLost x manner moment else s

/-- What an edge of `x`, now GOOD, does to the tick source: `was` is the state that it found. An input that becomes GOOD
may lock the unit (R6); one that stays GOOD completes a switch pending to it (R8) or, when it is the source, is a
candidate tick (R9). -/
def State.goodEdge (x : RefInput) (was : InputState) (moment : Nat) (s : State) : State :=
  if was = .good then
    if s.ref.switch = some x then s.lockAt x moment
    else if s.ref.source = .locked x then s.candidate moment
    else s
  else
    match s.ref.source with
    | .locked _ => s
    | .holdover => if s.ref.firstGood = some x then s.lockAt x moment else s
    | .freeRun => if s.ref.firstGood = some x then s.lockAt x moment else s

/-- The latest of the moments seen (log 4). -/
def RefUnit.at_ (r : RefUnit) (moment : Nat) : Nat := max r.now moment

/-- The unit after an edge's own effect on its input, before the tick source is looked at (R2). -/
def State.takeEdge (x : RefInput) (moment : Nat) (s : State) : State :=
  { s with ref := { s.ref.setInput x ((s.ref.input x).edge s.ref.period moment) with now := moment } }

/-- An input state change reported (R16). Where the same event goes on to move the tick source, the report shows the source
from before the move: the model's choice (log 46). The edge that finds an input UNSTABLE with run count 0 is taken as though it
found it ABSENT (R15) and leaves it UNSTABLE, as it was: no state change and no report, the model's choice (log 58). -/
def State.reportInput (x : RefInput) (was : InputState) (s : State) : State :=
  if was = (s.ref.input x).state then s else s.refReport (inputCause x)

/-- The tick source after an edge of `x`, whose input was in state `was` when the edge came (R6 to R9). -/
def State.settleEdge (x : RefInput) (was : InputState) (moment : Nat) (s : State) : State :=
  if (s.ref.input x).state = .good then s.goodEdge x was moment
  else if was = .good then s.leftGood x .unstable moment
  else s

/-- One edge (R2, R6 to R11). -/
def State.refEdge (x : RefInput) (moment : Nat) (s : State) : State :=
  let was := (s.ref.input x).state
  ((s.takeEdge x moment).reportInput x was).settleEdge x was moment

/-- An edge of each input, taken together: the tick source is chosen when both records have taken their edges (R6). -/
def State.refEdges (x : RefInput) (moment : Nat) (s : State) : State :=
  let y := otherInput x
  let wasX := (s.ref.input x).state
  let wasY := (s.ref.input y).state
  let s := (((s.takeEdge x moment).takeEdge y moment).reportInput x wasX).reportInput y wasY
  (s.settleEdge x wasX moment).settleEdge y wasY moment

/-- REF_EDGE (R2). -/
def execRefEdge (x : RefInput) (moment : Nat) (both : Bool) (s : State) : Out :=
  done (if both then s.refEdges x (s.ref.at_ moment) else s.refEdge x (s.ref.at_ moment))

/-- ABSENCE_WATCH_EXPIRY (R3): 1.5 nominal periods after the last edge of an UNSTABLE or GOOD input. -/
def execAbsenceWatchExpiry (x : RefInput) (s : State) : Out :=
  match (s.ref.input x).state, (s.ref.input x).lastEdge with
  | .absent, _ => notDue s
  | _, none => notDue s
  | was, some t =>
      let moment := s.ref.at_ (t + 3 * s.ref.period / 2)
      let s := ({ s with ref := { s.ref.setInput x .reset with now := moment } }).refReport (inputCause x)
      if was = .good then done (s.leftGood x .absent moment) else done s

/-- HOLDOVER_TIMER_EXPIRY (R9, R10): a candidate tick; the next expiry is one nominal period later. -/
def execHoldoverTimerExpiry (s : State) : Out :=
  match s.ref.timer with
  | some t =>
      let moment := s.ref.at_ t
      done (({ s with ref := { s.ref with timer := some (t + s.ref.period), now := moment } }).candidate moment)
  | none => notDue s

/-! ### Requests (R13 to R15) -/

/-- FRAME_SET (R13). -/
def execFrameSet (s : State) : Out :=
  s.takeWith .frameSet frameSet? fun q v s =>
    ({ s with ref := { s.ref with pendingFrame := some v } }).answer q .ok .empty

/-- Every chain is OFF (R14). -/
def State.allChainsOff (s : State) : Bool := s.chains.toList.all fun ch => decide (ch.state = .off)

/-- An input after a change of rate (R15). -/
def InputRec.requalify (i : InputRec) : InputRec :=
  match i.state with
  | .absent => i
  | .unstable => { i with run := 0 }
  | .good => { i with state := .unstable, run := 0 }

/-- The inputs after a change of rate, reported where a GOOD input lost its state (R15, R16). -/
def State.requalifyInput (x : RefInput) (s : State) : State :=
  let was := (s.ref.input x).state
  let s := { s with ref := s.ref.setInput x (s.ref.input x).requalify }
  if was = .good then s.refReport (inputCause x) else s

/-- A changed frame rate applied (R15). When both inputs leave GOOD, input A's record and report come first, then B's: the
model's choice (log 45). -/
def State.applyRate (rate : FrameRate) (s : State) : State :=
  ((({ s with ref := { s.ref with rate := rate } }).requalifyInput .a).requalifyInput .b)

/-- The timer's next expiry set anew by the new rate while it runs (R15, log 32). -/
def State.retime (moment : Nat) (s : State) : State :=
  match s.ref.timer with
  | some _ => { s with ref := s.ref.startTimer moment }
  | none => s

/-- The tick source reconsidered (R14, steps 1 to 3). -/
def State.reconsider (moment : Nat) (s : State) : State :=
  let s := { s with ref := { s.ref with switch := none } }
  if s.ref.mode = .free then
    if s.ref.source = .freeRun then s
    else ({ s with ref := { s.ref with source := .freeRun }.startTimer moment }).refReport .source
  else
    match s.ref.firstGood with
    | some x =>
        if s.ref.source = .locked x then s else { s with ref := { s.ref with switch := some x } }
    | none =>
        match s.ref.source with
        | .locked _ => s.enterHoldover moment
        | .holdover => s
        | .freeRun => s

/-- REF_SET accepted (R14, R15). -/
def State.refSet (mode : RefMode) (rate : FrameRate) (moment : Nat) (s : State) : State :=
  let changed := decide (rate ≠ s.ref.rate)
  let s := { s with ref := { s.ref with mode := mode, now := moment } }
  let s := if changed then (s.applyRate rate).retime moment else s
  s.reconsider moment

/-- REF_SET (R14). -/
def execRefSet (moment : Nat) (s : State) : Out :=
  s.takeWith .refSet refSet? fun q x s =>
    if x.2 ≠ s.ref.rate ∧ s.allChainsOff = false then s.answer q .busy .empty
    else (s.refSet x.1 x.2 (s.ref.at_ moment)).answer q .ok .empty

end Sys2Proof.Machine
end

