-- ==== Sys2Proof/Machine/Runners.lean ====
section
/-! DEFINITION. Chapter 9: the Cue Store and the Runners. Cue slots, steps taken, waits, notices and the requests on
runners. -/

namespace Sys2Proof.Machine

/-! ### Records -/

/-- A runner's record. -/
def State.runner (s : State) (r : RunnerId) : Runner := s.cues.runners.get r

/-- A runner's record changed. -/
def State.updRunner (r : RunnerId) (f : Runner → Runner) (s : State) : State :=
  { s with cues := { s.cues with runners := s.cues.runners.set r (f (s.cues.runners.get r)) } }

/-- A runner's state changed. -/
def State.setRun (r : RunnerId) (x : RunState) (s : State) : State := s.updRunner r fun u => { u with state := x }

/-- The steps of a slot; none when it is EMPTY. -/
def State.steps (s : State) (slot : Nat) : Option (List SlotStep) := s.cues.slots.getD slot none

/-- The steps of the slot a runner is on. -/
def State.list (s : State) (r : RunnerId) : List SlotStep := ((s.runner r).slot.bind s.steps).getD []

/-- The step of a runner's slot at an index. -/
def State.stepAt (s : State) (r : RunnerId) (k : Nat) : Option CueStep := ((s.list r)[k]?).map fun x => x.step

/-- The index of the step a runner stands at. -/
def State.stepIndex (s : State) (r : RunnerId) : Nat := (s.runner r).step.getD 0

/-- A slot's steps changed. -/
def State.updSteps (slot : Nat) (f : List SlotStep → List SlotStep) (s : State) : State :=
  let steps := (s.steps slot).map f
  { s with cues := { s.cues with slots := s.cues.slots.set slot steps } }

/-- The done mark of one step of a list set. -/
def markStep (k : Nat) (m : Mark) (l : List SlotStep) : List SlotStep := l.modify k fun x => { x with mark := some m }

/-- A step's done mark set (R146). -/
def State.mark (r : RunnerId) (k : Nat) (o : MarkOutcome) (s : State) : State :=
  match (s.runner r).slot with
  | none => s
  | some slot => s.updSteps slot (markStep k { runner := r, frame := s.e, outcome := o })

/-- The done marks of a slot cleared together (R146). -/
def State.clearMarks (slot : Nat) (s : State) : State :=
  s.updSteps slot fun l => l.map fun x => { x with mark := none }

/-- A CUE report (R173). -/
def State.cueReport (cause : CueCause) (r : RunnerId) (s : State) : State :=
  s.report (.cue cause r (s.runner r).slot (s.runner r).step s.e)

/-! ### Selections (R160, R163) -/

/-- A kind passes the filter of a selection of nodes (R160). -/
def KindFilter.takes (f : KindFilter) (k : KindName) : Bool :=
  match f with
  | .any => true
  | .tile => decide (k = .tile)
  | .lamp => decide (k = .lamp)

/-- A reference whose record is enrolled and whose kind passes a filter (R160). -/
def State.enrolledAs (s : State) (f : KindFilter) (x : NodeRef) : Bool :=
  match s.node x with
  | some n => f.takes n.kindName
  | none => false

/-- References put in chain order, each chain's in the order of the list (R160). -/
def byChain (l : List NodeRef) : List NodeRef := allChains.flatMap fun c => l.filter fun x => decide (x.chain = c)

/-- The references a selector names before any record is looked at. -/
def State.named (s : State) (sel : Selector) : List NodeRef :=
  let addrs (a : Option Nat) : List Nat :=
    match a with
    | some x => [x]
    | none => addresses
  match sel with
  | .group g => byChain (s.scene.groups.getD g [])
  | .nodes (some c) a _ => (addrs a).map fun x => NodeRef.mk c x
  | .nodes none a _ => allChains.flatMap fun c => (addrs a).map fun x => NodeRef.mk c x

/-- The kind filter of a selector, where it has one. -/
def Selector.filter? : Selector → Option KindFilter
  | .group _ => none
  | .nodes _ _ f => some f

/-- The references a CONFIGURE or ENABLE step resolves to (R160). -/
def State.targets (s : State) (sel : Selector) : List NodeRef :=
  (s.named sel).filter (s.enrolledAs (sel.filter?.getD .any))

/-- The selection of an EXPECT step (R163): with address ALL the enrolled records, otherwise every named reference. -/
def State.selection (s : State) (sel : Selector) : List NodeRef :=
  match sel with
  | .nodes _ none _ => s.targets sel
  | .nodes _ (some _) _ => s.named sel
  | .group _ => s.named sel

/-- A reference is in the considered set (R163). -/
def State.considers (s : State) (f : Option KindFilter) (x : NodeRef) : Bool :=
  match s.node x with
  | some n => n.state.reachable && (f.getD .any).takes n.kindName
  | none => false

/-- The considered set (R163). -/
def State.considered (s : State) (selection : List NodeRef) (f : Option KindFilter) : List NodeRef :=
  selection.filter (s.considers f)

/-- The generation kept for a chain (R163). -/
def keptGen (g0 : List (ChainId × BitVec 4)) (c : ChainId) : BitVec 4 :=
  ((g0.find? fun x => decide (x.1 = c)).map fun x => x.2).getD 0

/-- A node satisfies a condition (R164). -/
def Node.satisfies (cond : Condition) (g0 : BitVec 4) (n : Node) : Bool :=
  match cond with
  | .modeLive => decide (n.state = .live ∧ n.mode = .live)
  | .configTag t => decide (n.tag = t)
  | .applied =>
      match n.gen with
      | some g => decide ((g - g0).toNat ≤ 7)
      | none => false

/-- A considered reference satisfies a condition (R164). -/
def State.satisfied (s : State) (cond : Condition) (g0 : List (ChainId × BitVec 4)) (x : NodeRef) : Bool :=
  match s.node x with
  | some n => n.satisfies cond (keptGen g0 x.chain)
  | none => false

/-- The first considered node, by chain and then by position, that does not satisfy the condition (R167). -/
def State.firstUnsatisfied (s : State) (cond : Condition) (g0 : List (ChainId × BitVec 4)) (xs : List NodeRef) :
    Option NodeRef :=
  let inOrder := allChains.flatMap fun c => (s.chains.get c).inOrder.map fun p => NodeRef.mk c p.1
  inOrder.find? fun x => xs.contains x && !s.satisfied cond g0 x

/-- The selected chains of a selection with the generations they hold (R163). -/
def State.gens (s : State) (selection : List NodeRef) : List (ChainId × BitVec 4) :=
  (allChains.filter fun c => selection.any fun x => decide (x.chain = c)).map fun c => (c, (s.chains.get c).lookGen)

/-! ### Aborts (R155) -/

/-- A runner's claim withdrawn from a queue's list of waiting claims (R155). -/
def Chain.withdrawClaim (r : RunnerId) (ch : Chain) : Chain :=
  { ch with claims := ch.claims.filter fun k => decide (k.runner ≠ r) }

/-- A runner goes ABORTED (R155). -/
def State.abort (r : RunnerId) (reason : AbortReason) (evicted : Option Evicted) (s : State) : State :=
  let s :=
    match (s.runner r).state with
    | .waiting (.room c _ _) => { s with chains := s.chains.set c ((s.chains.get c).withdrawClaim r) }
    | .waiting (.ticks _) | .waiting (.frame _) | .waiting .go | .waiting (.check _ _ _ _) | .waiting (.confirm _ _)
    | .idle | .armed | .parked | .aborted _ => s
  (s.setRun r (.aborted reason)).cueReport (.aborted reason evicted) r

/-! ### Offers (R160) -/

/-- A command addressed to another node. -/
def ConfigCmd.readdress (a : Nat) : ConfigCmd → ConfigCmd
  | .configure _ tag settings => .configure a tag settings
  | .enable _ => .enable a

/-- A command joins a queue, or waits as a claim on it (R29). -/
def Chain.offer (r : RunnerId) (cmd : ConfigCmd) (ch : Chain) : Chain :=
  if ch.takesConfig then ch.enqueue cmd (.runner r) else { ch with claims := ch.claims ++ [{ runner := r, cmd := cmd }] }

/-- One command offered for each reference whose record is still enrolled, until one has to wait; whether all were dealt
with (R160). -/
def State.offerAll (r : RunnerId) (cmd : ConfigCmd) (refs : List NodeRef) (s : State) : State × Bool :=
  match refs with
  | [] => (s, true)
  | x :: rest =>
      if (s.node x).isSome then
        let ch := s.chains.get x.chain
        let s' := { s with chains := s.chains.set x.chain (ch.offer r (cmd.readdress x.address)) }
        if ch.takesConfig then s'.offerAll r cmd rest
        else (s'.setRun r (.waiting (.room x.chain (cmd.readdress x.address) rest)), false)
      else s.offerAll r cmd rest

/-! ### Taking steps (R156 to R171) -/

/-- A step completes with an outcome. -/
def State.complete (r : RunnerId) (k : Nat) (o : MarkOutcome) (s : State) : State × Bool := (s.mark r k o, true)

/-- A step waits. -/
def State.waitAt (r : RunnerId) (w : Wait) (s : State) : State × Bool := (s.setRun r (.waiting w), false)

/-- A write handed to the Scene Table (R157). -/
def State.handWrite (sel : Selector) (v : LookValue) (fade : Option Nat) (r : RunnerId) (s : State) : State :=
  { s with mail := { s.mail with toScene := s.mail.toScene ++ [.write sel v fade r] } }

/-- A level parameter's value. -/
def levelValue (p : LevelName) (v : Nat) : LookValue :=
  match p with
  | .brightness => .brightness v
  | .intensity => .intensity v

/-- A SYNC FRAME that does not wait completes DONE, or LATE with its report (R159). -/
def State.syncDone (r : RunnerId) (k : Nat) (f e : Word16) (s : State) : State :=
  if e = f then s.mark r k .done else (s.mark r k .late).cueReport (.syncLate f e) r

/-- Commands offered at a CONFIGURE or ENABLE step: the step completes when all have been dealt with (R160). -/
def State.offerStep (r : RunnerId) (k : Nat) (cmd : ConfigCmd) (refs : List NodeRef) (s : State) : State × Bool :=
  let x := s.offerAll r cmd refs
  if x.2 then x.1.complete r k .done else x

/-- A node-lost notice on its way when runner `r` reaches an EXPECT reports a loss before that (R166, log 22). -/
def RunnerMsg.passed (r : RunnerId) : RunnerMsg → RunnerMsg
  | .lost a kind reachable since => .lost a kind reachable (since.set r true)
  | .complete => .complete
  | .room l => .room l
  | .evicted x cmd => .evicted x cmd

/-- A loss whose notice a Chain Manager still holds is likewise one before runner `r` reached its EXPECT (R49, R166). -/
def Chain.passLost (r : RunnerId) (ch : Chain) : Chain :=
  { ch with lostHeld := ch.lostHeld.map fun x => { x with since := x.since.set r true } }

/-- The losses held by the four Chain Managers when runner `r` reaches an EXPECT. -/
def State.passLost (r : RunnerId) (s : State) : State :=
  let c := s.chains
  { s with chains := ⟨c.c0.passLost r, c.c1.passLost r, c.c2.passLost r, c.c3.passLost r⟩ }

/-- The notices on their way, and the losses that have no notice yet, when runner `r` reaches an EXPECT. -/
def State.passNotices (r : RunnerId) (s : State) : State :=
  let n := s.mail.notices
  { s.passLost r with mail := { s.mail with notices := ⟨n.c0.map (RunnerMsg.passed r), n.c1.map (RunnerMsg.passed r),
      n.c2.map (RunnerMsg.passed r), n.c3.map (RunnerMsg.passed r)⟩ } }

/-- An EXPECT step reached (R163). -/
def State.reachExpect (r : RunnerId) (k : Nat) (sel : Selector) (window : Nat) (s : State) : State × Bool :=
  let selection := s.selection sel
  if (s.considered selection sel.filter?).isEmpty then s.complete r k .done
  else (s.passNotices r).waitAt r (.check selection sel.filter? (s.gens selection) window)

/-- One step taken; whether it completed at once and the next one follows (R156). -/
def State.takeStep (r : RunnerId) (k : Nat) (st : CueStep) (s : State) : State × Bool :=
  match st with
  | .look sel v => (s.handWrite sel v none r).complete r k .done
  | .fade sel p target frames => (s.handWrite sel (levelValue p target) (some frames) r).complete r k .done
  | .wait frames => s.waitAt r (.ticks frames)
  | .syncFrame f => if later f s.e then s.waitAt r (.frame f) else (s.syncDone r k f s.e, true)
  | .syncGo => s.waitAt r .go
  | .configure sel tag settings => s.offerStep r k (.configure 31 tag settings) (s.targets sel)
  | .enable sel => s.offerStep r k (.enable 31) (s.targets sel)
  | .expect sel _ window _ => s.reachExpect r k sel window
  | .confirm window _ => (s.cueReport (.confirmWanted window) r).waitAt r (.confirm false window)
  | .finish => (((s.mark r k .done).setRun r .parked).cueReport .parked r, false)
  | .stop => (((s.mark r k .done).setRun r .idle).cueReport .done r, false)

/-- Steps taken one after another from step `k` (R156); `fuel` bounds them by the length of a list. -/
def State.runFrom (r : RunnerId) (fuel k : Nat) (s : State) : State :=
  match fuel with
  | 0 => s
  | fuel + 1 =>
      let s := s.updRunner r fun u => { u with step := some k }
      match s.stepAt r k with
      | none => s
      | some st =>
          let x := s.takeStep r k st
          if x.2 then x.1.runFrom r fuel (k + 1) else x.1

/-- The most steps a slot holds (R146). -/
def slotSize : Nat := 32

/-- A runner released at a step (R156). -/
def State.release (r : RunnerId) (k : Nat) (s : State) : State := s.runFrom r slotSize k

/-- The step a runner waits at completes, and it goes on from the next (R156). -/
def State.completeWait (r : RunnerId) (o : MarkOutcome) (s : State) : State :=
  (s.mark r (s.stepIndex r) o).release r (s.stepIndex r + 1)

/-! ### EXPECT decided (R165 to R167) -/

/-- The condition and check of the EXPECT a runner stands at. -/
def State.expecting (s : State) (r : RunnerId) : Option (Condition × Bool) :=
  match s.stepAt r (s.stepIndex r) with
  | some (.expect _ cond _ strict) => some (cond, strict)
  | _ => none

/-- The node a failure names. -/
def ExpectFail.node : ExpectFail → Option NodeRef
  | .expired x => x
  | .nodeLost x => some x

/-- An EXPECT fails (R167). -/
def State.expectFails (r : RunnerId) (cause : ExpectFail) (s : State) : State :=
  match s.expecting r with
  | none => s
  | some (cond, true) =>
      (s.raise (.expectFailed r (s.stepIndex r) cond cause) .runners cause.node).abort r .expectFailed none
  | some (cond, false) =>
      ((s.mark r (s.stepIndex r) .missed).cueReport (.expectMissed cond cause) r).release r (s.stepIndex r + 1)

/-- A complete return of chain `c` reaches runner `r` (R165). -/
def State.takeComplete (c : ChainId) (s : State) (r : RunnerId) : State :=
  match (s.runner r).state with
  | .waiting (.check selection f g0 _) =>
      if g0.any fun x => decide (x.1 = c) then
        match s.expecting r with
        | some (cond, _) =>
            if (s.considered selection f).all (s.satisfied cond g0) then s.completeWait r .done else s
        | none => s
      else s
  | .waiting (.ticks _) | .waiting (.frame _) | .waiting .go | .waiting (.room _ _ _) | .waiting (.confirm _ _)
  | .idle | .armed | .parked | .aborted _ => s

/-- A node-lost notice reaches runner `r` (R166). -/
def State.takeLost (x : NodeRef) (kind : KindName) (reachable : Bool) (since : Three Bool) (s : State) (r : RunnerId) :
    State :=
  match (s.runner r).state with
  | .waiting (.check selection f _ _) =>
      if selection.contains x && reachable && !since.get r && (f.getD .any).takes kind then s.expectFails r (.nodeLost x)
      else s
  | .waiting (.ticks _) | .waiting (.frame _) | .waiting .go | .waiting (.room _ _ _) | .waiting (.confirm _ _)
  | .idle | .armed | .parked | .aborted _ => s

/-- The mail from a Chain Manager to the Runners replaced. -/
def State.setNotices (c : ChainId) (l : List RunnerMsg) (s : State) : State :=
  { s with mail := { s.mail with notices := s.mail.notices.set c l } }

/-- COMPLETE_RETURN_NOTICE (R165). -/
def execCompleteReturnNotice (c : ChainId) (order : RunnerOrder) (s : State) : Out :=
  match s.mail.notices.get c with
  | .complete :: rest => done (order.toList.foldl (State.takeComplete c) (s.setNotices c rest))
  | .lost _ _ _ _ :: _ => notDue s
  | .room _ :: _ => notDue s
  | .evicted _ _ :: _ => notDue s
  | [] => notDue s

/-- NODE_LOST_NOTICE (R166). -/
def execNodeLostNotice (c : ChainId) (order : RunnerOrder) (s : State) : Out :=
  match s.mail.notices.get c with
  | .lost a kind reachable since :: rest =>
      done (order.toList.foldl (State.takeLost { chain := c, address := a } kind reachable since) (s.setNotices c rest))
  | .complete :: _ => notDue s
  | .room _ :: _ => notDue s
  | .evicted _ _ :: _ => notDue s
  | [] => notDue s

/-! ### Room and eviction notices (R161, R162) -/

/-- A room notice reaches its runner: it goes on with its remaining references, unless its present claim still waits
(R161, log 23). -/
def State.takeRoom (c : ChainId) (s : State) (r : RunnerId) : State :=
  match (s.runner r).state with
  | .waiting (.room k cmd rest) =>
      if k = c ∧ (s.chains.get c).claims.all (fun x => decide (x.runner ≠ r)) then
        let x := s.offerAll r cmd rest
        if x.2 then x.1.completeWait r .done else x.1
      else s
  | .waiting (.ticks _) | .waiting (.frame _) | .waiting .go | .waiting (.check _ _ _ _) | .waiting (.confirm _ _)
  | .idle | .armed | .parked | .aborted _ => s

/-- ROOM_NOTICE (R161): each runner it gives room goes on, one after another in the order of the operand (R172, log 24). -/
def execRoomNotice (turn : RoomTurn) (s : State) : Out :=
  match s.mail.notices.get turn.chain with
  | .room l :: rest =>
      done ((turn.order.toList.filter l.contains).foldl (State.takeRoom turn.chain) (s.setNotices turn.chain rest))
  | .lost _ _ _ _ :: _ => notDue s
  | .complete :: _ => notDue s
  | .evicted _ _ :: _ => notDue s
  | [] => notDue s

/-- An eviction notice reaches its runner (R162). -/
def State.takeEviction (c : ChainId) (r : RunnerId) (cmd : Cmd) (s : State) : State :=
  let detail : Option Evicted := some { chain := c, cmd := cmd }
  match (s.runner r).state with
  | .aborted _ => s.cueReport (.aborted .queueEvicted detail) r
  | .idle | .armed | .parked | .waiting _ => s.abort r .queueEvicted detail

/-- EVICTION_NOTICE (R162). -/
def execEvictionNotice (c : ChainId) (s : State) : Out :=
  match s.mail.notices.get c with
  | .evicted r cmd :: rest => done ((s.setNotices c rest).takeEviction c r cmd)
  | .lost _ _ _ _ :: _ => notDue s
  | .complete :: _ => notDue s
  | .room _ :: _ => notDue s
  | [] => notDue s

/-! ### Ticks (R158, R159, R165, R168, R170) -/

/-- The window and the fallback of the CONFIRM a runner stands at. -/
def State.confirming (s : State) (r : RunnerId) : Option (Nat × Option Nat) :=
  match s.stepAt r (s.stepIndex r) with
  | some (.confirm window fallback) => some (window, fallback)
  | _ => none

/-- The first window of a CONFIRM expires (R168). -/
def State.firstExpiry (r : RunnerId) (window : Nat) (s : State) : State :=
  (s.cueReport (.confirmOverdue window) r).setRun r (.waiting (.confirm true window))

/-- The second window of a CONFIRM expires (R170). -/
def State.secondExpiry (r : RunnerId) (fallback : Option Nat) (s : State) : State :=
  match fallback with
  | some k =>
      ((s.raise (.confirmFallback r (s.stepIndex r) k) .runners none).mark r (s.stepIndex r) .fellBack).release r k
  | none => s.abort r .unconfirmed none

/-- A runner's own tick of frame `n` (R158, R159, R165, R168, R170). -/
def State.tickWait (r : RunnerId) (n : Word16) (w : Wait) (s : State) : State :=
  match w with
  | .ticks left => if left ≤ 1 then s.completeWait r .done else s.setRun r (.waiting (.ticks (left - 1)))
  | .frame f =>
      if later f n then s else (s.syncDone r (s.stepIndex r) f n).release r (s.stepIndex r + 1)
  | .go => s
  | .room _ _ _ => s
  | .check selection f g0 left =>
      if left ≤ 1 then
        match s.expecting r with
        | some (cond, _) => s.expectFails r (.expired (s.firstUnsatisfied cond g0 (s.considered selection f)))
        | none => s
      else s.setRun r (.waiting (.check selection f g0 (left - 1)))
  | .confirm second left =>
      if left ≤ 1 then
        match s.confirming r with
        | some (window, fallback) => if second then s.secondExpiry r fallback else s.firstExpiry r window
        | none => s
      else s.setRun r (.waiting (.confirm second (left - 1)))

/-- A runner takes the tick of frame `n`. -/
def State.tickRunner (r : RunnerId) (n : Word16) (s : State) : State :=
  match (s.runner r).state with
  | .waiting w => s.tickWait r n w
  | .idle | .armed | .parked | .aborted _ => s

/-- The ticks waiting at a runner replaced. -/
def State.setRunnerTicks (r : RunnerId) (l : List Word16) (s : State) : State :=
  { s with mail := { s.mail with ticks := { s.mail.ticks with runners := s.mail.ticks.runners.set r l } } }

/-- The number of ticks the Runners have still to take. -/
def State.runnerBacklog (s : State) : Nat :=
  let t := s.mail.ticks.runners
  max t.r0.length (max t.r1.length t.r2.length)

/-- A runner takes the oldest tick, unless an expiry of its own already took it. -/
def State.takeOldest (backlog : Nat) (s : State) (r : RunnerId) : State :=
  match s.mail.ticks.runners.get r with
  | n :: rest => if backlog ≤ rest.length + 1 then (s.setRunnerTicks r rest).tickRunner r n else s
  | [] => s

/-- RUNNERS_TICK (R156): the oldest delivered tick, taken by the runners in `order` (R172). -/
def execRunnersTick (order : RunnerOrder) (s : State) : Out :=
  if s.runnerBacklog = 0 then notDue s else done (order.toList.foldl (State.takeOldest s.runnerBacklog) s)

/-- The tick of one runner that ends its wait, when `due` holds of the wait (R172). -/
def State.expiry (r : RunnerId) (due : Wait → Bool) (s : State) : Out :=
  match s.mail.ticks.runners.get r, (s.runner r).state with
  | n :: rest, .waiting w => if due w then done ((s.setRunnerTicks r rest).tickWait r n w) else notDue s
  | _, _ => notDue s

/-- The wait of a WAIT step with one tick left. -/
def Wait.lastTick : Wait → Bool
  | .ticks left => decide (left ≤ 1)
  | .frame _ | .go | .room _ _ _ | .check _ _ _ _ | .confirm _ _ => false

/-- The wait of an EXPECT with one tick left. -/
def Wait.lastCheck : Wait → Bool
  | .check _ _ _ left => decide (left ≤ 1)
  | .frame _ | .go | .room _ _ _ | .ticks _ | .confirm _ _ => false

/-- A CONFIRM window with one tick left. -/
def Wait.lastConfirm (second : Bool) : Wait → Bool
  | .confirm x left => decide (x = second ∧ left ≤ 1)
  | .frame _ | .go | .room _ _ _ | .ticks _ | .check _ _ _ _ => false

/-- WAIT_EXPIRY (R158). -/
def execWaitExpiry (r : RunnerId) (s : State) : Out := s.expiry r Wait.lastTick

/-- EXPECT_EXPIRY (R165). -/
def execExpectExpiry (r : RunnerId) (s : State) : Out := s.expiry r Wait.lastCheck

/-- CONFIRM_FIRST_EXPIRY (R168). -/
def execConfirmFirstExpiry (r : RunnerId) (s : State) : Out := s.expiry r (Wait.lastConfirm false)

/-- CONFIRM_SECOND_EXPIRY (R170). -/
def execConfirmSecondExpiry (r : RunnerId) (s : State) : Out := s.expiry r (Wait.lastConfirm true)

/-! ### Requests on cue slots (R148, R149) -/

/-- A step that CUE_LOAD accepts in a list of `n` steps (R148, check 3). -/
def stepFits (n : Nat) (st : Option CueStep) : Bool :=
  match st with
  | none => false
  | some (.confirm _ (some k)) => decide (k < n)
  | some _ => true

/-- The steps of a list that CUE_LOAD accepts end with END or STOP (R148, check 4). -/
def CueStep.ends : CueStep → Bool
  | .finish | .stop => true
  | .look _ _ | .fade _ _ _ _ | .wait _ | .syncFrame _ | .syncGo | .configure _ _ _ | .enable _ | .expect _ _ _ _
  | .confirm _ _ => false

/-- A runner in ARMED or WAITING (R150). -/
def RunState.holdsSlot : RunState → Bool
  | .armed => true
  | .waiting _ => true
  | .idle | .parked | .aborted _ => false

/-- A runner in ARMED or WAITING names the slot (R148, check 2). -/
def State.slotHeld (s : State) (slot : Nat) : Bool :=
  s.cues.runners.toList.any fun u => u.state.holdsSlot && decide (u.slot = some slot)

/-- A list of steps put to checks 3 and 4: the index of the step that fails, or the steps (R148). -/
def checkSteps (n : Nat) (steps : List (Option CueStep)) : Except Nat (List CueStep) :=
  match steps.findIdx? fun x => !stepFits n x with
  | some k => .error k
  | none =>
      let l := steps.filterMap id
      match l.getLast? with
      | some x => if x.ends then .ok l else .error (n - 1)
      | none => .error 0

/-- A slot filled, every done mark clear (R148). -/
def State.loadSlot (slot : Nat) (l : List CueStep) (s : State) : State :=
  { s with cues := { s.cues with slots := s.cues.slots.set slot (some (l.map fun x => { step := x, mark := none })) } }

/-- CUE_LOAD (R148). -/
def execCueLoad (s : State) : Out :=
  s.takeWith .cueLoad cueLoad? fun q x s =>
    if 7 < x.slot ∨ x.count < 1 ∨ slotSize < x.count then s.answer q .badArg .empty
    else if s.slotHeld x.slot then s.answer q .busy .empty
    else
      match checkSteps x.count x.steps with
      | .error k => s.answer q .badArg (.cueBadStep k)
      | .ok l => (s.loadSlot x.slot l).answer q .ok (.cueLoad l.length)

/-- CUE_READ (R149). -/
def execCueRead (s : State) : Out :=
  s.takeWith .cueRead cueSlot? fun q slot s =>
    s.answer q .ok (.cueRead (s.steps slot)
      ((allRunners.filter fun r => decide ((s.runner r).slot = some slot)).map fun r => (r, (s.runner r).state)))

/-! ### Requests on runners (R151 to R154, R169) -/

/-- RUNNER_ARM (R151). -/
def execRunnerArm (s : State) : Out :=
  s.takeWith .runnerArm runnerArm? fun q x s =>
    if (s.runner x.1).state.holdsSlot then s.answer q .state .empty
    else if (s.steps x.2).isNone then s.answer q .notFound .empty
    else
      ((s.updRunner x.1 fun _ => { state := .armed, slot := some x.2, step := none }).clearMarks x.2).answer q .ok .empty

/-- RUNNER_GO (R152). -/
def execRunnerGo (s : State) : Out :=
  s.takeWith .runnerGo runner? fun q r s =>
    match (s.runner r).state with
    | .armed => (s.release r 0).answer q .ok .empty
    | .waiting .go => (s.completeWait r .done).answer q .ok .empty
    | .waiting (.ticks _) | .waiting (.frame _) | .waiting (.room _ _ _) | .waiting (.check _ _ _ _)
    | .waiting (.confirm _ _) | .idle | .parked | .aborted _ => s.answer q .state .empty

/-- RUNNER_HALT (R153). -/
def execRunnerHalt (s : State) : Out :=
  s.takeWith .runnerHalt runner? fun q r s =>
    match (s.runner r).state with
    | .idle => s.answer q .state .empty
    | .armed | .waiting _ | .parked | .aborted _ =>
        let s := s.abort r .halted none
        ({ s with mail := { s.mail with toScene := s.mail.toScene ++ [SceneMsg.halt r] } }).answer q .ok .empty

/-- RUNNER_CONFIRM (R169). -/
def execRunnerConfirm (s : State) : Out :=
  s.takeWith .runnerConfirm runner? fun q r s =>
    match (s.runner r).state with
    | .waiting (.confirm _ _) => (s.completeWait r .done).answer q .ok .empty
    | .waiting (.ticks _) | .waiting (.frame _) | .waiting .go | .waiting (.room _ _ _) | .waiting (.check _ _ _ _)
    | .idle | .armed | .parked | .aborted _ => s.answer q .state .empty

/-- RUNNER_RESUME (R154). -/
def execRunnerResume (s : State) : Out :=
  s.takeWith .runnerResume runner? fun q r s =>
    match (s.runner r).state with
    | .parked => ((s.clearMarks ((s.runner r).slot.getD 0)).release r 0).answer q .ok .empty
    | .idle | .armed | .waiting _ | .aborted _ => s.answer q .state .empty

/-- RUNNER_CLEAR (R154). -/
def execRunnerClear (s : State) : Out :=
  s.takeWith .runnerClear runner? fun q r s =>
    match (s.runner r).state with
    | .aborted _ => (s.setRun r .idle).answer q .ok .empty
    | .idle | .armed | .waiting _ | .parked => s.answer q .state .empty

end Sys2Proof.Machine
end

