-- ==== Sys2Proof/Machine/SceneTable.lean ====
section
/-! DEFINITION. Chapters 7 and 8: the Scene Table. Selectors, writes, fades, overrides and glides, clamp notices, posts
and groups. -/

namespace Sys2Proof.Machine

/-! ### Kinds and selectors (R116, R119) -/

/-- The kind of an entry: that of its record, UNSET when it is ABSENT (R116). -/
def State.entryKind (s : State) (r : NodeRef) : Option KindName := (s.node r).map Node.kindName

/-- A kind passes a filter (R119). -/
def KindFilter.passes (f : KindFilter) (k : Option KindName) : Bool :=
  match f with
  | .any => true
  | .tile => decide (k ≠ some .lamp)
  | .lamp => decide (k ≠ some .tile)

/-- The entries of one chain that a selector's address and filter name (R119). -/
def State.selectChain (s : State) (address : Option Nat) (f : KindFilter) (c : ChainId) : List NodeRef :=
  match address with
  | some a => [NodeRef.mk c a].filter fun r => f.passes (s.entryKind r)
  | none =>
      (addresses.map fun a => NodeRef.mk c a).filter fun r => (s.node r).isSome && f.passes (s.entryKind r)

/-- The entries a selector names, in order (R119). -/
def State.select (s : State) (sel : Selector) : List NodeRef :=
  match sel with
  | .group g => s.scene.groups.getD g []
  | .nodes (some c) a f => s.selectChain a f c
  | .nodes none a f => allChains.flatMap (s.selectChain a f)

/-- The kind of node a value is for: SOURCE and BRIGHTNESS for tiles, INTENSITY and PRESET for lamps (R116). -/
def LookValue.kind : LookValue → KindName
  | .source _ => .tile
  | .brightness _ => .tile
  | .intensity _ => .lamp
  | .preset _ => .lamp

/-- The same for a parameter that can be overridden (R139). -/
def OverParam.kind : OverParam → KindName
  | .brightness => .tile
  | .intensity => .lamp
  | .preset => .lamp

/-- An entry can take a parameter of a kind (R119). -/
def State.canTake (s : State) (k : KindName) (r : NodeRef) : Bool :=
  match s.entryKind r with
  | none => true
  | some x => decide (x = k)

/-! ### Writes (R120) -/

/-- A write to BRIGHTNESS or INTENSITY: a step, or a fade of `fade` frames (R120). The base value already stands at what
a cancelled fade had reached. -/
def LevelParam.write (v : Nat) (fade : Option Nat) (w : Writer) (p : LevelParam) : LevelParam :=
  match fade with
  | none => { p with base := v, owner := w, fade := none }
  | some n => { p with owner := w, fade := some { start := p.base, target := v, length := n, elapsed := 0 } }

/-- A write to one entry (R120). -/
def SceneEntry.write (v : LookValue) (fade : Option Nat) (w : Writer) (e : SceneEntry) : SceneEntry :=
  match v with
  | .source x => { e with source := { base := x, owner := w } }
  | .brightness x => { e with brightness := e.brightness.write x fade w }
  | .intensity x => { e with intensity := e.intensity.write x fade w }
  | .preset x => { e with preset := { e.preset with base := x, owner := w } }

/-- An entry changed. -/
def Scene.update (r : NodeRef) (f : SceneEntry → SceneEntry) (sc : Scene) : Scene := sc.setEntry r (f (sc.entry r))

/-- Entries a write reaches (R119). -/
def State.writable (s : State) (sel : Selector) (v : LookValue) : List NodeRef :=
  (s.select sel).filter (s.canTake v.kind)

/-- A write taken whole (R119, R120). -/
def State.write (sel : Selector) (v : LookValue) (fade : Option Nat) (w : Writer) (s : State) : State :=
  { s with scene := (s.writable sel v).foldl (fun sc r => sc.update r (SceneEntry.write v fade w)) s.scene }

/-- LOOK_SET (R121). -/
def execLookSet (s : State) : Out :=
  s.takeWith .lookSet lookSet? fun q x s =>
    let written := (s.writable x.1 x.2.1).length
    let skipped := (s.select x.1).length - written
    (s.write x.1 x.2.1 x.2.2 .control).answer q .ok (.look written skipped)

/-- The mail from the Runners replaced. -/
def State.setSceneMail (l : List SceneMsg) (s : State) : State := { s with mail := { s.mail with toScene := l } }

/-- SCENE_WRITE (R122): the write of a runner's LOOK or FADE step. -/
def execSceneWrite (s : State) : Out :=
  match s.mail.toScene with
  | .write sel v fade r :: rest => done ((s.setSceneMail rest).write sel v fade (.runner r))
  | .halt _ :: _ => notDue s
  | [] => notDue s

/-- A fade cancelled when its owner is the halted runner (R122). -/
def LevelParam.halt (r : RunnerId) (p : LevelParam) : LevelParam :=
  if p.owner = .runner r then { p with fade := none } else p

/-- The fades of a runner on one entry cancelled. -/
def SceneEntry.halt (r : RunnerId) (e : SceneEntry) : SceneEntry :=
  { e with brightness := e.brightness.halt r, intensity := e.intensity.halt r }

/-- HALT_NOTICE (R122). -/
def execHaltNotice (s : State) : Out :=
  match s.mail.toScene with
  | .halt r :: rest =>
      let s := s.setSceneMail rest
      done { s with scene := { s.scene with entries := s.scene.entries.map (SceneEntry.halt r) } }
  | .write _ _ _ _ :: _ => notDue s
  | [] => notDue s

/-! ### Clamp notices (R126) -/

/-- A clamp notice taken by the entry it names (R126). -/
def Scene.clampNotice (c : ChainId) (m : ClampMsg) (sc : Scene) : Scene :=
  match m with
  | .enrolled a clamp hot => sc.update { chain := c, address := a } fun e => { e with clamp := clamp, overheat := hot }
  | .health a hot => sc.update { chain := c, address := a } fun e => { e with overheat := hot }
  | .clamp a clamp => sc.update { chain := c, address := a } fun e => { e with clamp := clamp }
  | .absent a => sc.update { chain := c, address := a } fun e => { e with overheat := false }

/-- CLAMP_NOTICE (R126). -/
def execClampNotice (c : ChainId) (s : State) : Out :=
  match s.mail.clamps.get c with
  | m :: rest =>
      done { s with mail := { s.mail with clamps := s.mail.clamps.set c rest }, scene := s.scene.clampNotice c m }
  | [] => notDue s

/-! ### Outputs (R124, R125) -/

/-- The unclamped output of a level parameter (R124, R125). -/
def LevelParam.unclamped (p : LevelParam) : Nat :=
  match p.glide, p.drive with
  | some g, d =>
      interpolate g.start
        (match g.kind, d with
          | .attack, some x => x.value
          | .attack, none => p.base
          | .release, _ => p.base)
        g.elapsed g.length
  | none, some d => d.value
  | none, none => p.base

/-- The output of PRESET (R124, R143). -/
def PresetParam.output (p : PresetParam) : Nat :=
  match p.drive with
  | some d => d.value
  | none => p.base

/-- The look of an entry of a kind (R124, R129). -/
def SceneEntry.look (kind : Option KindName) (e : SceneEntry) : Look :=
  let b := e.brightness.unclamped
  let i := e.intensity.unclamped
  { source := e.source.base,
    brightness := if kind = some .tile ∧ e.overheat = true then min b e.clamp else b,
    intensity := if kind = some .lamp ∧ e.overheat = true then min i e.clamp else i,
    preset := e.preset.output }

/-! ### Ticks (R128 to R130) -/

/-- A fade advanced by one frame (R118, R128). -/
def LevelParam.advanceFade (p : LevelParam) : LevelParam :=
  match p.fade with
  | none => p
  | some f =>
      if f.length ≤ f.elapsed + 1 then { p with base := f.target, fade := none }
      else { p with base := interpolate f.start f.target (f.elapsed + 1) f.length,
                    fade := some { f with elapsed := f.elapsed + 1 } }

/-- A glide advanced by one frame (R128). -/
def LevelParam.advanceGlide (p : LevelParam) : LevelParam :=
  match p.glide with
  | none => p
  | some g =>
      if g.length ≤ g.elapsed + 1 then { p with glide := none }
      else { p with glide := some { g with elapsed := g.elapsed + 1 } }

/-- An entry's fades and glides advanced (R128). -/
def SceneEntry.advance (e : SceneEntry) : SceneEntry :=
  { e with brightness := e.brightness.advanceFade.advanceGlide, intensity := e.intensity.advanceFade.advanceGlide }

/-- The looks of a chain's thirty entries (R129). -/
def State.looks (s : State) (c : ChainId) : List Look :=
  addresses.map fun a => (s.scene.entry (NodeRef.mk c a)).look (s.entryKind (NodeRef.mk c a))

/-- The post of a chain: the generation increases when any value differs from the previous post (R130). -/
def State.formPost (s : State) (c : ChainId) : Post :=
  let old := s.scene.previous.get c
  let looks := s.looks c
  { gen := if looks = old.looks then old.gen else old.gen + 1, looks := looks }

/-- A chain's post formed and handed to the Frame Assembler and the Chain Manager (R129). -/
def State.post (c : ChainId) (s : State) : State :=
  let p := s.formPost c
  let m := s.asm.get c
  { s with scene := { s.scene with previous := s.scene.previous.set c p },
           asm := s.asm.set c { m with posts := m.posts ++ [p] },
           chains := s.chains.set c { s.chains.get c with lookGen := p.gen } }

/-- The Scene Table takes a tick (R128, R129). -/
def State.sceneTick (s : State) : State :=
  allChains.foldl (fun s c => s.post c)
    { s with scene := { s.scene with entries := s.scene.entries.map SceneEntry.advance } }

/-- The ticks waiting at the Scene Table replaced. -/
def State.setSceneTicks (l : List Word16) (s : State) : State :=
  { s with mail := { s.mail with ticks := { s.mail.ticks with scene := l } } }

/-- SCENE_TABLE_TICK (R128). -/
def execSceneTableTick (s : State) : Out :=
  match s.mail.ticks.scene with
  | _ :: rest => done (s.setSceneTicks rest).sceneTick
  | [] => notDue s

/-- A level parameter of an entry. -/
def SceneEntry.level (e : SceneEntry) (p : LevelName) : LevelParam :=
  match p with
  | .brightness => e.brightness
  | .intensity => e.intensity

/-- The next tick completes the parameter's fade (R118). -/
def LevelParam.fadeDue (p : LevelParam) : Bool :=
  match p.fade with
  | some f => decide (f.length ≤ f.elapsed + 1)
  | none => false

/-- The next tick ends the parameter's glide (R128). -/
def LevelParam.glideDue (p : LevelParam) : Bool :=
  match p.glide with
  | some g => decide (g.length ≤ g.elapsed + 1)
  | none => false

/-- FADE_COMPLETE (R128): the tick that completes a fade. -/
def execFadeComplete (c : ChainId) (address : Nat) (p : LevelName) (s : State) : Out :=
  match s.mail.ticks.scene with
  | _ :: rest =>
      if isAddress address && ((s.scene.entry { chain := c, address := address }).level p).fadeDue then
        done (s.setSceneTicks rest).sceneTick
      else notDue s
  | [] => notDue s

/-- GLIDE_END (R128): the tick that ends a glide. -/
def execGlideEnd (c : ChainId) (address : Nat) (p : LevelName) (s : State) : Out :=
  match s.mail.ticks.scene with
  | _ :: rest =>
      if isAddress address && ((s.scene.entry { chain := c, address := address }).level p).glideDue then
        done (s.setSceneTicks rest).sceneTick
      else notDue s
  | [] => notDue s

/-! ### Claims (R138 to R143) -/

/-- The claim record of a rule (R139). -/
def Scene.claim (sc : Scene) (k : Nat) : Option ClaimRecord := sc.claims.getD k none

/-- The record an ACTIVATE claim makes (R139). -/
def State.claimRecord (s : State) (target : Selector) (param : OverParam) (value attack release : Nat) : ClaimRecord :=
  { param := param, value := value, attack := attack, release := release,
    entries := ((s.select target).filter (s.canTake param.kind)).eraseDups }

/-- The claim records after one claim (R139). -/
def State.takeClaim (s : State) (claims : List (Option ClaimRecord)) (k : TallyClaim) : List (Option ClaimRecord) :=
  match k with
  | .activate rule target param value attack release =>
      claims.set rule (some (s.claimRecord target param value attack release))
  | .deactivate rule => claims.set rule none

/-- The rule a claim names. -/
def TallyClaim.rule : TallyClaim → Nat
  | .activate rule _ _ _ _ _ => rule
  | .deactivate rule => rule

/-- A record targets a parameter of an entry (R139). -/
def ClaimRecord.targets (x : ClaimRecord) (r : NodeRef) (p : OverParam) : Bool := decide (x.param = p) && x.entries.contains r

/-- The driving rule of a parameter and its record: the lowest-numbered rule that targets it (R140). -/
def driverOf (claims : List (Option ClaimRecord)) (r : NodeRef) (p : OverParam) (k : Nat) : Option (Nat × ClaimRecord) :=
  match claims with
  | [] => none
  | none :: rest => driverOf rest r p (k + 1)
  | some x :: rest => if x.targets r p then some (k, x) else driverOf rest r p (k + 1)

/-- A glide that starts from the unclamped output, or none for a length of 0 (R141, R142). -/
def LevelParam.startGlide (kind : GlideKind) (length : Nat) (p : LevelParam) : Option Glide :=
  if length = 0 then none else some { kind := kind, start := p.unclamped, length := length, elapsed := 0 }

/-- The action on a level parameter whose driver after the batch is `after`; `release` is the release of the record
that drove it before (R140 to R142). -/
def LevelParam.redrive (after : Option (Nat × ClaimRecord)) (release : Nat) (p : LevelParam) : LevelParam :=
  match p.drive, after with
  | none, none => p
  | none, some (k, x) =>
      { p with drive := some { rule := k, value := x.value }, glide := p.startGlide .attack x.attack }
  | some d, some (k, x) =>
      if k ≠ d.rule then { p with drive := some { rule := k, value := x.value }, glide := p.startGlide .attack x.attack }
      else if x.value = d.value then p
      else
        { p with drive := some { rule := k, value := x.value },
                 glide := if p.glide.isSome then p.glide else p.startGlide .attack x.attack }
  | some _, none => { p with drive := none, glide := p.startGlide .release release }

/-- The action on a PRESET parameter (R140, R143). -/
def PresetParam.redrive (after : Option (Nat × ClaimRecord)) (p : PresetParam) : PresetParam :=
  { p with drive := after.map fun x => { rule := x.1, value := x.2.value } }

/-- The release length of the record that drove a parameter before the batch (R142). -/
def releaseOf (before : List (Option ClaimRecord)) (d : Option Drive) : Nat :=
  match d with
  | some x => ((before.getD x.rule none).map fun c => c.release).getD 0
  | none => 0

/-- The action on one parameter of one entry (R140). -/
def SceneEntry.redrive (before after : List (Option ClaimRecord)) (r : NodeRef) (p : OverParam) (e : SceneEntry) :
    SceneEntry :=
  match p with
  | .brightness =>
      { e with brightness := e.brightness.redrive (driverOf after r p 0) (releaseOf before e.brightness.drive) }
  | .intensity =>
      { e with intensity := e.intensity.redrive (driverOf after r p 0) (releaseOf before e.intensity.drive) }
  | .preset => { e with preset := e.preset.redrive (driverOf after r p 0) }

/-- The parameters on the claim lists of the records that a batch made or removed (R140). -/
def touched (before after : List (Option ClaimRecord)) (rules : List Nat) : List (NodeRef × OverParam) :=
  rules.flatMap fun k =>
    [before.getD k none, after.getD k none].flatMap fun o =>
      match o with
      | some x => x.entries.map fun r => (r, x.param)
      | none => []

/-- A batch taken whole (R138 to R143). -/
def State.takeBatch (batch : List TallyClaim) (s : State) : State :=
  let before := s.scene.claims
  let after := batch.foldl s.takeClaim before
  let sc := (touched before after (batch.map TallyClaim.rule)).foldl
    (fun sc x => sc.update x.1 (SceneEntry.redrive before after x.1 x.2)) s.scene
  { s with scene := { sc with claims := after } }

/-- TALLY_BATCH (R140). -/
def execTallyBatch (s : State) : Out :=
  match s.mail.batches with
  | b :: rest => done ({ s with mail := { s.mail with batches := rest } }.takeBatch b)
  | [] => notDue s

/-! ### Groups (R131, R132) -/

/-- Of each set of equal references, the first kept in its place (R132). -/
def keepFirst (seen : List NodeRef) (l : List NodeRef) : List NodeRef :=
  match l with
  | [] => []
  | x :: rest => if x ∈ seen then keepFirst seen rest else x :: keepFirst (x :: seen) rest

/-- GROUP_SET (R132). -/
def execGroupSet (s : State) : Out :=
  s.takeWith .groupSet groupSet? fun q x s =>
    let kept := keepFirst [] x.2
    ({ s with scene := { s.scene with groups := s.scene.groups.set x.1 kept } }).answer q .ok (.group kept.length)

end Sys2Proof.Machine
end

