-- ==== Sys2Proof/Machine/TallyUnit.lean ====
section
/-! DEFINITION. Chapter 8: the Tally Unit. Line samples, the mask, rules and the batches of claims they make. -/

namespace Sys2Proof.Machine

/-! ### Rules and batches (R136, R138) -/

/-- A rule matches the latched state of its line: it is active while it is enabled (R136). -/
def TallyRule.active (latched : BitVec 8) (x : TallyRule) : Bool :=
  x.enabled &&
    (match x.sense with
      | .on => latched.getLsbD x.line
      | .off => !latched.getLsbD x.line)

/-- The active-rule set of the unit as it stands, rule by rule (R136). -/
def Tally.activeSet (t : Tally) : List Bool := t.rules.map (TallyRule.active t.latched)

/-- The ACTIVATE claim of a rule (R138). -/
def TallyRule.claim (k : Nat) (x : TallyRule) : TallyClaim :=
  .activate k x.target x.param x.value x.attack x.release

/-- The claims of a change of the latched lines, in rule-number order (R138). -/
def changeClaims (old new : BitVec 8) (k : Nat) (rules : List TallyRule) : List TallyClaim :=
  match rules with
  | [] => []
  | x :: rest =>
      (if x.active old = x.active new then [] else if x.active new then [x.claim k] else [.deactivate k]) ++
        changeClaims old new (k + 1) rest

/-- A batch handed to the Scene Table; an event that changes no rule makes none (R138). -/
def State.handBatch (batch : List TallyClaim) (s : State) : State :=
  match batch with
  | [] => s
  | _ :: _ => { s with mail := { s.mail with batches := s.mail.batches ++ [batch] } }

/-! ### Ticks (R134) -/

/-- The lines sampled at a tick: a masked line is sampled off (R134). -/
def Tally.sampled (levels : BitVec 8) (t : Tally) : BitVec 8 := levels &&& ~~~t.mask

/-- The latched lines after a sample: a sample that differs from the latched state and equals the last sample moves it
(R134). -/
def Tally.latchedAfter (levels : BitVec 8) (t : Tally) : BitVec 8 :=
  let x := t.sampled levels
  let settled := ~~~(x ^^^ t.sample)
  (t.latched &&& ~~~settled) ||| (x &&& settled)

/-- The Tally Unit takes a tick (R134, R136, R138). -/
def State.tallyTick (levels : BitVec 8) (s : State) : State :=
  let latched := s.tally.latchedAfter levels
  let batch := changeClaims s.tally.latched latched 0 s.tally.rules
  ({ s with tally := { s.tally with sample := s.tally.sampled levels, latched := latched } }).handBatch batch

/-- TALLY_TICK (R134). -/
def execTallyTick (levels : BitVec 8) (s : State) : Out :=
  match s.mail.ticks.tally with
  | _ :: rest =>
      done ({ s with mail := { s.mail with ticks := { s.mail.ticks with tally := rest } } }.tallyTick levels)
  | [] => notDue s

/-! ### Requests (R135, R137) -/

/-- The mask takes a new set: a line that enters it reads off at once (R135). -/
def State.setMask (mask : BitVec 8) (s : State) : State :=
  let entering := mask &&& ~~~s.tally.mask
  let latched := s.tally.latched &&& ~~~entering
  let batch := changeClaims s.tally.latched latched 0 s.tally.rules
  ({ s with tally := { s.tally with mask := mask, sample := s.tally.sample &&& ~~~entering,
                                    latched := latched } }).handBatch batch

/-- TALLY_MASK (R135). -/
def execTallyMask (s : State) : Out :=
  s.takeWith .tallyMask tallyMask? fun q m s => (s.setMask m).answer q .ok .empty

/-- The claims of a rule set anew: it deactivates, takes its settings, and activates if they make it active (R137). -/
def ruleClaims (latched : BitVec 8) (k : Nat) (old new : TallyRule) : List TallyClaim :=
  (if old.active latched then [.deactivate k] else []) ++ (if new.active latched then [new.claim k] else [])

/-- TALLY_RULE_SET (R137). -/
def execTallyRuleSet (s : State) : Out :=
  s.takeWith .tallyRuleSet tallyRule? fun q x s =>
    let old := s.tally.rules.getD x.1 .reset
    let s := ({ s with tally := { s.tally with rules := s.tally.rules.set x.1 x.2 } }).handBatch
      (ruleClaims s.tally.latched x.1 old x.2)
    s.answer q .ok (.ruleActive (x.2.active s.tally.latched))

end Sys2Proof.Machine
end

