-- ==== Sys2Proof/Machine/StatusUnit.lean ====
section
/-! DEFINITION. STATUS (R181): one reply for each section, read from the blocks when the request is taken. -/

namespace Sys2Proof.Machine

/-- STATUS section REFERENCE (R16, R181). -/
def State.statusReference (s : State) : ReplyBody :=
  .statusReference s.ref.source s.ref.mode s.ref.rate s.ref.a.state s.ref.b.state s.ref.counter
    s.ref.pendingFrame.isSome

/-- STATUS section REFERENCE. -/
def execStatusReference (s : State) : Out :=
  s.takeWith .statusReference (statusSection? 0) fun q _ s => s.answer q .ok s.statusReference

/-- A frame counted among the frames counted so far (R88). -/
def tallyFrame (f : Word16) (l : List (Word16 × Nat)) : List (Word16 × Nat) :=
  match l with
  | [] => [(f, 1)]
  | (g, n) :: rest => if g = f then (g, n + 1) :: rest else (g, n) :: tallyFrame f rest

/-- The number of frame-slot entries by frame (R88, R181): the frames that hold entries, in the order in which each stands
first in the map (log 54). -/
def AsmChain.slotCounts (m : AsmChain) : List (Word16 × Nat) := m.slots.foldl (fun l x => tallyFrame x.frame l) []

/-- STATUS section CHAIN (R25, R88, R103, R181, R200). The Chain Manager and the Frame Assembler are read in one command
(log 55). -/
def State.chainStatus (s : State) (c : ChainId) : ChainStatus :=
  let ch := s.chains.get c
  let m := s.asm.get c
  { state := ch.state, endHop := ch.endHop, portRoute := ch.portRoute, breakCount := ch.breakCount,
    silentLimit := ch.silentLimit, breakLimit := ch.breakLimit, counters := ch.counters,
    absent := 30 - ch.enrolled.length, counts := ch.stateCounts, assembler := m.counters, slots := m.slotCounts }

/-- STATUS section CHAIN. -/
def execStatusChain (s : State) : Out :=
  s.takeWith .statusChain chainSection? fun q c s => s.answer q .ok (.statusChain (s.chainStatus c))

/-- The phase of a staging entry (R67). -/
def Entry.phase : Entry → EntryPhase
  | .free => .free
  | .receiving _ _ => .receiving
  | .queued _ _ _ => .queued
  | .storing _ _ _ _ => .storing

/-- STATUS section INTAKE (R82). -/
def execStatusIntake (s : State) : Out :=
  s.takeWith .statusIntake (statusSection? 2) fun q _ s =>
    s.answer q .ok (.statusIntake s.intake.e0.phase s.intake.e1.phase s.intake.hold s.intake.total)

/-- STATUS section POOL (R84, R181): the scrub's state is the number of buffers still to test, absent while none runs. -/
def execStatusPool (s : State) : Out :=
  s.takeWith .statusPool (statusSection? 3) fun q _ s =>
    s.answer q .ok (.statusPool s.pool.freeCount s.pool.quarantine.length s.pool.pause s.pool.threshold s.pool.pauseLen
      s.pool.exhausted (s.pool.scrub.map fun x => x.todo.length))

/-- The slots of a page in each state (R108). -/
def Stills.pageCounts (st : Stills) (page : Nat) : PageCounts :=
  let l := (st.slots.drop (page * 120)).take 120
  { empty := l.countP (fun x => match x with | .empty => true | .filling _ _ => false | .ready _ _ => false),
    filling := l.countP (fun x => match x with | .empty => false | .filling _ _ => true | .ready _ _ => false),
    ready := l.countP (fun x => match x with | .empty => false | .filling _ _ => false | .ready _ _ => true) }

/-- STATUS section STILLS (R108). -/
def execStatusStills (s : State) : Out :=
  s.takeWith .statusStills (statusSection? 4) fun q _ s =>
    let st := s.stills
    s.answer q .ok (.statusStills st.reserved st.unreserved
      ⟨st.pageCounts 0, st.pageCounts 1, st.pageCounts 2, st.pageCounts 3⟩)

/-- The owners of an entry's four parameters. -/
def SceneEntry.owners (e : SceneEntry) : List Writer :=
  [e.source.owner, e.brightness.owner, e.intensity.owner, e.preset.owner]

/-- The parameters of a chain owned by each writer (R117). -/
def Scene.ownerCounts (sc : Scene) (c : ChainId) : OwnerCounts :=
  let l := ((sc.entries.drop (c.val * 30)).take 30).flatMap SceneEntry.owners
  { none := l.count .none, control := l.count .control,
    runners := ⟨l.count (.runner 0), l.count (.runner 1), l.count (.runner 2)⟩ }

/-- STATUS section SCENE (R117, R130). -/
def execStatusScene (s : State) : Out :=
  s.takeWith .statusScene (statusSection? 5) fun q _ s =>
    let sc := s.scene
    s.answer q .ok (.statusScene ⟨sc.previous.c0.gen, sc.previous.c1.gen, sc.previous.c2.gen, sc.previous.c3.gen⟩
      ⟨sc.ownerCounts 0, sc.ownerCounts 1, sc.ownerCounts 2, sc.ownerCounts 3⟩)

/-- STATUS section GROUPS (R131). -/
def execStatusGroups (s : State) : Out :=
  s.takeWith .statusGroups (statusSection? 6) fun q _ s => s.answer q .ok (.statusGroups s.scene.groups)

/-- STATUS section TALLY (R144, R181). The Tally Unit and the Scene Table are read in one command (log 55). -/
def execStatusTally (s : State) : Out :=
  s.takeWith .statusTally (statusSection? 7) fun q _ s =>
    s.answer q .ok (.statusTally s.tally.latched s.tally.sample s.tally.mask
      (s.tally.rules.map fun x => (x, x.active s.tally.latched))
      (s.scene.claims.map fun o => o.map fun x => x.entries.length))

/-- STATUS section RUNNERS (R150). -/
def execStatusRunners (s : State) : Out :=
  s.takeWith .statusRunners (statusSection? 8) fun q _ s => s.answer q .ok (.statusRunners s.cues.runners)

/-- STATUS section LINK (R181). The places held include the one of this request. -/
def State.statusLink (s : State) : ReplyBody :=
  .statusLink (s.link.placesHeld + 1) s.link.reports.length s.link.lost s.link.mask s.link.period s.link.counters
    s.link.faultCount s.link.rate

/-- STATUS section LINK. -/
def execStatusLink (s : State) : Out :=
  s.takeWith .statusLink (statusSection? 9) fun q _ s => s.answer q .ok s.statusLink

end Sys2Proof.Machine
end

