-- ==== Sys2Proof/Machine/StillsStore.lean ====
section
/-! DEFINITION. Chapter 6: the Stills Store. Uploads, reads for emission and clears. -/

namespace Sys2Proof.Machine

/-! ### Replies (R111, R113) -/

/-- A slot's state as a reply shows it, with the next offset while it is FILLING. -/
def StillSlot.shown : StillSlot → StillState × Option Nat
  | .empty => (.empty, none)
  | .filling _ data => (.filling, some data.length)
  | .ready _ _ => (.ready, none)

/-- The reply to a STILL_WRITE: the slot it names, when it names one, and the unreserved count (R111). -/
def State.stillReply (q : Request) (code : ReplyCode) (r : Option StillRef) (s : State) : State :=
  s.answer q code (.still (r.map fun r => (s.stills.slot r).shown) s.stills.unreserved)

/-- The slot that a STILL_WRITE names, when its fields are in range (R109). -/
def StillWriteArgs.slot? (x : StillWriteArgs) : Option StillRef :=
  match chainOf? x.chain with
  | some c => if x.page ≤ 3 ∧ isAddress x.address then some { page := x.page, chain := c, address := x.address } else none
  | none => none

/-- The chunk is the last (R109). -/
def StillWriteArgs.last (x : StillWriteArgs) : Bool := decide (x.offset + x.chunk.length = x.total)

/-- The argument checks but for the slot's name (R109). -/
def StillWriteArgs.fits (x : StillWriteArgs) : Bool :=
  decide (x.offset ≤ 4095) && decide (1 ≤ x.total) && decide (x.total ≤ 4096) && decide (1 ≤ x.chunk.length) &&
    decide (x.chunk.length ≤ 1024) && decide (x.offset + x.chunk.length ≤ x.total) && (x.last == x.crc.isSome)

/-- The read mark (R107). -/
def StillSlot.marked : StillSlot → Bool
  | .empty => false
  | .filling _ _ => false
  | .ready _ reading => reading

/-- The store with a slot replaced. -/
def State.setStill (r : StillRef) (x : StillSlot) (s : State) : State := { s with stills := s.stills.setSlot r x }

/-! ### STILL_WRITE (R109 to R111) -/

/-- The slot of a fill with its data so far: the last chunk decides it (R111), otherwise the fill goes on. -/
def State.fill (q : Request) (r : StillRef) (total : Nat) (data : List Byte) (crc : Option Word32) (s : State) : State :=
  match crc with
  | none => (s.setStill r (.filling total data)).stillReply q .ok (some r)
  | some w =>
      if crc32 data = w then (s.setStill r (.ready data false)).stillReply q .ok (some r)
      else (s.setStill r .empty).stillReply q .check (some r)

/-- A STILL_WRITE at offset 0 that passed its argument checks (R109). -/
def State.beginFill (q : Request) (r : StillRef) (x : StillWriteArgs) (s : State) : State :=
  if (s.stills.slot r).marked then s.stillReply q .busy (some r)
  else if s.stills.unreserved + (s.stills.slot r).reserved < x.total then s.stillReply q .full (some r)
  else s.fill q r x.total x.chunk x.crc

/-- A STILL_WRITE at a nonzero offset that passed its argument checks (R110). -/
def State.continueFill (q : Request) (r : StillRef) (x : StillWriteArgs) (s : State) : State :=
  match s.stills.slot r with
  | .filling total data =>
      if x.offset = data.length ∧ x.total = total then s.fill q r total (data ++ x.chunk) x.crc
      else (s.setStill r .empty).stillReply q .sequence (some r)
  | .empty => s.stillReply q .sequence (some r)
  | .ready _ _ => s.stillReply q .sequence (some r)

/-- A STILL_WRITE put to its argument checks (R109). -/
def State.stillWrite (q : Request) (x : StillWriteArgs) (take : StillRef → State → State) (s : State) : State :=
  match x.slot? with
  | some r => if x.fits then take r s else s.stillReply q .badArg (some r)
  | none => s.stillReply q .badArg none

/-- STILL_WRITE at offset 0 (R109). -/
def execStillWriteBegin (s : State) : Out :=
  s.takeWith .stillWriteBegin stillWrite? fun q x s => s.stillWrite q x fun r s => s.beginFill q r x

/-- STILL_WRITE at a nonzero offset (R110). -/
def execStillWriteContinue (s : State) : Out :=
  s.takeWith .stillWriteContinue stillWrite? fun q x s => s.stillWrite q x fun r s => s.continueFill q r x

/-! ### STILL_CLEAR (R113) -/

/-- The slots of a page. -/
def pageSlots (page : Nat) : List StillRef :=
  allChains.flatMap fun c => addresses.map fun a => { page := page, chain := c, address := a }

/-- A slot holds something to empty. -/
def StillSlot.isEmpty : StillSlot → Bool
  | .empty => true
  | .filling _ _ => false
  | .ready _ _ => false

/-- Slots cleared, unless one of them has its read mark (R113). -/
def State.clearStills (q : Request) (rs : List StillRef) (s : State) : State :=
  if rs.any fun r => (s.stills.slot r).marked then s.answer q .busy .empty
  else
    let emptied := (rs.filter fun r => !(s.stills.slot r).isEmpty).length
    let s := rs.foldl (fun s r => s.setStill r .empty) s
    s.answer q .ok (.stillClear emptied s.stills.unreserved)

/-- STILL_CLEAR with scope SLOT (R113). -/
def execStillClearSlot (s : State) : Out :=
  s.takeWith .stillClearSlot stillClearSlot? fun q r s => s.clearStills q [r]

/-- STILL_CLEAR with scope PAGE (R113). -/
def execStillClearPage (s : State) : Out :=
  s.takeWith .stillClearPage stillClearPage? fun q p s => s.clearStills q (pageSlots p)

/-! ### Reads for emission (R112) -/

/-- A read request taken for a tile (R112, R97, R100). -/
def State.takeStillRead (c : ChainId) (a brightness page : Nat) (gapFill : Bool) (s : State) : State :=
  let r : StillRef := { page := page, chain := c, address := a }
  match s.stills.slot r with
  | .ready data _ =>
      ({ s with stills := { s.stills.setSlot r (.ready data true) with reads := s.stills.reads ++ [r] } }).updBundle c
        fun b => { b with wait := .stillRead a brightness page }
  | .empty | .filling _ _ =>
      if gapFill then
        State.fallBack c brightness
          (s.askHeld c { address := a, brightness := brightness, gap := .still, fallback := none } .gapHeld)
      else State.fallBack c brightness (s.countAsm .stillEmpty c, none)

/-- STILL_READ_REQUEST (R112). -/
def execStillReadRequest (c : ChainId) (s : State) : Out :=
  match (s.asm.get c).bundle with
  | some b =>
      match b.wait with
      | .stillAsk a brightness page gapFill => done (s.takeStillRead c a brightness page gapFill)
      | .memRead _ _ _ _ _ _ => notDue s
      | .stillRead _ _ _ => notDue s
      | .token => notDue s
  | none => notDue s

/-- The bytes of a READY slot. -/
def StillSlot.data : StillSlot → List Byte
  | .empty => []
  | .filling _ _ => []
  | .ready data _ => data

/-- A read served: its mark removed (R112). -/
def State.endStillRead (r : StillRef) (rest : List StillRef) (s : State) : State :=
  let st := { s.stills with reads := rest }
  { s with stills :=
      match s.stills.slot r with
      | .ready data _ => st.setSlot r (.ready data false)
      | .empty => st
      | .filling _ _ => st }

/-- STILL_READ_COMPLETE (R112). -/
def execStillReadComplete (s : State) : Out :=
  match s.stills.reads with
  | [] => notDue s
  | r :: rest =>
      let image := (s.stills.slot r).data
      let s := s.endStillRead r rest
      match (s.asm.get r.chain).bundle with
      | some b =>
          if b.stopping then done (s.finishStop r.chain)
          else
            match b.wait with
            | .stillRead _ brightness _ => done (s.sendImage r.chain brightness image)
            | .stillAsk _ _ _ _ => done s
            | .memRead _ _ _ _ _ _ => done s
            | .token => done s
      | none => done s

end Sys2Proof.Machine
end

