-- ==== Sys2Proof/Machine/Dispatch.lean ====
section
/-! DEFINITION. One arm for each command: a direct call of its meaning. -/

namespace Sys2Proof.Machine

def exec (i : Instr) (s : State) : Host.Outcome State Fault Refusal :=
  match i with
  | .pinReset moment => Sys2Proof.Machine.execPinReset moment s
  | .refEdge x moment both => Sys2Proof.Machine.execRefEdge x moment both s
  | .absenceWatchExpiry x => Sys2Proof.Machine.execAbsenceWatchExpiry x s
  | .holdoverTimerExpiry => Sys2Proof.Machine.execHoldoverTimerExpiry s
  | .chainManagerTick c => Sys2Proof.Machine.execChainManagerTick c s
  | .returnDeadline c => Sys2Proof.Machine.execReturnDeadline c s
  | .returnItemReceived c item => Sys2Proof.Machine.execReturnItemReceived c item s
  | .segmentStart => Sys2Proof.Machine.execSegmentStart s
  | .segmentHeader chain address frame length => Sys2Proof.Machine.execSegmentHeader chain address frame length s
  | .segmentEnd payload crc => Sys2Proof.Machine.execSegmentEnd payload crc s
  | .segmentStallExpiry => Sys2Proof.Machine.execSegmentStallExpiry s
  | .segmentIntakeTick => Sys2Proof.Machine.execSegmentIntakeTick s
  | .storeComplete => Sys2Proof.Machine.execStoreComplete s
  | .bufferPoolTick => Sys2Proof.Machine.execBufferPoolTick s
  | .scrubTestComplete matched => Sys2Proof.Machine.execScrubTestComplete matched s
  | .frameOrder c => Sys2Proof.Machine.execFrameOrder c s
  | .emissionReadComplete matched nextFirst => Sys2Proof.Machine.execEmissionReadComplete matched nextFirst s
  | .stillReadRequest c => Sys2Proof.Machine.execStillReadRequest c s
  | .stillReadComplete => Sys2Proof.Machine.execStillReadComplete s
  | .returnTokenSent c => Sys2Proof.Machine.execReturnTokenSent c s
  | .faultedNotice c => Sys2Proof.Machine.execFaultedNotice c s
  | .sceneTableTick => Sys2Proof.Machine.execSceneTableTick s
  | .fadeComplete c address p => Sys2Proof.Machine.execFadeComplete c address p s
  | .glideEnd c address p => Sys2Proof.Machine.execGlideEnd c address p s
  | .clampNotice c => Sys2Proof.Machine.execClampNotice c s
  | .haltNotice => Sys2Proof.Machine.execHaltNotice s
  | .sceneWrite => Sys2Proof.Machine.execSceneWrite s
  | .tallyTick levels => Sys2Proof.Machine.execTallyTick levels s
  | .tallyBatch => Sys2Proof.Machine.execTallyBatch s
  | .runnersTick order => Sys2Proof.Machine.execRunnersTick order s
  | .waitExpiry r => Sys2Proof.Machine.execWaitExpiry r s
  | .expectExpiry r => Sys2Proof.Machine.execExpectExpiry r s
  | .confirmFirstExpiry r => Sys2Proof.Machine.execConfirmFirstExpiry r s
  | .confirmSecondExpiry r => Sys2Proof.Machine.execConfirmSecondExpiry r s
  | .completeReturnNotice c order => Sys2Proof.Machine.execCompleteReturnNotice c order s
  | .nodeLostNotice c order => Sys2Proof.Machine.execNodeLostNotice c order s
  | .roomNotice turn => Sys2Proof.Machine.execRoomNotice turn s
  | .evictionNotice c => Sys2Proof.Machine.execEvictionNotice c s
  | .controlLinkTick => Sys2Proof.Machine.execControlLinkTick s
  | .frameReportDue => Sys2Proof.Machine.execFrameReportDue s
  | .linkStallExpiry => Sys2Proof.Machine.execLinkStallExpiry s
  | .controlFrame last => Sys2Proof.Machine.execControlFrame last s
  | .unknownRequest => Sys2Proof.Machine.execUnknownRequest s
  | .transmitDone moment => Sys2Proof.Machine.execTransmitDone moment s
  | .statusReference => Sys2Proof.Machine.execStatusReference s
  | .statusChain => Sys2Proof.Machine.execStatusChain s
  | .statusIntake => Sys2Proof.Machine.execStatusIntake s
  | .statusPool => Sys2Proof.Machine.execStatusPool s
  | .statusStills => Sys2Proof.Machine.execStatusStills s
  | .statusScene => Sys2Proof.Machine.execStatusScene s
  | .statusGroups => Sys2Proof.Machine.execStatusGroups s
  | .statusTally => Sys2Proof.Machine.execStatusTally s
  | .statusRunners => Sys2Proof.Machine.execStatusRunners s
  | .statusLink => Sys2Proof.Machine.execStatusLink s
  | .refSet moment => Sys2Proof.Machine.execRefSet moment s
  | .frameSet => Sys2Proof.Machine.execFrameSet s
  | .chainSetEnable => Sys2Proof.Machine.execChainSetEnable s
  | .chainSetDisable => Sys2Proof.Machine.execChainSetDisable s
  | .chainRewalk => Sys2Proof.Machine.execChainRewalk s
  | .nodeGet => Sys2Proof.Machine.execNodeGet s
  | .nodeSet => Sys2Proof.Machine.execNodeSet s
  | .nodeCommandConfigure => Sys2Proof.Machine.execNodeCommandConfigure s
  | .nodeCommandEnable => Sys2Proof.Machine.execNodeCommandEnable s
  | .nodeReinstate => Sys2Proof.Machine.execNodeReinstate s
  | .segSet => Sys2Proof.Machine.execSegSet s
  | .flowClear => Sys2Proof.Machine.execFlowClear s
  | .poolScrub => Sys2Proof.Machine.execPoolScrub s
  | .stillWriteBegin => Sys2Proof.Machine.execStillWriteBegin s
  | .stillWriteContinue => Sys2Proof.Machine.execStillWriteContinue s
  | .stillClearSlot => Sys2Proof.Machine.execStillClearSlot s
  | .stillClearPage => Sys2Proof.Machine.execStillClearPage s
  | .lookSet => Sys2Proof.Machine.execLookSet s
  | .groupSet => Sys2Proof.Machine.execGroupSet s
  | .tallyRuleSet => Sys2Proof.Machine.execTallyRuleSet s
  | .tallyMask => Sys2Proof.Machine.execTallyMask s
  | .cueLoad => Sys2Proof.Machine.execCueLoad s
  | .cueRead => Sys2Proof.Machine.execCueRead s
  | .runnerArm => Sys2Proof.Machine.execRunnerArm s
  | .runnerGo => Sys2Proof.Machine.execRunnerGo s
  | .runnerHalt => Sys2Proof.Machine.execRunnerHalt s
  | .runnerConfirm => Sys2Proof.Machine.execRunnerConfirm s
  | .runnerResume => Sys2Proof.Machine.execRunnerResume s
  | .runnerClear => Sys2Proof.Machine.execRunnerClear s
  | .reportSet => Sys2Proof.Machine.execReportSet s
  | .faultGet => Sys2Proof.Machine.execFaultGet s
  | .faultClear => Sys2Proof.Machine.execFaultClear s
  | .reset => Sys2Proof.Machine.execReset s
  | .incomingByte b rate => Sys2Proof.Machine.execIncomingByte b rate s
  | .flowMessageEnd => Sys2Proof.Machine.execFlowMessageEnd s

end Sys2Proof.Machine
end

