-- ==== Sys2Proof/Machine/Step.lean ====
section
/-! DEFINITION. One step: the command at the front of the queue is taken and executed. -/

namespace Sys2Proof.Machine

/-- Take the command at the front of the queue and execute it on the part with the rest of the queue; with no command
waiting the part idles (log 2). -/
def step (s : State) : Host.Outcome State Fault Refusal :=
  match s.pending with
  | [] => .next s
  | c :: rest => exec c { s with pending := rest }

/-- A command put at the front of the queue. -/
def State.withCommand (s : State) (c : Instr) : State := { s with pending := c :: s.pending }

/-- The command a word spells put at the front of the queue; the state unchanged where it spells none. -/
def State.withFetchWord (s : State) (nbits w : Nat) : State :=
  match decodeTableWord nbits w with
  | some c => s.withCommand c
  | none => s

end Sys2Proof.Machine
end

