-- ==== Sys2Proof/Safety.lean ====
section
/-! DEFINITION. What counts as a safe state of the part: a step goes on, and the bounds and orders that the manual states
for the tables, queues and records of each block. -/

namespace Sys2Proof.Machine

/-- A step that goes on. -/
def goesOn (s : State) : Prop := ∃ t, step s = .next t

/-- The holdover timer runs while the tick source is HOLDOVER or FREE_RUN and is stopped while it is locked (R10). -/
def RefUnit.wf (r : RefUnit) : Prop :=
  match r.source with
  | .locked _ => r.timer = none
  | .holdover => r.timer.isSome = true
  | .freeRun => r.timer.isSome = true

/-- A command queue in order: the repair commands ahead of the configuration commands (R28). -/
def inClassOrder (q : List QEntry) : Prop := q.Pairwise fun x y => y.cmd.isRepair = true → x.cmd.isRepair = true

/-- A SET_END names a hop, and hops count from 1 (R25, R42). -/
def Cmd.namesHop : Cmd → Prop
  | .setEnd h _ => h ≠ 0
  | .route _ _ => True
  | .configure _ _ _ => True
  | .enable _ => True

/-- A command queue: at most sixteen commands, in class order (R28). -/
def queueWf (q : List QEntry) : Prop := q.length ≤ queueSize ∧ inClassOrder q ∧ ∀ x ∈ q, x.cmd.namesHop

/-- A chain record: thirty node records (R22), its command queue, and an END hop and a probe hop that count from 1 where
they are present (R25). -/
def Chain.wf (ch : Chain) : Prop :=
  ch.nodes.length = 30 ∧ queueWf ch.queue ∧ ch.endHop ≠ some 0 ∧ ch.probeHop ≠ some 0

/-- A chain's share of the Frame Assembler: a held reference, or none, for each of thirty addresses (R89). -/
def AsmChain.wf (m : AsmChain) : Prop := m.held.length = 30

/-- A still slot: a fill holds fewer bytes than its total, a still 1 to 4096 (R107). -/
def StillSlot.wf : StillSlot → Prop
  | .empty => True
  | .filling total data => data.length < total ∧ total ≤ 4096
  | .ready data _ => 1 ≤ data.length ∧ data.length ≤ 4096

/-- The Stills Store: 480 slots, and the reserved count within the still memory (R107, R108). -/
def Stills.wf (st : Stills) : Prop :=
  st.slots.length = 480 ∧ (∀ x ∈ st.slots, x.wf) ∧ st.reserved ≤ stillMemorySize

/-- The Scene Table: 120 entries (R116), sixteen groups of at most 32 references with none twice (R131), sixteen claim
records (R139). -/
def Scene.wf (sc : Scene) : Prop :=
  sc.entries.length = 120 ∧ sc.groups.length = 16 ∧ (∀ g ∈ sc.groups, g.length ≤ 32 ∧ g.Nodup) ∧ sc.claims.length = 16

/-- The Tally Unit: sixteen rules (R136), and every masked line sampled off and latched off (R134, R135). -/
def Tally.wf (t : Tally) : Prop := t.rules.length = 16 ∧ t.sample &&& t.mask = 0 ∧ t.latched &&& t.mask = 0

/-- The Cue Store: eight slots, a LOADED one of 1 to 32 steps (R146). -/
def Cues.wf (q : Cues) : Prop :=
  q.slots.length = 8 ∧ ∀ l, some l ∈ q.slots → 1 ≤ l.length ∧ l.length ≤ slotSize

/-- Replies of the refusal place that have not left (R178). -/
def Link.refusals (l : Link) : Nat :=
  l.ready.countP (fun r => r.refusal) +
    (match l.tx with
      | some (.reply r) => if r.refusal then 1 else 0
      | some (.report _) => 0
      | none => 0)

/-- The Control Link with `spare` request places free at least: at most 32 reports queued (R182), four request places and
one refusal place (R178), and a fault captured exactly when the fault count is above zero (R186). -/
def Link.wfWith (spare : Nat) (l : Link) : Prop :=
  l.reports.length ≤ reportQueueSize ∧ l.placesHeld + spare ≤ placeCount ∧ l.refusals ≤ 1 ∧
    (l.captured.isSome = true ↔ 0 < l.faultCount)

/-- The Control Link within its bounds. -/
abbrev Link.wf (l : Link) : Prop := l.wfWith 0

/-- Request `q` is the oldest that waits in a request place, it is one that the command of row `row` takes, and no RESET
has been taken: the command's event (R178, R179, R190). `rest` are the requests behind it. -/
def Waits (row : ReqRow) (q : Request) (rest : List Request) (s : State) : Prop :=
  s.link.waiting = q :: rest ∧ s.link.resetting = false ∧ q.row = row

/-- The part with a request taken: `rest` are the requests that still wait. -/
def State.taken (rest : List Request) (s : State) : State := { s with link := { s.link with waiting := rest } }

/-- The end of every command: the transmitter, if it is free and the rate is known, begins its next frame (R182, log 11). -/
def State.ended (s : State) : State := { s with link := s.link.pump }

/-- The reply to `q` becomes ready (R180), and the command ends. -/
def State.replied (q : Request) (code : ReplyCode) (body : ReplyBody) (s : State) : State :=
  (s.answer q code body).ended

/-- A chain record replaced. -/
def State.setChain (c : ChainId) (ch : Chain) (s : State) : State := { s with chains := s.chains.set c ch }

/-- A chain's share of the Frame Assembler replaced. -/
def State.setAsm (c : ChainId) (m : AsmChain) (s : State) : State := { s with asm := s.asm.set c m }

/-- The Segment Intake replaced. -/
def State.setIntake (x : Intake) (s : State) : State := { s with intake := x }

/-- The Buffer Pool replaced. -/
def State.setPool (p : Pool) (s : State) : State := { s with pool := p }

/-- The messages on their way replaced. -/
def State.setMail (m : Mail) (s : State) : State := { s with mail := m }

/-- The Control Link replaced. -/
def State.setLink (l : Link) (s : State) : State := { s with link := l }

/-- A frame order handed to the Frame Assembler. -/
def Mail.giveOrder (c : ChainId) (o : FrameOrder) (m : Mail) : Mail :=
  { m with orders := m.orders.set c (m.orders.get c ++ [.order o]) }

/-- A notice handed to the Runners. -/
def Mail.giveNotice (c : ChainId) (n : RunnerMsg) (m : Mail) : Mail :=
  { m with notices := m.notices.set c (m.notices.get c ++ [n]) }

/-- The ticks waiting at a Chain Manager replaced. -/
def Mail.chainTicks (c : ChainId) (l : List Word16) (m : Mail) : Mail :=
  { m with ticks := { m.ticks with chains := m.ticks.chains.set c l } }

end Sys2Proof.Machine
end

