-- ==== Sys2Proof/Certificates/Slice0/Obligations.lean ====
section
/-! DEFINITION. The statements for the provers. Rule numbers are those of spec/. An equation with the next state states
both what a command does and that it leaves everything else as it was. The bytes of request fields are read by the functions
of Operands.lean, whose codings are the model's where R194 leaves them open (log 10). -/

open Sys2Proof Sys2Proof.Machine

/-! ### The queue of commands, and resets -/

/-- A step takes the command at the front of the queue and executes it on the part with the rest of the queue; with no command
waiting the part idles (the idling is the model's choice, log 2). -/
def Obligations.StepRunsTheFrontCommand : Prop :=
  (∀ (c : Instr) (rest : List Instr) (s : State),
    step { s with pending := c :: rest } = exec c { s with pending := rest }) ∧
  (∀ s : State, s.pending = [] → step s = .next s)

/-- Every command answers a next state in every state, and none changes the queue of commands. The model's own: a command
whose event has not arisen answers the state unchanged (log 1), and the resets keep the queue of commands (log 5). -/
def Obligations.EveryCommandGoesOn : Prop :=
  ∀ (i : Instr) (s : State), ∃ t, exec i s = .next t ∧ t.pending = s.pending

/-- PIN_RESET gives every block its reset values, with HELLO cause PIN and no learned rate (R191). RESET (R190, R191): the reply
becomes ready, the bytes already received are discarded, and no request is taken or placed any more; only replies are sent;
the values change when the last byte of the RESET reply has left, and the learned rate is kept. The model's own: moments go on
from the latest one seen (log 4), the world's commands stay (log 5), the segment memory lists no byte after a reset (log 8),
the last path and the carriers are empty (log 19), and the messages on their way are gone (log 31). -/
def Obligations.ResetsGiveResetValues : Prop :=
  (∀ (m : Nat) (s : State),
    exec (.pinReset m) s = .next { State.resetAt (max s.ref.now m) .pin none with pending := s.pending }) ∧
  ((∀ (q : Request) (rest : List Request) (s : State), Waits .reset q rest s → q.body = [] →
    exec .reset s = .next
      ((s.setLink { s.link with waiting := rest, resetting := true, receiver := .hunting }).replied q .ok .empty)) ∧
  (∀ (s : State) (row : ReqRow) (take : Request → State → State), s.link.resetting = true →
    s.takeRequest row take = .next s) ∧
  (∀ (s : State) (q : Request), s.link.resetting = true → s.placeRequest q = s) ∧
  (∀ l : Link, l.resetting = true → l.ready = [] → l.pump = l) ∧
  (∀ (m : Nat) (s : State) (r : Reply), s.link.tx = some (.reply r) → r.kind = 0x1E → r.code = .ok →
    r.refusal = false →
    exec (.transmitDone m) s = .next
      ({ State.resetAt (max s.ref.now m) .request s.link.rate with pending := s.pending } : State).ended))

/-- The values of every block after a reset: the Reference Unit and the chains (R18, R40, R65); the Segment Intake, the
Buffer Pool, the Frame Assembler and the Stills Store (R87, R106, R114), with all 512 buffers free in number order, one
RESUME on its way, T 64 and P 2; the Scene Table, the Tally Unit, the Cue Store and Runners, and the Control Link (R133, R145,
R174, R185, R191). -/
def Obligations.ResetValuesOfTheBlocks : Prop :=
  (∀ (m : Nat) (k : ResetCause) (rate : Option Nat),
    let s := State.resetAt m k rate
    s.ref.mode = .autoA ∧ s.ref.rate = .r50 ∧ s.ref.source = .freeRun ∧ s.ref.counter = 0 ∧ s.ref.pendingFrame = none ∧
    s.ref.switch = none ∧ s.ref.lastTick = none ∧ s.ref.timer = some (m + 240000) ∧
    (∀ x, s.ref.input x = { state := .absent, run := 0, lastEdge := none }) ∧
    ∀ c, (s.chains.get c).state = .off ∧ (s.chains.get c).pendingDisable = false ∧ (s.chains.get c).attempt = none ∧
      (s.chains.get c).endHop = none ∧ (s.chains.get c).probeHop = none ∧ (s.chains.get c).breakCount = 0 ∧
      (s.chains.get c).silentLimit = 3 ∧ (s.chains.get c).breakLimit = 3 ∧ (s.chains.get c).lookGen = 0 ∧
      (s.chains.get c).portRoute = .normal ∧ (s.chains.get c).queue = [] ∧ (s.chains.get c).claims = [] ∧
      (∀ a, (s.chains.get c).node a = none) ∧ (s.chains.get c).collect = none ∧ (s.chains.get c).brokenFrom = none ∧
      (s.chains.get c).stranger = none ∧
      (s.chains.get c).counters = { sent := 0, discarded := 0, dropped := 0, complete := 0, missing := 0,
                                    returnCheck := 0, blockRange := 0 }) ∧
  (∀ (m : Nat) (k : ResetCause) (rate : Option Nat),
    let s := State.resetAt m k rate
    s.intake.e0 = .free ∧ s.intake.e1 = .free ∧ s.intake.hold = false ∧ s.intake.total = .zero ∧
    s.intake.since = .zero ∧ s.intake.clearWaiting = false ∧
    s.pool.free.map (fun f => f.buffer) = List.range 512 ∧ s.pool.freeCount = 512 ∧ s.pool.quarantine = [] ∧
    s.pool.scrub = none ∧ s.pool.pause = false ∧ s.pool.exhausted = false ∧ s.pool.threshold = 64 ∧
    s.pool.pauseLen = 2 ∧ s.pool.busy = none ∧ s.pool.reads = [] ∧ s.pool.stores = [] ∧ s.pool.testWaiting = false ∧
    s.pool.flowOut = [.resume 0] ∧
    (∀ c, (s.asm.get c).slots = [] ∧ (∀ a, (s.asm.get c).heldAt a = none) ∧ (s.asm.get c).bundle = none ∧
      (s.asm.get c).waiting = [] ∧ (s.asm.get c).clearDue = false ∧ (s.asm.get c).posts = [.reset]) ∧
    (∀ r, s.stills.slot r = .empty) ∧ s.stills.reads = [] ∧ s.stills.reserved = 0 ∧ s.stills.unreserved = 1048576) ∧
  (∀ (m : Nat) (k : ResetCause) (rate : Option Nat),
    let s := State.resetAt m k rate
    (∀ r, s.scene.entry r =
      { source := { base := .black, owner := .none },
        brightness := { base := 1000, owner := .none, fade := none, drive := none, glide := none },
        intensity := { base := 0, owner := .none, fade := none, drive := none, glide := none },
        preset := { base := 0, owner := .none, drive := none }, clamp := 600, overheat := false }) ∧
    s.scene.groups = List.replicate 16 [] ∧ (∀ c, s.scene.previous.get c = .reset) ∧ (∀ j, s.scene.claim j = none) ∧
    s.tally.sample = 0 ∧ s.tally.latched = 0 ∧ s.tally.mask = 0 ∧
    s.tally.rules = List.replicate 16
      { enabled := false, line := 0, sense := .on, target := .group 0, param := .intensity, value := 0, attack := 0,
        release := 0 } ∧
    (∀ j, s.steps j = none) ∧ (∀ r, s.runner r = { state := .idle, slot := none, step := none }) ∧
    s.link.receiver = .hunting ∧ s.link.rate = rate ∧ s.link.placesHeld = 0 ∧ s.link.refusalHeld = false ∧
    s.link.ready = [] ∧ s.link.reports = [{ seq := 0, frame := 0, body := .hello k rate }] ∧ s.link.lost = 0 ∧
    s.link.mask = 0xFF ∧ s.link.period = 25 ∧ s.link.tickCount = 0 ∧ s.link.captured = none ∧ s.link.faultCount = 0)

/-! ### Chapter 1 -/

/-- An edge is taken by its own input's record (R2, R15): the next record by the state found and the interval. The other
input and every block but the Reference Unit, the Control Link and the ticks on their way are unchanged. The model's own:
moments never go back (log 4). -/
def Obligations.EdgeIsTakenByItsInput : Prop :=
  ∀ (x : RefInput) (m : Nat) (s : State),
    let at_ := max s.ref.now m
    let i := s.ref.input x
    let within (t : Nat) : Prop := 995 * s.ref.period ≤ 1000 * (at_ - t) ∧ 1000 * (at_ - t) ≤ 1005 * s.ref.period
    let fresh : InputRec := { state := .unstable, run := 1, lastEdge := some at_ }
    ∃ u, exec (.refEdge x m false) s = .next u ∧
      u.ref.input (otherInput x) = s.ref.input (otherInput x) ∧
      (i.state = .absent → u.ref.input x = fresh) ∧
      (∀ t, i.state = .unstable → i.lastEdge = some t → i.run ≠ 0 → within t →
        u.ref.input x = { state := if 8 ≤ i.run + 1 then .good else .unstable, run := i.run + 1, lastEdge := some at_ }) ∧
      (∀ t, i.state = .unstable → i.lastEdge = some t → (i.run = 0 ∨ ¬ within t) → u.ref.input x = fresh) ∧
      (∀ t, i.state = .good → i.lastEdge = some t → within t → u.ref.input x = { i with lastEdge := some at_ }) ∧
      (∀ t, i.state = .good → i.lastEdge = some t → ¬ within t → u.ref.input x = fresh) ∧
      u.chains = s.chains ∧ u.intake = s.intake ∧ u.pool = s.pool ∧ u.asm = s.asm ∧ u.stills = s.stills ∧
      u.scene = s.scene ∧ u.tally = s.tally ∧ u.cues = s.cues ∧ u.mail = { s.mail with ticks := u.mail.ticks }

/-- Edges that lock the unit, tick it or lose it (R2, R6 to R9, R16): the eighth edge of an input that comes first among the
GOOD inputs of the mode locks it in HOLDOVER or FREE_RUN; an edge of a GOOD input with a switch pending to it completes the
switch; an edge of the locked input is a candidate tick. An edge out of tolerance of a GOOD input is no tick: it clears a
switch pending to that input; of the locked input it is a loss, with REF_LOST, and the unit fails over to the other input, if
the mode allows it and it is GOOD, or enters HOLDOVER with its timer started and REF_HOLDOVER raised. The input's REF report
goes out ahead of the source's. Of two edges taken together both records take theirs before the tick source is looked at, so
that with both inputs at their eighth edge the unit locks to the one that the mode prefers, whichever is named first. The
model's own: moments never go back (log 4), a SOURCE report shows the frame counter as it stood before the candidate tick of
the edge that moved the source (log 12), how two edges are taken together (log 33), and an input's report shows the tick source
from before a move that the same edge makes (log 46). -/
def Obligations.EdgesMoveTheSource : Prop :=
  let shown (r : RefUnit) (cause : RefCause) : ReportBody :=
    .ref cause r.mode r.rate r.a.state r.b.state r.source r.counter
  let cause (x : RefInput) : RefCause := if x = .a then .inputA else .inputB
  (∀ (x : RefInput) (m t : Nat) (s : State),
    let at_ := max s.ref.now m
    (s.ref.input x).lastEdge = some t → 995 * s.ref.period ≤ 1000 * (at_ - t) →
    1000 * (at_ - t) ≤ 1005 * s.ref.period →
    ((s.ref.input x).state = .unstable → (s.ref.input x).run = 7 →
      (s.ref.source = .holdover ∨ s.ref.source = .freeRun) →
      s.ref.mode.list.find? (fun y => decide (y = x ∨ (s.ref.input y).state = .good)) = some x →
      let good : RefUnit := { s.ref.setInput x { state := .good, run := 8, lastEdge := some at_ } with now := at_ }
      let locked : RefUnit := { good with source := .locked x, timer := none, switch := none }
      ∃ u, exec (.refEdge x m false) s = .next u ∧ u.ref.source = .locked x ∧ u.ref.timer = none ∧
        u.ref.switch = none ∧
        u = (((({ (({ s with ref := good } : State).report (shown good (cause x))) with ref := locked } : State).report
              (shown locked .source)).candidate at_).ended)) ∧
    ((s.ref.input x).state = .good → s.ref.switch = some x →
      let locked : RefUnit :=
        { s.ref.setInput x { s.ref.input x with lastEdge := some at_ } with
          now := at_, source := .locked x, timer := none, switch := none }
      ∃ u, exec (.refEdge x m false) s = .next u ∧ u.ref.source = .locked x ∧ u.ref.timer = none ∧
        u.ref.switch = none ∧
        u = ((({ s with ref := locked } : State).report (shown locked .source)).candidate at_).ended) ∧
    ((s.ref.input x).state = .good → s.ref.switch ≠ some x → s.ref.source = .locked x →
      exec (.refEdge x m false) s = .next ((s.takeEdge x at_).candidate at_).ended)) ∧
  (∀ (x : RefInput) (m t : Nat) (s : State),
    let at_ := max s.ref.now m
    let y := otherInput x
    (s.ref.input x).state = .good → (s.ref.input x).lastEdge = some t →
    (1000 * (at_ - t) < 995 * s.ref.period ∨ 1005 * s.ref.period < 1000 * (at_ - t)) →
    let left : RefUnit := { s.ref.setInput x { state := .unstable, run := 1, lastEdge := some at_ } with now := at_ }
    let reported : State := ({ s with ref := left } : State).report (shown left (cause x))
    let lost : State := reported.raise (.refLost x .unstable) .reference none
    (s.ref.source ≠ .locked x →
      let kept : RefUnit := { left with switch := if s.ref.switch = some x then none else s.ref.switch }
      exec (.refEdge x m false) s = .next ({ reported with ref := kept } : State).ended) ∧
    (s.ref.source = .locked x → y ∈ s.ref.mode.list → (s.ref.input y).state = .good →
      let moved : RefUnit := { left with source := .locked y, switch := none }
      exec (.refEdge x m false) s = .next
        (({ lost with ref := moved } : State).report (shown moved .source)).ended) ∧
    (s.ref.source = .locked x → ¬ (y ∈ s.ref.mode.list ∧ (s.ref.input y).state = .good) →
      let held : RefUnit :=
        { left with source := .holdover, switch := none,
                    timer := some (max at_ (s.ref.lastTick.getD s.ref.resetEnd + s.ref.period)) }
      exec (.refEdge x m false) s = .next
        ((({ lost with ref := held } : State).report (shown held .source)).raise (.refHoldover (.locked x)) .reference
          none).ended)) ∧
  (∀ (x p : RefInput) (m ta tb : Nat) (s : State),
    let at_ := max s.ref.now m
    (s.ref.source = .holdover ∨ s.ref.source = .freeRun) → s.ref.mode.list.head? = some p →
    s.ref.a = { state := .unstable, run := 7, lastEdge := some ta } →
    s.ref.b = { state := .unstable, run := 7, lastEdge := some tb } →
    995 * s.ref.period ≤ 1000 * (at_ - ta) → 1000 * (at_ - ta) ≤ 1005 * s.ref.period →
    995 * s.ref.period ≤ 1000 * (at_ - tb) → 1000 * (at_ - tb) ≤ 1005 * s.ref.period →
    ∃ u, exec (.refEdge x m true) s = .next u ∧ u.ref.source = .locked p ∧
      (u.ref.input x).state = .good ∧ (u.ref.input (otherInput x)).state = .good)

/-- ABSENCE_WATCH_EXPIRY (R3, R7): the input becomes ABSENT; when the unit was locked to it and it was GOOD, REF_LOST is
raised and the unit fails over to the other input, if the mode allows it and it is GOOD, or enters HOLDOVER with its timer
started and REF_HOLDOVER raised; otherwise the source is unchanged. No tick is delivered. An ABSENT input has no watch. The
model's own: moments never go back (log 4), and without a watch the command does nothing (log 1). -/
def Obligations.AbsenceExpiryLosesTheInput : Prop :=
  (∀ (x : RefInput) (t : Nat) (s : State), (s.ref.input x).state ≠ .absent → (s.ref.input x).lastEdge = some t →
    let at_ := max s.ref.now (t + 3 * s.ref.period / 2)
    let y := otherInput x
    ∃ u, exec (.absenceWatchExpiry x) s = .next u ∧
      u.ref.input x = { state := .absent, run := 0, lastEdge := none } ∧ u.ref.input y = s.ref.input y ∧
      u.ref.counter = s.ref.counter ∧ u.mail = s.mail ∧
      (s.ref.source = .locked x → (s.ref.input x).state = .good → y ∈ s.ref.mode.list → (s.ref.input y).state = .good →
        u.ref.source = .locked y ∧ u.link.faultCount = bump16 s.link.faultCount) ∧
      (s.ref.source = .locked x → (s.ref.input x).state = .good →
        ¬ (y ∈ s.ref.mode.list ∧ (s.ref.input y).state = .good) →
        u.ref.source = .holdover ∧ u.ref.timer = some (max at_ (s.ref.lastTick.getD s.ref.resetEnd + s.ref.period)) ∧
          u.link.faultCount = bump16 (bump16 s.link.faultCount)) ∧
      (¬ (s.ref.source = .locked x ∧ (s.ref.input x).state = .good) →
        u.ref.source = s.ref.source ∧ u.link.faultCount = s.link.faultCount)) ∧
  (∀ (x : RefInput) (s : State), (s.ref.input x).state = .absent → exec (.absenceWatchExpiry x) s = .next s)

/-- HOLDOVER_TIMER_EXPIRY (R10 to R12): the next expiry is one nominal period later; the candidate is suppressed within half
a period of the last delivered tick, or delivered: the counter takes the pending value or the next one, and every block that
counts frames is handed the tick. A stopped timer does not expire. The model's own: moments never go back (log 4), and with
the timer stopped the command does nothing (log 1). -/
def Obligations.HoldoverTimerTicks : Prop :=
  (∀ (t : Nat) (s : State), s.ref.timer = some t →
    let at_ := max s.ref.now t
    let r : RefUnit := { s.ref with timer := some (t + s.ref.period), now := at_ }
    (∀ d, s.ref.lastTick = some d → 2 * (at_ - d) < s.ref.period →
      exec .holdoverTimerExpiry s = .next ({ s with ref := r } : State).ended) ∧
    ((∀ d, s.ref.lastTick = some d → s.ref.period ≤ 2 * (at_ - d)) →
      let n := s.ref.pendingFrame.getD (s.ref.counter + 1)
      exec .holdoverTimerExpiry s = .next
        ({ s with ref := { r with counter := n, pendingFrame := none, lastTick := some at_ },
                  mail := { s.mail with ticks := s.mail.ticks.deliver n } } : State).ended)) ∧
  (∀ s : State, s.ref.timer = none → exec .holdoverTimerExpiry s = .next s) ∧
  (∀ (n : Word16) (k : Ticks),
    (∀ c, (k.deliver n).chains.get c = k.chains.get c ++ [n]) ∧ (k.deliver n).intake = k.intake ++ [n] ∧
    (k.deliver n).pool = k.pool ++ [n] ∧ (k.deliver n).scene = k.scene ++ [n] ∧ (k.deliver n).tally = k.tally ++ [n] ∧
    (∀ r, (k.deliver n).runners.get r = k.runners.get r ++ [n]) ∧ (k.deliver n).link = k.link ++ [n])

/-- FRAME_SET (R13). -/
def Obligations.FrameSetNumbersTheNextTick : Prop :=
  (∀ (q : Request) (rest : List Request) (s : State) (h l : Byte), Waits .frameSet q rest s → q.body = [h, l] →
    exec .frameSet s = .next
      (({ s.taken rest with ref := { s.ref with pendingFrame := some (get16 h l) } } : State).replied q .ok .empty)) ∧
  (∀ (q : Request) (rest : List Request) (s : State), Waits .frameSet q rest s → q.body.length ≠ 2 →
    exec .frameSet s = .next ((s.taken rest).replied q .badArg .empty)) ∧
  (∀ (s : State) (m : Nat) (v : Word16), s.ref.pendingFrame = some v → s.ref.suppresses m = false →
    s.candidate m = { s with ref := { s.ref with counter := v, pendingFrame := none, lastTick := some m },
                             mail := { s.mail with ticks := s.mail.ticks.deliver v } }) ∧
  (∀ (s : State) (m : Nat), s.ref.suppresses m = true → s.candidate m = s)

/-- REF_SET (R14, R15): BUSY for another rate while a chain is not OFF; the mode is taken and the source reconsidered;
another rate makes every present input UNSTABLE with run count 0, so that no input is GOOD. -/
def Obligations.RefSetReconsidersTheSource : Prop :=
  ∀ (q : Request) (rest : List Request) (s : State) (m : Nat) (mode : RefMode) (rate : FrameRate),
    Waits .refSet q rest s → refSet? q.body = some (mode, rate) →
    (rate ≠ s.ref.rate → s.allChainsOff = false →
      exec (.refSet m) s = .next ((s.taken rest).replied q .busy .empty)) ∧
    (rate = s.ref.rate →
      ∃ u, exec (.refSet m) s = .next u ∧ u.ref.mode = mode ∧ u.ref.a = s.ref.a ∧ u.ref.b = s.ref.b ∧
        u.ref.counter = s.ref.counter ∧ u.mail = s.mail ∧
        (mode = .free → u.ref.source = .freeRun ∧ u.ref.switch = none) ∧
        (∀ x, mode ≠ .free → mode.list.find? (fun y => decide ((s.ref.input y).state = .good)) = some x →
          u.ref.source = s.ref.source ∧ u.ref.switch = if s.ref.source = .locked x then none else some x) ∧
        (mode ≠ .free → mode.list.find? (fun y => decide ((s.ref.input y).state = .good)) = none →
          u.ref.switch = none ∧
          ((∃ y, s.ref.source = .locked y) →
            u.ref.source = .holdover ∧ u.link.faultCount = bump16 s.link.faultCount) ∧
          ((¬ ∃ y, s.ref.source = .locked y) →
            u.ref.source = s.ref.source ∧ u.link.faultCount = s.link.faultCount))) ∧
    (rate ≠ s.ref.rate → s.allChainsOff = true →
      ∃ u, exec (.refSet m) s = .next u ∧ u.ref.mode = mode ∧ u.ref.rate = rate ∧ u.ref.counter = s.ref.counter ∧
        u.mail = s.mail ∧ u.ref.switch = none ∧
        (∀ x, (s.ref.input x).state = .absent → u.ref.input x = s.ref.input x) ∧
        (∀ x, (s.ref.input x).state ≠ .absent →
          u.ref.input x = { s.ref.input x with state := .unstable, run := 0 }) ∧
        (mode = .free → u.ref.source = .freeRun) ∧
        (mode ≠ .free → (∃ y, s.ref.source = .locked y) → u.ref.source = .holdover) ∧
        (mode ≠ .free → (¬ ∃ y, s.ref.source = .locked y) → u.ref.source = s.ref.source))

/-! ### Chapters 2 and 3 -/

/-- CHAIN_SET with ENABLE (R34): an OFF chain takes its limits and is prepared for walking; any other chain takes its
limits alone; with a pending disable it is BUSY. CHAIN_REWALK (R54): a RUNNING chain with no attempt becomes EXTENDING, its
probe one hop beyond END; any other chain refuses BUSY or STATE. The model's own: an absent END hop counts as 0 (log 30), and
while a SET_END waits the END hop is the one to which END comes, which with none waiting is the record's (log 52). -/
def Obligations.EnableAndRewalkStartWalks : Prop :=
  (∀ (q : Request) (rest : List Request) (s : State) (x : ChainSetArgs),
    Waits .chainSetEnable q rest s → chainSet? 0 q.body = some x →
    let ch := s.chains.get x.chain
    let limited : Chain := { ch with silentLimit := if x.silent = 0 then ch.silentLimit else x.silent,
                                     breakLimit := if x.brk = 0 then ch.breakLimit else x.brk }
    let walking : Chain := { limited with endHop := none, probeHop := some 1, breakCount := 0, portRoute := .normal,
                                          attempt := none, state := .walking }
    (ch.pendingDisable = true → exec .chainSetEnable s = .next ((s.taken rest).replied q .busy .empty)) ∧
    (ch.pendingDisable = false → ch.state ≠ .off →
      exec .chainSetEnable s = .next (((s.taken rest).setChain x.chain limited).replied q .ok .empty)) ∧
    (ch.pendingDisable = false → ch.state = .off →
      exec .chainSetEnable s = .next
        ((((s.taken rest).setChain x.chain walking).report
            (.chain .enabled x.chain .walking none ch.stateCounts)).replied q .ok .empty))) ∧
  (∀ (q : Request) (rest : List Request) (s : State) (c : ChainId),
    Waits .chainRewalk q rest s → chain? q.body = some c →
    let ch := s.chains.get c
    let extending : Chain := { ch with state := .extending, probeHop := some (ch.comingEnd.getD 0 + 1) }
    ((∀ x ∈ ch.queue, ∀ h on, x.cmd ≠ .setEnd h on) → ch.comingEnd = ch.endHop) ∧
    (ch.pendingDisable = true ∨ ch.state = .off ∨ ch.state = .faulted →
      exec .chainRewalk s = .next ((s.taken rest).replied q .state .empty)) ∧
    (ch.pendingDisable = false →
      (ch.state = .walking ∨ ch.state = .extending ∨ ch.state = .broken ∨ (ch.state = .running ∧ ch.attempt ≠ none)) →
      exec .chainRewalk s = .next ((s.taken rest).replied q .busy .empty)) ∧
    (ch.pendingDisable = false → ch.state = .running → ch.attempt = none →
      exec .chainRewalk s = .next
        ((((s.taken rest).setChain c extending).report
            (.chain .rewalk c .extending ch.endHop ch.stateCounts)).replied q .ok .empty)))

/-- CHAIN_SET with DISABLE (R36): on an OFF chain OK at once; otherwise the disable becomes pending and the reply is
withheld; with one pending already it is BUSY. The tick that carries it out: every record ABSENT, the queue and its claims
gone and counted as discarded, END, probe, attempt and break count cleared, the port route NORMAL, the chain OFF, a DISABLE
order handed on; limits, look generation, the other counters and a probe bundle in flight kept; the other chains unchanged;
the withheld reply ready. -/
def Obligations.ChainDisableWaitsForItsTick : Prop :=
  (∀ (q : Request) (rest : List Request) (s : State) (x : ChainSetArgs),
    Waits .chainSetDisable q rest s → chainSet? 1 q.body = some x →
    let ch := s.chains.get x.chain
    let d : Deferred := { kind := q.kind, tag := q.tag, what := .disable x.chain }
    (ch.pendingDisable = true → exec .chainSetDisable s = .next ((s.taken rest).replied q .busy .empty)) ∧
    (ch.pendingDisable = false → ch.state = .off →
      exec .chainSetDisable s = .next ((s.taken rest).replied q .ok .empty)) ∧
    (ch.pendingDisable = false → ch.state ≠ .off →
      exec .chainSetDisable s = .next
        ((s.setChain x.chain { ch with pendingDisable := true }).setLink
          { s.link with waiting := rest, deferred := s.link.deferred ++ [d] }).ended)) ∧
  (∀ (c : ChainId) (n : Word16) (ticks : List Word16) (s : State),
    s.mail.ticks.chains.get c = n :: ticks → (s.chains.get c).pendingDisable = true →
    let ch := s.chains.get c
    ∃ t, exec (.chainManagerTick c) s = .next t ∧
      (t.chains.get c).state = .off ∧ (t.chains.get c).pendingDisable = false ∧
      (∀ a, (t.chains.get c).node a = none) ∧ (t.chains.get c).queue = [] ∧ (t.chains.get c).claims = [] ∧
      (t.chains.get c).endHop = none ∧ (t.chains.get c).probeHop = none ∧ (t.chains.get c).attempt = none ∧
      (t.chains.get c).breakCount = 0 ∧ (t.chains.get c).portRoute = .normal ∧ (t.chains.get c).collect = none ∧
      (t.chains.get c).silentLimit = ch.silentLimit ∧ (t.chains.get c).breakLimit = ch.breakLimit ∧
      (t.chains.get c).lookGen = ch.lookGen ∧ (t.chains.get c).probes = ch.probes ∧
      (t.chains.get c).counters =
        { ch.counters with discarded := bump16By (ch.queue.length + ch.claims.length) ch.counters.discarded } ∧
      (∀ d, d ≠ c → t.chains.get d = s.chains.get d) ∧
      t.link = ((s.report (.chain .disabled c .off none
        { ident := 0, live := 0, suspect := 0, failed := 0, cut := 0 })).link.undefer (.disable c)).pump ∧
      t.mail.ticks.chains.get c = ticks ∧
      t.mail.orders.get c = s.mail.orders.get c ++ [.order { frame := n, kind := .disable }] ∧
      (∀ d, s.link.deferred.find? (fun d => decide (d.what = .disable c)) = some d →
        t.link.deferred = s.link.deferred.erase d ∧
        ({ kind := d.kind, tag := d.tag, code := .ok, body := .empty, refusal := false } ∈ t.link.ready ∨
          t.link.tx = some (.reply { kind := d.kind, tag := d.tag, code := .ok, body := .empty, refusal := false }))))

/-- The table effect of a command that leaves. A repair command, and two in one bundle (R33): the END hop, the record's
route, the port route; no other record changes and no hop changes by a ROUTE. A CONFIGURE or ENABLE (R32): a reachable record
becomes IDENT, or LIVE or SUSPECT by its silent count; any other record and any other field is kept; address 31 names every
record; of both in one bundle the later one decides. A record that became IDENT is no target of a segment, and its block is an
identity-poll. -/
def Obligations.DeparturesUpdateTheTable : Prop :=
  ((∀ (ch : Chain) (h : Nat), ch.depart (.setEnd h true) = { ch with endHop := some h }) ∧
  (∀ (ch : Chain) (h : Nat),
    ch.depart (.setEnd h false) = { ch with endHop := if ch.endHop = some h then none else ch.endHop }) ∧
  (∀ (ch : Chain) (r : Route), ch.depart (.route none r) = { ch with portRoute := r }) ∧
  (∀ (ch : Chain) (a : Nat) (n : Node) (r : Route), ch.nodes.length = 30 → ch.node a = some n →
    (ch.depart (.route (some a) r)).node a = some { n with route := r } ∧
    (∀ b, b ≠ a → (ch.depart (.route (some a) r)).node b = ch.node b) ∧
    (∀ m, (ch.depart (.route (some a) r)).hop m = ch.hop m)) ∧
  (∀ (ch : Chain) (old new : Nat), old ≠ new →
    ((ch.depart (.setEnd new true)).depart (.setEnd old false)).endHop = some new) ∧
  (∀ (ch : Chain) (h : Nat), ((ch.depart (.setEnd h false)).depart (.setEnd h true)).endHop = some h)) ∧
  (∀ (ch : Chain) (a : Nat) (n : Node) (tag : Byte) (x : ConfigSettings), ch.nodes.length = 30 → ch.node a = some n →
    (n.state = .ident ∨ n.state = .live ∨ n.state = .suspect →
      (ch.depart (.configure a tag x)).node a = some { n with state := .ident } ∧
      (ch.depart (.configure 31 tag x)).node a = some { n with state := .ident } ∧
      (ch.depart (.enable a)).node a = some { n with state := if n.silent = 0 then .live else .suspect } ∧
      (ch.depart (.enable 31)).node a = some { n with state := if n.silent = 0 then .live else .suspect } ∧
      ((ch.depart (.configure a tag x)).depart (.enable a)).node a =
        some { n with state := if n.silent = 0 then .live else .suspect } ∧
      ((ch.depart (.enable a)).depart (.configure a tag x)).node a = some { n with state := .ident } ∧
      (ch.depart (.configure a tag x)).showsTile a = false ∧
      (∀ post q, (ch.depart (.configure a tag x)).job post { position := q, address := some a } = .fixed .poll)) ∧
    (n.state = .failed ∨ n.state = .cut →
      (ch.depart (.configure a tag x)).node a = some n ∧ (ch.depart (.configure 31 tag x)).node a = some n ∧
      (ch.depart (.enable a)).node a = some n ∧ (ch.depart (.enable 31)).node a = some n) ∧
    (∀ b, b ≠ a → (ch.depart (.configure a tag x)).node b = ch.node b ∧ (ch.depart (.enable a)).node b = ch.node b))

/-- Repair commands stand ahead of configuration commands (R28), and a full queue gives up its newest configuration command,
or, holding none, its oldest repair command (R30). No bundle carries more than four commands, and every one comes from the
queue or from a claim that waited on it (R26, R29, R31). -/
def Obligations.CommandQueueOrder : Prop :=
  ((∀ (q : List QEntry) (x : QEntry), inClassOrder q → x.cmd.isRepair = true →
    inClassOrder (insertRepair q x) ∧
    ((insertRepair q x).filter fun y => y.cmd.isRepair) = (q.filter fun y => y.cmd.isRepair) ++ [x] ∧
    ((insertRepair q x).filter fun y => !y.cmd.isRepair) = q.filter fun y => !y.cmd.isRepair) ∧
  (∀ (q : List QEntry) (x : QEntry), x.cmd.isRepair = false → evictFrom (q ++ [x]) = some (x, q)) ∧
  (∀ (q : List QEntry) (x : QEntry), (∀ y ∈ x :: q, y.cmd.isRepair = true) → evictFrom (x :: q) = some (x, q))) ∧
  (∀ m : Cm, m.departures.2.length ≤ 4 ∧
    (∀ x ∈ m.departures.2, x ∈ m.ch.queue.map (fun e => e.cmd) ∨ x ∈ m.ch.claims.map (fun k => k.cmd.toCmd)))

/-- CHAIN_MANAGER_TICK on a chain that is OFF or FAULTED and has nothing outstanding (R26, R91): it hands a NONE order. On a
WALKING chain whose first probe is due (R50): a probe bundle with SET_END ON for hop 1 and an empty block, and a NONE order. -/
def Obligations.SilentAndWalkingTicks : Prop :=
  (∀ (c : ChainId) (n : Word16) (ticks : List Word16) (s : State),
    let ch := s.chains.get c
    s.mail.ticks.chains.get c = n :: ticks → (ch.state = .off ∨ ch.state = .faulted) → ch.pendingDisable = false →
    ch.collect = none → ch.attempt = none → ch.lostHeld = [] →
    exec (.chainManagerTick c) s = .next
      (s.setMail ((s.mail.chainTicks c ticks).giveOrder c { frame := n, kind := .none })).ended) ∧
  (∀ (c : ChainId) (n : Word16) (ticks : List Word16) (s : State),
    let ch := s.chains.get c
    s.mail.ticks.chains.get c = n :: ticks → ch.state = .walking → ch.pendingDisable = false → ch.collect = none →
    ch.attempt = none → ch.lostHeld = [] → ch.queue = [] → ch.claims = [] → ch.probeHop = some 1 → ch.endHop = none →
    ch.portRoute = .normal → ch.probes = [] → ch.atPosition 1 = none →
    let place : Place := { position := 1, address := none }
    let info : BundleInfo := { frame := n, path := [place], probe := some 1, stop := 1, deciding := false }
    exec (.chainManagerTick c) s = .next
      ((s.setChain c { ch with
          endHop := some 1, lastPath := [place], counters := { ch.counters with sent := bump16 ch.counters.sent },
          probes := [{ info := info, gen := ch.lookGen, cmds := [.setEnd 1 true], blocks := [.empty],
                       ordered := false }] }).setMail
        ((s.mail.chainTicks c ticks).giveOrder c { frame := n, kind := .none })).ended)

/-- CHAIN_MANAGER_TICK on a RUNNING chain (R26, R31, R42): with one live command queued, its bundle carries it on the path of
the records in force, and the command has its table effect and is counted as sent. The ROUTE of a bypass or a reinstate moves
the attempt to DECIDING as it leaves, and the next tick's bundle is the deciding bundle: END is renumbered to its path, and
SET_END on at the trial END hop and SET_END off at the renumbered END hop leave in it (R58, R60). The model's own: a trial END
hop of 0 is no hop, and no SET_END on is offered for it (log 16), and a SET_END that waits follows its node when the path
changes (log 60). -/
def Obligations.RunningTickSendsTheQueuedCommand : Prop :=
  (∀ (c : ChainId) (n : Word16) (ticks : List Word16) (x : QEntry) (s : State),
    let ch := s.chains.get c
    s.mail.ticks.chains.get c = n :: ticks → ch.state = .running → ch.pendingDisable = false → ch.collect = none →
    ch.attempt = none → ch.lostHeld = [] → ch.walkDoneDue = 0 → ch.queue = [x] → ch.claims = [] →
    x.ofAttempt = false → x.endsWalk = false → ch.isDead x.cmd = false →
    let renumbered : Chain := { ch with endHop := renumberEnd ch.lastPath ch.path.1 ch.endHop, lastPath := ch.path.1 }
    let cmd := x.cmd.onPath ch.lastPath ch.path.1 ch.path.2
    let sent : Chain := { renumbered.depart cmd with
                          queue := [], counters := { ch.counters with sent := bump16 ch.counters.sent } }
    let info : BundleInfo := { frame := n, path := ch.path.1, probe := none, stop := ch.path.2, deciding := false }
    (ch.lastPath = ch.path.1 → cmd = x.cmd) ∧
    exec (.chainManagerTick c) s = .next
      ((s.setChain c sent).setMail ((s.mail.chainTicks c ticks).giveOrder c
        { frame := n, kind := .assemble info (if cmd.carried then [cmd] else []) })).ended) ∧
  (∀ (c : ChainId) (n : Word16) (ticks : List Word16) (x : QEntry) (t : Attempt) (s : State),
    let ch := s.chains.get c
    s.mail.ticks.chains.get c = n :: ticks → (ch.state = .running ∨ ch.state = .broken) → ch.pendingDisable = false →
    ch.collect = none → ch.attempt = some t → t.phase = .routing → t.evicted = false → t.lapsed = false →
    ch.lostHeld = [] → ch.walkDoneDue = 0 → ch.queue = [x] → ch.claims = [] → x.ofAttempt = true →
    x.endsWalk = false → ch.isDead x.cmd = false →
    let renumbered : Chain := { ch with endHop := renumberEnd ch.lastPath ch.path.1 ch.endHop, lastPath := ch.path.1 }
    let cmd := x.cmd.onPath ch.lastPath ch.path.1 ch.path.2
    let sent : Chain := { renumbered.depart cmd with
                          queue := [], counters := { ch.counters with sent := bump16 ch.counters.sent },
                          attempt := some { t with phase := .deciding } }
    let info : BundleInfo := { frame := n, path := ch.path.1, probe := none, stop := ch.path.2, deciding := false }
    exec (.chainManagerTick c) s = .next
      ((s.setChain c sent).setMail ((s.mail.chainTicks c ticks).giveOrder c
        { frame := n, kind := .assemble info (if cmd.carried then [cmd] else []) })).ended) ∧
  (∀ (c : ChainId) (n : Word16) (ticks : List Word16) (t : Attempt) (s : State),
    let ch := s.chains.get c
    s.mail.ticks.chains.get c = n :: ticks → (ch.state = .running ∨ ch.state = .broken) → ch.pendingDisable = false →
    ch.collect = none → ch.attempt = some t → t.phase = .deciding → t.bundled = false → t.evicted = false →
    t.lapsed = false → ch.lostHeld = [] → ch.walkDoneDue = 0 → ch.queue = [] → ch.claims = [] →
    let info : BundleInfo := { frame := n, path := ch.path.1, probe := none, stop := ch.path.2, deciding := true }
    let renumbered := renumberEnd ch.lastPath ch.path.1 ch.endHop
    let after (endHop : Option Nat) (cmds : List Cmd) : State :=
      ((s.setChain c { ch with
          lastPath := ch.path.1, endHop := endHop, attempt := some { t with bundled := true },
          counters := { ch.counters with sent := bump16By cmds.length ch.counters.sent } }).setMail
        ((s.mail.chainTicks c ticks).giveOrder c { frame := n, kind := .assemble info cmds })).ended
    (∀ k, t.trialEnd ≠ 0 → renumbered = some k → k ≠ t.trialEnd →
      exec (.chainManagerTick c) s = .next (after (some t.trialEnd) [.setEnd t.trialEnd true, .setEnd k false])) ∧
    (t.trialEnd ≠ 0 → (renumbered = none ∨ renumbered = some t.trialEnd) →
      exec (.chainManagerTick c) s = .next (after (some t.trialEnd) [.setEnd t.trialEnd true])) ∧
    (∀ k, t.trialEnd = 0 → renumbered = some k → k ≠ 0 →
      exec (.chainManagerTick c) s = .next (after none [.setEnd k false])) ∧
    (t.trialEnd = 0 → renumbered = none → exec (.chainManagerTick c) s = .next (after none [])))

/-- A missing return (R41, R55, R56). On a RUNNING chain with no attempt it is counted, and the break count rises; at the
limit the chain becomes BROKEN, CHAIN_BROKEN is raised, and END moves one hop inward. On a BROKEN chain END moves one hop
inward at every missing return; at hop 1 it is turned off and a bypass of the first node on the path begins, with the port as
predecessor. A return that arrives on a BROKEN chain ends probe-back: a bypass of the node beyond END begins, with the END node
as predecessor. The model's own: a break count that stands at 15 does not act again (log 36), and an absent broken-from END hop
counts as 0 (log 30). -/
def Obligations.MissingReturnsBreakTheChain : Prop :=
  (∀ (c : ChainId) (k : Collection) (s : State),
    let ch := s.chains.get c
    ch.state = .running → ch.attempt = none → ch.collect = some k → ch.pendingDisable = false →
    s.mail.ticks.chains.get c ≠ [] →
    let missed : Chain := { ch with collect := none, breakCount := min (ch.breakCount + 1) 15,
                                    counters := { ch.counters with missing := bump16 ch.counters.missing } }
    (ch.breakCount ≤ 15 → (ch.breakCount = 15 ∨ ch.breakCount + 1 < ch.breakLimit) →
      exec (.returnDeadline c) s = .next (s.setChain c missed).ended) ∧
    (∀ e, ch.breakCount < 15 → ch.breakLimit ≤ ch.breakCount + 1 → ch.endHop = some e → 1 < e →
      ch.queue.length ≤ 14 →
      let on_ : QEntry := { cmd := .setEnd (e - 1) true, issuer := .manager, ofAttempt := false }
      let off : QEntry := { cmd := .setEnd e false, issuer := .manager, ofAttempt := false }
      ∃ t, exec (.returnDeadline c) s = .next t ∧
        t.chains.get c = { missed with state := .broken, brokenFrom := some e,
                                       queue := insertRepair (insertRepair ch.queue on_) off } ∧
        t.link.faultCount = bump16 s.link.faultCount ∧ t.mail = s.mail ∧
        (∀ d, d ≠ c → t.chains.get d = s.chains.get d))) ∧
  (∀ (c : ChainId) (k : Collection) (s : State),
    let ch := s.chains.get c
    ch.state = .broken → ch.attempt = none → ch.collect = some k → ch.pendingDisable = false →
    s.mail.ticks.chains.get c ≠ [] → ch.queue.length ≤ 14 →
    let missed : Chain := { ch with collect := none,
                                    counters := { ch.counters with missing := bump16 ch.counters.missing } }
    let end_ (h : Nat) (on : Bool) : QEntry := { cmd := .setEnd h on, issuer := .manager, ofAttempt := false }
    (∀ e, ch.endHop = some e → 1 < e →
      exec (.returnDeadline c) s = .next
        (s.setChain c { missed with
          queue := insertRepair (insertRepair ch.queue (end_ (e - 1) true)) (end_ e false) }).ended) ∧
    (∀ q a n, ch.endHop = some 1 → k.info.path.head? = some { position := q, address := some a } →
      ch.node a = some n → ch.portRoute = .normal →
      (∀ b m, ch.node b = some m → m.state = .failed → m.position + 1 ≠ n.position ∧ n.position + 1 ≠ m.position) →
      exec (.returnDeadline c) s = .next
        (s.setChain c { missed with
          attempt := some { kind := .bypass, target := a, pred := none, phase := .routing,
                            trialEnd := ch.brokenFrom.getD 0 - 1, bundled := false, evicted := false, lapsed := false },
          queue := insertRepair (insertRepair ch.queue (end_ 1 false))
            { cmd := .route none .skipNext, issuer := .manager, ofAttempt := true } }).ended)) ∧
  (∀ (c : ChainId) (k : Collection) (s : State) (a1 a2 q1 q2 : Nat) (n1 n2 : Node) (hi lo : Byte),
    let ch := s.chains.get c
    let echo : Byte := k.info.frame.setWidth 8
    ch.state = .broken → ch.attempt = none → ch.collect = some k → k.stopped = false → k.blocks = [] →
    k.info.probe = none → ch.nodes.length = 30 → ch.endHop = some 1 → ch.queue.length < 16 →
    k.info.path = [{ position := q1, address := some a1 }, { position := q2, address := some a2 }] →
    ch.node a1 = some n1 → ch.node a2 = some n2 → n1.route = .normal →
    (∀ b m, ch.node b = some m → m.state = .failed → m.position + 1 ≠ n2.position ∧ n2.position + 1 ≠ m.position) →
    crc16 (k.bytes ++ [0x54, 1, echo]) = hi ++ lo →
    ∃ u, exec (.returnItemReceived c [0x54, 1, echo, hi, lo]) s = .next u ∧
      (u.chains.get c).attempt = some { kind := .bypass, target := a2, pred := some a1, phase := .routing,
                                        trialEnd := ch.brokenFrom.getD 0 - 1, bundled := false, evicted := false,
                                        lapsed := false } ∧
      (u.chains.get c).queue = insertRepair ch.queue
        { cmd := .route (some a1) .skipNext, issuer := .manager, ofAttempt := true } ∧
      (u.chains.get c).state = .broken ∧ (u.chains.get c).breakCount = 0 ∧ (u.chains.get c).endHop = some 1 ∧
      (u.chains.get c).collect = none)

/-- RETURN_ITEM_RECEIVED (R41, R200), item by item: nothing is read while no return is collected or after the reading
stopped; an unknown type byte stops it; a status block is gathered; a damaged trailer, or one whose hop is out of range, is
counted and discarded with the blocks ahead of it; a trailer of another frame is discarded with them. The model's own: a
trailer that echoes another frame takes the blocks ahead of it along (log 28). -/
def Obligations.ReturnItemsAreReadOneByOne : Prop :=
  ∀ (c : ChainId) (s : State),
    let ch := s.chains.get c
    let counted : ChainCounters := { ch.counters with returnCheck := bump16 ch.counters.returnCheck }
    (∀ item, ch.collect = none → exec (.returnItemReceived c item) s = .next s.ended) ∧
    (∀ k item, ch.collect = some k → k.stopped = true → exec (.returnItemReceived c item) s = .next s.ended) ∧
    (∀ k ty more, ch.collect = some k → k.stopped = false → ty ≠ 0x51 → ty ≠ 0x52 → ty ≠ 0x54 →
      exec (.returnItemReceived c (ty :: more)) s = .next
        (s.setChain c { ch with collect := some { k with stopped := true, bytes := [], blocks := [] },
                                counters := counted }).ended) ∧
    (∀ k h a kd m t g f, ch.collect = some k → k.stopped = false →
      let block : StatusBlock := { hop := h, address := a, kind := kd, mode := m, tag := t, gen := g, health := f,
                                   identity := none }
      exec (.returnItemReceived c [0x51, h, a, kd, m, t, g, f]) s = .next
        (s.setChain c { ch with collect := some { k with bytes := k.bytes ++ [0x51, h, a, kd, m, t, g, f],
                                                         blocks := k.blocks ++ [block] } }).ended) ∧
    (∀ k h a kd m t g f m1 m0 s3 s2 s1 s0, ch.collect = some k → k.stopped = false →
      let block : StatusBlock := { hop := h, address := a, kind := kd, mode := m, tag := t, gen := g, health := f,
                                   identity := some { model := m1 ++ m0, serial := s3 ++ s2 ++ s1 ++ s0 } }
      exec (.returnItemReceived c [0x52, h, a, kd, m, t, g, f, m1, m0, s3, s2, s1, s0]) s = .next
        (s.setChain c { ch with
          collect := some { k with bytes := k.bytes ++ [0x52, h, a, kd, m, t, g, f, m1, m0, s3, s2, s1, s0],
                                   blocks := k.blocks ++ [block] } }).ended) ∧
    (∀ k hop echo hi lo, ch.collect = some k → k.stopped = false →
      (crc16 (k.bytes ++ [0x54, hop, echo]) ≠ hi ++ lo ∨ hop.toNat < 1 ∨ 31 < hop.toNat) →
      exec (.returnItemReceived c [0x54, hop, echo, hi, lo]) s = .next
        (s.setChain c { ch with collect := some { k with bytes := [], blocks := [] }, counters := counted }).ended) ∧
    (∀ k hop echo hi lo, ch.collect = some k → k.stopped = false →
      crc16 (k.bytes ++ [0x54, hop, echo]) = hi ++ lo → 1 ≤ hop.toNat → hop.toNat ≤ 31 →
      echo ≠ k.info.frame.setWidth 8 →
      exec (.returnItemReceived c [0x54, hop, echo, hi, lo]) s = .next
        (s.setChain c { ch with collect := some { k with bytes := [], blocks := [] } }).ended)

/-- A complete return of a RUNNING chain (R43 to R49), with one node on its path, a tile or a lamp. The node that gave its
block has the reported values and silent count 0, and is LIVE when it was SUSPECT; a FAILED node keeps its state and counts. A
changed health set goes to the Scene Table with NODE report HEALTH, another identity with NODE report REPLACED. A mode that
differs from the table is noted, and the second time in a row MODE_MISMATCH is raised and the table takes it. The node that
gave no block is SUSPECT with its silent count raised; at the silent limit a bypass attempt begins. The return is counted, the
break count is 0, and the Runners get a complete-return notice. Then a path of any number of nodes, some of which gave their
block: each node that answered is heard, one inside END that did not is missed, one beyond END that did not is as it was. A
stranger block (an ABSENT address, or a node's own with the wrong kind) changes no record; it is reported unless the stranger
memory names it, and becomes the memory, which a return without one clears. The blocks may come in any order. A trailer of
another hop than END's restates END: SET_END on at the END hop, SET_END off at the trailer's. So does one that comes with a
node cut off at the silent limit, and the cut's own SET_END stands behind the two. The model's own: a stranger report for an
address that is missed in the same return shows its record from before the miss (log 53), END is restated ahead of the nodes
(log 56), and while a SET_END or a ROUTE waits the END hop that is restated, or that a trial END hop is reckoned from, is the one
that comes, which with none waiting is the record's (log 52). -/
def Obligations.CompleteReturnUpdatesTheNode : Prop :=
  (∀ (c : ChainId) (k : Collection) (s : State) (a p : Nat) (n : Node) (kb tag f hi lo : Byte) (mode : NodeMode)
    (gen : BitVec 4) (identity : Option Identity),
    let ch := s.chains.get c
    let echo : Byte := k.info.frame.setWidth 8
    ch.collect = some k → k.stopped = false → ch.nodes.length = 30 → ch.state = .running → ch.attempt = none →
    ch.endHop = some 1 → ch.lostHeld = [] → k.info.probe = none →
    k.info.path = [{ position := p, address := some a }] → 1 ≤ a → a ≤ 30 → ch.node a = some n → n.position = p →
    ((kb = 0 ∧ n.kindName = .tile) ∨ (kb = 1 ∧ n.kindName = .lamp)) → f.toNat ≤ 15 →
    crc16 (k.bytes ++ [0x54, 1, echo]) = hi ++ lo →
    let block : StatusBlock := { hop := 1, address := BitVec.ofNat 8 a, kind := kb,
                                 mode := if mode = .ident then 0 else 1, tag := tag, gen := gen.setWidth 8, health := f,
                                 identity := identity }
    let heard : Node := { n with state := if n.state = .suspect then .live else n.state, mode := mode, tag := tag,
                                 gen := some gen, silent := 0, identity := identity.or n.identity }
    let missed : Node := { n with state := if n.state = .live then .suspect else n.state, silent := n.silent + 1,
                                  mismatch := false }
    let table (x : Node) : Chain :=
      { ch.setNode a (some x) with
        collect := none, stranger := none, breakCount := 0,
        counters := { ch.counters with complete := bump16 ch.counters.complete } }
    let after (ch' : Chain) : State := (s.setChain c ch').setMail (s.mail.giveNotice c .complete)
    let said (why : NodeCause) (x : Node) : ReportBody :=
      .node why c a (some { state := x.state, position := x.position, hop := (ch.setNode a (some x)).hop x, mode := x.mode,
                            tag := x.tag, health := x.health })
    let agrees := (mode = .live ∧ (n.state = .live ∨ n.state = .suspect)) ∨ (mode = .ident ∧ n.state = .ident)
    let sameHealth := n.health = f.setWidth 4
    let sameIdentity := n.identity = none ∨ identity = none ∨ n.identity = identity
    let item : Instr := .returnItemReceived c [0x54, 1, echo, hi, lo]
    (k.blocks = [block] →
      (agrees → sameHealth → sameIdentity →
        exec item s = .next (after (table { heard with mismatch := false })).ended) ∧
      (n.state = .failed → sameHealth → sameIdentity →
        exec item s = .next (after (table { heard with silent := n.silent })).ended) ∧
      (agrees → ¬ sameHealth → sameIdentity →
        let x : Node := { heard with health := f.setWidth 4, mismatch := false }
        exec item s = .next
          (((s.setChain c (table x)).setMail
            { s.mail.giveNotice c .complete with
              clamps := s.mail.clamps.set c (s.mail.clamps.get c ++ [.health a (overheat (f.setWidth 4))]) }).report
            (said .health x)).ended) ∧
      (agrees → sameHealth → ∀ old new, n.identity = some old → identity = some new → old ≠ new →
        let x : Node := { heard with mismatch := false }
        exec item s = .next ((after (table x)).report (said (.replaced new) x)).ended) ∧
      (¬ agrees → n.state ≠ .failed → n.state ≠ .cut → sameHealth → sameIdentity →
        (n.mismatch = false → exec item s = .next (after (table { heard with mismatch := true })).ended) ∧
        (n.mismatch = true →
          let x : Node := { heard with state := if mode = .ident then .ident else .live, mismatch := false }
          exec item s = .next
            (((after (table x)).raise (.modeMismatch heard.state mode) (.chain c)
              (some { chain := c, address := a })).report (said .mismatch x)).ended))) ∧
    (k.blocks = [] → (n.state = .ident ∨ n.state = .live ∨ n.state = .suspect) → n.silent < 15 →
      (n.silent + 1 < ch.silentLimit → exec item s = .next (after (table missed)).ended) ∧
      (ch.silentLimit ≤ n.silent + 1 → ch.portRoute = .normal → ch.queue.length < 16 →
        (∀ b m, ch.node b = some m → m.state = .failed → m.position + 1 ≠ n.position ∧ n.position + 1 ≠ m.position) →
        exec item s = .next
          (after { table missed with
            attempt := some { kind := .bypass, target := a, pred := none, phase := .routing,
                              trialEnd := (table missed).nextEnd.getD 0 - 1, bundled := false, evicted := false, lapsed := false },
            queue := insertRepair ch.queue
              { cmd := .route none .skipNext, issuer := .manager, ofAttempt := true } }).ended))) ∧
  (∀ (c : ChainId) (k : Collection) (s : State) (xs : List (Nat × Node × Option StatusBlock))
    (strange : Option StatusBlock) (e : Nat) (hop hi lo : Byte),
    let ch := s.chains.get c
    let echo : Byte := k.info.frame.setWidth 8
    let kindByte (n : Node) : Byte := if n.kindName = .tile then 0 else 1
    ch.collect = some k → k.stopped = false → ch.nodes.length = 30 → ch.state = .running → ch.attempt = none →
    ch.endHop = some e → ch.lostHeld = [] → ch.queue.length ≤ 14 → k.info.probe = none → xs.length ≤ 30 →
    k.info.path = xs.map (fun x => { position := x.2.1.position, address := some x.1 }) → (xs.map fun x => x.1).Nodup →
    (∀ x ∈ xs, 1 ≤ x.1 ∧ x.1 ≤ 30 ∧ ch.node x.1 = some x.2.1 ∧
      (x.2.1.state = .ident ∨ x.2.1.state = .live ∨ x.2.1.state = .suspect)) →
    k.blocks.Perm (xs.filterMap (fun x => x.2.2) ++ strange.toList) →
    (∀ x i b, (x, i) ∈ xs.zipIdx → x.2.2 = some b →
      b.hop.toNat = i + 1 ∧ b.address.toNat = x.1 ∧ b.kind = kindByte x.2.1 ∧
      b.mode = (if x.2.1.state = .ident then 0 else 1) ∧ (b.gen = 0xFF ∨ b.gen.toNat ≤ 15) ∧
      b.health = x.2.1.health.setWidth 8 ∧ (x.2.1.identity = none ∨ b.identity = none ∨ x.2.1.identity = b.identity)) →
    (∀ x i, (x, i) ∈ xs.zipIdx → x.2.2 = none → i + 1 ≤ e →
      x.2.1.silent < 15 ∧ x.2.1.silent + 1 < ch.silentLimit) →
    (∀ b, strange = some b →
      1 ≤ b.hop.toNat ∧ b.hop.toNat ≤ 31 ∧ 1 ≤ b.address.toNat ∧ b.address.toNat ≤ 30 ∧ b.kind.toNat ≤ 1 ∧
      b.mode.toNat ≤ 1 ∧ (b.gen = 0xFF ∨ b.gen.toNat ≤ 15) ∧ b.health.toNat ≤ 15 ∧
      (∀ x i, (x, i) ∈ xs.zipIdx → i + 1 = b.hop.toNat → x.2.2 = none) ∧
      (ch.node b.address.toNat = none ∨
        ∃ x i, (x, i) ∈ xs.zipIdx ∧ i + 1 = b.hop.toNat ∧ x.1 = b.address.toNat ∧ b.kind ≠ kindByte x.2.1)) →
    1 ≤ hop.toNat → hop.toNat ≤ 31 → crc16 (k.bytes ++ [0x54, hop, echo]) = hi ++ lo →
    let heard (n : Node) (b : StatusBlock) : Node :=
      { n with state := if n.state = .suspect then .live else n.state, mode := if b.mode = 0 then .ident else .live,
               tag := b.tag, gen := if b.gen = 0xFF then n.gen else some (b.gen.setWidth 4), silent := 0,
               mismatch := false, identity := b.identity.or n.identity }
    let missed (n : Node) : Node :=
      { n with state := if n.state = .live then .suspect else n.state, silent := n.silent + 1, mismatch := false }
    let record (a : Nat) : Option Node :=
      match xs.zipIdx.find? (fun x => decide (x.1.1 = a)) with
      | none => ch.node a
      | some ((_, n, some b), _) => some (heard n b)
      | some ((_, n, none), i) => some (if i + 1 ≤ e then missed n else n)
    let end_ (h : Nat) (on : Bool) : QEntry := { cmd := .setEnd h on, issuer := .manager, ofAttempt := false }
    let coming := match ch.comingEnd with
      | some h => insertRepair ch.queue (end_ h true)
      | none => ch.queue
    let after : State :=
      (s.setChain c { ch with
        nodes := (List.range 30).map fun j => record (j + 1), collect := none,
        stranger := strange.map (fun b => (b.hop, b.address)), breakCount := 0,
        counters := { ch.counters with complete := bump16 ch.counters.complete },
        queue := if hop.toNat = e then ch.queue
                 else if ch.comingEnd = some hop.toNat then coming
                 else insertRepair coming (end_ hop.toNat false) }).setMail
        (s.mail.giveNotice c .complete)
    let item : Instr := .returnItemReceived c [0x54, hop, echo, hi, lo]
    ((∀ y ∈ ch.queue, ∀ h on, y.cmd ≠ .setEnd h on) → ch.comingEnd = some e) ∧
    ((∀ b, strange = some b → ch.stranger = some (b.hop, b.address)) → exec item s = .next after.ended) ∧
    (∀ b, strange = some b → ch.stranger ≠ some (b.hop, b.address) →
      exec item s = .next ((after.report (.node (.stranger b.hop b.kind) c b.address.toNat
        ((ch.node b.address.toNat).map fun n =>
          { state := n.state, position := n.position, hop := ch.hop n, mode := n.mode, tag := n.tag,
            health := n.health }))).ended))) ∧
  (∀ (c : ChainId) (k : Collection) (s : State) (a1 a2 q1 q2 : Nat) (n1 n2 : Node) (b : StatusBlock) (x : Answer)
    (hop hi lo : Byte),
    let ch := s.chains.get c
    let echo : Byte := k.info.frame.setWidth 8
    ch.collect = some k → k.stopped = false → ch.nodes.length = 30 → ch.state = .running → ch.attempt = none →
    ch.endHop = some 2 → ch.queue.length ≤ 13 → k.info.probe = none →
    k.info.path = [{ position := q1, address := some a1 }, { position := q2, address := some a2 }] → a1 ≠ a2 →
    ch.node a1 = some n1 → n1.position = q1 → n1.state = .live → n1.route = .skipNext →
    ch.node a2 = some n2 → n2.position = q2 → n2.state = .live → q1 < q2 →
    n2.silent < 15 → ch.silentLimit ≤ n2.silent + 1 →
    k.blocks = [b] → b.answer? = some x → x.hop = 1 → x.address = a1 → x.kind = n1.kindName →
    1 ≤ hop.toNat → hop.toNat ≤ 31 → crc16 (k.bytes ++ [0x54, hop, echo]) = hi ++ lo →
    let end_ (h : Nat) (on : Bool) : QEntry := { cmd := .setEnd h on, issuer := .manager, ofAttempt := false }
    let coming := match ch.comingEnd with
      | some h => insertRepair ch.queue (end_ h true)
      | none => ch.queue
    let restated := if hop.toNat = 2 then ch.queue
                    else if ch.comingEnd = some hop.toNat then coming
                    else insertRepair coming (end_ hop.toNat false)
    ∃ u, exec (.returnItemReceived c [0x54, hop, echo, hi, lo]) s = .next u ∧
      (u.chains.get c).node a2 = some { n2 with state := .cut, silent := n2.silent + 1, mismatch := false } ∧
      (u.chains.get c).queue = (insertRepair restated (end_ 1 true)).map (fun y => { y with ofAttempt := false }) ∧
      (u.chains.get c).endHop = some 2 ∧ (u.chains.get c).state = .running ∧ (u.chains.get c).attempt = none ∧
      (u.chains.get c).collect = none)

/-- Walks (R50 to R54, R43). A return whose probe place, at hop 1, gave a block: an ABSENT address is enrolled at the
position where the path stopped (JOINED), a CUT record of another address there leaves first (LEFT), a CUT record of the
address at that position is found again (FOUND); the Scene Table gets clamp and health, and the walk goes on at the next hop.
A position above 30, or the address enrolled at another position, is a clash, as is a block of any return whose address is
enrolled elsewhere: ADDR_CLASH, and the chain is FAULTED with nothing left. No block, or no return, ends the walk: END is set
back and the chain is RUNNING; WALK_DONE is reported by the tick whose bundle carries the set-back. The bundle of an
EXTENDING chain carries the path with its probe place, whose path hop is the probe hop, and moves END to it. WALK_DONE goes with the bundle that carries the last command of
the set-back, whatever other SET_END still waits behind it. The model's own: enrolment takes the look generation of the block
(log 14), a missing return ends a walk whatever its bundle carried (log 15), a CUT record that left gives a node-lost notice
(log 37) with what such a notice carries (log 22), a node found again keeps its route (log 38), the WALK_DONE of a walk whose
set-back was evicted goes with the next bundle (log 39), and a SET_END that waits follows its node when the path changes (log
60). -/
def Obligations.WalksFindNodesOrEnd : Prop :=
  (∀ (c : ChainId) (k : Collection) (s : State) (a q : Nat) (kb tag f hi lo : Byte) (kd : KindName) (mode : NodeMode)
    (gen : BitVec 4) (identity : Option Identity),
    let ch := s.chains.get c
    let echo : Byte := k.info.frame.setWidth 8
    ch.collect = some k → k.stopped = false → (ch.state = .walking ∨ ch.state = .extending) → ch.probeHop = some 1 →
    ch.attempt = none → ch.lostHeld = [] → ch.nodes.length = 30 → k.info.probe = some 1 → k.info.stop = q →
    k.info.path = [{ position := q, address := none }] → crc16 (k.bytes ++ [0x54, 1, echo]) = hi ++ lo →
    let item : Instr := .returnItemReceived c [0x54, 1, echo, hi, lo]
    let heard (nodes : List (Option Node)) : Chain :=
      { ch with collect := none, stranger := none, breakCount := 0, probeHop := some 2, nodes := nodes,
                counters := { ch.counters with complete := bump16 ch.counters.complete } }
    let mail (clamps : List ClampMsg) (notices : List RunnerMsg) : Mail :=
      { s.mail with clamps := s.mail.clamps.set c (s.mail.clamps.get c ++ clamps),
                    notices := s.mail.notices.set c (s.mail.notices.get c ++ notices) }
    let said (why : NodeCause) (ch' : Chain) (x : Node) : ReportBody :=
      .node why c a (some { state := x.state, position := x.position, hop := ch'.hop x, mode := x.mode, tag := x.tag,
                            health := x.health })
    let state : NodeState := if mode = .ident then .ident else .live
    let enrolled : NodeKind :=
      if kd = .tile then .tile { gap := .repeatHeld, fallback := none, gapCount := 0, lateCount := 0 } else .lamp
    let joined : Node :=
      { kind := enrolled, position := q, state := state, mode := mode, tag := tag, gen := some gen, silent := 0,
        mismatch := false, health := f.setWidth 4, identity := identity, route := .normal, clamp := 600 }
    let hot := overheat (f.setWidth 4)
    let block : StatusBlock := { hop := 1, address := BitVec.ofNat 8 a, kind := kb,
                                 mode := if mode = .ident then 0 else 1, tag := tag, gen := gen.setWidth 8, health := f,
                                 identity := identity }
    (k.blocks = [block] → 1 ≤ a → a ≤ 30 → f.toNat ≤ 15 → ((kb = 0 ∧ kd = .tile) ∨ (kb = 1 ∧ kd = .lamp)) →
      (q ≤ 30 → ch.node a = none → (∀ b m, ch.node b = some m → m.state = .cut → m.position ≠ q) →
        let ch' := heard (ch.setNode a (some joined)).nodes
        exec item s = .next
          (((s.setChain c ch').setMail (mail [.enrolled a 600 hot] [.complete])).report (said .joined ch' joined)).ended) ∧
      (∀ b m, q ≤ 30 → ch.node a = none → ch.atPosition q = some (b, m) → m.state = .cut →
        let ch' := heard ((ch.setNode b none).setNode a (some joined)).nodes
        exec item s = .next
          ((((s.setChain c ch').setMail (mail [.absent b, .enrolled a 600 hot]
              [.lost b m.kindName false (.all false), .complete])).report (.node .left c b none)).report
                (said .joined ch' joined)).ended) ∧
      (∀ n, q ≤ 30 → ch.node a = some n → n.state = .cut → n.position = q →
        let x : Node :=
          { n with kind := if n.kindName = kd then n.kind else enrolled, state := state, mode := mode, tag := tag,
                   gen := some gen, silent := 0, mismatch := false, health := f.setWidth 4,
                   identity := identity.or n.identity, clamp := if n.kindName = kd then n.clamp else 600 }
        let ch' := heard (ch.setNode a (some x)).nodes
        exec item s = .next
          (((s.setChain c ch').setMail (mail [.enrolled a x.clamp hot] [.complete])).report (said .found ch' x)).ended)) ∧
    (k.blocks = [] → ch.queue.length < 16 → (ch.endHop = none ∨ ch.endHop = some 1) →
      exec item s = .next
        ((s.setChain c { heard ch.nodes with
            probeHop := none, state := .running,
            queue := insertRepair ch.queue { cmd := .setEnd 1 false, issuer := .manager, ofAttempt := false,
                                             endsWalk := true } }).setMail (mail [] [.complete])).ended)) ∧
  (∀ (c : ChainId) (k : Collection) (s : State) (a q : Nat) (n : Node) (b : StatusBlock) (x : Answer) (hi lo : Byte),
    let ch := s.chains.get c
    let echo : Byte := k.info.frame.setWidth 8
    ch.collect = some k → k.stopped = false → ch.nodes.length = 30 → k.blocks = [b] → b.answer? = some x → x.hop = 1 →
    crc16 (k.bytes ++ [0x54, 1, echo]) = hi ++ lo →
    (((ch.state = .walking ∨ ch.state = .extending) ∧ ch.probeHop = some 1 ∧ k.info.probe = some 1 ∧ k.info.stop = q ∧
        k.info.path = [{ position := q, address := none }] ∧
        (30 < q ∨ (ch.node x.address = some n ∧ n.position ≠ q))) ∨
      (k.info.probe = none ∧ k.info.path = [{ position := q, address := some a }] ∧ ch.node x.address = some n ∧
        n.position ≠ q)) →
    ∃ u, exec (.returnItemReceived c [0x54, 1, echo, hi, lo]) s = .next u ∧
      (u.chains.get c).state = .faulted ∧ (∀ d, (u.chains.get c).node d = none) ∧ (u.chains.get c).queue = [] ∧
      (u.chains.get c).claims = [] ∧ (u.chains.get c).endHop = none ∧ (u.chains.get c).probeHop = none ∧
      (u.chains.get c).brokenFrom = none ∧ (u.chains.get c).attempt = none ∧ (u.chains.get c).stranger = none ∧
      (u.chains.get c).breakCount = 0 ∧ (u.chains.get c).collect = none ∧
      (u.chains.get c).counters.discarded =
        bump16By (ch.queue.length + ch.claims.length) ch.counters.discarded ∧
      u.link.faultCount = bump16 s.link.faultCount ∧
      u.mail.orders = s.mail.orders.set c (s.mail.orders.get c ++ [.faulted]) ∧
      (∀ d m, ch.node d = some m → .absent d ∈ u.mail.clamps.get c) ∧
      (∀ d, d ≠ c → u.chains.get d = s.chains.get d) ∧ u.asm = s.asm ∧ u.pool = s.pool) ∧
  (∀ (c : ChainId) (k : Collection) (p : Nat) (s : State),
    let ch := s.chains.get c
    ch.collect = some k → (ch.state = .walking ∨ ch.state = .extending) → ch.attempt = none → ch.pendingDisable = false →
    s.mail.ticks.chains.get c ≠ [] → ch.probeHop = some p → ch.queue.length ≤ 14 →
    let back (h : Nat) (on last : Bool) : QEntry :=
      { cmd := .setEnd h on, issuer := .manager, ofAttempt := false, endsWalk := last }
    exec (.returnDeadline c) s = .next
      (s.setChain c { ch with
        collect := none, probeHop := none, state := .running,
        counters := { ch.counters with missing := bump16 ch.counters.missing },
        queue := if 1 < p then insertRepair (insertRepair ch.queue (back (p - 1) true false)) (back p false true)
                 else insertRepair ch.queue (back 1 false true) }).ended) ∧
  (∀ (c : ChainId) (n : Word16) (ticks : List Word16) (h : Nat) (on : Bool) (s : State),
    let ch := s.chains.get c
    let x : Cmd := .setEnd h on
    s.mail.ticks.chains.get c = n :: ticks → ch.state = .running → ch.pendingDisable = false → ch.collect = none →
    ch.attempt = none → ch.lostHeld = [] → ch.claims = [] →
    let renumbered : Chain := { ch with endHop := renumberEnd ch.lastPath ch.path.1 ch.endHop, lastPath := ch.path.1 }
    let cmd := x.onPath ch.lastPath ch.path.1 ch.path.2
    let sent : Chain := { renumbered.depart cmd with
                          queue := [], walkDoneDue := 0,
                          counters := { ch.counters with sent := bump16 ch.counters.sent } }
    let info : BundleInfo := { frame := n, path := ch.path.1, probe := none, stop := ch.path.2, deciding := false }
    let left (due : Nat) (tagged : Bool) : Prop :=
      ch.walkDoneDue = due ∧
      ch.queue = [{ cmd := x, issuer := .manager, ofAttempt := false, endsWalk := tagged }]
    (left 0 true ∨ left 1 false →
      exec (.chainManagerTick c) s = .next
        (((s.setChain c sent).setMail ((s.mail.chainTicks c ticks).giveOrder c
          { frame := n, kind := .assemble info [cmd] })).report
            (.chain .walkDone c .running sent.endHop ch.stateCounts)).ended)) ∧
  (∀ (c : ChainId) (n : Word16) (ticks : List Word16) (p k : Nat) (s : State),
    let ch := s.chains.get c
    let back (h : Nat) (on last : Bool) : QEntry :=
      { cmd := .setEnd h on, issuer := .manager, ofAttempt := false, endsWalk := last }
    s.mail.ticks.chains.get c = n :: ticks → ch.state = .running → ch.pendingDisable = false → ch.collect = none →
    ch.attempt = none → ch.lostHeld = [] → ch.walkDoneDue = 0 → ch.claims = [] →
    let moved (h : Nat) (on : Bool) : Cmd := (Cmd.setEnd h on).onPath ch.lastPath ch.path.1 ch.path.2
    let cmds : List Cmd := [moved p true, moved (p + 1) false, moved k true, moved p false]
    let endHop := cmds.foldl Cmd.endAfter (renumberEnd ch.lastPath ch.path.1 ch.endHop)
    ch.queue = [back p true false, back (p + 1) false true, back k true false, back p false false,
                back (p + 2) false false] →
    let info : BundleInfo := { frame := n, path := ch.path.1, probe := none, stop := ch.path.2, deciding := false }
    (ch.lastPath = ch.path.1 → p ≠ k → (∀ h on, moved h on = .setEnd h on) ∧ endHop = some k) ∧
    exec (.chainManagerTick c) s = .next
      (((s.setChain c { ch with
          lastPath := ch.path.1, endHop := endHop, queue := [{ back (p + 2) false false with cmd := moved (p + 2) false }],
          counters := { ch.counters with sent := bump16By 4 ch.counters.sent } }).setMail
        ((s.mail.chainTicks c ticks).giveOrder c
          { frame := n, kind := .assemble info cmds })).report
              (.chain .walkDone c .running endHop ch.stateCounts)).ended) ∧
  (∀ (c : ChainId) (n : Word16) (ticks : List Word16) (p : Nat) (s : State),
    let ch := s.chains.get c
    s.mail.ticks.chains.get c = n :: ticks → ch.state = .extending → ch.pendingDisable = false → ch.collect = none →
    ch.attempt = none → ch.lostHeld = [] → ch.walkDoneDue = 0 → ch.queue = [] → ch.claims = [] →
    ch.probeHop = some p →
    let full : List Place := ch.path.1 ++ [{ position := ch.path.2, address := none }]
    let p := ch.path.1.length + 1
    let cmds : List Cmd := .setEnd p true :: if 1 < p then [.setEnd (p - 1) false] else []
    let info : BundleInfo := { frame := n, path := full, probe := some p, stop := ch.path.2, deciding := false }
    exec (.chainManagerTick c) s = .next
      ((s.setChain c { ch with
          endHop := some p, probeHop := some p, lastPath := full,
          counters := { ch.counters with sent := bump16By cmds.length ch.counters.sent } }).setMail
        ((s.mail.chainTicks c ticks).giveOrder c { frame := n, kind := .assemble info cmds })).ended)

/-- Repair attempts decided (R57 to R59, R61, R63, R64). A bypass whose deciding return arrives makes its target FAILED; one
whose deciding return is missing takes its ROUTE back, and the chain is cut at the predecessor, as it is at once when no skip
is possible: every reachable record beyond is CUT, SET_END on is offered where END stands elsewhere, no attempt remains, and
CHAIN_CUT is raised. A reinstate whose deciding return holds the target's block puts the record back in force; otherwise the
ROUTE is set back, END goes back to the predecessor when the target held the trial END hop, and the target stays FAILED. An
attempt whose ROUTE was evicted fails at a deadline of its RUNNING or BROKEN chain, its route as recorded. The model's own: an
attempt whose deciding bundle left with no END designated fails at the next deadline (log 16), what a node-lost notice carries
(log 22), a cut whose predecessor is the port turns END off at the hop to which it comes (log 47), and any other cut offers
SET_END on also where END stands at its hop and a SET_END that waits takes it elsewhere (log 52). -/
def Obligations.AttemptsAreDecided : Prop :=
  let manager (cmd : Cmd) : QEntry := { cmd := cmd, issuer := .manager, ofAttempt := false }
  let settled (q : List QEntry) : List QEntry := q.map fun x => { x with ofAttempt := false }
  let endAtCut (ch : Chain) (q : List QEntry) (h : Nat) : List QEntry :=
    let coming := ({ ch with queue := q } : Chain).comingEnd
    if h = 0 then
      match coming with
      | some k => insertRepair q (manager (.setEnd k false))
      | none => q
    else if ch.endHop ≠ some h ∨ coming ≠ some h then insertRepair q (manager (.setEnd h true))
    else q
  let reachable (n : Node) : Prop := n.state = .ident ∨ n.state = .live ∨ n.state = .suspect
  let isCut (c : ChainId) (at_ : Nat) (s u : State) : Prop :=
    let ch := s.chains.get c
    let ch' := u.chains.get c
    ch'.state = .running ∧ ch'.attempt = none ∧ ch'.brokenFrom = none ∧ ch'.breakCount = 0 ∧ ch'.collect = none ∧
    (∀ a n, ch.node a = some n →
      (reachable n → at_ < n.position → ch'.node a = some { n with state := .cut }) ∧
      (¬ (reachable n ∧ at_ < n.position) → ch'.node a = some n)) ∧
    (∀ a, ch.node a = none → ch'.node a = none) ∧
    ch'.endHop = ch.endHop ∧ ch'.portRoute = ch.portRoute ∧ (∀ d, d ≠ c → u.chains.get d = s.chains.get d) ∧
    u.link.faultCount = bump16 s.link.faultCount ∧ u.asm = s.asm ∧ u.pool = s.pool ∧ u.scene = s.scene
  (∀ (c : ChainId) (k : Collection) (t : Attempt) (s : State),
    let ch := s.chains.get c
    let info := k.info
    (ch.state = .running ∨ ch.state = .broken) → ch.collect = some k → ch.pendingDisable = false →
    s.mail.ticks.chains.get c ≠ [] → ch.nodes.length = 30 → ch.queue.length ≤ 14 → ch.attempt = some t →
    let h := predHop info.path t.pred
    let at_ := ch.positionOf t.pred
    (info.deciding = true → t.bundled = true → t.kind = .bypass →
      ∃ u, exec (.returnDeadline c) s = .next u ∧ isCut c at_ s u ∧ u.mail = s.mail ∧
        let routed := insertRepair ch.queue (manager (.route t.pred .normal))
        (u.chains.get c).queue = settled (endAtCut ch routed h)) ∧
    (info.deciding = true → t.bundled = true → t.kind = .reinstate →
      ∃ u, exec (.returnDeadline c) s = .next u ∧ (u.chains.get c).attempt = none ∧ (u.chains.get c).breakCount = 0 ∧
        (u.chains.get c).nodes = ch.nodes ∧ (u.chains.get c).state = ch.state ∧ u.mail = s.mail ∧
        u.link.faultCount = s.link.faultCount ∧
        let routed := insertRepair ch.queue (manager (.route t.pred .skipNext))
        (u.chains.get c).queue = settled
          (if hopOfAddress info.path t.target = some t.trialEnd ∧ 0 < h then
            insertRepair routed (manager (.setEnd h true)) else routed)) ∧
    (info.deciding = false → t.evicted = true → t.lapsed = false →
      (t.kind = .bypass →
        let h := predHop ch.lastPath t.pred
        ∃ u, exec (.returnDeadline c) s = .next u ∧ isCut c at_ s u ∧ u.mail = s.mail ∧
          (u.chains.get c).queue = settled (endAtCut ch ch.queue h)) ∧
      (t.kind = .reinstate →
        ∃ u, exec (.returnDeadline c) s = .next u ∧ (u.chains.get c).attempt = none ∧
          (u.chains.get c).breakCount = 0 ∧ (u.chains.get c).nodes = ch.nodes ∧ (u.chains.get c).state = ch.state ∧
          (u.chains.get c).queue = settled ch.queue ∧ u.mail = s.mail))) ∧
  (∀ (c : ChainId) (k : Collection) (q a : Nat) (n : Node) (s : State),
    let ch := s.chains.get c
    ch.state = .broken → ch.attempt = none → ch.collect = some k → ch.pendingDisable = false →
    s.mail.ticks.chains.get c ≠ [] → ch.nodes.length = 30 → ch.queue.length ≤ 14 → ch.endHop = some 1 →
    k.info.path.head? = some { position := q, address := some a } → ch.node a = some n →
    (ch.portRoute = .skipNext ∨
      ∃ b m, ch.node b = some m ∧ m.state = .failed ∧ (m.position + 1 = n.position ∨ n.position + 1 = m.position)) →
    ∃ u, exec (.returnDeadline c) s = .next u ∧ isCut c 0 s u ∧
      (u.chains.get c).queue = settled (endAtCut ch (insertRepair ch.queue (manager (.setEnd 1 false))) 0)) ∧
  (∀ (c : ChainId) (k : Collection) (t : Attempt) (s : State) (a q : Nat) (n target : Node) (b : StatusBlock) (x : Answer)
    (hi lo : Byte),
    let ch := s.chains.get c
    let echo : Byte := k.info.frame.setWidth 8
    ch.collect = some k → k.stopped = false → k.info.deciding = true → ch.attempt = some t → t.bundled = true →
    ch.nodes.length = 30 → k.info.probe = none → k.info.path = [{ position := q, address := some a }] →
    ch.node a = some n → n.position = q → ch.node t.target = some target →
    crc16 (k.bytes ++ [0x54, 1, echo]) = hi ++ lo → (ch.state = .running ∨ ch.state = .broken) →
    k.blocks = [b] → b.answer? = some x → x.hop = 1 → x.address = a → x.kind = n.kindName →
    (t.kind = .bypass → t.target ≠ a →
      ∃ u, exec (.returnItemReceived c [0x54, 1, echo, hi, lo]) s = .next u ∧ (u.chains.get c).attempt = none ∧
        (u.chains.get c).node t.target = some { target with state := .failed } ∧ (u.chains.get c).brokenFrom = none ∧
        (u.chains.get c).state = .running ∧ (u.chains.get c).breakCount = 0 ∧
        (ch.lostHeld = [] → ch.queue.length ≤ 14 →
          u.mail.notices.get c = s.mail.notices.get c ++
            [.lost t.target target.kindName target.state.reachable (.all false), .complete])) ∧
    (t.kind = .reinstate → t.target = a → target.state = .failed →
      ∃ u, exec (.returnItemReceived c [0x54, 1, echo, hi, lo]) s = .next u ∧ (u.chains.get c).attempt = none ∧
        (∃ y, (u.chains.get c).node a = some y ∧ y.state = (if x.mode = .ident then .ident else .live) ∧ y.silent = 0 ∧
          y.mismatch = false ∧ y.mode = x.mode ∧ y.tag = x.tag ∧ y.position = q ∧ y.route = target.route ∧
          y.clamp = target.clamp) ∧
        (u.chains.get c).state = ch.state ∧ u.link.faultCount = s.link.faultCount)) ∧
  (∀ (c : ChainId) (b : Bundle) (t : Attempt) (s : State),
    let ch := s.chains.get c
    let m := s.asm.get c
    m.bundle = some b → b.wait = .token → b.stopping = false → b.info.deciding = true → m.waiting = [] →
    ch.collect = none → ch.endHop = none → ch.attempt = some t → t.bundled = true →
    exec (.returnTokenSent c) s = .next
      ((s.setAsm c { m with bundle := none, counters := { m.counters with bundles := bump16 m.counters.bundles } }).setChain
        c { ch with attempt := some { t with lapsed := true } }).ended) ∧
  (∀ (c : ChainId) (n : Word16) (ticks : List Word16) (t : Attempt) (s : State),
    let ch := s.chains.get c
    s.mail.ticks.chains.get c = n :: ticks → (ch.state = .running ∨ ch.state = .broken) → ch.pendingDisable = false →
    ch.collect = none → ch.attempt = some t → t.kind = .bypass → t.lapsed = true → t.evicted = false →
    ch.nodes.length = 30 →
    ∃ u, exec (.chainManagerTick c) s = .next u ∧ (u.chains.get c).attempt = none ∧
      (u.chains.get c).state = .running ∧ (u.chains.get c).breakCount = 0 ∧
      (∀ a m, ch.node a = some m → ch.positionOf t.pred < m.position →
        ∃ y, (u.chains.get c).node a = some y ∧ y.state = if reachable m then .cut else m.state))

/-- NODE_GET (R37): the record as it stands, with its hop, and for a tile whether a held buffer is present; an ABSENT record
gives its address alone; nothing changes. -/
def Obligations.NodeGetReadsTheRecord : Prop :=
  ∀ (q : Request) (rest : List Request) (s : State) (cb ab : Byte), Waits .nodeGet q rest s → q.body = [cb, ab] →
    (4 ≤ cb.toNat ∨ ab.toNat < 1 ∨ 30 < ab.toNat → exec .nodeGet s = .next ((s.taken rest).replied q .badArg .empty)) ∧
    (∀ c : ChainId, cb.toNat = c.val → 1 ≤ ab.toNat → ab.toNat ≤ 30 → (s.chains.get c).node ab.toNat = none →
      exec .nodeGet s = .next ((s.taken rest).replied q .ok (.nodeGet ab.toNat none none false))) ∧
    (∀ (c : ChainId) (n : Node), cb.toNat = c.val → 1 ≤ ab.toNat → ab.toNat ≤ 30 →
      (s.chains.get c).node ab.toNat = some n →
      exec .nodeGet s = .next ((s.taken rest).replied q .ok
        (.nodeGet ab.toNat (some n) ((s.chains.get c).hop n)
          (decide (n.kindName = .tile) && ((s.asm.get c).heldAt ab.toNat).isSome))))

/-- NODE_SET (R38), its checks in order and its settings of a tile and of a lamp; a changed clamp is handed to the Scene Table,
the present one given again is not. -/
def Obligations.NodeSetChangesTheSettings : Prop :=
  ∀ (q : Request) (rest : List Request) (s : State) (x : NodeSetArgs),
    Waits .nodeSet q rest s → nodeSet? q.body = some x →
    let c := x.node.chain
    let a := x.node.address
    let ch := s.chains.get c
    (ch.node a = none → exec .nodeSet s = .next ((s.taken rest).replied q .notFound .empty)) ∧
    (∀ n, ch.node a = some n → n.kind = .lamp → (x.gap ≠ none ∨ x.fallback ≠ none ∨ x.clear = true) →
      exec .nodeSet s = .next ((s.taken rest).replied q .badArg .empty)) ∧
    (∀ n t, ch.node a = some n → n.kind = .tile t → (∀ v, x.clamp = some v → v = n.clamp) →
      let t' : TileSettings := { gap := x.gap.getD t.gap, fallback := x.fallback.getD t.fallback,
                                 gapCount := if x.clear then 0 else t.gapCount,
                                 lateCount := if x.clear then 0 else t.lateCount }
      exec .nodeSet s = .next
        (((s.taken rest).setChain c (ch.setNode a (some { n with kind := .tile t' }))).replied q .ok .empty)) ∧
    (∀ n t v, ch.node a = some n → n.kind = .tile t → x.clamp = some v → v ≠ n.clamp →
      let t' : TileSettings := { gap := x.gap.getD t.gap, fallback := x.fallback.getD t.fallback,
                                 gapCount := if x.clear then 0 else t.gapCount,
                                 lateCount := if x.clear then 0 else t.lateCount }
      exec .nodeSet s = .next
        ((((s.taken rest).setChain c (ch.setNode a (some { n with kind := .tile t', clamp := v }))).setMail
          { s.mail with clamps := s.mail.clamps.set c (s.mail.clamps.get c ++ [.clamp a v]) }).replied q .ok .empty)) ∧
    (∀ n, ch.node a = some n → n.kind = .lamp → x.gap = none → x.fallback = none → x.clear = false →
      (∀ v, x.clamp = some v → v = n.clamp) →
      exec .nodeSet s = .next (((s.taken rest).setChain c (ch.setNode a (some n))).replied q .ok .empty)) ∧
    (∀ n v, ch.node a = some n → n.kind = .lamp → x.gap = none → x.fallback = none → x.clear = false →
      x.clamp = some v → v ≠ n.clamp →
      exec .nodeSet s = .next
        ((((s.taken rest).setChain c (ch.setNode a (some { n with clamp := v }))).setMail
          { s.mail with clamps := s.mail.clamps.set c (s.mail.clamps.get c ++ [.clamp a v]) }).replied q .ok .empty))

/-- NODE_COMMAND with CONFIGURE and with ENABLE (R39): the checks in order, and the command queued with issuer CONTROL. -/
def Obligations.NodeCommandJoinsTheQueue : Prop :=
  (∀ (q : Request) (rest : List Request) (s : State) (c : ChainId) (a : Nat) (tag : Byte) (x : ConfigSettings),
    Waits .nodeCommandConfigure q rest s → configure? q.body = some (c, a, tag, x) →
    exec .nodeCommandConfigure s = .next ((s.taken rest).nodeCommand q c a (.configure a tag x)).ended) ∧
  (∀ (q : Request) (rest : List Request) (s : State) (c : ChainId) (a : Nat),
    Waits .nodeCommandEnable q rest s → enable? q.body = some (c, a) →
    exec .nodeCommandEnable s = .next ((s.taken rest).nodeCommand q c a (.enable a)).ended) ∧
  (∀ (q : Request) (s : State) (c : ChainId) (a : Nat) (cmd : ConfigCmd),
    let ch := s.chains.get c
    let room := ch.queue.length < 16 ∧ ch.claims = []
    let joined : Chain :=
      { ch with queue := ch.queue ++ [{ cmd := cmd.toCmd, issuer := .control, ofAttempt := false }] }
    (ch.pendingDisable = true ∨ ch.state = .off ∨ ch.state = .faulted →
      s.nodeCommand q c a cmd = s.answer q .state .empty) ∧
    (ch.pendingDisable = false → ch.state ≠ .off → ch.state ≠ .faulted →
      (a ≠ 31 → ch.node a = none → s.nodeCommand q c a cmd = s.answer q .notFound .empty) ∧
      (∀ n, a ≠ 31 → ch.node a = some n → (n.state = .failed ∨ n.state = .cut) →
        s.nodeCommand q c a cmd = s.answer q .state .empty) ∧
      ((a = 31 ∨ ∃ n, ch.node a = some n ∧ n.state ≠ .failed ∧ n.state ≠ .cut) →
        (¬ room → s.nodeCommand q c a cmd = s.answer q .full .empty) ∧
        (room → s.nodeCommand q c a cmd = (s.setChain c joined).answer q .ok .empty))))

/-- NODE_REINSTATE (R62): the checks in order; accepted, an attempt is present and ROUTE NORMAL to the predecessor stands
behind the repair commands. The predecessor of position 1 is the port. The model's own: an absent END hop counts as 0 (log
30), and while a SET_END or a ROUTE waits the END hop is the one that comes, which with none waiting is the record's (log
52). -/
def Obligations.ReinstateBeginsAnAttempt : Prop :=
  ∀ (q : Request) (rest : List Request) (s : State) (r : NodeRef),
    Waits .nodeReinstate q rest s → nodeRef? q.body = some r →
    let ch := s.chains.get r.chain
    let begun (pred : Option Nat) : Chain :=
      { ch with attempt := some { kind := .reinstate, target := r.address, pred := pred, phase := .routing,
                                  trialEnd := ch.nextEnd.getD 0 + 1, bundled := false, evicted := false,
                                  lapsed := false },
                queue := insertRepair ch.queue
                  { cmd := .route pred .normal, issuer := .manager, ofAttempt := true } }
    ((∀ x ∈ ch.queue, x.cmd.isRepair = false) → ch.lastPath = ch.path.1 → ch.nextEnd = ch.endHop) ∧
    (ch.node r.address = none → exec .nodeReinstate s = .next ((s.taken rest).replied q .notFound .empty)) ∧
    (∀ n, ch.node r.address = some n → (n.state ≠ .failed ∨ ch.pendingDisable = true) →
      exec .nodeReinstate s = .next ((s.taken rest).replied q .state .empty)) ∧
    (∀ n, ch.node r.address = some n → n.state = .failed → ch.pendingDisable = false → 1 < n.position →
      (∀ a m, ch.atPosition (n.position - 1) = some (a, m) → m.state = .failed ∨ m.state = .cut) →
      exec .nodeReinstate s = .next ((s.taken rest).replied q .state .empty)) ∧
    (∀ n pred, ch.node r.address = some n → n.state = .failed → ch.pendingDisable = false →
      ((n.position = 1 ∧ pred = none) ∨
        (1 < n.position ∧ ∃ a m, ch.atPosition (n.position - 1) = some (a, m) ∧ m.state ≠ .failed ∧ m.state ≠ .cut ∧
          pred = some a)) →
      ((ch.state ≠ .running ∨ ch.attempt ≠ none) →
        exec .nodeReinstate s = .next ((s.taken rest).replied q .busy .empty)) ∧
      (ch.state = .running → ch.attempt = none → ch.queue.length < 16 →
        exec .nodeReinstate s = .next (((s.taken rest).setChain r.chain (begun pred)).replied q .ok .empty)))

/-! ### Chapter 4 -/

/-- SEGMENT_START (R66 to R68), the stall watch (R70) and SEGMENT_HEADER (R69). A segment still arriving is truncated and
counted BAD_LENGTH; the new one takes a free entry, or meets HOLD and raises SEG_OVERRUN. The first tick taken while a segment
is RECEIVING is counted; the second discards it and raises SEG_STALL with what its header gave. A header's length is looked at
first, then chain and address; a header that passes fixes how many bytes follow, and a discarded segment's bytes are ignored.
The model's own: with both entries free a segment takes the first (log 48), a header with both checks failed counts BAD_LENGTH
(log 50), the stall's own row takes the tick that decides it (log 5), and with no segment, or with another number of bytes, the
command does nothing (log 1). -/
def Obligations.SegmentsStartStallAndAreChecked : Prop :=
  ((∀ s : State, s.intake.receiving = none →
    (s.intake.e0 ≠ .free → s.intake.e1 ≠ .free →
      exec .segmentStart s = .next ((s.setIntake (s.intake.count .overrun)).raise .segOverrun .intake none).ended) ∧
    (s.intake.e0 = .free →
      exec .segmentStart s = .next
        (s.setIntake (({ s.intake with e0 := .receiving none 0 } : Intake).count .received)).ended) ∧
    (s.intake.e0 ≠ .free → s.intake.e1 = .free →
      exec .segmentStart s = .next
        (s.setIntake (({ s.intake with e1 := .receiving none 0 } : Intake).count .received)).ended)) ∧
  (∀ (s : State) (h : Option SegHeader) (t : Nat), s.intake.e0 = .receiving h t →
    exec .segmentStart s = .next
      (s.setIntake ((({ s.intake with e0 := .receiving none 0 } : Intake).count .badLength).count .received)).ended) ∧
  (∀ (s : State) (h : Option SegHeader) (t : Nat), (∀ g u, s.intake.e0 ≠ .receiving g u) → s.intake.e1 = .receiving h t →
    (s.intake.e0 ≠ .free →
      exec .segmentStart s = .next
        (s.setIntake ((({ s.intake with e1 := .receiving none 0 } : Intake).count .badLength).count .received)).ended) ∧
    (s.intake.e0 = .free →
      exec .segmentStart s = .next
        (s.setIntake ((({ s.intake with e0 := .receiving none 0, e1 := .free } : Intake).count .badLength).count
          .received)).ended)) ∧
  (∀ (s : State) (n : Word16) (ticks : List Word16), s.mail.ticks.intake = n :: ticks →
    let taken := s.setMail { s.mail with ticks := { s.mail.ticks with intake := ticks } }
    (s.intake.receiving = none → exec .segmentIntakeTick s = .next taken.ended) ∧
    (∀ e h, s.intake.receiving = some (e, h, 0) →
      exec .segmentIntakeTick s = .next (taken.setIntake (s.intake.setEntry e (.receiving h 1))).ended) ∧
    (∀ e h t, s.intake.receiving = some (e, h, t) → 1 ≤ t →
      let stalled := (taken.setIntake ((s.intake.setEntry e .free).count .stall)).raise
        (.segStall (h.map fun x => x.frame)) .intake (h.map fun x => { chain := x.chain, address := x.address })
      exec .segmentIntakeTick s = .next stalled.ended ∧ exec .segmentStallExpiry s = .next stalled.ended))) ∧
  ((∀ (e : EntryId) (t : Nat) (chain address : Byte) (frame length : Word16) (s : State),
    s.intake.receiving = some (e, none, t) →
    let dropped (k : IntakeCtr) : State := (s.setIntake ((s.intake.setEntry e .free).count k)).ended
    (length.toNat < 1 ∨ 4096 < length.toNat →
      exec (.segmentHeader chain address frame length) s = .next (dropped .badLength)) ∧
    (1 ≤ length.toNat → length.toNat ≤ 4096 → (3 < chain.toNat ∨ address.toNat < 1 ∨ 30 < address.toNat) →
      exec (.segmentHeader chain address frame length) s = .next (dropped .badTarget)) ∧
    (∀ c : ChainId, 1 ≤ length.toNat → length.toNat ≤ 4096 → chain.toNat = c.val → 1 ≤ address.toNat →
      address.toNat ≤ 30 →
      let h : SegHeader := { chain := c, address := address.toNat, frame := frame, length := length.toNat }
      exec (.segmentHeader chain address frame length) s = .next
        (s.setIntake (s.intake.setEntry e (.receiving (some h) t))).ended)) ∧
  (∀ (e : EntryId) (h : SegHeader) (t : Nat) (payload : List Byte) (crc : Word32) (s : State),
    s.intake.receiving = some (e, some h, t) → payload.length ≠ h.length →
    exec (.segmentEnd payload crc) s = .next s) ∧
  (∀ (chain address : Byte) (frame length : Word16) (payload : List Byte) (crc : Word32) (s : State),
    s.intake.receiving = none →
    exec (.segmentHeader chain address frame length) s = .next s ∧ exec (.segmentEnd payload crc) s = .next s))

/-- SEGMENT_END (R71 to R74, R76, R78): the CRC-32, then the filing checks in their order, each with its count; a segment
that passes reserves the first unreserved buffer, is QUEUED for its store, or STORING when the memory is free, and a free
count below T starts a pause. The model's own: a frame exactly 32768 away is late (log 35). -/
def Obligations.SegmentEndChecksAndFiles : Prop :=
  ∀ (e : EntryId) (h : SegHeader) (t : Nat) (payload : List Byte) (crc : Word32) (s : State),
    s.intake.receiving = some (e, some h, t) → payload.length = h.length →
    let ch := s.chains.get h.chain
    let node : NodeRef := { chain := h.chain, address := h.address }
    let ahead := (h.frame - s.ref.counter).toNat
    let dropped (k : IntakeCtr) : State := s.setIntake ((s.intake.setEntry e .free).count k)
    let carries := ch.state = .running ∨ ch.state = .extending ∨ ch.state = .broken
    let shows (n : Node) (x : TileSettings) : Prop :=
      ch.node h.address = some n ∧ n.kind = .tile x ∧ (n.state = .live ∨ n.state = .suspect)
    (crc32 (h.bytes ++ payload) ≠ crc →
      exec (.segmentEnd payload crc) s = .next ((dropped .check).raise (.segCheck h.frame) .intake (some node)).ended) ∧
    (crc32 (h.bytes ++ payload) = crc →
      (¬ carries → exec (.segmentEnd payload crc) s = .next (dropped .chainOff).ended) ∧
      (carries → (¬ ∃ n x, shows n x) → exec (.segmentEnd payload crc) s = .next (dropped .notLive).ended) ∧
      (carries → ∀ n x, shows n x →
        (ahead = 0 ∨ 32768 ≤ ahead →
          let late : Node := { n with kind := .tile { x with lateCount := bump16 x.lateCount } }
          exec (.segmentEnd payload crc) s = .next
            ((dropped .late).setChain h.chain (ch.setNode h.address (some late))).ended) ∧
        (5 ≤ ahead → ahead ≤ 32767 → exec (.segmentEnd payload crc) s = .next (dropped .early).ended) ∧
        (1 ≤ ahead → ahead ≤ 4 → (∀ f ∈ s.pool.free, f.reservedBy ≠ none) →
          (s.pool.exhausted = true → exec (.segmentEnd payload crc) s = .next (dropped .nobuf).ended) ∧
          (s.pool.exhausted = false → exec (.segmentEnd payload crc) s = .next
            (((dropped .nobuf).setPool { s.pool with exhausted := true }).raise (.poolEmpty h.frame) .pool
              (some node)).ended)) ∧
        (1 ≤ ahead → ahead ≤ 4 → ∀ before b after,
          s.pool.free = before ++ { buffer := b, reservedBy := none } :: after → (∀ f ∈ before, f.reservedBy ≠ none) →
          ∃ u, exec (.segmentEnd payload crc) s = .next u ∧
            u.pool.free = s.pool.free.map (fun f => if f.buffer = b then { f with reservedBy := some e } else f) ∧
            (s.pool.busy ≠ none →
              u.intake = s.intake.setEntry e (.queued h payload b) ∧ u.pool.busy = s.pool.busy ∧
                u.pool.stores = s.pool.stores ++ [e]) ∧
            (s.pool.busy = none → s.pool.reads = [] → s.pool.stores = [] →
              u.intake = s.intake.setEntry e (.storing h payload b false) ∧ u.pool.busy = some (.store e) ∧
                u.pool.stores = []) ∧
            u.pool.pause = (s.pool.pause || decide (u.pool.freeCount < s.pool.threshold)) ∧
            u.pool.flowOut = s.pool.flowOut ++
              (if s.pool.pause = false ∧ u.pool.freeCount < s.pool.threshold then
                [.pause s.ref.counter s.pool.pauseLen] else []) ∧
            u.pool.memory = s.pool.memory ∧ u.ref = s.ref ∧ u.chains = s.chains ∧ u.asm = s.asm ∧
            u.stills = s.stills ∧ u.scene = s.scene ∧ u.tally = s.tally ∧ u.cues = s.cues ∧ u.mail = s.mail)))

/-- STORE_COMPLETE (R77, R85): the payload stands in the buffer, every other byte of the segment memory is unchanged, and the
entry is free; a flushed segment's buffer is released; otherwise the chain and the window are checked anew, and the segment
is discarded with its count, or filed, replacing the buffer that stood in its slot. The freed memory is granted. The model's
own: a frame exactly 32768 away is late (log 35), and the integrity code is a constant without a value (log 6). -/
def Obligations.StoreCompleteRechecksAndFiles : Prop :=
  (∀ (e : EntryId) (h : SegHeader) (payload : List Byte) (b : Nat) (flushed : Bool) (s : State),
    s.pool.busy = some (.store e) → s.intake.entry e = .storing h payload b flushed →
    let ch := s.chains.get h.chain
    let m := s.asm.get h.chain
    let ahead := (h.frame - s.ref.counter).toNat
    let p : Pool := { s.pool with busy := none, memory := Memory.writeBytes s.pool.memory (4096 * b) payload,
                                  info := s.pool.info.set b
                                    (some { length := payload.length, code := Config.integrityCode payload }) }
    let others := p.free.filter fun f => decide (f.buffer ≠ b)
    let lifted : Pool := { p with free := others ++ [{ buffer := b, reservedBy := none }] }
    let dropped (k : IntakeCtr) : State := (s.setPool lifted).setIntake ((s.intake.setEntry e .free).count k)
    let carries := ch.state = .running ∨ ch.state = .extending ∨ ch.state = .broken
    let same (x : FrameSlot) : Prop := x.address = h.address ∧ x.frame = h.frame
    let new : FrameSlot := { frame := h.frame, address := h.address, buffer := b }
    (flushed = true →
      exec .storeComplete s = .next ((s.setPool lifted).setIntake (s.intake.setEntry e .free)).grantMemory.ended) ∧
    (flushed = false → ¬ carries → exec .storeComplete s = .next (dropped .chainOff).grantMemory.ended) ∧
    (flushed = false → carries → ahead = 0 ∨ 32768 ≤ ahead →
      exec .storeComplete s = .next ((dropped .late).setChain h.chain
        (ch.updateTile h.address fun x => { x with lateCount := bump16 x.lateCount })).grantMemory.ended) ∧
    (flushed = false → carries → 5 ≤ ahead → ahead ≤ 32767 →
      exec .storeComplete s = .next (dropped .early).grantMemory.ended) ∧
    (flushed = false → carries → 1 ≤ ahead → ahead ≤ 4 → (∀ x ∈ m.slots, ¬ same x) →
      exec .storeComplete s = .next
        (((s.setPool { p with free := others }).setIntake ((s.intake.setEntry e .free).count .filed)).setAsm h.chain
          { m with slots := m.slots ++ [new] }).grantMemory.ended) ∧
    (flushed = false → carries → 1 ≤ ahead → ahead ≤ 4 → ∀ before old after, m.slots = before ++ old :: after →
      same old → (∀ x ∈ before ++ after, ¬ same x) →
      exec .storeComplete s = .next
        (((s.setPool { p with free := others ++ [{ buffer := old.buffer, reservedBy := none }] }).setIntake
          (((s.intake.setEntry e .free).count .dup).count .filed)).setAsm h.chain
            { m with slots := before ++ after ++ [new] }).grantMemory.ended)) ∧
  (∀ (m : List Host.Cell) (payload : List Byte) (base a : Nat), Memory.wf m →
    Memory.read (Memory.writeBytes m base payload) a =
      if base ≤ a ∧ a < base + payload.length then payload.getD (a - base) 0 else Memory.read m a)

/-- FLOW_CLEAR (R75, R82, R85, R86, R104): BUSY while one waits for its reply; otherwise every staged segment is counted
FLUSHED: one being received or QUEUED is discarded at once, the reserved buffer joining the free tail, one being stored is
flushed at its completion; every chain has its share to take, and the reply waits. The share of a chain is the first thing its
next frame order does, of whatever kind: its entries by frame from the order's own and within a frame by address, then its
held references by address, go to the free tail, each counted RETURNED, and the order's bundle has an empty emitting set. With
the last share the pause is evaluated as at a tick (RESUME with FLOW report PAUSE_END and the exhaustion mark cleared, PAUSE
again, or nothing), and the reply is ready. The model's own: of two QUEUED entries the first is flushed first (log 49). -/
def Obligations.FlowClearEmptiesTheBuffers : Prop :=
  (∀ (q : Request) (rest : List Request) (s : State), Waits .flowClear q rest s → q.body = [] →
    (s.intake.clearWaiting = true → exec .flowClear s = .next ((s.taken rest).replied q .busy .empty)) ∧
    (s.intake.clearWaiting = false →
      let kept (x : Entry) : Entry :=
        match x with
        | .free => .free
        | .receiving _ _ => .free
        | .queued _ _ _ => .free
        | .storing h p b _ => .storing h p b true
      let counted (x : Entry) (i : Intake) : Intake :=
        match x with
        | .free => i
        | .receiving _ _ => i.count .flushed
        | .queued _ _ _ => i.count .flushed
        | .storing _ _ _ flushed => if flushed then i else i.count .flushed
      let freed (e : EntryId) (x : Entry) (p : Pool) : Pool :=
        match x with
        | .free => p
        | .receiving _ _ => p
        | .queued _ _ b =>
            { p with stores := p.stores.filter fun y => decide (y ≠ e),
                     free := p.free.filter (fun y => decide (y.buffer ≠ b)) ++ [{ buffer := b, reservedBy := none }] }
        | .storing _ _ _ _ => p
      ∃ u, exec .flowClear s = .next u ∧
        u.intake =
          { counted s.intake.e1 (counted s.intake.e0
              { s.intake with e0 := kept s.intake.e0, e1 := kept s.intake.e1 }) with clearWaiting := true } ∧
        u.pool = freed .e1 s.intake.e1 (freed .e0 s.intake.e0 s.pool) ∧
        (∀ c, u.asm.get c = { s.asm.get c with clearDue := true }) ∧
        u.link = ({ s.link with
          waiting := rest,
          deferred := s.link.deferred ++ [{ kind := q.kind, tag := q.tag, what := .flowClear }] } : Link).pump ∧
        u.ref = s.ref ∧ u.chains = s.chains ∧ u.stills = s.stills ∧ u.scene = s.scene ∧ u.tally = s.tally ∧
        u.cues = s.cues ∧ u.mail = s.mail)) ∧
  (∀ (c : ChainId) (o : FrameOrder) (orders : List AsmMsg) (entries : List FrameSlot) (s : State),
    s.mail.orders.get c = .order o :: orders →
    let m := s.asm.get c
    m.bundle = none → m.waiting = [] → (∀ x ∈ (s.chains.get c).probes, x.ordered = false) → m.clearDue = true →
    entries.Perm m.slots →
    entries.Pairwise (fun x y => (x.frame - o.frame).toNat < (y.frame - o.frame).toNat ∨
      (x.frame = y.frame ∧ x.address < y.address)) →
    let held : List Nat := (List.range 30).filterMap fun k => m.heldAt (k + 1)
    let buffers : List Nat := entries.map (fun x => x.buffer) ++ held
    let p : Pool := { s.pool with free := s.pool.free ++ buffers.map fun b => { buffer := b, reservedBy := none } }
    let shared (p : Pool) (l : Link) (waits : Bool) : Prop :=
      ∃ u, exec (.frameOrder c) s = .next u ∧ u.pool = p ∧ u.link = l.pump ∧
        u.intake = { s.intake with clearWaiting := waits } ∧ (u.asm.get c).slots = [] ∧
        (∀ a, (u.asm.get c).heldAt a = none) ∧ (u.asm.get c).clearDue = false ∧
        (u.asm.get c).counters.returned = bump16By buffers.length m.counters.returned ∧
        (∀ b, (u.asm.get c).bundle = some b → b.emitting = []) ∧ (∀ d, d ≠ c → u.asm.get d = s.asm.get d) ∧
        u.ref = s.ref ∧ u.stills = s.stills ∧ u.scene = s.scene ∧ u.tally = s.tally ∧ u.cues = s.cues ∧
        u.mail = { s.mail with orders := s.mail.orders.set c orders }
    ((∃ d, d ≠ c ∧ (s.asm.get d).clearDue = true) → shared p s.link s.intake.clearWaiting) ∧
    (∀ before k tag later, (∀ d, d ≠ c → (s.asm.get d).clearDue = false) →
      s.link.deferred = before ++ { kind := k, tag := tag, what := .flowClear } :: later →
      (∀ x ∈ before, x.what ≠ .flowClear) →
      let answered (l : Link) : Link :=
        { l with deferred := before ++ later,
                 ready := l.ready ++ [{ kind := k, tag := tag, code := .ok, body := .empty, refusal := false }] }
      let e := s.ref.counter
      (p.pause = false → shared p (answered s.link) false) ∧
      (p.pause = true → p.freeCount < p.threshold →
        shared { p with flowOut := p.flowOut ++ [.pause e p.pauseLen] } (answered s.link) false) ∧
      (p.pause = true → p.threshold ≤ p.freeCount →
        shared { p with pause := false, exhausted := false, flowOut := p.flowOut ++ [.resume e] }
          (answered (s.report (.flow .pauseEnd e p.freeCount p.quarantine.length p.threshold p.pauseLen)).link) false)))

/-- BUFFER_POOL_TICK (R79), SEG_SET (R80), FLOW_MESSAGE_END (R196), and the order of the memory arbiter (R76): emission reads,
then stores, then the scrub test, each oldest first, one operation at a time. -/
def Obligations.PoolTicksSettingsAndGrants : Prop :=
  (∀ (n : Word16) (ticks : List Word16) (s : State), s.mail.ticks.pool = n :: ticks →
    let taken := s.setMail { s.mail with ticks := { s.mail.ticks with pool := ticks } }
    let p := s.pool
    let e := s.ref.counter
    (p.pause = false → exec .bufferPoolTick s = .next taken.ended) ∧
    (p.pause = true → p.freeCount < p.threshold →
      exec .bufferPoolTick s = .next
        (taken.setPool { p with flowOut := p.flowOut ++ [.pause e p.pauseLen] }).ended) ∧
    (p.pause = true → p.threshold ≤ p.freeCount →
      exec .bufferPoolTick s = .next
        ((taken.setPool { p with pause := false, exhausted := false, flowOut := p.flowOut ++ [.resume e] }).report
          (.flow .pauseEnd e p.freeCount p.quarantine.length p.threshold p.pauseLen)).ended)) ∧
  (∀ (q : Request) (rest : List Request) (s : State) (t l : Nat), Waits .segSet q rest s →
    segSet? q.body = some (t, l) →
    let p : Pool := { s.pool with threshold := if t = 0 then s.pool.threshold else t,
                                  pauseLen := if l = 0 then s.pool.pauseLen else l }
    let e := s.ref.counter
    (p.pause = true ∨ p.threshold ≤ p.freeCount →
      exec .segSet s = .next (((s.taken rest).setPool p).replied q .ok .empty)) ∧
    (p.pause = false → p.freeCount < p.threshold →
      exec .segSet s = .next
        ((((s.taken rest).setPool { p with pause := true, flowOut := p.flowOut ++ [.pause e p.pauseLen] }).report
          (.flow .pauseStart e p.freeCount p.quarantine.length p.threshold p.pauseLen)).replied q .ok .empty))) ∧
  (∀ (m : FlowMsg) (rest : List FlowMsg) (s : State), s.pool.flowOut = m :: rest →
    exec .flowMessageEnd s = .next (s.setPool { s.pool with flowOut := rest }).ended) ∧
  (∀ p : Pool,
    (p.busy ≠ none → p.grant = p) ∧
    (∀ c b rest, p.busy = none → p.reads = (c, b) :: rest →
      p.grant = { p with busy := some (.read c b), reads := rest }) ∧
    (∀ e rest, p.busy = none → p.reads = [] → p.stores = e :: rest →
      p.grant = { p with busy := some (.store e), stores := rest }) ∧
    (∀ sc b rest, p.busy = none → p.reads = [] → p.stores = [] → p.testWaiting = true → p.scrub = some sc →
      sc.todo = b :: rest → p.grant = { p with busy := some (.test b), testWaiting := false }) ∧
    (p.busy = none → p.reads = [] → p.stores = [] → p.testWaiting = false → p.grant = p))

/-- POOL_SCRUB and SCRUB_TEST_COMPLETE (R83, R84): BUSY while a scrub runs; the quarantined buffers that are not retired are
tested one by one; one that passed joins the free tail, one that failed stays with its fail count raised; the test's pattern
stands in the buffer and nowhere else; the last test ends the scrub with its POOL report. The model's own: whether the words
matched is the command's operand (log 6), and the pattern is a constant without a value (log 8). -/
def Obligations.ScrubTestsTheQuarantine : Prop :=
  (∀ (q : Request) (rest : List Request) (s : State), Waits .poolScrub q rest s → q.body = [] →
    let p := s.pool
    let todo := (p.quarantine.filter fun x => decide (x.2 < 255)).map fun x => x.1
    (p.scrub ≠ none → exec .poolScrub s = .next ((s.taken rest).replied q .busy .empty)) ∧
    (p.scrub = none → todo = [] →
      exec .poolScrub s = .next
        (((s.taken rest).report (.pool 0 0 0 p.quarantine.length p.freeCount s.ref.counter)).grantMemory.replied q .ok
          .empty)) ∧
    (p.scrub = none → todo ≠ [] →
      exec .poolScrub s = .next
        (((s.taken rest).setPool { p with scrub := some { todo := todo, tested := 0, returned := 0, kept := 0 },
                                          testWaiting := true }).grantMemory.replied q .ok .empty))) ∧
  (∀ (b : Nat) (ok : Bool) (sc : Scrub) (s : State), s.pool.busy = some (.test b) → s.pool.scrub = some sc →
    let written : Pool := { s.pool with busy := none,
                                        memory := Memory.writeBytes s.pool.memory (4096 * b) testBytes }
    let p : Pool :=
      if ok then { written with quarantine := written.quarantine.filter fun x => decide (x.1 ≠ b),
                                free := written.free ++ [{ buffer := b, reservedBy := none }] }
      else { written with quarantine := written.quarantine.map fun x => if x.1 = b then (x.1, min (x.2 + 1) 255) else x }
    let returned := if ok then sc.returned + 1 else sc.returned
    let kept := if ok then sc.kept else sc.kept + 1
    ((∀ x ∈ s.pool.quarantine, x.2 ≤ 255) → sc.todo.tail = [] →
      exec (.scrubTestComplete ok) s = .next
        ((s.setPool { p with scrub := none }).report
          (.pool (sc.tested + 1) returned kept p.quarantine.length p.freeCount s.ref.counter)).grantMemory.ended) ∧
    ((∀ x ∈ s.pool.quarantine, x.2 ≤ 255) → sc.todo.tail ≠ [] →
      exec (.scrubTestComplete ok) s = .next
        (s.setPool { p with scrub := some { todo := sc.todo.tail, tested := sc.tested + 1, returned := returned,
                                            kept := kept },
                            testWaiting := true }).grantMemory.ended)) ∧
  testBytes.length = 4096

/-! ### Chapters 5 and 6 -/

/-- FRAME_ORDER (R91, R93, R94, R105): an order behind a bundle that has not left waits and counts OVERRUN; otherwise it
takes the oldest post, or keeps the last one. A NONE order keeps the entries one to four frames ahead of its own and releases
every other one; a DISABLE order gives back every entry and held reference; an ASSEMBLE order with an empty path goes
straight to its return token. The model's own: an order also waits behind a probe bundle of an earlier tick, and taking an
order marks the probe bundle of its own tick as one of an earlier tick for the orders to come (log 20). -/
def Obligations.FrameOrdersAreTakenOrWait : Prop :=
  ∀ (c : ChainId) (o : FrameOrder) (orders : List AsmMsg) (s : State),
    s.mail.orders.get c = .order o :: orders →
    let m := s.asm.get c
    let taken := s.setMail { s.mail with orders := s.mail.orders.set c orders }
    let posted : AsmChain := { m with posts := m.posts.tail, lastPost := m.posts.headD m.lastPost }
    (m.bundle ≠ none ∨ m.waiting ≠ [] ∨ (∃ p ∈ (s.chains.get c).probes, p.ordered = true) →
      exec (.frameOrder c) s = .next
        (taken.setAsm c { m with waiting := m.waiting ++ [o],
                                 counters := { m.counters with overrun := bump16 m.counters.overrun } }).ended) ∧
    (m.bundle = none → m.waiting = [] → (∀ p ∈ (s.chains.get c).probes, p.ordered = false) →
      m.clearDue = false →
      (∀ before p later, (s.chains.get c).probes = before ++ p :: later → p.info.frame = o.frame →
        (∀ x ∈ before, x.info.frame ≠ o.frame) →
        ∃ u, exec (.frameOrder c) s = .next u ∧
          (u.chains.get c).probes = before ++ { p with ordered := true } :: later) ∧
      ((∀ x ∈ (s.chains.get c).probes, x.info.frame ≠ o.frame) →
        ∃ u, exec (.frameOrder c) s = .next u ∧ (u.chains.get c).probes = (s.chains.get c).probes) ∧
      (o.kind = .none →
        ∃ u, exec (.frameOrder c) s = .next u ∧
          (u.asm.get c).slots = m.slots.filter (fun x => 1 ≤ (x.frame - o.frame).toNat ∧ (x.frame - o.frame).toNat ≤ 4) ∧
          (∀ x ∈ m.slots, x ∉ (u.asm.get c).slots →
            ({ buffer := x.buffer, reservedBy := none } : FreeBuf) ∈ u.pool.free) ∧
          (u.asm.get c).posts = posted.posts ∧ (u.asm.get c).lastPost = posted.lastPost ∧ (u.asm.get c).bundle = none ∧
          (∀ d, d ≠ c → u.asm.get d = s.asm.get d ∧ u.chains.get d = s.chains.get d) ∧
          u.pool.memory = s.pool.memory ∧ u.intake = s.intake ∧ u.stills = s.stills ∧ u.scene = s.scene) ∧
      (o.kind = .disable →
        ∃ u, exec (.frameOrder c) s = .next u ∧ (u.asm.get c).slots = [] ∧ (∀ a, (u.asm.get c).heldAt a = none) ∧
          (u.asm.get c).posts = posted.posts ∧ (u.asm.get c).lastPost = posted.lastPost ∧
          (∀ x ∈ m.slots, ({ buffer := x.buffer, reservedBy := none } : FreeBuf) ∈ u.pool.free) ∧
          (∀ a b, 1 ≤ a → a ≤ 30 → m.heldAt a = some b →
            ({ buffer := b, reservedBy := none } : FreeBuf) ∈ u.pool.free)) ∧
      (∀ info cmds, o.kind = .assemble info cmds → info.path = [] → m.slots = [] → (∀ a, m.heldAt a = none) →
        (s.chains.get c).probes = [] →
        exec (.frameOrder c) s = .next
          (taken.setAsm c { posted with
            bundle := some { info := info, gen := posted.lastPost.gen, cmds := cmds, emitting := [], out := [],
                             jobs := [], wait := .token, stopping := false } }).ended))

/-- The block of a bundle with one place, by the record and the posted look when the order is taken (R92, R95 to R98, R100):
a level block, an identity-poll block or an empty block; for a tile the segment of the frame, the still, the held buffer or
BLACK as its source asks; a segment the source does not show is superseded; LIVE_FEED without a segment is a gap, filled by
REPEAT, STILL or BLACK, each falling back to what the tile has. Of a bundle with several places the blocks go out in the order
of the path, up to the first that waits for a read or a still; the places behind it wait with it. As the bundle starts, the
entries outside the window expire, early or late, and those of the order's frame join the emitting set, or are withdrawn when
their node is no tile that shows or stands off the path (R92, R93); each is counted, a late one at its tile too, and its
buffer joins the free tail. The model's own: the entries too early are released ahead of those too late and those withdrawn, in
serial order from the order's own frame (log 34), and an entry 32768 or more ahead counts EXPIRED_LATE, the four frames among
them to which both EXPIRED rows apply too (log 35). -/
def Obligations.BlocksFollowTheRecordAndTheLook : Prop :=
  (∀ (c : ChainId) (o : FrameOrder) (orders : List AsmMsg) (info : BundleInfo) (cmds : List Cmd) (pos a : Nat) (n : Node)
    (s : State),
    s.mail.orders.get c = .order o :: orders → o.kind = .assemble info cmds → info.frame = o.frame →
    info.path = [{ position := pos, address := some a }] → 1 ≤ a → a ≤ 30 →
    let m := s.asm.get c
    let ch := s.chains.get c
    let post := m.posts.headD m.lastPost
    let look := post.look a
    m.bundle = none → m.waiting = [] → ch.probes = [] → m.clearDue = false → m.held.length = 30 →
    ch.nodes.length = 30 → ch.node a = some n → (∀ x y, ch.node x = some y → y.state ≠ .cut) →
    let bundle : Bundle := { info := info, gen := post.gen, cmds := cmds, emitting := [], out := [], jobs := [],
                             wait := .token, stopping := false }
    let segment (b : Nat) : FrameSlot := { frame := o.frame, address := a, buffer := b }
    let sent (x : Block) : Prop := ∃ u, exec (.frameOrder c) s = .next u ∧
      (u.asm.get c).bundle = some { bundle with out := [x] } ∧ (u.asm.get c).slots = []
    let gapCounted (u : State) (t : TileSettings) : Prop :=
      (u.asm.get c).counters = { m.counters with gaps := bump16 m.counters.gaps } ∧
      (u.chains.get c).node a = some { n with kind := .tile { t with gapCount := bump16 t.gapCount } }
    let superseded (u : State) (b : Nat) : Prop :=
      (u.asm.get c).counters = { m.counters with superseded := bump16 m.counters.superseded } ∧
      ({ buffer := b, reservedBy := none } : FreeBuf) ∈ u.pool.free
    (m.slots = [] →
      (n.state = .ident → sent .poll) ∧ (n.state = .failed → sent .empty) ∧
      (n.kind = .lamp → (n.state = .live ∨ n.state = .suspect) → sent (.level look.intensity look.preset))) ∧
    (∀ t, n.kind = .tile t → (n.state = .live ∨ n.state = .suspect) →
      (look.source = .liveFeed → ∀ b, m.slots = [segment b] →
        ∃ u, exec (.frameOrder c) s = .next u ∧ (u.asm.get c).slots = [] ∧
          (u.asm.get c).bundle = some { bundle with
            emitting := [(a, b)], wait := .memRead a look.brightness t.gap t.fallback b .segment } ∧
          (u.pool.busy = some (.read c b) ∨ (c, b) ∈ u.pool.reads)) ∧
      (look.source = .liveFeed → m.slots = [] → t.gap = .black →
        sent (.tileBlack look.brightness) ∧ ∃ u, exec (.frameOrder c) s = .next u ∧ gapCounted u t) ∧
      (look.source = .liveFeed → m.slots = [] → t.gap = .repeatHeld → ∀ b, m.heldAt a = some b →
        ∃ u, exec (.frameOrder c) s = .next u ∧
          (u.asm.get c).bundle = some { bundle with
            wait := .memRead a look.brightness t.gap t.fallback b .gapHeld } ∧ gapCounted u t) ∧
      (look.source = .liveFeed → m.slots = [] → t.gap = .repeatHeld → m.heldAt a = none →
        sent (.tileBlack look.brightness) ∧ ∃ u, exec (.frameOrder c) s = .next u ∧ gapCounted u t) ∧
      (look.source = .liveFeed → m.slots = [] → t.gap = .still → ∀ p, t.fallback = some p →
        ∃ u, exec (.frameOrder c) s = .next u ∧
          (u.asm.get c).bundle = some { bundle with wait := .stillAsk a look.brightness p true } ∧ gapCounted u t) ∧
      (look.source = .liveFeed → m.slots = [] → t.gap = .still → t.fallback = none →
        (m.heldAt a = none →
          sent (.tileBlack look.brightness) ∧ ∃ u, exec (.frameOrder c) s = .next u ∧ gapCounted u t) ∧
        (∀ b, m.heldAt a = some b →
          ∃ u, exec (.frameOrder c) s = .next u ∧
            (u.asm.get c).bundle = some { bundle with
              wait := .memRead a look.brightness t.gap t.fallback b .gapHeld } ∧ gapCounted u t)) ∧
      (look.source = .black → ∀ b, m.slots = [segment b] →
        sent (.tileBlack look.brightness) ∧ ∃ u, exec (.frameOrder c) s = .next u ∧ superseded u b) ∧
      (look.source = .black → m.slots = [] → sent (.tileBlack look.brightness)) ∧
      (∀ p b, look.source = .still p → m.slots = [segment b] →
        ∃ u, exec (.frameOrder c) s = .next u ∧ (u.asm.get c).slots = [] ∧ superseded u b ∧
          (u.asm.get c).bundle = some { bundle with wait := .stillAsk a look.brightness p false }) ∧
      (∀ b, look.source = .freeze → m.slots = [segment b] →
        (m.heldAt a = none →
          sent (.tileBlack look.brightness) ∧ ∃ u, exec (.frameOrder c) s = .next u ∧ superseded u b) ∧
        (∀ old, m.heldAt a = some old →
          ∃ u, exec (.frameOrder c) s = .next u ∧ (u.asm.get c).slots = [] ∧ superseded u b ∧
            (u.asm.get c).bundle = some { bundle with
              wait := .memRead a look.brightness t.gap t.fallback old .freeze })) ∧
      (∀ p, look.source = .still p → m.slots = [] →
        ∃ u, exec (.frameOrder c) s = .next u ∧
          (u.asm.get c).bundle = some { bundle with wait := .stillAsk a look.brightness p false }) ∧
      (look.source = .freeze → m.slots = [] →
        (m.heldAt a = none → sent (.tileBlack look.brightness)) ∧
        (∀ b, m.heldAt a = some b →
          ∃ u, exec (.frameOrder c) s = .next u ∧
            (u.asm.get c).bundle = some { bundle with
              wait := .memRead a look.brightness t.gap t.fallback b .freeze })))) ∧
  (∀ (c : ChainId) (o : FrameOrder) (orders : List AsmMsg) (info : BundleInfo) (cmds : List Cmd)
    (first behind : List Place) (blocks : List Block) (s : State),
    s.mail.orders.get c = .order o :: orders → o.kind = .assemble info cmds → info.frame = o.frame →
    info.path = first ++ behind →
    let m := s.asm.get c
    let ch := s.chains.get c
    let post := m.posts.headD m.lastPost
    m.bundle = none → m.waiting = [] → ch.probes = [] → m.clearDue = false → m.slots = [] →
    ch.nodes.length = 30 → (∀ x y, ch.node x = some y → y.state ≠ .cut) →
    let goesOut (p : Place) (x : Block) : Prop :=
      (p.address = none ∧ x = .empty) ∨
      ∃ a n, p.address = some a ∧ 1 ≤ a ∧ a ≤ 30 ∧ ch.node a = some n ∧
        ((n.state = .ident ∧ x = .poll) ∨ (n.state = .failed ∧ x = .empty) ∨
          ((n.state = .live ∨ n.state = .suspect) ∧
            ((n.kind = .lamp ∧ x = .level (post.look a).intensity (post.look a).preset) ∨
              (∃ t, n.kind = .tile t ∧ (post.look a).source = .black ∧
                x = .tileBlack (post.look a).brightness))))
    List.Forall₂ goesOut first blocks →
    let bundle : Bundle := { info := info, gen := post.gen, cmds := cmds, emitting := [], out := blocks, jobs := [],
                             wait := .token, stopping := false }
    (behind = [] → ∃ u, exec (.frameOrder c) s = .next u ∧ (u.asm.get c).bundle = some bundle) ∧
    (∀ p later a n t page, behind = p :: later → p.address = some a → 1 ≤ a → a ≤ 30 → ch.node a = some n →
      (n.state = .live ∨ n.state = .suspect) → n.kind = .tile t → (post.look a).source = .still page →
      ∃ u, exec (.frameOrder c) s = .next u ∧
        (u.asm.get c).bundle = some { bundle with
          jobs := later.map (ch.job post), wait := .stillAsk a (post.look a).brightness page false })) ∧
  (∀ (c : ChainId) (o : FrameOrder) (orders : List AsmMsg) (info : BundleInfo) (cmds : List Cmd)
    (entries : List FrameSlot) (s : State),
    s.mail.orders.get c = .order o :: orders → o.kind = .assemble info cmds → info.frame = o.frame →
    let m := s.asm.get c
    let ch := s.chains.get c
    let post := m.posts.headD m.lastPost
    m.bundle = none → m.waiting = [] → (∀ x ∈ ch.probes, x.ordered = false) → m.clearDue = false →
    ch.nodes.length = 30 → (∀ a n, ch.node a = some n → n.state = .cut → m.heldAt a = none) →
    let ahead (x : FrameSlot) : Nat := (x.frame - o.frame).toNat
    entries.Perm m.slots →
    entries.Pairwise (fun x y => ahead x < ahead y ∨ (x.frame = y.frame ∧ x.address < y.address)) →
    let shows (n : Node) : Bool := decide (n.kindName = .tile ∧ (n.state = .live ∨ n.state = .suspect))
    let joins (x : FrameSlot) : Bool :=
      decide (ahead x = 0) && (ch.node x.address).any shows &&
        info.path.any (fun p => decide (p.address = some x.address))
    let withdrawn : List FrameSlot := entries.filter fun x => decide (ahead x = 0) && !joins x
    let early : List FrameSlot := entries.filter fun x => decide (5 ≤ ahead x ∧ ahead x ≤ 32767)
    let late : List FrameSlot := entries.filter fun x => decide (32768 ≤ ahead x)
    let result (wait : BundleWait) : Prop :=
      ∃ u b, exec (.frameOrder c) s = .next u ∧ (u.asm.get c).bundle = some b ∧ b.wait = wait ∧
        b.emitting = (entries.filter joins).map (fun x => (x.address, x.buffer)) ∧
        (u.asm.get c).slots = m.slots.filter (fun x => decide (1 ≤ ahead x ∧ ahead x ≤ 4)) ∧
        u.pool.free = s.pool.free ++
          (early ++ late ++ withdrawn).map (fun x => ({ buffer := x.buffer, reservedBy := none } : FreeBuf)) ∧
        (u.asm.get c).counters =
          { m.counters with withdrawn := bump16By withdrawn.length m.counters.withdrawn,
                            expiredEarly := bump16By early.length m.counters.expiredEarly,
                            expiredLate := bump16By late.length m.counters.expiredLate } ∧
        (∀ a n, ch.node a = some n →
          (u.chains.get c).node a = some
            (match n.kind with
              | .tile t =>
                  { n with kind := .tile { t with
                      lateCount := bump16By (late.countP fun x => decide (x.address = a)) t.lateCount } }
              | .lamp => n)) ∧
        (u.asm.get c).held = m.held
    ((∀ p ∈ info.path, ∀ a n, p.address = some a → ch.node a = some n → shows n = false) → result .token) ∧
    (∀ p later a n t b, info.path = p :: later → p.address = some a → ch.node a = some n →
      (n.state = .live ∨ n.state = .suspect) → n.kind = .tile t → (post.look a).source = .liveFeed →
      { frame := o.frame, address := a, buffer := b } ∈ m.slots →
      result (.memRead a (post.look a).brightness t.gap t.fallback b .segment)))

/-- EMISSION_READ_COMPLETE for the last block of a bundle (R89, R99, R102): the block goes out with the bytes of the buffer;
a segment sent becomes the held buffer and the one held before is released. On a mismatch the buffer leaves its tile for the
quarantine, MEM_CHECK is raised and counted, and the block goes out BLACK, a segment's as a gap, filled by the gap policy.
The bundle then waits for its token; with places left, their blocks follow up to the next that waits. The model's own:
whether the code matched is the command's operand (log 6), and with no read in progress the command does nothing (log 1). -/
def Obligations.EmissionReadsSendTheImage : Prop :=
  (∀ (c : ChainId) (b a brightness : Nat) (gap : GapPolicy) (fallback : Option Nat) (why : ReadWhy) (bundle : Bundle)
    (first : Bool) (s : State),
    s.pool.busy = some (.read c b) → (s.asm.get c).bundle = some bundle → bundle.stopping = false → bundle.jobs = [] →
    bundle.wait = .memRead a brightness gap fallback b why → (s.asm.get c).held.length = 30 → 1 ≤ a → a ≤ 30 →
    let m := s.asm.get c
    let image : Block := .tileImage brightness (s.pool.contents b)
    let sent : Bundle := { bundle with out := bundle.out ++ [image], wait := .token }
    let black : Bundle := { bundle with emitting := bundle.emitting.filter (fun x => decide (x.2 ≠ b)),
                                        out := bundle.out ++ [.tileBlack brightness], wait := .token }
    (why ≠ .segment →
      ∃ u, exec (.emissionReadComplete true first) s = .next u ∧
        u.asm = s.asm.set c { m with bundle := some sent } ∧ u.pool.free = s.pool.free ∧
        u.pool.quarantine = s.pool.quarantine ∧ u.chains = s.chains ∧ u.link = s.link.pump) ∧
    (why = .segment →
      ∃ u, exec (.emissionReadComplete true first) s = .next u ∧
        u.asm = s.asm.set c { m with
          held := m.held.set (a - 1) (some b),
          bundle := some { sent with emitting := bundle.emitting.filter fun x => decide (x.1 ≠ a) },
          counters := { m.counters with sent := bump16 m.counters.sent } } ∧
        u.pool.free = s.pool.free ++
          (m.heldAt a).toList.map (fun x => ({ buffer := x, reservedBy := none } : FreeBuf)) ∧
        u.pool.quarantine = s.pool.quarantine ∧ u.chains = s.chains) ∧
    (why ≠ .segment →
      ∃ u, exec (.emissionReadComplete false first) s = .next u ∧
        u.asm = s.asm.set c { m with
          held := if m.heldAt a = some b then m.held.set (a - 1) none else m.held, bundle := some black,
          counters := { m.counters with memCheck := bump16 m.counters.memCheck } } ∧
        u.pool.quarantine = s.pool.quarantine ++ [(b, 0)] ∧ u.pool.free = s.pool.free ∧ u.chains = s.chains ∧
        u.link.faultCount = bump16 s.link.faultCount) ∧
    (why = .segment → gap = .black →
      ∃ u, exec (.emissionReadComplete false first) s = .next u ∧
        u.asm = s.asm.set c { m with
          held := if m.heldAt a = some b then m.held.set (a - 1) none else m.held, bundle := some black,
          counters := { m.counters with memCheck := bump16 m.counters.memCheck, gaps := bump16 m.counters.gaps } } ∧
        u.pool.quarantine = s.pool.quarantine ++ [(b, 0)] ∧ u.pool.free = s.pool.free ∧
        u.chains = s.chains.set c
          ((s.chains.get c).updateTile a fun t => { t with gapCount := bump16 t.gapCount }) ∧
        u.link.faultCount = bump16 s.link.faultCount) ∧
    (why = .segment →
      let held : List (Option Nat) := if m.heldAt a = some b then m.held.set (a - 1) none else m.held
      let counted : AsmCounters :=
        { m.counters with memCheck := bump16 m.counters.memCheck, gaps := bump16 m.counters.gaps }
      let fills (bundle : Bundle) (u : State) : Prop :=
        exec (.emissionReadComplete false first) s = .next u ∧
        u.asm = s.asm.set c { m with held := held, bundle := some bundle, counters := counted } ∧
        u.pool.quarantine = s.pool.quarantine ++ [(b, 0)] ∧ u.pool.free = s.pool.free ∧
        u.chains = s.chains.set c
          ((s.chains.get c).updateTile a fun t => { t with gapCount := bump16 t.gapCount }) ∧
        u.link.faultCount = bump16 s.link.faultCount
      let waits : Bundle := { black with out := bundle.out }
      (gap = .repeatHeld ∨ (gap = .still ∧ fallback = none) →
        (m.heldAt a = none ∨ m.heldAt a = some b → ∃ u, fills black u) ∧
        (∀ old, m.heldAt a = some old → old ≠ b →
          ∃ u, fills { waits with wait := .memRead a brightness gap fallback old .gapHeld } u ∧
            (u.pool.busy = some (.read c old) ∨ (c, old) ∈ u.pool.reads))) ∧
      (∀ page, gap = .still → fallback = some page →
        ∃ u, fills { waits with wait := .stillAsk a brightness page true } u)) ∧
    (∀ (ok : Bool) (s : State), (∀ k x, s.pool.busy ≠ some (.read k x)) →
      exec (.emissionReadComplete ok first) s = .next s)) ∧
  (∀ (c : ChainId) (b a brightness : Nat) (gap : GapPolicy) (fallback : Option Nat) (why : ReadWhy) (bundle : Bundle)
    (first : Bool) (xs : List Block) (jobs : List Job) (s : State),
    s.pool.busy = some (.read c b) → (s.asm.get c).bundle = some bundle → bundle.stopping = false →
    bundle.wait = .memRead a brightness gap fallback b why → why ≠ .segment →
    bundle.jobs = xs.map .fixed ++ jobs →
    let out := bundle.out ++ .tileImage brightness (s.pool.contents b) :: xs
    (jobs = [] →
      ∃ u, exec (.emissionReadComplete true first) s = .next u ∧
        (u.asm.get c).bundle = some { bundle with out := out, jobs := [], wait := .token }) ∧
    (∀ a₂ page brightness₂ gap₂ fallback₂ later,
      jobs = .tile a₂ (.still page) brightness₂ gap₂ fallback₂ :: later → bundle.segmentOf a₂ = none →
      ∃ u, exec (.emissionReadComplete true first) s = .next u ∧
        (u.asm.get c).bundle = some { bundle with
          out := out, jobs := later, wait := .stillAsk a₂ brightness₂ page false }) ∧
    (∀ a₂ b₂ brightness₂ gap₂ fallback₂ later,
      jobs = .tile a₂ .liveFeed brightness₂ gap₂ fallback₂ :: later → bundle.segmentOf a₂ = some b₂ →
      ∃ u, exec (.emissionReadComplete true first) s = .next u ∧
        (u.asm.get c).bundle = some { bundle with
          out := out, jobs := later, wait := .memRead a₂ brightness₂ gap₂ fallback₂ b₂ .segment } ∧
        (u.pool.busy = some (.read c b₂) ∨ (c, b₂) ∈ u.pool.reads)))

/-- STILL_READ_REQUEST and STILL_READ_COMPLETE for the last block of a bundle (R97, R100, R112): a READY slot gets its read
mark and the read waits its turn; any other slot gives BLACK, counted STILL_EMPTY for a STILL source, or for a gap the held
buffer, if there is one; at the completion the mark is removed and the block goes out with the slot's bytes. The model's own: with no read taken the command does nothing
(log 1). -/
def Obligations.StillReadsSendTheStill : Prop :=
  (∀ (c : ChainId) (bundle : Bundle) (a brightness page : Nat) (gapFill : Bool) (s : State),
    (s.asm.get c).bundle = some bundle → bundle.wait = .stillAsk a brightness page gapFill → bundle.jobs = [] →
    let m := s.asm.get c
    let r : StillRef := { page := page, chain := c, address := a }
    let black : Bundle := { bundle with out := bundle.out ++ [.tileBlack brightness], wait := .token }
    (∀ data mark, s.stills.slot r = .ready data mark →
      exec (.stillReadRequest c) s = .next
        (({ s with stills := { slots := s.stills.slots.set r.index (.ready data true),
                               reads := s.stills.reads ++ [r] } } : State).setAsm c
          { m with bundle := some { bundle with wait := .stillRead a brightness page } }).ended) ∧
    ((∀ data mark, s.stills.slot r ≠ .ready data mark) → gapFill = false →
      exec (.stillReadRequest c) s = .next
        (s.setAsm c { m with bundle := some black,
                             counters := { m.counters with stillEmpty := bump16 m.counters.stillEmpty } }).ended) ∧
    ((∀ data mark, s.stills.slot r ≠ .ready data mark) → gapFill = true → m.heldAt a = none →
      exec (.stillReadRequest c) s = .next (s.setAsm c { m with bundle := some black }).ended) ∧
    ((∀ data mark, s.stills.slot r ≠ .ready data mark) → gapFill = true → ∀ old, m.heldAt a = some old →
      exec (.stillReadRequest c) s = .next
        ((s.setAsm c { m with
          bundle := some { bundle with wait := .memRead a brightness .still none old .gapHeld } }).setPool
            ({ s.pool with reads := s.pool.reads ++ [(c, old)] } : Pool).grant).ended)) ∧
  (∀ (r : StillRef) (reads : List StillRef) (bundle : Bundle) (brightness : Nat) (data : List Byte) (mark : Bool)
    (s : State),
    s.stills.reads = r :: reads → s.stills.slot r = .ready data mark →
    (s.asm.get r.chain).bundle = some bundle → bundle.stopping = false → bundle.jobs = [] →
    bundle.wait = .stillRead r.address brightness r.page →
    exec .stillReadComplete s = .next
      (({ s with stills := { slots := s.stills.slots.set r.index (.ready data false), reads := reads } } : State).setAsm
        r.chain { s.asm.get r.chain with
          bundle := some { bundle with out := bundle.out ++ [.tileImage brightness data], wait := .token } }).ended) ∧
  (∀ s : State, s.stills.reads = [] → exec .stillReadComplete s = .next s)

/-- RETURN_TOKEN_SENT (R41, R95): the bundle has left and is counted, and its return is collected from now on, if END is
designated; the same for a probe bundle, which is not counted. A return still being collected has its deadline first, handled
as RETURN_DEADLINE handles it; the nodes it lost get their notices. FAULTED_NOTICE (R105): the emitting set goes back in path
order, then the entries and the held references, and no bundle remains; orders that waited are taken as NONE orders. A read
that waits at the arbiter, or at the Stills Store, is withdrawn first; with a read in progress the bundle is marked, and stops
at that read's completion. The model's own: a deciding bundle that leaves with no END designated marks its attempt (log 16),
probe bundles leave in the order of their sending (log 20), the order of the returned entries (log 21), and a break count that
stands at 15 does not act again (log 36). -/
def Obligations.BundlesLeaveOrAreStopped : Prop :=
  (∀ (c : ChainId) (s : State), (s.asm.get c).waiting = [] →
    let m := s.asm.get c
    let ch := s.chains.get c
    let collects (info : BundleInfo) (ch : Chain) : Chain :=
      match ch.endHop, ch.attempt with
      | some _, _ => { ch with collect := some { info := info, stopped := false, bytes := [], blocks := [] } }
      | none, some t => if info.deciding ∧ t.bundled then { ch with attempt := some { t with lapsed := true } } else ch
      | none, none => ch
    let left : AsmChain := { m with bundle := none,
                                    counters := { m.counters with bundles := bump16 m.counters.bundles } }
    let lost (ch : Chain) : List RunnerMsg :=
      ch.lostHeld.map fun x => .lost x.address x.kind x.reachable x.since
    (ch.collect = none →
      (∀ b, m.bundle = some b → b.wait = .token → b.stopping = false →
        exec (.returnTokenSent c) s = .next ((s.setAsm c left).setChain c (collects b.info ch)).ended) ∧
      (∀ p probes, m.bundle = none → ch.probes = p :: probes →
        exec (.returnTokenSent c) s = .next (s.setChain c (collects p.info { ch with probes := probes })).ended)) ∧
    (ch.collect ≠ none → ch.pendingDisable = false → s.mail.ticks.chains.get c ≠ [] →
      ∃ u, exec (.returnDeadline c) s = .next u ∧
        let notices := u.mail.notices.set c (u.mail.notices.get c ++ lost (u.chains.get c))
        (∀ b, m.bundle = some b → b.wait = .token → b.stopping = false →
          exec (.returnTokenSent c) s = .next
            ((((u.setAsm c left).setChain c (collects b.info { u.chains.get c with lostHeld := [] })).setMail
              { u.mail with notices := notices }).ended)) ∧
        (∀ p probes, m.bundle = none → ch.probes = p :: probes →
          exec (.returnTokenSent c) s = .next
            ((u.setChain c (collects p.info { u.chains.get c with lostHeld := [], probes := probes })).setMail
              { u.mail with notices := notices }).ended)) ∧
    (∀ k, ch.collect = some k → ch.state = .running → ch.attempt = none → ch.lostHeld = [] → ch.breakCount ≤ 15 →
      (ch.breakCount = 15 ∨ ch.breakCount + 1 < ch.breakLimit) →
      let missed : Chain := { ch with collect := none, breakCount := min (ch.breakCount + 1) 15,
                                      counters := { ch.counters with missing := bump16 ch.counters.missing } }
      (∀ b, m.bundle = some b → b.wait = .token → b.stopping = false →
        exec (.returnTokenSent c) s = .next ((s.setAsm c left).setChain c (collects b.info missed)).ended) ∧
      (∀ p probes, m.bundle = none → ch.probes = p :: probes →
        exec (.returnTokenSent c) s = .next
          (s.setChain c (collects p.info { missed with probes := probes })).ended))) ∧
  (∀ (c : ChainId) (orders : List AsmMsg) (s : State), s.mail.orders.get c = .faulted :: orders →
    let m := s.asm.get c
    (m.waiting = [] ∨ (m.clearDue = false ∧ (s.chains.get c).probes = [])) →
    let given (first : List Nat) : List FreeBuf :=
      (first ++ (m.slotsFrom s.ref.counter).map (fun x => x.buffer) ++ m.heldList.map (fun x => x.2)).map fun b =>
        { buffer := b, reservedBy := none }
    let stopped (first : List Nat) (reads : List (ChainId × Nat)) (stills : Stills) : Prop :=
      ∃ u, exec (.faultedNotice c) s = .next u ∧ (u.asm.get c).bundle = none ∧ (u.asm.get c).slots = [] ∧
        (∀ a, (u.asm.get c).heldAt a = none) ∧ (u.asm.get c).waiting = [] ∧
        (u.asm.get c).posts = m.posts.drop m.waiting.length ∧
        u.pool.free = s.pool.free ++ given first ∧ u.pool.reads = reads ∧ u.pool.busy = s.pool.busy ∧ u.pool.quarantine = s.pool.quarantine ∧
        (∀ d, d ≠ c → u.asm.get d = s.asm.get d) ∧ u.chains = s.chains ∧ u.stills = stills ∧
        u.mail.orders.get c = orders
    let emitting (b : Bundle) : List Nat := b.info.path.filterMap fun p => p.address.bind b.segmentOf
    let marked (b : Bundle) : State :=
      ((s.setMail { s.mail with orders := s.mail.orders.set c orders }).setAsm c
        { m with bundle := some { b with stopping := true } }).ended
    (m.bundle = none → stopped [] s.pool.reads s.stills) ∧
    (∀ b, m.bundle = some b →
      (b.wait = .token ∨ (∃ a x p g, b.wait = .stillAsk a x p g) → stopped (emitting b) s.pool.reads s.stills) ∧
      (∀ a x gap fallback buffer why, b.wait = .memRead a x gap fallback buffer why →
        ((∀ y, s.pool.busy ≠ some (.read c y)) →
          stopped (emitting b) (s.pool.reads.filter fun r => decide (r.1 ≠ c)) s.stills) ∧
        (∀ y, s.pool.busy = some (.read c y) → exec (.faultedNotice c) s = .next (marked b))) ∧
      (∀ a x p, b.wait = .stillRead a x p →
        let r : StillRef := { page := p, chain := c, address := a }
        (s.stills.reads.head? = some r → exec (.faultedNotice c) s = .next (marked b)) ∧
        (∀ data mark, s.stills.reads.head? ≠ some r → s.stills.slot r = .ready data mark →
          stopped (emitting b) s.pool.reads
            { slots := s.stills.slots.set r.index (.ready data false), reads := s.stills.reads.erase r })))) ∧
  (∀ (c : ChainId) (orders : List AsmMsg) (s : State), s.mail.orders.get c = .faulted :: orders →
    let m := s.asm.get c
    m.bundle = none → m.clearDue = false → (s.chains.get c).probes = [] →
    ∃ u, exec (.faultedNotice c) s = .next u ∧ (u.asm.get c).waiting = [] ∧ (u.asm.get c).bundle = none ∧
      (u.asm.get c).slots = [] ∧ (∀ a, (u.asm.get c).heldAt a = none) ∧
      (u.asm.get c).posts = m.posts.drop m.waiting.length ∧ u.chains = s.chains ∧
      u.pool.free = s.pool.free ++
        ((m.slotsFrom s.ref.counter).map (fun x => x.buffer) ++ m.heldList.map (fun x => x.2)).map
          (fun b => ({ buffer := b, reservedBy := none } : FreeBuf)) ∧
      u.mail.orders.get c = orders) ∧
  (∀ (c : ChainId) (b : Bundle) (s : State), (s.asm.get c).bundle = some b → b.stopping = true →
    let m := s.asm.get c
    (m.waiting = [] ∨ (m.clearDue = false ∧ (s.chains.get c).probes = [])) →
    let freed : List Nat := (b.info.path.filterMap fun p => p.address.bind b.segmentOf) ++
      (m.slotsFrom s.ref.counter).map (fun x => x.buffer) ++ m.heldList.map (fun x => x.2)
    let ends (i : Instr) : Prop :=
      ∃ u, exec i s = .next u ∧ (u.asm.get c).bundle = none ∧ (u.asm.get c).slots = [] ∧
        (∀ a, (u.asm.get c).heldAt a = none) ∧ (u.asm.get c).waiting = [] ∧
        (u.asm.get c).posts = m.posts.drop m.waiting.length ∧
        u.pool.free = s.pool.free ++ freed.map (fun b => { buffer := b, reservedBy := none }) ∧
        u.pool.quarantine = s.pool.quarantine ∧ u.chains = s.chains ∧ (∀ d, d ≠ c → u.asm.get d = s.asm.get d)
    (∀ y ok first, s.pool.busy = some (.read c y) → ends (.emissionReadComplete ok first)) ∧
    (∀ r reads, s.stills.reads = r :: reads → r.chain = c → ends .stillReadComplete))

/-- STILL_WRITE and STILL_CLEAR (R107 to R111, R113). A write at offset 0: BUSY on a slot being read, FULL without room, else
the slot fills, or is READY or EMPTY by the CRC-32 of its last chunk. At a nonzero offset: the fill goes on where it stands,
or is lost with SEQUENCE. Each reply carries the slot and the unreserved count after it. A clear empties its slots unless one
is being read. -/
def Obligations.StillsAreWrittenAndCleared : Prop :=
  (∀ (q : Request) (rest : List Request) (s : State) (x : StillWriteArgs) (c : ChainId), stillWrite? q.body = some x →
    x.page ≤ 3 → x.chain = c.val → 1 ≤ x.address → x.address ≤ 30 → x.offset ≤ 4095 → 1 ≤ x.total → x.total ≤ 4096 →
    1 ≤ x.chunk.length → x.chunk.length ≤ 1024 → x.offset + x.chunk.length ≤ x.total →
    (x.offset + x.chunk.length = x.total ↔ x.crc.isSome = true) →
    let r : StillRef := { page := x.page, chain := c, address := x.address }
    let reply (slot : StillSlot) (code : ReplyCode) : State :=
      let t := { s.taken rest with stills := { s.stills with slots := s.stills.slots.set r.index slot } }
      t.replied q code (.still (some ((t.stills.slot r).shown)) t.stills.unreserved)
    let kept (code : ReplyCode) : State :=
      (s.taken rest).replied q code (.still (some ((s.stills.slot r).shown)) s.stills.unreserved)
    let filled (data : List Byte) (out : Host.Outcome State Fault Refusal) : Prop :=
      (x.crc = none → out = .next (reply (.filling x.total data) .ok)) ∧
      (x.crc = some (crc32 data) → out = .next (reply (.ready data false) .ok)) ∧
      (∀ w, x.crc = some w → w ≠ crc32 data → out = .next (reply .empty .check))
    (Waits .stillWriteBegin q rest s →
      (∀ data, s.stills.slot r = .ready data true → exec .stillWriteBegin s = .next (kept .busy)) ∧
      ((∀ data, s.stills.slot r ≠ .ready data true) →
        (s.stills.unreserved + (s.stills.slot r).reserved < x.total → exec .stillWriteBegin s = .next (kept .full)) ∧
        (x.total ≤ s.stills.unreserved + (s.stills.slot r).reserved → filled x.chunk (exec .stillWriteBegin s)))) ∧
    (Waits .stillWriteContinue q rest s →
      ((∀ total data, s.stills.slot r ≠ .filling total data) →
        exec .stillWriteContinue s = .next (kept .sequence)) ∧
      (∀ total data, s.stills.slot r = .filling total data →
        (x.offset = data.length → x.total = total → filled (data ++ x.chunk) (exec .stillWriteContinue s)) ∧
        ((x.offset ≠ data.length ∨ x.total ≠ total) →
          exec .stillWriteContinue s = .next (reply .empty .sequence))))) ∧
  (∀ (q : Request) (rest : List Request) (s : State) (r : StillRef), Waits .stillClearSlot q rest s →
    stillClearSlot? q.body = some r →
    (∀ data, s.stills.slot r = .ready data true →
      exec .stillClearSlot s = .next ((s.taken rest).replied q .busy .empty)) ∧
    ((∀ data, s.stills.slot r ≠ .ready data true) →
      let t := { s.taken rest with stills := { s.stills with slots := s.stills.slots.set r.index .empty } }
      exec .stillClearSlot s = .next (t.replied q .ok
        (.stillClear (if s.stills.slot r = .empty then 0 else 1) t.stills.unreserved)))) ∧
  (∀ (q : Request) (rest : List Request) (s : State) (page : Nat), Waits .stillClearPage q rest s →
    stillClearPage? q.body = some page → s.stills.slots.length = 480 →
    ((∃ c a data, 1 ≤ a ∧ a ≤ 30 ∧ s.stills.slot { page := page, chain := c, address := a } = .ready data true) →
      exec .stillClearPage s = .next ((s.taken rest).replied q .busy .empty)) ∧
    ((∀ c a data, 1 ≤ a → a ≤ 30 → s.stills.slot { page := page, chain := c, address := a } ≠ .ready data true) →
      let t := { s.taken rest with
        stills := { s.stills with
          slots := s.stills.slots.take (page * 120) ++ List.replicate 120 StillSlot.empty ++
                     s.stills.slots.drop (page * 120 + 120) } }
      exec .stillClearPage s = .next (t.replied q .ok
        (.stillClear (((s.stills.slots.drop (page * 120)).take 120).countP fun x => decide (x ≠ .empty))
          t.stills.unreserved))))

/-! ### Chapters 7 and 8 -/

/-- SCENE_TABLE_TICK (R118, R123 to R125, R128 to R130): every fade and glide advances by one frame, then each chain's post
is formed, handed to the Frame Assembler and the Chain Manager, its generation raised exactly when a value differs from the
post before. A tick that completes a fade or ends a glide is that tick. The output is the glide value, the override value or
the base value, limited by the clamp of an overheated node. The model's own: the rows of a fade's and a glide's end take the
tick that decides it (log 5). -/
def Obligations.SceneTicksAdvanceAndPost : Prop :=
  (∀ (n : Word16) (ticks : List Word16) (s : State), s.mail.ticks.scene = n :: ticks →
    ∃ u, exec .sceneTableTick s = .next u ∧ u.scene.entries = s.scene.entries.map SceneEntry.advance ∧
      u.scene.groups = s.scene.groups ∧ u.scene.claims = s.scene.claims ∧
      (∀ c, let old := s.scene.previous.get c
        let p := u.scene.previous.get c
        p.looks = u.looks c ∧ (p.looks = old.looks → p.gen = old.gen) ∧ (p.looks ≠ old.looks → p.gen = old.gen + 1) ∧
        u.asm.get c = { s.asm.get c with posts := (s.asm.get c).posts ++ [p] } ∧
        u.chains.get c = { s.chains.get c with lookGen := p.gen }) ∧
      u.mail = { s.mail with ticks := { s.mail.ticks with scene := ticks } } ∧ u.ref = s.ref ∧ u.intake = s.intake ∧
      u.pool = s.pool ∧ u.stills = s.stills ∧ u.tally = s.tally ∧ u.cues = s.cues ∧ u.link = s.link.pump ∧
      (∀ (c : ChainId) (a : Nat) (p : LevelName) (f : Fade), 1 ≤ a → a ≤ 30 →
        ((s.scene.entry { chain := c, address := a }).level p).fade = some f → f.length ≤ f.elapsed + 1 →
        exec (.fadeComplete c a p) s = .next u) ∧
      (∀ (c : ChainId) (a : Nat) (p : LevelName) (g : Glide), 1 ≤ a → a ≤ 30 →
        ((s.scene.entry { chain := c, address := a }).level p).glide = some g → g.length ≤ g.elapsed + 1 →
        exec (.glideEnd c a p) s = .next u)) ∧
  (∀ (p : LevelParam) (f : Fade), p.fade = some f →
    (f.length ≤ f.elapsed + 1 → p.advanceFade = { p with base := f.target, fade := none }) ∧
    (f.elapsed + 1 < f.length →
      p.advanceFade = { p with base := interpolate f.start f.target (f.elapsed + 1) f.length,
                               fade := some { f with elapsed := f.elapsed + 1 } })) ∧
  (∀ (p : LevelParam) (g : Glide), p.glide = some g →
    (g.length ≤ g.elapsed + 1 → p.advanceGlide = { p with glide := none }) ∧
    (g.elapsed + 1 < g.length → p.advanceGlide = { p with glide := some { g with elapsed := g.elapsed + 1 } })) ∧
  (∀ p : LevelParam, (p.fade = none → p.advanceFade = p) ∧ (p.glide = none → p.advanceGlide = p)) ∧
  (∀ e : SceneEntry, e.advance = { e with brightness := e.brightness.advanceFade.advanceGlide,
                                          intensity := e.intensity.advanceFade.advanceGlide }) ∧
  (∀ s t k l : Nat, 0 < l → k ≤ l →
    interpolate s t k l = if s ≤ t then s + (t - s) * k / l else s - (s - t) * k / l) ∧
  (∀ p : LevelParam,
    (∀ g d, p.glide = some g → g.kind = .attack → p.drive = some d →
      p.unclamped = interpolate g.start d.value g.elapsed g.length) ∧
    (∀ g, p.glide = some g → g.kind = .release → p.unclamped = interpolate g.start p.base g.elapsed g.length) ∧
    (∀ d, p.glide = none → p.drive = some d → p.unclamped = d.value) ∧
    (p.glide = none → p.drive = none → p.unclamped = p.base)) ∧
  (∀ (e : SceneEntry) (k : Option KindName),
    (e.look k).source = e.source.base ∧
    (e.look k).brightness =
      (if k = some .tile ∧ e.overheat = true then min e.brightness.unclamped e.clamp else e.brightness.unclamped) ∧
    (e.look k).intensity =
      (if k = some .lamp ∧ e.overheat = true then min e.intensity.unclamped e.clamp else e.intensity.unclamped) ∧
    (∀ d, e.preset.drive = some d → (e.look k).preset = d.value) ∧
    (e.preset.drive = none → (e.look k).preset = e.preset.base))

/-- LOOK_SET and SCENE_WRITE (R117, R119 to R122), and GROUP_SET (R131, R132). A selector names a group, an entry, a chain's
enrolled entries, the entries at an address or every enrolled entry, those that its kind filter passes, in ascending order of
chain and then address. A write reaches the entries its selector names whose kind can take the parameter: a step sets the
base value and removes a fade, a fade starts from the base value; the owner is the writer; every other entry is unchanged.
LOOK_SET's reply tells how many entries were written and passed over. GROUP_SET takes the references in their order and keeps
the first of each set of equal ones in its place. -/
def Obligations.WritesReachTheSelectedEntries : Prop :=
  (∀ (sel : Selector) (v : LookValue) (fade : Option Nat) (w : Writer) (s : State), s.scene.entries.length = 120 →
    (∀ x ∈ s.writable sel v, 1 ≤ x.address ∧ x.address ≤ 30) →
    let written (u : State) : Prop := ∀ r : NodeRef, 1 ≤ r.address → r.address ≤ 30 →
      (r ∈ s.writable sel v → u.scene.entry r = (s.scene.entry r).write v fade w) ∧
      (r ∉ s.writable sel v → u.scene.entry r = s.scene.entry r)
    (∀ q rest, Waits .lookSet q rest s → lookSet? q.body = some (sel, v, fade) → w = .control →
      ∃ u, exec .lookSet s = .next u ∧ written u ∧ u.scene.groups = s.scene.groups ∧
        u.scene.claims = s.scene.claims ∧ u.scene.previous = s.scene.previous ∧
        u = { (s.taken rest).replied q .ok (.look (s.writable sel v).length
                ((s.select sel).length - (s.writable sel v).length)) with scene := u.scene }) ∧
    (∀ r msgs, s.mail.toScene = .write sel v fade r :: msgs → w = .runner r →
      ∃ u, exec .sceneWrite s = .next u ∧ written u ∧ u.scene.groups = s.scene.groups ∧
        u.scene.claims = s.scene.claims ∧ u.scene.previous = s.scene.previous ∧
        u = { (s.setMail { s.mail with toScene := msgs }).ended with scene := u.scene })) ∧
  (∀ (e : SceneEntry) (w : Writer) (x : Nat) (src : TileSource) (n : Nat),
    e.write (.source src) none w = { e with source := { base := src, owner := w } } ∧
    e.write (.preset x) none w = { e with preset := { e.preset with base := x, owner := w } } ∧
    e.write (.brightness x) none w = { e with brightness := { e.brightness with base := x, owner := w, fade := none } } ∧
    e.write (.intensity x) none w = { e with intensity := { e.intensity with base := x, owner := w, fade := none } } ∧
    e.write (.brightness x) (some n) w =
      { e with brightness := { e.brightness with
          owner := w, fade := some { start := e.brightness.base, target := x, length := n, elapsed := 0 } } } ∧
    e.write (.intensity x) (some n) w =
      { e with intensity := { e.intensity with
          owner := w, fade := some { start := e.intensity.base, target := x, length := n, elapsed := 0 } } }) ∧
  (∀ (s : State) (v : LookValue) (r : NodeRef) (sel : Selector),
    r ∈ s.writable sel v ↔ r ∈ s.select sel ∧ (∀ n, s.node r = some n → n.kindName = v.kind)) ∧
  (∀ (s : State) (r : NodeRef),
    (∀ f, r ∈ s.select (.nodes (some r.chain) (some r.address) f) ↔
      (f = .any ∨ (f = .tile ∧ ∀ n, s.node r = some n → n.kindName = .tile) ∨
        (f = .lamp ∧ ∀ n, s.node r = some n → n.kindName = .lamp))) ∧
    (r ∈ s.select (.nodes none none .any) ↔ (s.node r).isSome = true) ∧
    (∀ g, s.select (.group g) = s.scene.groups.getD g [])) ∧
  (∀ (s : State) (chain : Option ChainId) (address : Option Nat) (f : KindFilter),
    let passes (r : NodeRef) : Prop :=
      f = .any ∨ (f = .tile ∧ ∀ n, s.node r = some n → n.kindName = .tile) ∨
        (f = .lamp ∧ ∀ n, s.node r = some n → n.kindName = .lamp)
    (∀ r, r ∈ s.select (.nodes chain address f) ↔
      (∀ c, chain = some c → r.chain = c) ∧ (∀ a, address = some a → r.address = a) ∧
        (address = none → (s.node r).isSome = true) ∧ passes r) ∧
    (s.select (.nodes chain address f)).Pairwise fun x y =>
      x.chain < y.chain ∨ (x.chain = y.chain ∧ x.address < y.address)) ∧
  (∀ (q : Request) (rest : List Request) (g : Nat) (refs : List NodeRef) (s : State), Waits .groupSet q rest s →
    groupSet? q.body = some (g, refs) →
    let kept : List NodeRef := refs.foldl (fun l x => if x ∈ l then l else l ++ [x]) []
    exec .groupSet s = .next
        (({ s.taken rest with scene := { s.scene with groups := s.scene.groups.set g kept } } : State).replied q .ok
          (.group kept.length)) ∧
      kept.Sublist refs ∧ kept.Nodup ∧ ∀ x, x ∈ kept ↔ x ∈ refs)

/-- HALT_NOTICE (R122) cancels the fades that the runner owns; CLAMP_NOTICE (R126) changes the clamp and OVERHEAT of the entry
it names and nothing else. -/
def Obligations.HaltAndClampNoticesReachTheEntries : Prop :=
  (∀ (r : RunnerId) (msgs : List SceneMsg) (s : State), s.mail.toScene = .halt r :: msgs →
    let halted (p : LevelParam) : LevelParam := if p.owner = .runner r then { p with fade := none } else p
    exec .haltNotice s = .next
      ({ s with
        mail := { s.mail with toScene := msgs },
        scene := { s.scene with entries := s.scene.entries.map fun e =>
          { e with brightness := halted e.brightness, intensity := halted e.intensity } } } : State).ended) ∧
  (∀ (c : ChainId) (m : ClampMsg) (msgs : List ClampMsg) (s : State), s.mail.clamps.get c = m :: msgs →
    let taken (a : Nat) (f : SceneEntry → SceneEntry) : State :=
      let r : NodeRef := { chain := c, address := a }
      { s with mail := { s.mail with clamps := s.mail.clamps.set c msgs },
               scene := { s.scene with entries := s.scene.entries.set r.index (f (s.scene.entry r)) } }
    (∀ a k hot, m = .enrolled a k hot →
      exec (.clampNotice c) s = .next (taken a fun e => { e with clamp := k, overheat := hot }).ended) ∧
    (∀ a hot, m = .health a hot → exec (.clampNotice c) s = .next (taken a fun e => { e with overheat := hot }).ended) ∧
    (∀ a k, m = .clamp a k → exec (.clampNotice c) s = .next (taken a fun e => { e with clamp := k }).ended) ∧
    (∀ a, m = .absent a → exec (.clampNotice c) s = .next (taken a fun e => { e with overheat := false }).ended))

/-- TALLY_BATCH (R138 to R143): each claim makes or removes its claim record; a record lists the entries that its target names
and whose kind can take the parameter, none twice. Every parameter listed by a record that the batch made or removed is driven
anew, and no other: by the lowest-numbered rule that targets it, through an attack from the unclamped output, or let go through
a release; a length of 0 glides not at all, and PRESET never. -/
def Obligations.BatchesDriveTheParameters : Prop :=
  (∀ (k : Nat) (r : NodeRef) (x : ClaimRecord) (batches : List (List TallyClaim)) (s : State),
    s.mail.batches = [.activate k (.nodes (some r.chain) (some r.address) .any) x.param x.value x.attack x.release]
      :: batches →
    k < 16 → s.scene.claims = List.replicate 16 none → x.entries = [r] →
    (∀ n, s.node r = some n → n.kindName = x.param.kind) → 1 ≤ r.address → r.address ≤ 30 →
    let e := s.scene.entry r
    let drive : Option Drive := some { rule := k, value := x.value }
    let attack (p : LevelParam) : LevelParam :=
      { p with drive := drive,
               glide := if x.attack = 0 then none
                        else some { kind := .attack, start := p.unclamped, length := x.attack, elapsed := 0 } }
    let after (e' : SceneEntry) : State :=
      { s with mail := { s.mail with batches := batches },
               scene := { s.scene with entries := s.scene.entries.set r.index e',
                                       claims := s.scene.claims.set k (some x) } }
    (x.param = .brightness → e.brightness.drive = none →
      exec .tallyBatch s = .next (after { e with brightness := attack e.brightness }).ended) ∧
    (x.param = .intensity → e.intensity.drive = none →
      exec .tallyBatch s = .next (after { e with intensity := attack e.intensity }).ended) ∧
    (x.param = .preset → e.preset.drive = none →
      exec .tallyBatch s = .next (after { e with preset := { e.preset with drive := drive } }).ended)) ∧
  (∀ (k : Nat) (r : NodeRef) (x : ClaimRecord) (d : Drive) (batches : List (List TallyClaim)) (s : State),
    s.mail.batches = [.deactivate k] :: batches → k < 16 →
    s.scene.claims = (List.replicate 16 none).set k (some x) → x.entries = [r] → d.rule = k →
    let e := s.scene.entry r
    let release (p : LevelParam) : LevelParam :=
      { p with drive := none,
               glide := if x.release = 0 then none
                        else some { kind := .release, start := p.unclamped, length := x.release, elapsed := 0 } }
    let after (e' : SceneEntry) : State :=
      { s with mail := { s.mail with batches := batches },
               scene := { s.scene with entries := s.scene.entries.set r.index e',
                                       claims := List.replicate 16 none } }
    (x.param = .brightness → e.brightness.drive = some d →
      exec .tallyBatch s = .next (after { e with brightness := release e.brightness }).ended) ∧
    (x.param = .intensity → e.intensity.drive = some d →
      exec .tallyBatch s = .next (after { e with intensity := release e.intensity }).ended) ∧
    (x.param = .preset → e.preset.drive = some d →
      exec .tallyBatch s = .next (after { e with preset := { e.preset with drive := none } }).ended)) ∧
  (∀ (batch : List TallyClaim) (batches : List (List TallyClaim)) (s : State),
    let before := s.scene.claims
    let after := batch.foldl s.takeClaim before
    let listed (r : NodeRef) (p : OverParam) : Prop := ∃ c ∈ batch, ∃ x,
      (before.getD c.rule none = some x ∨ after.getD c.rule none = some x) ∧ x.param = p ∧ r ∈ x.entries
    s.mail.batches = batch :: batches → s.scene.entries.length = 120 →
    (∀ r p, listed r p → 1 ≤ r.address ∧ r.address ≤ 30) →
    ∃ u, exec .tallyBatch s = .next u ∧ u.scene.claims = after ∧
      (∀ r : NodeRef, 1 ≤ r.address → r.address ≤ 30 →
        let e := s.scene.entry r
        let e' := u.scene.entry r
        e'.source = e.source ∧ e'.clamp = e.clamp ∧ e'.overheat = e.overheat ∧
        (listed r .brightness → e'.brightness =
          e.brightness.redrive (driverOf after r .brightness 0) (releaseOf before e.brightness.drive)) ∧
        (¬ listed r .brightness → e'.brightness = e.brightness) ∧
        (listed r .intensity → e'.intensity =
          e.intensity.redrive (driverOf after r .intensity 0) (releaseOf before e.intensity.drive)) ∧
        (¬ listed r .intensity → e'.intensity = e.intensity) ∧
        (listed r .preset → e'.preset = e.preset.redrive (driverOf after r .preset 0)) ∧
        (¬ listed r .preset → e'.preset = e.preset)) ∧
      u = { (s.setMail { s.mail with batches := batches }).ended with
            scene := { s.scene with entries := u.scene.entries, claims := after } }) ∧
  (∀ (s : State) (claims : List (Option ClaimRecord)) (k : Nat) (target : Selector) (param : OverParam)
    (value attack release : Nat),
    let x := s.claimRecord target param value attack release
    s.takeClaim claims (.activate k target param value attack release) = claims.set k (some x) ∧
    s.takeClaim claims (.deactivate k) = claims.set k none ∧
    x.param = param ∧ x.value = value ∧ x.attack = attack ∧ x.release = release ∧ x.entries.Nodup ∧
    (∀ r, r ∈ x.entries ↔ r ∈ s.select target ∧ ∀ n, s.node r = some n → n.kindName = param.kind) ∧
    (∀ d : Drive, ∀ y, claims.getD d.rule none = some y → releaseOf claims (some d) = y.release)) ∧
  (∀ (claims : List (Option ClaimRecord)) (r : NodeRef) (p : OverParam) (k : Nat) (x : ClaimRecord),
    driverOf claims r p 0 = some (k, x) ↔
      claims[k]? = some (some x) ∧ x.param = p ∧ r ∈ x.entries ∧
        ∀ j y, j < k → claims[j]? = some (some y) → ¬ (y.param = p ∧ r ∈ y.entries)) ∧
  (∀ (p : LevelParam) (d : Drive) (j : Nat) (y : ClaimRecord) (len : Nat), p.drive = some d →
    (j = d.rule → y.value = d.value → p.redrive (some (j, y)) len = p) ∧
    (j = d.rule → y.value ≠ d.value → p.glide ≠ none →
      p.redrive (some (j, y)) len = { p with drive := some { rule := j, value := y.value } }) ∧
    (j ≠ d.rule → y.attack ≠ 0 →
      p.redrive (some (j, y)) len =
        { p with drive := some { rule := j, value := y.value },
                 glide := some { kind := .attack, start := p.unclamped, length := y.attack, elapsed := 0 } })) ∧
  (∀ (p : LevelParam) (j : Nat) (y : ClaimRecord) (len : Nat),
    let driven : LevelParam :=
      { p with drive := some { rule := j, value := y.value },
               glide := if y.attack = 0 then none
                        else some { kind := .attack, start := p.unclamped, length := y.attack, elapsed := 0 } }
    (p.drive = none → p.redrive none len = p ∧ p.redrive (some (j, y)) len = driven) ∧
    (∀ d, p.drive = some d →
      (j ≠ d.rule → p.redrive (some (j, y)) len = driven) ∧
      (j = d.rule → y.value ≠ d.value → p.glide = none → p.redrive (some (j, y)) len = driven) ∧
      p.redrive none len =
        { p with drive := none,
                 glide := if len = 0 then none
                          else some { kind := .release, start := p.unclamped, length := len, elapsed := 0 } })) ∧
  (∀ (p : PresetParam) (j : Nat) (y : ClaimRecord),
    p.redrive none = { p with drive := none } ∧
    p.redrive (some (j, y)) = { p with drive := some { rule := j, value := y.value } })

/-- TALLY_TICK (R134): a masked line is sampled off, any other at its level; a sample that differs from the latched state and
equals the last sample moves the latched state; the last sample takes the sample. The rules that change by it leave as one
batch (R138). -/
def Obligations.TallyLinesSettleInTwoTicks : Prop :=
  ∀ (levels : BitVec 8) (n : Word16) (ticks : List Word16) (s : State), s.mail.ticks.tally = n :: ticks →
    ∃ u, exec (.tallyTick levels) s = .next u ∧
      (∀ k, k < 8 →
        let sample := !s.tally.mask.getLsbD k && levels.getLsbD k
        u.tally.sample.getLsbD k = sample ∧
        (sample ≠ s.tally.latched.getLsbD k → sample = s.tally.sample.getLsbD k →
          u.tally.latched.getLsbD k = sample) ∧
        (¬ (sample ≠ s.tally.latched.getLsbD k ∧ sample = s.tally.sample.getLsbD k) →
          u.tally.latched.getLsbD k = s.tally.latched.getLsbD k)) ∧
      u.tally.mask = s.tally.mask ∧ u.tally.rules = s.tally.rules ∧
      (let batch := changeClaims s.tally.latched u.tally.latched 0 s.tally.rules
       u.mail = { s.mail with ticks := { s.mail.ticks with tally := ticks },
                              batches := s.mail.batches ++ if batch = [] then [] else [batch] }) ∧
      u.ref = s.ref ∧ u.chains = s.chains ∧
      u.intake = s.intake ∧ u.pool = s.pool ∧ u.asm = s.asm ∧ u.stills = s.stills ∧ u.scene = s.scene ∧
      u.cues = s.cues ∧ u.link = s.link.pump

/-- TALLY_MASK (R135) and TALLY_RULE_SET (R137), with the claims they make (R136, R138): a line that enters the mask reads off
at once, every other line keeps its sample and latched state; a rule set anew deactivates if it was active and activates if
its new settings make it so. -/
def Obligations.TallyMaskAndRulesChangeTheActiveSet : Prop :=
  (∀ (q : Request) (rest : List Request) (mask : BitVec 8) (s : State), Waits .tallyMask q rest s → q.body = [mask] →
    ∃ t : Tally, t.mask = mask ∧ t.rules = s.tally.rules ∧
      (∀ k, k < 8 →
        (mask.getLsbD k = true → s.tally.mask.getLsbD k = false →
          t.sample.getLsbD k = false ∧ t.latched.getLsbD k = false) ∧
        (¬ (mask.getLsbD k = true ∧ s.tally.mask.getLsbD k = false) →
          t.sample.getLsbD k = s.tally.sample.getLsbD k ∧ t.latched.getLsbD k = s.tally.latched.getLsbD k)) ∧
      let batch := changeClaims s.tally.latched t.latched 0 s.tally.rules
      exec .tallyMask s = .next
        (({ s.taken rest with
            tally := t,
            mail := { s.mail with batches := s.mail.batches ++ if batch = [] then [] else [batch] } } : State).replied q
              .ok .empty)) ∧
  (∀ (q : Request) (rest : List Request) (k : Nat) (x : TallyRule) (s : State), Waits .tallyRuleSet q rest s →
    tallyRule? q.body = some (k, x) → s.tally.rules.length = 16 →
    let old := s.tally.rules.getD k .reset
    let leaves := old.active s.tally.latched
    let enters := x.active s.tally.latched
    let claims : List TallyClaim :=
      (if leaves then [.deactivate k] else []) ++
        (if enters then [.activate k x.target x.param x.value x.attack x.release] else [])
    exec .tallyRuleSet s = .next
      (({ s.taken rest with
          tally := { s.tally with rules := s.tally.rules.set k x },
          mail := { s.mail with batches := s.mail.batches ++ if claims = [] then [] else [claims] } } : State).replied q
            .ok (.ruleActive enters))) ∧
  (∀ (latched : BitVec 8) (x : TallyRule),
    x.active latched = true ↔
      x.enabled = true ∧ ((x.sense = .on ∧ latched.getLsbD x.line = true) ∨
        (x.sense = .off ∧ latched.getLsbD x.line = false))) ∧
  (∀ (old new : BitVec 8) (k : Nat) (x : TallyRule) (rest : List TallyRule),
    (x.active old = x.active new → changeClaims old new k (x :: rest) = changeClaims old new (k + 1) rest) ∧
    (x.active old = false → x.active new = true →
      changeClaims old new k (x :: rest) =
        .activate k x.target x.param x.value x.attack x.release :: changeClaims old new (k + 1) rest) ∧
    (x.active old = true → x.active new = false →
      changeClaims old new k (x :: rest) = .deactivate k :: changeClaims old new (k + 1) rest) ∧
    changeClaims old new k [] = [])

/-! ### Chapter 9 -/

/-- CUE_LOAD (R148) and CUE_READ (R149). The checks in their order: slot and number of steps; a runner that is ARMED or
WAITING on the slot; the first step that does not fit, named by its index; a last step that is not END or STOP. A list that
passes replaces the slot with every done mark clear. A read changes nothing. The bytes of a step of each kind give the step
when every field is in its range (R147), and otherwise a step that does not fit. The model's own: the codes of a step's fields
(log 10), and an unknown kind, parameter, form, condition or presence byte makes the step the last one read and one that does
not fit (log 10). -/
def Obligations.CueSlotsAreLoadedAndRead : Prop :=
  (∀ (q : Request) (rest : List Request) (x : CueLoadArgs) (s : State), Waits .cueLoad q rest s →
    cueLoad? q.body = some x →
    let held := ∃ r, (s.runner r).slot = some x.slot ∧
      ((s.runner r).state = .armed ∨ ∃ w, (s.runner r).state = .waiting w)
    let fits (st : Option CueStep) : Prop := ∃ y, st = some y ∧ ∀ w k, y = .confirm w (some k) → k < x.count
    let loaded (l : List CueStep) : State :=
      { s.taken rest with
        cues := { s.cues with slots := s.cues.slots.set x.slot (some (l.map fun y => { step := y, mark := none })) } }
    ((7 < x.slot ∨ x.count < 1 ∨ 32 < x.count) →
      exec .cueLoad s = .next ((s.taken rest).replied q .badArg .empty)) ∧
    (x.slot ≤ 7 → 1 ≤ x.count → x.count ≤ 32 →
      (held → exec .cueLoad s = .next ((s.taken rest).replied q .busy .empty)) ∧
      (¬ held →
        (∀ before st after, x.steps = before ++ st :: after → (∀ y ∈ before, fits y) → ¬ fits st →
          exec .cueLoad s = .next ((s.taken rest).replied q .badArg (.cueBadStep before.length))) ∧
        (∀ l last, x.steps = (l ++ [last]).map some → (∀ y ∈ x.steps, fits y) →
          (last ≠ .finish → last ≠ .stop →
            exec .cueLoad s = .next ((s.taken rest).replied q .badArg (.cueBadStep (x.count - 1)))) ∧
          ((last = .finish ∨ last = .stop) →
            exec .cueLoad s = .next ((loaded (l ++ [last])).replied q .ok (.cueLoad (l.length + 1)))))))) ∧
  (∀ (q : Request) (rest : List Request) (b : Byte) (s : State), Waits .cueRead q rest s → q.body = [b] →
    (7 < b.toNat → exec .cueRead s = .next ((s.taken rest).replied q .badArg .empty)) ∧
    (b.toNat ≤ 7 →
      exec .cueRead s = .next ((s.taken rest).replied q .ok
        (.cueRead (s.cues.slots.getD b.toNat none)
          (([0, 1, 2] : List RunnerId).filterMap fun r =>
            if (s.runner r).slot = some b.toNat then some (r, (s.runner r).state) else none))))) ∧
  (∀ (f x a k : Byte), selector? f x a k = none ↔
    (f = 0 ∧ ((3 < x.toNat ∧ x ≠ 0xFF) ∨ ((a.toNat < 1 ∨ 30 < a.toNat) ∧ a ≠ 0xFF) ∨ 2 < k.toNat)) ∨
      (f = 1 ∧ (15 < x.toNat ∨ a ≠ 0 ∨ k ≠ 0)) ∨ 1 < f.toNat) ∧
  (∀ (slot n : Byte) (more : List Byte),
    cueLoad? (slot :: n :: more) =
      (cueSteps? n.toNat more).map fun l => { slot := slot.toNat, count := n.toNat, steps := l }) ∧
  (∀ (n : Nat) (bytes : List Byte),
    (∀ st more, cueStep? bytes = .step st more → cueSteps? (n + 1) bytes = (cueSteps? n more).map (st :: ·)) ∧
    (cueStep? bytes = .stuck → cueSteps? (n + 1) bytes = some [none])) ∧
  (∀ (sel : Selector) (f x a k : Byte) (more : List Byte), selector? f x a k = some sel →
    let gives (bytes : List Byte) (fits : Prop) (y : CueStep) : Prop :=
      (fits → cueStep? (bytes ++ more) = .step (some y) more) ∧
      (¬ fits → cueStep? (bytes ++ more) = .step none more)
    let word (h l : Byte) : Nat := (h ++ l : Word16).toNat
    (∀ v page, (v = 0 → gives [0, f, x, a, k, 0, v] True (.look sel (.source .liveFeed))) ∧
      (v.toNat = page + 1 → page ≤ 3 → gives [0, f, x, a, k, 0, v] True (.look sel (.source (.still page)))) ∧
      (v = 5 → gives [0, f, x, a, k, 0, v] True (.look sel (.source .freeze))) ∧
      (v = 6 → gives [0, f, x, a, k, 0, v] True (.look sel (.source .black))) ∧
      (6 < v.toNat → cueStep? ([0, f, x, a, k, 0, v] ++ more) = .step none more)) ∧
    (∀ h l, gives [0, f, x, a, k, 1, h, l] (word h l ≤ 1000) (.look sel (.brightness (word h l))) ∧
      gives [0, f, x, a, k, 2, h, l] (word h l ≤ 1000) (.look sel (.intensity (word h l)))) ∧
    (∀ v : Byte, gives [0, f, x, a, k, 3, v] (v.toNat ≤ 15) (.look sel (.preset v.toNat))) ∧
    (∀ th tl nh nl,
      let ok := word th tl ≤ 1000 ∧ 1 ≤ word nh nl ∧ word nh nl ≤ 1000
      gives [1, f, x, a, k, 0, th, tl, nh, nl] ok (.fade sel .brightness (word th tl) (word nh nl)) ∧
      gives [1, f, x, a, k, 1, th, tl, nh, nl] ok (.fade sel .intensity (word th tl) (word nh nl)) ∧
      ∀ p : Byte, p ≠ 0 → p ≠ 1 → cueStep? ([1, f, x, a, k, p, th, tl, nh, nl] ++ more) = .step none more) ∧
    (∀ h l, gives [2, h, l] (1 ≤ word h l ∧ word h l ≤ 30000) (.wait (word h l))) ∧
    (∀ h l, gives [3, 0, h, l] True (.syncFrame (h ++ l))) ∧ gives [3, 1] True .syncGo ∧
    (∀ tag colour gamma rotation dimming fan : Byte,
      gives [4, f, x, a, k, tag, colour, gamma, rotation, dimming, fan]
        (tag ≠ 0 ∧ colour.toNat ≤ 15 ∧ gamma.toNat ≤ 3 ∧ rotation.toNat ≤ 3 ∧ dimming.toNat ≤ 3 ∧ fan.toNat ≤ 2)
        (.configure sel tag { colour := colour.toNat, gamma := gamma.toNat, rotation := rotation.toNat,
                              dimming := dimming.toNat, fan := fan.toNat })) ∧
    gives [5, f, x, a, k] True (.enable sel) ∧
    (∀ w ck tag : Byte,
      gives [6, f, x, a, k, 0, w, ck] (1 ≤ w.toNat ∧ w.toNat ≤ 250 ∧ ck.toNat ≤ 1)
        (.expect sel .modeLive w.toNat (decide (ck = 0))) ∧
      gives [6, f, x, a, k, 1, tag, w, ck] (1 ≤ w.toNat ∧ w.toNat ≤ 250 ∧ ck.toNat ≤ 1)
        (.expect sel (.configTag tag) w.toNat (decide (ck = 0))) ∧
      gives [6, f, x, a, k, 2, w, ck] (1 ≤ w.toNat ∧ w.toNat ≤ 8 ∧ ck.toNat ≤ 1)
        (.expect sel .applied w.toNat (decide (ck = 0)))) ∧
    (∀ h l, gives [7, h, l, 0] (1 ≤ word h l ∧ word h l ≤ 1000) (.confirm (word h l) none) ∧
      ∀ v : Byte, gives [7, h, l, 1, v] (1 ≤ word h l ∧ word h l ≤ 1000) (.confirm (word h l) (some v.toNat))) ∧
    gives [8] True .finish ∧ gives [9] True .stop) ∧
  (∀ (f x a k : Byte) (more : List Byte), selector? f x a k = none →
    (∀ v : Byte, cueStep? ([0, f, x, a, k, 0, v] ++ more) = .step none more ∧
      cueStep? ([0, f, x, a, k, 3, v] ++ more) = .step none more) ∧
    (∀ p h l : Byte, (p = 1 ∨ p = 2) → cueStep? ([0, f, x, a, k, p, h, l] ++ more) = .step none more) ∧
    (∀ p th tl nh nl, cueStep? ([1, f, x, a, k, p, th, tl, nh, nl] ++ more) = .step none more) ∧
    (∀ tag colour gamma rotation dimming fan,
      cueStep? ([4, f, x, a, k, tag, colour, gamma, rotation, dimming, fan] ++ more) = .step none more) ∧
    cueStep? ([5, f, x, a, k] ++ more) = .step none more ∧
    (∀ w ck tag : Byte, cueStep? ([6, f, x, a, k, 0, w, ck] ++ more) = .step none more ∧
      cueStep? ([6, f, x, a, k, 1, tag, w, ck] ++ more) = .step none more ∧
      cueStep? ([6, f, x, a, k, 2, w, ck] ++ more) = .step none more)) ∧
  (∀ (f x a k p : Byte) (more : List Byte),
    (9 < p.toNat → cueStep? (p :: more) = .stuck) ∧ (3 < p.toNat → cueStep? ([0, f, x, a, k, p] ++ more) = .stuck) ∧
    (1 < p.toNat → cueStep? ([3, p] ++ more) = .stuck) ∧
    (2 < p.toNat → cueStep? ([6, f, x, a, k, p] ++ more) = .stuck) ∧
    (∀ h l, 1 < p.toNat → cueStep? ([7, h, l, p] ++ more) = .stuck))

/-- RUNNER_ARM, RUNNER_GO, RUNNER_HALT, RUNNER_CONFIRM, RUNNER_RESUME and RUNNER_CLEAR (R151 to R155, R169), by the runner's
state: each refuses STATE where it does not apply. The model's own: a halt of an ABORTED runner reports it again (log 41). -/
def Obligations.RunnerRequestsFollowTheState : Prop :=
  (∀ (q : Request) (rest : List Request) (r : RunnerId) (slot : Nat) (s : State), Waits .runnerArm q rest s →
    runnerArm? q.body = some (r, slot) →
    let busy := (s.runner r).state = .armed ∨ ∃ w, (s.runner r).state = .waiting w
    (busy → exec .runnerArm s = .next ((s.taken rest).replied q .state .empty)) ∧
    (¬ busy → s.steps slot = none → exec .runnerArm s = .next ((s.taken rest).replied q .notFound .empty)) ∧
    (¬ busy → ∀ l, s.steps slot = some l →
      exec .runnerArm s = .next
        (({ s.taken rest with
            cues := { slots := s.cues.slots.set slot (some (l.map fun x => { x with mark := none })),
                      runners := s.cues.runners.set r { state := .armed, slot := some slot, step := none } } } : State).replied
          q .ok .empty))) ∧
  (∀ (q : Request) (rest : List Request) (r : RunnerId) (s : State), runner? q.body = some r →
    let u := s.runner r
    let t := s.taken rest
    (Waits .runnerGo q rest s →
      (u.state = .armed → exec .runnerGo s = .next ((t.release r 0).replied q .ok .empty)) ∧
      (u.state = .waiting .go → exec .runnerGo s = .next ((t.completeWait r .done).replied q .ok .empty)) ∧
      (u.state ≠ .armed → u.state ≠ .waiting .go →
        exec .runnerGo s = .next (t.replied q .state .empty))) ∧
    (Waits .runnerConfirm q rest s →
      ((∃ second left, u.state = .waiting (.confirm second left)) →
        exec .runnerConfirm s = .next ((t.completeWait r .done).replied q .ok .empty)) ∧
      ((¬ ∃ second left, u.state = .waiting (.confirm second left)) →
        exec .runnerConfirm s = .next (t.replied q .state .empty))) ∧
    (Waits .runnerResume q rest s →
      (∀ slot l, u.state = .parked → u.slot = some slot → s.steps slot = some l →
        let cleared : State := { t with
          cues := { s.cues with slots := s.cues.slots.set slot (some (l.map fun x => { x with mark := none })) } }
        exec .runnerResume s = .next ((cleared.release r 0).replied q .ok .empty)) ∧
      (u.state ≠ .parked → exec .runnerResume s = .next (t.replied q .state .empty))) ∧
    (Waits .runnerClear q rest s →
      (∀ reason, u.state = .aborted reason →
        exec .runnerClear s = .next
          (({ t with cues := { s.cues with runners := s.cues.runners.set r { u with state := .idle } } } : State).replied
            q .ok .empty)) ∧
      ((∀ reason, u.state ≠ .aborted reason) → exec .runnerClear s = .next (t.replied q .state .empty))) ∧
    (Waits .runnerHalt q rest s →
      let halted (t : State) : State :=
        let t := ({ t with
          cues := { s.cues with runners := s.cues.runners.set r { u with state := .aborted .halted } } } : State).report
            (.cue (.aborted .halted none) r u.slot u.step s.ref.counter)
        t.setMail { t.mail with toScene := t.mail.toScene ++ [.halt r] }
      (u.state = .idle → exec .runnerHalt s = .next (t.replied q .state .empty)) ∧
      (u.state ≠ .idle → (∀ c cmd refs, u.state ≠ .waiting (.room c cmd refs)) →
        exec .runnerHalt s = .next ((halted t).replied q .ok .empty)) ∧
      (∀ c cmd refs, u.state = .waiting (.room c cmd refs) →
        let ch := s.chains.get c
        exec .runnerHalt s = .next
          ((halted (t.setChain c { ch with claims := ch.claims.filter fun k => decide (k.runner ≠ r) })).replied q .ok
            .empty))))

/-- A released runner takes steps one after another (R156 to R160, R163, R168, R171): a write is handed to the Scene Table and
the next step follows; a CONFIGURE or ENABLE offers its command for each selected record still enrolled, to the queue of the
record's chain, and completes, or waits for room with what is left; a wait begins at a WAIT, a SYNC that is not yet due, an
EXPECT with a considered node and a CONFIRM; END parks the runner and STOP ends it; a step that completes gets its done mark,
and the runner goes on from the next. A loss before the EXPECT is passed by, its notice on its way or not yet given. The
model's own: how a node-lost notice tells the runners that were at the EXPECT (log 22). -/
def Obligations.StepsAreTakenOneByOne : Prop :=
  ∀ (r : RunnerId) (fuel k : Nat) (s : State),
    let at_ := s.updRunner r fun u => { u with step := some k }
    let run := s.runFrom r (fuel + 1) k
    let waits (t : State) (w : Wait) : State := t.updRunner r fun u => { u with state := .waiting w }
    let onward (t : State) : State := t.runFrom r fuel (k + 1)
    let hands (m : SceneMsg) : State := at_.setMail { s.mail with toScene := s.mail.toScene ++ [m] }
    let report (c : CueCause) (t : State) : State := t.report (.cue c r (s.runner r).slot (some k) s.ref.counter)
    (s.stepAt r k = none → run = at_) ∧
    (∀ sel v, s.stepAt r k = some (.look sel v) → run = onward ((hands (.write sel v none r)).mark r k .done)) ∧
    (∀ sel t n, s.stepAt r k = some (.fade sel .brightness t n) →
      run = onward ((hands (.write sel (.brightness t) (some n) r)).mark r k .done)) ∧
    (∀ sel t n, s.stepAt r k = some (.fade sel .intensity t n) →
      run = onward ((hands (.write sel (.intensity t) (some n) r)).mark r k .done)) ∧
    (∀ n, s.stepAt r k = some (.wait n) → run = waits at_ (.ticks n)) ∧
    (∀ f, s.stepAt r k = some (.syncFrame f) →
      (f = s.ref.counter → run = onward (at_.mark r k .done)) ∧
      (1 ≤ (f - s.ref.counter).toNat → (f - s.ref.counter).toNat ≤ 32767 → run = waits at_ (.frame f)) ∧
      (32768 ≤ (f - s.ref.counter).toNat →
        run = onward (report (.syncLate f s.ref.counter) (at_.mark r k .late)))) ∧
    (s.stepAt r k = some .syncGo → run = waits at_ .go) ∧
    (∀ sel tag x, s.stepAt r k = some (.configure sel tag x) →
      let offered := at_.offerAll r (.configure 31 tag x) (s.targets sel)
      (offered.2 = true → run = onward (offered.1.mark r k .done)) ∧ (offered.2 = false → run = offered.1)) ∧
    (∀ sel, s.stepAt r k = some (.enable sel) →
      let offered := at_.offerAll r (.enable 31) (s.targets sel)
      (offered.2 = true → run = onward (offered.1.mark r k .done)) ∧ (offered.2 = false → run = offered.1)) ∧
    (∀ (t : State) (cmd : ConfigCmd), t.offerAll r cmd [] = (t, true) ∧
      ∀ x rest,
        let ch := t.chains.get x.chain
        let mine : ConfigCmd :=
          match cmd with
          | .configure _ tag y => .configure x.address tag y
          | .enable _ => .enable x.address
        (t.node x = none → t.offerAll r cmd (x :: rest) = t.offerAll r cmd rest) ∧
        (∀ n, t.node x = some n →
          (ch.queue.length < 16 → ch.claims = [] →
            t.offerAll r cmd (x :: rest) =
              (t.setChain x.chain { ch with
                queue := ch.queue ++ [{ cmd := mine.toCmd, issuer := .runner r, ofAttempt := false }] }).offerAll r cmd
                  rest) ∧
          ((16 ≤ ch.queue.length ∨ ch.claims ≠ []) →
            t.offerAll r cmd (x :: rest) =
              ((t.setChain x.chain { ch with claims := ch.claims ++ [{ runner := r, cmd := mine }] }).updRunner r
                fun u => { u with state := .waiting (.room x.chain mine rest) }, false)))) ∧
    (∀ t : State, t.release r k = t.runFrom r 32 k ∧
      (∀ o j, (t.runner r).step = some j → t.completeWait r o = (t.mark r j o).release r (j + 1))) ∧
    (∀ c, (s.passNotices r).chains.get c =
        { s.chains.get c with
          lostHeld := (s.chains.get c).lostHeld.map fun x => { x with since := x.since.set r true } } ∧
      (s.passNotices r).mail.notices.get c = (s.mail.notices.get c).map fun m =>
        match m with
        | .lost a kind reachable since => .lost a kind reachable (since.set r true)
        | other => other) ∧
    (∀ sel cond window strict, s.stepAt r k = some (.expect sel cond window strict) →
      (s.considered (s.selection sel) sel.filter? = [] → run = onward (at_.mark r k .done)) ∧
      (s.considered (s.selection sel) sel.filter? ≠ [] →
        run = waits (at_.passNotices r) (.check (s.selection sel) sel.filter? (s.gens (s.selection sel)) window))) ∧
    (∀ window fallback, s.stepAt r k = some (.confirm window fallback) →
      run = waits (report (.confirmWanted window) at_) (.confirm false window)) ∧
    (s.stepAt r k = some .finish →
      run = report .parked ((at_.mark r k .done).updRunner r fun u => { u with state := .parked })) ∧
    (s.stepAt r k = some .stop →
      run = report .done ((at_.mark r k .done).updRunner r fun u => { u with state := .idle })) ∧
    (∀ slot l x o, (s.runner r).slot = some slot → slot < s.cues.slots.length → s.steps slot = some l →
      l[k]? = some x →
      let m : Mark := { runner := r, frame := s.ref.counter, outcome := o }
      s.mark r k o = { s with
        cues := { s.cues with slots := s.cues.slots.set slot (some (l.set k { x with mark := some m })) } })

/-- What steps name (R160, R163, R164, R167). The targets of a CONFIGURE or ENABLE: the named records that are enrolled and
of a kind that the filter passes, in ascending order of chain and then address, a group's by chain in the group's order. The
selection of an EXPECT keeps every reference that an address or a group names. The considered set: the reachable records of
the selection whose kind the filter passes. The generation kept for each selected chain, the three conditions, and the first
considered node, by chain and position, that does not satisfy one. The model's own: the nodes of a group are taken by chain
and position too (log 44). -/
def Obligations.SelectionsAndConditionsAreResolved : Prop :=
  ∀ s : State,
    let takes (f : KindFilter) (n : Node) : Prop :=
      f = .any ∨ (f = .tile ∧ n.kindName = .tile) ∨ (f = .lamp ∧ n.kindName = .lamp)
    let names (chain : Option ChainId) (address : Option Nat) (x : NodeRef) : Prop :=
      (∀ c, chain = some c → x.chain = c) ∧ (∀ a, address = some a → x.address = a) ∧
        (address = none → 1 ≤ x.address ∧ x.address ≤ 30)
    let group (g : Nat) : List NodeRef := s.scene.groups.getD g []
    (∀ chain address f x,
      (x ∈ s.targets (.nodes chain address f) ↔
        names chain address x ∧ ∃ n, s.node x = some n ∧ takes f n) ∧
      (∀ a, address = some a → (x ∈ s.selection (.nodes chain address f) ↔ names chain address x)) ∧
      (address = none → s.selection (.nodes chain address f) = s.targets (.nodes chain address f)) ∧
      (s.targets (.nodes chain address f)).Pairwise fun y z =>
        y.chain < z.chain ∨ (y.chain = z.chain ∧ y.address < z.address)) ∧
    (∀ g c, (s.targets (.group g)).filter (fun x => decide (x.chain = c)) =
        (group g).filter (fun x => decide (x.chain = c) && (s.node x).isSome) ∧
      (s.targets (.group g)).Pairwise (fun y z => y.chain ≤ z.chain) ∧
      (s.selection (.group g)).filter (fun x => decide (x.chain = c)) =
        (group g).filter (fun x => decide (x.chain = c)) ∧
      (s.selection (.group g)).Pairwise (fun y z => y.chain ≤ z.chain)) ∧
    (∀ l f x, x ∈ s.considered l f ↔
      x ∈ l ∧ ∃ n, s.node x = some n ∧ (n.state = .ident ∨ n.state = .live ∨ n.state = .suspect) ∧
        takes (f.getD .any) n) ∧
    (∀ l c g, (c, g) ∈ s.gens l ↔ (∃ x ∈ l, x.chain = c) ∧ g = (s.chains.get c).lookGen) ∧
    (∀ x n, s.node x = some n →
      (∀ kept, (s.satisfied .modeLive kept x = true ↔ n.state = .live ∧ n.mode = .live) ∧
        (∀ t, s.satisfied (.configTag t) kept x = true ↔ n.tag = t)) ∧
      (∀ before g0 later, (∀ y ∈ before, y.1 ≠ x.chain) →
        (s.satisfied .applied (before ++ (x.chain, g0) :: later) x = true ↔
          ∃ g, n.gen = some g ∧ (g - g0).toNat ≤ 7))) ∧
    (∀ cond kept l,
      let fails (x : NodeRef) : Prop := x ∈ l ∧ s.satisfied cond kept x = false
      let stands (c : ChainId) (q a : Nat) : Prop :=
        1 ≤ q ∧ q ≤ 30 ∧ ∃ n, (s.chains.get c).atPosition q = some (a, n)
      (s.firstUnsatisfied cond kept l = none ↔
        ∀ c q a, stands c q a → ¬ fails { chain := c, address := a }) ∧
      (∀ x, s.firstUnsatisfied cond kept l = some x →
        fails x ∧ ∃ q, stands x.chain q x.address ∧
          ∀ c p a, stands c p a → (c < x.chain ∨ (c = x.chain ∧ p < q)) →
            ¬ fails { chain := c, address := a })) ∧
    (∀ c q a n, (s.chains.get c).atPosition q = some (a, n) →
      (s.chains.get c).node a = some n ∧ n.position = q)

/-- RUNNERS_TICK and the four expiries (R156, R158, R159, R165, R167, R168, R170, R172). A tick lowers the count of a wait, or
ends it; runners that do not wait take the tick and are unchanged. Several runners take it one after another, any of them
released by it, in any order. At the end of a WAIT the step completes; of an EXPECT it fails;
of a CONFIRM's first window CONFIRM_OVERDUE is reported and the second begins; of the second the fallback is taken with
CONFIRM_FALLBACK raised, or the runner goes ABORTED. The model's own: the order given as an operand (log 24), each runner
takes its own ticks in order (log 25), and EXPIRED names no node when every one is satisfied (log 41). -/
def Obligations.TicksEndTheWaits : Prop :=
  (∀ (order : RunnerOrder) (n : Word16) (s : State), s.mail.ticks.runners = .all [n] →
    let taken := s.setMail { s.mail with ticks := { s.mail.ticks with runners := .all [] } }
    ((∀ r w, (s.runner r).state ≠ .waiting w) → exec (.runnersTick order) s = .next taken.ended) ∧
    (∀ r w w', (s.runner r).state = .waiting w → (∀ d, d ≠ r → ∀ x, (s.runner d).state ≠ .waiting x) →
      ((∃ k, w = .ticks k ∧ 2 ≤ k ∧ w' = .ticks (k - 1)) ∨
        (∃ f, w = .frame f ∧ 1 ≤ (f - n).toNat ∧ (f - n).toNat ≤ 32767 ∧ w' = w) ∨
        (w = .go ∧ w' = w) ∨ (∃ c cmd refs, w = .room c cmd refs ∧ w' = w) ∨
        (∃ l f g k, w = .check l f g k ∧ 2 ≤ k ∧ w' = .check l f g (k - 1)) ∨
        (∃ b k, w = .confirm b k ∧ 2 ≤ k ∧ w' = .confirm b (k - 1))) →
      exec (.runnersTick order) s = .next
        (taken.updRunner r fun u => { u with state := .waiting w' }).ended)) ∧
  (∀ (order : RunnerOrder) (n : Word16) (s : State), s.mail.ticks.runners = .all [n] →
    let takes (t : State) (r : RunnerId) : State :=
      let t := t.setMail { t.mail with ticks := { t.mail.ticks with runners := t.mail.ticks.runners.set r [] } }
      let k := (t.runner r).step.getD 0
      let waits (w : Wait) : State := t.updRunner r fun u => { u with state := .waiting w }
      match (t.runner r).state with
      | .waiting (.ticks left) =>
          if 2 ≤ left then waits (.ticks (left - 1)) else (t.mark r k .done).release r (k + 1)
      | .waiting (.frame f) =>
          if f = n then (t.mark r k .done).release r (k + 1)
          else if 32768 ≤ (f - n).toNat then
            ((t.mark r k .late).report (.cue (.syncLate f n) r (t.runner r).slot (t.runner r).step t.ref.counter)).release
              r (k + 1)
          else t
      | .waiting (.check l f g left) =>
          if 2 ≤ left then waits (.check l f g (left - 1))
          else
            match t.stepAt r k with
            | some (.expect _ cond _ strict) =>
                let cause : ExpectFail := .expired (t.firstUnsatisfied cond g (t.considered l f))
                if strict then (t.raise (.expectFailed r k cond cause) .runners cause.node).abort r .expectFailed none
                else
                  ((t.mark r k .missed).report
                    (.cue (.expectMissed cond cause) r (t.runner r).slot (t.runner r).step t.ref.counter)).release r (k + 1)
            | _ => t
      | .waiting (.confirm second left) =>
          if 2 ≤ left then waits (.confirm second (left - 1))
          else
            match t.stepAt r k, second with
            | some (.confirm window _), false =>
                (t.report (.cue (.confirmOverdue window) r (t.runner r).slot (t.runner r).step t.ref.counter)).updRunner r
                  fun u => { u with state := .waiting (.confirm true window) }
            | some (.confirm _ (some b)), true =>
                ((t.raise (.confirmFallback r k b) .runners none).mark r k .fellBack).release r b
            | some (.confirm _ none), true => t.abort r .unconfirmed none
            | _, _ => t
      | _ => t
    exec (.runnersTick order) s = .next (order.toList.foldl takes s).ended) ∧
  (∀ (r : RunnerId) (n : Word16) (ticks : List Word16) (s : State), s.mail.ticks.runners.get r = n :: ticks →
    let taken := s.setMail { s.mail with
      ticks := { s.mail.ticks with runners := s.mail.ticks.runners.set r ticks } }
    let k := (s.runner r).step.getD 0
    (∀ left, (s.runner r).state = .waiting (.ticks left) → left ≤ 1 →
      exec (.waitExpiry r) s = .next ((taken.mark r k .done).release r (k + 1)).ended) ∧
    (∀ l f g left sel cond window, (s.runner r).state = .waiting (.check l f g left) → left ≤ 1 →
      let cause : ExpectFail := .expired (s.firstUnsatisfied cond g (s.considered l f))
      (s.stepAt r k = some (.expect sel cond window true) →
        exec (.expectExpiry r) s = .next
          ((taken.raise (.expectFailed r k cond cause) .runners cause.node).abort r .expectFailed none).ended) ∧
      (s.stepAt r k = some (.expect sel cond window false) →
        exec (.expectExpiry r) s = .next
          (((taken.mark r k .missed).cueReport (.expectMissed cond cause) r).release r (k + 1)).ended)) ∧
    (∀ left window fallback, s.stepAt r k = some (.confirm window fallback) → left ≤ 1 →
      ((s.runner r).state = .waiting (.confirm false left) →
        exec (.confirmFirstExpiry r) s = .next
          ((taken.cueReport (.confirmOverdue window) r).updRunner r fun u =>
            { u with state := .waiting (.confirm true window) }).ended) ∧
      ((s.runner r).state = .waiting (.confirm true left) →
        (∀ b, fallback = some b →
          exec (.confirmSecondExpiry r) s = .next
            (((taken.raise (.confirmFallback r k b) .runners none).mark r k .fellBack).release r b).ended) ∧
        (fallback = none →
          exec (.confirmSecondExpiry r) s = .next (taken.abort r .unconfirmed none).ended))) ∧
    (∀ order f, (s.runner r).state = .waiting (.frame f) → ticks = [] →
      (∀ d, d ≠ r → s.mail.ticks.runners.get d = []) →
      (f = n → exec (.runnersTick order) s = .next ((taken.mark r k .done).release r (k + 1)).ended) ∧
      (32768 ≤ (f - n).toNat →
        exec (.runnersTick order) s = .next
          (((taken.mark r k .late).cueReport (.syncLate f n) r).release r (k + 1)).ended))) ∧
  (∀ (s : State) (r : RunnerId) (reason : AbortReason) (e : Option Evicted),
    let u := s.runner r
    let gone (t : State) : State :=
      ({ t with cues := { s.cues with runners := s.cues.runners.set r { u with state := .aborted reason } } } : State).report
        (.cue (.aborted reason e) r u.slot u.step s.ref.counter)
    ((∀ c cmd refs, u.state ≠ .waiting (.room c cmd refs)) → s.abort r reason e = gone s) ∧
    (∀ c cmd refs, u.state = .waiting (.room c cmd refs) →
      let ch := s.chains.get c
      s.abort r reason e = gone
        (s.setChain c { ch with claims := ch.claims.filter fun k => decide (k.runner ≠ r) })))

/-- The four notices (R161, R162, R165, R166, R172): a complete return of a selected chain completes an EXPECT whose
considered nodes all satisfy its condition; the loss of a considered node fails it; room lets a runner go on with its
references; an evicted command aborts its runner. Several runners that one event releases go on one after another, in any
order. A runner in another state is unchanged. The model's own: what a node-lost notice carries (log 22), what a room notice
lets its runner do, and that a runner whose claim still stands waits on (log 23), and the order given as an operand (log
24). -/
def Obligations.NoticesReleaseTheRunners : Prop :=
  ∀ (c : ChainId) (order : RunnerOrder) (notices : List RunnerMsg) (m : RunnerMsg) (s : State),
    s.mail.notices.get c = m :: notices →
    let taken := s.setMail { s.mail with notices := s.mail.notices.set c notices }
    let checks (r : RunnerId) := ∃ l f g left, (s.runner r).state = .waiting (.check l f g left)
    (m = .complete →
      ((∀ r, ¬ checks r) → exec (.completeReturnNotice c order) s = .next taken.ended) ∧
      (∀ r l f g left sel cond window strict, (s.runner r).state = .waiting (.check l f g left) →
        (∀ d, d ≠ r → ¬ checks d) → s.stepAt r (s.stepIndex r) = some (.expect sel cond window strict) →
        ((∃ x ∈ g, x.1 = c) → (∀ x ∈ s.considered l f, s.satisfied cond g x = true) →
          exec (.completeReturnNotice c order) s = .next (taken.completeWait r .done).ended) ∧
        (((∀ x ∈ g, x.1 ≠ c) ∨ ∃ x ∈ s.considered l f, s.satisfied cond g x = false) →
          exec (.completeReturnNotice c order) s = .next taken.ended)) ∧
      (let takes (t : State) (r : RunnerId) : State :=
        match (t.runner r).state with
        | .waiting (.check l f g _) =>
            match t.stepAt r (t.stepIndex r) with
            | some (.expect _ cond _ _) =>
                if (∃ x ∈ g, x.1 = c) ∧ ∀ x ∈ t.considered l f, t.satisfied cond g x = true then t.completeWait r .done
                else t
            | _ => t
        | _ => t
      exec (.completeReturnNotice c order) s = .next (order.toList.foldl takes taken).ended)) ∧
    (∀ a kind reachable since, m = .lost a kind reachable since →
      let x : NodeRef := { chain := c, address := a }
      ((∀ r, ¬ checks r) → exec (.nodeLostNotice c order) s = .next taken.ended) ∧
      (∀ r l f g left sel cond window strict, (s.runner r).state = .waiting (.check l f g left) →
        (∀ d, d ≠ r → ¬ checks d) → s.stepAt r (s.stepIndex r) = some (.expect sel cond window strict) →
        let considered := x ∈ l ∧ reachable = true ∧ since.get r = false ∧ (f.getD .any).takes kind = true
        (¬ considered → exec (.nodeLostNotice c order) s = .next taken.ended) ∧
        (considered → strict = true →
          exec (.nodeLostNotice c order) s = .next
            ((taken.raise (.expectFailed r (s.stepIndex r) cond (.nodeLost x)) .runners (some x)).abort r .expectFailed
              none).ended) ∧
        (considered → strict = false →
          exec (.nodeLostNotice c order) s = .next
            (((taken.mark r (s.stepIndex r) .missed).cueReport (.expectMissed cond (.nodeLost x)) r).release r
              (s.stepIndex r + 1)).ended)) ∧
      (let takes (t : State) (r : RunnerId) : State :=
        match (t.runner r).state with
        | .waiting (.check l f _ _) =>
            match t.stepAt r (t.stepIndex r) with
            | some (.expect _ cond _ strict) =>
                if x ∈ l ∧ reachable = true ∧ since.get r = false ∧ (f.getD .any).takes kind = true then
                  if strict then
                    (t.raise (.expectFailed r (t.stepIndex r) cond (.nodeLost x)) .runners (some x)).abort r .expectFailed
                      none
                  else
                    ((t.mark r (t.stepIndex r) .missed).cueReport (.expectMissed cond (.nodeLost x)) r).release r
                      (t.stepIndex r + 1)
                else t
            | _ => t
        | _ => t
      exec (.nodeLostNotice c order) s = .next (order.toList.foldl takes taken).ended)) ∧
    (∀ l, m = .room l →
      let room : Instr := .roomNotice { chain := c, order := order }
      let takes (t : State) (r : RunnerId) : State :=
        match (t.runner r).state with
        | .waiting (.room d cmd refs) =>
            if d = c ∧ ∀ k ∈ (t.chains.get c).claims, k.runner ≠ r then
              let x := t.offerAll r cmd refs
              if x.2 = true then x.1.completeWait r .done else x.1
            else t
        | _ => t
      exec room s = .next ((order.toList.filter fun r => decide (r ∈ l)).foldl takes taken).ended ∧
      (∀ r, l = [r] →
        ((∀ cmd refs, (s.runner r).state ≠ .waiting (.room c cmd refs)) →
          exec room s = .next taken.ended) ∧
        (∀ cmd refs, (s.runner r).state = .waiting (.room c cmd refs) →
          ((∃ k ∈ (s.chains.get c).claims, k.runner = r) → exec room s = .next taken.ended) ∧
          ((∀ k ∈ (s.chains.get c).claims, k.runner ≠ r) →
            (refs = [] → exec room s = .next (taken.completeWait r .done).ended) ∧
            ((taken.offerAll r cmd refs).2 = true →
              exec room s = .next ((taken.offerAll r cmd refs).1.completeWait r .done).ended) ∧
            ((taken.offerAll r cmd refs).2 = false →
              exec room s = .next (taken.offerAll r cmd refs).1.ended)))) ∧
      (∀ r d, r ≠ d → l = [r, d] → order.toList.filter (fun x => decide (x ∈ l)) = [d, r] →
        exec room s = .next (takes (takes taken d) r).ended)) ∧
    (∀ r cmd, m = .evicted r cmd →
      let detail : Option Evicted := some { chain := c, cmd := cmd }
      (∀ reason, (s.runner r).state = .aborted reason →
        exec (.evictionNotice c) s = .next (taken.cueReport (.aborted .queueEvicted detail) r).ended) ∧
      ((∀ reason, (s.runner r).state ≠ .aborted reason) →
        exec (.evictionNotice c) s = .next (taken.abort r .queueEvicted detail).ended))

/-! ### Chapter 10 -/

/-- INCOMING_BYTE and CONTROL_FRAME (R175 to R178, R193). Before the rate is learned only a sync byte is taken, and it sets
the rate. HUNTING, the sync byte starts a frame and any other byte is counted. A byte joins the frame; a length out of range
discards it with LINK_CHECK; the last byte of a frame whose CRC-16 matches hands the request to a free place, or to the
refusal place, or drops it; one that differs discards it with LINK_CHECK. The model's own: the line rate is an operand (log
27), and what arrives while a RESET waits is counted and discarded (log 43). -/
def Obligations.ReceivedBytesBecomeRequests : Prop :=
  (∀ (b : Byte) (rate : Nat) (s : State),
    let l := s.link
    (l.rate = none → b ≠ 0xA7 → exec (.incomingByte b rate) s = .next s.ended) ∧
    (l.rate = none → b = 0xA7 →
      exec (.incomingByte b rate) s = .next (s.setLink { l with rate := some rate, receiver := .receiving [] 0 }).ended) ∧
    (l.rate ≠ none → l.receiver = .hunting →
      (b = 0xA7 → exec (.incomingByte b rate) s = .next (s.setLink { l with receiver := .receiving [] 0 }).ended) ∧
      (b ≠ 0xA7 →
        exec (.incomingByte b rate) s = .next
          (s.setLink { l with counters := { l.counters with hunted := bump16 l.counters.hunted } }).ended)) ∧
    (∀ t, l.rate ≠ none → l.receiver = .receiving [] t →
      exec (.incomingByte b rate) s = .next (s.setLink { l with receiver := .receiving [b] t }).ended) ∧
    (∀ t h, l.rate ≠ none → l.receiver = .receiving [h] t →
      (2 ≤ (h ++ b : Word16).toNat → (h ++ b : Word16).toNat ≤ 1102 →
        exec (.incomingByte b rate) s = .next (s.setLink { l with receiver := .receiving [h, b] t }).ended) ∧
      ((h ++ b : Word16).toNat < 2 ∨ 1102 < (h ++ b : Word16).toNat →
        exec (.incomingByte b rate) s = .next
          ((s.setLink { l with receiver := .hunting,
                               counters := { l.counters with lengthDiscards := bump16 l.counters.lengthDiscards } }).raise
            (.linkCheck .length) .link none).ended)) ∧
    (∀ t h lo more, l.rate ≠ none → l.receiver = .receiving (h :: lo :: more) t →
      2 ≤ (h ++ lo : Word16).toNat → (h ++ lo : Word16).toNat ≤ 1102 → more.length + 1 ≠ (h ++ lo : Word16).toNat + 2 →
      exec (.incomingByte b rate) s = .next
        (s.setLink { l with receiver := .receiving (h :: lo :: more ++ [b]) t }).ended)) ∧
  (∀ (s : State) (t : Nat) (h lo kind tag c0 c1 : Byte) (body : List Byte),
    let l := s.link
    l.receiver = .receiving (h :: lo :: kind :: tag :: body ++ [c0]) t → (h ++ lo : Word16).toNat = body.length + 2 →
    body.length ≤ 1100 →
    let q : Request := { kind := kind, tag := tag, body := body }
    let heard : Link := { l with receiver := .hunting,
                                 counters := { l.counters with received := bump16 l.counters.received } }
    let ok := crc16 (h :: lo :: kind :: tag :: body) = (c0 ++ c1 : Word16)
    (¬ ok →
      exec (.controlFrame c1) s = .next
        ((s.setLink { l with receiver := .hunting,
                             counters := { l.counters with checkDiscards := bump16 l.counters.checkDiscards } }).raise
          (.linkCheck .check) .link none).ended) ∧
    (ok → l.resetting = true → exec (.controlFrame c1) s = .next (s.setLink heard).ended) ∧
    (ok → l.resetting = false → l.placesHeld < 4 →
      exec (.controlFrame c1) s = .next (s.setLink { heard with waiting := l.waiting ++ [q] }).ended) ∧
    (ok → l.resetting = false → 4 ≤ l.placesHeld → l.refusalHeld = false →
      exec (.controlFrame c1) s = .next
        (s.setLink { heard with
          ready := l.ready ++ [{ kind := kind, tag := tag, code := .full, body := .empty, refusal := true }],
          counters := { heard.counters with refusedFull := bump16 l.counters.refusedFull } }).ended) ∧
    (ok → l.resetting = false → 4 ≤ l.placesHeld → l.refusalHeld = true →
      exec (.controlFrame c1) s = .next
        (s.setLink { heard with
          counters := { heard.counters with dropped := bump16 l.counters.dropped } }).ended))

/-- UNKNOWN_REQUEST (R179), requests whose body does not have the length of its fields (R179), and TRANSMIT_DONE with the
transmitter's choice (R177, R182): the oldest ready reply, otherwise the report at the head of the queue; nothing before the
rate is learned. Once RESET has been taken the reports are held back and only replies are sent (R190). The model's own: the
row that takes a malformed body (log 29), the moment of the transmitter's choice (log 11), and with nothing being sent the
command does nothing (log 1). -/
def Obligations.RequestsAreAnsweredAndSent : Prop :=
  (∀ (q : Request) (rest : List Request) (s : State), s.link.waiting = q :: rest → s.link.resetting = false →
    (q.kind.toNat = 0 ∨ 0x1E < q.kind.toNat) →
    exec .unknownRequest s = .next ((s.taken rest).replied q .unknown .empty)) ∧
  (∀ (q : Request) (rest : List Request) (s : State),
    let refused := (s.taken rest).replied q .badArg .empty
    (Waits .statusReference q rest s → q.body.length ≠ 1 → exec .statusReference s = .next refused) ∧
    (Waits .statusChain q rest s → q.body.length ≠ 2 → exec .statusChain s = .next refused) ∧
    (Waits .statusIntake q rest s → q.body.length ≠ 1 → exec .statusIntake s = .next refused) ∧
    (Waits .statusPool q rest s → q.body.length ≠ 1 → exec .statusPool s = .next refused) ∧
    (Waits .statusStills q rest s → q.body.length ≠ 1 → exec .statusStills s = .next refused) ∧
    (Waits .statusScene q rest s → q.body.length ≠ 1 → exec .statusScene s = .next refused) ∧
    (Waits .statusGroups q rest s → q.body.length ≠ 1 → exec .statusGroups s = .next refused) ∧
    (Waits .statusTally q rest s → q.body.length ≠ 1 → exec .statusTally s = .next refused) ∧
    (Waits .statusRunners q rest s → q.body.length ≠ 1 → exec .statusRunners s = .next refused) ∧
    (Waits .statusLink q rest s → q.body.length ≠ 1 → exec .statusLink s = .next refused) ∧
    (Waits .refSet q rest s → q.body.length ≠ 2 → ∀ m, exec (.refSet m) s = .next refused) ∧
    (Waits .frameSet q rest s → q.body.length ≠ 2 → exec .frameSet s = .next refused) ∧
    (Waits .chainSetEnable q rest s → q.body.length ≠ 4 → exec .chainSetEnable s = .next refused) ∧
    (Waits .chainSetDisable q rest s → q.body.length ≠ 4 → exec .chainSetDisable s = .next refused) ∧
    (Waits .chainRewalk q rest s → q.body.length ≠ 1 → exec .chainRewalk s = .next refused) ∧
    (Waits .nodeGet q rest s → q.body.length ≠ 2 → exec .nodeGet s = .next refused) ∧
    (Waits .nodeCommandConfigure q rest s → q.body.length ≠ 9 → exec .nodeCommandConfigure s = .next refused) ∧
    (Waits .nodeCommandEnable q rest s → q.body.length ≠ 3 → exec .nodeCommandEnable s = .next refused) ∧
    (Waits .nodeReinstate q rest s → q.body.length ≠ 2 → exec .nodeReinstate s = .next refused) ∧
    (Waits .segSet q rest s → q.body.length ≠ 3 → exec .segSet s = .next refused) ∧
    (Waits .flowClear q rest s → q.body.length ≠ 0 → exec .flowClear s = .next refused) ∧
    (Waits .poolScrub q rest s → q.body.length ≠ 0 → exec .poolScrub s = .next refused) ∧
    (Waits .tallyMask q rest s → q.body.length ≠ 1 → exec .tallyMask s = .next refused) ∧
    (Waits .cueRead q rest s → q.body.length ≠ 1 → exec .cueRead s = .next refused) ∧
    (Waits .runnerArm q rest s → q.body.length ≠ 2 → exec .runnerArm s = .next refused) ∧
    (Waits .runnerGo q rest s → q.body.length ≠ 1 → exec .runnerGo s = .next refused) ∧
    (Waits .runnerHalt q rest s → q.body.length ≠ 1 → exec .runnerHalt s = .next refused) ∧
    (Waits .runnerConfirm q rest s → q.body.length ≠ 1 → exec .runnerConfirm s = .next refused) ∧
    (Waits .runnerResume q rest s → q.body.length ≠ 1 → exec .runnerResume s = .next refused) ∧
    (Waits .runnerClear q rest s → q.body.length ≠ 1 → exec .runnerClear s = .next refused) ∧
    (Waits .reportSet q rest s → q.body.length ≠ 2 → exec .reportSet s = .next refused) ∧
    (Waits .faultGet q rest s → q.body.length ≠ 0 → exec .faultGet s = .next refused) ∧
    (Waits .reset q rest s → q.body.length ≠ 0 → exec .reset s = .next refused)) ∧
  (∀ (m : Nat) (s : State),
    (s.link.tx = none → exec (.transmitDone m) s = .next s) ∧
    (∀ r, s.link.tx = some (.report r) →
      exec (.transmitDone m) s = .next (s.setLink { s.link with tx := none }).ended) ∧
    (∀ r, s.link.tx = some (.reply r) → ¬ (r.kind = 0x1E ∧ r.code = .ok ∧ r.refusal = false) →
      exec (.transmitDone m) s = .next (s.setLink { s.link with tx := none }).ended)) ∧
  (∀ l : Link,
    (l.tx ≠ none → l.pump = l) ∧ (l.rate = none → l.pump = l) ∧
    (∀ r rest, l.tx = none → l.rate ≠ none → l.ready = r :: rest →
      l.pump = { l with ready := rest, tx := some (.reply r) }) ∧
    (∀ r rest, l.tx = none → l.rate ≠ none → l.ready = [] → l.resetting = false → l.reports = r :: rest →
      l.pump = { l with reports := rest, tx := some (.report r) }) ∧
    (l.ready = [] → l.reports = [] → l.pump = l) ∧
    (l.resetting = true → l.pump.reports = l.reports ∧ (l.ready = [] → l.pump = l))) ∧
  (∀ (m : Nat) (s : State), s.link.resetting = true → s.link.ready = [] →
    (∀ r, s.link.tx = some (.report r) →
      exec (.transmitDone m) s = .next (s.setLink { s.link with tx := none })) ∧
    (∀ r, s.link.tx = some (.reply r) → ¬ (r.kind = 0x1E ∧ r.code = .ok ∧ r.refusal = false) →
      exec (.transmitDone m) s = .next (s.setLink { s.link with tx := none })))

/-- Bodies that are refused BAD_ARG, with nothing changed (R179): a field out of its range, in REF_SET (R14), CHAIN_SET (R34),
CHAIN_REWALK (R54), NODE_SET (R38), NODE_COMMAND (R39), NODE_REINSTATE (R62), SEG_SET (R80), STILL_WRITE (R109), STILL_CLEAR
(R113), LOOK_SET (R121), GROUP_SET (R132), TALLY_RULE_SET (R137) and the requests on runners (R150, R151); and a body of
variable length that does not have the length of its fields, or whose presence byte is neither 0 nor 1, in NODE_SET,
STILL_WRITE, LOOK_SET, GROUP_SET, TALLY_RULE_SET, CUE_LOAD (R148) and FAULT_CLEAR (R189). A STILL_WRITE that can be read tells
the state of the slot it names (R111). The model's own: the codes of fields and presence bytes (log 10), and the rows that
take a malformed body (log 29). -/
def Obligations.FieldsOutOfRangeAreRefused : Prop :=
  ∀ (q : Request) (rest : List Request) (s : State),
    let refused := (s.taken rest).replied q .badArg .empty
    let badSelector (f x a k : Byte) : Prop :=
      (f = 0 ∧ ((3 < x.toNat ∧ x ≠ 0xFF) ∨ ((a.toNat < 1 ∨ 30 < a.toNat) ∧ a ≠ 0xFF) ∨ 2 < k.toNat)) ∨
        (f = 1 ∧ (15 < x.toNat ∨ a ≠ 0 ∨ k ≠ 0)) ∨ 1 < f.toNat
    let badNode (c a : Byte) : Prop := 3 < c.toNat ∨ a.toNat < 1 ∨ 30 < a.toNat
    (Waits .refSet q rest s → ∀ m r, q.body = [m, r] → (4 < m.toNat ∨ 3 < r.toNat) →
      ∀ at_, exec (.refSet at_) s = .next refused) ∧
    (Waits .chainSetEnable q rest s → ∀ c a sl bl, q.body = [c, a, sl, bl] →
      (3 < c.toNat ∨ 1 < a.toNat ∨ 15 < sl.toNat ∨ 15 < bl.toNat) → exec .chainSetEnable s = .next refused) ∧
    (Waits .chainSetDisable q rest s → ∀ c a sl bl, q.body = [c, a, sl, bl] →
      (3 < c.toNat ∨ 15 < sl.toNat ∨ 15 < bl.toNat) → exec .chainSetDisable s = .next refused) ∧
    (Waits .chainRewalk q rest s → ∀ c, q.body = [c] → 3 < c.toNat → exec .chainRewalk s = .next refused) ∧
    (Waits .nodeReinstate q rest s → ∀ c a, q.body = [c, a] → badNode c a → exec .nodeReinstate s = .next refused) ∧
    (Waits .nodeSet q rest s →
      (q.body.length < 6 → exec .nodeSet s = .next refused) ∧
      (∀ c a more, q.body = c :: a :: more → badNode c a → exec .nodeSet s = .next refused) ∧
      (∀ c a p more, q.body = c :: a :: p :: more → 1 < p.toNat → exec .nodeSet s = .next refused) ∧
      (∀ c a g more, q.body = c :: a :: 1 :: g :: more → 2 < g.toNat → exec .nodeSet s = .next refused) ∧
      (∀ c a, q.body = [c, a, 0, 0, 0, 0] → exec .nodeSet s = .next refused) ∧
      (∀ c a gap more, (gap = [0] ∨ ∃ g, gap = [1, g]) → q.body = c :: a :: gap ++ more →
        (more = [] ∨ more = [1] → exec .nodeSet s = .next refused) ∧
        (∀ p later, more = p :: later → 1 < p.toNat → exec .nodeSet s = .next refused) ∧
        (∀ p later, more = 1 :: p :: later → 4 < p.toNat → exec .nodeSet s = .next refused) ∧
        (∀ page later, (page = [0] ∨ ∃ p, page = [1, p]) → more = page ++ later →
          (later = [] ∨ later = [1] ∨ (∃ h, later = [1, h]) → exec .nodeSet s = .next refused) ∧
          (∀ p last, later = p :: last → 1 < p.toNat → exec .nodeSet s = .next refused) ∧
          (∀ h l last, later = 1 :: h :: l :: last → 1000 < (h ++ l : Word16).toNat →
            exec .nodeSet s = .next refused) ∧
          (∀ clamp last, (clamp = [0] ∨ ∃ h l, clamp = [1, h, l]) → later = clamp ++ last →
            (last.length ≠ 1 → exec .nodeSet s = .next refused) ∧
            (∀ p, last = [p] → 1 < p.toNat → exec .nodeSet s = .next refused))))) ∧
    (Waits .nodeCommandConfigure q rest s → ∀ c a k t colour gamma rotation dimming fan,
      q.body = [c, a, k, t, colour, gamma, rotation, dimming, fan] →
      (3 < c.toNat ∨ a.toNat < 1 ∨ 31 < a.toNat ∨ k ≠ 0 ∨ t = 0 ∨ 15 < colour.toNat ∨ 3 < gamma.toNat ∨
        3 < rotation.toNat ∨ 3 < dimming.toNat ∨ 2 < fan.toNat) →
      exec .nodeCommandConfigure s = .next refused) ∧
    (Waits .nodeCommandEnable q rest s → ∀ c a k, q.body = [c, a, k] →
      (3 < c.toNat ∨ a.toNat < 1 ∨ 31 < a.toNat) → exec .nodeCommandEnable s = .next refused) ∧
    (Waits .segSet q rest s → ∀ h l p, q.body = [h, l, p] →
      (((h ++ l : Word16).toNat ≠ 0 ∧ ((h ++ l : Word16).toNat < 8 ∨ 256 < (h ++ l : Word16).toNat)) ∨ 15 < p.toNat) →
      exec .segSet s = .next refused) ∧
    (∀ i : Instr, (i = .stillWriteBegin ∧ Waits .stillWriteBegin q rest s) ∨
        (i = .stillWriteContinue ∧ Waits .stillWriteContinue q rest s) →
      (q.body.length < 10 → exec i s = .next refused) ∧
      (∀ p c a oh ol th tl nh nl more, q.body = p :: c :: a :: oh :: ol :: th :: tl :: nh :: nl :: more →
        let chunk := (nh ++ nl : Word16).toNat
        (more.length ≤ chunk → exec i s = .next refused) ∧
        (∀ b tail, more.drop chunk = b :: tail →
          (1 < b.toNat ∨ (b = 0 ∧ tail ≠ []) ∨ (b = 1 ∧ tail.length ≠ 4)) → exec i s = .next refused)) ∧
      (∀ x, stillWrite? q.body = some x →
        (3 < x.page ∨ 3 < x.chain ∨ x.address < 1 ∨ 30 < x.address →
          exec i s = .next ((s.taken rest).replied q .badArg (.still none s.stills.unreserved))) ∧
        (∀ c : ChainId, x.page ≤ 3 → x.chain = c.val → 1 ≤ x.address → x.address ≤ 30 →
          (4095 < x.offset ∨ x.total < 1 ∨ 4096 < x.total ∨ x.chunk.length < 1 ∨ 1024 < x.chunk.length ∨
            x.total < x.offset + x.chunk.length ∨ ¬ (x.offset + x.chunk.length = x.total ↔ x.crc.isSome = true)) →
          let r : StillRef := { page := x.page, chain := c, address := x.address }
          exec i s = .next
            ((s.taken rest).replied q .badArg (.still (some (s.stills.slot r).shown) s.stills.unreserved))))) ∧
    (Waits .stillClearSlot q rest s →
      (q.body.length ≠ 4 → exec .stillClearSlot s = .next refused) ∧
      (∀ p k c a, q.body = [p, k, c, a] → (3 < p.toNat ∨ k ≠ 0 ∨ badNode c a) →
        exec .stillClearSlot s = .next refused)) ∧
    (Waits .stillClearPage q rest s →
      (q.body.length ≠ 2 → exec .stillClearPage s = .next refused) ∧
      (∀ p k, q.body = [p, k] → 3 < p.toNat → exec .stillClearPage s = .next refused)) ∧
    (Waits .lookSet q rest s →
      (q.body.length < 8 → exec .lookSet s = .next refused) ∧
      (∀ f x a k p more, q.body = f :: x :: a :: k :: p :: more →
        (badSelector f x a k ∨ 3 < p.toNat ∨ ((p = 0 ∨ p = 3) ∧ more.length ≠ 3) ∨
            ((p = 1 ∨ p = 2) ∧ more.length ≠ 4) → exec .lookSet s = .next refused) ∧
        (∀ v h l, more = [v, h, l] →
          ((p = 0 ∧ 6 < v.toNat) ∨ (p = 3 ∧ 15 < v.toNat) ∨ (h ++ l : Word16) ≠ 0) →
          exec .lookSet s = .next refused) ∧
        (∀ vh vl h l, more = [vh, vl, h, l] →
          (1000 < (vh ++ vl : Word16).toNat ∨ 1000 < (h ++ l : Word16).toNat) →
          exec .lookSet s = .next refused))) ∧
    (Waits .groupSet q rest s →
      (q.body.length < 2 → exec .groupSet s = .next refused) ∧
      (∀ g n more, q.body = g :: n :: more →
        (15 < g.toNat ∨ 32 < n.toNat ∨ more.length ≠ 2 * n.toNat → exec .groupSet s = .next refused) ∧
        (∀ before c a later, more = before ++ c :: a :: later → before.length % 2 = 0 → badNode c a →
          exec .groupSet s = .next refused))) ∧
    (Waits .tallyRuleSet q rest s →
      (q.body.length < 12 → exec .tallyRuleSet s = .next refused) ∧
      (∀ n en line sense f x a k p more, q.body = n :: en :: line :: sense :: f :: x :: a :: k :: p :: more →
        (15 < n.toNat ∨ 1 < en.toNat ∨ 7 < line.toNat ∨ 1 < sense.toNat ∨ badSelector f x a k ∨ 2 < p.toNat ∨
            ((p = 0 ∨ p = 1) ∧ more.length ≠ 4) ∨ (p = 2 ∧ more.length ≠ 3) →
          exec .tallyRuleSet s = .next refused) ∧
        (∀ v at_ re, more = [v, at_, re] → (15 < v.toNat ∨ 250 < at_.toNat ∨ 250 < re.toNat) →
          exec .tallyRuleSet s = .next refused) ∧
        (∀ vh vl at_ re, more = [vh, vl, at_, re] →
          (1000 < (vh ++ vl : Word16).toNat ∨ 250 < at_.toNat ∨ 250 < re.toNat) →
          exec .tallyRuleSet s = .next refused))) ∧
    (Waits .cueLoad q rest s →
      (q.body.length < 2 → exec .cueLoad s = .next refused) ∧
      (∀ k n more, q.body = k :: n :: more → cueSteps? n.toNat more = none → exec .cueLoad s = .next refused)) ∧
    ((∀ more, more ≠ [] → cueSteps? 0 more = none) ∧ (∀ n, cueSteps? (n + 1) [] = none) ∧
      (∀ n more, cueStep? more = .short → cueSteps? (n + 1) more = none) ∧
      (∀ n x more later, cueStep? more = .step x later → cueSteps? n later = none → cueSteps? (n + 1) more = none)) ∧
    (Waits .runnerArm q rest s → ∀ r k, q.body = [r, k] → (2 < r.toNat ∨ 7 < k.toNat) →
      exec .runnerArm s = .next refused) ∧
    (∀ r, q.body = [r] → 2 < r.toNat →
      (Waits .runnerGo q rest s → exec .runnerGo s = .next refused) ∧
      (Waits .runnerHalt q rest s → exec .runnerHalt s = .next refused) ∧
      (Waits .runnerConfirm q rest s → exec .runnerConfirm s = .next refused) ∧
      (Waits .runnerResume q rest s → exec .runnerResume s = .next refused) ∧
      (Waits .runnerClear q rest s → exec .runnerClear s = .next refused)) ∧
    (Waits .faultClear q rest s →
      (q.body = [] → exec .faultClear s = .next refused) ∧
      (∀ p more, q.body = p :: more →
        (1 < p.toNat ∨ (p = 0 ∧ more ≠ []) ∨ (p = 1 ∧ more.length ≠ 2)) → exec .faultClear s = .next refused))

/-- CONTROL_LINK_TICK, FRAME_REPORT_DUE and LINK_STALL_EXPIRY (R176, R184): the FRAME tick count, the FRAME report with what
it sets back when it joins the queue, and the stall watch of the frame being received, at any period. The model's own: the
report's and the stall's own rows take the tick that decides them (log 5), and of the two the tick's row and the report's take
the FRAME tick first, the stall's row the watch (log 40). -/
def Obligations.LinkTicksReportAndWatch : Prop :=
  ∀ (n : Word16) (ticks : List Word16) (s : State), s.mail.ticks.link = n :: ticks →
    let l := s.link
    let taken := s.setMail { s.mail with ticks := { s.mail.ticks with link := ticks } }
    let body : ReportBody :=
      .frame s.ref.counter s.ref.source s.pool.freeCount s.pool.quarantine.length s.pool.pause
        ⟨(s.chains.get 0).state, (s.chains.get 1).state, (s.chains.get 2).state, (s.chains.get 3).state⟩ s.intake.since
        l.lost l.faultCount
    let report : Report := { seq := l.seq, frame := s.ref.counter, body := body }
    (l.receiver = .hunting →
      (l.period = 0 → exec .controlLinkTick s = .next taken.ended) ∧
      (l.tickCount + 1 < l.period →
        exec .controlLinkTick s = .next (taken.setLink { l with tickCount := l.tickCount + 1 }).ended) ∧
      (l.period ≠ 0 → l.period ≤ l.tickCount + 1 →
        (l.mask.getLsbD 0 = true → l.reports.length < 32 →
          let due := (taken.setIntake { s.intake with since := .zero }).setLink
            { l with tickCount := 0, seq := l.seq + 1, lost := 0, reports := l.reports ++ [report] }
          exec .controlLinkTick s = .next due.ended ∧ exec .frameReportDue s = .next due.ended) ∧
        (l.mask.getLsbD 0 = true → 32 ≤ l.reports.length →
          let full := taken.setLink { l with tickCount := 0, seq := l.seq + 1, lost := bump16 l.lost }
          exec .controlLinkTick s = .next full.ended ∧ exec .frameReportDue s = .next full.ended) ∧
        (l.mask.getLsbD 0 = false →
          exec .controlLinkTick s = .next (taken.setLink { l with tickCount := 0 }).ended ∧
            exec .frameReportDue s = .next (taken.setLink { l with tickCount := 0 }).ended))) ∧
    (∀ bytes, l.receiver = .receiving bytes 0 → l.period = 0 →
      exec .controlLinkTick s = .next (taken.setLink { l with receiver := .receiving bytes 1 }).ended) ∧
    (∀ bytes t, l.receiver = .receiving bytes t → 1 ≤ t → l.period = 0 →
      let stalled := (taken.setLink { l with
        receiver := .hunting,
        counters := { l.counters with stallDiscards := bump16 l.counters.stallDiscards } }).raise
          (.linkCheck .stall) .link none
      exec .controlLinkTick s = .next stalled.ended ∧ exec .linkStallExpiry s = .next stalled.ended) ∧
    (let framed (t : State) : State :=
      let l := t.link
      let body : ReportBody :=
        .frame t.ref.counter t.ref.source t.pool.freeCount t.pool.quarantine.length t.pool.pause
          ⟨(t.chains.get 0).state, (t.chains.get 1).state, (t.chains.get 2).state, (t.chains.get 3).state⟩
          t.intake.since l.lost l.faultCount
      let report : Report := { seq := l.seq, frame := t.ref.counter, body := body }
      if l.period = 0 then t
      else if l.tickCount + 1 < l.period then t.setLink { l with tickCount := l.tickCount + 1 }
      else if l.mask.getLsbD 0 = false then t.setLink { l with tickCount := 0 }
      else if l.reports.length < 32 then
        (t.setIntake { t.intake with since := .zero }).setLink
          { l with tickCount := 0, seq := l.seq + 1, lost := 0, reports := l.reports ++ [report] }
      else t.setLink { l with tickCount := 0, seq := l.seq + 1, lost := bump16 l.lost }
    let watched (t : State) : State :=
      let l := t.link
      match l.receiver with
      | .hunting => t
      | .receiving bytes k =>
          if k = 0 then t.setLink { l with receiver := .receiving bytes 1 }
          else
            (t.setLink { l with receiver := .hunting,
                                counters := { l.counters with stallDiscards := bump16 l.counters.stallDiscards } }).raise
              (.linkCheck .stall) .link none
    exec .controlLinkTick s = .next (watched (framed taken)).ended ∧
    (l.period ≠ 0 → l.period ≤ l.tickCount + 1 → exec .frameReportDue s = .next (watched (framed taken)).ended) ∧
    (∀ bytes t, l.receiver = .receiving bytes t → 1 ≤ t →
      exec .linkStallExpiry s = .next (framed (watched taken)).ended))

/-- Reports and faults (R182, R183, R186, R187). A report that the mask admits is numbered and queued, or on a full queue
dropped and counted; one the mask excludes is not made; HELLO is never excluded. The first fault is captured, every fault is
counted up to 65535 and reported. REPORT_SET takes mask and period and restarts the FRAME tick count. The model's own: the
mask's bit for each kind (log 44). -/
def Obligations.ReportsAndFaultsAreTaken : Prop :=
  (∀ (e : Word16) (b : ReportBody) (l : Link),
    (l.admits b = true → l.reports.length < 32 →
      l.offer e b = { l with seq := l.seq + 1, reports := l.reports ++ [{ seq := l.seq, frame := e, body := b }] }) ∧
    (l.admits b = true → 32 ≤ l.reports.length →
      l.offer e b = { l with seq := l.seq + 1, lost := min (l.lost + 1) (max l.lost 65535) }) ∧
    (l.admits b = false → l.offer e b = l) ∧
    (∀ cause rate, b = .hello cause rate → l.admits b = true)) ∧
  (∀ (l : Link) (e : Word16) (src : TickSource) (a q x y : Nat) (p : Bool) (c : Four ChainMode) (i : IntakeCounts)
    (cause : RefCause) (m : RefMode) (f : FrameRate) (sa sb : InputState) (nc : NodeCause) (ch : ChainId)
    (br : Option NodeBrief) (cc : ChainCause) (st : ChainMode) (h : Option Nat) (sc : StateCounts) (fc : FlowCause)
    (cu : CueCause) (r : RunnerId) (fr : FaultRecord),
    l.admits (.frame e src a q p c i x y) = l.mask.getLsbD 0 ∧ l.admits (.ref cause m f sa sb src e) = l.mask.getLsbD 1 ∧
    l.admits (.node nc ch a br) = l.mask.getLsbD 2 ∧ l.admits (.chain cc ch st h sc) = l.mask.getLsbD 3 ∧
    l.admits (.flow fc e a q x y) = l.mask.getLsbD 4 ∧ l.admits (.pool a q x y a e) = l.mask.getLsbD 5 ∧
    l.admits (.cue cu r h h e) = l.mask.getLsbD 6 ∧ l.admits (.fault fr a p) = l.mask.getLsbD 7) ∧
  (∀ (f : FaultRecord) (l : Link),
    (l.faultCount = 0 →
      l.takeFault f = ({ l with captured := some f, faultCount := 1 } : Link).offer f.frame (.fault f 1 true)) ∧
    (0 < l.faultCount → l.faultCount < 65535 →
      l.takeFault f = ({ l with faultCount := l.faultCount + 1 } : Link).offer f.frame
        (.fault f (l.faultCount + 1) false)) ∧
    (l.faultCount = 65535 → l.takeFault f = l.offer f.frame (.fault f 65535 false))) ∧
  (∀ (q : Request) (rest : List Request) (mask p : Byte) (s : State), Waits .reportSet q rest s → q.body = [mask, p] →
    (p.toNat ≤ 250 →
      exec .reportSet s = .next
        ((s.setLink { s.link with waiting := rest, mask := mask, period := p.toNat, tickCount := 0 }).replied q .ok
          .empty)) ∧
    (250 < p.toNat → exec .reportSet s = .next ((s.taken rest).replied q .badArg .empty)))

/-- FAULT_GET (R188) reads the fault count and the captured fault and changes nothing. FAULT_CLEAR (R189) empties the record
when no seen count is given or the one given is the fault count; another seen count is refused STATE with what the record
holds; a seen count of 0 is refused BAD_ARG. -/
def Obligations.FaultRecordIsReadAndCleared : Prop :=
  (∀ (q : Request) (rest : List Request) (s : State), Waits .faultGet q rest s → q.body = [] →
    exec .faultGet s = .next ((s.taken rest).replied q .ok (.faults s.link.faultCount s.link.captured))) ∧
  (∀ (q : Request) (rest : List Request) (s : State), Waits .faultClear q rest s →
    let cleared := (s.setLink { s.link with waiting := rest, captured := none, faultCount := 0 }).replied q .ok .empty
    (q.body = [0] → exec .faultClear s = .next cleared) ∧
    (∀ h l, q.body = [1, h, l] →
      ((h ++ l : Word16) = 0 → exec .faultClear s = .next ((s.taken rest).replied q .badArg .empty)) ∧
      ((h ++ l : Word16) ≠ 0 → (h ++ l : Word16).toNat = s.link.faultCount → exec .faultClear s = .next cleared) ∧
      ((h ++ l : Word16) ≠ 0 → (h ++ l : Word16).toNat ≠ s.link.faultCount →
        exec .faultClear s = .next
          ((s.taken rest).replied q .state (.faults s.link.faultCount s.link.captured)))))

/-- STATUS (R16, R25, R88, R103, R108, R117, R131, R144, R150, R181): each section answers OK with the values it lists, and
nothing changes; a section above 9 or a chain above 3 is refused BAD_ARG. The counts: a chain's records by state, its
frame-slot entries by frame, a page's slots by state, and a chain's parameters by owner. The model's own: the scrub state is one
optional number (log 10), the row of section REFERENCE takes a section above 9 (log 29), section LINK counts its own request
among the places held (log 42), the entries by frame list the frames that hold one, each once (log 54), and the two blocks of
section CHAIN, and of section TALLY, are read in one command (log 55). -/
def Obligations.StatusReadsEverySection : Prop :=
  (∀ (q : Request) (rest : List Request) (s : State),
    let reads (b : ReplyBody) : Host.Outcome State Fault Refusal := .next ((s.taken rest).replied q .ok b)
    let phase (x : Entry) : EntryPhase :=
      match x with
      | .free => .free
      | .receiving _ _ => .receiving
      | .queued _ _ _ => .queued
      | .storing _ _ _ _ => .storing
    (Waits .statusReference q rest s →
      (q.body = [0] → exec .statusReference s = reads
        (.statusReference s.ref.source s.ref.mode s.ref.rate s.ref.a.state s.ref.b.state s.ref.counter
          s.ref.pendingFrame.isSome)) ∧
      (∀ k, q.body = [k] → 9 < k.toNat →
        exec .statusReference s = .next ((s.taken rest).replied q .badArg .empty))) ∧
    (Waits .statusChain q rest s →
      (∀ c : ChainId, q.body = [1, BitVec.ofNat 8 c.val] →
        let ch := s.chains.get c
        exec .statusChain s = reads (.statusChain
          { state := ch.state, endHop := ch.endHop, portRoute := ch.portRoute, breakCount := ch.breakCount,
            silentLimit := ch.silentLimit, breakLimit := ch.breakLimit, counters := ch.counters,
            absent := 30 - ch.enrolled.length, counts := ch.stateCounts, assembler := (s.asm.get c).counters,
            slots := (s.asm.get c).slotCounts })) ∧
      (∀ c, q.body = [1, c] → 3 < c.toNat →
        exec .statusChain s = .next ((s.taken rest).replied q .badArg .empty))) ∧
    (Waits .statusIntake q rest s → q.body = [2] → exec .statusIntake s = reads
      (.statusIntake (phase s.intake.e0) (phase s.intake.e1) s.intake.hold s.intake.total)) ∧
    (Waits .statusPool q rest s → q.body = [3] → exec .statusPool s = reads
      (.statusPool s.pool.freeCount s.pool.quarantine.length s.pool.pause s.pool.threshold s.pool.pauseLen
        s.pool.exhausted (s.pool.scrub.map fun x => x.todo.length))) ∧
    (Waits .statusStills q rest s → q.body = [4] → exec .statusStills s = reads
      (.statusStills s.stills.reserved s.stills.unreserved
        ⟨s.stills.pageCounts 0, s.stills.pageCounts 1, s.stills.pageCounts 2, s.stills.pageCounts 3⟩)) ∧
    (Waits .statusScene q rest s → q.body = [5] → exec .statusScene s = reads
      (.statusScene
        ⟨(s.scene.previous.get 0).gen, (s.scene.previous.get 1).gen, (s.scene.previous.get 2).gen,
          (s.scene.previous.get 3).gen⟩
        ⟨s.scene.ownerCounts 0, s.scene.ownerCounts 1, s.scene.ownerCounts 2, s.scene.ownerCounts 3⟩)) ∧
    (Waits .statusGroups q rest s → q.body = [6] → exec .statusGroups s = reads (.statusGroups s.scene.groups)) ∧
    (Waits .statusTally q rest s → q.body = [7] → exec .statusTally s = reads
      (.statusTally s.tally.latched s.tally.sample s.tally.mask
        (s.tally.rules.map fun x => (x, x.active s.tally.latched))
        (s.scene.claims.map fun o => o.map fun x => x.entries.length))) ∧
    (Waits .statusRunners q rest s → q.body = [8] →
      exec .statusRunners s = reads (.statusRunners s.cues.runners)) ∧
    (Waits .statusLink q rest s → q.body = [9] → exec .statusLink s = reads
      (.statusLink s.link.placesHeld s.link.reports.length s.link.lost s.link.mask s.link.period s.link.counters
        s.link.faultCount s.link.rate))) ∧
  (∀ ch : Chain,
    let number (st : NodeState) : Nat :=
      (List.range 30).countP fun k => (ch.node (k + 1)).any fun n => decide (n.state = st)
    ch.stateCounts = { ident := number .ident, live := number .live, suspect := number .suspect,
                       failed := number .failed, cut := number .cut } ∧
    ch.enrolled.length = (List.range 30).countP fun k => (ch.node (k + 1)).isSome) ∧
  (∀ m : AsmChain,
    (m.slotCounts.map fun x => x.1).Nodup ∧
    ∀ f k, (f, k) ∈ m.slotCounts ↔ k = m.slots.countP (fun x => decide (x.frame = f)) ∧ k ≠ 0) ∧
  (∀ (st : Stills) (page : Nat),
    let l := (st.slots.drop (page * 120)).take 120
    (st.pageCounts page).empty = l.countP (fun x => decide (x = .empty)) ∧
    (st.pageCounts page).filling = l.countP (fun x => match x with
      | .filling _ _ => true
      | _ => false) ∧
    (st.pageCounts page).ready = l.countP (fun x => match x with
      | .ready _ _ => true
      | _ => false)) ∧
  (∀ (sc : Scene) (c : ChainId),
    let number (w : Writer) : Nat := (((sc.entries.drop (c.val * 30)).take 30).map fun e =>
      [e.source.owner, e.brightness.owner, e.intensity.owner, e.preset.owner].count w).sum
    sc.ownerCounts c = { none := number .none, control := number .control,
                         runners := ⟨number (.runner 0), number (.runner 1), number (.runner 2)⟩ })

/-! ### What every command leaves, and what every step keeps -/

/-- The Reference Unit, the Scene Table, the Tally Unit and the segment memory are changed by their own commands alone: the
Reference Unit by its edges, expiries and requests; the Scene Table by its ticks, messages and requests; the Tally Unit by its
tick and requests; the segment memory by a store and by a scrub test. The resets may change each of them. -/
def Obligations.ReferenceSceneTallyAndMemoryChangeByTheirOwnCommands : Prop :=
  ∀ (i : Instr) (s t : State), exec i s = .next t →
    let resets := (∃ m, i = .pinReset m) ∨ ∃ m, i = .transmitDone m
    (¬ resets →
      (match i with
        | .refEdge _ _ _ | .absenceWatchExpiry _ | .holdoverTimerExpiry | .refSet _ | .frameSet => False
        | _ => True) → t.ref = s.ref) ∧
    (¬ resets →
      (match i with
        | .sceneTableTick | .fadeComplete _ _ _ | .glideEnd _ _ _ | .clampNotice _ | .haltNotice | .sceneWrite
        | .tallyBatch | .lookSet | .groupSet => False
        | _ => True) → t.scene = s.scene) ∧
    (¬ resets →
      (match i with
        | .tallyTick _ | .tallyMask | .tallyRuleSet => False
        | _ => True) → t.tally = s.tally) ∧
    (¬ resets →
      (match i with
        | .storeComplete | .scrubTestComplete _ => False
        | _ => True) → t.pool.memory = s.pool.memory)

/-- Every step keeps the segment memory in its canonical form. The model's own: the canonical form leaves out the bytes that
are 0 (log 8). -/
def Obligations.StepKeepsTheMemoryCanonical : Prop :=
  ∀ s t : State, Memory.wf s.pool.memory → step s = .next t → Memory.wf t.pool.memory

/-- Every step keeps the shapes and bounds of the tables, queues and records: the holdover timer runs exactly when the source
is not locked (R10); thirty records a chain, at most sixteen commands queued with the repair commands ahead, and an END hop
and a probe hop that count from 1 (R22, R25, R28); 480 still slots within the still memory (R107, R108); 120 scene entries,
sixteen groups without repeats and sixteen claim records (R116, R131, R139); sixteen rules and masked lines off (R134 to
R136); eight cue slots of 1 to 32 steps (R146); at most 32 reports, four request places and one refusal, and a captured fault
exactly when the fault count is above zero (R178, R182, R186). -/
def Obligations.StepKeepsTheBounds : Prop :=
  let Inv (s : State) : Prop :=
    s.ref.wf ∧ (∀ c, (s.chains.get c).wf) ∧ (∀ c, (s.asm.get c).wf) ∧ s.stills.wf ∧ s.scene.wf ∧ s.tally.wf ∧
      s.cues.wf ∧ s.link.wf
  ∀ s t : State, Inv s → step s = .next t → Inv t

/-- What the steps keep holds right after reset. -/
def Obligations.ResetHoldsTheInvariants : Prop :=
  let s := State.reset
  Memory.wf s.pool.memory ∧ s.ref.wf ∧ (∀ c, (s.chains.get c).wf) ∧ (∀ c, (s.asm.get c).wf) ∧ s.stills.wf ∧
    s.scene.wf ∧ s.tally.wf ∧ s.cues.wf ∧ s.link.wf
end

