-- ==== Sys2Proof/Laws/State.lean ====
section
/-! SUPPORT. Beside State: for each named update, what it leaves of each field and what it makes of the field it changes;
reading and replacing one thing of four and one of three. -/

namespace Sys2Proof

@[simp] theorem Four.get_set_same {α : Type} (q : Four α) (c : ChainId) (x : α) : (q.set c x).get c = x := by
  fin_cases c <;> rfl

@[simp] theorem Four.get_set_ne {α : Type} (q : Four α) {c d : ChainId} (h : d ≠ c) (x : α) :
    (q.set c x).get d = q.get d := by
  revert h; fin_cases c <;> fin_cases d <;> simp [Four.get, Four.set]

@[simp] theorem Four.set_set {α : Type} (q : Four α) (c : ChainId) (x y : α) : (q.set c x).set c y = q.set c y := by
  fin_cases c <;> rfl

@[simp] theorem Four.get_all {α : Type} (x : α) (c : ChainId) : (Four.all x).get c = x := by fin_cases c <;> rfl

@[simp] theorem Four.set_get {α : Type} (q : Four α) (c : ChainId) : q.set c (q.get c) = q := by fin_cases c <;> rfl

@[simp] theorem Three.get_set_same {α : Type} (q : Three α) (r : RunnerId) (x : α) : (q.set r x).get r = x := by
  fin_cases r <;> rfl

@[simp] theorem Three.get_set_ne {α : Type} (q : Three α) {r k : RunnerId} (h : k ≠ r) (x : α) :
    (q.set r x).get k = q.get k := by
  revert h; fin_cases r <;> fin_cases k <;> simp [Three.get, Three.set]

@[simp] theorem Three.set_get {α : Type} (q : Three α) (r : RunnerId) : q.set r (q.get r) = q := by fin_cases r <;> rfl

@[simp] theorem Three.get_all {α : Type} (x : α) (r : RunnerId) : (Three.all x).get r = x := by fin_cases r <;> rfl

end Sys2Proof

namespace Sys2Proof.Machine

/-! ### What an update leaves as it was -/

@[simp] theorem State.report_pending (b : ReportBody) (s : State) : (s.report b).pending = s.pending := rfl
@[simp] theorem State.report_ref (b : ReportBody) (s : State) : (s.report b).ref = s.ref := rfl
@[simp] theorem State.report_chains (b : ReportBody) (s : State) : (s.report b).chains = s.chains := rfl
@[simp] theorem State.report_intake (b : ReportBody) (s : State) : (s.report b).intake = s.intake := rfl
@[simp] theorem State.report_pool (b : ReportBody) (s : State) : (s.report b).pool = s.pool := rfl
@[simp] theorem State.report_asm (b : ReportBody) (s : State) : (s.report b).asm = s.asm := rfl
@[simp] theorem State.report_stills (b : ReportBody) (s : State) : (s.report b).stills = s.stills := rfl
@[simp] theorem State.report_scene (b : ReportBody) (s : State) : (s.report b).scene = s.scene := rfl
@[simp] theorem State.report_tally (b : ReportBody) (s : State) : (s.report b).tally = s.tally := rfl
@[simp] theorem State.report_cues (b : ReportBody) (s : State) : (s.report b).cues = s.cues := rfl
@[simp] theorem State.report_mail (b : ReportBody) (s : State) : (s.report b).mail = s.mail := rfl

@[simp] theorem State.raise_pending (f : PartFault) (src : FaultSource) (node : Option NodeRef) (s : State) : (s.raise f src node).pending = s.pending := rfl
@[simp] theorem State.raise_ref (f : PartFault) (src : FaultSource) (node : Option NodeRef) (s : State) : (s.raise f src node).ref = s.ref := rfl
@[simp] theorem State.raise_chains (f : PartFault) (src : FaultSource) (node : Option NodeRef) (s : State) : (s.raise f src node).chains = s.chains := rfl
@[simp] theorem State.raise_intake (f : PartFault) (src : FaultSource) (node : Option NodeRef) (s : State) : (s.raise f src node).intake = s.intake := rfl
@[simp] theorem State.raise_pool (f : PartFault) (src : FaultSource) (node : Option NodeRef) (s : State) : (s.raise f src node).pool = s.pool := rfl
@[simp] theorem State.raise_asm (f : PartFault) (src : FaultSource) (node : Option NodeRef) (s : State) : (s.raise f src node).asm = s.asm := rfl
@[simp] theorem State.raise_stills (f : PartFault) (src : FaultSource) (node : Option NodeRef) (s : State) : (s.raise f src node).stills = s.stills := rfl
@[simp] theorem State.raise_scene (f : PartFault) (src : FaultSource) (node : Option NodeRef) (s : State) : (s.raise f src node).scene = s.scene := rfl
@[simp] theorem State.raise_tally (f : PartFault) (src : FaultSource) (node : Option NodeRef) (s : State) : (s.raise f src node).tally = s.tally := rfl
@[simp] theorem State.raise_cues (f : PartFault) (src : FaultSource) (node : Option NodeRef) (s : State) : (s.raise f src node).cues = s.cues := rfl
@[simp] theorem State.raise_mail (f : PartFault) (src : FaultSource) (node : Option NodeRef) (s : State) : (s.raise f src node).mail = s.mail := rfl

@[simp] theorem State.answer_pending (q : Request) (k : ReplyCode) (b : ReplyBody) (s : State) : (s.answer q k b).pending = s.pending := rfl
@[simp] theorem State.answer_ref (q : Request) (k : ReplyCode) (b : ReplyBody) (s : State) : (s.answer q k b).ref = s.ref := rfl
@[simp] theorem State.answer_chains (q : Request) (k : ReplyCode) (b : ReplyBody) (s : State) : (s.answer q k b).chains = s.chains := rfl
@[simp] theorem State.answer_intake (q : Request) (k : ReplyCode) (b : ReplyBody) (s : State) : (s.answer q k b).intake = s.intake := rfl
@[simp] theorem State.answer_pool (q : Request) (k : ReplyCode) (b : ReplyBody) (s : State) : (s.answer q k b).pool = s.pool := rfl
@[simp] theorem State.answer_asm (q : Request) (k : ReplyCode) (b : ReplyBody) (s : State) : (s.answer q k b).asm = s.asm := rfl
@[simp] theorem State.answer_stills (q : Request) (k : ReplyCode) (b : ReplyBody) (s : State) : (s.answer q k b).stills = s.stills := rfl
@[simp] theorem State.answer_scene (q : Request) (k : ReplyCode) (b : ReplyBody) (s : State) : (s.answer q k b).scene = s.scene := rfl
@[simp] theorem State.answer_tally (q : Request) (k : ReplyCode) (b : ReplyBody) (s : State) : (s.answer q k b).tally = s.tally := rfl
@[simp] theorem State.answer_cues (q : Request) (k : ReplyCode) (b : ReplyBody) (s : State) : (s.answer q k b).cues = s.cues := rfl
@[simp] theorem State.answer_mail (q : Request) (k : ReplyCode) (b : ReplyBody) (s : State) : (s.answer q k b).mail = s.mail := rfl

@[simp] theorem State.setRef_pending (r : RefUnit) (s : State) : (s.setRef r).pending = s.pending := rfl
@[simp] theorem State.setRef_chains (r : RefUnit) (s : State) : (s.setRef r).chains = s.chains := rfl
@[simp] theorem State.setRef_intake (r : RefUnit) (s : State) : (s.setRef r).intake = s.intake := rfl
@[simp] theorem State.setRef_pool (r : RefUnit) (s : State) : (s.setRef r).pool = s.pool := rfl
@[simp] theorem State.setRef_asm (r : RefUnit) (s : State) : (s.setRef r).asm = s.asm := rfl
@[simp] theorem State.setRef_stills (r : RefUnit) (s : State) : (s.setRef r).stills = s.stills := rfl
@[simp] theorem State.setRef_scene (r : RefUnit) (s : State) : (s.setRef r).scene = s.scene := rfl
@[simp] theorem State.setRef_tally (r : RefUnit) (s : State) : (s.setRef r).tally = s.tally := rfl
@[simp] theorem State.setRef_cues (r : RefUnit) (s : State) : (s.setRef r).cues = s.cues := rfl
@[simp] theorem State.setRef_link (r : RefUnit) (s : State) : (s.setRef r).link = s.link := rfl
@[simp] theorem State.setRef_mail (r : RefUnit) (s : State) : (s.setRef r).mail = s.mail := rfl

@[simp] theorem State.refReport_pending (k : RefCause) (s : State) : (s.refReport k).pending = s.pending := rfl
@[simp] theorem State.refReport_ref (k : RefCause) (s : State) : (s.refReport k).ref = s.ref := rfl
@[simp] theorem State.refReport_chains (k : RefCause) (s : State) : (s.refReport k).chains = s.chains := rfl
@[simp] theorem State.refReport_intake (k : RefCause) (s : State) : (s.refReport k).intake = s.intake := rfl
@[simp] theorem State.refReport_pool (k : RefCause) (s : State) : (s.refReport k).pool = s.pool := rfl
@[simp] theorem State.refReport_asm (k : RefCause) (s : State) : (s.refReport k).asm = s.asm := rfl
@[simp] theorem State.refReport_stills (k : RefCause) (s : State) : (s.refReport k).stills = s.stills := rfl
@[simp] theorem State.refReport_scene (k : RefCause) (s : State) : (s.refReport k).scene = s.scene := rfl
@[simp] theorem State.refReport_tally (k : RefCause) (s : State) : (s.refReport k).tally = s.tally := rfl
@[simp] theorem State.refReport_cues (k : RefCause) (s : State) : (s.refReport k).cues = s.cues := rfl
@[simp] theorem State.refReport_mail (k : RefCause) (s : State) : (s.refReport k).mail = s.mail := rfl

@[simp] theorem State.enterHoldover_pending (m : Nat) (s : State) : (s.enterHoldover m).pending = s.pending := rfl
@[simp] theorem State.enterHoldover_chains (m : Nat) (s : State) : (s.enterHoldover m).chains = s.chains := rfl
@[simp] theorem State.enterHoldover_intake (m : Nat) (s : State) : (s.enterHoldover m).intake = s.intake := rfl
@[simp] theorem State.enterHoldover_pool (m : Nat) (s : State) : (s.enterHoldover m).pool = s.pool := rfl
@[simp] theorem State.enterHoldover_asm (m : Nat) (s : State) : (s.enterHoldover m).asm = s.asm := rfl
@[simp] theorem State.enterHoldover_stills (m : Nat) (s : State) : (s.enterHoldover m).stills = s.stills := rfl
@[simp] theorem State.enterHoldover_scene (m : Nat) (s : State) : (s.enterHoldover m).scene = s.scene := rfl
@[simp] theorem State.enterHoldover_tally (m : Nat) (s : State) : (s.enterHoldover m).tally = s.tally := rfl
@[simp] theorem State.enterHoldover_cues (m : Nat) (s : State) : (s.enterHoldover m).cues = s.cues := rfl
@[simp] theorem State.enterHoldover_mail (m : Nat) (s : State) : (s.enterHoldover m).mail = s.mail := rfl

@[simp] theorem State.takeEdge_pending (x : RefInput) (m : Nat) (s : State) : (s.takeEdge x m).pending = s.pending := rfl
@[simp] theorem State.takeEdge_chains (x : RefInput) (m : Nat) (s : State) : (s.takeEdge x m).chains = s.chains := rfl
@[simp] theorem State.takeEdge_intake (x : RefInput) (m : Nat) (s : State) : (s.takeEdge x m).intake = s.intake := rfl
@[simp] theorem State.takeEdge_pool (x : RefInput) (m : Nat) (s : State) : (s.takeEdge x m).pool = s.pool := rfl
@[simp] theorem State.takeEdge_asm (x : RefInput) (m : Nat) (s : State) : (s.takeEdge x m).asm = s.asm := rfl
@[simp] theorem State.takeEdge_stills (x : RefInput) (m : Nat) (s : State) : (s.takeEdge x m).stills = s.stills := rfl
@[simp] theorem State.takeEdge_scene (x : RefInput) (m : Nat) (s : State) : (s.takeEdge x m).scene = s.scene := rfl
@[simp] theorem State.takeEdge_tally (x : RefInput) (m : Nat) (s : State) : (s.takeEdge x m).tally = s.tally := rfl
@[simp] theorem State.takeEdge_cues (x : RefInput) (m : Nat) (s : State) : (s.takeEdge x m).cues = s.cues := rfl
@[simp] theorem State.takeEdge_link (x : RefInput) (m : Nat) (s : State) : (s.takeEdge x m).link = s.link := rfl
@[simp] theorem State.takeEdge_mail (x : RefInput) (m : Nat) (s : State) : (s.takeEdge x m).mail = s.mail := rfl

@[simp] theorem State.flowReport_pending (k : FlowCause) (s : State) : (s.flowReport k).pending = s.pending := rfl
@[simp] theorem State.flowReport_ref (k : FlowCause) (s : State) : (s.flowReport k).ref = s.ref := rfl
@[simp] theorem State.flowReport_chains (k : FlowCause) (s : State) : (s.flowReport k).chains = s.chains := rfl
@[simp] theorem State.flowReport_intake (k : FlowCause) (s : State) : (s.flowReport k).intake = s.intake := rfl
@[simp] theorem State.flowReport_pool (k : FlowCause) (s : State) : (s.flowReport k).pool = s.pool := rfl
@[simp] theorem State.flowReport_asm (k : FlowCause) (s : State) : (s.flowReport k).asm = s.asm := rfl
@[simp] theorem State.flowReport_stills (k : FlowCause) (s : State) : (s.flowReport k).stills = s.stills := rfl
@[simp] theorem State.flowReport_scene (k : FlowCause) (s : State) : (s.flowReport k).scene = s.scene := rfl
@[simp] theorem State.flowReport_tally (k : FlowCause) (s : State) : (s.flowReport k).tally = s.tally := rfl
@[simp] theorem State.flowReport_cues (k : FlowCause) (s : State) : (s.flowReport k).cues = s.cues := rfl
@[simp] theorem State.flowReport_mail (k : FlowCause) (s : State) : (s.flowReport k).mail = s.mail := rfl

@[simp] theorem State.grantMemory_pending (s : State) : (s.grantMemory).pending = s.pending := rfl
@[simp] theorem State.grantMemory_ref (s : State) : (s.grantMemory).ref = s.ref := rfl
@[simp] theorem State.grantMemory_chains (s : State) : (s.grantMemory).chains = s.chains := rfl
@[simp] theorem State.grantMemory_asm (s : State) : (s.grantMemory).asm = s.asm := rfl
@[simp] theorem State.grantMemory_stills (s : State) : (s.grantMemory).stills = s.stills := rfl
@[simp] theorem State.grantMemory_scene (s : State) : (s.grantMemory).scene = s.scene := rfl
@[simp] theorem State.grantMemory_tally (s : State) : (s.grantMemory).tally = s.tally := rfl
@[simp] theorem State.grantMemory_cues (s : State) : (s.grantMemory).cues = s.cues := rfl
@[simp] theorem State.grantMemory_link (s : State) : (s.grantMemory).link = s.link := rfl
@[simp] theorem State.grantMemory_mail (s : State) : (s.grantMemory).mail = s.mail := rfl

@[simp] theorem State.setChainTicks_pending (c : ChainId) (l : List Word16) (s : State) : (s.setChainTicks c l).pending = s.pending := rfl
@[simp] theorem State.setChainTicks_ref (c : ChainId) (l : List Word16) (s : State) : (s.setChainTicks c l).ref = s.ref := rfl
@[simp] theorem State.setChainTicks_chains (c : ChainId) (l : List Word16) (s : State) : (s.setChainTicks c l).chains = s.chains := rfl
@[simp] theorem State.setChainTicks_intake (c : ChainId) (l : List Word16) (s : State) : (s.setChainTicks c l).intake = s.intake := rfl
@[simp] theorem State.setChainTicks_pool (c : ChainId) (l : List Word16) (s : State) : (s.setChainTicks c l).pool = s.pool := rfl
@[simp] theorem State.setChainTicks_asm (c : ChainId) (l : List Word16) (s : State) : (s.setChainTicks c l).asm = s.asm := rfl
@[simp] theorem State.setChainTicks_stills (c : ChainId) (l : List Word16) (s : State) : (s.setChainTicks c l).stills = s.stills := rfl
@[simp] theorem State.setChainTicks_scene (c : ChainId) (l : List Word16) (s : State) : (s.setChainTicks c l).scene = s.scene := rfl
@[simp] theorem State.setChainTicks_tally (c : ChainId) (l : List Word16) (s : State) : (s.setChainTicks c l).tally = s.tally := rfl
@[simp] theorem State.setChainTicks_cues (c : ChainId) (l : List Word16) (s : State) : (s.setChainTicks c l).cues = s.cues := rfl
@[simp] theorem State.setChainTicks_link (c : ChainId) (l : List Word16) (s : State) : (s.setChainTicks c l).link = s.link := rfl

@[simp] theorem State.updAsm_pending (c : ChainId) (f : AsmChain → AsmChain) (s : State) : (s.updAsm c f).pending = s.pending := rfl
@[simp] theorem State.updAsm_ref (c : ChainId) (f : AsmChain → AsmChain) (s : State) : (s.updAsm c f).ref = s.ref := rfl
@[simp] theorem State.updAsm_chains (c : ChainId) (f : AsmChain → AsmChain) (s : State) : (s.updAsm c f).chains = s.chains := rfl
@[simp] theorem State.updAsm_intake (c : ChainId) (f : AsmChain → AsmChain) (s : State) : (s.updAsm c f).intake = s.intake := rfl
@[simp] theorem State.updAsm_pool (c : ChainId) (f : AsmChain → AsmChain) (s : State) : (s.updAsm c f).pool = s.pool := rfl
@[simp] theorem State.updAsm_stills (c : ChainId) (f : AsmChain → AsmChain) (s : State) : (s.updAsm c f).stills = s.stills := rfl
@[simp] theorem State.updAsm_scene (c : ChainId) (f : AsmChain → AsmChain) (s : State) : (s.updAsm c f).scene = s.scene := rfl
@[simp] theorem State.updAsm_tally (c : ChainId) (f : AsmChain → AsmChain) (s : State) : (s.updAsm c f).tally = s.tally := rfl
@[simp] theorem State.updAsm_cues (c : ChainId) (f : AsmChain → AsmChain) (s : State) : (s.updAsm c f).cues = s.cues := rfl
@[simp] theorem State.updAsm_link (c : ChainId) (f : AsmChain → AsmChain) (s : State) : (s.updAsm c f).link = s.link := rfl
@[simp] theorem State.updAsm_mail (c : ChainId) (f : AsmChain → AsmChain) (s : State) : (s.updAsm c f).mail = s.mail := rfl

@[simp] theorem State.updBundle_pending (c : ChainId) (f : Bundle → Bundle) (s : State) : (s.updBundle c f).pending = s.pending := rfl
@[simp] theorem State.updBundle_ref (c : ChainId) (f : Bundle → Bundle) (s : State) : (s.updBundle c f).ref = s.ref := rfl
@[simp] theorem State.updBundle_chains (c : ChainId) (f : Bundle → Bundle) (s : State) : (s.updBundle c f).chains = s.chains := rfl
@[simp] theorem State.updBundle_intake (c : ChainId) (f : Bundle → Bundle) (s : State) : (s.updBundle c f).intake = s.intake := rfl
@[simp] theorem State.updBundle_pool (c : ChainId) (f : Bundle → Bundle) (s : State) : (s.updBundle c f).pool = s.pool := rfl
@[simp] theorem State.updBundle_stills (c : ChainId) (f : Bundle → Bundle) (s : State) : (s.updBundle c f).stills = s.stills := rfl
@[simp] theorem State.updBundle_scene (c : ChainId) (f : Bundle → Bundle) (s : State) : (s.updBundle c f).scene = s.scene := rfl
@[simp] theorem State.updBundle_tally (c : ChainId) (f : Bundle → Bundle) (s : State) : (s.updBundle c f).tally = s.tally := rfl
@[simp] theorem State.updBundle_cues (c : ChainId) (f : Bundle → Bundle) (s : State) : (s.updBundle c f).cues = s.cues := rfl
@[simp] theorem State.updBundle_link (c : ChainId) (f : Bundle → Bundle) (s : State) : (s.updBundle c f).link = s.link := rfl
@[simp] theorem State.updBundle_mail (c : ChainId) (f : Bundle → Bundle) (s : State) : (s.updBundle c f).mail = s.mail := rfl

@[simp] theorem State.countAsm_pending (k : AsmCtr) (c : ChainId) (s : State) : (s.countAsm k c).pending = s.pending := rfl
@[simp] theorem State.countAsm_ref (k : AsmCtr) (c : ChainId) (s : State) : (s.countAsm k c).ref = s.ref := rfl
@[simp] theorem State.countAsm_chains (k : AsmCtr) (c : ChainId) (s : State) : (s.countAsm k c).chains = s.chains := rfl
@[simp] theorem State.countAsm_intake (k : AsmCtr) (c : ChainId) (s : State) : (s.countAsm k c).intake = s.intake := rfl
@[simp] theorem State.countAsm_pool (k : AsmCtr) (c : ChainId) (s : State) : (s.countAsm k c).pool = s.pool := rfl
@[simp] theorem State.countAsm_stills (k : AsmCtr) (c : ChainId) (s : State) : (s.countAsm k c).stills = s.stills := rfl
@[simp] theorem State.countAsm_scene (k : AsmCtr) (c : ChainId) (s : State) : (s.countAsm k c).scene = s.scene := rfl
@[simp] theorem State.countAsm_tally (k : AsmCtr) (c : ChainId) (s : State) : (s.countAsm k c).tally = s.tally := rfl
@[simp] theorem State.countAsm_cues (k : AsmCtr) (c : ChainId) (s : State) : (s.countAsm k c).cues = s.cues := rfl
@[simp] theorem State.countAsm_link (k : AsmCtr) (c : ChainId) (s : State) : (s.countAsm k c).link = s.link := rfl
@[simp] theorem State.countAsm_mail (k : AsmCtr) (c : ChainId) (s : State) : (s.countAsm k c).mail = s.mail := rfl

@[simp] theorem State.toFree_pending (b : Nat) (s : State) : (s.toFree b).pending = s.pending := rfl
@[simp] theorem State.toFree_ref (b : Nat) (s : State) : (s.toFree b).ref = s.ref := rfl
@[simp] theorem State.toFree_chains (b : Nat) (s : State) : (s.toFree b).chains = s.chains := rfl
@[simp] theorem State.toFree_intake (b : Nat) (s : State) : (s.toFree b).intake = s.intake := rfl
@[simp] theorem State.toFree_asm (b : Nat) (s : State) : (s.toFree b).asm = s.asm := rfl
@[simp] theorem State.toFree_stills (b : Nat) (s : State) : (s.toFree b).stills = s.stills := rfl
@[simp] theorem State.toFree_scene (b : Nat) (s : State) : (s.toFree b).scene = s.scene := rfl
@[simp] theorem State.toFree_tally (b : Nat) (s : State) : (s.toFree b).tally = s.tally := rfl
@[simp] theorem State.toFree_cues (b : Nat) (s : State) : (s.toFree b).cues = s.cues := rfl
@[simp] theorem State.toFree_link (b : Nat) (s : State) : (s.toFree b).link = s.link := rfl
@[simp] theorem State.toFree_mail (b : Nat) (s : State) : (s.toFree b).mail = s.mail := rfl

@[simp] theorem State.giveUp_pending (k : AsmCtr) (c : ChainId) (b : Nat) (s : State) : (s.giveUp k c b).pending = s.pending := rfl
@[simp] theorem State.giveUp_ref (k : AsmCtr) (c : ChainId) (b : Nat) (s : State) : (s.giveUp k c b).ref = s.ref := rfl
@[simp] theorem State.giveUp_chains (k : AsmCtr) (c : ChainId) (b : Nat) (s : State) : (s.giveUp k c b).chains = s.chains := rfl
@[simp] theorem State.giveUp_intake (k : AsmCtr) (c : ChainId) (b : Nat) (s : State) : (s.giveUp k c b).intake = s.intake := rfl
@[simp] theorem State.giveUp_stills (k : AsmCtr) (c : ChainId) (b : Nat) (s : State) : (s.giveUp k c b).stills = s.stills := rfl
@[simp] theorem State.giveUp_scene (k : AsmCtr) (c : ChainId) (b : Nat) (s : State) : (s.giveUp k c b).scene = s.scene := rfl
@[simp] theorem State.giveUp_tally (k : AsmCtr) (c : ChainId) (b : Nat) (s : State) : (s.giveUp k c b).tally = s.tally := rfl
@[simp] theorem State.giveUp_cues (k : AsmCtr) (c : ChainId) (b : Nat) (s : State) : (s.giveUp k c b).cues = s.cues := rfl
@[simp] theorem State.giveUp_link (k : AsmCtr) (c : ChainId) (b : Nat) (s : State) : (s.giveUp k c b).link = s.link := rfl
@[simp] theorem State.giveUp_mail (k : AsmCtr) (c : ChainId) (b : Nat) (s : State) : (s.giveUp k c b).mail = s.mail := rfl

@[simp] theorem State.updTile_pending (c : ChainId) (a : Nat) (f : TileSettings → TileSettings) (s : State) : (s.updTile c a f).pending = s.pending := rfl
@[simp] theorem State.updTile_ref (c : ChainId) (a : Nat) (f : TileSettings → TileSettings) (s : State) : (s.updTile c a f).ref = s.ref := rfl
@[simp] theorem State.updTile_intake (c : ChainId) (a : Nat) (f : TileSettings → TileSettings) (s : State) : (s.updTile c a f).intake = s.intake := rfl
@[simp] theorem State.updTile_pool (c : ChainId) (a : Nat) (f : TileSettings → TileSettings) (s : State) : (s.updTile c a f).pool = s.pool := rfl
@[simp] theorem State.updTile_asm (c : ChainId) (a : Nat) (f : TileSettings → TileSettings) (s : State) : (s.updTile c a f).asm = s.asm := rfl
@[simp] theorem State.updTile_stills (c : ChainId) (a : Nat) (f : TileSettings → TileSettings) (s : State) : (s.updTile c a f).stills = s.stills := rfl
@[simp] theorem State.updTile_scene (c : ChainId) (a : Nat) (f : TileSettings → TileSettings) (s : State) : (s.updTile c a f).scene = s.scene := rfl
@[simp] theorem State.updTile_tally (c : ChainId) (a : Nat) (f : TileSettings → TileSettings) (s : State) : (s.updTile c a f).tally = s.tally := rfl
@[simp] theorem State.updTile_cues (c : ChainId) (a : Nat) (f : TileSettings → TileSettings) (s : State) : (s.updTile c a f).cues = s.cues := rfl
@[simp] theorem State.updTile_link (c : ChainId) (a : Nat) (f : TileSettings → TileSettings) (s : State) : (s.updTile c a f).link = s.link := rfl
@[simp] theorem State.updTile_mail (c : ChainId) (a : Nat) (f : TileSettings → TileSettings) (s : State) : (s.updTile c a f).mail = s.mail := rfl

@[simp] theorem State.countLate_pending (c : ChainId) (a : Nat) (s : State) : (s.countLate c a).pending = s.pending := rfl
@[simp] theorem State.countLate_ref (c : ChainId) (a : Nat) (s : State) : (s.countLate c a).ref = s.ref := rfl
@[simp] theorem State.countLate_intake (c : ChainId) (a : Nat) (s : State) : (s.countLate c a).intake = s.intake := rfl
@[simp] theorem State.countLate_pool (c : ChainId) (a : Nat) (s : State) : (s.countLate c a).pool = s.pool := rfl
@[simp] theorem State.countLate_asm (c : ChainId) (a : Nat) (s : State) : (s.countLate c a).asm = s.asm := rfl
@[simp] theorem State.countLate_stills (c : ChainId) (a : Nat) (s : State) : (s.countLate c a).stills = s.stills := rfl
@[simp] theorem State.countLate_scene (c : ChainId) (a : Nat) (s : State) : (s.countLate c a).scene = s.scene := rfl
@[simp] theorem State.countLate_tally (c : ChainId) (a : Nat) (s : State) : (s.countLate c a).tally = s.tally := rfl
@[simp] theorem State.countLate_cues (c : ChainId) (a : Nat) (s : State) : (s.countLate c a).cues = s.cues := rfl
@[simp] theorem State.countLate_link (c : ChainId) (a : Nat) (s : State) : (s.countLate c a).link = s.link := rfl
@[simp] theorem State.countLate_mail (c : ChainId) (a : Nat) (s : State) : (s.countLate c a).mail = s.mail := rfl

@[simp] theorem State.putOut_pending (c : ChainId) (x : Block) (s : State) : (s.putOut c x).pending = s.pending := rfl
@[simp] theorem State.putOut_ref (c : ChainId) (x : Block) (s : State) : (s.putOut c x).ref = s.ref := rfl
@[simp] theorem State.putOut_chains (c : ChainId) (x : Block) (s : State) : (s.putOut c x).chains = s.chains := rfl
@[simp] theorem State.putOut_intake (c : ChainId) (x : Block) (s : State) : (s.putOut c x).intake = s.intake := rfl
@[simp] theorem State.putOut_pool (c : ChainId) (x : Block) (s : State) : (s.putOut c x).pool = s.pool := rfl
@[simp] theorem State.putOut_stills (c : ChainId) (x : Block) (s : State) : (s.putOut c x).stills = s.stills := rfl
@[simp] theorem State.putOut_scene (c : ChainId) (x : Block) (s : State) : (s.putOut c x).scene = s.scene := rfl
@[simp] theorem State.putOut_tally (c : ChainId) (x : Block) (s : State) : (s.putOut c x).tally = s.tally := rfl
@[simp] theorem State.putOut_cues (c : ChainId) (x : Block) (s : State) : (s.putOut c x).cues = s.cues := rfl
@[simp] theorem State.putOut_link (c : ChainId) (x : Block) (s : State) : (s.putOut c x).link = s.link := rfl
@[simp] theorem State.putOut_mail (c : ChainId) (x : Block) (s : State) : (s.putOut c x).mail = s.mail := rfl

@[simp] theorem State.setOrders_pending (c : ChainId) (l : List AsmMsg) (s : State) : (s.setOrders c l).pending = s.pending := rfl
@[simp] theorem State.setOrders_ref (c : ChainId) (l : List AsmMsg) (s : State) : (s.setOrders c l).ref = s.ref := rfl
@[simp] theorem State.setOrders_chains (c : ChainId) (l : List AsmMsg) (s : State) : (s.setOrders c l).chains = s.chains := rfl
@[simp] theorem State.setOrders_intake (c : ChainId) (l : List AsmMsg) (s : State) : (s.setOrders c l).intake = s.intake := rfl
@[simp] theorem State.setOrders_pool (c : ChainId) (l : List AsmMsg) (s : State) : (s.setOrders c l).pool = s.pool := rfl
@[simp] theorem State.setOrders_asm (c : ChainId) (l : List AsmMsg) (s : State) : (s.setOrders c l).asm = s.asm := rfl
@[simp] theorem State.setOrders_stills (c : ChainId) (l : List AsmMsg) (s : State) : (s.setOrders c l).stills = s.stills := rfl
@[simp] theorem State.setOrders_scene (c : ChainId) (l : List AsmMsg) (s : State) : (s.setOrders c l).scene = s.scene := rfl
@[simp] theorem State.setOrders_tally (c : ChainId) (l : List AsmMsg) (s : State) : (s.setOrders c l).tally = s.tally := rfl
@[simp] theorem State.setOrders_cues (c : ChainId) (l : List AsmMsg) (s : State) : (s.setOrders c l).cues = s.cues := rfl
@[simp] theorem State.setOrders_link (c : ChainId) (l : List AsmMsg) (s : State) : (s.setOrders c l).link = s.link := rfl

@[simp] theorem State.setStaging_pending (e : EntryId) (x : Entry) (s : State) : (s.setStaging e x).pending = s.pending := rfl
@[simp] theorem State.setStaging_ref (e : EntryId) (x : Entry) (s : State) : (s.setStaging e x).ref = s.ref := rfl
@[simp] theorem State.setStaging_chains (e : EntryId) (x : Entry) (s : State) : (s.setStaging e x).chains = s.chains := rfl
@[simp] theorem State.setStaging_pool (e : EntryId) (x : Entry) (s : State) : (s.setStaging e x).pool = s.pool := rfl
@[simp] theorem State.setStaging_asm (e : EntryId) (x : Entry) (s : State) : (s.setStaging e x).asm = s.asm := rfl
@[simp] theorem State.setStaging_stills (e : EntryId) (x : Entry) (s : State) : (s.setStaging e x).stills = s.stills := rfl
@[simp] theorem State.setStaging_scene (e : EntryId) (x : Entry) (s : State) : (s.setStaging e x).scene = s.scene := rfl
@[simp] theorem State.setStaging_tally (e : EntryId) (x : Entry) (s : State) : (s.setStaging e x).tally = s.tally := rfl
@[simp] theorem State.setStaging_cues (e : EntryId) (x : Entry) (s : State) : (s.setStaging e x).cues = s.cues := rfl
@[simp] theorem State.setStaging_link (e : EntryId) (x : Entry) (s : State) : (s.setStaging e x).link = s.link := rfl
@[simp] theorem State.setStaging_mail (e : EntryId) (x : Entry) (s : State) : (s.setStaging e x).mail = s.mail := rfl

@[simp] theorem State.countSeg_pending (k : IntakeCtr) (s : State) : (s.countSeg k).pending = s.pending := rfl
@[simp] theorem State.countSeg_ref (k : IntakeCtr) (s : State) : (s.countSeg k).ref = s.ref := rfl
@[simp] theorem State.countSeg_chains (k : IntakeCtr) (s : State) : (s.countSeg k).chains = s.chains := rfl
@[simp] theorem State.countSeg_pool (k : IntakeCtr) (s : State) : (s.countSeg k).pool = s.pool := rfl
@[simp] theorem State.countSeg_asm (k : IntakeCtr) (s : State) : (s.countSeg k).asm = s.asm := rfl
@[simp] theorem State.countSeg_stills (k : IntakeCtr) (s : State) : (s.countSeg k).stills = s.stills := rfl
@[simp] theorem State.countSeg_scene (k : IntakeCtr) (s : State) : (s.countSeg k).scene = s.scene := rfl
@[simp] theorem State.countSeg_tally (k : IntakeCtr) (s : State) : (s.countSeg k).tally = s.tally := rfl
@[simp] theorem State.countSeg_cues (k : IntakeCtr) (s : State) : (s.countSeg k).cues = s.cues := rfl
@[simp] theorem State.countSeg_link (k : IntakeCtr) (s : State) : (s.countSeg k).link = s.link := rfl
@[simp] theorem State.countSeg_mail (k : IntakeCtr) (s : State) : (s.countSeg k).mail = s.mail := rfl

@[simp] theorem State.discard_pending (e : EntryId) (k : IntakeCtr) (s : State) : (s.discard e k).pending = s.pending := rfl
@[simp] theorem State.discard_ref (e : EntryId) (k : IntakeCtr) (s : State) : (s.discard e k).ref = s.ref := rfl
@[simp] theorem State.discard_chains (e : EntryId) (k : IntakeCtr) (s : State) : (s.discard e k).chains = s.chains := rfl
@[simp] theorem State.discard_pool (e : EntryId) (k : IntakeCtr) (s : State) : (s.discard e k).pool = s.pool := rfl
@[simp] theorem State.discard_asm (e : EntryId) (k : IntakeCtr) (s : State) : (s.discard e k).asm = s.asm := rfl
@[simp] theorem State.discard_stills (e : EntryId) (k : IntakeCtr) (s : State) : (s.discard e k).stills = s.stills := rfl
@[simp] theorem State.discard_scene (e : EntryId) (k : IntakeCtr) (s : State) : (s.discard e k).scene = s.scene := rfl
@[simp] theorem State.discard_tally (e : EntryId) (k : IntakeCtr) (s : State) : (s.discard e k).tally = s.tally := rfl
@[simp] theorem State.discard_cues (e : EntryId) (k : IntakeCtr) (s : State) : (s.discard e k).cues = s.cues := rfl
@[simp] theorem State.discard_link (e : EntryId) (k : IntakeCtr) (s : State) : (s.discard e k).link = s.link := rfl
@[simp] theorem State.discard_mail (e : EntryId) (k : IntakeCtr) (s : State) : (s.discard e k).mail = s.mail := rfl

@[simp] theorem State.setIntakeTicks_pending (l : List Word16) (s : State) : (s.setIntakeTicks l).pending = s.pending := rfl
@[simp] theorem State.setIntakeTicks_ref (l : List Word16) (s : State) : (s.setIntakeTicks l).ref = s.ref := rfl
@[simp] theorem State.setIntakeTicks_chains (l : List Word16) (s : State) : (s.setIntakeTicks l).chains = s.chains := rfl
@[simp] theorem State.setIntakeTicks_intake (l : List Word16) (s : State) : (s.setIntakeTicks l).intake = s.intake := rfl
@[simp] theorem State.setIntakeTicks_pool (l : List Word16) (s : State) : (s.setIntakeTicks l).pool = s.pool := rfl
@[simp] theorem State.setIntakeTicks_asm (l : List Word16) (s : State) : (s.setIntakeTicks l).asm = s.asm := rfl
@[simp] theorem State.setIntakeTicks_stills (l : List Word16) (s : State) : (s.setIntakeTicks l).stills = s.stills := rfl
@[simp] theorem State.setIntakeTicks_scene (l : List Word16) (s : State) : (s.setIntakeTicks l).scene = s.scene := rfl
@[simp] theorem State.setIntakeTicks_tally (l : List Word16) (s : State) : (s.setIntakeTicks l).tally = s.tally := rfl
@[simp] theorem State.setIntakeTicks_cues (l : List Word16) (s : State) : (s.setIntakeTicks l).cues = s.cues := rfl
@[simp] theorem State.setIntakeTicks_link (l : List Word16) (s : State) : (s.setIntakeTicks l).link = s.link := rfl

@[simp] theorem State.dropStored_pending (k : IntakeCtr) (b : Nat) (s : State) : (s.dropStored k b).pending = s.pending := rfl
@[simp] theorem State.dropStored_ref (k : IntakeCtr) (b : Nat) (s : State) : (s.dropStored k b).ref = s.ref := rfl
@[simp] theorem State.dropStored_chains (k : IntakeCtr) (b : Nat) (s : State) : (s.dropStored k b).chains = s.chains := rfl
@[simp] theorem State.dropStored_asm (k : IntakeCtr) (b : Nat) (s : State) : (s.dropStored k b).asm = s.asm := rfl
@[simp] theorem State.dropStored_stills (k : IntakeCtr) (b : Nat) (s : State) : (s.dropStored k b).stills = s.stills := rfl
@[simp] theorem State.dropStored_scene (k : IntakeCtr) (b : Nat) (s : State) : (s.dropStored k b).scene = s.scene := rfl
@[simp] theorem State.dropStored_tally (k : IntakeCtr) (b : Nat) (s : State) : (s.dropStored k b).tally = s.tally := rfl
@[simp] theorem State.dropStored_cues (k : IntakeCtr) (b : Nat) (s : State) : (s.dropStored k b).cues = s.cues := rfl
@[simp] theorem State.dropStored_link (k : IntakeCtr) (b : Nat) (s : State) : (s.dropStored k b).link = s.link := rfl
@[simp] theorem State.dropStored_mail (k : IntakeCtr) (b : Nat) (s : State) : (s.dropStored k b).mail = s.mail := rfl

@[simp] theorem State.setStill_pending (r : StillRef) (x : StillSlot) (s : State) : (s.setStill r x).pending = s.pending := rfl
@[simp] theorem State.setStill_ref (r : StillRef) (x : StillSlot) (s : State) : (s.setStill r x).ref = s.ref := rfl
@[simp] theorem State.setStill_chains (r : StillRef) (x : StillSlot) (s : State) : (s.setStill r x).chains = s.chains := rfl
@[simp] theorem State.setStill_intake (r : StillRef) (x : StillSlot) (s : State) : (s.setStill r x).intake = s.intake := rfl
@[simp] theorem State.setStill_pool (r : StillRef) (x : StillSlot) (s : State) : (s.setStill r x).pool = s.pool := rfl
@[simp] theorem State.setStill_asm (r : StillRef) (x : StillSlot) (s : State) : (s.setStill r x).asm = s.asm := rfl
@[simp] theorem State.setStill_scene (r : StillRef) (x : StillSlot) (s : State) : (s.setStill r x).scene = s.scene := rfl
@[simp] theorem State.setStill_tally (r : StillRef) (x : StillSlot) (s : State) : (s.setStill r x).tally = s.tally := rfl
@[simp] theorem State.setStill_cues (r : StillRef) (x : StillSlot) (s : State) : (s.setStill r x).cues = s.cues := rfl
@[simp] theorem State.setStill_link (r : StillRef) (x : StillSlot) (s : State) : (s.setStill r x).link = s.link := rfl
@[simp] theorem State.setStill_mail (r : StillRef) (x : StillSlot) (s : State) : (s.setStill r x).mail = s.mail := rfl

@[simp] theorem State.stillReply_pending (q : Request) (k : ReplyCode) (r : Option StillRef) (s : State) : (s.stillReply q k r).pending = s.pending := rfl
@[simp] theorem State.stillReply_ref (q : Request) (k : ReplyCode) (r : Option StillRef) (s : State) : (s.stillReply q k r).ref = s.ref := rfl
@[simp] theorem State.stillReply_chains (q : Request) (k : ReplyCode) (r : Option StillRef) (s : State) : (s.stillReply q k r).chains = s.chains := rfl
@[simp] theorem State.stillReply_intake (q : Request) (k : ReplyCode) (r : Option StillRef) (s : State) : (s.stillReply q k r).intake = s.intake := rfl
@[simp] theorem State.stillReply_pool (q : Request) (k : ReplyCode) (r : Option StillRef) (s : State) : (s.stillReply q k r).pool = s.pool := rfl
@[simp] theorem State.stillReply_asm (q : Request) (k : ReplyCode) (r : Option StillRef) (s : State) : (s.stillReply q k r).asm = s.asm := rfl
@[simp] theorem State.stillReply_stills (q : Request) (k : ReplyCode) (r : Option StillRef) (s : State) : (s.stillReply q k r).stills = s.stills := rfl
@[simp] theorem State.stillReply_scene (q : Request) (k : ReplyCode) (r : Option StillRef) (s : State) : (s.stillReply q k r).scene = s.scene := rfl
@[simp] theorem State.stillReply_tally (q : Request) (k : ReplyCode) (r : Option StillRef) (s : State) : (s.stillReply q k r).tally = s.tally := rfl
@[simp] theorem State.stillReply_cues (q : Request) (k : ReplyCode) (r : Option StillRef) (s : State) : (s.stillReply q k r).cues = s.cues := rfl
@[simp] theorem State.stillReply_mail (q : Request) (k : ReplyCode) (r : Option StillRef) (s : State) : (s.stillReply q k r).mail = s.mail := rfl

@[simp] theorem State.setSceneMail_pending (l : List SceneMsg) (s : State) : (s.setSceneMail l).pending = s.pending := rfl
@[simp] theorem State.setSceneMail_ref (l : List SceneMsg) (s : State) : (s.setSceneMail l).ref = s.ref := rfl
@[simp] theorem State.setSceneMail_chains (l : List SceneMsg) (s : State) : (s.setSceneMail l).chains = s.chains := rfl
@[simp] theorem State.setSceneMail_intake (l : List SceneMsg) (s : State) : (s.setSceneMail l).intake = s.intake := rfl
@[simp] theorem State.setSceneMail_pool (l : List SceneMsg) (s : State) : (s.setSceneMail l).pool = s.pool := rfl
@[simp] theorem State.setSceneMail_asm (l : List SceneMsg) (s : State) : (s.setSceneMail l).asm = s.asm := rfl
@[simp] theorem State.setSceneMail_stills (l : List SceneMsg) (s : State) : (s.setSceneMail l).stills = s.stills := rfl
@[simp] theorem State.setSceneMail_scene (l : List SceneMsg) (s : State) : (s.setSceneMail l).scene = s.scene := rfl
@[simp] theorem State.setSceneMail_tally (l : List SceneMsg) (s : State) : (s.setSceneMail l).tally = s.tally := rfl
@[simp] theorem State.setSceneMail_cues (l : List SceneMsg) (s : State) : (s.setSceneMail l).cues = s.cues := rfl
@[simp] theorem State.setSceneMail_link (l : List SceneMsg) (s : State) : (s.setSceneMail l).link = s.link := rfl

@[simp] theorem State.setSceneTicks_pending (l : List Word16) (s : State) : (s.setSceneTicks l).pending = s.pending := rfl
@[simp] theorem State.setSceneTicks_ref (l : List Word16) (s : State) : (s.setSceneTicks l).ref = s.ref := rfl
@[simp] theorem State.setSceneTicks_chains (l : List Word16) (s : State) : (s.setSceneTicks l).chains = s.chains := rfl
@[simp] theorem State.setSceneTicks_intake (l : List Word16) (s : State) : (s.setSceneTicks l).intake = s.intake := rfl
@[simp] theorem State.setSceneTicks_pool (l : List Word16) (s : State) : (s.setSceneTicks l).pool = s.pool := rfl
@[simp] theorem State.setSceneTicks_asm (l : List Word16) (s : State) : (s.setSceneTicks l).asm = s.asm := rfl
@[simp] theorem State.setSceneTicks_stills (l : List Word16) (s : State) : (s.setSceneTicks l).stills = s.stills := rfl
@[simp] theorem State.setSceneTicks_scene (l : List Word16) (s : State) : (s.setSceneTicks l).scene = s.scene := rfl
@[simp] theorem State.setSceneTicks_tally (l : List Word16) (s : State) : (s.setSceneTicks l).tally = s.tally := rfl
@[simp] theorem State.setSceneTicks_cues (l : List Word16) (s : State) : (s.setSceneTicks l).cues = s.cues := rfl
@[simp] theorem State.setSceneTicks_link (l : List Word16) (s : State) : (s.setSceneTicks l).link = s.link := rfl

@[simp] theorem State.write_pending (sel : Selector) (v : LookValue) (fade : Option Nat) (w : Writer) (s : State) : (s.write sel v fade w).pending = s.pending := rfl
@[simp] theorem State.write_ref (sel : Selector) (v : LookValue) (fade : Option Nat) (w : Writer) (s : State) : (s.write sel v fade w).ref = s.ref := rfl
@[simp] theorem State.write_chains (sel : Selector) (v : LookValue) (fade : Option Nat) (w : Writer) (s : State) : (s.write sel v fade w).chains = s.chains := rfl
@[simp] theorem State.write_intake (sel : Selector) (v : LookValue) (fade : Option Nat) (w : Writer) (s : State) : (s.write sel v fade w).intake = s.intake := rfl
@[simp] theorem State.write_pool (sel : Selector) (v : LookValue) (fade : Option Nat) (w : Writer) (s : State) : (s.write sel v fade w).pool = s.pool := rfl
@[simp] theorem State.write_asm (sel : Selector) (v : LookValue) (fade : Option Nat) (w : Writer) (s : State) : (s.write sel v fade w).asm = s.asm := rfl
@[simp] theorem State.write_stills (sel : Selector) (v : LookValue) (fade : Option Nat) (w : Writer) (s : State) : (s.write sel v fade w).stills = s.stills := rfl
@[simp] theorem State.write_tally (sel : Selector) (v : LookValue) (fade : Option Nat) (w : Writer) (s : State) : (s.write sel v fade w).tally = s.tally := rfl
@[simp] theorem State.write_cues (sel : Selector) (v : LookValue) (fade : Option Nat) (w : Writer) (s : State) : (s.write sel v fade w).cues = s.cues := rfl
@[simp] theorem State.write_link (sel : Selector) (v : LookValue) (fade : Option Nat) (w : Writer) (s : State) : (s.write sel v fade w).link = s.link := rfl
@[simp] theorem State.write_mail (sel : Selector) (v : LookValue) (fade : Option Nat) (w : Writer) (s : State) : (s.write sel v fade w).mail = s.mail := rfl

@[simp] theorem State.post_pending (c : ChainId) (s : State) : (s.post c).pending = s.pending := rfl
@[simp] theorem State.post_ref (c : ChainId) (s : State) : (s.post c).ref = s.ref := rfl
@[simp] theorem State.post_intake (c : ChainId) (s : State) : (s.post c).intake = s.intake := rfl
@[simp] theorem State.post_pool (c : ChainId) (s : State) : (s.post c).pool = s.pool := rfl
@[simp] theorem State.post_stills (c : ChainId) (s : State) : (s.post c).stills = s.stills := rfl
@[simp] theorem State.post_tally (c : ChainId) (s : State) : (s.post c).tally = s.tally := rfl
@[simp] theorem State.post_cues (c : ChainId) (s : State) : (s.post c).cues = s.cues := rfl
@[simp] theorem State.post_link (c : ChainId) (s : State) : (s.post c).link = s.link := rfl
@[simp] theorem State.post_mail (c : ChainId) (s : State) : (s.post c).mail = s.mail := rfl

@[simp] theorem State.takeBatch_pending (b : List TallyClaim) (s : State) : (s.takeBatch b).pending = s.pending := rfl
@[simp] theorem State.takeBatch_ref (b : List TallyClaim) (s : State) : (s.takeBatch b).ref = s.ref := rfl
@[simp] theorem State.takeBatch_chains (b : List TallyClaim) (s : State) : (s.takeBatch b).chains = s.chains := rfl
@[simp] theorem State.takeBatch_intake (b : List TallyClaim) (s : State) : (s.takeBatch b).intake = s.intake := rfl
@[simp] theorem State.takeBatch_pool (b : List TallyClaim) (s : State) : (s.takeBatch b).pool = s.pool := rfl
@[simp] theorem State.takeBatch_asm (b : List TallyClaim) (s : State) : (s.takeBatch b).asm = s.asm := rfl
@[simp] theorem State.takeBatch_stills (b : List TallyClaim) (s : State) : (s.takeBatch b).stills = s.stills := rfl
@[simp] theorem State.takeBatch_tally (b : List TallyClaim) (s : State) : (s.takeBatch b).tally = s.tally := rfl
@[simp] theorem State.takeBatch_cues (b : List TallyClaim) (s : State) : (s.takeBatch b).cues = s.cues := rfl
@[simp] theorem State.takeBatch_link (b : List TallyClaim) (s : State) : (s.takeBatch b).link = s.link := rfl
@[simp] theorem State.takeBatch_mail (b : List TallyClaim) (s : State) : (s.takeBatch b).mail = s.mail := rfl

@[simp] theorem State.updRunner_pending (r : RunnerId) (f : Runner → Runner) (s : State) : (s.updRunner r f).pending = s.pending := rfl
@[simp] theorem State.updRunner_ref (r : RunnerId) (f : Runner → Runner) (s : State) : (s.updRunner r f).ref = s.ref := rfl
@[simp] theorem State.updRunner_chains (r : RunnerId) (f : Runner → Runner) (s : State) : (s.updRunner r f).chains = s.chains := rfl
@[simp] theorem State.updRunner_intake (r : RunnerId) (f : Runner → Runner) (s : State) : (s.updRunner r f).intake = s.intake := rfl
@[simp] theorem State.updRunner_pool (r : RunnerId) (f : Runner → Runner) (s : State) : (s.updRunner r f).pool = s.pool := rfl
@[simp] theorem State.updRunner_asm (r : RunnerId) (f : Runner → Runner) (s : State) : (s.updRunner r f).asm = s.asm := rfl
@[simp] theorem State.updRunner_stills (r : RunnerId) (f : Runner → Runner) (s : State) : (s.updRunner r f).stills = s.stills := rfl
@[simp] theorem State.updRunner_scene (r : RunnerId) (f : Runner → Runner) (s : State) : (s.updRunner r f).scene = s.scene := rfl
@[simp] theorem State.updRunner_tally (r : RunnerId) (f : Runner → Runner) (s : State) : (s.updRunner r f).tally = s.tally := rfl
@[simp] theorem State.updRunner_link (r : RunnerId) (f : Runner → Runner) (s : State) : (s.updRunner r f).link = s.link := rfl
@[simp] theorem State.updRunner_mail (r : RunnerId) (f : Runner → Runner) (s : State) : (s.updRunner r f).mail = s.mail := rfl

@[simp] theorem State.setRun_pending (r : RunnerId) (x : RunState) (s : State) : (s.setRun r x).pending = s.pending := rfl
@[simp] theorem State.setRun_ref (r : RunnerId) (x : RunState) (s : State) : (s.setRun r x).ref = s.ref := rfl
@[simp] theorem State.setRun_chains (r : RunnerId) (x : RunState) (s : State) : (s.setRun r x).chains = s.chains := rfl
@[simp] theorem State.setRun_intake (r : RunnerId) (x : RunState) (s : State) : (s.setRun r x).intake = s.intake := rfl
@[simp] theorem State.setRun_pool (r : RunnerId) (x : RunState) (s : State) : (s.setRun r x).pool = s.pool := rfl
@[simp] theorem State.setRun_asm (r : RunnerId) (x : RunState) (s : State) : (s.setRun r x).asm = s.asm := rfl
@[simp] theorem State.setRun_stills (r : RunnerId) (x : RunState) (s : State) : (s.setRun r x).stills = s.stills := rfl
@[simp] theorem State.setRun_scene (r : RunnerId) (x : RunState) (s : State) : (s.setRun r x).scene = s.scene := rfl
@[simp] theorem State.setRun_tally (r : RunnerId) (x : RunState) (s : State) : (s.setRun r x).tally = s.tally := rfl
@[simp] theorem State.setRun_link (r : RunnerId) (x : RunState) (s : State) : (s.setRun r x).link = s.link := rfl
@[simp] theorem State.setRun_mail (r : RunnerId) (x : RunState) (s : State) : (s.setRun r x).mail = s.mail := rfl

@[simp] theorem State.updSteps_pending (k : Nat) (f : List SlotStep → List SlotStep) (s : State) : (s.updSteps k f).pending = s.pending := rfl
@[simp] theorem State.updSteps_ref (k : Nat) (f : List SlotStep → List SlotStep) (s : State) : (s.updSteps k f).ref = s.ref := rfl
@[simp] theorem State.updSteps_chains (k : Nat) (f : List SlotStep → List SlotStep) (s : State) : (s.updSteps k f).chains = s.chains := rfl
@[simp] theorem State.updSteps_intake (k : Nat) (f : List SlotStep → List SlotStep) (s : State) : (s.updSteps k f).intake = s.intake := rfl
@[simp] theorem State.updSteps_pool (k : Nat) (f : List SlotStep → List SlotStep) (s : State) : (s.updSteps k f).pool = s.pool := rfl
@[simp] theorem State.updSteps_asm (k : Nat) (f : List SlotStep → List SlotStep) (s : State) : (s.updSteps k f).asm = s.asm := rfl
@[simp] theorem State.updSteps_stills (k : Nat) (f : List SlotStep → List SlotStep) (s : State) : (s.updSteps k f).stills = s.stills := rfl
@[simp] theorem State.updSteps_scene (k : Nat) (f : List SlotStep → List SlotStep) (s : State) : (s.updSteps k f).scene = s.scene := rfl
@[simp] theorem State.updSteps_tally (k : Nat) (f : List SlotStep → List SlotStep) (s : State) : (s.updSteps k f).tally = s.tally := rfl
@[simp] theorem State.updSteps_link (k : Nat) (f : List SlotStep → List SlotStep) (s : State) : (s.updSteps k f).link = s.link := rfl
@[simp] theorem State.updSteps_mail (k : Nat) (f : List SlotStep → List SlotStep) (s : State) : (s.updSteps k f).mail = s.mail := rfl

@[simp] theorem State.clearMarks_pending (k : Nat) (s : State) : (s.clearMarks k).pending = s.pending := rfl
@[simp] theorem State.clearMarks_ref (k : Nat) (s : State) : (s.clearMarks k).ref = s.ref := rfl
@[simp] theorem State.clearMarks_chains (k : Nat) (s : State) : (s.clearMarks k).chains = s.chains := rfl
@[simp] theorem State.clearMarks_intake (k : Nat) (s : State) : (s.clearMarks k).intake = s.intake := rfl
@[simp] theorem State.clearMarks_pool (k : Nat) (s : State) : (s.clearMarks k).pool = s.pool := rfl
@[simp] theorem State.clearMarks_asm (k : Nat) (s : State) : (s.clearMarks k).asm = s.asm := rfl
@[simp] theorem State.clearMarks_stills (k : Nat) (s : State) : (s.clearMarks k).stills = s.stills := rfl
@[simp] theorem State.clearMarks_scene (k : Nat) (s : State) : (s.clearMarks k).scene = s.scene := rfl
@[simp] theorem State.clearMarks_tally (k : Nat) (s : State) : (s.clearMarks k).tally = s.tally := rfl
@[simp] theorem State.clearMarks_link (k : Nat) (s : State) : (s.clearMarks k).link = s.link := rfl
@[simp] theorem State.clearMarks_mail (k : Nat) (s : State) : (s.clearMarks k).mail = s.mail := rfl

@[simp] theorem State.cueReport_pending (k : CueCause) (r : RunnerId) (s : State) : (s.cueReport k r).pending = s.pending := rfl
@[simp] theorem State.cueReport_ref (k : CueCause) (r : RunnerId) (s : State) : (s.cueReport k r).ref = s.ref := rfl
@[simp] theorem State.cueReport_chains (k : CueCause) (r : RunnerId) (s : State) : (s.cueReport k r).chains = s.chains := rfl
@[simp] theorem State.cueReport_intake (k : CueCause) (r : RunnerId) (s : State) : (s.cueReport k r).intake = s.intake := rfl
@[simp] theorem State.cueReport_pool (k : CueCause) (r : RunnerId) (s : State) : (s.cueReport k r).pool = s.pool := rfl
@[simp] theorem State.cueReport_asm (k : CueCause) (r : RunnerId) (s : State) : (s.cueReport k r).asm = s.asm := rfl
@[simp] theorem State.cueReport_stills (k : CueCause) (r : RunnerId) (s : State) : (s.cueReport k r).stills = s.stills := rfl
@[simp] theorem State.cueReport_scene (k : CueCause) (r : RunnerId) (s : State) : (s.cueReport k r).scene = s.scene := rfl
@[simp] theorem State.cueReport_tally (k : CueCause) (r : RunnerId) (s : State) : (s.cueReport k r).tally = s.tally := rfl
@[simp] theorem State.cueReport_cues (k : CueCause) (r : RunnerId) (s : State) : (s.cueReport k r).cues = s.cues := rfl
@[simp] theorem State.cueReport_mail (k : CueCause) (r : RunnerId) (s : State) : (s.cueReport k r).mail = s.mail := rfl

@[simp] theorem State.handWrite_pending (sel : Selector) (v : LookValue) (fade : Option Nat) (r : RunnerId) (s : State) : (s.handWrite sel v fade r).pending = s.pending := rfl
@[simp] theorem State.handWrite_ref (sel : Selector) (v : LookValue) (fade : Option Nat) (r : RunnerId) (s : State) : (s.handWrite sel v fade r).ref = s.ref := rfl
@[simp] theorem State.handWrite_chains (sel : Selector) (v : LookValue) (fade : Option Nat) (r : RunnerId) (s : State) : (s.handWrite sel v fade r).chains = s.chains := rfl
@[simp] theorem State.handWrite_intake (sel : Selector) (v : LookValue) (fade : Option Nat) (r : RunnerId) (s : State) : (s.handWrite sel v fade r).intake = s.intake := rfl
@[simp] theorem State.handWrite_pool (sel : Selector) (v : LookValue) (fade : Option Nat) (r : RunnerId) (s : State) : (s.handWrite sel v fade r).pool = s.pool := rfl
@[simp] theorem State.handWrite_asm (sel : Selector) (v : LookValue) (fade : Option Nat) (r : RunnerId) (s : State) : (s.handWrite sel v fade r).asm = s.asm := rfl
@[simp] theorem State.handWrite_stills (sel : Selector) (v : LookValue) (fade : Option Nat) (r : RunnerId) (s : State) : (s.handWrite sel v fade r).stills = s.stills := rfl
@[simp] theorem State.handWrite_scene (sel : Selector) (v : LookValue) (fade : Option Nat) (r : RunnerId) (s : State) : (s.handWrite sel v fade r).scene = s.scene := rfl
@[simp] theorem State.handWrite_tally (sel : Selector) (v : LookValue) (fade : Option Nat) (r : RunnerId) (s : State) : (s.handWrite sel v fade r).tally = s.tally := rfl
@[simp] theorem State.handWrite_cues (sel : Selector) (v : LookValue) (fade : Option Nat) (r : RunnerId) (s : State) : (s.handWrite sel v fade r).cues = s.cues := rfl
@[simp] theorem State.handWrite_link (sel : Selector) (v : LookValue) (fade : Option Nat) (r : RunnerId) (s : State) : (s.handWrite sel v fade r).link = s.link := rfl

@[simp] theorem State.orderTaken_pending (c : ChainId) (n : Word16) (s : State) : (s.orderTaken c n).pending = s.pending := rfl
@[simp] theorem State.orderTaken_ref (c : ChainId) (n : Word16) (s : State) : (s.orderTaken c n).ref = s.ref := rfl
@[simp] theorem State.orderTaken_intake (c : ChainId) (n : Word16) (s : State) : (s.orderTaken c n).intake = s.intake := rfl
@[simp] theorem State.orderTaken_pool (c : ChainId) (n : Word16) (s : State) : (s.orderTaken c n).pool = s.pool := rfl
@[simp] theorem State.orderTaken_asm (c : ChainId) (n : Word16) (s : State) : (s.orderTaken c n).asm = s.asm := rfl
@[simp] theorem State.orderTaken_stills (c : ChainId) (n : Word16) (s : State) : (s.orderTaken c n).stills = s.stills := rfl
@[simp] theorem State.orderTaken_scene (c : ChainId) (n : Word16) (s : State) : (s.orderTaken c n).scene = s.scene := rfl
@[simp] theorem State.orderTaken_tally (c : ChainId) (n : Word16) (s : State) : (s.orderTaken c n).tally = s.tally := rfl
@[simp] theorem State.orderTaken_cues (c : ChainId) (n : Word16) (s : State) : (s.orderTaken c n).cues = s.cues := rfl
@[simp] theorem State.orderTaken_link (c : ChainId) (n : Word16) (s : State) : (s.orderTaken c n).link = s.link := rfl
@[simp] theorem State.orderTaken_mail (c : ChainId) (n : Word16) (s : State) : (s.orderTaken c n).mail = s.mail := rfl

@[simp] theorem State.passLost_pending (r : RunnerId) (s : State) : (s.passLost r).pending = s.pending := rfl
@[simp] theorem State.passLost_ref (r : RunnerId) (s : State) : (s.passLost r).ref = s.ref := rfl
@[simp] theorem State.passLost_intake (r : RunnerId) (s : State) : (s.passLost r).intake = s.intake := rfl
@[simp] theorem State.passLost_pool (r : RunnerId) (s : State) : (s.passLost r).pool = s.pool := rfl
@[simp] theorem State.passLost_asm (r : RunnerId) (s : State) : (s.passLost r).asm = s.asm := rfl
@[simp] theorem State.passLost_stills (r : RunnerId) (s : State) : (s.passLost r).stills = s.stills := rfl
@[simp] theorem State.passLost_scene (r : RunnerId) (s : State) : (s.passLost r).scene = s.scene := rfl
@[simp] theorem State.passLost_tally (r : RunnerId) (s : State) : (s.passLost r).tally = s.tally := rfl
@[simp] theorem State.passLost_cues (r : RunnerId) (s : State) : (s.passLost r).cues = s.cues := rfl
@[simp] theorem State.passLost_link (r : RunnerId) (s : State) : (s.passLost r).link = s.link := rfl
@[simp] theorem State.passLost_mail (r : RunnerId) (s : State) : (s.passLost r).mail = s.mail := rfl

@[simp] theorem State.passNotices_pending (r : RunnerId) (s : State) : (s.passNotices r).pending = s.pending := rfl
@[simp] theorem State.passNotices_ref (r : RunnerId) (s : State) : (s.passNotices r).ref = s.ref := rfl
@[simp] theorem State.passNotices_chains (r : RunnerId) (s : State) : (s.passNotices r).chains = (s.passLost r).chains := rfl
@[simp] theorem State.passNotices_intake (r : RunnerId) (s : State) : (s.passNotices r).intake = s.intake := rfl
@[simp] theorem State.passNotices_pool (r : RunnerId) (s : State) : (s.passNotices r).pool = s.pool := rfl
@[simp] theorem State.passNotices_asm (r : RunnerId) (s : State) : (s.passNotices r).asm = s.asm := rfl
@[simp] theorem State.passNotices_stills (r : RunnerId) (s : State) : (s.passNotices r).stills = s.stills := rfl
@[simp] theorem State.passNotices_scene (r : RunnerId) (s : State) : (s.passNotices r).scene = s.scene := rfl
@[simp] theorem State.passNotices_tally (r : RunnerId) (s : State) : (s.passNotices r).tally = s.tally := rfl
@[simp] theorem State.passNotices_cues (r : RunnerId) (s : State) : (s.passNotices r).cues = s.cues := rfl
@[simp] theorem State.passNotices_link (r : RunnerId) (s : State) : (s.passNotices r).link = s.link := rfl

@[simp] theorem State.setNotices_pending (c : ChainId) (l : List RunnerMsg) (s : State) : (s.setNotices c l).pending = s.pending := rfl
@[simp] theorem State.setNotices_ref (c : ChainId) (l : List RunnerMsg) (s : State) : (s.setNotices c l).ref = s.ref := rfl
@[simp] theorem State.setNotices_chains (c : ChainId) (l : List RunnerMsg) (s : State) : (s.setNotices c l).chains = s.chains := rfl
@[simp] theorem State.setNotices_intake (c : ChainId) (l : List RunnerMsg) (s : State) : (s.setNotices c l).intake = s.intake := rfl
@[simp] theorem State.setNotices_pool (c : ChainId) (l : List RunnerMsg) (s : State) : (s.setNotices c l).pool = s.pool := rfl
@[simp] theorem State.setNotices_asm (c : ChainId) (l : List RunnerMsg) (s : State) : (s.setNotices c l).asm = s.asm := rfl
@[simp] theorem State.setNotices_stills (c : ChainId) (l : List RunnerMsg) (s : State) : (s.setNotices c l).stills = s.stills := rfl
@[simp] theorem State.setNotices_scene (c : ChainId) (l : List RunnerMsg) (s : State) : (s.setNotices c l).scene = s.scene := rfl
@[simp] theorem State.setNotices_tally (c : ChainId) (l : List RunnerMsg) (s : State) : (s.setNotices c l).tally = s.tally := rfl
@[simp] theorem State.setNotices_cues (c : ChainId) (l : List RunnerMsg) (s : State) : (s.setNotices c l).cues = s.cues := rfl
@[simp] theorem State.setNotices_link (c : ChainId) (l : List RunnerMsg) (s : State) : (s.setNotices c l).link = s.link := rfl

@[simp] theorem State.setRunnerTicks_pending (r : RunnerId) (l : List Word16) (s : State) : (s.setRunnerTicks r l).pending = s.pending := rfl
@[simp] theorem State.setRunnerTicks_ref (r : RunnerId) (l : List Word16) (s : State) : (s.setRunnerTicks r l).ref = s.ref := rfl
@[simp] theorem State.setRunnerTicks_chains (r : RunnerId) (l : List Word16) (s : State) : (s.setRunnerTicks r l).chains = s.chains := rfl
@[simp] theorem State.setRunnerTicks_intake (r : RunnerId) (l : List Word16) (s : State) : (s.setRunnerTicks r l).intake = s.intake := rfl
@[simp] theorem State.setRunnerTicks_pool (r : RunnerId) (l : List Word16) (s : State) : (s.setRunnerTicks r l).pool = s.pool := rfl
@[simp] theorem State.setRunnerTicks_asm (r : RunnerId) (l : List Word16) (s : State) : (s.setRunnerTicks r l).asm = s.asm := rfl
@[simp] theorem State.setRunnerTicks_stills (r : RunnerId) (l : List Word16) (s : State) : (s.setRunnerTicks r l).stills = s.stills := rfl
@[simp] theorem State.setRunnerTicks_scene (r : RunnerId) (l : List Word16) (s : State) : (s.setRunnerTicks r l).scene = s.scene := rfl
@[simp] theorem State.setRunnerTicks_tally (r : RunnerId) (l : List Word16) (s : State) : (s.setRunnerTicks r l).tally = s.tally := rfl
@[simp] theorem State.setRunnerTicks_cues (r : RunnerId) (l : List Word16) (s : State) : (s.setRunnerTicks r l).cues = s.cues := rfl
@[simp] theorem State.setRunnerTicks_link (r : RunnerId) (l : List Word16) (s : State) : (s.setRunnerTicks r l).link = s.link := rfl

@[simp] theorem State.loadSlot_pending (k : Nat) (l : List CueStep) (s : State) : (s.loadSlot k l).pending = s.pending := rfl
@[simp] theorem State.loadSlot_ref (k : Nat) (l : List CueStep) (s : State) : (s.loadSlot k l).ref = s.ref := rfl
@[simp] theorem State.loadSlot_chains (k : Nat) (l : List CueStep) (s : State) : (s.loadSlot k l).chains = s.chains := rfl
@[simp] theorem State.loadSlot_intake (k : Nat) (l : List CueStep) (s : State) : (s.loadSlot k l).intake = s.intake := rfl
@[simp] theorem State.loadSlot_pool (k : Nat) (l : List CueStep) (s : State) : (s.loadSlot k l).pool = s.pool := rfl
@[simp] theorem State.loadSlot_asm (k : Nat) (l : List CueStep) (s : State) : (s.loadSlot k l).asm = s.asm := rfl
@[simp] theorem State.loadSlot_stills (k : Nat) (l : List CueStep) (s : State) : (s.loadSlot k l).stills = s.stills := rfl
@[simp] theorem State.loadSlot_scene (k : Nat) (l : List CueStep) (s : State) : (s.loadSlot k l).scene = s.scene := rfl
@[simp] theorem State.loadSlot_tally (k : Nat) (l : List CueStep) (s : State) : (s.loadSlot k l).tally = s.tally := rfl
@[simp] theorem State.loadSlot_link (k : Nat) (l : List CueStep) (s : State) : (s.loadSlot k l).link = s.link := rfl
@[simp] theorem State.loadSlot_mail (k : Nat) (l : List CueStep) (s : State) : (s.loadSlot k l).mail = s.mail := rfl

@[simp] theorem State.countLink_pending (f : LinkCounters → LinkCounters) (s : State) : (s.countLink f).pending = s.pending := rfl
@[simp] theorem State.countLink_ref (f : LinkCounters → LinkCounters) (s : State) : (s.countLink f).ref = s.ref := rfl
@[simp] theorem State.countLink_chains (f : LinkCounters → LinkCounters) (s : State) : (s.countLink f).chains = s.chains := rfl
@[simp] theorem State.countLink_intake (f : LinkCounters → LinkCounters) (s : State) : (s.countLink f).intake = s.intake := rfl
@[simp] theorem State.countLink_pool (f : LinkCounters → LinkCounters) (s : State) : (s.countLink f).pool = s.pool := rfl
@[simp] theorem State.countLink_asm (f : LinkCounters → LinkCounters) (s : State) : (s.countLink f).asm = s.asm := rfl
@[simp] theorem State.countLink_stills (f : LinkCounters → LinkCounters) (s : State) : (s.countLink f).stills = s.stills := rfl
@[simp] theorem State.countLink_scene (f : LinkCounters → LinkCounters) (s : State) : (s.countLink f).scene = s.scene := rfl
@[simp] theorem State.countLink_tally (f : LinkCounters → LinkCounters) (s : State) : (s.countLink f).tally = s.tally := rfl
@[simp] theorem State.countLink_cues (f : LinkCounters → LinkCounters) (s : State) : (s.countLink f).cues = s.cues := rfl
@[simp] theorem State.countLink_mail (f : LinkCounters → LinkCounters) (s : State) : (s.countLink f).mail = s.mail := rfl

@[simp] theorem State.setReceiver_pending (x : Receiver) (s : State) : (s.setReceiver x).pending = s.pending := rfl
@[simp] theorem State.setReceiver_ref (x : Receiver) (s : State) : (s.setReceiver x).ref = s.ref := rfl
@[simp] theorem State.setReceiver_chains (x : Receiver) (s : State) : (s.setReceiver x).chains = s.chains := rfl
@[simp] theorem State.setReceiver_intake (x : Receiver) (s : State) : (s.setReceiver x).intake = s.intake := rfl
@[simp] theorem State.setReceiver_pool (x : Receiver) (s : State) : (s.setReceiver x).pool = s.pool := rfl
@[simp] theorem State.setReceiver_asm (x : Receiver) (s : State) : (s.setReceiver x).asm = s.asm := rfl
@[simp] theorem State.setReceiver_stills (x : Receiver) (s : State) : (s.setReceiver x).stills = s.stills := rfl
@[simp] theorem State.setReceiver_scene (x : Receiver) (s : State) : (s.setReceiver x).scene = s.scene := rfl
@[simp] theorem State.setReceiver_tally (x : Receiver) (s : State) : (s.setReceiver x).tally = s.tally := rfl
@[simp] theorem State.setReceiver_cues (x : Receiver) (s : State) : (s.setReceiver x).cues = s.cues := rfl
@[simp] theorem State.setReceiver_mail (x : Receiver) (s : State) : (s.setReceiver x).mail = s.mail := rfl

@[simp] theorem State.discardFrame_pending (d : LinkCheck) (s : State) : (s.discardFrame d).pending = s.pending := rfl
@[simp] theorem State.discardFrame_ref (d : LinkCheck) (s : State) : (s.discardFrame d).ref = s.ref := rfl
@[simp] theorem State.discardFrame_chains (d : LinkCheck) (s : State) : (s.discardFrame d).chains = s.chains := rfl
@[simp] theorem State.discardFrame_intake (d : LinkCheck) (s : State) : (s.discardFrame d).intake = s.intake := rfl
@[simp] theorem State.discardFrame_pool (d : LinkCheck) (s : State) : (s.discardFrame d).pool = s.pool := rfl
@[simp] theorem State.discardFrame_asm (d : LinkCheck) (s : State) : (s.discardFrame d).asm = s.asm := rfl
@[simp] theorem State.discardFrame_stills (d : LinkCheck) (s : State) : (s.discardFrame d).stills = s.stills := rfl
@[simp] theorem State.discardFrame_scene (d : LinkCheck) (s : State) : (s.discardFrame d).scene = s.scene := rfl
@[simp] theorem State.discardFrame_tally (d : LinkCheck) (s : State) : (s.discardFrame d).tally = s.tally := rfl
@[simp] theorem State.discardFrame_cues (d : LinkCheck) (s : State) : (s.discardFrame d).cues = s.cues := rfl
@[simp] theorem State.discardFrame_mail (d : LinkCheck) (s : State) : (s.discardFrame d).mail = s.mail := rfl

@[simp] theorem State.setLinkTicks_pending (l : List Word16) (s : State) : (s.setLinkTicks l).pending = s.pending := rfl
@[simp] theorem State.setLinkTicks_ref (l : List Word16) (s : State) : (s.setLinkTicks l).ref = s.ref := rfl
@[simp] theorem State.setLinkTicks_chains (l : List Word16) (s : State) : (s.setLinkTicks l).chains = s.chains := rfl
@[simp] theorem State.setLinkTicks_intake (l : List Word16) (s : State) : (s.setLinkTicks l).intake = s.intake := rfl
@[simp] theorem State.setLinkTicks_pool (l : List Word16) (s : State) : (s.setLinkTicks l).pool = s.pool := rfl
@[simp] theorem State.setLinkTicks_asm (l : List Word16) (s : State) : (s.setLinkTicks l).asm = s.asm := rfl
@[simp] theorem State.setLinkTicks_stills (l : List Word16) (s : State) : (s.setLinkTicks l).stills = s.stills := rfl
@[simp] theorem State.setLinkTicks_scene (l : List Word16) (s : State) : (s.setLinkTicks l).scene = s.scene := rfl
@[simp] theorem State.setLinkTicks_tally (l : List Word16) (s : State) : (s.setLinkTicks l).tally = s.tally := rfl
@[simp] theorem State.setLinkTicks_cues (l : List Word16) (s : State) : (s.setLinkTicks l).cues = s.cues := rfl
@[simp] theorem State.setLinkTicks_link (l : List Word16) (s : State) : (s.setLinkTicks l).link = s.link := rfl

@[simp] theorem State.clearFaults_pending (s : State) : (s.clearFaults).pending = s.pending := rfl
@[simp] theorem State.clearFaults_ref (s : State) : (s.clearFaults).ref = s.ref := rfl
@[simp] theorem State.clearFaults_chains (s : State) : (s.clearFaults).chains = s.chains := rfl
@[simp] theorem State.clearFaults_intake (s : State) : (s.clearFaults).intake = s.intake := rfl
@[simp] theorem State.clearFaults_pool (s : State) : (s.clearFaults).pool = s.pool := rfl
@[simp] theorem State.clearFaults_asm (s : State) : (s.clearFaults).asm = s.asm := rfl
@[simp] theorem State.clearFaults_stills (s : State) : (s.clearFaults).stills = s.stills := rfl
@[simp] theorem State.clearFaults_scene (s : State) : (s.clearFaults).scene = s.scene := rfl
@[simp] theorem State.clearFaults_tally (s : State) : (s.clearFaults).tally = s.tally := rfl
@[simp] theorem State.clearFaults_cues (s : State) : (s.clearFaults).cues = s.cues := rfl
@[simp] theorem State.clearFaults_mail (s : State) : (s.clearFaults).mail = s.mail := rfl

@[simp] theorem State.beginDisable_pending (q : Request) (c : ChainId) (s : State) : (s.beginDisable q c).pending = s.pending := rfl
@[simp] theorem State.beginDisable_ref (q : Request) (c : ChainId) (s : State) : (s.beginDisable q c).ref = s.ref := rfl
@[simp] theorem State.beginDisable_intake (q : Request) (c : ChainId) (s : State) : (s.beginDisable q c).intake = s.intake := rfl
@[simp] theorem State.beginDisable_pool (q : Request) (c : ChainId) (s : State) : (s.beginDisable q c).pool = s.pool := rfl
@[simp] theorem State.beginDisable_asm (q : Request) (c : ChainId) (s : State) : (s.beginDisable q c).asm = s.asm := rfl
@[simp] theorem State.beginDisable_stills (q : Request) (c : ChainId) (s : State) : (s.beginDisable q c).stills = s.stills := rfl
@[simp] theorem State.beginDisable_scene (q : Request) (c : ChainId) (s : State) : (s.beginDisable q c).scene = s.scene := rfl
@[simp] theorem State.beginDisable_tally (q : Request) (c : ChainId) (s : State) : (s.beginDisable q c).tally = s.tally := rfl
@[simp] theorem State.beginDisable_cues (q : Request) (c : ChainId) (s : State) : (s.beginDisable q c).cues = s.cues := rfl
@[simp] theorem State.beginDisable_mail (q : Request) (c : ChainId) (s : State) : (s.beginDisable q c).mail = s.mail := rfl

@[simp] theorem State.poolReport_pending (sc : Scrub) (s : State) : (s.poolReport sc).pending = s.pending := rfl
@[simp] theorem State.poolReport_ref (sc : Scrub) (s : State) : (s.poolReport sc).ref = s.ref := rfl
@[simp] theorem State.poolReport_chains (sc : Scrub) (s : State) : (s.poolReport sc).chains = s.chains := rfl
@[simp] theorem State.poolReport_intake (sc : Scrub) (s : State) : (s.poolReport sc).intake = s.intake := rfl
@[simp] theorem State.poolReport_pool (sc : Scrub) (s : State) : (s.poolReport sc).pool = s.pool := rfl
@[simp] theorem State.poolReport_asm (sc : Scrub) (s : State) : (s.poolReport sc).asm = s.asm := rfl
@[simp] theorem State.poolReport_stills (sc : Scrub) (s : State) : (s.poolReport sc).stills = s.stills := rfl
@[simp] theorem State.poolReport_scene (sc : Scrub) (s : State) : (s.poolReport sc).scene = s.scene := rfl
@[simp] theorem State.poolReport_tally (sc : Scrub) (s : State) : (s.poolReport sc).tally = s.tally := rfl
@[simp] theorem State.poolReport_cues (sc : Scrub) (s : State) : (s.poolReport sc).cues = s.cues := rfl
@[simp] theorem State.poolReport_mail (sc : Scrub) (s : State) : (s.poolReport sc).mail = s.mail := rfl

/-! ### What an update makes of its field -/

@[simp] theorem State.report_link (b : ReportBody) (s : State) : (s.report b).link = s.link.offer s.e b := rfl
@[simp] theorem State.raise_link (f : PartFault) (src : FaultSource) (n : Option NodeRef) (s : State) :
    (s.raise f src n).link = s.link.takeFault { fault := f, source := src, frame := s.e, node := n } := rfl
@[simp] theorem State.answer_link (q : Request) (k : ReplyCode) (b : ReplyBody) (s : State) :
    (s.answer q k b).link = s.link.answer q k b := rfl
@[simp] theorem State.setRef_ref (r : RefUnit) (s : State) : (s.setRef r).ref = r := rfl
@[simp] theorem State.updAsm_asm (c : ChainId) (f : AsmChain → AsmChain) (s : State) :
    (s.updAsm c f).asm = s.asm.set c (f (s.asm.get c)) := rfl
@[simp] theorem State.toFree_pool (b : Nat) (s : State) : (s.toFree b).pool = s.pool.release b := rfl
@[simp] theorem State.updTile_chains (c : ChainId) (a : Nat) (f : TileSettings → TileSettings) (s : State) :
    (s.updTile c a f).chains = s.chains.set c ((s.chains.get c).updateTile a f) := rfl
@[simp] theorem State.setStaging_intake (e : EntryId) (x : Entry) (s : State) :
    (s.setStaging e x).intake = s.intake.setEntry e x := rfl
@[simp] theorem State.countSeg_intake (k : IntakeCtr) (s : State) : (s.countSeg k).intake = s.intake.count k := rfl
@[simp] theorem State.setStill_stills (r : StillRef) (x : StillSlot) (s : State) :
    (s.setStill r x).stills = s.stills.setSlot r x := rfl
@[simp] theorem State.updRunner_cues (r : RunnerId) (f : Runner → Runner) (s : State) :
    (s.updRunner r f).cues = { s.cues with runners := s.cues.runners.set r (f (s.cues.runners.get r)) } := rfl
@[simp] theorem State.grantMemory_pool (s : State) : s.grantMemory.pool = s.pool.grant := rfl
@[simp] theorem State.setReceiver_link (x : Receiver) (s : State) :
    (s.setReceiver x).link = { s.link with receiver := x } := rfl
@[simp] theorem State.countLink_link (f : LinkCounters → LinkCounters) (s : State) :
    (s.countLink f).link = { s.link with counters := f s.link.counters } := rfl

end Sys2Proof.Machine
end

