-- ==== Sys2Proof/Laws/Chains.lean ====
section
/-! SUPPORT. What a Chain Manager's operations keep: thirty node records, a command queue of at most sixteen commands in
class order, and hops that count from 1. -/

namespace Sys2Proof.Machine

/-! ### The node table -/

theorem Chain.setNode_wf {ch : Chain} (h : ch.wf) (a : Nat) (n : Option Node) : (ch.setNode a n).wf :=
  ⟨by simpa [Chain.setNode] using h.1, h.2⟩

theorem Chain.updateNode_wf {ch : Chain} (h : ch.wf) (a : Nat) (f : Node → Node) : (ch.updateNode a f).wf := by
  unfold Chain.updateNode; split
  · exact ch.setNode_wf h _ _
  · exact h

theorem Chain.updateAll_wf {ch : Chain} (h : ch.wf) (f : Node → Node) : (ch.updateAll f).wf :=
  ⟨by simpa [Chain.updateAll] using h.1, h.2⟩

theorem Chain.updateTile_wf {ch : Chain} (h : ch.wf) (a : Nat) (f : TileSettings → TileSettings) :
    (ch.updateTile a f).wf := by
  unfold Chain.updateTile; split
  · split
    · exact ch.setNode_wf h _ _
    · exact h
  · exact h

theorem Chain.depart_wf {ch : Chain} (h : ch.wf) {cmd : Cmd} (hc : cmd.namesHop) : (ch.depart cmd).wf := by
  unfold Chain.depart; split
  · exact ⟨h.1, h.2.1, fun e => hc (Option.some.inj e), h.2.2.2⟩
  · split
    · exact ⟨h.1, h.2.1, nofun, h.2.2.2⟩
    · exact h
  · exact h
  · exact ch.updateNode_wf h _ _
  · split
    · exact ch.updateAll_wf h _
    · exact ch.updateNode_wf h _ _
  · split
    · exact ch.updateAll_wf h _
    · exact ch.updateNode_wf h _ _

/-- Entries whose commands stay make a queue in the same order. -/
theorem queueWf_map {q : List QEntry} (h : queueWf q) (f : QEntry → QEntry) (hf : ∀ x, (f x).cmd = x.cmd) :
    queueWf (q.map f) := by
  refine ⟨by simpa using h.1, ?_, ?_⟩
  · refine List.pairwise_map.2 (h.2.1.imp fun {x y} hxy => ?_)
    rw [hf, hf]; exact hxy
  · intro x hx
    obtain ⟨y, hy, rfl⟩ := List.mem_map.1 hx
    rw [hf]; exact h.2.2 y hy

/-- A queue that loses entries stays in order. -/
theorem queueWf_sublist {q r : List QEntry} (h : queueWf q) (hr : r.Sublist q) : queueWf r :=
  ⟨hr.length_le.trans h.1, h.2.1.sublist hr, fun x hx => h.2.2 x (hr.subset hx)⟩

theorem queueWf_nil : queueWf [] := ⟨Nat.zero_le _, List.Pairwise.nil, nofun⟩

/-- A command of the configuration class joins at the end. -/
theorem queueWf_concat {q : List QEntry} (h : queueWf q) (hq : q.length < queueSize) (x : QEntry)
    (hx : x.cmd.isRepair = false) (hn : x.cmd.namesHop) : queueWf (q ++ [x]) := by
  refine ⟨by simp only [List.length_append, List.length_singleton]; omega, ?_, ?_⟩
  · refine List.pairwise_append.2 ⟨h.2.1, List.pairwise_singleton _ _, fun a _ b hb hr => ?_⟩
    rw [List.mem_singleton.1 hb, hx] at hr; cases hr
  · intro y hy
    rcases List.mem_append.1 hy with hy | hy
    · exact h.2.2 y hy
    · rw [List.mem_singleton.1 hy]; exact hn

theorem Chain.endAttempt_wf {ch : Chain} (h : ch.wf) : ch.endAttempt.wf :=
  ⟨h.1, queueWf_map h.2.1 _ fun _ => rfl, h.2.2⟩

/-! ### The command queue -/

theorem insertRepair_length (q : List QEntry) (x : QEntry) : (insertRepair q x).length = q.length + 1 := by
  have h := congrArg List.length (List.takeWhile_append_dropWhile (p := fun y : QEntry => y.cmd.isRepair) (l := q))
  simp only [List.length_append] at h
  simp only [insertRepair, List.length_append, List.length_cons]
  omega

/-- A repair command that joins stands behind the repair commands and ahead of the rest: the order stays (R28). -/
theorem insertRepair_inClassOrder {q : List QEntry} (h : inClassOrder q) {x : QEntry} (hx : x.cmd.isRepair = true) :
    inClassOrder (insertRepair q x) := by
  induction q with
  | nil => simp [insertRepair, inClassOrder]
  | cons y l ih =>
      obtain ⟨hy, hl⟩ := List.pairwise_cons.1 h
      by_cases hr : y.cmd.isRepair = true
      · have e : insertRepair (y :: l) x = y :: insertRepair l x := by simp [insertRepair, hr]
        rw [e]
        exact List.pairwise_cons.2 ⟨fun z _ _ => hr, ih hl⟩
      · have e : insertRepair (y :: l) x = x :: y :: l := by simp [insertRepair, hr]
        rw [e]
        exact List.pairwise_cons.2 ⟨fun z _ _ => hx, h⟩

/-- What a repair command that joins brings to the queue. -/
theorem mem_insertRepair {q : List QEntry} {x y : QEntry} (h : y ∈ insertRepair q x) : y = x ∨ y ∈ q := by
  unfold insertRepair at h
  rcases List.mem_append.1 h with h | h
  · exact .inr ((List.takeWhile_sublist _).subset h)
  · rcases List.mem_cons.1 h with h | h
    · exact .inl h
    · exact .inr ((List.dropWhile_sublist _).subset h)

/-- A repair command joins a queue with a place free. -/
theorem queueWf_insertRepair {q : List QEntry} (h : queueWf q) (hq : q.length < queueSize) {x : QEntry}
    (hx : x.cmd.isRepair = true) (hn : x.cmd.namesHop) : queueWf (insertRepair q x) := by
  refine ⟨by rw [insertRepair_length]; omega, insertRepair_inClassOrder h.2.1 hx, fun y hy => ?_⟩
  rcases mem_insertRepair hy with rfl | hy
  · exact hn
  · exact h.2.2 y hy

/-- Room made leaves the queue without one entry (R30). -/
theorem evictFrom_sublist {q : List QEntry} {x : QEntry} {r : List QEntry} (h : evictFrom q = some (x, r)) :
    r.Sublist q := by
  unfold evictFrom at h
  split at h
  · simp at h
  · split_ifs at h
    · cases q with
      | nil => simp at h
      | cons y l => simp at h; rw [← h.2]; exact List.sublist_cons_self y l
    · simp at h
      rw [← h.2]; exact List.dropLast_sublist q

/-- Room made leaves one entry fewer, an entry of the queue (R30). -/
theorem evictFrom_length {q : List QEntry} {x : QEntry} {r : List QEntry} (h : evictFrom q = some (x, r)) :
    r.length + 1 = q.length := by
  unfold evictFrom at h
  split at h
  · simp at h
  · next last hl =>
      have hne : q ≠ [] := by rintro rfl; simp at hl
      have hpos := List.length_pos_of_ne_nil hne
      split_ifs at h
      · cases q with
        | nil => exact absurd rfl hne
        | cons y l => simp at h; simp [← h.2]
      · simp at h
        rw [← h.2, List.length_dropLast]; omega

theorem evictFrom_isSome {q : List QEntry} (h : q ≠ []) : (evictFrom q).isSome = true := by
  unfold evictFrom
  cases hl : q.getLast? with
  | none => simp [List.getLast?_eq_none_iff] at hl; exact absurd hl h
  | some last =>
      simp only
      split_ifs
      · cases q with
        | nil => exact absurd rfl h
        | cons y l => simp
      · simp

theorem Cm.emit_ch (o : CmOut) (m : Cm) : (m.emit o).ch = m.ch := rfl

@[simp] theorem Cm.chainReport_ch (k : ChainCause) (m : Cm) : (m.chainReport k).ch = m.ch := rfl
@[simp] theorem Cm.nodeReport_ch (k : NodeCause) (a : Nat) (m : Cm) : (m.nodeReport k a).ch = m.ch := rfl
@[simp] theorem Cm.fault_ch (f : PartFault) (a : Option Nat) (m : Cm) : (m.fault f a).ch = m.ch := rfl
@[simp] theorem Cm.modify_ch (f : Chain → Chain) (m : Cm) : (m.modify f).ch = f m.ch := rfl

/-- Things handed on one after another leave the chain record as it was. -/
theorem Cm.foldl_emit_ch {α : Type} (f : α → CmOut) (l : List α) (m : Cm) :
    (l.foldl (fun m x => m.emit (f x)) m).ch = m.ch := by
  induction l generalizing m with
  | nil => rfl
  | cons x l ih => exact ih (m.emit (f x))

/-- Anything kept by one step of a fold is kept by the fold. -/
theorem Cm.foldl_wf {α : Type} (f : Cm → α → Cm) (hf : ∀ m x, m.ch.wf → (f m x).ch.wf) (l : List α) {m : Cm}
    (h : m.ch.wf) : (l.foldl f m).ch.wf := by
  induction l generalizing m with
  | nil => exact h
  | cons x l ih => exact ih (hf m x h)

/-- Room made leaves a place free (R30). -/
theorem Cm.makeRoom_wf {m : Cm} (h : m.ch.wf) : m.makeRoom.ch.wf ∧ m.makeRoom.ch.queue.length < queueSize := by
  unfold Cm.makeRoom
  split
  · next hq => exact ⟨h, hq⟩
  · next hq =>
      have hne : m.ch.queue ≠ [] := by rintro e; rw [e] at hq; simp [queueSize] at hq
      obtain ⟨⟨x, q⟩, he⟩ := Option.isSome_iff_exists.1 (evictFrom_isSome hne)
      have hl := evictFrom_length he
      have h2 := h.2.1.1
      have hk : queueWf q := queueWf_sublist h.2.1 (evictFrom_sublist he)
      rw [he]
      dsimp only
      split <;> exact ⟨⟨h.1, hk, h.2.2⟩, by simp only [Cm.emit_ch, Cm.chainReport_ch, Cm.modify_ch]; omega⟩

/-- A repair command offered keeps the bounds of its chain. -/
theorem Cm.offerEntry_wf {m : Cm} (h : m.ch.wf) {x : QEntry} (hr : x.cmd.isRepair = true) (hn : x.cmd.namesHop) :
    (m.offerEntry x).ch.wf := by
  obtain ⟨h1, h2⟩ := Cm.makeRoom_wf h
  exact ⟨h1.1, queueWf_insertRepair h1.2.1 h2 hr hn, h1.2.2⟩

theorem Cm.offerRepair_wf {m : Cm} (h : m.ch.wf) {cmd : Cmd} (hr : cmd.isRepair = true) (hn : cmd.namesHop) :
    (m.offerRepair cmd).ch.wf := Cm.offerEntry_wf h hr hn

/-- A SET_END offered for a hop. -/
theorem Cm.offerEnd_wf {m : Cm} (h : m.ch.wf) {hop : Nat} (hn : hop ≠ 0) (on : Bool) :
    (m.offerRepair (.setEnd hop on)).ch.wf := Cm.offerRepair_wf h rfl hn

/-- A ROUTE offered. -/
theorem Cm.offerRoute_wf {m : Cm} (h : m.ch.wf) (t : Option Nat) (r : Route) : (m.offerRepair (.route t r)).ch.wf :=
  Cm.offerRepair_wf h rfl trivial

theorem Cm.offerAttemptRoute_wf {m : Cm} (h : m.ch.wf) (t : Option Nat) (r : Route) :
    (m.offerAttemptRoute t r).ch.wf := Cm.offerEntry_wf h rfl trivial

theorem Chain.enqueue_wf {ch : Chain} (h : ch.wf) (hq : ch.queue.length < queueSize) (cmd : ConfigCmd) (k : Issuer) :
    (ch.enqueue cmd k).wf :=
  ⟨h.1, queueWf_concat h.2.1 hq _ (by cases cmd <;> rfl) (by cases cmd <;> trivial), h.2.2⟩

@[simp] theorem Cm.giveRoom_ch (r : RunnerId) (m : Cm) : (m.giveRoom r).ch = m.ch := by
  unfold Cm.giveRoom; split <;> rfl

/-- Room given to a runner is a notice that names it (R161). -/
theorem Cm.giveRoom_out (r : RunnerId) (m : Cm) :
    ∃ l, (m.giveRoom r).out.getLast? = some (.notice (.room l)) ∧ r ∈ l := by
  unfold Cm.giveRoom; split
  · exact ⟨_, List.getLast?_concat .., by simp⟩
  · exact ⟨_, List.getLast?_concat .., by simp⟩

theorem Cm.serveClaims_wf (claims : List QClaim) : ∀ {m : Cm}, m.ch.wf → (m.serveClaims claims).ch.wf := by
  induction claims with
  | nil => intro m h; exact h
  | cons k rest ih =>
      intro m h
      unfold Cm.serveClaims
      split
      · next hq =>
          apply ih
          rw [Cm.giveRoom_ch]
          exact Chain.enqueue_wf h hq _ _
      · exact h

theorem Cm.fillPlaces_wf {m : Cm} (h : m.ch.wf) : m.fillPlaces.ch.wf := Cm.serveClaims_wf _ h

theorem Cm.emptyQueue_wf {m : Cm} (h : m.ch.wf) : m.emptyQueue.ch.wf := by
  unfold Cm.emptyQueue
  dsimp only
  apply Cm.foldl_wf
  · exact fun m r h => by rwa [Cm.giveRoom_ch]
  · exact ⟨h.1, queueWf_nil, h.2.2⟩

theorem Cm.fillCommands_wf (fuel : Nat) : ∀ (left : Nat) (carried : List Cmd) {m : Cm}, m.ch.wf →
    (m.fillCommands fuel left carried).1.ch.wf := by
  induction fuel with
  | zero => intro left carried m h; cases left <;> exact h
  | succ fuel ih =>
      intro left carried m h
      cases left with
      | zero => exact h
      | succ left =>
          unfold Cm.fillCommands
          split
          · exact h
          · next x rest hq =>
              have hr : queueWf rest := queueWf_sublist h.2.1 (hq ▸ List.sublist_cons_self x rest)
              have hx : x.cmd.namesHop := h.2.1.2.2 x (hq ▸ List.mem_cons_self)
              have hd := m.ch.depart_wf h hx
              split
              · exact ih _ _ (Cm.fillPlaces_wf ⟨h.1, hr, h.2.2⟩)
              · exact ih _ _ (Cm.fillPlaces_wf ⟨hd.1, hr, hd.2.2⟩)

theorem Cm.departures_wf {m : Cm} (h : m.ch.wf) : m.departures.1.ch.wf := Cm.fillCommands_wf _ _ _ h

/-- At most `left` commands are carried more than were (R31). -/
theorem Cm.fillCommands_carried (fuel : Nat) : ∀ (left : Nat) (carried : List Cmd) (m : Cm),
    (m.fillCommands fuel left carried).2.length ≤ carried.length + left := by
  induction fuel with
  | zero => intro left carried m; cases left <;> simp [Cm.fillCommands]
  | succ fuel ih =>
      intro left carried m
      cases left with
      | zero => simp [Cm.fillCommands]
      | succ left =>
          unfold Cm.fillCommands
          split
          · simp
          · split
            · exact ih _ _ _
            · refine (ih _ _ _).trans ?_
              split
              · simp; omega
              · simp

/-- A bundle carries at most four commands (R31). -/
theorem Cm.departures_length (m : Cm) : m.departures.2.length ≤ 4 := by
  have h := Cm.fillCommands_carried (queueSize + 4) 4 [] m
  rwa [List.length_nil, Nat.zero_add] at h

/-- A renumbered END hop counts from 1 (R42). -/
theorem renumberEnd_ne_zero (old new : List Place) {e : Option Nat} (h : e ≠ some 0) : renumberEnd old new e ≠ some 0 := by
  unfold renumberEnd
  split
  · exact nofun
  · split
    · exact h
    · split
      · exact h
      · split
        · next hp =>
            obtain ⟨i, _, rfl⟩ := Option.map_eq_some_iff.1 hp
            simp
        · dsimp only; split <;> simp_all

/-- A path hop counts from 1. -/
theorem hopOfPosition_ne_zero {path : List Place} {q k : Nat} (h : hopOfPosition path q = some k) : k ≠ 0 := by
  obtain ⟨i, _, rfl⟩ := Option.map_eq_some_iff.1 h
  exact Nat.succ_ne_zero i

/-- A path that stays keeps the END hop (R42). -/
theorem renumberEnd_same (path : List Place) (e : Option Nat) : renumberEnd path path e = e := by
  cases e with
  | none => rfl
  | some k => exact if_pos rfl

/-- Every path has the hops of its own places. -/
theorem hopsAgree_same (path : List Place) : hopsAgree path path = true := by
  induction path with
  | nil => rfl
  | cons p path ih => exact Bool.and_eq_true_iff.2 ⟨decide_eq_true rfl, ih⟩

/-- What a waiting SET_END on becomes on every path: a repair command whose hop counts from 1 (R42). -/
theorem endOnPath_spec (old new : List Place) {k : Nat} (h : k ≠ 0) :
    (endOnPath old new k).isRepair = true ∧ (endOnPath old new k).namesHop := by
  unfold endOnPath
  split
  · next j hj =>
      exact ⟨rfl, fun e => renumberEnd_ne_zero old new (e := some k) (fun e => h (Option.some.inj e)) (e ▸ hj)⟩
  · exact ⟨rfl, Nat.succ_ne_zero _⟩

/-- The hop of a waiting SET_END off counts from 1 on every path (R42). -/
theorem offOnPath_ne_zero (old new : List Place) (stop : Nat) {k : Nat} (h : k ≠ 0) : offOnPath old new stop k ≠ 0 := by
  unfold offOnPath
  split
  · exact h
  · split
    · exact h
    · next p _ =>
        cases e : hopOfPosition new p.position with
        | none => dsimp only [Option.getD_none]; split <;> omega
        | some j => exact hopOfPosition_ne_zero e

/-- A waiting command keeps its class on every path. -/
theorem Cmd.onPath_isRepair (old new : List Place) (stop : Nat) (cmd : Cmd) :
    (cmd.onPath old new stop).isRepair = cmd.isRepair := by
  unfold Cmd.onPath
  split
  · unfold endOnPath; split <;> rfl
  all_goals rfl

theorem Cmd.onPath_namesHop (old new : List Place) (stop : Nat) {cmd : Cmd} (h : cmd.namesHop) :
    (cmd.onPath old new stop).namesHop := by
  unfold Cmd.onPath
  split
  · exact (endOnPath_spec old new h).2
  · exact offOnPath_ne_zero old new stop h
  all_goals trivial

/-- On a path that stays, every waiting command stays as it is (R42). -/
theorem Cmd.onPath_same (path : List Place) (stop : Nat) (cmd : Cmd) : cmd.onPath path path stop = cmd := by
  unfold Cmd.onPath
  split
  · unfold endOnPath; rw [renumberEnd_same]
  · exact congrArg (Cmd.setEnd · false) (if_pos (hopsAgree_same path))
  all_goals rfl

/-- What the departure of a command leaves as END hop is what `endAfter` says (R33). -/
theorem Chain.depart_endHop (ch : Chain) (cmd : Cmd) : (ch.depart cmd).endHop = cmd.endAfter ch.endHop := by
  unfold Chain.depart
  split
  · rfl
  · unfold Cmd.endAfter; dsimp only; split <;> rfl
  · rfl
  · unfold Chain.updateNode; split <;> rfl
  · unfold Chain.updateNode; split
    · rfl
    · split <;> rfl
  · unfold Chain.updateNode; split
    · rfl
    · split <;> rfl

/-- A command leaves an END hop that counts from 1 (R25). -/
theorem Cmd.endAfter_ne_zero {cmd : Cmd} (h : cmd.namesHop) {e : Option Nat} (he : e ≠ some 0) :
    cmd.endAfter e ≠ some 0 := by
  unfold Cmd.endAfter
  split
  · exact fun hk => h (Option.some.inj hk)
  · split
    · exact nofun
    · exact he
  · exact he
  · exact he
  · exact he

/-- The END hop to come counts from 1 (R25). -/
theorem Chain.comingEnd_ne_zero {ch : Chain} (h : ch.wf) : ch.comingEnd ≠ some 0 := by
  have step : ∀ (q : List QEntry) (e : Option Nat), (∀ x ∈ q, x.cmd.namesHop) → e ≠ some 0 →
      q.foldl (fun e x => x.cmd.endAfter e) e ≠ some 0 := by
    intro q
    induction q with
    | nil => exact fun e _ he => he
    | cons x q ih =>
        exact fun e hq he => ih _ (fun y hy => hq y (List.mem_cons_of_mem x hy))
          (Cmd.endAfter_ne_zero (hq x List.mem_cons_self) he)
  exact step ch.queue ch.endHop h.2.1.2.2 h.2.2.1

/-- A command that is no SET_END leaves the END hop (R33). -/
theorem Cmd.endAfter_of_ne {cmd : Cmd} (h : ∀ hop on, cmd ≠ .setEnd hop on) (e : Option Nat) : cmd.endAfter e = e := by
  cases cmd with
  | setEnd hop on => exact absurd rfl (h hop on)
  | route => rfl
  | configure => rfl
  | enable => rfl

/-- With no SET_END waiting, END comes to where it stands. -/
theorem Chain.comingEnd_of_none_waits {ch : Chain} (h : ∀ x ∈ ch.queue, ∀ hop on, x.cmd ≠ .setEnd hop on) :
    ch.comingEnd = ch.endHop := by
  unfold Chain.comingEnd
  generalize ch.endHop = e
  generalize ch.queue = q at h
  induction q with
  | nil => rfl
  | cons x q ih =>
      rw [List.foldl_cons, Cmd.endAfter_of_ne (h x List.mem_cons_self)]
      exact ih fun y hy => h y (List.mem_cons_of_mem x hy)

/-- With no repair command waiting and the path as it was, the END hop that comes is that of the record. -/
theorem Chain.nextEnd_of_none_waits {ch : Chain} (h : ∀ x ∈ ch.queue, x.cmd.isRepair = false)
    (hp : ch.lastPath = ch.path.1) : ch.nextEnd = ch.endHop := by
  have routes : ∀ q : List QEntry, (∀ x ∈ q, x.cmd.isRepair = false) →
      q.foldl (fun ch x => ch.takeRoute x.cmd) ch = ch := by
    intro q
    induction q with
    | nil => exact fun _ => rfl
    | cons x q ih =>
        intro hq
        have hx : ch.takeRoute x.cmd = ch := by
          have := hq x List.mem_cons_self
          cases hc : x.cmd with
          | route a r => rw [hc] at this; exact absurd this Bool.noConfusion
          | setEnd => rfl
          | configure => rfl
          | enable => rfl
        rw [List.foldl_cons, hx]
        exact ih fun y hy => hq y (List.mem_cons_of_mem x hy)
  unfold Chain.nextEnd Chain.comingPath
  rw [routes ch.queue h, ← hp, renumberEnd_same]
  refine Chain.comingEnd_of_none_waits fun x hx hop on e => ?_
  have := h x hx
  rw [e] at this
  exact Bool.noConfusion this

/-- A path that stays leaves the queue as it is (R42). -/
theorem Cm.computePath_queue {m : Cm} {f : Word16} {d : Bool} (h : (m.computePath f d).2.path = m.ch.lastPath) :
    (m.computePath f d).1.ch.queue = m.ch.queue := by
  refine (List.map_congr_left fun x _ => ?_).trans (List.map_id _)
  exact congrArg (fun k => ({ x with cmd := k } : QEntry)) (h ▸ Cmd.onPath_same _ _ x.cmd)

theorem Cm.computePath_wf {m : Cm} (h : m.ch.wf) (f : Word16) (d : Bool) : (m.computePath f d).1.ch.wf := by
  refine ⟨h.1, ⟨(List.length_map _).le.trans h.2.1.1, ?_, ?_⟩, renumberEnd_ne_zero _ _ h.2.2.1, ?_⟩
  · refine List.pairwise_map.2 (h.2.1.2.1.imp fun {x y} hxy => ?_)
    simp only [Cmd.onPath_isRepair]; exact hxy
  · intro x hx
    obtain ⟨y, hy, rfl⟩ := List.mem_map.1 hx
    exact Cmd.onPath_namesHop _ _ _ (h.2.1.2.2 y hy)
  · show (if m.ch.state.probes = true then _ else m.ch.probeHop) ≠ some 0
    split_ifs
    · cases m.ch.probeHop <;> simp
    · exact h.2.2.2

/-! ### Returns -/

theorem Cm.lose_wf {m : Cm} (h : m.ch.wf) (a : Nat) : (m.lose a).ch.wf := by
  unfold Cm.lose; split <;> exact h

theorem Cm.flushLost_wf {m : Cm} (h : m.ch.wf) : m.flushLost.ch.wf := by
  unfold Cm.flushLost
  apply Cm.foldl_wf
  · exact fun m x h => h
  · exact h

theorem Cm.makeAbsent_wf {m : Cm} (h : m.ch.wf) (a : Nat) : (m.makeAbsent a).ch.wf := m.ch.setNode_wf h _ _

theorem Cm.endAtCut_wf {m : Cm} (h : m.ch.wf) (hop : Nat) : (m.endAtCut hop).ch.wf := by
  unfold Cm.endAtCut
  split
  · split
    · next k hk => exact Cm.offerEnd_wf h (fun e => Chain.comingEnd_ne_zero h (e ▸ hk)) _
    · exact h
  · next hh =>
      split
      · exact Cm.offerEnd_wf h hh _
      · exact h

theorem Cm.cut_wf {m : Cm} (h : m.ch.wf) (q hop target : Nat) : (m.cut q hop target).ch.wf := by
  unfold Cm.cut
  dsimp only
  apply Cm.foldl_wf
  · exact fun m x h => h
  have h1 : (((m.ch.beyond q).foldl (fun m a => m.lose a) m).modify (Chain.updateAll (Node.cutBeyond q))).ch.wf :=
    Chain.updateAll_wf (Cm.foldl_wf _ (fun m x h => Cm.lose_wf h x) _ h) _
  rw [Cm.fault_ch]
  have h2 := Cm.endAtCut_wf h1 hop
  split <;> exact Chain.endAttempt_wf h2

theorem Cm.endBeforeFailed_wf {m : Cm} (h : m.ch.wf) (p : Option Nat) (hop : Nat) :
    (m.endBeforeFailed p hop).ch.wf := by
  unfold Cm.endBeforeFailed; split
  · split
    · exact Cm.offerEnd_wf (Cm.offerEnd_wf h (by omega) _) (by omega) _
    · exact h
  · exact h

theorem Cm.beginBypass_wf {m : Cm} (h : m.ch.wf) (t : Nat) (p : Option Nat) (hop : Nat) :
    (m.beginBypass t p hop).ch.wf := by
  unfold Cm.beginBypass; split
  · exact Cm.endBeforeFailed_wf (Cm.cut_wf h _ _ _) _ _
  · apply Cm.offerAttemptRoute_wf
    exact h

theorem Cm.bypassSucceeds_wf {m : Cm} (h : m.ch.wf) (t : Attempt) : (m.bypassSucceeds t).ch.wf := by
  unfold Cm.bypassSucceeds
  have h1 := Chain.endAttempt_wf (Chain.updateNode_wf (Cm.lose_wf h t.target) t.target
    fun n => { n with state := .failed })
  simp only [Cm.nodeReport_ch]
  split <;> exact h1

theorem Cm.bypassFails_wf {m : Cm} (h : m.ch.wf) (t : Attempt) (path : List Place) : (m.bypassFails t path).ch.wf :=
  Cm.cut_wf (Cm.offerRoute_wf h _ _) _ _ _

theorem Cm.reinstateSucceeds_wf {m : Cm} (h : m.ch.wf) (t : Attempt) (mode : NodeMode) :
    (m.reinstateSucceeds t mode).ch.wf := Chain.endAttempt_wf (Chain.updateNode_wf h _ _)

theorem Cm.endReinstate_wf {m : Cm} (h : m.ch.wf) (t : Attempt) : (m.endReinstate t).ch.wf := Chain.endAttempt_wf h

theorem Cm.reinstateFails_wf {m : Cm} (h : m.ch.wf) (t : Attempt) (path : List Place) :
    (m.reinstateFails t path).ch.wf := by
  unfold Cm.reinstateFails
  have h1 := Cm.offerRoute_wf h t.pred .skipNext
  dsimp only
  apply Cm.endReinstate_wf
  generalize m.offerRepair (.route t.pred .skipNext) = k at h1 ⊢
  split
  · exact Cm.offerEnd_wf h1 (by omega) _
  · exact h1

theorem Cm.failEvicted_wf {m : Cm} (h : m.ch.wf) : m.failEvicted.ch.wf := by
  unfold Cm.failEvicted; split
  · split
    · split
      · exact Cm.cut_wf h _ _ _
      · exact Cm.endReinstate_wf h _
    · exact h
  · exact h

theorem Cm.failLapsed_wf {m : Cm} (h : m.ch.wf) : m.failLapsed.ch.wf := by
  unfold Cm.failLapsed; split
  · split
    · split
      · exact Cm.bypassFails_wf h _ _
      · exact Cm.reinstateFails_wf h _ _
    · exact h
  · exact h

theorem Cm.offerSetBack_wf {m : Cm} (h : m.ch.wf) (p : Nat) : (m.offerSetBack p).ch.wf := by
  unfold Cm.offerSetBack; split
  · exact Cm.offerEntry_wf (Cm.offerEnd_wf h (by omega) _) rfl (show p ≠ 0 by omega)
  · exact Cm.offerEntry_wf h rfl (show 1 ≠ 0 by omega)

theorem Cm.endWalk_wf {m : Cm} (h : m.ch.wf) : m.endWalk.ch.wf := by
  have h1 : (m.modify fun ch => { ch with probeHop := none }).ch.wf := ⟨h.1, h.2.1, h.2.2.1, nofun⟩
  unfold Cm.endWalk; dsimp only
  generalize (m.modify fun ch => { ch with probeHop := none }) = k at h1 ⊢
  rw [Cm.modify_ch]
  split
  · exact Cm.offerSetBack_wf h1 _
  · exact h1

theorem Cm.handClamp_wf {m : Cm} (h : m.ch.wf) (a : Nat) : (m.handClamp a).ch.wf := by
  unfold Cm.handClamp; split <;> exact h

theorem Cm.leavePosition_wf {m : Cm} (h : m.ch.wf) (q : Nat) : (m.leavePosition q).ch.wf := by
  unfold Cm.leavePosition; split
  · split
    · exact Cm.makeAbsent_wf (Cm.lose_wf h _) _
    · exact h
  · exact h

theorem Cm.foundProbe_wf {m : Cm} (h : m.ch.wf) (q : Nat) (x : Answer) : (m.foundProbe q x).ch.wf := by
  unfold Cm.foundProbe; split
  · exact Cm.handClamp_wf (Chain.updateNode_wf h _ _) _
  · exact Cm.handClamp_wf (Chain.setNode_wf (Cm.leavePosition_wf h q) _ _) _

theorem Cm.readProbe_wf {m : Cm} (h : m.ch.wf) (info : BundleInfo) (xs : List Answer) :
    (m.readProbe info xs).ch.wf := by
  unfold Cm.readProbe; split
  · split
    · next x _ =>
        have h1 := Cm.foundProbe_wf h info.stop x
        refine ⟨h1.1, h1.2.1, h1.2.2.1, fun e => ?_⟩
        obtain ⟨p, _, hp⟩ := Option.map_eq_some_iff.1 e
        omega
    · exact Cm.endWalk_wf h
  · exact h

theorem Cm.clash_wf {m : Cm} (h : m.ch.wf) (info : BundleInfo) (x : Answer) : (m.clash info x).ch.wf := by
  unfold Cm.clash
  have h1 := Cm.emptyQueue_wf (Cm.foldl_wf _ (fun m a h => Cm.makeAbsent_wf (Cm.lose_wf h a) a)
    (m.ch.enrolled.map fun p => p.1) (m := m.fault (.addrClash ((m.ch.node x.address).map fun n => n.position)
      ((placeAt info.path x.hop).map fun p => p.position) x.hop) (some x.address)) h)
  exact ⟨h1.1, h1.2.1, nofun, nofun⟩

theorem Cm.probeBack_wf {m : Cm} (h : m.ch.wf) (info : BundleInfo) : (m.probeBack info).ch.wf := by
  unfold Cm.probeBack; split
  · exact h
  · split
    · exact Cm.offerEnd_wf (Cm.offerEnd_wf h (by omega) _) (by omega) _
    · split
      · exact Cm.beginBypass_wf (Cm.offerEnd_wf h (by omega) _) _ _ _
      · exact h

theorem Cm.countBreak_wf {m : Cm} (h : m.ch.wf) (info : BundleInfo) : (m.countBreak info).ch.wf := by
  unfold Cm.countBreak; dsimp only; split
  · apply Cm.probeBack_wf
    exact h
  · exact h

theorem Cm.endProbeBack_wf {m : Cm} (h : m.ch.wf) (info : BundleInfo) : (m.endProbeBack info).ch.wf := by
  unfold Cm.endProbeBack; split
  · exact h
  · split
    · exact Cm.beginBypass_wf h _ _ _
    · exact h

theorem Cm.stateEffect_wf {m : Cm} (h : m.ch.wf) (info : BundleInfo) (xs : List Answer) :
    (m.stateEffect info xs).ch.wf := by
  unfold Cm.stateEffect; split
  · split
    · split
      · exact Cm.bypassSucceeds_wf h _
      · split
        · exact Cm.reinstateSucceeds_wf h _ _
        · exact Cm.reinstateFails_wf h _ _
    · exact h
  · split
    · exact Cm.readProbe_wf h _ _
    · exact Cm.readProbe_wf h _ _
    · exact Cm.endProbeBack_wf h _
    · exact h
    · exact h
    · exact h

theorem Cm.compareMode_wf {m : Cm} (h : m.ch.wf) (a : Nat) (n : Node) : (m.compareMode a n).ch.wf := by
  unfold Cm.compareMode; split
  · exact h
  · split
    · exact Chain.updateNode_wf h _ _
    · split <;> exact Chain.updateNode_wf h _ _

theorem Cm.takeAnswer_wf {m : Cm} (h : m.ch.wf) (a : Nat) (n : Node) (x : Answer) : (m.takeAnswer a n x).ch.wf := by
  have h1 : (m.modify fun ch => ch.setNode a (some (n.answered x))).ch.wf := m.ch.setNode_wf h _ _
  have h2 : ∀ k : Cm, k.ch.wf → (if n.health ≠ x.health then
      ((k.modify fun ch => ch.updateNode a fun n => { n with health := x.health }).emit
        (.clamp (.health a (overheat x.health)))).nodeReport .health a else k).ch.wf := by
    intro k hk
    split
    · exact Chain.updateNode_wf hk _ _
    · exact hk
  unfold Cm.takeAnswer
  dsimp only
  apply Cm.compareMode_wf
  apply h2
  split <;> exact h1

theorem Cm.takeSilence_wf {m : Cm} (h : m.ch.wf) (path : List Place) (hop a : Nat) (n : Node) :
    (m.takeSilence path hop a n).ch.wf := by
  have h1 : (m.modify fun ch => ch.setNode a (some n.unanswered)).ch.wf := m.ch.setNode_wf h _ _
  unfold Cm.takeSilence; dsimp only; split
  · exact Cm.beginBypass_wf h1 _ _ _
  · exact h1

theorem Cm.takePlace_wf {m : Cm} (h : m.ch.wf) (info : BundleInfo) (xs : List Answer) (p : Place × Nat) :
    (m.takePlace info xs p).ch.wf := by
  unfold Cm.takePlace; dsimp only; split
  · exact h
  · split
    · exact h
    · split
      · exact h
      · split
        · exact Cm.takeAnswer_wf h _ _ _
        · split
          · exact Cm.takeSilence_wf h _ _ _ _
          · exact h

theorem Cm.strangers_wf {m : Cm} (h : m.ch.wf) (xs : List Answer) : (m.strangers xs).ch.wf := by
  unfold Cm.strangers; split
  · exact h
  · refine Cm.foldl_wf _ (fun m x h => ?_) _ h
    dsimp only; split <;> exact h

/-- A trailer that names the END hop restates nothing (R44). -/
theorem Cm.restate_same {m : Cm} {t : Nat} (h : m.ch.endHop = some t) : m.restate t = m := if_pos (.inr h)

theorem Cm.restate_wf {m : Cm} (h : m.ch.wf) {t : Nat} (ht : t ≠ 0) : (m.restate t).ch.wf := by
  unfold Cm.restate; split
  · exact h
  · have h1 : (match m.ch.comingEnd with
        | some k => m.offerRepair (.setEnd k true)
        | none => m).ch.wf := by
      split
      · next k hk => exact Cm.offerEnd_wf h (fun e => Chain.comingEnd_ne_zero h (e ▸ hk)) _
      · exact h
    dsimp only
    split
    · exact h1
    · exact Cm.offerEnd_wf h1 ht _

theorem Cm.endHandling_wf {m : Cm} (h : m.ch.wf) : m.endHandling.ch.wf := Cm.flushLost_wf h

theorem Cm.handleReturn_wf {m : Cm} (h : m.ch.wf) (info : BundleInfo) (xs : List Answer) {t : Nat} (ht : t ≠ 0) :
    (m.handleReturn info xs t).ch.wf := by
  have h3 : (((m.strangers (xs.filter fun x => !info.atProbe x && !m.ch.matches info x)).stateEffect info xs).modify
      fun ch => { ch with breakCount := 0 }).ch.wf := Cm.stateEffect_wf (Cm.strangers_wf h _) info xs
  unfold Cm.handleReturn; dsimp only
  refine Cm.foldl_wf _ (fun m p h => Cm.takePlace_wf h info xs p) _ ?_
  split
  · exact Cm.restate_wf h3 ht
  · exact h3

theorem Cm.arrival_wf {m : Cm} (h : m.ch.wf) (info : BundleInfo) (bs : List StatusBlock) {t : Nat} (ht : t ≠ 0) :
    (m.arrival info bs t).ch.wf := by
  unfold Cm.arrival; dsimp only; split
  · apply Cm.endHandling_wf
    apply Cm.clash_wf
    exact h
  · split
    · apply Cm.endHandling_wf
      apply Cm.clash_wf
      exact h
    · apply Cm.endHandling_wf
      exact Cm.handleReturn_wf (by exact h) _ _ ht

theorem Cm.missing_wf {m : Cm} (h : m.ch.wf) : m.missing.ch.wf := by
  unfold Cm.missing; split
  · exact h
  · next c hc =>
      have h1 : (m.modify fun ch =>
        { ch with collect := none, counters := { ch.counters with missing := bump16 ch.counters.missing } }).ch.wf := h
      dsimp only
      generalize (m.modify fun ch =>
        { ch with collect := none, counters := { ch.counters with missing := bump16 ch.counters.missing } }) = k at h1 ⊢
      split
      · exact Cm.endWalk_wf h1
      · exact Cm.endWalk_wf h1
      · split
        · split
          · exact Cm.bypassFails_wf h1 _ _
          · exact Cm.reinstateFails_wf h1 _ _
        · exact Cm.countBreak_wf h1 _
      · split
        · exact Cm.probeBack_wf h1 _
        · split
          · split
            · exact Cm.bypassFails_wf h1 _ _
            · exact Cm.reinstateFails_wf h1 _ _
          · exact h1
      · exact h1
      · exact h1

theorem Cm.deadline_wf {m : Cm} (h : m.ch.wf) : m.deadline.ch.wf :=
  Cm.failLapsed_wf (Cm.failEvicted_wf (Cm.missing_wf h))

theorem Cm.takeTrailer_wf {m : Cm} (h : m.ch.wf) (c : Collection) (ty hop e a b : Byte) :
    (m.takeTrailer c ty hop e a b).ch.wf := by
  unfold Cm.takeTrailer; split
  · exact h
  · next hg =>
      split
      · refine Cm.arrival_wf h _ _ fun e => hg (.inr ?_)
        simp [inRange, e]
      · exact h

theorem Cm.gather_wf {m : Cm} (h : m.ch.wf) (c : Collection) (item : List Byte) : (m.gather c item).ch.wf := by
  unfold Cm.gather; split <;> exact h

theorem Cm.takeItem_wf {m : Cm} (h : m.ch.wf) (item : List Byte) : (m.takeItem item).ch.wf := by
  unfold Cm.takeItem; split
  · exact h
  · split
    · exact h
    · split
      · exact h
      · split
        · split
          · exact Cm.takeTrailer_wf h _ _ _ _ _ _
          · exact h
        · split
          · exact Cm.gather_wf h _ _
          · exact h

/-! ### Ticks and tokens -/

theorem Cm.disable_wf {m : Cm} (h : m.ch.wf) (f : Word16) : (m.disable f).ch.wf := by
  unfold Cm.disable
  have h1 := Cm.emptyQueue_wf (Cm.foldl_wf _ (fun m a h => Cm.makeAbsent_wf h a) (m.ch.enrolled.map fun p => p.1)
    (m := m.modify fun ch => { ch with collect := none, walkDoneDue := 0, lastPath := [] }) h)
  exact ⟨h1.1, h1.2.1, nofun, nofun⟩

theorem Cm.offerProbe_wf {m : Cm} (h : m.ch.wf) : m.offerProbe.ch.wf := by
  unfold Cm.offerProbe; split
  · exact h
  · next p hp =>
      have hp0 : p ≠ 0 := fun e => h.2.2.2 (e ▸ hp)
      dsimp only; split
      · exact Cm.offerEnd_wf (Cm.offerEnd_wf h hp0 _) (by omega) _
      · exact Cm.offerEnd_wf h hp0 _

theorem Cm.prepareProbe_wf {m : Cm} (h : m.ch.wf) (f : Word16) : (m.prepareProbe f).ch.wf :=
  Cm.departures_wf (Cm.offerProbe_wf (Cm.computePath_wf h f false))

theorem Cm.offerTrial_wf {m : Cm} (h : m.ch.wf) : m.offerTrial.ch.wf := by
  unfold Cm.offerTrial; split
  · exact h
  · next t ht =>
      have h0 : (m.modify fun ch => { ch with attempt := some { t with bundled := true } }).ch.wf := h
      dsimp only
      generalize (m.modify fun ch => { ch with attempt := some { t with bundled := true } }) = k at h0 ⊢
      have h1 : (if t.trialEnd = 0 then k else k.offerRepair (.setEnd t.trialEnd true)).ch.wf := by
        split
        · exact h0
        · next ht => exact Cm.offerEnd_wf h0 ht _
      split
      · next k hk =>
          have hk0 : k ≠ 0 := fun e => h.2.2.1 (e ▸ hk)
          split
          · exact Cm.offerEnd_wf h1 hk0 _
          · exact h1
      · exact h1

@[simp] theorem Cm.walkReports_ch (n : Nat) (m : Cm) : (m.walkReports n).ch = m.ch := by
  induction n generalizing m with
  | zero => rfl
  | succ n ih => exact ih _

/-- `n` CHAIN reports WALK_DONE behind what the Chain Manager has already sent, all alike (R53). -/
theorem Cm.walkReports_out (n : Nat) (m : Cm) :
    (m.walkReports n).out =
      m.out ++ List.replicate n (.report (.chain .walkDone m.id m.ch.state m.ch.endHop m.ch.stateCounts)) := by
  induction n generalizing m with
  | zero => exact (List.append_nil _).symm
  | succ n ih =>
      unfold Cm.walkReports
      rw [ih, List.replicate_succ]
      simp [Cm.chainReport, Cm.emit]

theorem Cm.reportWalkDone_wf {m : Cm} (h : m.ch.wf) : m.reportWalkDone.ch.wf := by
  unfold Cm.reportWalkDone; rw [Cm.walkReports_ch]; exact h

theorem Cm.prepareBundle_wf {m : Cm} (h : m.ch.wf) (f : Word16) : (m.prepareBundle f).ch.wf := by
  unfold Cm.prepareBundle
  dsimp only
  rw [Cm.emit_ch]
  apply Cm.reportWalkDone_wf
  apply Cm.departures_wf
  have h1 : ∀ d, (m.computePath f d).1.ch.wf := fun d => Cm.computePath_wf h f d
  generalize hd : m.ch.decidesNext = d
  have h2 : (if d = true then (m.computePath f d).1.offerTrial else (m.computePath f d).1).ch.wf := by
    split
    · exact Cm.offerTrial_wf (h1 d)
    · exact h1 d
  generalize (if d = true then (m.computePath f d).1.offerTrial else (m.computePath f d).1) = k at h2 ⊢
  split
  · exact Cm.offerProbe_wf h2
  · exact h2

theorem Cm.send_wf {m : Cm} (h : m.ch.wf) (f : Word16) : (m.send f).ch.wf := by
  unfold Cm.send; split
  · exact h
  · exact h
  · exact Cm.prepareProbe_wf h f
  · exact Cm.prepareBundle_wf h f
  · exact Cm.prepareBundle_wf h f
  · exact Cm.prepareBundle_wf h f

theorem Cm.tick_wf {m : Cm} (h : m.ch.wf) (f : Word16) : (m.tick f).ch.wf := by
  unfold Cm.tick; split
  · exact Cm.flushLost_wf (Cm.disable_wf h f)
  · exact Cm.flushLost_wf (Cm.send_wf (Cm.deadline_wf h) f)

theorem Cm.beginCollect_wf {m : Cm} (h : m.ch.wf) (info : BundleInfo) : (m.beginCollect info).ch.wf := by
  unfold Cm.beginCollect; split
  · exact h
  · split <;> exact h

theorem Cm.token_wf {m : Cm} (h : m.ch.wf) (info : BundleInfo) : (m.token info).ch.wf := by
  unfold Cm.token; split
  · exact Cm.beginCollect_wf (Cm.flushLost_wf (Cm.deadline_wf h)) _
  · exact Cm.beginCollect_wf h _

/-! ### Requests -/

theorem Cm.enable_wf {m : Cm} (h : m.ch.wf) (x : ChainSetArgs) : (m.enable x).ch.wf := by
  unfold Cm.enable; dsimp only; split
  · exact ⟨h.1, h.2.1, nofun, by simp [Chain.prepareWalk]⟩
  · exact h

theorem Cm.rewalk_wf {m : Cm} (h : m.ch.wf) : m.rewalk.ch.wf := ⟨h.1, h.2.1, h.2.2.1, by simp [Cm.rewalk]⟩

theorem Cm.nodeSet_wf {m : Cm} (h : m.ch.wf) (x : NodeSetArgs) (n : Node) : (m.nodeSet x n).ch.wf := by
  unfold Cm.nodeSet; dsimp only; split <;> exact Chain.updateNode_wf h _ _

theorem Cm.reinstate_wf {m : Cm} (h : m.ch.wf) (t : Nat) (p : Option Nat) : (m.reinstate t p).ch.wf := by
  unfold Cm.reinstate
  apply Cm.offerAttemptRoute_wf
  exact h

theorem Chain.offer_wf {ch : Chain} (h : ch.wf) (r : RunnerId) (cmd : ConfigCmd) : (ch.offer r cmd).wf := by
  unfold Chain.offer; split
  · next ht =>
      simp only [Chain.takesConfig, Bool.and_eq_true, decide_eq_true_eq] at ht
      exact Chain.enqueue_wf h ht.1 _ _
  · exact h

theorem Chain.withdrawClaim_wf {ch : Chain} (h : ch.wf) (r : RunnerId) : (ch.withdrawClaim r).wf := h

end Sys2Proof.Machine
end

