-- ==== Sys2Proof/Laws/Closed.lean ====
section
/-! SUPPORT. What one event may do inside the part, said once: a property closed under the named updates of the blocks is
kept by every operation. Frames and invariants are instances. -/

namespace Sys2Proof.Machine

/-- A grant changes who has the memory, not what it holds (R76). -/
theorem Pool.grant_memory (p : Pool) : p.grant.memory = p.memory := by
  unfold Pool.grant; split
  · rfl
  · split
    · rfl
    · split
      · rfl
      · split
        · split
          · split <;> rfl
          · rfl
        · rfl

/-- A property that every internal update keeps: chain records, held references, cue slots and still slots may change as
long as they stay well formed, segment memory stays as it is, and the Control Link takes reports, faults and the replies
of deferred requests. -/
structure Closed (P : State → Prop) : Prop where
  chain : ∀ s c ch, P s → ((s.chains.get c).wf → ch.wf) → P { s with chains := s.chains.set c ch }
  asm : ∀ s c m, P s → ((s.asm.get c).wf → m.wf) → P { s with asm := s.asm.set c m }
  intake : ∀ s x, P s → P { s with intake := x }
  pool : ∀ s p, P s → p.memory = s.pool.memory → P { s with pool := p }
  stills : ∀ s x, P s → (s.stills.wf → x.wf) → P { s with stills := x }
  cues : ∀ s x, P s → (s.cues.wf → x.wf) → P { s with cues := x }
  mail : ∀ s x, P s → P { s with mail := x }
  offer : ∀ s e b, P s → P { s with link := s.link.offer e b }
  fault : ∀ s f, P s → P { s with link := s.link.takeFault f }
  undefer : ∀ s k, P s → P { s with link := s.link.undefer k }

namespace Closed

variable {P : State → Prop}

theorem foldl {α : Type} (f : State → α → State) (hf : ∀ s x, P s → P (f s x)) (l : List α) {s : State} (hs : P s) :
    P (l.foldl f s) := by
  induction l generalizing s with
  | nil => exact hs
  | cons x l ih => exact ih (hf s x hs)

/-! ### Ops -/

theorem report (h : Closed P) {s : State} (hs : P s) (b : ReportBody) : P (s.report b) := h.offer s _ b hs

theorem raise (h : Closed P) {s : State} (hs : P s) (f : PartFault) (src : FaultSource) (n : Option NodeRef) :
    P (s.raise f src n) := h.fault s _ hs

theorem flowReport (h : Closed P) {s : State} (hs : P s) (k : FlowCause) : P (s.flowReport k) := h.report hs _

theorem checkPauseStart (h : Closed P) {s : State} (hs : P s) : P s.checkPauseStart := by
  unfold State.checkPauseStart; split
  · refine h.flowReport ?_ _; exact h.pool s _ hs rfl
  · exact hs

theorem evaluatePause (h : Closed P) {s : State} (hs : P s) : P s.evaluatePause := by
  unfold State.evaluatePause; split
  · split
    · exact h.pool s _ hs rfl
    · refine h.flowReport ?_ _; exact h.pool s _ hs rfl
  · exact hs

theorem grantMemory (h : Closed P) {s : State} (hs : P s) : P s.grantMemory :=
  h.intake { s with pool := s.pool.grant } _ (h.pool s _ hs s.pool.grant_memory)

/-! ### Chain Managers -/

theorem deliverCm (h : Closed P) (c : ChainId) {s : State} (hs : P s) (o : CmOut) : P (s.deliverCm c o) := by
  cases o with
  | report b => exact h.report hs b
  | fault f n => exact h.raise hs f _ n
  | clamp m => exact h.mail s _ hs
  | notice m => exact h.mail s _ hs
  | order o => exact h.mail s _ hs
  | faulted => exact h.mail s _ hs
  | disabled => exact h.undefer s _ hs

theorem manage (h : Closed P) (c : ChainId) (f : Cm → Cm) (hf : ∀ m : Cm, m.ch.wf → (f m).ch.wf) {s : State} (hs : P s) :
    P (s.manage c f) := by
  unfold State.manage; dsimp only
  refine foldl _ (fun _ o hs => ?_) _ ?_
  · exact h.deliverCm c hs o
  · exact h.chain s c _ hs (hf { id := c, ch := s.chains.get c, out := [] })

/-! ### Frame Assembler -/

theorem updAsm (h : Closed P) (c : ChainId) (f : AsmChain → AsmChain) (hf : ∀ m, m.wf → (f m).wf) {s : State} (hs : P s) :
    P (s.updAsm c f) := h.asm s c _ hs (hf _)

theorem updBundle (h : Closed P) (c : ChainId) (f : Bundle → Bundle) {s : State} (hs : P s) : P (s.updBundle c f) := by
  refine h.updAsm c _ ?_ hs
  exact fun _ hm => hm

theorem countAsm (h : Closed P) (k : AsmCtr) (c : ChainId) {s : State} (hs : P s) : P (s.countAsm k c) := by
  refine h.updAsm c _ ?_ hs
  exact fun _ hm => hm

theorem toFree (h : Closed P) (b : Nat) {s : State} (hs : P s) : P (s.toFree b) := h.pool s _ hs rfl

theorem giveUp (h : Closed P) (k : AsmCtr) (c : ChainId) {s : State} (hs : P s) (b : Nat) : P (s.giveUp k c b) :=
  h.countAsm k c (h.toFree b hs)

theorem updTile (h : Closed P) (c : ChainId) (a : Nat) (f : TileSettings → TileSettings) {s : State} (hs : P s) :
    P (s.updTile c a f) := h.chain s c _ hs fun hc => Chain.updateTile_wf hc a f

theorem countLate (h : Closed P) (c : ChainId) (a : Nat) {s : State} (hs : P s) : P (s.countLate c a) :=
  h.updTile c a _ hs

theorem setHeld_wf {m : AsmChain} (hm : m.wf) (a : Nat) (b : Option Nat) : (m.setHeld a b).wf := by
  simpa [AsmChain.setHeld, AsmChain.wf] using hm

theorem giveBack (h : Closed P) (c : ChainId) (n : Word16) {s : State} (hs : P s) : P (s.giveBack c n) := by
  unfold State.giveBack; dsimp only
  refine h.updAsm c _ (fun _ _ => ?_) ?_
  · exact List.length_replicate ..
  · refine foldl _ (fun _ _ hs => ?_) _ ?_
    · exact h.giveUp _ c hs _
    · refine foldl _ (fun _ _ hs => ?_) _ hs
      exact h.giveUp _ c hs _

theorem clearShare (h : Closed P) (c : ChainId) (n : Word16) {s : State} (hs : P s) : P (s.clearShare c n) := by
  unfold State.clearShare; split
  · have h1 : P ((s.giveBack c n).updAsm c fun m => { m with clearDue := false }) :=
      h.updAsm c _ (by exact fun _ hm => hm) (h.giveBack c n hs)
    dsimp only; split
    · have h2 := h.evaluatePause h1
      exact h.intake _ _ (h.undefer _ .flowClear h2)
    · exact h1
  · exact hs

theorem takePost_wf {m : AsmChain} (hm : m.wf) : m.takePost.wf := by
  unfold AsmChain.takePost; split <;> exact hm

theorem dropCut (h : Closed P) (c : ChainId) {s : State} (hs : P s) : P (s.dropCut c) := by
  unfold State.dropCut
  refine foldl _ (fun s x hs => ?_) _ hs
  split
  · split
    · refine h.updAsm c _ (fun _ hm => ?_) (h.toFree _ hs)
      exact setHeld_wf hm _ _
    · exact hs
  · exact hs

theorem sweep (h : Closed P) (c : ChainId) (b : Bool) (n : Word16) {s : State} (hs : P s) : P (s.sweep c b n) := by
  unfold State.sweep; dsimp only
  refine h.updAsm c _ ?_ ?_
  · exact fun _ hm => hm
  refine foldl _ (fun s x hs => ?_) _ hs
  split
  · exact hs
  · exact h.giveUp _ c hs _
  · exact h.giveUp _ c hs _
  · exact h.countLate c _ (h.giveUp _ c hs _)

theorem putOut (h : Closed P) (c : ChainId) (x : Block) {s : State} (hs : P s) : P (s.putOut c x) := h.updBundle c _ hs

theorem askRead (h : Closed P) (c : ChainId) (t : TileTurn) (b : Nat) (w : ReadWhy) {s : State} (hs : P s) :
    P (s.askRead c t b w).1 := h.pool s _ hs (Pool.grant_memory _)

theorem askHeld (h : Closed P) (c : ChainId) (t : TileTurn) (w : ReadWhy) {s : State} (hs : P s) :
    P (s.askHeld c t w).1 := by
  unfold State.askHeld; split
  · exact h.askRead c t _ w hs
  · exact hs

theorem fillGap (h : Closed P) (c : ChainId) (t : TileTurn) {s : State} (hs : P s) : P (s.fillGap c t).1 := by
  have h1 := h.countAsm .gaps c (h.updTile c t.address (fun x => { x with gapCount := bump16 x.gapCount }) hs)
  unfold State.fillGap; dsimp only; split
  · exact h.askHeld c t _ h1
  · exact h1
  · split
    · exact h1
    · exact h.askHeld c t _ h1

theorem supersede (h : Closed P) (c : ChainId) (a : Nat) {s : State} (hs : P s) : P (s.supersede c a) := by
  unfold State.supersede; split
  · exact h.updBundle c _ (h.giveUp _ c hs _)
  · exact hs

theorem tileTurn (h : Closed P) (c : ChainId) (t : TileTurn) (src : TileSource) {s : State} (hs : P s) :
    P (s.tileTurn c t src).1 := by
  unfold State.tileTurn; split
  · split
    · exact h.askRead c t _ _ hs
    · exact h.fillGap c t hs
  · exact h.supersede c _ hs
  · exact h.askHeld c t _ (h.supersede c _ hs)
  · exact h.supersede c _ hs

theorem runJobs (h : Closed P) (c : ChainId) (jobs : List Job) : ∀ {s : State}, P s → P (s.runJobs c jobs) := by
  induction jobs with
  | nil => intro s hs; exact h.updBundle c _ hs
  | cons j rest ih =>
      intro s hs
      cases j with
      | fixed x => exact ih (h.putOut c x hs)
      | tile a src br gap fb =>
          have h1 := h.tileTurn c { address := a, brightness := br, gap := gap, fallback := fb } src hs
          unfold State.runJobs; dsimp only; split
          · exact ih (h.putOut c _ h1)
          · exact h.updBundle c _ h1

theorem fallBack (h : Closed P) (c : ChainId) (br : Nat) {r : State × Option BundleWait} (hr : P r.1) :
    P (State.fallBack c br r) := by
  unfold State.fallBack; split
  · exact h.updBundle c _ hr
  · exact h.runJobs c _ (h.putOut c _ hr)

theorem sendImage (h : Closed P) (c : ChainId) (br : Nat) (im : List Byte) {s : State} (hs : P s) :
    P (s.sendImage c br im) := h.runJobs c _ (h.putOut c _ hs)

theorem startBundle (h : Closed P) (c : ChainId) (info : BundleInfo) (cmds : List Cmd) {s : State} (hs : P s) :
    P (s.startBundle c info cmds) := by
  unfold State.startBundle; dsimp only
  refine h.runJobs c _ (h.updAsm c _ ?_ ?_)
  · exact fun _ hm => hm
  · refine foldl _ (fun _ _ hs => ?_) _ hs
    exact h.giveUp _ c hs _

theorem orderTaken (h : Closed P) (c : ChainId) (n : Word16) {s : State} (hs : P s) : P (s.orderTaken c n) :=
  h.chain s c _ hs fun w => w

theorem takeOrder (h : Closed P) (c : ChainId) (o : FrameOrder) {s : State} (hs : P s) : P (s.takeOrder c o) := by
  have h1 := h.clearShare c o.frame (h.orderTaken c o.frame hs)
  have h2 : P (if o.kind = .disable then ((s.orderTaken c o.frame).clearShare c o.frame).giveBack c o.frame
      else (s.orderTaken c o.frame).clearShare c o.frame) := by
    split
    · exact h.giveBack c _ h1
    · exact h1
  have h3 := h.dropCut c (h.updAsm c _ (fun _ hm => takePost_wf hm) h2)
  unfold State.takeOrder; dsimp only
  split
  · exact h.startBundle c _ _ (h.sweep c _ _ h3)
  · exact h.sweep c _ _ h3
  · exact h.sweep c _ _ h3

theorem takeWaiting (h : Closed P) (c : ChainId) (os : List FrameOrder) : ∀ {s : State}, P s → P (s.takeWaiting c os) := by
  induction os with
  | nil =>
      intro s hs
      refine h.updAsm c _ ?_ hs
      exact fun _ hm => hm
  | cons o rest ih =>
      intro s hs
      unfold State.takeWaiting; split
      · refine h.updAsm c _ ?_ hs
        exact fun _ hm => hm
      · exact ih (h.takeOrder c o hs)

theorem resumeOrders (h : Closed P) (c : ChainId) {s : State} (hs : P s) : P (s.resumeOrders c) :=
  h.takeWaiting c _ hs

theorem memCheck (h : Closed P) (c : ChainId) (a b : Nat) (f : Word16) {s : State} (hs : P s) : P (s.memCheck c a b f) := by
  unfold State.memCheck; dsimp only
  refine h.countAsm _ c (h.raise ?_ _ _ _)
  refine h.pool _ _ ?_ rfl
  refine h.updBundle c _ (h.updAsm c _ (fun m hm => ?_) hs)
  split
  · exact setHeld_wf hm _ _
  · exact hm

theorem holdSegment (h : Closed P) (c : ChainId) (a b : Nat) {s : State} (hs : P s) : P (s.holdSegment c a b) := by
  have h1 := h.updAsm c (fun m => m.setHeld a (some b)) (fun _ hm => setHeld_wf hm _ _)
    (h.updBundle c (Bundle.dropSegment a) hs)
  unfold State.holdSegment; dsimp only
  split
  · exact h.countAsm _ c (h.toFree _ h1)
  · exact h.countAsm _ c h1

theorem readDone (h : Closed P) (c : ChainId) (f : Word16) (t : TileTurn) (b : Nat) (w : ReadWhy) (ok : Bool) {s : State}
    (hs : P s) : P (s.readDone c f t b w ok) := by
  have h1 := h.memCheck c t.address b f hs
  unfold State.readDone; split
  · dsimp only; split
    · exact h.sendImage c _ _ (h.holdSegment c _ _ hs)
    · exact h.sendImage c _ _ hs
    · exact h.sendImage c _ _ hs
  · dsimp only; split
    · exact h.fallBack c _ (h.fillGap c t h1)
    · exact h.fallBack c _ h1
    · exact h.fallBack c _ h1

theorem finishStop (h : Closed P) (c : ChainId) {s : State} (hs : P s) : P (s.finishStop c) := by
  unfold State.finishStop; dsimp only
  refine h.takeWaiting c _ (h.giveBack c _ (h.updAsm c _ ?_ ?_))
  · exact fun _ hm => hm
  · refine foldl _ (fun _ _ hs => ?_) _ hs
    exact h.giveUp _ c hs _

theorem finishRead (h : Closed P) (c : ChainId) (b : Nat) (ok : Bool) {s : State} (hs : P s) : P (s.finishRead c b ok) := by
  unfold State.finishRead; split
  · split
    · exact h.finishStop c hs
    · split
      · exact h.readDone c _ _ _ _ _ hs
      · exact hs
      · exact hs
      · exact hs
  · exact hs

/-! ### Stills -/

/-- A still slot whose read mark alone changes keeps its reservation and its form. -/
theorem setSlot_mark_wf {st : Stills} (hst : st.wf) (r : StillRef) {data : List Byte} {x : Bool}
    (hr : st.slot r = .ready data x) (y : Bool) (reads : List StillRef) :
    ({ st.setSlot r (.ready data y) with reads := reads } : Stills).wf := by
  obtain ⟨h1, h2, h3⟩ := hst
  refine ⟨by simpa [Stills.setSlot] using h1, ?_, ?_⟩
  · intro z hz
    rcases List.mem_or_eq_of_mem_set hz with hz | rfl
    · exact h2 z hz
    · unfold Stills.slot at hr
      by_cases hi : r.index < st.slots.length
      · rw [List.getD_eq_getElem _ _ hi] at hr
        have := h2 _ (List.getElem_mem hi)
        rw [hr] at this
        exact this
      · rw [List.getD_eq_default _ _ (by omega)] at hr; cases hr
  · refine le_of_eq_of_le ?_ h3
    unfold Stills.slot at hr
    by_cases hi : r.index < st.slots.length
    · rw [List.getD_eq_getElem _ _ hi] at hr
      simp only [Stills.reserved, Stills.setSlot, List.map_set]
      congr 1
      refine List.ext_getElem (by simp) fun i hi1 hi2 => ?_
      rw [List.getElem_set]
      split
      · next e => subst e; rw [List.getElem_map, hr]; rfl
      · rfl
    · rw [List.getD_eq_default _ _ (by omega)] at hr; cases hr

theorem withdraw_wf {st : Stills} (hst : st.wf) (r : StillRef) : (st.withdraw r).wf := by
  unfold Stills.withdraw; dsimp only; split
  · next data x hx => exact setSlot_mark_wf (st := { st with reads := st.reads.erase r }) hst r hx false _
  · exact hst
  · exact hst

theorem stopBundle (h : Closed P) (c : ChainId) (b : Bundle) {s : State} (hs : P s) : P (s.stopBundle c b) := by
  have h1 := h.updBundle c (fun b => { b with stopping := true }) hs
  unfold State.stopBundle; dsimp only; split
  · split
    · exact h1
    · exact h.finishStop c (h.pool s _ hs rfl)
  · exact h.finishStop c hs
  · split
    · exact h1
    · exact h.finishStop c (h.stills s _ hs fun w => withdraw_wf w _)
  · exact h.finishStop c hs

theorem takeStillRead (h : Closed P) (c : ChainId) (a br p : Nat) (g : Bool) {s : State} (hs : P s) :
    P (s.takeStillRead c a br p g) := by
  unfold State.takeStillRead; dsimp only; split
  · next data x hx => exact h.updBundle c _ (h.stills s _ hs fun w => setSlot_mark_wf w _ hx true _)
  · split
    · exact h.fallBack c _ (h.askHeld c _ _ hs)
    · exact h.fallBack c _ (h.countAsm _ c hs)
  · split
    · exact h.fallBack c _ (h.askHeld c _ _ hs)
    · exact h.fallBack c _ (h.countAsm _ c hs)

theorem endStillRead (h : Closed P) (r : StillRef) (rest : List StillRef) {s : State} (hs : P s) :
    P (s.endStillRead r rest) := by
  refine h.stills s _ hs fun w => ?_
  split
  · next data x hx => exact setSlot_mark_wf w r hx false rest
  · exact w
  · exact w

/-! ### Segment Intake and Buffer Pool -/

theorem discard (h : Closed P) (e : EntryId) (k : IntakeCtr) {s : State} (hs : P s) : P (s.discard e k) :=
  h.intake _ _ (h.intake s _ hs)

theorem truncate (h : Closed P) {s : State} (hs : P s) : P s.truncate := by
  unfold State.truncate; split
  · exact h.discard _ _ hs
  · exact hs

theorem beginSegment (h : Closed P) {s : State} (hs : P s) : P s.beginSegment := by
  unfold State.beginSegment; split
  · exact h.raise (h.intake s _ hs) _ _ _
  · exact h.intake _ _ (h.intake s _ hs)

theorem takeHeader (h : Closed P) (e : EntryId) (t : Nat) (c a : Byte) (f l : Word16) {s : State} (hs : P s) :
    P (s.takeHeader e t c a f l) := by
  unfold State.takeHeader; split
  · exact h.discard _ _ hs
  · split
    · exact h.intake s _ hs
    · exact h.discard _ _ hs

theorem intakeTick (h : Closed P) {s : State} (hs : P s) : P s.intakeTick := by
  unfold State.intakeTick; split
  · split
    · exact h.raise (h.discard _ _ hs) _ _ _
    · exact h.intake s _ hs
  · exact hs

theorem noBuffer (h : Closed P) (e : EntryId) (x : SegHeader) {s : State} (hs : P s) : P (s.noBuffer e x) := by
  have h1 := h.discard e .nobuf hs
  unfold State.noBuffer; dsimp only; split
  · exact h1
  · refine h.raise ?_ _ _ _
    exact h.pool _ _ h1 rfl

theorem queueStore (h : Closed P) (e : EntryId) (x : SegHeader) (pl : List Byte) (b : Nat) {s : State} (hs : P s) :
    P (s.queueStore e x pl b) :=
  h.grantMemory (h.pool _ _ (h.checkPauseStart (h.intake _ _ (h.pool s _ hs rfl))) rfl)

theorem file (h : Closed P) (e : EntryId) (x : SegHeader) (pl : List Byte) {s : State} (hs : P s) : P (s.file e x pl) := by
  unfold State.file; split
  · exact h.discard _ _ hs
  · split
    · exact h.discard _ _ hs
    · split
      · exact h.countLate _ _ (h.discard _ _ hs)
      · split
        · exact h.discard _ _ hs
        · split
          · exact h.queueStore _ _ _ _ hs
          · exact h.noBuffer _ _ hs

theorem endSegment (h : Closed P) (e : EntryId) (x : SegHeader) (pl : List Byte) (w : Word32) {s : State} (hs : P s) :
    P (s.endSegment e x pl w) := by
  unfold State.endSegment; split
  · exact h.file _ _ _ hs
  · exact h.raise (h.discard _ _ hs) _ _ _

theorem dropStored (h : Closed P) (k : IntakeCtr) (b : Nat) {s : State} (hs : P s) : P (s.dropStored k b) :=
  h.intake _ _ (h.pool s _ hs rfl)

theorem fileBuffer (h : Closed P) (x : SegHeader) (b : Nat) {s : State} (hs : P s) : P (s.fileBuffer x b) := by
  have h1 := h.pool s { s.pool with free := s.pool.free.filter fun f => decide (f.buffer ≠ b) } hs rfl
  unfold State.fileBuffer; dsimp only
  refine h.intake _ _ (h.updAsm _ _ ?_ ?_)
  · exact fun _ hm => hm
  split
  · exact h.intake _ _ (h.toFree _ h1)
  · exact h1

theorem recheck (h : Closed P) (x : SegHeader) (b : Nat) {s : State} (hs : P s) : P (s.recheck x b) := by
  unfold State.recheck; split
  · exact h.dropStored _ _ hs
  · split
    · exact h.countLate _ _ (h.dropStored _ _ hs)
    · split
      · exact h.dropStored _ _ hs
      · exact h.fileBuffer _ _ hs

theorem flushEntry (h : Closed P) (e : EntryId) {s : State} (hs : P s) : P (s.flushEntry e) := by
  unfold State.flushEntry; split
  · exact hs
  · exact h.discard _ _ hs
  · exact h.discard _ _ (h.pool s _ hs rfl)
  · exact h.intake _ _ (h.intake s _ hs)
  · exact hs

theorem nextTest (h : Closed P) (sc : Scrub) {s : State} (hs : P s) : P (s.nextTest sc) := by
  unfold State.nextTest; split
  · refine h.report ?_ _
    exact h.pool s _ hs rfl
  · exact h.pool s _ hs rfl

/-! ### Runners -/

theorem updRunner (h : Closed P) (r : RunnerId) (f : Runner → Runner) {s : State} (hs : P s) : P (s.updRunner r f) :=
  h.cues s _ hs fun w => w

theorem setRun (h : Closed P) (r : RunnerId) (x : RunState) {s : State} (hs : P s) : P (s.setRun r x) :=
  h.updRunner r _ hs

theorem updSteps_wf {s : State} (w : s.cues.wf) (k : Nat) (f : List SlotStep → List SlotStep)
    (hf : ∀ l, (f l).length = l.length) : (s.updSteps k f).cues.wf := by
  obtain ⟨h1, h2⟩ := w
  refine ⟨by simpa [State.updSteps] using h1, fun l hl => ?_⟩
  rcases List.mem_or_eq_of_mem_set hl with hl | he
  · exact h2 l hl
  · obtain ⟨l0, hl0, rfl⟩ := Option.map_eq_some_iff.1 he.symm
    rw [hf l0]
    refine h2 l0 ?_
    unfold State.steps at hl0
    by_cases hi : k < s.cues.slots.length
    · rw [List.getD_eq_getElem _ _ hi] at hl0
      exact hl0 ▸ List.getElem_mem hi
    · rw [List.getD_eq_default _ _ (by omega)] at hl0; cases hl0

theorem updSteps (h : Closed P) (k : Nat) (f : List SlotStep → List SlotStep) (hf : ∀ l, (f l).length = l.length)
    {s : State} (hs : P s) : P (s.updSteps k f) := h.cues s _ hs fun w => updSteps_wf w k f hf

theorem mark (h : Closed P) (r : RunnerId) (k : Nat) (o : MarkOutcome) {s : State} (hs : P s) : P (s.mark r k o) := by
  unfold State.mark; split
  · exact hs
  · exact h.updSteps _ _ (fun l => by simp [markStep]) hs

theorem clearMarks (h : Closed P) (k : Nat) {s : State} (hs : P s) : P (s.clearMarks k) :=
  h.updSteps _ _ (fun l => by simp) hs

theorem cueReport (h : Closed P) (k : CueCause) (r : RunnerId) {s : State} (hs : P s) : P (s.cueReport k r) :=
  h.report hs _

theorem abort (h : Closed P) (r : RunnerId) (k : AbortReason) (e : Option Evicted) {s : State} (hs : P s) :
    P (s.abort r k e) := by
  unfold State.abort; dsimp only
  refine h.cueReport _ _ (h.setRun r _ ?_)
  split
  · exact h.chain s _ _ hs fun w => Chain.withdrawClaim_wf w r
  all_goals exact hs

theorem offerAll (h : Closed P) (r : RunnerId) (cmd : ConfigCmd) (refs : List NodeRef) : ∀ {s : State}, P s →
    P (s.offerAll r cmd refs).1 := by
  induction refs with
  | nil => intro s hs; exact hs
  | cons x rest ih =>
      intro s hs
      have h1 := h.chain s x.chain _ hs fun w => Chain.offer_wf w r (cmd.readdress x.address)
      unfold State.offerAll; split
      · dsimp only; split
        · exact ih h1
        · exact h.setRun r _ h1
      · exact ih hs

theorem syncDone (h : Closed P) (r : RunnerId) (k : Nat) (f e : Word16) {s : State} (hs : P s) : P (s.syncDone r k f e) := by
  unfold State.syncDone; split
  · exact h.mark r k _ hs
  · exact h.cueReport _ _ (h.mark r k _ hs)

theorem offerStep (h : Closed P) (r : RunnerId) (k : Nat) (cmd : ConfigCmd) (refs : List NodeRef) {s : State} (hs : P s) :
    P (s.offerStep r k cmd refs).1 := by
  have h1 := h.offerAll r cmd refs hs
  unfold State.offerStep; dsimp only; split
  · exact h.mark r k _ h1
  · exact h1

theorem passLost (h : Closed P) (r : RunnerId) {s : State} (hs : P s) : P (s.passLost r) := by
  have h0 := h.chain s 0 (s.chains.c0.passLost r) hs fun w => w
  have h1 := h.chain _ 1 (s.chains.c1.passLost r) h0 fun w => w
  have h2 := h.chain _ 2 (s.chains.c2.passLost r) h1 fun w => w
  exact h.chain _ 3 (s.chains.c3.passLost r) h2 fun w => w

theorem passNotices (h : Closed P) (r : RunnerId) {s : State} (hs : P s) : P (s.passNotices r) :=
  h.mail _ _ (h.passLost r hs)

theorem reachExpect (h : Closed P) (r : RunnerId) (k : Nat) (sel : Selector) (w : Nat) {s : State} (hs : P s) :
    P (s.reachExpect r k sel w).1 := by
  unfold State.reachExpect; dsimp only; split
  · exact h.mark r k _ hs
  · exact h.setRun r _ (h.passNotices r hs)

theorem takeStep (h : Closed P) (r : RunnerId) (k : Nat) (st : CueStep) {s : State} (hs : P s) :
    P (s.takeStep r k st).1 := by
  unfold State.takeStep; split
  · exact h.mark r k _ (h.mail s _ hs)
  · exact h.mark r k _ (h.mail s _ hs)
  · exact h.setRun r _ hs
  · split
    · exact h.setRun r _ hs
    · exact h.syncDone r k _ _ hs
  · exact h.setRun r _ hs
  · exact h.offerStep r k _ _ hs
  · exact h.offerStep r k _ _ hs
  · exact h.reachExpect r k _ _ hs
  · exact h.setRun r _ (h.cueReport _ r hs)
  · exact h.cueReport _ r (h.setRun r _ (h.mark r k _ hs))
  · exact h.cueReport _ r (h.setRun r _ (h.mark r k _ hs))

theorem runFrom (h : Closed P) (r : RunnerId) (fuel : Nat) : ∀ (k : Nat) {s : State}, P s → P (s.runFrom r fuel k) := by
  induction fuel with
  | zero => intro k s hs; exact hs
  | succ fuel ih =>
      intro k s hs
      have h1 := h.updRunner r (fun u => { u with step := some k }) hs
      unfold State.runFrom; dsimp only; split
      · exact h1
      · split
        · exact ih _ (h.takeStep r k _ h1)
        · exact h.takeStep r k _ h1

theorem release (h : Closed P) (r : RunnerId) (k : Nat) {s : State} (hs : P s) : P (s.release r k) :=
  h.runFrom r _ _ hs

theorem completeWait (h : Closed P) (r : RunnerId) (o : MarkOutcome) {s : State} (hs : P s) : P (s.completeWait r o) :=
  h.release r _ (h.mark r _ o hs)

theorem expectFails (h : Closed P) (r : RunnerId) (k : ExpectFail) {s : State} (hs : P s) : P (s.expectFails r k) := by
  unfold State.expectFails; split
  · exact hs
  · exact h.abort r _ _ (h.raise hs _ _ _)
  · exact h.release r _ (h.cueReport _ r (h.mark r _ _ hs))

theorem takeComplete (h : Closed P) (c : ChainId) {s : State} (hs : P s) (r : RunnerId) : P (s.takeComplete c r) := by
  unfold State.takeComplete; split
  · split
    · split
      · split
        · exact h.completeWait r _ hs
        · exact hs
      · exact hs
    · exact hs
  all_goals exact hs

theorem takeLost (h : Closed P) (x : NodeRef) (k : KindName) (b : Bool) (t : Three Bool) {s : State} (hs : P s)
    (r : RunnerId) : P (s.takeLost x k b t r) := by
  unfold State.takeLost; split
  · split
    · exact h.expectFails r _ hs
    · exact hs
  all_goals exact hs

theorem takeRoom (h : Closed P) (c : ChainId) {s : State} (hs : P s) (r : RunnerId) : P (s.takeRoom c r) := by
  unfold State.takeRoom; split
  · split
    · dsimp only; split
      · exact h.completeWait r _ (h.offerAll r _ _ hs)
      · exact h.offerAll r _ _ hs
    · exact hs
  all_goals exact hs

theorem takeEviction (h : Closed P) (c : ChainId) (r : RunnerId) (cmd : Cmd) {s : State} (hs : P s) :
    P (s.takeEviction c r cmd) := by
  unfold State.takeEviction; dsimp only; split
  · exact h.cueReport _ r hs
  all_goals exact h.abort r _ _ hs

theorem firstExpiry (h : Closed P) (r : RunnerId) (w : Nat) {s : State} (hs : P s) : P (s.firstExpiry r w) :=
  h.setRun r _ (h.cueReport _ r hs)

theorem secondExpiry (h : Closed P) (r : RunnerId) (k : Option Nat) {s : State} (hs : P s) : P (s.secondExpiry r k) := by
  unfold State.secondExpiry; split
  · exact h.release r _ (h.mark r _ _ (h.raise hs _ _ _))
  · exact h.abort r _ _ hs

theorem tickWait (h : Closed P) (r : RunnerId) (n : Word16) (w : Wait) {s : State} (hs : P s) : P (s.tickWait r n w) := by
  unfold State.tickWait; split
  · split
    · exact h.completeWait r _ hs
    · exact h.setRun r _ hs
  · split
    · exact hs
    · exact h.release r _ (h.syncDone r _ _ _ hs)
  · exact hs
  · exact hs
  · split
    · split
      · exact h.expectFails r _ hs
      · exact hs
    · exact h.setRun r _ hs
  · split
    · split
      · split
        · exact h.secondExpiry r _ hs
        · exact h.firstExpiry r _ hs
      · exact hs
    · exact h.setRun r _ hs

theorem tickRunner (h : Closed P) (r : RunnerId) (n : Word16) {s : State} (hs : P s) : P (s.tickRunner r n) := by
  unfold State.tickRunner; split
  · exact h.tickWait r n _ hs
  all_goals exact hs

theorem takeOldest (h : Closed P) (b : Nat) {s : State} (hs : P s) (r : RunnerId) : P (s.takeOldest b r) := by
  unfold State.takeOldest; split
  · split
    · exact h.tickRunner r _ (h.mail s _ hs)
    · exact hs
  · exact hs

end Closed

end Sys2Proof.Machine
end

