-- ==== Sys2Proof/Laws/Memory.lean ====
section
/-! SUPPORT. Segment memory: every operation keeps the canonical form, and what a byte reads as after a write. -/

namespace Sys2Proof.Machine.Memory

theorem wf_nil : wf [] := ⟨List.Pairwise.nil, by simp⟩

theorem reset_wf : wf State.reset.pool.memory := wf_nil

/-- Every address a write leaves listed is the written one or was listed before. -/
theorem mem_write {m : List Host.Cell} {a : Nat} {v : Byte} {c : Host.Cell} (h : c ∈ write m a v) :
    (c = (a, v) ∧ v ≠ unlisted) ∨ c ∈ m := by
  induction m with
  | nil => by_cases hv : v = unlisted <;> simp_all [write]
  | cons x xs ih =>
      obtain ⟨k, w⟩ := x
      simp only [write] at h
      split_ifs at h <;> simp only [List.mem_cons] at h ⊢ <;> tauto

/-- A write keeps the canonical form. -/
theorem write_wf {m : List Host.Cell} (h : wf m) (a : Nat) (v : Byte) : wf (write m a v) := by
  obtain ⟨hp, hn⟩ := h
  refine ⟨?_, fun c hc => ?_⟩
  · induction m with
    | nil => by_cases hv : v = unlisted <;> simp [write, hv]
    | cons x xs ih =>
        obtain ⟨k, w⟩ := x
        obtain ⟨hx, hxs⟩ := List.pairwise_cons.1 hp
        simp only [write]
        split_ifs with h1 h2 h3 h4
        · exact hp
        · refine List.pairwise_cons.2 ⟨fun y hy => ?_, hp⟩
          rcases List.mem_cons.1 hy with rfl | hy
          · exact h1
          · exact h1.trans (hx y hy)
        · exact hxs
        · subst h3; exact List.pairwise_cons.2 ⟨hx, hxs⟩
        · refine List.pairwise_cons.2
            ⟨fun y hy => ?_, ih hxs (fun c hc => hn c (List.mem_cons_of_mem _ hc))⟩
          rcases mem_write hy with ⟨rfl, -⟩ | hy
          · show k < a
            omega
          · exact hx y hy
  · rcases mem_write hc with ⟨rfl, hv⟩ | hm
    · exact hv
    · exact hn c hm

/-- The written byte reads as written. -/
theorem read_write_same {m : List Host.Cell} (h : wf m) (a : Nat) (v : Byte) : read (write m a v) a = v := by
  obtain ⟨hp, -⟩ := h
  induction m with
  | nil => by_cases hv : v = unlisted <;> simp [write, read, hv]
  | cons x xs ih =>
      obtain ⟨k, w⟩ := x
      obtain ⟨hx, hxs⟩ := List.pairwise_cons.1 hp
      have tail_none : ∀ l : List Host.Cell, (∀ y ∈ l, a < y.1) → read l a = unlisted := by
        intro l
        induction l with
        | nil => intro _; rfl
        | cons y ys ihy =>
            intro hy
            have : ¬ y.1 = a := by have := hy y (by simp); omega
            simp [read, this, ihy (fun z hz => hy z (by simp [hz]))]
      simp only [write]
      split_ifs with h1 h2 h3 h4
      · rw [tail_none _ (fun y hy => ?_), h2]
        rcases List.mem_cons.1 hy with rfl | hy
        · exact h1
        · exact h1.trans (hx y hy)
      · simp [read]
      · rw [tail_none _ (fun y hy => h3 ▸ hx y hy), h4]
      · simp [read]
      · have : ¬ k = a := fun e => h3 e.symm
        simp [read, this, ih hxs]

/-- Every other byte reads as before. -/
theorem read_write_ne {m : List Host.Cell} (h : wf m) {a b : Nat} (hb : b ≠ a) (v : Byte) :
    read (write m a v) b = read m b := by
  obtain ⟨hp, -⟩ := h
  induction m with
  | nil => by_cases hv : v = unlisted <;> simp [write, read, hv, Ne.symm hb]
  | cons x xs ih =>
      obtain ⟨k, w⟩ := x
      obtain ⟨-, hxs⟩ := List.pairwise_cons.1 hp
      simp only [write]
      split_ifs with h1 h2 h3 h4
      · rfl
      · simp [read, Ne.symm hb]
      · have : ¬ k = b := fun e => hb (e.symm.trans h3.symm)
        simp [read, this]
      · have : ¬ k = b := fun e => hb (e.symm.trans h3.symm)
        simp [read, this, Ne.symm hb]
      · by_cases e : k = b
        · simp [read, e]
        · simp [read, e, ih hxs]

/-- Storing bytes keeps the canonical form. -/
theorem writeBytes_wf (bytes : List Byte) : ∀ {m : List Host.Cell}, wf m → ∀ base, wf (writeBytes m base bytes) := by
  induction bytes with
  | nil => intro m h base; exact h
  | cons b bs ih => intro m h base; exact ih (write_wf h base b) (base + 1)

/-- A byte below or beyond the bytes stored reads as before. -/
theorem read_writeBytes_outside (bytes : List Byte) : ∀ {m : List Host.Cell}, wf m → ∀ {base a : Nat},
    (a < base ∨ base + bytes.length ≤ a) → read (writeBytes m base bytes) a = read m a := by
  induction bytes with
  | nil => intro m _ base a _; rfl
  | cons b bs ih =>
      intro m h base a ha
      simp only [List.length_cons] at ha
      rw [writeBytes, ih (write_wf h base b) (by omega), read_write_ne h (by omega)]

/-- The bytes stored read as stored. -/
theorem read_writeBytes_inside (bytes : List Byte) : ∀ {m : List Host.Cell}, wf m → ∀ {base i : Nat} (hi : i < bytes.length),
    read (writeBytes m base bytes) (base + i) = bytes[i] := by
  induction bytes with
  | nil => intro m _ base i hi; simp at hi
  | cons b bs ih =>
      intro m h base i hi
      cases i with
      | zero =>
          show read (writeBytes (write m base b) (base + 1) bs) base = b
          rw [read_writeBytes_outside bs (write_wf h base b) (by omega), read_write_same h]
      | succ i =>
          have hi' : i < bs.length := by simpa using hi
          have e : base + (i + 1) = base + 1 + i := by omega
          rw [writeBytes, e, ih (write_wf h base b) hi']
          rfl

/-- A store keeps the canonical form (R77). -/
theorem stored_wf {p : Pool} (h : wf p.memory) (b : Nat) (payload : List Byte) : wf (p.stored b payload).memory :=
  writeBytes_wf payload h _

end Sys2Proof.Machine.Memory
end

