-- ==== Sys2Proof/Laws/Ops.lean ====
section
/-! SUPPORT. The shared operations of the Control Link's side, each said once: how a command ends, how a request is taken,
what the transmitter does, and that every bound of the link is kept. -/

namespace Sys2Proof.Machine

/-! ### The end of a command -/

theorem done_eq (s : State) : done s = .next s.ended := rfl

theorem notDue_eq (s : State) : notDue s = .next s := rfl

@[simp] theorem State.ended_pending (s : State) : s.ended.pending = s.pending := rfl
@[simp] theorem State.ended_ref (s : State) : s.ended.ref = s.ref := rfl
@[simp] theorem State.ended_chains (s : State) : s.ended.chains = s.chains := rfl
@[simp] theorem State.ended_intake (s : State) : s.ended.intake = s.intake := rfl
@[simp] theorem State.ended_pool (s : State) : s.ended.pool = s.pool := rfl
@[simp] theorem State.ended_asm (s : State) : s.ended.asm = s.asm := rfl
@[simp] theorem State.ended_stills (s : State) : s.ended.stills = s.stills := rfl
@[simp] theorem State.ended_scene (s : State) : s.ended.scene = s.scene := rfl
@[simp] theorem State.ended_tally (s : State) : s.ended.tally = s.tally := rfl
@[simp] theorem State.ended_cues (s : State) : s.ended.cues = s.cues := rfl
@[simp] theorem State.ended_mail (s : State) : s.ended.mail = s.mail := rfl
@[simp] theorem State.ended_link (s : State) : s.ended.link = s.link.pump := rfl

@[simp] theorem State.taken_pending (l : List Request) (s : State) : (s.taken l).pending = s.pending := rfl
@[simp] theorem State.taken_ref (l : List Request) (s : State) : (s.taken l).ref = s.ref := rfl
@[simp] theorem State.taken_chains (l : List Request) (s : State) : (s.taken l).chains = s.chains := rfl
@[simp] theorem State.taken_intake (l : List Request) (s : State) : (s.taken l).intake = s.intake := rfl
@[simp] theorem State.taken_pool (l : List Request) (s : State) : (s.taken l).pool = s.pool := rfl
@[simp] theorem State.taken_asm (l : List Request) (s : State) : (s.taken l).asm = s.asm := rfl
@[simp] theorem State.taken_stills (l : List Request) (s : State) : (s.taken l).stills = s.stills := rfl
@[simp] theorem State.taken_scene (l : List Request) (s : State) : (s.taken l).scene = s.scene := rfl
@[simp] theorem State.taken_tally (l : List Request) (s : State) : (s.taken l).tally = s.tally := rfl
@[simp] theorem State.taken_cues (l : List Request) (s : State) : (s.taken l).cues = s.cues := rfl
@[simp] theorem State.taken_mail (l : List Request) (s : State) : (s.taken l).mail = s.mail := rfl

/-! ### Requests -/

/-- The request that waits is taken (R179). -/
theorem takeRequest_of {row : ReqRow} {q : Request} {rest : List Request} {s : State} (h : Waits row q rest s)
    (take : Request → State → State) : s.takeRequest row take = .next (take q (s.taken rest)).ended := by
  obtain ⟨h1, h2, h3⟩ := h
  unfold State.takeRequest
  rw [h1]
  dsimp only
  rw [if_pos ⟨h2, h3⟩]
  rfl

/-- A request command takes the request that waits for it, or has no event. -/
theorem takeRequest_or (row : ReqRow) (take : Request → State → State) (s : State) :
    s.takeRequest row take = .next s ∨
      ∃ q rest, Waits row q rest s ∧ s.takeRequest row take = .next (take q (s.taken rest)).ended := by
  unfold State.takeRequest
  split
  · next q rest hq =>
      split
      · next h => exact .inr ⟨q, rest, ⟨hq, h.1, h.2⟩, rfl⟩
      · exact .inl rfl
  · exact .inl rfl

/-- A request whose body gives its operands. -/
theorem takeWith_some {α : Type} {row : ReqRow} {q : Request} {rest : List Request} {s : State} (h : Waits row q rest s)
    {parse : List Byte → Option α} {x : α} (hx : parse q.body = some x) (take : Request → α → State → State) :
    s.takeWith row parse take = .next (take q x (s.taken rest)).ended := by
  unfold State.takeWith
  rw [takeRequest_of h]
  simp only [hx]

/-- A request whose body gives no operands is answered BAD_ARG (R179). -/
theorem takeWith_none {α : Type} {row : ReqRow} {q : Request} {rest : List Request} {s : State} (h : Waits row q rest s)
    {parse : List Byte → Option α} (hx : parse q.body = none) (take : Request → α → State → State) :
    s.takeWith row parse take = .next ((s.taken rest).replied q .badArg .empty) := by
  unfold State.takeWith
  rw [takeRequest_of h]
  simp only [hx]
  rfl

/-! ### The transmitter (R182) -/

theorem Link.pump_busy {l : Link} {x : Sending} (h : l.tx = some x) : l.pump = l := by
  simp [Link.pump, h]

theorem Link.pump_norate {l : Link} (h : l.rate = none) : l.pump = l := by
  unfold Link.pump; split
  · next hr => rw [h] at hr; cases hr
  · rfl

theorem Link.pump_reply {l : Link} (h : l.tx = none) {n : Nat} (hr : l.rate = some n) {r : Reply} {rest : List Reply}
    (hq : l.ready = r :: rest) : l.pump = { l with ready := rest, tx := some (.reply r) } := by
  simp [Link.pump, h, hr, hq]

theorem Link.pump_report {l : Link} (h : l.tx = none) {n : Nat} (hr : l.rate = some n) (hq : l.ready = [])
    (hs : l.resetting = false) {r : Report} {rest : List Report} (hp : l.reports = r :: rest) :
    l.pump = { l with reports := rest, tx := some (.report r) } := by
  simp [Link.pump, h, hr, hq, hs, hp]

/-- All that the transmitter can do. -/
theorem Link.pump_cases (l : Link) :
    l.pump = l ∨ (l.tx = none ∧ ∃ r rest, l.ready = r :: rest ∧ l.pump = { l with ready := rest, tx := some (.reply r) }) ∨
      (l.tx = none ∧ l.ready = [] ∧ ∃ r rest, l.reports = r :: rest ∧
        l.pump = { l with reports := rest, tx := some (.report r) }) := by
  unfold Link.pump
  split
  · next ht hr =>
      split
      · next r rest hq => exact .inr (.inl ⟨ht, r, rest, hq, rfl⟩)
      · next hq =>
          split
          · exact .inl rfl
          · split
            · next r rest hp => exact .inr (.inr ⟨ht, hq, r, rest, hp, rfl⟩)
            · exact .inl rfl
  · exact .inl rfl

theorem Link.pump_wfWith {k : Nat} {l : Link} (h : l.wfWith k) : l.pump.wfWith k := by
  obtain ⟨h1, h2, h3, h4⟩ := h
  rcases l.pump_cases with e | ⟨ht, r, rest, hq, e⟩ | ⟨ht, hq, r, rest, hp, e⟩
  · rw [e]; exact ⟨h1, h2, h3, h4⟩
  · rw [e]
    refine ⟨h1, ?_, ?_, h4⟩
    · simp only [Link.placesHeld, ht, hq] at h2 ⊢
      cases hr : r.refusal <;> simp [hr] at h2 ⊢ <;> omega
    · simp only [Link.refusals, ht, hq] at h3 ⊢
      cases hr : r.refusal <;> simp [hr] at h3 ⊢ <;> omega
  · rw [e]
    refine ⟨?_, ?_, ?_, h4⟩
    · rw [hp, List.length_cons] at h1
      show rest.length ≤ _
      omega
    · simpa only [Link.placesHeld, ht] using h2
    · simpa only [Link.refusals, ht] using h3

/-! ### Reports, faults and replies (R180, R182, R186) -/

/-- An offered report touches the report queue, the sequence number and the lost-report count alone (R182). -/
theorem Link.offer_cases (e : Word16) (b : ReportBody) (l : Link) :
    (l.admits b = false ∧ l.offer e b = l) ∨
      (l.admits b = true ∧ l.reports.length < reportQueueSize ∧
        l.offer e b = { l with seq := l.seq + 1, reports := l.reports ++ [{ seq := l.seq, frame := e, body := b }] }) ∨
      (l.admits b = true ∧ ¬ l.reports.length < reportQueueSize ∧
        l.offer e b = { l with seq := l.seq + 1, lost := bump16 l.lost }) := by
  unfold Link.offer
  cases ha : l.admits b
  · exact .inl ⟨rfl, by simp⟩
  · by_cases hl : l.reports.length < reportQueueSize
    · exact .inr (.inl ⟨rfl, hl, by simp [hl]⟩)
    · exact .inr (.inr ⟨rfl, hl, by simp [hl]⟩)

theorem Link.offer_wfWith {k : Nat} {l : Link} (h : l.wfWith k) (e : Word16) (b : ReportBody) :
    (l.offer e b).wfWith k := by
  obtain ⟨h1, h2, h3, h4⟩ := h
  rcases l.offer_cases e b with ⟨-, he⟩ | ⟨-, hl, he⟩ | ⟨-, -, he⟩ <;> rw [he]
  · exact ⟨h1, h2, h3, h4⟩
  · refine ⟨?_, h2, h3, h4⟩
    simp only [List.length_append, List.length_singleton]
    omega
  · exact ⟨h1, h2, h3, h4⟩

theorem bump16_pos (n : Nat) : 0 < bump16 n := by unfold bump16; split <;> omega

/-- A fault is captured when the count is 0, counted, and a FAULT report is offered (R186). -/
theorem Link.takeFault_wfWith {k : Nat} {l : Link} (h : l.wfWith k) (f : FaultRecord) : (l.takeFault f).wfWith k := by
  obtain ⟨h1, h2, h3, h4⟩ := h
  refine Link.offer_wfWith (l := { l with captured := if decide (l.faultCount = 0) then some f else l.captured,
                                          faultCount := bump16 l.faultCount }) ⟨h1, h2, h3, ?_⟩ _ _
  have hp := bump16_pos l.faultCount
  by_cases h0 : l.faultCount = 0
  · simp [h0, bump16]
  · simp only [h0, decide_false, Bool.false_eq_true, if_false]
    constructor
    · intro _; exact hp
    · intro _; exact h4.2 (Nat.pos_of_ne_zero h0)

theorem Link.answer_wf {l : Link} (h : l.wfWith 1) (q : Request) (c : ReplyCode) (b : ReplyBody) : (l.answer q c b).wf := by
  obtain ⟨h1, h2, h3, h4⟩ := h
  refine ⟨h1, ?_, ?_, h4⟩
  · simp only [Link.placesHeld, Link.answer, List.filter_append, List.length_append] at h2 ⊢
    simp
    omega
  · simpa [Link.refusals, Link.answer] using h3

theorem Link.defer_wf {l : Link} (h : l.wfWith 1) (d : Deferred) : ({ l with deferred := l.deferred ++ [d] } : Link).wf := by
  obtain ⟨h1, h2, h3, h4⟩ := h
  refine ⟨h1, ?_, h3, h4⟩
  simp only [Link.placesHeld, List.length_append, List.length_singleton] at h2 ⊢
  omega

theorem Link.undefer_wfWith {k : Nat} {l : Link} (h : l.wfWith k) (w : Deferral) : (l.undefer w).wfWith k := by
  obtain ⟨h1, h2, h3, h4⟩ := h
  unfold Link.undefer
  split
  · next d hd =>
      refine ⟨h1, ?_, ?_, h4⟩
      · have hm := List.mem_of_find?_eq_some hd
        have hl := List.length_erase_of_mem hm
        have hp := List.length_pos_of_mem hm
        simp only [Link.placesHeld, List.filter_append, List.length_append] at h2 ⊢
        simp
        omega
      · simpa [Link.refusals] using h3
  · exact ⟨h1, h2, h3, h4⟩

/-- A taken request frees room for its reply. -/
theorem Link.taken_wf {l : Link} (h : l.wf) {q : Request} {rest : List Request} (hw : l.waiting = q :: rest) :
    ({ l with waiting := rest } : Link).wfWith 1 := by
  obtain ⟨h1, h2, h3, h4⟩ := h
  refine ⟨h1, ?_, h3, h4⟩
  simp only [Link.placesHeld, hw, List.length_cons] at h2 ⊢
  omega

end Sys2Proof.Machine
end

