-- ==== Sys2Proof/Laws/Steps.lean ====
section
/-! SUPPORT. What one command may do to the whole part, said once: every command answers a next state, and a property that
the named updates of the blocks keep is kept by it. -/

namespace Sys2Proof.Machine

/-- What only some commands may change. -/
inductive Part
  | ref
  | scene
  | tally
  | memory
  | all
  deriving DecidableEq, Repr

/-- The part of the state that a command may change and most commands do not. -/
def partOf : Instr → Option Part
  | .refEdge _ _ _ | .absenceWatchExpiry _ | .holdoverTimerExpiry | .refSet _ | .frameSet => some .ref
  | .sceneTableTick | .fadeComplete _ _ _ | .glideEnd _ _ _ | .clampNotice _ | .haltNotice | .sceneWrite | .tallyBatch
  | .lookSet | .groupSet => some .scene
  | .tallyTick _ | .tallyRuleSet | .tallyMask => some .tally
  | .storeComplete | .scrubTestComplete _ => some .memory
  | .pinReset _ | .transmitDone _ => some .all
  | _ => none

/-- `P` is kept by the updates of every command that changes no part but those of `own`; `Spare` holds while a request
has been taken and its reply not yet given. -/
structure Kept (own : Part → Prop) (P Spare : State → Prop) : Prop where
  inner : Closed P
  spare : Closed Spare
  take : ∀ s q rest, P s → s.link.waiting = q :: rest → Spare (s.taken rest)
  answer : ∀ s q k b, Spare s → P (s.answer q k b)
  defer : ∀ s d, Spare s → P { s with link := { s.link with deferred := s.link.deferred ++ [d] } }
  link : ∀ s l, P s → (s.link.wf → l.wf) → P { s with link := l }
  settings : ∀ s l, Spare s → (s.link.wfWith 1 → l.wfWith 1) → Spare { s with link := l }
  ref : own .ref → ∀ s x, P s → (s.ref.wf → x.wf) → P { s with ref := x }
  refSpare : own .ref → ∀ s x, Spare s → (s.ref.wf → x.wf) → Spare { s with ref := x }
  scene : own .scene → ∀ s x, P s → (s.scene.wf → x.wf) → P { s with scene := x }
  sceneSpare : own .scene → ∀ s x, Spare s → (s.scene.wf → x.wf) → Spare { s with scene := x }
  tally : own .tally → ∀ s x, P s → (s.tally.wf → x.wf) → P { s with tally := x }
  tallySpare : own .tally → ∀ s x, Spare s → (s.tally.wf → x.wf) → Spare { s with tally := x }
  memory : own .memory → ∀ s p, P s → (Memory.wf s.pool.memory → Memory.wf p.memory) → P { s with pool := p }
  restart : own .all → ∀ s m k r, P s → P (s.restart m k r)

/-- A command answers a next state with `P`. -/
def answersWith (P : State → Prop) (o : Out) : Prop := ∃ t, o = .next t ∧ P t

theorem answersWith.not_due {P : State → Prop} {s : State} (hs : P s) : answersWith P (notDue s) := ⟨s, rfl, hs⟩

namespace Kept

variable {own : Part → Prop} {P Spare : State → Prop}

theorem ended (h : Kept own P Spare) {s : State} (hs : P s) : P s.ended := h.link s _ hs fun w => Link.pump_wfWith w

theorem done (h : Kept own P Spare) {s : State} (hs : P s) : answersWith P (Machine.done s) := ⟨_, rfl, h.ended hs⟩

theorem request (h : Kept own P Spare) (row : ReqRow) (take : Request → State → State)
    (ht : ∀ q s, Spare s → P (take q s)) {s : State} (hs : P s) : answersWith P (s.takeRequest row take) := by
  rcases takeRequest_or row take s with e | ⟨q, rest, hw, e⟩
  · exact ⟨s, e, hs⟩
  · exact ⟨_, e, h.ended (ht q _ (h.take s q rest hs hw.1))⟩

theorem requestWith (h : Kept own P Spare) {α : Type} (row : ReqRow) (parse : List Byte → Option α)
    (take : Request → α → State → State) (ht : ∀ q x s, parse q.body = some x → Spare s → P (take q x s)) {s : State}
    (hs : P s) : answersWith P (s.takeWith row parse take) := by
  refine h.request row _ (fun q s hsp => ?_) hs
  split
  · next x hx => exact ht q x s hx hsp
  · exact h.answer s _ _ _ hsp

end Kept

/-! ### The Reference Unit -/

/-- What the Reference Unit's own operations need of a property. -/
structure RefClosed (P : State → Prop) : Prop where
  inner : Closed P
  ref : ∀ s x, P s → (s.ref.wf → x.wf) → P { s with ref := x }

namespace RefClosed

variable {P : State → Prop}

theorem refReport (h : RefClosed P) {s : State} (hs : P s) (k : RefCause) : P (s.refReport k) := h.inner.report hs _

theorem startTimer_wf {r : RefUnit} (hr : r.source = .holdover ∨ r.source = .freeRun) (m : Nat) : (r.startTimer m).wf := by
  rcases hr with e | e <;> simp [RefUnit.wf, RefUnit.startTimer, e]

theorem setInput_wf {r : RefUnit} (hr : r.wf) (x : RefInput) (i : InputRec) : (r.setInput x i).wf := by
  cases x <;> exact hr

theorem candidate (h : RefClosed P) {s : State} (hs : P s) (m : Nat) : P (s.candidate m) := by
  unfold State.candidate; split
  · exact hs
  · have h1 := h.ref s { s.ref with counter := s.ref.nextFrame, pendingFrame := none, lastTick := some m } hs fun w => w
    exact h.inner.mail _ _ h1

theorem enterHoldover (h : RefClosed P) {s : State} (hs : P s) (m : Nat) : P (s.enterHoldover m) := by
  unfold State.enterHoldover
  refine h.inner.raise (h.refReport ?_ _) _ _ _
  exact h.ref s _ hs fun _ => startTimer_wf (.inl rfl) m

theorem lockAt (h : RefClosed P) {s : State} (hs : P s) (x : RefInput) (m : Nat) : P (s.lockAt x m) := by
  unfold State.lockAt
  refine h.candidate (h.refReport ?_ _) m
  exact h.ref s _ hs fun _ => rfl

theorem lockLost (h : RefClosed P) {s : State} (hs : P s) (x : RefInput) (k : LossManner) (m : Nat)
    (hx : s.ref.source = .locked x) : P (s.lockLost x k m) := by
  have h1 := h.inner.raise hs (.refLost x k) .reference none
  unfold State.lockLost; dsimp only; split
  · refine h.refReport ?_ _
    refine h.ref (s.raise (.refLost x k) .reference none) _ h1 fun w => ?_
    simp only [State.raise_ref, RefUnit.wf, hx] at w ⊢
    exact w
  · refine h.enterHoldover ?_ m
    exact h.ref (s.raise (.refLost x k) .reference none) _ h1 fun w => w

theorem leftGood (h : RefClosed P) {s : State} (hs : P s) (x : RefInput) (k : LossManner) (m : Nat) :
    P (s.leftGood x k m) := by
  have h1 : P (if s.ref.switch = some x then { s with ref := { s.ref with switch := none } } else s) := by
    split
    · exact h.ref s _ hs fun w => w
    · exact hs
  unfold State.leftGood; dsimp only
  generalize (if s.ref.switch = some x then { s with ref := { s.ref with switch := none } } else s) = k at h1 ⊢
  split
  · next hx => exact h.lockLost h1 x _ m hx
  · exact h1

theorem goodEdge (h : RefClosed P) {s : State} (hs : P s) (x : RefInput) (w : InputState) (m : Nat) :
    P (s.goodEdge x w m) := by
  unfold State.goodEdge; split
  · split
    · exact h.lockAt hs x m
    · split
      · exact h.candidate hs m
      · exact hs
  · split
    · exact hs
    · split
      · exact h.lockAt hs x m
      · exact hs
    · split
      · exact h.lockAt hs x m
      · exact hs

theorem takeEdge (h : RefClosed P) {s : State} (hs : P s) (x : RefInput) (m : Nat) : P (s.takeEdge x m) := by
  refine h.ref s _ hs fun w => ?_
  exact setInput_wf w x _

theorem reportInput (h : RefClosed P) {s : State} (hs : P s) (x : RefInput) (w : InputState) : P (s.reportInput x w) := by
  unfold State.reportInput; split
  · exact hs
  · exact h.refReport hs _

theorem settleEdge (h : RefClosed P) {s : State} (hs : P s) (x : RefInput) (w : InputState) (m : Nat) :
    P (s.settleEdge x w m) := by
  unfold State.settleEdge; split
  · exact h.goodEdge hs x w m
  · split
    · exact h.leftGood hs x _ m
    · exact hs

theorem refEdge (h : RefClosed P) {s : State} (hs : P s) (x : RefInput) (m : Nat) : P (s.refEdge x m) :=
  h.settleEdge (h.reportInput (h.takeEdge hs x m) x _) x _ m

theorem refEdges (h : RefClosed P) {s : State} (hs : P s) (x : RefInput) (m : Nat) : P (s.refEdges x m) :=
  h.settleEdge (h.settleEdge (h.reportInput (h.reportInput (h.takeEdge (h.takeEdge hs x m) _ m) x _) _ _) x _ m) _ _ m

theorem requalifyInput (h : RefClosed P) {s : State} (hs : P s) (x : RefInput) : P (s.requalifyInput x) := by
  have h1 : P { s with ref := s.ref.setInput x (s.ref.input x).requalify } := h.ref s _ hs fun w => setInput_wf w x _
  unfold State.requalifyInput; dsimp only; split
  · exact h.refReport h1 _
  · exact h1

theorem applyRate (h : RefClosed P) {s : State} (hs : P s) (r : FrameRate) : P (s.applyRate r) := by
  refine h.requalifyInput (h.requalifyInput ?_ _) _
  exact h.ref s _ hs fun w => w

theorem retime (h : RefClosed P) {s : State} (hs : P s) (m : Nat) : P (s.retime m) := by
  unfold State.retime; split
  · next t ht =>
      refine h.ref s _ hs fun w => ?_
      unfold RefUnit.wf at w
      split at w
      · rw [ht] at w; cases w
      · next e => exact startTimer_wf (.inl e) m
      · next e => exact startTimer_wf (.inr e) m
  · exact hs

theorem reconsider (h : RefClosed P) {s : State} (hs : P s) (m : Nat) : P (s.reconsider m) := by
  have h1 : P { s with ref := { s.ref with switch := none } } := h.ref s _ hs fun w => w
  unfold State.reconsider; dsimp only; split
  · split
    · exact h1
    · refine h.refReport ?_ _
      exact h.ref s _ hs fun _ => startTimer_wf (.inr rfl) m
  · split
    · split
      · exact h1
      · exact h.ref s _ hs fun w => w
    · split
      · exact h.enterHoldover h1 m
      · exact h1
      · exact h1

theorem refSet (h : RefClosed P) {s : State} (hs : P s) (mode : RefMode) (rate : FrameRate) (m : Nat) :
    P (s.refSet mode rate m) := by
  have h1 : P { s with ref := { s.ref with mode := mode, now := m } } := h.ref s _ hs fun w => w
  unfold State.refSet; dsimp only
  refine h.reconsider ?_ m
  split
  · exact h.retime (h.applyRate h1 rate) m
  · exact h1

end RefClosed

/-! ### Scene Table and Tally Unit -/

theorem Scene.update_wf {sc : Scene} (h : sc.wf) (r : NodeRef) (f : SceneEntry → SceneEntry) : (sc.update r f).wf :=
  ⟨by simpa [Scene.update, Scene.setEntry] using h.1, h.2⟩

theorem Scene.foldl_update_wf {α : Type} (g : α → NodeRef) (f : α → SceneEntry → SceneEntry) (l : List α) {sc : Scene}
    (h : sc.wf) : (l.foldl (fun sc x => sc.update (g x) (f x)) sc).wf := by
  induction l generalizing sc with
  | nil => exact h
  | cons x l ih => exact ih (Scene.update_wf h _ _)

theorem takeClaim_length (s : State) (l : List (Option ClaimRecord)) (k : TallyClaim) :
    (s.takeClaim l k).length = l.length := by cases k <;> simp [State.takeClaim]

theorem foldl_takeClaim_length (s : State) (b : List TallyClaim) : ∀ l : List (Option ClaimRecord),
    (b.foldl s.takeClaim l).length = l.length := by
  induction b with
  | nil => intro l; rfl
  | cons k b ih => intro l; rw [List.foldl_cons, ih, takeClaim_length]

theorem Scene.clampNotice_wf {sc : Scene} (h : sc.wf) (c : ChainId) (m : ClampMsg) : (sc.clampNotice c m).wf := by
  cases m <;> exact Scene.update_wf h _ _

theorem takeBatch_wf {s : State} (h : s.scene.wf) (b : List TallyClaim) : (s.takeBatch b).scene.wf := by
  have h1 := Scene.foldl_update_wf (fun x : NodeRef × OverParam => x.1)
    (fun x => SceneEntry.redrive s.scene.claims (b.foldl s.takeClaim s.scene.claims) x.1 x.2)
    (touched s.scene.claims (b.foldl s.takeClaim s.scene.claims) (b.map TallyClaim.rule)) h
  exact ⟨h1.1, h1.2.1, h1.2.2.1, by
    show (b.foldl s.takeClaim s.scene.claims).length = 16
    rw [foldl_takeClaim_length]; exact h.2.2.2⟩

theorem keepFirst_spec (l : List NodeRef) : ∀ seen : List NodeRef,
    (keepFirst seen l).length ≤ l.length ∧ (keepFirst seen l).Nodup ∧ ∀ x ∈ keepFirst seen l, x ∉ seen := by
  induction l with
  | nil => intro seen; simp [keepFirst]
  | cons y l ih =>
      intro seen
      unfold keepFirst
      split
      · obtain ⟨a, b, c⟩ := ih seen
        exact ⟨by simp; omega, b, c⟩
      · next hy =>
          obtain ⟨a, b, c⟩ := ih (y :: seen)
          refine ⟨by simp; omega, List.nodup_cons.2 ⟨fun hm => ?_, b⟩, fun x hx => ?_⟩
          · exact c y hm (by simp)
          · rcases List.mem_cons.1 hx with rfl | hx
            · exact hy
            · exact fun hs => c x hx (by simp [hs])

theorem refList_length (l : List Byte) : ∀ rs, refList? l = some rs → 2 * rs.length = l.length := by
  induction l using refList?.induct with
  | case1 => intro rs h; simp [refList?] at h; simp [← h]
  | case2 c a rest ih =>
      intro rs h
      simp only [refList?, Option.bind_eq_bind, Option.bind_eq_some_iff] at h
      obtain ⟨c', -, a', -, rs', hr, hrs⟩ := h
      simp at hrs
      subst hrs
      simp [← ih rs' hr]; omega
  | case3 => intro rs h; simp [refList?] at h

/-- A GROUP_SET that is accepted gives at most 32 references (R132). -/
theorem groupSet_length {body : List Byte} {x : Nat × List NodeRef} (h : groupSet? body = some x) :
    x.2.length ≤ 32 := by
  unfold groupSet? at h
  split at h
  · simp only [Option.bind_eq_bind, Option.bind_eq_some_iff] at h
    obtain ⟨g', -, n', hn, u, hc, rs, hr, hx⟩ := h
    simp at hx
    subst hx
    have hl := refList_length _ _ hr
    simp only [inRange] at hn
    split at hn
    · next hb =>
        simp only [check] at hc
        split at hc
        · next hd => simp at hn hd; simp; omega
        · cases hc
    · cases hn
  · cases h

/-! ### Stills Store -/

theorem sum_set (l : List Nat) (i x : Nat) (hi : i < l.length) : (l.set i x).sum + l[i] = l.sum + x := by
  induction l generalizing i with
  | nil => simp at hi
  | cons y l ih =>
      cases i with
      | zero => simp; omega
      | succ i =>
          have := ih i (by simpa using hi)
          simp only [List.set_cons_succ, List.sum_cons, List.getElem_cons_succ]
          omega

/-- A slot replaced keeps the store's bounds when what it reserves fits (R108). -/
theorem setSlot_wf {st : Stills} (h : st.wf) (r : StillRef) {x : StillSlot} (hx : x.wf)
    (hr : x.reserved ≤ st.unreserved + (st.slot r).reserved) : (st.setSlot r x).wf := by
  obtain ⟨h1, h2, h3⟩ := h
  by_cases hi : r.index < st.slots.length
  · refine ⟨by simpa [Stills.setSlot] using h1, fun y hy => ?_, ?_⟩
    · rcases List.mem_or_eq_of_mem_set hy with hy | rfl
      · exact h2 y hy
      · exact hx
    · have e := sum_set (st.slots.map StillSlot.reserved) r.index x.reserved (by simpa using hi)
      simp only [Stills.slot, List.getD_eq_getElem _ _ hi] at hr
      rw [List.getElem_map] at e
      simp only [Stills.unreserved, Stills.reserved, Stills.setSlot, List.map_set] at *
      omega
  · have e : st.setSlot r x = st := by simp [Stills.setSlot, List.set_eq_of_length_le (Nat.le_of_not_lt hi)]
    rw [e]; exact ⟨h1, h2, h3⟩

theorem fits_spec {x : StillWriteArgs} (h : x.fits = true) :
    1 ≤ x.chunk.length ∧ x.offset + x.chunk.length ≤ x.total ∧ x.total ≤ 4096 ∧
      (x.crc = none → x.offset + x.chunk.length < x.total) ∧
      (x.crc.isSome = true → x.offset + x.chunk.length = x.total) := by
  simp only [StillWriteArgs.fits, StillWriteArgs.last, Bool.and_eq_true, decide_eq_true_eq, beq_iff_eq] at h
  obtain ⟨⟨⟨⟨⟨⟨h0, h1⟩, h2⟩, h3⟩, h4⟩, h5⟩, h6⟩ := h
  refine ⟨h3, h5, h2, fun hc => ?_, fun hc => ?_⟩
  · rw [hc] at h6
    simp at h6
    omega
  · rw [hc] at h6
    simpa using h6

/-- What the Stills Store's own requests need of a property. -/
structure StillsClosed (P Spare : State → Prop) : Prop where
  answer : ∀ s q k b, Spare s → P (s.answer q k b)
  spare : Closed Spare

namespace StillsClosed

variable {P Spare : State → Prop}

theorem fill (h : StillsClosed P Spare) (q : Request) (r : StillRef) (total : Nat) (data : List Byte)
    (crc : Option Word32) {s : State} (hs : Spare s) (h1 : 1 ≤ data.length) (h2 : data.length ≤ total)
    (h3 : total ≤ 4096) (h4 : crc = none → data.length < total)
    (h5 : total ≤ s.stills.unreserved + (s.stills.slot r).reserved) : P (s.fill q r total data crc) := by
  unfold State.fill
  split
  · exact h.answer _ q _ _ (h.spare.stills s _ hs fun w => setSlot_wf w r ⟨h4 rfl, h3⟩ h5)
  · split
    · exact h.answer _ q _ _ (h.spare.stills s _ hs fun w => setSlot_wf w r ⟨h1, by omega⟩ (h2.trans h5))
    · exact h.answer _ q _ _ (h.spare.stills s _ hs fun w => setSlot_wf w r trivial (Nat.zero_le _))

theorem beginFill (h : StillsClosed P Spare) (q : Request) (r : StillRef) (x : StillWriteArgs) (hx : x.fits = true)
    {s : State} (hs : Spare s) : P (s.beginFill q r x) := by
  obtain ⟨a, b, c, d, e⟩ := fits_spec hx
  unfold State.beginFill; split
  · exact h.answer s q _ _ hs
  · split
    · exact h.answer s q _ _ hs
    · exact h.fill q r _ _ _ hs a (by omega) c (fun hc => by have := d hc; omega) (by omega)

theorem continueFill (h : StillsClosed P Spare) (q : Request) (r : StillRef) (x : StillWriteArgs) (hx : x.fits = true)
    {s : State} (hs : Spare s) : P (s.continueFill q r x) := by
  obtain ⟨a, b, c, d, e⟩ := fits_spec hx
  have hempty := h.spare.stills s (s.stills.setSlot r .empty) hs fun w => setSlot_wf w r trivial (Nat.zero_le _)
  unfold State.continueFill; split
  · next total data hsl =>
      split
      · next hc =>
          obtain ⟨hc1, hc2⟩ := hc
          refine h.fill q r _ _ _ hs ?_ ?_ (by omega) (fun hn => ?_) ?_
          · simp; omega
          · simp; omega
          · have := d hn; simp; omega
          · rw [hsl]; simp [StillSlot.reserved]
      · exact h.answer _ q _ _ hempty
  · exact h.answer s q _ _ hs
  · exact h.answer s q _ _ hs

theorem stillWrite (h : StillsClosed P Spare) (q : Request) (x : StillWriteArgs) (take : StillRef → State → State)
    (ht : ∀ r s, x.fits = true → Spare s → P (take r s)) {s : State} (hs : Spare s) : P (s.stillWrite q x take) := by
  unfold State.stillWrite; split
  · split
    · next hf => exact ht _ s hf hs
    · exact h.answer s q _ _ hs
  · exact h.answer s q _ _ hs

theorem clearStills (h : StillsClosed P Spare) (q : Request) (rs : List StillRef) {s : State} (hs : Spare s) :
    P (s.clearStills q rs) := by
  unfold State.clearStills; split
  · exact h.answer s q _ _ hs
  · dsimp only
    refine h.answer _ q _ _ (Closed.foldl _ (fun s r hs => ?_) rs hs)
    exact h.spare.stills s _ hs fun w => setSlot_wf w r trivial (Nat.zero_le _)

end StillsClosed

/-! ### Tally Unit -/

theorem tallyTick_wf {t : Tally} (h : t.wf) (levels : BitVec 8) :
    Tally.wf { t with sample := t.sampled levels, latched := t.latchedAfter levels } := by
  obtain ⟨h1, h2, h3⟩ := h
  refine ⟨h1, ?_, ?_⟩
  · apply BitVec.eq_of_getLsbD_eq
    intro i hi
    simp [Tally.sampled]
  · apply BitVec.eq_of_getLsbD_eq
    intro i hi
    have e := congrArg (fun b : BitVec 8 => b.getLsbD i) h3
    simp only [Tally.latchedAfter, Tally.sampled, BitVec.getLsbD_and, BitVec.getLsbD_or, BitVec.getLsbD_not,
      BitVec.getLsbD_xor, hi, decide_true, Bool.true_and] at e ⊢
    revert e
    cases t.latched.getLsbD i <;> cases t.mask.getLsbD i <;> simp

theorem setMask_wf {t : Tally} (h : t.wf) (m : BitVec 8) :
    Tally.wf { t with mask := m, sample := t.sample &&& ~~~(m &&& ~~~t.mask),
                      latched := t.latched &&& ~~~(m &&& ~~~t.mask) } := by
  obtain ⟨h1, h2, h3⟩ := h
  refine ⟨h1, ?_, ?_⟩
  · apply BitVec.eq_of_getLsbD_eq
    intro i hi
    have e := congrArg (fun b : BitVec 8 => b.getLsbD i) h2
    simp only [BitVec.getLsbD_and, BitVec.getLsbD_not, hi, decide_true, Bool.true_and] at e ⊢
    revert e
    cases t.sample.getLsbD i <;> cases t.mask.getLsbD i <;> cases m.getLsbD i <;> simp
  · apply BitVec.eq_of_getLsbD_eq
    intro i hi
    have e := congrArg (fun b : BitVec 8 => b.getLsbD i) h3
    simp only [BitVec.getLsbD_and, BitVec.getLsbD_not, hi, decide_true, Bool.true_and] at e ⊢
    revert e
    cases t.latched.getLsbD i <;> cases t.mask.getLsbD i <;> cases m.getLsbD i <;> simp

theorem handBatch_keeps {P : State → Prop} (h : Closed P) (b : List TallyClaim) {s : State} (hs : P s) :
    P (s.handBatch b) := by
  unfold State.handBatch; split
  · exact hs
  · exact h.mail s _ hs

/-! ### Cue Store -/

theorem cueSteps_length (n : Nat) : ∀ bytes l, cueSteps? n bytes = some l → l.length ≤ n := by
  induction n with
  | zero =>
      intro bytes l h
      simp only [cueSteps?] at h
      split at h
      · simp at h; simp [← h]
      · cases h
  | succ n ih =>
      intro bytes l h
      unfold cueSteps? at h
      split at h
      · cases h
      · simp at h; simp [← h]
      · obtain ⟨l', hl', rfl⟩ := Option.map_eq_some_iff.1 h
        have := ih _ _ hl'
        simp; omega

theorem checkSteps_length {n : Nat} {steps : List (Option CueStep)} {l : List CueStep} (h : checkSteps n steps = .ok l) :
    1 ≤ l.length ∧ l.length ≤ steps.length := by
  unfold checkSteps at h
  split at h
  · cases h
  · dsimp only at h
    split at h
    · next x hx =>
        split at h
        · injection h with h
          subst h
          refine ⟨?_, List.length_filterMap_le _ _⟩
          cases hl : steps.filterMap id with
          | nil => rw [hl] at hx; cases hx
          | cons => simp
        · cases h
    · cases h

theorem loadSlot_wf {s : State} (h : s.cues.wf) (k : Nat) (l : List CueStep) (h1 : 1 ≤ l.length) (h2 : l.length ≤ slotSize) :
    (s.loadSlot k l).cues.wf := by
  refine ⟨by simpa [State.loadSlot] using h.1, fun m hm => ?_⟩
  rcases List.mem_or_eq_of_mem_set hm with hm | he
  · exact h.2 m hm
  · injection he with he
    subst he
    simpa using ⟨h1, h2⟩

end Sys2Proof.Machine
end

