-- ==== Sys2Proof/Laws/Exec.lean ====
section
/-! SUPPORT. Every command answers a next state, and keeps every property that the named updates keep. -/

namespace Sys2Proof.Machine

namespace Kept

variable {own : Part → Prop} {P Spare : State → Prop}

theorem refClosed (h : Kept own P Spare) (ho : own .ref) : RefClosed P := ⟨h.inner, h.ref ho⟩
theorem refClosedSpare (h : Kept own P Spare) (ho : own .ref) : RefClosed Spare := ⟨h.spare, h.refSpare ho⟩
theorem stillsClosed (h : Kept own P Spare) : StillsClosed P Spare := ⟨h.answer, h.spare⟩

/-! ### Reference Unit -/

theorem refEdge (h : Kept own P Spare) (ho : own .ref) (x : RefInput) (m : Nat) (b : Bool) {s : State} (hs : P s) :
    answersWith P (execRefEdge x m b s) := by
  unfold execRefEdge
  refine h.done ?_
  split
  · exact (h.refClosed ho).refEdges hs x _
  · exact (h.refClosed ho).refEdge hs x _

theorem absenceWatchExpiry (h : Kept own P Spare) (ho : own .ref) (x : RefInput) {s : State} (hs : P s) :
    answersWith P (execAbsenceWatchExpiry x s) := by
  unfold execAbsenceWatchExpiry
  split
  · exact .not_due hs
  · exact .not_due hs
  · next t _ _ =>
      have h1 : P (({ s with ref := { s.ref.setInput x .reset with now := s.ref.at_ (t + 3 * s.ref.period / 2) } }
          : State).refReport (inputCause x)) := by
        refine (h.refClosed ho).refReport ?_ _
        exact h.ref ho s _ hs fun w => RefClosed.setInput_wf w x _
      dsimp only
      split
      · exact h.done ((h.refClosed ho).leftGood h1 x _ _)
      · exact h.done h1

theorem holdoverTimerExpiry (h : Kept own P Spare) (ho : own .ref) {s : State} (hs : P s) : answersWith P (execHoldoverTimerExpiry s) := by
  unfold execHoldoverTimerExpiry
  split
  · next t ht =>
      refine h.done ((h.refClosed ho).candidate ?_ _)
      refine h.ref ho s _ hs fun w => ?_
      unfold RefUnit.wf at w ⊢
      split at w
      · rw [ht] at w; cases w
      · next e => simp [e]
      · next e => simp [e]
  · exact .not_due hs

theorem refSet (h : Kept own P Spare) (ho : own .ref) (m : Nat) {s : State} (hs : P s) : answersWith P (execRefSet m s) := by
  unfold execRefSet
  refine h.requestWith _ _ _ (fun q x s _ hs => ?_) hs
  split
  · exact h.answer s q _ _ hs
  · exact h.answer _ q _ _ ((h.refClosedSpare ho).refSet hs _ _ _)

theorem frameSet (h : Kept own P Spare) (ho : own .ref) {s : State} (hs : P s) : answersWith P (execFrameSet s) := by
  unfold execFrameSet
  refine h.requestWith _ _ _ (fun q x s _ hs => ?_) hs
  exact h.answer _ q _ _ (h.refSpare ho s _ hs fun w => w)

/-! ### Chain Managers -/

theorem managed (h : Kept own P Spare) (c : ChainId) (f : Cm → Cm) (hf : ∀ m : Cm, m.ch.wf → (f m).ch.wf) {s : State}
    (hs : P s) : answersWith P (Machine.done (s.manage c f)) := h.done (h.inner.manage c f hf hs)

theorem chainManagerTick (h : Kept own P Spare) (c : ChainId) {s : State} (hs : P s) :
    answersWith P (execChainManagerTick c s) := by
  unfold execChainManagerTick; split
  · exact .not_due hs
  · exact h.managed c _ (fun m hm => Cm.tick_wf hm _) (h.inner.mail s _ hs)

theorem returnDeadline (h : Kept own P Spare) (c : ChainId) {s : State} (hs : P s) :
    answersWith P (execReturnDeadline c s) := by
  unfold execReturnDeadline; dsimp only; split
  · exact h.managed c _ (fun m hm => Cm.deadline_wf hm) hs
  · exact .not_due hs

theorem returnItemReceived (h : Kept own P Spare) (c : ChainId) (item : List Byte) {s : State} (hs : P s) :
    answersWith P (execReturnItemReceived c item s) :=
  h.managed c _ (fun _ hm => Cm.takeItem_wf hm item) hs

theorem chainSetEnable (h : Kept own P Spare) {s : State} (hs : P s) : answersWith P (execChainSetEnable s) := by
  unfold execChainSetEnable
  refine h.requestWith _ _ _ (fun q x s _ hs => ?_) hs
  split
  · exact h.answer s q _ _ hs
  · exact h.answer _ q _ _ (h.spare.manage _ _ (fun m hm => Cm.enable_wf hm x) hs)

theorem chainSetDisable (h : Kept own P Spare) {s : State} (hs : P s) : answersWith P (execChainSetDisable s) := by
  unfold execChainSetDisable
  refine h.requestWith _ _ _ (fun q x s _ hs => ?_) hs
  split
  · exact h.answer s q _ _ hs
  · split
    · exact h.answer s q _ _ hs
    · have h1 := h.spare.chain s x.chain { s.chains.get x.chain with pendingDisable := true } hs fun w => w
      exact h.defer _ _ h1

theorem chainRewalk (h : Kept own P Spare) {s : State} (hs : P s) : answersWith P (execChainRewalk s) := by
  unfold execChainRewalk
  refine h.requestWith _ _ _ (fun q x s _ hs => ?_) hs
  dsimp only
  refine h.answer _ q _ _ ?_
  split
  · exact h.spare.manage _ _ (fun m hm => Cm.rewalk_wf hm) hs
  · exact hs

theorem nodeGet (h : Kept own P Spare) {s : State} (hs : P s) : answersWith P (execNodeGet s) := by
  unfold execNodeGet
  exact h.requestWith _ _ _ (fun q x s _ hs => h.answer s q _ _ hs) hs

theorem nodeSet (h : Kept own P Spare) {s : State} (hs : P s) : answersWith P (execNodeSet s) := by
  unfold execNodeSet
  refine h.requestWith _ _ _ (fun q x s _ hs => ?_) hs
  split
  · exact h.answer s q _ _ hs
  · split
    · exact h.answer s q _ _ hs
    · exact h.answer _ q _ _ (h.spare.manage _ _ (fun m hm => Cm.nodeSet_wf hm x _) hs)

theorem commandTaken (h : Kept own P Spare) (q : Request) (c : ChainId) (a : Nat) (cmd : ConfigCmd) {s : State} (hs : Spare s) :
    P (s.nodeCommand q c a cmd) := by
  unfold State.nodeCommand; dsimp only
  refine h.answer _ q _ _ ?_
  split
  · next hc =>
      have hq : (s.chains.get c).takesConfig = true := by
        unfold Chain.commandCode at hc
        split at hc
        · cases hc
        · split at hc
          · split at hc
            · assumption
            · cases hc
          · cases hc
          · split at hc
            · cases hc
            · split at hc
              · assumption
              · cases hc
      simp only [Chain.takesConfig, Bool.and_eq_true, decide_eq_true_eq] at hq
      unfold State.manage; dsimp only
      refine Closed.foldl _ (fun _ o hs => ?_) _ ?_
      · exact h.spare.deliverCm c hs o
      · exact h.spare.chain s c _ hs fun w => Chain.enqueue_wf w hq.1 _ _
  · exact hs

theorem nodeCommandConfigure (h : Kept own P Spare) {s : State} (hs : P s) :
    answersWith P (execNodeCommandConfigure s) := by
  unfold execNodeCommandConfigure
  exact h.requestWith _ _ _ (fun q x s _ hs => h.commandTaken q _ _ _ hs) hs

theorem nodeCommandEnable (h : Kept own P Spare) {s : State} (hs : P s) : answersWith P (execNodeCommandEnable s) := by
  unfold execNodeCommandEnable
  exact h.requestWith _ _ _ (fun q x s _ hs => h.commandTaken q _ _ _ hs) hs

theorem nodeReinstate (h : Kept own P Spare) {s : State} (hs : P s) : answersWith P (execNodeReinstate s) := by
  unfold execNodeReinstate
  refine h.requestWith _ _ _ (fun q x s _ hs => ?_) hs
  unfold State.nodeReinstate; dsimp only; split
  · exact h.answer s q _ _ hs
  · split
    · exact h.answer s q _ _ hs
    · split
      · exact h.answer s q _ _ hs
      · split
        · exact h.answer _ q _ _ (h.spare.manage _ _ (fun m hm => Cm.reinstate_wf hm _ _) hs)
        · exact h.answer s q _ _ hs

/-! ### Segment Intake and Buffer Pool -/

theorem segmentStart (h : Kept own P Spare) {s : State} (hs : P s) : answersWith P (execSegmentStart s) :=
  h.done (h.inner.beginSegment (h.inner.truncate hs))

theorem segmentHeader (h : Kept own P Spare) (c a : Byte) (f l : Word16) {s : State} (hs : P s) :
    answersWith P (execSegmentHeader c a f l s) := by
  unfold execSegmentHeader; split
  · exact h.done (h.inner.takeHeader _ _ _ _ _ _ hs)
  · exact .not_due hs
  · exact .not_due hs

theorem segmentEnd (h : Kept own P Spare) (pl : List Byte) (w : Word32) {s : State} (hs : P s) :
    answersWith P (execSegmentEnd pl w s) := by
  unfold execSegmentEnd; split
  · split
    · exact h.done (h.inner.endSegment _ _ _ _ hs)
    · exact .not_due hs
  · exact .not_due hs
  · exact .not_due hs

theorem segmentIntakeTick (h : Kept own P Spare) {s : State} (hs : P s) : answersWith P (execSegmentIntakeTick s) := by
  unfold execSegmentIntakeTick; split
  · exact h.done (h.inner.intakeTick (h.inner.mail s _ hs))
  · exact .not_due hs

theorem segmentStallExpiry (h : Kept own P Spare) {s : State} (hs : P s) : answersWith P (execSegmentStallExpiry s) := by
  unfold execSegmentStallExpiry; split
  · split
    · exact h.done (h.inner.intakeTick (h.inner.mail s _ hs))
    · exact .not_due hs
  · exact .not_due hs

theorem storeComplete (h : Kept own P Spare) (ho : own .memory) {s : State} (hs : P s) : answersWith P (execStoreComplete s) := by
  unfold execStoreComplete; split
  · split
    · next e _ _ _ pl b _ _ =>
        refine h.done ?_
        have h1 := h.inner.intake _ (s.intake.setEntry e .free) (h.memory ho s
          ({ s.pool with busy := none }.stored b pl) hs fun w => Memory.stored_wf (p := { s.pool with busy := none }) w b pl)
        unfold State.storeDone; dsimp only
        refine h.inner.grantMemory ?_
        split
        · exact h.inner.pool _ _ h1 rfl
        · exact h.inner.recheck _ _ h1
    all_goals exact .not_due hs
  all_goals exact .not_due hs

theorem bufferPoolTick (h : Kept own P Spare) {s : State} (hs : P s) : answersWith P (execBufferPoolTick s) := by
  unfold execBufferPoolTick; split
  · exact h.done (h.inner.evaluatePause (h.inner.mail s _ hs))
  · exact .not_due hs

theorem scrubTestComplete (h : Kept own P Spare) (ho : own .memory) (ok : Bool) {s : State} (hs : P s) :
    answersWith P (execScrubTestComplete ok s) := by
  unfold execScrubTestComplete; split
  · next b _ =>
      refine h.done ?_
      unfold State.testDone
      generalize testBytes = bytes
      have h1 := h.memory ho s (if ok then
          { s.pool with busy := none,
                        memory := Memory.writeBytes s.pool.memory (Memory.bufferBase b) bytes }.restore b
        else { s.pool with busy := none,
                           memory := Memory.writeBytes s.pool.memory (Memory.bufferBase b) bytes }.failAgain b) hs
        (fun w => by cases ok <;> exact Memory.writeBytes_wf _ w _)
      dsimp only; split
      · exact h.inner.grantMemory (h.inner.nextTest _ h1)
      · exact h.inner.grantMemory h1
  all_goals exact .not_due hs

theorem segSet (h : Kept own P Spare) {s : State} (hs : P s) : answersWith P (execSegSet s) := by
  unfold execSegSet
  refine h.requestWith _ _ _ (fun q x s _ hs => h.answer _ q _ _ ?_) hs
  unfold State.segSet
  refine h.spare.checkPauseStart ?_
  exact h.spare.pool s _ hs rfl

theorem flowClear (h : Kept own P Spare) {s : State} (hs : P s) : answersWith P (execFlowClear s) := by
  unfold execFlowClear
  refine h.requestWith _ _ _ (fun q x s _ hs => ?_) hs
  split
  · exact h.answer s q _ _ hs
  · have h1 := h.spare.flushEntry .e1 (h.spare.flushEntry .e0 hs)
    unfold State.beginClear; dsimp only
    generalize (s.flushEntry .e0).flushEntry .e1 = k at h1 ⊢
    have h2 := h.spare.asm k 0 k.asm.c0.mark h1 fun w => w
    have h3 := h.spare.asm _ 1 k.asm.c1.mark h2 fun w => w
    have h4 := h.spare.asm _ 2 k.asm.c2.mark h3 fun w => w
    have h5 := h.spare.asm _ 3 k.asm.c3.mark h4 fun w => w
    exact h.defer _ _ (h.spare.intake _ _ h5)

theorem poolScrub (h : Kept own P Spare) {s : State} (hs : P s) : answersWith P (execPoolScrub s) := by
  unfold execPoolScrub
  refine h.requestWith _ _ _ (fun q x s _ hs => ?_) hs
  split
  · exact h.answer s q _ _ hs
  · exact h.answer _ q _ _ (h.spare.grantMemory (h.spare.nextTest _ hs))

theorem flowMessageEnd (h : Kept own P Spare) {s : State} (hs : P s) : answersWith P (execFlowMessageEnd s) := by
  unfold execFlowMessageEnd; split
  · exact h.done (h.inner.pool s _ hs rfl)
  · exact .not_due hs

/-! ### Frame Assembler -/

theorem frameOrder (h : Kept own P Spare) (c : ChainId) {s : State} (hs : P s) : answersWith P (execFrameOrder c s) := by
  unfold execFrameOrder; split
  · next o rest _ =>
      have h1 : P (s.setOrders c rest) := h.inner.mail s _ hs
      dsimp only; split
      · refine h.done (h.inner.updAsm c _ ?_ (h.inner.countAsm _ c h1))
        exact fun _ hm => hm
      · exact h.done (h.inner.takeOrder c o h1)
  · exact .not_due hs
  · exact .not_due hs

theorem emissionReadComplete (h : Kept own P Spare) (ok nf : Bool) {s : State} (hs : P s) :
    answersWith P (execEmissionReadComplete ok nf s) := by
  unfold execEmissionReadComplete; split
  · next c b _ =>
      have h1 := h.inner.pool s { s.pool with busy := none } hs rfl
      dsimp only; split
      · exact h.done (h.inner.grantMemory (h.inner.finishRead c b ok h1))
      · exact h.done (h.inner.finishRead c b ok (h.inner.grantMemory h1))
  all_goals exact .not_due hs

theorem stillReadRequest (h : Kept own P Spare) (c : ChainId) {s : State} (hs : P s) :
    answersWith P (execStillReadRequest c s) := by
  unfold execStillReadRequest; split
  · split
    · exact h.done (h.inner.takeStillRead c _ _ _ _ hs)
    all_goals exact .not_due hs
  · exact .not_due hs

theorem stillReadComplete (h : Kept own P Spare) {s : State} (hs : P s) : answersWith P (execStillReadComplete s) := by
  unfold execStillReadComplete; split
  · exact .not_due hs
  · next r rest _ =>
      have h1 := h.inner.endStillRead r rest hs
      dsimp only; split
      · split
        · exact h.done (h.inner.finishStop _ h1)
        · split
          · exact h.done (h.inner.sendImage _ _ _ h1)
          all_goals exact h.done h1
      · exact h.done h1

theorem returnTokenSent (h : Kept own P Spare) (c : ChainId) {s : State} (hs : P s) :
    answersWith P (execReturnTokenSent c s) := by
  unfold execReturnTokenSent; split
  · next b _ =>
      split
      · have h1 : P ((s.updAsm c fun m => { m with bundle := none }).countAsm .bundles c) := by
          refine h.inner.countAsm _ c (h.inner.updAsm c _ ?_ hs)
          exact fun _ hm => hm
        dsimp only
        exact h.done (h.inner.resumeOrders c (h.inner.manage c _ (fun m hm => Cm.token_wf hm _) h1))
      · exact .not_due hs
  · split
    · next p rest _ =>
        refine h.done (h.inner.resumeOrders c (h.inner.manage c _ (fun m hm => ?_) hs))
        refine Cm.token_wf ?_ _
        exact hm
    · exact .not_due hs

theorem faultedNotice (h : Kept own P Spare) (c : ChainId) {s : State} (hs : P s) :
    answersWith P (execFaultedNotice c s) := by
  unfold execFaultedNotice; split
  · next rest _ =>
      have h1 : P (s.setOrders c rest) := h.inner.mail s _ hs
      dsimp only; split
      · exact h.done (h.inner.stopBundle c _ h1)
      · exact h.done (h.inner.finishStop c h1)
  · exact .not_due hs
  · exact .not_due hs

/-! ### Stills Store -/

theorem stillWriteBegin (h : Kept own P Spare) {s : State} (hs : P s) : answersWith P (execStillWriteBegin s) := by
  unfold execStillWriteBegin
  exact h.requestWith _ _ _ (fun q x s _ hs => h.stillsClosed.stillWrite q x _
    (fun r s hf hs => h.stillsClosed.beginFill q r x hf hs) hs) hs

theorem stillWriteContinue (h : Kept own P Spare) {s : State} (hs : P s) : answersWith P (execStillWriteContinue s) := by
  unfold execStillWriteContinue
  exact h.requestWith _ _ _ (fun q x s _ hs => h.stillsClosed.stillWrite q x _
    (fun r s hf hs => h.stillsClosed.continueFill q r x hf hs) hs) hs

theorem stillClearSlot (h : Kept own P Spare) {s : State} (hs : P s) : answersWith P (execStillClearSlot s) := by
  unfold execStillClearSlot
  exact h.requestWith _ _ _ (fun q x s _ hs => h.stillsClosed.clearStills q _ hs) hs

theorem stillClearPage (h : Kept own P Spare) {s : State} (hs : P s) : answersWith P (execStillClearPage s) := by
  unfold execStillClearPage
  exact h.requestWith _ _ _ (fun q x s _ hs => h.stillsClosed.clearStills q _ hs) hs

/-! ### Scene Table and Tally Unit -/

theorem post (h : Kept own P Spare) (ho : own .scene) (c : ChainId) {s : State} (hs : P s) : P (s.post c) := by
  have h1 := h.scene ho s { s.scene with previous := s.scene.previous.set c (s.formPost c) } hs fun w => w
  have h2 := h.inner.asm _ c { s.asm.get c with posts := (s.asm.get c).posts ++ [s.formPost c] } h1 fun w => w
  exact h.inner.chain _ c { s.chains.get c with lookGen := (s.formPost c).gen } h2 fun w => w

theorem sceneTicked (h : Kept own P Spare) (ho : own .scene) {s : State} (hs : P s) : P s.sceneTick := by
  unfold State.sceneTick
  refine Closed.foldl _ (fun s c hs => h.post ho c hs) _ ?_
  refine h.scene ho s _ hs fun w => ?_
  exact ⟨by simpa using w.1, w.2⟩

theorem sceneTableTick (h : Kept own P Spare) (ho : own .scene) {s : State} (hs : P s) : answersWith P (execSceneTableTick s) := by
  unfold execSceneTableTick; split
  · exact h.done (h.sceneTicked ho (h.inner.mail s _ hs))
  · exact .not_due hs

theorem fadeComplete (h : Kept own P Spare) (ho : own .scene) (c : ChainId) (a : Nat) (p : LevelName) {s : State} (hs : P s) :
    answersWith P (execFadeComplete c a p s) := by
  unfold execFadeComplete; split
  · split
    · exact h.done (h.sceneTicked ho (h.inner.mail s _ hs))
    · exact .not_due hs
  · exact .not_due hs

theorem glideEnd (h : Kept own P Spare) (ho : own .scene) (c : ChainId) (a : Nat) (p : LevelName) {s : State} (hs : P s) :
    answersWith P (execGlideEnd c a p s) := by
  unfold execGlideEnd; split
  · split
    · exact h.done (h.sceneTicked ho (h.inner.mail s _ hs))
    · exact .not_due hs
  · exact .not_due hs

theorem clampNotice (h : Kept own P Spare) (ho : own .scene) (c : ChainId) {s : State} (hs : P s) : answersWith P (execClampNotice c s) := by
  unfold execClampNotice; split
  · next m rest _ =>
      exact h.done (h.inner.mail _ _ (h.scene ho s (s.scene.clampNotice c m) hs fun w => Scene.clampNotice_wf w c m))
  · exact .not_due hs

theorem haltNotice (h : Kept own P Spare) (ho : own .scene) {s : State} (hs : P s) : answersWith P (execHaltNotice s) := by
  unfold execHaltNotice; split
  · refine h.done ?_
    refine h.scene ho (s.setSceneMail _) _ (h.inner.mail s _ hs) fun w => ?_
    exact ⟨by simpa using w.1, w.2⟩
  · exact .not_due hs
  · exact .not_due hs

theorem write_wf {s : State} (h : s.scene.wf) (sel : Selector) (v : LookValue) (f : Option Nat) (w : Writer) :
    (s.write sel v f w).scene.wf :=
  Scene.foldl_update_wf (fun r : NodeRef => r) (fun _ => SceneEntry.write v f w) _ h

theorem sceneWrite (h : Kept own P Spare) (ho : own .scene) {s : State} (hs : P s) : answersWith P (execSceneWrite s) := by
  unfold execSceneWrite; split
  · next sel v f r rest _ =>
      exact h.done (h.scene ho (s.setSceneMail rest) _ (h.inner.mail s _ hs) fun w => write_wf w sel v f (.runner r))
  · exact .not_due hs
  · exact .not_due hs

theorem lookSet (h : Kept own P Spare) (ho : own .scene) {s : State} (hs : P s) : answersWith P (execLookSet s) := by
  unfold execLookSet
  refine h.requestWith _ _ _ (fun q x s _ hs => ?_) hs
  exact h.answer _ q _ _ (h.sceneSpare ho s _ hs fun w => write_wf w x.1 x.2.1 x.2.2 .control)

theorem groupSet (h : Kept own P Spare) (ho : own .scene) {s : State} (hs : P s) : answersWith P (execGroupSet s) := by
  unfold execGroupSet
  refine h.requestWith _ _ _ (fun q x s hx hs => ?_) hs
  refine h.answer _ q _ _ (h.sceneSpare ho s _ hs fun w => ⟨w.1, by simpa using w.2.1, fun g hg => ?_, w.2.2.2⟩)
  rcases List.mem_or_eq_of_mem_set hg with hg | rfl
  · exact w.2.2.1 g hg
  · obtain ⟨a, b, -⟩ := keepFirst_spec x.2 []
    exact ⟨a.trans (groupSet_length hx), b⟩

theorem tallyBatch (h : Kept own P Spare) (ho : own .scene) {s : State} (hs : P s) : answersWith P (execTallyBatch s) := by
  unfold execTallyBatch; split
  · next b rest _ =>
      have h1 := h.inner.mail s { s.mail with batches := rest } hs
      exact h.done (h.scene ho _ _ h1 fun w => takeBatch_wf w b)
  · exact .not_due hs

theorem tallyTick (h : Kept own P Spare) (ho : own .tally) (l : BitVec 8) {s : State} (hs : P s) : answersWith P (execTallyTick l s) := by
  unfold execTallyTick; split
  · refine h.done ?_
    unfold State.tallyTick; dsimp only
    refine handBatch_keeps h.inner _ ?_
    have h1 := h.tally ho s _ hs fun w => tallyTick_wf w l
    exact h.inner.mail _ _ h1
  · exact .not_due hs

theorem tallyMask (h : Kept own P Spare) (ho : own .tally) {s : State} (hs : P s) : answersWith P (execTallyMask s) := by
  unfold execTallyMask
  refine h.requestWith _ _ _ (fun q m s _ hs => h.answer _ q _ _ ?_) hs
  unfold State.setMask; dsimp only
  refine handBatch_keeps h.spare _ ?_
  exact h.tallySpare ho s _ hs fun w => setMask_wf w m

theorem tallyRuleSet (h : Kept own P Spare) (ho : own .tally) {s : State} (hs : P s) : answersWith P (execTallyRuleSet s) := by
  unfold execTallyRuleSet
  refine h.requestWith _ _ _ (fun q x s _ hs => ?_) hs
  dsimp only
  refine h.answer _ q _ _ (handBatch_keeps h.spare _ ?_)
  refine h.tallySpare ho s _ hs fun w => ?_
  exact ⟨by simpa using w.1, w.2⟩

/-! ### Runners -/

theorem ordered (h : Kept own P Spare) (l : List RunnerId) (f : State → RunnerId → State) (hf : ∀ s r, P s → P (f s r))
    {s : State} (hs : P s) : answersWith P (Machine.done (l.foldl f s)) := h.done (Closed.foldl f hf l hs)

theorem runnersTick (h : Kept own P Spare) (o : RunnerOrder) {s : State} (hs : P s) :
    answersWith P (execRunnersTick o s) := by
  unfold execRunnersTick; split
  · exact .not_due hs
  · exact h.ordered _ _ (fun s r hs => h.inner.takeOldest _ hs r) hs

theorem expiry (h : Kept own P Spare) (r : RunnerId) (due : Wait → Bool) {s : State} (hs : P s) :
    answersWith P (s.expiry r due) := by
  unfold State.expiry; split
  · split
    · exact h.done (h.inner.tickWait r _ _ (h.inner.mail s _ hs))
    · exact .not_due hs
  · exact .not_due hs

theorem completeReturnNotice (h : Kept own P Spare) (c : ChainId) (o : RunnerOrder) {s : State} (hs : P s) :
    answersWith P (execCompleteReturnNotice c o s) := by
  unfold execCompleteReturnNotice; split
  · next rest _ =>
      have h1 : P (s.setNotices c rest) := h.inner.mail s _ hs
      exact h.ordered _ _ (fun s r hs => h.inner.takeComplete c hs r) h1
  all_goals exact .not_due hs

theorem nodeLostNotice (h : Kept own P Spare) (c : ChainId) (o : RunnerOrder) {s : State} (hs : P s) :
    answersWith P (execNodeLostNotice c o s) := by
  unfold execNodeLostNotice; split
  · next a k b t rest _ =>
      have h1 : P (s.setNotices c rest) := h.inner.mail s _ hs
      exact h.ordered _ _ (fun s r hs => h.inner.takeLost _ _ _ _ hs r) h1
  all_goals exact .not_due hs

theorem roomNotice (h : Kept own P Spare) (turn : RoomTurn) {s : State} (hs : P s) :
    answersWith P (execRoomNotice turn s) := by
  unfold execRoomNotice; split
  · next rest _ =>
      have h1 : P (s.setNotices turn.chain rest) := h.inner.mail s _ hs
      exact h.ordered _ _ (fun s r hs => h.inner.takeRoom turn.chain hs r) h1
  all_goals exact .not_due hs

theorem evictionNotice (h : Kept own P Spare) (c : ChainId) {s : State} (hs : P s) :
    answersWith P (execEvictionNotice c s) := by
  unfold execEvictionNotice; split
  · exact h.done (h.inner.takeEviction c _ _ (h.inner.mail s _ hs))
  all_goals exact .not_due hs

theorem cueLoad (h : Kept own P Spare) {s : State} (hs : P s) : answersWith P (execCueLoad s) := by
  unfold execCueLoad
  refine h.requestWith _ _ _ (fun q x s hx hs => ?_) hs
  split
  · exact h.answer s q _ _ hs
  · next hb =>
      split
      · exact h.answer s q _ _ hs
      · split
        · exact h.answer s q _ _ hs
        · next l hl =>
            obtain ⟨a, b⟩ := checkSteps_length hl
            have hlen : x.steps.length ≤ x.count := by
              unfold cueLoad? at hx
              split at hx
              · obtain ⟨st, hst, rfl⟩ := Option.map_eq_some_iff.1 hx
                exact cueSteps_length _ _ _ hst
              · cases hx
            refine h.answer _ q _ _ (h.spare.cues s _ hs fun w => ?_)
            exact loadSlot_wf w x.slot l a (by omega)

theorem cueRead (h : Kept own P Spare) {s : State} (hs : P s) : answersWith P (execCueRead s) := by
  unfold execCueRead
  exact h.requestWith _ _ _ (fun q x s _ hs => h.answer s q _ _ hs) hs

theorem runnerArm (h : Kept own P Spare) {s : State} (hs : P s) : answersWith P (execRunnerArm s) := by
  unfold execRunnerArm
  refine h.requestWith _ _ _ (fun q x s _ hs => ?_) hs
  split
  · exact h.answer s q _ _ hs
  · split
    · exact h.answer s q _ _ hs
    · exact h.answer _ q _ _ (h.spare.clearMarks _ (h.spare.updRunner _ _ hs))

theorem runnerGo (h : Kept own P Spare) {s : State} (hs : P s) : answersWith P (execRunnerGo s) := by
  unfold execRunnerGo
  refine h.requestWith _ _ _ (fun q x s _ hs => ?_) hs
  split
  · exact h.answer _ q _ _ (h.spare.release _ _ hs)
  · exact h.answer _ q _ _ (h.spare.completeWait _ _ hs)
  all_goals exact h.answer s q _ _ hs

theorem runnerHalt (h : Kept own P Spare) {s : State} (hs : P s) : answersWith P (execRunnerHalt s) := by
  unfold execRunnerHalt
  refine h.requestWith _ _ _ (fun q x s _ hs => ?_) hs
  split
  · exact h.answer s q _ _ hs
  all_goals exact h.answer _ q _ _ (h.spare.mail _ _ (h.spare.abort _ _ _ hs))

theorem runnerConfirm (h : Kept own P Spare) {s : State} (hs : P s) : answersWith P (execRunnerConfirm s) := by
  unfold execRunnerConfirm
  refine h.requestWith _ _ _ (fun q x s _ hs => ?_) hs
  split
  · exact h.answer _ q _ _ (h.spare.completeWait _ _ hs)
  all_goals exact h.answer s q _ _ hs

theorem runnerResume (h : Kept own P Spare) {s : State} (hs : P s) : answersWith P (execRunnerResume s) := by
  unfold execRunnerResume
  refine h.requestWith _ _ _ (fun q x s _ hs => ?_) hs
  split
  · exact h.answer _ q _ _ (h.spare.release _ _ (h.spare.clearMarks _ hs))
  all_goals exact h.answer s q _ _ hs

theorem runnerClear (h : Kept own P Spare) {s : State} (hs : P s) : answersWith P (execRunnerClear s) := by
  unfold execRunnerClear
  refine h.requestWith _ _ _ (fun q x s _ hs => ?_) hs
  split
  · exact h.answer _ q _ _ (h.spare.setRun _ _ hs)
  all_goals exact h.answer s q _ _ hs

/-! ### Control Link -/

theorem discardFrame (h : Kept own P Spare) (d : LinkCheck) {s : State} (hs : P s) : P (s.discardFrame d) := by
  unfold State.discardFrame
  refine h.inner.raise ?_ _ _ _
  refine h.link _ _ ?_ fun w => w
  cases d <;> exact h.link s _ hs fun w => w

theorem placeRequest (h : Kept own P Spare) (q : Request) {s : State} (hs : P s) : P (s.placeRequest q) := by
  unfold State.placeRequest; split
  · exact hs
  · split
    · next hp =>
        refine h.link s _ hs fun w => ⟨w.1, ?_, w.2.2⟩
        simp only [Link.placesHeld, List.length_append, List.length_singleton] at hp ⊢
        omega
    · split
      · exact h.link s _ hs fun w => w
      · next hr =>
          refine h.link s _ hs fun w => ⟨w.1, ?_, ?_, w.2.2.2⟩
          · have := w.2.1
            simp only [Link.placesHeld, List.filter_append, List.length_append, Request.refusal] at this ⊢
            simpa using this
          · simp only [Link.refusalHeld, Bool.or_eq_true, not_or, Bool.not_eq_true] at hr
            obtain ⟨ha, hb⟩ := hr
            have hc : s.link.ready.countP (fun r => r.refusal) = 0 := by
              rw [List.countP_eq_zero]
              intro r hm
              rw [List.any_eq_false] at ha
              exact ha r hm
            simp only [Link.refusals, List.countP_append, hc, Request.refusal]
            cases ht : s.link.tx with
            | none => simp
            | some x =>
                cases x with
                | report r => simp
                | reply r => rw [ht] at hb; simp at hb; simp [hb]

theorem completeFrame (h : Kept own P Spare) (bs : List Byte) {s : State} (hs : P s) : P (s.completeFrame bs) := by
  unfold State.completeFrame; dsimp only; split
  · split
    · refine h.placeRequest _ ?_
      exact h.link s _ hs fun w => w
    · exact h.discardFrame _ hs
  · exact h.discardFrame _ hs

theorem joinFrame (h : Kept own P Spare) (bs : List Byte) (t : Nat) {s : State} (hs : P s) : P (s.joinFrame bs t) := by
  unfold State.joinFrame; split
  · exact h.link s _ hs fun w => w
  · split
    · exact h.discardFrame _ hs
    · split
      · exact h.completeFrame _ hs
      · exact h.link s _ hs fun w => w

theorem incomingByte (h : Kept own P Spare) (b : Byte) (rate : Nat) {s : State} (hs : P s) :
    answersWith P (execIncomingByte b rate s) := by
  unfold execIncomingByte; split
  · refine h.done ?_
    unfold State.learnRate; split
    · exact h.link s _ hs fun w => w
    · exact hs
  · refine h.done ?_
    unfold State.takeByte; split
    · split
      · exact h.link s _ hs fun w => w
      · exact h.link s _ hs fun w => w
    · exact h.joinFrame _ _ hs

theorem controlFrame (h : Kept own P Spare) (b : Byte) {s : State} (hs : P s) : answersWith P (execControlFrame b s) := by
  unfold execControlFrame; split
  · split
    · exact h.done (h.joinFrame _ _ hs)
    · exact .not_due hs
  · exact .not_due hs

theorem unknownRequest (h : Kept own P Spare) {s : State} (hs : P s) : answersWith P (execUnknownRequest s) :=
  h.request _ _ (fun q s hs => h.answer s q _ _ hs) hs

theorem setBack (h : Kept own P Spare) {s : State} (hs : P s) :
    P { s with link := { s.link with lost := 0 }, intake := { s.intake with since := .zero } } := by
  have h1 := h.link s { s.link with lost := 0 } hs fun w => w
  exact h.inner.intake _ { s.intake with since := .zero } h1

theorem countFrameTick (h : Kept own P Spare) {s : State} (hs : P s) : P s.countFrameTick := by
  unfold State.countFrameTick; split
  · exact hs
  · split
    · have h1 := h.link s { s.link with tickCount := 0 } hs fun w => w
      unfold State.frameReport; dsimp only
      have h2 := fun b => h.inner.report h1 b
      split
      · exact h.setBack (h2 _)
      · exact h2 _
    · exact h.link s _ hs fun w => w

theorem watchFrame (h : Kept own P Spare) {s : State} (hs : P s) : P s.watchFrame := by
  unfold State.watchFrame; split
  · exact hs
  · split
    · exact h.discardFrame _ hs
    · exact h.link s _ hs fun w => w

theorem controlLinkTick (h : Kept own P Spare) {s : State} (hs : P s) : answersWith P (execControlLinkTick s) := by
  unfold execControlLinkTick; split
  · exact h.done (h.watchFrame (h.countFrameTick (h.inner.mail s _ hs)))
  · exact .not_due hs

theorem frameReportDue (h : Kept own P Spare) {s : State} (hs : P s) : answersWith P (execFrameReportDue s) := by
  unfold execFrameReportDue; split
  · split
    · exact h.done (h.watchFrame (h.countFrameTick (h.inner.mail s _ hs)))
    · exact .not_due hs
  · exact .not_due hs

theorem linkStallExpiry (h : Kept own P Spare) {s : State} (hs : P s) : answersWith P (execLinkStallExpiry s) := by
  unfold execLinkStallExpiry; split
  · split
    · exact h.done (h.countFrameTick (h.watchFrame (h.inner.mail s _ hs)))
    · exact .not_due hs
  · exact .not_due hs

theorem reportSet (h : Kept own P Spare) {s : State} (hs : P s) : answersWith P (execReportSet s) := by
  unfold execReportSet
  refine h.requestWith _ _ _ (fun q x s _ hs => ?_) hs
  exact h.answer _ q _ _ (h.settings s _ hs fun w => w)

theorem faultGet (h : Kept own P Spare) {s : State} (hs : P s) : answersWith P (execFaultGet s) := by
  unfold execFaultGet
  exact h.requestWith _ _ _ (fun q x s _ hs => h.answer s q _ _ hs) hs

theorem clearFaults (h : Kept own P Spare) {s : State} (hs : Spare s) : Spare s.clearFaults := by
  refine h.settings s _ hs fun w => ⟨w.1, w.2.1, w.2.2.1, ?_⟩
  simp

theorem faultClear (h : Kept own P Spare) {s : State} (hs : P s) : answersWith P (execFaultClear s) := by
  unfold execFaultClear
  refine h.requestWith _ _ _ (fun q x s _ hs => ?_) hs
  split
  · exact h.answer _ q _ _ (h.clearFaults hs)
  · split
    · exact h.answer _ q _ _ (h.clearFaults hs)
    · exact h.answer s q _ _ hs

theorem resetTaken (h : Kept own P Spare) {s : State} (hs : P s) : answersWith P (execReset s) := by
  unfold execReset
  refine h.requestWith _ _ _ (fun q x s _ hs => ?_) hs
  exact h.answer _ q _ _ (h.settings s { s.link with resetting := true, receiver := .hunting } hs fun w => w)

theorem pinReset (h : Kept own P Spare) (ho : own .all) (m : Nat) {s : State} (hs : P s) : answersWith P (execPinReset m s) :=
  h.done (h.restart ho s m _ _ hs)

theorem freed_wf {l : Link} (w : l.wf) : ({ l with tx := none } : Link).wf := by
  obtain ⟨h1, h2, h3, h4⟩ := w
  refine ⟨h1, ?_, ?_, h4⟩
  · simp only [Link.placesHeld] at h2 ⊢; omega
  · simp only [Link.refusals] at h3 ⊢; omega

theorem transmitDone (h : Kept own P Spare) (ho : own .all) (m : Nat) {s : State} (hs : P s) : answersWith P (execTransmitDone m s) := by
  unfold execTransmitDone; split
  · exact .not_due hs
  · exact h.done (h.link s _ hs freed_wf)
  · split
    · exact h.done (h.restart ho s m _ _ hs)
    · exact h.done (h.link s _ hs freed_wf)

/-! ### Every command -/

/-- Every command answers a next state, and it has the property. -/
theorem exec (h : Kept own P Spare) (i : Instr) (ho : ∀ p, partOf i = some p → own p) {s : State} (hs : P s) : answersWith P (Machine.exec i s) := by
  cases i with
  | pinReset m => exact h.pinReset (ho _ rfl) m hs
  | refEdge x m b => exact h.refEdge (ho _ rfl) x m b hs
  | absenceWatchExpiry x => exact h.absenceWatchExpiry (ho _ rfl) x hs
  | holdoverTimerExpiry => exact h.holdoverTimerExpiry (ho _ rfl) hs
  | chainManagerTick c => exact h.chainManagerTick c hs
  | returnDeadline c => exact h.returnDeadline c hs
  | returnItemReceived c item => exact h.returnItemReceived c item hs
  | segmentStart => exact h.segmentStart hs
  | segmentHeader c a f l => exact h.segmentHeader c a f l hs
  | segmentEnd pl w => exact h.segmentEnd pl w hs
  | segmentStallExpiry => exact h.segmentStallExpiry hs
  | segmentIntakeTick => exact h.segmentIntakeTick hs
  | storeComplete => exact h.storeComplete (ho _ rfl) hs
  | bufferPoolTick => exact h.bufferPoolTick hs
  | scrubTestComplete ok => exact h.scrubTestComplete (ho _ rfl) ok hs
  | frameOrder c => exact h.frameOrder c hs
  | emissionReadComplete ok nf => exact h.emissionReadComplete ok nf hs
  | stillReadRequest c => exact h.stillReadRequest c hs
  | stillReadComplete => exact h.stillReadComplete hs
  | returnTokenSent c => exact h.returnTokenSent c hs
  | faultedNotice c => exact h.faultedNotice c hs
  | sceneTableTick => exact h.sceneTableTick (ho _ rfl) hs
  | fadeComplete c a p => exact h.fadeComplete (ho _ rfl) c a p hs
  | glideEnd c a p => exact h.glideEnd (ho _ rfl) c a p hs
  | clampNotice c => exact h.clampNotice (ho _ rfl) c hs
  | haltNotice => exact h.haltNotice (ho _ rfl) hs
  | sceneWrite => exact h.sceneWrite (ho _ rfl) hs
  | tallyTick l => exact h.tallyTick (ho _ rfl) l hs
  | tallyBatch => exact h.tallyBatch (ho _ rfl) hs
  | runnersTick o => exact h.runnersTick o hs
  | waitExpiry r => exact h.expiry r _ hs
  | expectExpiry r => exact h.expiry r _ hs
  | confirmFirstExpiry r => exact h.expiry r _ hs
  | confirmSecondExpiry r => exact h.expiry r _ hs
  | completeReturnNotice c o => exact h.completeReturnNotice c o hs
  | nodeLostNotice c o => exact h.nodeLostNotice c o hs
  | roomNotice turn => exact h.roomNotice turn hs
  | evictionNotice c => exact h.evictionNotice c hs
  | controlLinkTick => exact h.controlLinkTick hs
  | frameReportDue => exact h.frameReportDue hs
  | linkStallExpiry => exact h.linkStallExpiry hs
  | controlFrame b => exact h.controlFrame b hs
  | unknownRequest => exact h.unknownRequest hs
  | transmitDone m => exact h.transmitDone (ho _ rfl) m hs
  | statusReference => exact h.requestWith _ _ _ (fun q _ s _ hs => h.answer s q _ _ hs) hs
  | statusChain => unfold Machine.exec execStatusChain; exact h.requestWith _ _ _ (fun q _ s _ hs => h.answer s q _ _ hs) hs
  | statusIntake => unfold Machine.exec execStatusIntake; exact h.requestWith _ _ _ (fun q _ s _ hs => h.answer s q _ _ hs) hs
  | statusPool => unfold Machine.exec execStatusPool; exact h.requestWith _ _ _ (fun q _ s _ hs => h.answer s q _ _ hs) hs
  | statusStills => unfold Machine.exec execStatusStills; exact h.requestWith _ _ _ (fun q _ s _ hs => h.answer s q _ _ hs) hs
  | statusScene => unfold Machine.exec execStatusScene; exact h.requestWith _ _ _ (fun q _ s _ hs => h.answer s q _ _ hs) hs
  | statusGroups => unfold Machine.exec execStatusGroups; exact h.requestWith _ _ _ (fun q _ s _ hs => h.answer s q _ _ hs) hs
  | statusTally => unfold Machine.exec execStatusTally; exact h.requestWith _ _ _ (fun q _ s _ hs => h.answer s q _ _ hs) hs
  | statusRunners => unfold Machine.exec execStatusRunners; exact h.requestWith _ _ _ (fun q _ s _ hs => h.answer s q _ _ hs) hs
  | statusLink => unfold Machine.exec execStatusLink; exact h.requestWith _ _ _ (fun q _ s _ hs => h.answer s q _ _ hs) hs
  | refSet m => exact h.refSet (ho _ rfl) m hs
  | frameSet => exact h.frameSet (ho _ rfl) hs
  | chainSetEnable => exact h.chainSetEnable hs
  | chainSetDisable => exact h.chainSetDisable hs
  | chainRewalk => exact h.chainRewalk hs
  | nodeGet => exact h.nodeGet hs
  | nodeSet => exact h.nodeSet hs
  | nodeCommandConfigure => exact h.nodeCommandConfigure hs
  | nodeCommandEnable => exact h.nodeCommandEnable hs
  | nodeReinstate => exact h.nodeReinstate hs
  | segSet => exact h.segSet hs
  | flowClear => exact h.flowClear hs
  | poolScrub => exact h.poolScrub hs
  | stillWriteBegin => exact h.stillWriteBegin hs
  | stillWriteContinue => exact h.stillWriteContinue hs
  | stillClearSlot => exact h.stillClearSlot hs
  | stillClearPage => exact h.stillClearPage hs
  | lookSet => exact h.lookSet (ho _ rfl) hs
  | groupSet => exact h.groupSet (ho _ rfl) hs
  | tallyRuleSet => exact h.tallyRuleSet (ho _ rfl) hs
  | tallyMask => exact h.tallyMask (ho _ rfl) hs
  | cueLoad => exact h.cueLoad hs
  | cueRead => exact h.cueRead hs
  | runnerArm => exact h.runnerArm hs
  | runnerGo => exact h.runnerGo hs
  | runnerHalt => exact h.runnerHalt hs
  | runnerConfirm => exact h.runnerConfirm hs
  | runnerResume => exact h.runnerResume hs
  | runnerClear => exact h.runnerClear hs
  | reportSet => exact h.reportSet hs
  | faultGet => exact h.faultGet hs
  | faultClear => exact h.faultClear hs
  | reset => exact h.resetTaken hs
  | incomingByte b rate => exact h.incomingByte b rate hs
  | flowMessageEnd => exact h.flowMessageEnd hs

end Kept

end Sys2Proof.Machine
end

