-- ==== Sys2Proof/Laws/Order.lean ====
section
/-! SUPPORT. Orders and lists said once: the order in which a chain's entries are released, buffers given back, and the
first of equal references. -/

namespace Sys2Proof.Machine

theorem insertSlot_perm (n : Word16) (x : FrameSlot) (l : List FrameSlot) : (insertSlot n x l).Perm (x :: l) := by
  induction l with
  | nil => exact .refl _
  | cons y rest ih =>
      unfold insertSlot
      split
      · exact .refl _
      · exact (ih.cons y).trans (.swap x y rest)

theorem foldl_insertSlot_perm (n : Word16) (xs acc : List FrameSlot) :
    (xs.foldl (fun l x => insertSlot n x l) acc).Perm (xs ++ acc) := by
  induction xs generalizing acc with
  | nil => exact .refl _
  | cons x rest ih =>
      exact (ih _).trans (((insertSlot_perm n x acc).append_left rest).trans List.perm_middle)

theorem AsmChain.slotsFrom_perm (m : AsmChain) (n : Word16) : (m.slotsFrom n).Perm m.slots := by
  have := foldl_insertSlot_perm n m.slots []
  rwa [List.append_nil] at this

/-- `before` as the rules say it (R93, R104). -/
theorem FrameSlot.before_iff {n : Word16} {x y : FrameSlot} : x.before n y = true ↔
    (x.frame - n).toNat < (y.frame - n).toNat ∨ (x.frame = y.frame ∧ x.address < y.address) := by
  simp only [FrameSlot.before, Bool.or_eq_true, Bool.and_eq_true, decide_eq_true_iff]
  exact Iff.rfl

theorem FrameSlot.before_trans {n : Word16} {x y z : FrameSlot} (h : x.before n y = true) (k : y.before n z = true) :
    x.before n z = true := by
  rw [FrameSlot.before_iff] at *
  rcases h with h | ⟨h, h'⟩ <;> rcases k with k | ⟨k, k'⟩
  · exact .inl (h.trans k)
  · exact .inl (k ▸ h)
  · exact .inl (h ▸ k)
  · exact .inr ⟨h.trans k, h'.trans k'⟩

theorem FrameSlot.not_before_self (n : Word16) (x : FrameSlot) : x.before n x = false := by
  simp [FrameSlot.before]

/-- An entry put in its place among entries in order, when it is comparable with each of them. -/
theorem insertSlot_pairwise {n : Word16} {x : FrameSlot} {l : List FrameSlot}
    (h : l.Pairwise fun x y => x.before n y = true) (hx : ∀ y ∈ l, x.before n y = true ∨ y.before n x = true) :
    (insertSlot n x l).Pairwise fun x y => x.before n y = true := by
  induction l with
  | nil => exact List.pairwise_singleton _ _
  | cons y rest ih =>
      rw [List.pairwise_cons] at h
      unfold insertSlot
      split
      · next hb =>
          exact List.pairwise_cons.2
            ⟨by rintro z (_ | ⟨_, hz⟩); exacts [hb, FrameSlot.before_trans hb (h.1 z hz)], List.pairwise_cons.2 h⟩
      · next hb =>
          have hy : y.before n x = true := (hx y List.mem_cons_self).resolve_left hb
          refine List.pairwise_cons.2 ⟨fun z hz => ?_, ih h.2 fun z hz => hx z (List.mem_cons_of_mem _ hz)⟩
          rcases List.mem_cons.1 ((insertSlot_perm n x rest).mem_iff.1 hz) with rfl | hz
          · exact hy
          · exact h.1 z hz

theorem foldl_insertSlot_pairwise {n : Word16} (xs acc : List FrameSlot)
    (hx : xs.Pairwise fun x y => x.before n y = true ∨ y.before n x = true)
    (hacc : acc.Pairwise fun x y => x.before n y = true)
    (h : ∀ x ∈ xs, ∀ y ∈ acc, x.before n y = true ∨ y.before n x = true) :
    (xs.foldl (fun l x => insertSlot n x l) acc).Pairwise fun x y => x.before n y = true := by
  induction xs generalizing acc with
  | nil => exact hacc
  | cons x rest ih =>
      rw [List.pairwise_cons] at hx
      refine ih _ hx.2 (insertSlot_pairwise hacc (h x List.mem_cons_self)) fun z hz y hy => ?_
      rcases List.mem_cons.1 ((insertSlot_perm n x acc).mem_iff.1 hy) with rfl | hy
      · exact (hx.1 z hz).symm
      · exact h z (List.mem_cons_of_mem _ hz) y hy

/-- The entries in the order of their release are the one list of them that is in that order. -/
theorem AsmChain.slotsFrom_eq {m : AsmChain} {n : Word16} {entries : List FrameSlot} (hp : entries.Perm m.slots)
    (h : entries.Pairwise fun x y => x.before n y = true) : m.slotsFrom n = entries := by
  have comparable : m.slots.Pairwise fun x y => x.before n y = true ∨ y.before n x = true :=
    (hp.pairwise_iff fun {_ _} q => q.symm).1 (h.imp fun q => .inl q)
  have sorted : (m.slotsFrom n).Pairwise fun x y => x.before n y = true :=
    foldl_insertSlot_pairwise m.slots [] comparable .nil fun _ _ _ hy => absurd hy List.not_mem_nil
  refine List.Perm.eq_of_pairwise (fun x y _ _ hxy hyx => ?_) sorted h ((m.slotsFrom_perm n).trans hp.symm)
  have := FrameSlot.before_trans hxy hyx
  rw [FrameSlot.not_before_self] at this
  exact absurd this Bool.false_ne_true

/-- Buffers given up join the free tail in their order, each counted. -/
theorem State.foldl_giveUp (k : AsmCtr) (c : ChainId) (bs : List Nat) (s : State) :
    bs.foldl (State.giveUp k c) s =
      (s.setPool { s.pool with free := s.pool.free ++ bs.map fun b => { buffer := b, reservedBy := none } }).setAsm c
        { s.asm.get c with counters := (AsmCounters.bump k)^[bs.length] (s.asm.get c).counters } := by
  induction bs generalizing s with
  | nil =>
      rw [List.map_nil, List.append_nil]
      show s = { s with asm := s.asm.set c (s.asm.get c) }
      rw [Four.set_get]
  | cons b rest ih =>
      rw [List.foldl_cons, ih]
      simp [State.giveUp, State.toFree, State.countAsm, State.updAsm, State.setPool, State.setAsm, Pool.release,
        AsmChain.count]

theorem AsmCounters.bump_returned_iterate (k : Nat) (x : AsmCounters) :
    (AsmCounters.bump .returned)^[k] x = { x with returned := bump16By k x.returned } := by
  induction k generalizing x with
  | zero => rfl
  | succ k ih => rw [Function.iterate_succ_apply, ih]; rfl

/-- Every entry and held reference of a chain returned: their buffers join the free tail, each counted RETURNED (R104). -/
theorem State.giveBack_eq (c : ChainId) (n : Word16) (s : State) :
    let m := s.asm.get c
    let bs := (m.slotsFrom n).map (fun x => x.buffer) ++ m.heldList.map (fun x => x.2)
    s.giveBack c n =
      (s.setPool { s.pool with free := s.pool.free ++ bs.map fun b => { buffer := b, reservedBy := none } }).setAsm c
        { m with slots := [], held := List.replicate 30 none,
                 counters := { m.counters with returned := bump16By bs.length m.counters.returned } } := by
  intro m bs
  have step : s.giveBack c n =
      (bs.foldl (State.giveUp .returned c) s).updAsm c fun m => { m with slots := [], held := List.replicate 30 none } := by
    simp only [State.giveBack, bs, List.foldl_append, List.foldl_map]
    rfl
  rw [step, State.foldl_giveUp, AsmCounters.bump_returned_iterate]
  simp [State.updAsm, State.setPool, State.setAsm, m]

/-- GROUP_SET keeps the first of each set of equal references (R132). -/
theorem keepFirst_eq_foldl (refs : List NodeRef) :
    keepFirst [] refs = refs.foldl (fun l x => if x ∈ l then l else l ++ [x]) [] := by
  suffices h : ∀ seen acc : List NodeRef, (∀ x, x ∈ acc ↔ x ∈ seen) →
      refs.foldl (fun l x => if x ∈ l then l else l ++ [x]) acc = acc ++ keepFirst seen refs by
    simpa using (h [] [] fun _ => Iff.rfl).symm
  induction refs with
  | nil => intro seen acc _; simp [keepFirst]
  | cons x rest ih =>
      intro seen acc h
      rw [List.foldl_cons, keepFirst]
      by_cases hx : x ∈ seen
      · rw [if_pos hx, if_pos ((h x).2 hx)]
        exact ih seen acc h
      · rw [if_neg hx, if_neg fun q => hx ((h x).1 q), ih (x :: seen) (acc ++ [x]) fun y => ?_]
        · simp
        · simp [h y, or_comm]

end Sys2Proof.Machine
end

