-- ==== Sys2Proof/Machine/Wire.lean ====
section
/-! DEFINITION. Chapter 11: the bytes of what the part sends: control frames with their replies and reports (R193, R194),
flow messages (R195), bundles (R197). Views of the state; no command depends on them. -/

namespace Sys2Proof.Machine

/-! ### Codings (R194) -/

/-- A two-valued thing: the first value its rule lists is 0, the second 1 (R194, log 10). -/
def code2 (first : Bool) : List Byte := if first then [0] else [1]

/-- A plain yes or no that no rule lists as values: 1 for yes (log 10). -/
def codeBool (b : Bool) : List Byte := if b then [1] else [0]

/-- An optional field: its presence byte, then the field (R194). -/
def codeOpt {α : Type} (f : α → List Byte) (x : Option α) : List Byte :=
  match x with
  | none => [0]
  | some v => 1 :: f v

/-- A list of fields one behind another. -/
def codeAll {α : Type} (f : α → List Byte) (l : List α) : List Byte := l.flatMap f

/-- A list with its count of one byte (R194). -/
def codeList {α : Type} (f : α → List Byte) (l : List α) : List Byte := put8 l.length ++ codeAll f l

/-- Reference inputs. -/
def codeInput : RefInput → List Byte
  | .a => [0]
  | .b => [1]

/-- Input states in the order of R1. -/
def codeInputState : InputState → List Byte
  | .absent => [0]
  | .unstable => [1]
  | .good => [2]

/-- Reference modes in the order of R14. -/
def codeRefMode : RefMode → List Byte
  | .autoA => [0]
  | .autoB => [1]
  | .forceA => [2]
  | .forceB => [3]
  | .free => [4]

/-- Frame rates in the order of R14. -/
def codeRate : FrameRate → List Byte
  | .r25 => [0]
  | .r29_97 => [1]
  | .r50 => [2]
  | .r59_94 => [3]

/-- Tick sources in the order of R4. -/
def codeSource : TickSource → List Byte
  | .locked .a => [0]
  | .locked .b => [1]
  | .holdover => [2]
  | .freeRun => [3]

/-- Chain states in the order of R25. -/
def codeChainMode : ChainMode → List Byte
  | .off => [0]
  | .walking => [1]
  | .running => [2]
  | .extending => [3]
  | .broken => [4]
  | .faulted => [5]

/-- Node states in the order of R24; ABSENT is 0. -/
def codeNodeState : NodeState → List Byte
  | .ident => [1]
  | .live => [2]
  | .suspect => [3]
  | .failed => [4]
  | .cut => [5]

/-- Node modes in the order of R20. -/
def codeNodeMode : NodeMode → List Byte
  | .ident => [0]
  | .live => [1]

/-- Kinds in the order of R23. -/
def codeKind : KindName → List Byte
  | .tile => [0]
  | .lamp => [1]

/-- Routes in the order of R19. -/
def codeRoute : Route → List Byte
  | .normal => [0]
  | .skipNext => [1]

/-- Gap policies in the order of R38. -/
def codeGap : GapPolicy → List Byte
  | .repeatHeld => [0]
  | .still => [1]
  | .black => [2]

/-- A tile source (R194). -/
def codeTileSource : TileSource → List Byte
  | .liveFeed => [0]
  | .still p => put8 (p + 1)
  | .freeze => [5]
  | .black => [6]

/-- A node reference: chain and address. -/
def codeRef (r : NodeRef) : List Byte := put8 r.chain.val ++ put8 r.address

/-- Health flags, a set of named values (R194, R199). -/
def codeHealth (h : BitVec 4) : List Byte := [h.setWidth 8]

/-- A generation. -/
def codeGen (g : BitVec 4) : List Byte := [g.setWidth 8]

/-- Kind filters in the order of R194. -/
def codeFilter : KindFilter → List Byte
  | .tile => [0]
  | .lamp => [1]
  | .any => [2]

/-- A selector's four bytes (R194). -/
def codeSelector : Selector → List Byte
  | .group g => [1] ++ put8 g ++ [0, 0]
  | .nodes c a f =>
      [0] ++ ((c.map fun x => put8 x.val).getD [0xFF]) ++ ((a.map put8).getD [0xFF]) ++ codeFilter f

/-- A parameter and its value: SOURCE, BRIGHTNESS, INTENSITY, PRESET in the order of R121 and R147. The value has the size of
its own parameter's maximum: one byte for a PRESET (log 10). -/
def codeLookValue : LookValue → List Byte
  | .source x => 0 :: codeTileSource x
  | .brightness v => 1 :: putNum16 v
  | .intensity v => 2 :: putNum16 v
  | .preset v => 3 :: put8 v

/-- The five settings of a CONFIGURE (R39). -/
def codeSettings (x : ConfigSettings) : List Byte :=
  put8 x.colour ++ put8 x.gamma ++ put8 x.rotation ++ put8 x.dimming ++ put8 x.fan

/-- Conditions in the order of R147, with the tag of CONFIG_TAG. -/
def codeCondition : Condition → List Byte
  | .modeLive => [0]
  | .configTag t => [1, t]
  | .applied => [2]

/-- A step: its kind byte in the order of R147, then its fields (R194). -/
def codeStep : CueStep → List Byte
  | .look sel v => 0 :: codeSelector sel ++ codeLookValue v
  | .fade sel p t n =>
      1 :: codeSelector sel ++ (match p with | .brightness => [0] | .intensity => [1]) ++ putNum16 t ++ putNum16 n
  | .wait n => 2 :: putNum16 n
  | .syncFrame f => 3 :: 0 :: put16 f
  | .syncGo => [3, 1]
  | .configure sel tag x => 4 :: codeSelector sel ++ tag :: codeSettings x
  | .enable sel => 5 :: codeSelector sel
  | .expect sel cond w strict => 6 :: codeSelector sel ++ codeCondition cond ++ put8 w ++ code2 strict
  | .confirm w k => 7 :: putNum16 w ++ codeOpt put8 k
  | .finish => [8]
  | .stop => [9]

/-- Outcomes of a done mark in the order of R146. -/
def codeOutcome : MarkOutcome → List Byte
  | .done => [0]
  | .late => [1]
  | .missed => [2]
  | .fellBack => [3]

/-- A done mark (R146). -/
def codeMark (m : Mark) : List Byte := put8 m.runner.val ++ put16 m.frame ++ codeOutcome m.outcome

/-- Abort reasons in the order of R150. -/
def codeReason : AbortReason → List Byte
  | .halted => [0]
  | .queueEvicted => [1]
  | .expectFailed => [2]
  | .unconfirmed => [3]

/-- Runner states in the order of R150. -/
def codeRunState : RunState → List Byte
  | .idle => [0]
  | .armed => [1]
  | .waiting _ => [2]
  | .parked => [3]
  | .aborted _ => [4]

/-- The kind of a wait in the order of R150. -/
def codeWait : Wait → List Byte
  | .ticks _ => [0]
  | .frame _ => [1]
  | .go => [2]
  | .room _ _ _ => [3]
  | .check _ _ _ _ => [4]
  | .confirm _ _ => [5]

/-- The wait of a runner, while it is WAITING. -/
def RunState.wait? : RunState → Option Wait
  | .waiting w => some w
  | .idle | .armed | .parked | .aborted _ => none

/-- The abort reason of a runner, while it is ABORTED. -/
def RunState.reason? : RunState → Option AbortReason
  | .aborted r => some r
  | .idle | .armed | .parked | .waiting _ => none

/-- A runner as STATUS returns it: state, slot, step index, wait kind, abort reason (R150). -/
def codeRunner (u : Runner) : List Byte :=
  codeRunState u.state ++ codeOpt put8 u.slot ++ codeOpt put8 u.step ++ codeOpt codeWait u.state.wait? ++
    codeOpt codeReason u.state.reason?

/-- The kind of a command in the order of R28, and its target; PORT is address 0 (log 10). -/
def codeCmd : Cmd → List Byte
  | .setEnd h _ => 0 :: put8 h
  | .route none _ => [1, 0]
  | .route (some a) _ => 1 :: put8 a
  | .configure a _ _ => 2 :: put8 a
  | .enable a => 3 :: put8 a

/-- Issuers in the order of R28. -/
def codeIssuer : Issuer → List Byte
  | .manager => [0]
  | .control => [1]
  | .runner r => put8 (2 + r.val)

/-- The fourteen intake counters in the order of R82. -/
def codeIntake (c : IntakeCounts) : List Byte :=
  codeAll putNum16 [c.received, c.filed, c.badLength, c.badTarget, c.overrun, c.stall, c.check, c.chainOff, c.notLive,
    c.late, c.early, c.nobuf, c.dup, c.flushed]

/-- The five counts of a CHAIN report (R27). -/
def codeCounts (c : StateCounts) : List Byte := codeAll put8 [c.ident, c.live, c.suspect, c.failed, c.cut]

/-! ### Faults (R186, R187) -/

/-- The number of a fault's kind, in the order of R186. -/
def faultKind : PartFault → Nat
  | .refLost _ _ => 0
  | .refHoldover _ => 1
  | .chainBroken _ => 2
  | .chainCut _ => 3
  | .addrClash _ _ _ => 4
  | .modeMismatch _ _ => 5
  | .segCheck _ => 6
  | .segStall _ => 7
  | .segOverrun => 8
  | .poolEmpty _ => 9
  | .memCheck _ _ => 10
  | .expectFailed _ _ _ _ => 11
  | .confirmFallback _ _ _ => 12
  | .linkCheck _ => 13

/-- A cause of a failed EXPECT, with the node it names (R167). The node stands behind a presence byte for either cause, since
EXPIRED names none when every considered node is satisfied (log 41): the model's choice (log 10). -/
def codeExpectFail : ExpectFail → List Byte
  | .expired n => 0 :: codeOpt codeRef n
  | .nodeLost n => 1 :: codeOpt codeRef (some n)

/-- A fault's detail, as the raising rule gives it. A SEG_STALL has the frame of a complete header as its detail; where the
header is not complete R70 names no frame, and the detail is absent (log 10). Each of the two positions of an ADDR_CLASH (R52)
stands behind a presence byte, since the address may be enrolled nowhere and the hop may hold no node: the model's choice (log
10). -/
def codeDetail : PartFault → List Byte
  | .refLost x m => codeInput x ++ (match m with | .absent => [0] | .unstable => [1])
  | .refHoldover s => codeSource s
  | .chainBroken h => codeOpt put8 h
  | .chainCut h => put8 h
  | .addrClash r p h => codeOpt put8 r ++ codeOpt put8 p ++ put8 h
  | .modeMismatch s m => codeNodeState s ++ codeNodeMode m
  | .segCheck f => put16 f
  | .segStall f => (f.map put16).getD []
  | .segOverrun => []
  | .poolEmpty f => put16 f
  | .memCheck b f => putNum16 b ++ put16 f
  | .expectFailed r k c x => put8 r.val ++ put8 k ++ codeCondition c ++ codeExpectFail x
  | .confirmFallback r k f => put8 r.val ++ put8 k ++ put8 f
  | .linkCheck d => match d with | .length => [0] | .check => [1] | .stall => [2]

/-- The detail is absent where its rule gives none. -/
def PartFault.detail? (f : PartFault) : Option (List Byte) :=
  match codeDetail f with
  | [] => none
  | b :: rest => some (b :: rest)

/-- Sources in the order of R186, CHAIN with its number. -/
def codeFaultSource : FaultSource → List Byte
  | .reference => [0]
  | .chain c => 1 :: put8 c.val
  | .intake => [2]
  | .pool => [3]
  | .assembler => [4]
  | .runners => [5]
  | .link => [6]

/-- A fault's kind, source, frame number, node reference and detail (R187). -/
def codeFault (f : FaultRecord) : List Byte :=
  put8 (faultKind f.fault) ++ codeFaultSource f.source ++ put16 f.frame ++ codeOpt codeRef f.node ++
    codeOpt id f.fault.detail?

/-! ### Reports (R193, R194) -/

/-- The kind byte of a report, in the order of section 10.5 (R194). -/
def ReportBody.kindByte : ReportBody → Byte
  | .hello _ _ => 0xC1
  | .frame _ _ _ _ _ _ _ _ _ => 0xC2
  | .ref _ _ _ _ _ _ _ => 0xC3
  | .node _ _ _ _ => 0xC4
  | .chain _ _ _ _ _ => 0xC5
  | .flow _ _ _ _ _ _ => 0xC6
  | .pool _ _ _ _ _ _ => 0xC7
  | .cue _ _ _ _ _ => 0xC8
  | .fault _ _ _ => 0xC9

/-- Causes of a NODE report in the order of R49, with what the cause adds. -/
def codeNodeCause : NodeCause → List Byte × List Byte
  | .joined => ([0], [])
  | .found => ([1], [])
  | .left => ([2], [])
  | .stranger hop kind => ([3], [hop, kind])
  | .replaced i => ([4], put16 i.model ++ put32 i.serial)
  | .health => ([5], [])
  | .mismatch => ([6], [])
  | .failed => ([7], [])
  | .cut => ([8], [])
  | .reinstated => ([9], [])
  | .reinstateFailed => ([10], [])

/-- What a NODE report carries of a record; an ABSENT one its state alone (R49, log 10). -/
def codeBrief : Option NodeBrief → List Byte
  | none => [0]
  | some b =>
      codeNodeState b.state ++ put8 b.position ++ codeOpt put8 b.hop ++ codeNodeMode b.mode ++ [b.tag] ++
        codeHealth b.health

/-- Causes of a CHAIN report in the order of R27, with what CMD_DROPPED adds. -/
def codeChainCause : ChainCause → List Byte
  | .enabled => [0]
  | .walkDone => [1]
  | .rewalk => [2]
  | .broken => [3]
  | .repaired => [4]
  | .cut => [5]
  | .faulted => [6]
  | .disabled => [7]
  | .cmdDropped cmd by_ => 8 :: codeCmd cmd ++ codeIssuer by_

/-- Causes of a CUE report in the order of R173, with their details. The evicted command of an ABORTED report stands there bare,
with no presence byte, since the reason ahead of it tells that it is there: the model's choice (log 10). -/
def codeCueCause : CueCause → List Byte
  | .syncLate f e => 0 :: put16 f ++ put16 e
  | .expectMissed c x => 1 :: codeCondition c ++ codeExpectFail x
  | .confirmWanted w => 2 :: putNum16 w
  | .confirmOverdue w => 3 :: putNum16 w
  | .parked => [4]
  | .done => [5]
  | .aborted r x => 6 :: codeReason r ++ ((x.map fun v => put8 v.chain.val ++ codeCmd v.cmd).getD [])

/-- A report's own fields, in the order its rule lists them (R194). HELLO's identity code has two bytes and its silicon
revision one: the model's choice, as R185 and R194 give no size for either (log 10). A NODE report has its cause first and
what the cause adds, a STRANGER's hop and kind or a REPLACED one's identity, last: R49 gives neither a place (log 10). -/
def ReportBody.fields : ReportBody → List Byte
  | .hello cause rate =>
      put16 Config.identityCode ++ [Config.siliconRevision] ++ (match cause with | .pin => [0] | .request => [1]) ++
        codeOpt (fun n => put32 (BitVec.ofNat 32 n)) rate
  | .frame e source free quarantine pause chains intake lost faults =>
      put16 e ++ codeSource source ++ putNum16 free ++ putNum16 quarantine ++ code2 pause ++
        codeAll codeChainMode chains.toList ++ codeIntake intake ++ putNum16 lost ++ putNum16 faults
  | .ref cause mode rate a b source counter =>
      (match cause with | .inputA => [0] | .inputB => [1] | .source => [2]) ++ codeRefMode mode ++ codeRate rate ++
        codeInputState a ++ codeInputState b ++ codeSource source ++ put16 counter
  | .node cause ch address brief =>
      (codeNodeCause cause).1 ++ put8 ch.val ++ put8 address ++ codeBrief brief ++ (codeNodeCause cause).2
  | .chain cause ch state endHop counts =>
      put8 ch.val ++ codeChainMode state ++ codeOpt put8 endHop ++ codeCounts counts ++ codeChainCause cause
  | .flow cause e free quarantine threshold pauseLen =>
      (match cause with | .pauseStart => [0] | .pauseEnd => [1]) ++ put16 e ++ putNum16 free ++ putNum16 quarantine ++
        putNum16 threshold ++ put8 pauseLen
  | .pool tested returned kept quarantine free e =>
      codeAll putNum16 [tested, returned, kept, quarantine, free] ++ put16 e
  | .cue cause runner slot step e =>
      put8 runner.val ++ codeOpt put8 slot ++ codeOpt put8 step ++ put16 e ++ codeCueCause cause
  | .fault record count captured => codeFault record ++ putNum16 count ++ codeBool captured

/-! ### Replies (R193, R194) -/

/-- Reply codes in the order of R180. -/
def codeReply : ReplyCode → Byte
  | .ok => 0
  | .unknown => 1
  | .badArg => 2
  | .busy => 3
  | .full => 4
  | .state => 5
  | .notFound => 6
  | .sequence => 7
  | .check => 8

/-- For each line 0 to 7, its latched state and last sample (R144), each on 0 or off 1 (R134). -/
def codeLines (latched sample : BitVec 8) : List Byte :=
  codeAll (fun k => code2 (latched.getLsbD k) ++ code2 (sample.getLsbD k)) (List.range 8)

/-- A tally rule's parameter, in the order of R136, and its value, of the size of that parameter's maximum (log 10). -/
def codeOverValue (p : OverParam) (v : Nat) : List Byte :=
  match p with
  | .brightness => 0 :: putNum16 v
  | .intensity => 1 :: putNum16 v
  | .preset => 2 :: put8 v

/-- A tally rule's eight settings in the order of R136. -/
def codeRule (x : TallyRule) : List Byte :=
  code2 x.enabled ++ put8 x.line ++ (match x.sense with | .on => [0] | .off => [1]) ++ codeSelector x.target ++
    codeOverValue x.param x.value ++ put8 x.attack ++ put8 x.release

/-- The seven counters of a chain record (R25, R200). -/
def codeChainCounters (c : ChainCounters) : List Byte :=
  codeAll putNum16 [c.sent, c.discarded, c.dropped, c.complete, c.missing, c.returnCheck, c.blockRange]

/-- The eleven counters of the assembler in the order of R103. -/
def codeAsmCounters (c : AsmCounters) : List Byte :=
  codeAll putNum16 [c.bundles, c.overrun, c.sent, c.gaps, c.stillEmpty, c.superseded, c.withdrawn, c.expiredLate,
    c.expiredEarly, c.returned, c.memCheck]

/-- The chain section of STATUS: chain state, END hop, port route, break count, limits and counters (R25), then the number
of records in each node state, the assembler's counters and the frame-slot entries by frame (R181). -/
def codeChainStatus (s : ChainStatus) : List Byte :=
  codeChainMode s.state ++ codeOpt put8 s.endHop ++ codeRoute s.portRoute ++ put8 s.breakCount ++ put8 s.silentLimit ++
    put8 s.breakLimit ++ codeChainCounters s.counters ++ put8 s.absent ++ codeCounts s.counts ++
    codeAsmCounters s.assembler ++ codeList (fun x => put16 x.1 ++ put8 x.2) s.slots

/-- Phases of a staging entry in the order of R67, free first. -/
def codePhase : EntryPhase → List Byte
  | .free => [0]
  | .receiving => [1]
  | .queued => [2]
  | .storing => [3]

/-- A tile's own fields (R23). In a NODE_GET reply the held buffer's place says whether one is present (R37) and not which it
is (R23, R89): the model's choice, as is that place ahead of the gap count (log 10). -/
def codeTile (held : Bool) (t : TileSettings) : List Byte :=
  codeGap t.gap ++ codeOpt put8 t.fallback ++ codeBool held ++ putNum16 t.gapCount ++ putNum16 t.lateCount

/-- A node record as NODE_GET returns it, in the order of R23; an ABSENT one its address and state alone (R37). The fields
that an enrolled record may lack (hop, look generation, identity, fallback page) are optional ones with a presence byte; the
kind tells whether a tile's own fields follow, and a lamp has nothing in their place (log 10). -/
def codeNode (address : Nat) (hop : Option Nat) (held : Bool) (n : Option Node) : List Byte :=
  put8 address ++
    (match n with
      | none => [0]
      | some n =>
          codeKind n.kindName ++ put8 n.position ++ codeOpt put8 hop ++ codeNodeState n.state ++ codeNodeMode n.mode ++
            [n.tag] ++ codeOpt codeGen n.gen ++ put8 n.silent ++ put8 (if n.mismatch then 1 else 0) ++
            codeHealth n.health ++ codeOpt (fun i => put16 i.model ++ put32 i.serial) n.identity ++ codeRoute n.route ++
            putNum16 n.clamp ++ ((n.tile?.map (codeTile held)).getD []))

/-- The count of owned parameters for each writer (R117). -/
def codeOwners (o : OwnerCounts) : List Byte := codeAll put8 [o.none, o.control, o.runners.r0, o.runners.r1, o.runners.r2]

/-- Link counters in the order of R176. -/
def codeLinkCounters (c : LinkCounters) : List Byte :=
  codeAll putNum16 [c.received, c.hunted, c.lengthDiscards, c.checkDiscards, c.stallDiscards, c.refusedFull, c.dropped]

/-- The number of slots of a page in each state (R108). -/
def codePage (p : PageCounts) : List Byte := codeAll put8 [p.empty, p.filling, p.ready]

/-- States of a still slot in the order of R107. -/
def codeStill (x : StillState × Option Nat) : List Byte :=
  (match x.1 with | .empty => [0] | .filling => [1] | .ready => [2]) ++ codeOpt putNum16 x.2

/-- The fault count, then the captured fault when the count is above 0 (R188): the count tells whether it is present, so no
presence byte goes before it (log 10). -/
def codeFaults (count : Nat) (captured : Option FaultRecord) : List Byte :=
  putNum16 count ++ ((captured.map codeFault).getD [])

/-- A reply's own fields, in the order its rule lists them (R194). The reserved and unreserved counts of the still memory, up to
1048576, have four bytes: the model's choice, as R194 names no size for a number above 65535 (log 10). The scrub state in
STATUS POOL (R84) is one optional number, present while a scrub runs: the buffers still to test (log 10). In a CUE_READ reply
each done mark stands right behind its step: R149 does not say whether the marks follow the whole list (log 10). -/
def ReplyBody.fields : ReplyBody → List Byte
  | .empty => []
  | .statusReference source mode rate a b counter pending =>
      codeSource source ++ codeRefMode mode ++ codeRate rate ++ codeInputState a ++ codeInputState b ++ put16 counter ++
        codeBool pending
  | .statusChain s => codeChainStatus s
  | .statusIntake e0 e1 hold total => codePhase e0 ++ codePhase e1 ++ codeBool hold ++ codeIntake total
  | .statusPool free quarantine pause threshold pauseLen exhausted scrub =>
      putNum16 free ++ putNum16 quarantine ++ code2 pause ++ putNum16 threshold ++ put8 pauseLen ++ code2 exhausted ++
        codeOpt putNum16 scrub
  | .statusStills reserved unreserved pages =>
      put32 (BitVec.ofNat 32 reserved) ++ put32 (BitVec.ofNat 32 unreserved) ++ codeAll codePage pages.toList
  | .statusScene gens owners =>
      codeGen gens.c0 ++ codeOwners owners.c0 ++ codeGen gens.c1 ++ codeOwners owners.c1 ++ codeGen gens.c2 ++
        codeOwners owners.c2 ++ codeGen gens.c3 ++ codeOwners owners.c3
  | .statusGroups groups => codeAll (codeList codeRef) groups
  | .statusTally latched sample mask rules claims =>
      codeLines latched sample ++ [mask] ++ codeAll (fun x => codeRule x.1 ++ codeBool x.2) rules ++ codeAll (codeOpt put8) claims
  | .statusRunners runners => codeAll codeRunner runners.toList
  | .statusLink held reports lost mask period counters count rate =>
      put8 held ++ put8 reports ++ putNum16 lost ++ [mask] ++ put8 period ++ codeLinkCounters counters ++
        putNum16 count ++ codeOpt (fun n => put32 (BitVec.ofNat 32 n)) rate
  | .nodeGet address node hop held => codeNode address hop held node
  | .still slot unreserved =>
      ((slot.map codeStill).getD []) ++ put32 (BitVec.ofNat 32 unreserved)
  | .stillClear emptied unreserved => put8 emptied ++ put32 (BitVec.ofNat 32 unreserved)
  | .look written skipped => put8 written ++ put8 skipped
  | .group kept => put8 kept
  | .ruleActive active => codeBool active
  | .cueLoad steps => put8 steps
  | .cueBadStep k => put8 k
  | .cueRead steps runners =>
      (match steps with
        | none => [0]
        | some l => 1 :: codeList (fun x => codeStep x.step ++ codeOpt codeMark x.mark) l) ++
        codeList (fun x => put8 x.1.val ++ codeRunState x.2) runners
  | .faults count captured => codeFaults count captured

/-! ### Frames of the control port (R193) -/

/-- A control frame (R193). -/
def frameBytes (kind tag : Byte) (body : List Byte) : List Byte :=
  let covered := putNum16 (body.length + 2) ++ kind :: tag :: body
  0xA7 :: covered ++ put16 (crc16 covered)

/-- The frame of a reply (R193, R194). -/
def Reply.bytes (r : Reply) : List Byte := frameBytes 0x80 r.tag (r.kind :: codeReply r.code :: r.body.fields)

/-- The frame of a report (R193, R194). -/
def Report.bytes (r : Report) : List Byte := frameBytes r.body.kindByte r.seq (put16 r.frame ++ r.body.fields)

/-- The bytes that the transmitter sends, while it sends (R182). -/
def Link.sending (l : Link) : List Byte :=
  match l.tx with
  | some (.reply r) => r.bytes
  | some (.report r) => r.bytes
  | none => []

/-! ### Flow messages (R195) -/

/-- A flow message (R195). -/
def FlowMsg.bytes (m : FlowMsg) : List Byte :=
  let covered :=
    match m with
    | .pause f p => 0x50 :: put16 f ++ put8 p
    | .resume f => 0x52 :: put16 f ++ [0]
  covered ++ put16 (crc16 covered)

/-! ### Bundles (R197) -/

/-- A command entry of a bundle; a ROUTE for the chain port has none (R31, R197). -/
def Cmd.entry : Cmd → List Byte
  | .setEnd h on => 1 :: put8 h ++ codeBool on ++ [0, 0, 0, 0, 0]
  | .route none _ => []
  | .route (some a) r => 2 :: put8 a ++ codeRoute r ++ [0, 0, 0, 0, 0]
  | .configure a tag x => 3 :: put8 a ++ tag :: codeSettings x
  | .enable a => 4 :: put8 a ++ [0, 0, 0, 0, 0, 0]

/-- A node block (R197). -/
def Block.bytes : Block → List Byte
  | .empty => [0]
  | .poll => [1]
  | .level i p => 2 :: putNum16 i ++ put8 p
  | .tileBlack b => 3 :: putNum16 b
  | .tileImage b image => 4 :: putNum16 b ++ putNum16 image.length ++ image

/-- The header of a bundle (R95, R197). -/
def bundleHeader (frame : Word16) (gen : BitVec 4) (cmds places : Nat) : List Byte :=
  [frame.setWidth 8, gen ++ BitVec.ofNat 4 cmds, BitVec.ofNat 8 places]

/-- A whole bundle, token included (R95, R197). -/
def bundleBytes (frame : Word16) (gen : BitVec 4) (cmds : List Cmd) (blocks : List Block) : List Byte :=
  let covered := bundleHeader frame gen cmds.length blocks.length ++ codeAll Cmd.entry cmds ++ codeAll Block.bytes blocks
  covered ++ 0xE7 :: put16 (crc16 covered)

/-- The bytes of a bundle in emission that have gone out (R95). -/
def Bundle.sent (b : Bundle) : List Byte :=
  match b.wait with
  | .token => bundleBytes b.info.frame b.gen b.cmds b.out
  | .memRead _ _ _ _ _ _ | .stillAsk _ _ _ _ | .stillRead _ _ _ =>
      bundleHeader b.info.frame b.gen b.cmds.length b.info.path.length ++ codeAll Cmd.entry b.cmds ++
        codeAll Block.bytes b.out

/-- The bytes of a probe bundle (R50, R197). -/
def ProbeBundle.bytes (p : ProbeBundle) : List Byte := bundleBytes p.info.frame p.gen p.cmds p.blocks

/-! ### The return's items as a node sends them (R199) -/

/-- A status block (R199). -/
def StatusBlock.bytes (b : StatusBlock) : List Byte :=
  match b.identity with
  | none => [0x51, b.hop, b.address, b.kind, b.mode, b.tag, b.gen, b.health]
  | some i => [0x52, b.hop, b.address, b.kind, b.mode, b.tag, b.gen, b.health] ++ put16 i.model ++ put32 i.serial

/-- A trailer over the bytes of the return before it (R199). -/
def trailerBytes (before : List Byte) (hop echo : Byte) : List Byte :=
  let head := [0x54, hop, echo]
  head ++ put16 (crc16 (before ++ head))

end Sys2Proof.Machine
end

