-- ==== Sys2Proof/Machine/Node.lean ====
section
/-! DEFINITION. What the part relies on of the nodes (R19, R20, R198): plain functions beside the machine. A node is
outside the part; what it does reaches the part as items of a return, and none of its state is the part's. -/

namespace Sys2Proof.Machine

/-- A node as the part relies on it (R19, R20). -/
structure Device where
  address : Nat
  kind : KindName
  mode : NodeMode
  tag : Byte
  settings : Option ConfigSettings
  gen : Option (BitVec 4)
  health : BitVec 4
  identity : Identity
  route : Route
  /-- A route taken with the bundle at hand; it carries the next one (R20). -/
  newRoute : Option Route
  isEnd : Bool
  /-- The block last applied: the image or level the node holds (R20). -/
  shown : Option Block
  deriving DecidableEq, Repr

/-- A node after power-up: mode IDENT and config tag 0 (R20). Its route NORMAL, no END designation, no health flag and nothing
shown are the model's choice, as R20 gives none of them (log 57). -/
def Device.powerUp (address : Nat) (kind : KindName) (identity : Identity) : Device :=
  { address := address, kind := kind, mode := .ident, tag := 0, settings := none, gen := none, health := 0,
    identity := identity, route := .normal, newRoute := none, isEnd := false, shown := none }

/-- A command of a bundle acted on by the node at path hop `hop` (R20). -/
def Device.obey (hop : Nat) (d : Device) (c : Cmd) : Device :=
  match c with
  | .configure a tag x => if a = d.address ∨ a = 31 then { d with settings := some x, tag := tag, mode := .ident } else d
  | .enable a => if a = d.address ∨ a = 31 then { d with mode := .live } else d
  | .route (some a) r => if a = d.address then { d with newRoute := some r } else d
  | .route none _ => d
  | .setEnd h on => if h = hop then { d with isEnd := on } else d

/-- A block of the node's own kind that shows something (R20). -/
def Block.isFor (k : KindName) : Block → Bool
  | .level _ _ => decide (k = .lamp)
  | .tileBlack _ => decide (k = .tile)
  | .tileImage _ _ => decide (k = .tile)
  | .empty => false
  | .poll => false

/-- The node's block applied, in LIVE and of its own kind (R20, R198). -/
def Device.apply (gen : BitVec 4) (b : Block) (d : Device) : Device :=
  if d.mode = .live ∧ b.isFor d.kind = true then { d with gen := some gen, shown := some b } else d

/-- A bundle taken by the node at path hop `hop`: commands in order, then its own block, the one whose index is its hop; a
node beyond the blocks takes none. A damaged bundle changes nothing (R19, R20, R198). -/
def Device.take (intact : Bool) (hop : Nat) (gen : BitVec 4) (cmds : List Cmd) (blocks : List Block) (d : Device) :
    Device :=
  if intact then
    let d := cmds.foldl (Device.obey hop) d
    match blocks[hop - 1]? with
    | some b => d.apply gen b
    | none => d
  else d

/-- A taken route acts once the bundle is sent on and its return handled (R20). -/
def Device.settle (d : Device) : Device := { d with route := d.newRoute.getD d.route, newRoute := none }

/-- The node's status block (R20, R199): with its identity in IDENT. -/
def Device.status (hop : Nat) (d : Device) : StatusBlock :=
  { hop := BitVec.ofNat 8 hop, address := BitVec.ofNat 8 d.address, kind := if d.kind = .tile then 0 else 1,
    mode := if d.mode = .ident then 0 else 1, tag := d.tag,
    gen := match d.gen with
      | some g => g.setWidth 8
      | none => 0xFF,
    health := d.health.setWidth 8, identity := if d.mode = .ident then some d.identity else none }

/-- The status blocks of an intact bundle's return in the order they arrive: from the first END on the path inward (R19,
R199). No END, no return. -/
def returnBlocks (hop : Nat) (path : List Device) : Option (List StatusBlock) :=
  match path with
  | [] => none
  | d :: rest =>
      if d.isEnd then some [d.status hop] else (returnBlocks (hop + 1) rest).map fun l => l ++ [d.status hop]

end Sys2Proof.Machine
end

