-- ==== Sys2Proof/Tests/Slice0.lean ====
section
/-! SUPPORT. The model's own tests. Expected results come from the manual's worked sequences and tables. For every
statement with hypotheses, `witness_<its name>` shows states and operands that meet them, clause by clause. -/

namespace Sys2Proof.Tests

open Sys2Proof.Machine

set_option Elab.async false

/-! ### Well-formedness refuses -/

theorem test_wf_empty_item : Instr.wf (.returnItemReceived 0 []) = false := by decide
theorem test_wf_short_block : Instr.wf (.returnItemReceived 0 [0x51, 1, 7]) = false := by decide
theorem test_wf_trailer : Instr.wf (.returnItemReceived 0 [0x54, 1, 100, 0, 0]) = true := by decide
theorem test_wf_empty_payload : Instr.wf (.segmentEnd [] 0) = false := by decide
theorem test_wf_fade_address : Instr.wf (.fadeComplete 0 31 .brightness) = false := by decide
theorem test_wf_glide_address : Instr.wf (.glideEnd 0 0 .intensity) = false := by decide
theorem test_wf_line_rate : Instr.wf (.incomingByte 0xA7 3000001) = false := by decide

/-! ### Check codes (R192 gives both values) -/

theorem test_crc16 : crc16 [0x31, 0x32, 0x33, 0x34, 0x35, 0x36, 0x37, 0x38, 0x39] = 0x29B1 := by decide +kernel
theorem test_crc32 : crc32 [0x31, 0x32, 0x33, 0x34, 0x35, 0x36, 0x37, 0x38, 0x39] = 0xCBF43926 := by decide +kernel

/-! ### Builders of small states -/

/-- A request. -/
def request (kind : Byte) (body : List Byte) : Request := { kind := kind, tag := 7, body := body }

/-- The part after reset with one request waiting. -/
def asked (kind : Byte) (body : List Byte) : State :=
  State.reset.setLink { State.reset.link with waiting := [request kind body] }

/-- The same request in front of another state. -/
def asking (kind : Byte) (body : List Byte) (s : State) : State :=
  s.setLink { s.link with waiting := [request kind body] }

/-- The state a command leaves, if it goes on. -/
def after (i : Instr) (s : State) : Option State :=
  match exec i s with
  | .next t => some t
  | .fault _ => none
  | .refused _ => none

/-- The code of the newest ready reply. -/
def lastCode (s : State) : Option ReplyCode := s.link.ready.getLast?.map fun r => r.code

/-- A LIVE lamp at a position. -/
def lampAt (position : Nat) : Node :=
  { kind := .lamp, position := position, state := .live, mode := .live, tag := 0, gen := none, silent := 0,
    mismatch := false, health := 0, identity := none, route := .normal, clamp := 600 }

/-- A LIVE tile at a position. -/
def tileAt (position : Nat) (gap : GapPolicy) (fallback : Option Nat) : Node :=
  { lampAt position with kind := .tile { gap := gap, fallback := fallback, gapCount := 0, lateCount := 0 } }

/-- A RUNNING chain with these records at addresses 1, 2, and so on. -/
def runningWith (nodes : List (Option Node)) : Chain :=
  { Chain.reset with state := .running, endHop := some nodes.length,
                     nodes := nodes ++ List.replicate (30 - nodes.length) none }

/-- The part after reset with chain 0 as given. -/
def withChain (ch : Chain) : State := State.reset.setChain 0 ch

/-- A delivered tick waits at Chain Manager 0. -/
def ticked (s : State) : State := s.setMail (s.mail.chainTicks 0 [1])

/-- A Reference Unit in which input A stands as given. -/
def refWith (a : InputRec) (source : TickSource) : State :=
  { State.reset with ref := { RefUnit.resetAt 0 with a := a, source := source } }

/-- An input with an edge at moment 0. -/
def edged (st : InputState) (run : Nat) : InputRec := { state := st, run := run, lastEdge := some 0 }

/-- The queue entry of a command that the host asked for. -/
def hostEntry (cmd : Cmd) : QEntry := { cmd := cmd, issuer := .control, ofAttempt := false }

/-! ### The queue of commands, resets -/

theorem witness_StepRunsTheFrontCommand : State.reset.pending = [] := rfl

theorem witness_ResetsGiveResetValues :
    Waits .reset (request 0x1E []) [] (asked 0x1E []) ∧ (request 0x1E []).body = [] ∧
    ({ State.reset.link with resetting := true } : Link).resetting = true ∧
    ({ State.reset.link with resetting := true } : Link).ready = [] ∧
    ∃ r : Reply, r.kind = 0x1E ∧ r.code = .ok ∧ r.refusal = false ∧
      (State.reset.setLink { State.reset.link with tx := some (.reply r) }).link.tx = some (.reply r) :=
  ⟨⟨rfl, rfl, by decide⟩, rfl, rfl, rfl, { kind := 0x1E, tag := 0, code := .ok, body := .empty, refusal := false },
    by decide, rfl, rfl, rfl⟩

/-- RESET discards the bytes already received, and keeps the learned rate (R190, R191). -/
theorem test_reset_discards_the_bytes_received :
    (after .reset ((asked 0x1E []).setLink
        { (asked 0x1E []).link with rate := some 115200, receiver := .receiving [0, 2] 1 })).map
      (fun t => (t.link.receiver, t.link.rate, t.link.resetting)) = some (.hunting, some 115200, true) := by decide +kernel

/-! ### Chapter 1 -/

theorem test_periods : FrameRate.period .r50 = 240000 ∧ FrameRate.period .r29_97 = 400400 := by decide

/-- The bounds of the interval at rate 50: 238800 to 241200 (R1). -/
theorem witness_EdgeIsTakenByItsInput :
    ((refWith .reset .freeRun).ref.input .a).state = .absent ∧
    (((refWith (edged .unstable 1) .freeRun).ref.input .a).state = .unstable ∧
      ((refWith (edged .unstable 1) .freeRun).ref.input .a).lastEdge = some 0 ∧
      ((refWith (edged .unstable 1) .freeRun).ref.input .a).run ≠ 0) ∧
    ((refWith (edged .good 8) .freeRun).ref.input .a).state = .good ∧
    ((refWith (edged .unstable 0) .freeRun).ref.input .a).run = 0 ∧
    (∀ m, m = 238800 ∨ m = 241200 → 995 * RefUnit.period State.reset.ref ≤ 1000 * (max State.reset.ref.now m - 0) ∧
      1000 * (max State.reset.ref.now m - 0) ≤ 1005 * RefUnit.period State.reset.ref) ∧
    (∀ m, m = 238799 ∨ m = 241201 → ¬ (995 * RefUnit.period State.reset.ref ≤ 1000 * (max State.reset.ref.now m - 0) ∧
      1000 * (max State.reset.ref.now m - 0) ≤ 1005 * RefUnit.period State.reset.ref)) := by
  refine ⟨rfl, ⟨rfl, rfl, by decide⟩, rfl, rfl, ?_, ?_⟩
  · rintro m (rfl | rfl) <;> decide
  · rintro m (rfl | rfl) <;> decide

theorem test_eighth_edge_locks :
    (after (.refEdge .a 240000 false) (refWith (edged .unstable 7) .freeRun)).map
      (fun t => (t.ref.source, t.ref.a.state, t.ref.timer)) = some (.locked .a, .good, none) := by decide +kernel

/-- A Reference Unit of mode AUTO_A with both inputs as given. -/
def refBoth (a b : InputRec) (source : TickSource) (switch : Option RefInput) : State :=
  { State.reset with ref := { RefUnit.resetAt 0 with a := a, b := b, source := source, switch := switch } }

/-- The last moments within tolerance at rate 50 and the first ones outside it are 238800, 241200 and 238799, 241201. -/
theorem witness_EdgesMoveTheSource :
    (((refWith (edged .unstable 7) .freeRun).ref.input .a) = edged .unstable 7 ∧
      (refWith (edged .unstable 7) .freeRun).ref.source = .freeRun ∧
      (refWith (edged .unstable 7) .freeRun).ref.mode.list.find? (fun y =>
        decide (y = .a ∨ ((refWith (edged .unstable 7) .freeRun).ref.input y).state = .good)) = some .a) ∧
    (∀ m, m = 238800 ∨ m = 241200 → 995 * RefUnit.period State.reset.ref ≤ 1000 * (max State.reset.ref.now m - 0) ∧
      1000 * (max State.reset.ref.now m - 0) ≤ 1005 * RefUnit.period State.reset.ref) ∧
    (∀ x y, (x = .a ∧ y = .b ∨ x = .b ∧ y = .a) →
      ((refBoth (edged .good 8) (edged .good 8) (.locked y) (some x)).ref.input x) = edged .good 8 ∧
      (refBoth (edged .good 8) (edged .good 8) (.locked y) (some x)).ref.switch = some x ∧
      (refBoth (edged .good 8) (edged .good 8) (.locked y) (some x)).ref.source ≠ .locked x ∧
      (refBoth (edged .good 8) (edged .good 8) (.locked y) (some x)).ref.switch ≠ some y ∧
      y ∈ (refBoth (edged .good 8) (edged .good 8) (.locked y) (some x)).ref.mode.list) ∧
    (∀ m, m = 238799 ∨ m = 241201 →
      1000 * (max State.reset.ref.now m - 0) < 995 * RefUnit.period State.reset.ref ∨
        1005 * RefUnit.period State.reset.ref < 1000 * (max State.reset.ref.now m - 0)) := by
  refine ⟨by decide, ?_, ?_, ?_⟩
  · rintro m (rfl | rfl) <;> decide
  · rintro x y (⟨rfl, rfl⟩ | ⟨rfl, rfl⟩) <;> decide
  · rintro m (rfl | rfl) <;> decide

/-- The locked input alone, and two inputs at their eighth edge. -/
theorem witness_EdgesMoveTheSource_alone :
    ((refWith (edged .good 8) (.locked .a)).ref.source = .locked .a ∧
      (refWith (edged .good 8) (.locked .a)).ref.switch ≠ some .a ∧
      ¬ (otherInput .a ∈ (refWith (edged .good 8) (.locked .a)).ref.mode.list ∧
        ((refWith (edged .good 8) (.locked .a)).ref.input (otherInput .a)).state = .good)) ∧
    ((refBoth (edged .unstable 7) (edged .unstable 7) .freeRun none).ref.mode.list.head? = some .a ∧
      (refBoth (edged .unstable 7) (edged .unstable 7) .freeRun none).ref.a = edged .unstable 7 ∧
      (refBoth (edged .unstable 7) (edged .unstable 7) .freeRun none).ref.b = edged .unstable 7) := by
  decide

theorem test_lost_edge_fails_over :
    (after (.refEdge .a 241201 false) (refBoth (edged .good 8) (edged .good 8) (.locked .a) none)).map
      (fun t => (t.ref.source, t.ref.counter, t.link.faultCount, t.link.reports.length)) =
      some (.locked .b, 0, 1, 4) := by decide +kernel

theorem witness_AbsenceExpiryLosesTheInput :
    (((refWith (edged .good 8) (.locked .a)).ref.input .a).state ≠ .absent ∧
      ((refWith (edged .good 8) (.locked .a)).ref.input .a).lastEdge = some 0 ∧
      (refWith (edged .good 8) (.locked .a)).ref.source = .locked .a ∧
      ¬ (otherInput .a ∈ (refWith (edged .good 8) (.locked .a)).ref.mode.list ∧
        ((refWith (edged .good 8) (.locked .a)).ref.input (otherInput .a)).state = .good)) ∧
    (∃ r : RefUnit, r.source = .locked .a ∧ (r.input .a).state = .good ∧ (r.input .a).lastEdge = some 0 ∧
      otherInput .a ∈ r.mode.list ∧ (r.input (otherInput .a)).state = .good) ∧
    ((refWith (edged .unstable 3) .freeRun).ref.source ≠ .locked .a) ∧
    (State.reset.ref.input .a).state = .absent := by
  refine ⟨⟨by decide, rfl, rfl, by decide⟩,
    ⟨{ RefUnit.resetAt 0 with a := edged .good 8, b := edged .good 8, source := .locked .a }, rfl, rfl, rfl, ?_, rfl⟩,
    ?_, rfl⟩ <;> decide

theorem test_failover :
    (after (.absenceWatchExpiry .a)
      { State.reset with
        ref := { RefUnit.resetAt 0 with a := edged .good 8, b := edged .good 8, source := .locked .a } }).map
      (fun t => (t.ref.source, t.ref.a.state, t.link.faultCount)) = some (.locked .b, .absent, 1) := by decide +kernel

/-- The last tick 119999 moments before the candidate is too near, 120000 is not (R11). -/
theorem witness_HoldoverTimerTicks :
    State.reset.ref.timer = some 240000 ∧
    (∃ r : RefUnit, r.timer = some 240000 ∧ r.lastTick = some 120001 ∧ 2 * (max r.now 240000 - 120001) < r.period) ∧
    (∃ r : RefUnit, r.timer = some 240000 ∧ r.lastTick = some 120000 ∧ r.period ≤ 2 * (max r.now 240000 - 120000)) ∧
    ({ RefUnit.resetAt 0 with timer := none } : RefUnit).timer = none := by
  refine ⟨rfl, ⟨{ RefUnit.resetAt 0 with lastTick := some 120001 }, rfl, rfl, ?_⟩,
    ⟨{ RefUnit.resetAt 0 with lastTick := some 120000 }, rfl, rfl, ?_⟩, rfl⟩ <;> decide

theorem test_timer_ticks :
    (after .holdoverTimerExpiry State.reset).map (fun t => (t.ref.counter, t.mail.ticks.pool, t.ref.timer)) =
      some (1, [1], some 480000) := by decide +kernel

theorem witness_FrameSetNumbersTheNextTick :
    (Waits .frameSet (request 0x03 [0xFF, 0xFF]) [] (asked 0x03 [0xFF, 0xFF]) ∧
      (request 0x03 [0xFF, 0xFF]).body = [0xFF, 0xFF]) ∧
    (Waits .frameSet (request 0x03 [1]) [] (asked 0x03 [1]) ∧ (request 0x03 [1]).body.length ≠ 2) ∧
    (∃ r : RefUnit, r.pendingFrame = some 9 ∧ r.suppresses 0 = false) ∧
    (∃ r : RefUnit, r.suppresses 0 = true) := by
  refine ⟨⟨⟨rfl, rfl, by decide⟩, rfl⟩, ⟨⟨rfl, rfl, by decide⟩, by decide⟩,
    ⟨{ RefUnit.resetAt 0 with pendingFrame := some 9 }, rfl, by decide⟩,
    { RefUnit.resetAt 0 with lastTick := some 0 }, by decide⟩

theorem witness_RefSetReconsidersTheSource :
    (Waits .refSet (request 0x02 [0, 0]) [] (asked 0x02 [0, 0]) ∧
      refSet? (request 0x02 [0, 0]).body = some (.autoA, .r25) ∧ FrameRate.r25 ≠ (asked 0x02 [0, 0]).ref.rate ∧
      (asked 0x02 [0, 0]).allChainsOff = true) ∧
    (∃ s : State, s.allChainsOff = false ∧ FrameRate.r25 ≠ s.ref.rate) ∧
    (Waits .refSet (request 0x02 [4, 2]) [] (asked 0x02 [4, 2]) ∧
      refSet? (request 0x02 [4, 2]).body = some (.free, .r50) ∧ FrameRate.r50 = (asked 0x02 [4, 2]).ref.rate) ∧
    (RefMode.forceB ≠ .free ∧ (RefMode.list .autoA).find? (fun y =>
        decide (((refWith (edged .good 8) .holdover).ref.input y).state = .good)) = some .a) ∧
    ((RefMode.list .forceB).find? (fun y =>
        decide (((refWith (edged .good 8) (.locked .a)).ref.input y).state = .good)) = none ∧
      ∃ y, (refWith (edged .good 8) (.locked .a)).ref.source = .locked y) := by
  refine ⟨⟨⟨rfl, rfl, by decide⟩, by decide, by decide, by decide⟩, ⟨withChain (runningWith []), by decide, by decide⟩,
    ⟨⟨rfl, rfl, by decide⟩, by decide, by decide⟩, ⟨by decide, by decide⟩, by decide, .a, rfl⟩

theorem test_ref_set_force_b :
    (after (.refSet 5) (asking 0x02 [3, 2] (refWith (edged .good 8) (.locked .a)))).map
      (fun t => (t.ref.source, t.ref.mode, t.link.faultCount)) = some (.holdover, .forceB, 1) := by decide +kernel

/-! ### Chapters 2 and 3 -/

/-- A chain right after CHAIN_SET with ENABLE. -/
def enabledChain : Chain := { Chain.reset with state := .walking, probeHop := some 1 }

theorem witness_EnableAndRewalkStartWalks :
    ((Waits .chainSetEnable (request 0x04 [3, 0, 15, 0]) [] (asked 0x04 [3, 0, 15, 0]) ∧
      chainSet? 0 (request 0x04 [3, 0, 15, 0]).body = some { chain := 3, silent := 15, brk := 0 }) ∧
    (Chain.reset.pendingDisable = false ∧ Chain.reset.state = .off) ∧
    ({ runningWith [] with pendingDisable := true } : Chain).pendingDisable = true ∧
    ((runningWith []).pendingDisable = false ∧ (runningWith []).state ≠ .off)) ∧
    ((Waits .chainRewalk (request 0x05 [3]) [] (asked 0x05 [3]) ∧ chain? (request 0x05 [3]).body = some 3) ∧
    Chain.reset.state = .off ∧ enabledChain.state = .walking ∧
    ((runningWith []).pendingDisable = false ∧ (runningWith []).state = .running ∧ (runningWith []).attempt = none ∧
      (runningWith []).queue = [])) := by
  refine ⟨⟨⟨⟨rfl, rfl, by decide⟩, by decide⟩, ⟨rfl, rfl⟩, rfl, rfl, by decide⟩,
    ⟨⟨rfl, rfl, by decide⟩, by decide⟩, rfl, rfl, rfl, rfl, rfl, rfl⟩

theorem test_enable_walks :
    (after .chainSetEnable (asked 0x04 [0, 0, 0, 0])).map (fun t => (t.chains.c0.state, t.chains.c0.probeHop, lastCode t)) =
      some (.walking, some 1, some .ok) := by decide +kernel

theorem test_rewalk :
    (after .chainRewalk (asking 0x05 [0] (withChain (runningWith [some (lampAt 1)])))).map
      (fun t => (t.chains.c0.state, t.chains.c0.probeHop, lastCode t)) = some (.extending, some 2, some .ok) := by
  decide +kernel

/-- A walk's set-back waits: END stands at hop 2 and comes to hop 1, and the probe hop is the hop beyond that (R54, R42). -/
theorem test_rewalk_while_a_set_back_waits :
    (after .chainRewalk (asking 0x05 [0] (withChain { runningWith [some (lampAt 1)] with
        endHop := some 2, queue := [hostEntry (.setEnd 1 true), hostEntry (.setEnd 2 false)] }))).map
      (fun t => (t.chains.c0.state, t.chains.c0.probeHop, t.chains.c0.endHop)) = some (.extending, some 2, some 2) := by
  decide +kernel

/-- The probe hop of a bundle is the path hop of its probe place, whatever the record held (R42). -/
theorem test_probe_hop_is_the_hop_of_the_probe_place :
    (after (.chainManagerTick 0) (ticked (withChain { runningWith [some (lampAt 1)] with
        state := .extending, probeHop := some 5 }))).map
      (fun t => (t.chains.c0.probeHop, t.chains.c0.endHop, t.chains.c0.lastPath.length)) =
      some (some 2, some 2, 2) := by decide +kernel

theorem witness_ChainDisableWaitsForItsTick :
    (Waits .chainSetDisable (request 0x04 [0, 1, 0, 0]) [] (asked 0x04 [0, 1, 0, 0]) ∧
      chainSet? 1 (request 0x04 [0, 1, 0, 0]).body = some { chain := 0, silent := 0, brk := 0 }) ∧
    ({ runningWith [] with pendingDisable := true } : Chain).pendingDisable = true ∧
    (Chain.reset.pendingDisable = false ∧ Chain.reset.state = .off) ∧
    (runningWith []).state ≠ .off ∧
    (∃ s : State, s.mail.ticks.chains.get 0 = [1] ∧ (s.chains.get 0).pendingDisable = true ∧
      s.link.deferred.find? (fun d => decide (d.what = .disable 0)) = some { kind := 4, tag := 7, what := .disable 0 }) := by
  refine ⟨⟨⟨rfl, rfl, by decide⟩, by decide⟩, rfl, ⟨rfl, rfl⟩, by decide,
    (ticked (withChain { runningWith [some (lampAt 1)] with pendingDisable := true })).setLink
      { State.reset.link with deferred := [{ kind := 4, tag := 7, what := .disable 0 }] }, rfl, rfl, by decide⟩

theorem test_disable_empties_the_table :
    (after (.chainManagerTick 0) ((ticked (withChain { runningWith [some (lampAt 1)] with pendingDisable := true })).setLink
        { State.reset.link with deferred := [{ kind := 4, tag := 7, what := .disable 0 }] })).map
      (fun t => (t.chains.c0.state, (t.chains.c0.node 1).isSome, t.link.deferred.length, lastCode t, t.mail.orders.c0.length)) =
      some (.off, false, 0, some .ok, 1) := by decide +kernel

theorem witness_DeparturesUpdateTheTable :
    (∀ st, st = .ident ∨ st = .live ∨ st = .suspect ∨ st = .failed ∨ st = .cut →
      (runningWith [some { lampAt 1 with state := st }]).nodes.length = 30 ∧
      (runningWith [some { lampAt 1 with state := st }]).node 1 = some { lampAt 1 with state := st }) := by
  rintro st (rfl | rfl | rfl | rfl | rfl) <;> decide

theorem witness_CommandQueueOrder :
    (∃ q : List QEntry, q ≠ [] ∧ inClassOrder q) ∧ (hostEntry (.setEnd 1 true)).cmd.isRepair = true ∧
    (hostEntry (.enable 1)).cmd.isRepair = false ∧
    (∀ y ∈ [hostEntry (.setEnd 1 true), hostEntry (.route none .normal)], y.cmd.isRepair = true) := by
  refine ⟨⟨[hostEntry (.setEnd 1 true), hostEntry (.enable 1)], by decide, ?_⟩, rfl, rfl, by decide⟩
  simp [inClassOrder, hostEntry, Cmd.isRepair]

theorem test_full_queue_gives_up_its_newest_configuration :
    (evictFrom ([hostEntry (.setEnd 1 true)] ++ [hostEntry (.enable 1), hostEntry (.enable 2)])).map (fun x => x.1.cmd) =
      some (.enable 2) := by decide

theorem witness_SilentAndWalkingTicks :
    ((ticked State.reset).mail.ticks.chains.get 0 = [1] ∧ ((ticked State.reset).chains.get 0).state = .off ∧
      ((ticked State.reset).chains.get 0).pendingDisable = false ∧ ((ticked State.reset).chains.get 0).collect = none ∧
      ((ticked State.reset).chains.get 0).attempt = none ∧ ((ticked State.reset).chains.get 0).lostHeld = []) ∧
    ({ Chain.reset with state := .faulted } : Chain).state = .faulted ∧
    (enabledChain.state = .walking ∧ enabledChain.pendingDisable = false ∧ enabledChain.collect = none ∧
      enabledChain.attempt = none ∧ enabledChain.lostHeld = [] ∧ enabledChain.queue = [] ∧ enabledChain.claims = [] ∧
      enabledChain.probeHop = some 1 ∧ enabledChain.endHop = none ∧ enabledChain.portRoute = .normal ∧
      enabledChain.probes = [] ∧ enabledChain.atPosition 1 = none) := by
  refine ⟨⟨rfl, rfl, rfl, rfl, rfl, rfl⟩, rfl, ?_⟩
  decide

theorem test_walking_probe :
    (after (.chainManagerTick 0) (ticked (withChain enabledChain))).map
      (fun t => (t.chains.c0.endHop, t.chains.c0.probes.map (fun p => (p.cmds, p.blocks)), t.chains.c0.counters.sent)) =
      some (some 1, [([.setEnd 1 true], [.empty])], 1) := by decide +kernel

/-- A RUNNING chain of one lamp with a command queued. -/
def queuedChain : Chain := { runningWith [some (lampAt 1)] with queue := [hostEntry (.enable 1)] }

theorem witness_RunningTickSendsTheQueuedCommand :
    (ticked (withChain queuedChain)).mail.ticks.chains.get 0 = [1] ∧ queuedChain.state = .running ∧
    queuedChain.pendingDisable = false ∧ queuedChain.collect = none ∧ queuedChain.attempt = none ∧
    queuedChain.lostHeld = [] ∧ queuedChain.walkDoneDue = 0 ∧ queuedChain.queue = [hostEntry (.enable 1)] ∧
    queuedChain.claims = [] ∧
    ((hostEntry (.enable 1)).ofAttempt = false ∧ (hostEntry (.enable 1)).endsWalk = false) ∧
    queuedChain.isDead (.enable 1) = false ∧
    ({ queuedChain with lastPath := queuedChain.path.1 } : Chain).lastPath =
      ({ queuedChain with lastPath := queuedChain.path.1 } : Chain).path.1 := by
  decide

theorem test_running_tick_orders :
    (after (.chainManagerTick 0) (ticked (withChain queuedChain))).map
      (fun t => (t.chains.c0.queue, t.chains.c0.counters.sent, t.mail.orders.c0)) =
      some ([], 1, [.order { frame := 1, kind := .assemble { frame := 1, path := [{ position := 1, address := some 1 }], probe := none, stop := 2, deciding := false } [.enable 1] }]) := by
  decide +kernel

/-- Three lamps, the second FAILED and skipped since the bundle before, on whose path it stood. -/
def skipping (queue : List QEntry) : Chain :=
  { runningWith [some { lampAt 1 with route := .skipNext }, some { lampAt 2 with state := .failed }, some (lampAt 3)] with
    endHop := some 3, queue := queue,
    lastPath := [{ position := 1, address := some 1 }, { position := 2, address := some 2 },
                 { position := 3, address := some 3 }] }

/-- The path changes while SET_END commands wait: END and a SET_END on follow their node, and a SET_END off for the node that
is skipped names the hop beyond the path (R42). -/
theorem test_waiting_commands_follow_the_path :
    (after (.chainManagerTick 0) (ticked (withChain
        (skipping [hostEntry (.setEnd 3 true), hostEntry (.setEnd 2 false)])))).map
      (fun t => (t.chains.c0.endHop, t.mail.orders.c0.map fun o =>
        match o with
        | .order { kind := .assemble _ cmds, .. } => cmds
        | _ => [])) = some (some 2, [[.setEnd 2 true, .setEnd 3 false]]) := by decide +kernel

/-- An attempt on node 2 with node 1 as predecessor. -/
def attemptOn (kind : AttemptKind) (phase : AttemptPhase) (trialEnd : Nat) (bundled : Bool) : Attempt :=
  { kind := kind, target := 2, pred := some 1, phase := phase, trialEnd := trialEnd, bundled := bundled,
    evicted := false, lapsed := false }

/-- The queue entry of the attempt's ROUTE. -/
def routeEntry (r : Route) : QEntry := { cmd := .route (some 1) r, issuer := .manager, ofAttempt := true }

/-- A RUNNING chain of two lamps with an attempt. -/
def attempting (t : Attempt) (endHop : Option Nat) (queue : List QEntry) : Chain :=
  { runningWith [some (lampAt 1), some (lampAt 2)] with
    attempt := some t, endHop := endHop, queue := queue,
    lastPath := [{ position := 1, address := some 1 }, { position := 2, address := some 2 }] }

/-- The four cases of the deciding bundle: END moved to the trial END hop, already there, cleared, and absent. -/
theorem witness_RunningTickSendsTheQueuedCommand_attempts :
    (attempting (attemptOn .bypass .routing 1 false) (some 2) [routeEntry .skipNext]).queue = [routeEntry .skipNext] ∧
    (attempting (attemptOn .bypass .routing 1 false) (some 2) [routeEntry .skipNext]).isDead (.route (some 1) .skipNext) =
      false ∧
    (∀ n, n = 0 ∨ n = 1 →
      (attemptOn .bypass .deciding n false).trialEnd ≠ 2 ∧
      renumberEnd (attempting (attemptOn .bypass .deciding n false) (some 2) []).lastPath
        (attempting (attemptOn .bypass .deciding n false) (some 2) []).path.1 (some 2) = some 2) ∧
    ((attemptOn .reinstate .deciding 2 false).trialEnd = 2 ∧ (attemptOn .reinstate .deciding 2 false).bundled = false) := by
  refine ⟨by decide, by decide, ?_, by decide⟩
  rintro n (rfl | rfl) <;> decide

theorem test_deciding_bundle :
    (after (.chainManagerTick 0) (ticked (withChain (attempting (attemptOn .bypass .deciding 1 false) (some 2) [])))).map
      (fun t => (t.chains.c0.endHop, t.chains.c0.counters.sent, t.chains.c0.attempt.map (fun x => x.bundled))) =
      some (some 1, 2, some true) := by decide +kernel

/-- A return being collected for a bundle whose path is one node. -/
def collecting (frame : Word16) : Collection :=
  { info := { frame := frame, path := [{ position := 1, address := some 1 }], probe := none, stop := 2, deciding := false },
    stopped := false, bytes := [], blocks := [] }

/-- A RUNNING chain with a return being collected. -/
def listening (breakCount : Nat) (endHop : Option Nat) : Chain :=
  { runningWith [some (lampAt 1), some (lampAt 2)] with breakCount := breakCount, endHop := endHop,
                                                        collect := some (collecting 100) }

/-- The break limit is 3: break counts 1 and 15 stay below it or at the top, break count 2 meets it. -/
theorem witness_MissingReturnsBreakTheChain :
    ((listening 1 (some 2)).state = .running ∧ (listening 1 (some 2)).attempt = none ∧
      (listening 1 (some 2)).collect = some (collecting 100) ∧ (listening 1 (some 2)).pendingDisable = false ∧
      (ticked (withChain (listening 1 (some 2)))).mail.ticks.chains.get 0 ≠ []) ∧
    (1 ≤ 15 ∧ 1 + 1 < (listening 1 (some 2)).breakLimit) ∧ (listening 15 (some 2)).breakCount = 15 ∧
    (2 < 15 ∧ (listening 2 (some 2)).breakLimit ≤ 2 + 1 ∧ (listening 2 (some 2)).endHop = some 2 ∧
      (listening 2 (some 2)).queue.length ≤ 14) := by
  decide

/-- In a chain without FAILED records no record is FAILED at any address. -/
theorem noFailed {ch : Chain} (h : (ch.nodes.all fun x => x.all fun m => decide (m.state ≠ .failed)) = true) (b : Nat)
    (m : Node) (g : ch.node b = some m) : m.state ≠ .failed := by
  have hm : some m ∈ ch.nodes := by
    unfold Chain.node at g
    split at g
    · rw [List.getD_eq_getElem?_getD] at g
      cases e : ch.nodes[b - 1]? with
      | none => simp [e] at g
      | some y => rw [e] at g; exact List.mem_of_getElem? (e.trans (congrArg some g))
    · cases g
  have := List.all_eq_true.mp h _ hm
  simpa using this

/-- Probe-back: END at hop 2, then at hop 1, with no FAILED record beside the first node; and a BROKEN chain whose END node
answers. -/
theorem witness_MissingReturnsBreakTheChain_broken :
    (∀ e, e = 1 ∨ e = 2 →
      ({ listening 3 (some e) with state := .broken } : Chain).endHop = some e ∧
      ({ listening 3 (some e) with state := .broken } : Chain).queue.length ≤ 14 ∧
      ({ listening 3 (some e) with state := .broken } : Chain).portRoute = .normal ∧
      (∀ b m, ({ listening 3 (some e) with state := .broken } : Chain).node b = some m → m.state ≠ .failed)) ∧
    (collecting 100).info.path.head? = some { position := 1, address := some 1 } ∧
    (lampAt 1).route = .normal := by
  refine ⟨?_, by decide, by decide⟩
  rintro e (rfl | rfl) <;> exact ⟨by decide, by decide, by decide, noFailed (by decide)⟩

theorem test_probe_back_begins_a_bypass :
    (after (.returnDeadline 0)
        (ticked (withChain { listening 3 (some 1) with state := .broken, brokenFrom := some 2 }))).map
      (fun t => (t.chains.c0.attempt.map (fun x => (x.target, x.pred, x.trialEnd)), t.chains.c0.queue.map (fun x => x.cmd))) =
      some (some (1, none, 1), [.setEnd 1 false, .route none .skipNext]) := by decide +kernel

theorem test_chain_broken :
    (after (.returnDeadline 0) (ticked (withChain (listening 2 (some 2))))).map
      (fun t => (t.chains.c0.state, t.chains.c0.queue.map (fun x => x.cmd), t.link.faultCount)) =
      some (.broken, [.setEnd 1 true, .setEnd 2 false], 1) := by decide +kernel

/-- The check code of a trailer at hop 1 that echoes 100. -/
def trailerCode : Word16 := crc16 [0x54, 1, 100]

theorem witness_ReturnItemsAreReadOneByOne :
    Chain.reset.collect = none ∧ { collecting 100 with stopped := true }.stopped = true ∧
    ((listening 0 none).collect = some (collecting 100) ∧ (collecting 100).stopped = false) ∧
    ((0x53 : Byte) ≠ 0x51 ∧ (0x53 : Byte) ≠ 0x52 ∧ (0x53 : Byte) ≠ 0x54) ∧
    crc16 ((collecting 100).bytes ++ [0x54, 1, 100]) ≠ (0 : Byte) ++ (0 : Byte) ∧
    (((0 : Byte).toNat < 1) ∧ 31 < (32 : Byte).toNat) ∧
    (∃ hi lo : Byte, crc16 ((collecting 100).bytes ++ [0x54, 31, 101]) = hi ++ lo) ∧
    (1 ≤ (31 : Byte).toNat ∧ (31 : Byte).toNat ≤ 31) ∧ (101 : Byte) ≠ (collecting 100).info.frame.setWidth 8 := by
  refine ⟨rfl, rfl, ⟨rfl, rfl⟩, by decide, by decide +kernel, by decide,
    ⟨(crc16 [0x54, 31, 101] >>> 8).setWidth 8, (crc16 [0x54, 31, 101]).setWidth 8, by decide +kernel⟩, by decide, by decide⟩

/-- A RUNNING chain of one lamp whose return is being collected. -/
def hearing (blocks : List StatusBlock) (st : NodeState) : Chain :=
  { runningWith [some { lampAt 1 with state := st }] with collect := some { collecting 100 with blocks := blocks } }

/-- The lamp's status block. -/
def lampBlock : StatusBlock :=
  { hop := 1, address := 1, kind := 1, mode := 1, tag := 9, gen := 3, health := 0, identity := none }

theorem witness_CompleteReturnUpdatesTheNode :
    (∀ st, st = .live ∨ st = .suspect →
      (hearing [lampBlock] st).collect = some { collecting 100 with blocks := [lampBlock] } ∧
      (hearing [lampBlock] st).nodes.length = 30 ∧ (hearing [lampBlock] st).state = .running ∧
      (hearing [lampBlock] st).attempt = none ∧ (hearing [lampBlock] st).endHop = some 1 ∧
      (hearing [lampBlock] st).lostHeld = [] ∧ (hearing [lampBlock] st).node 1 = some { lampAt 1 with state := st }) ∧
    ((collecting 100).stopped = false ∧ (collecting 100).info.probe = none ∧
      (collecting 100).info.path = [{ position := 1, address := some 1 }]) ∧
    ((lampAt 1).kindName = .lamp ∧ (lampAt 1).health = (0 : Byte).setWidth 4 ∧ (0 : Byte).toNat ≤ 15) ∧
    (∃ hi lo : Byte, crc16 ((collecting 100).bytes ++ [0x54, 1, (collecting 100).info.frame.setWidth 8]) = hi ++ lo) ∧
    lampBlock = { hop := 1, address := BitVec.ofNat 8 1, kind := 1, mode := 1, tag := 9,
                  gen := (3 : BitVec 4).setWidth 8, health := 0, identity := none } ∧
    ((hearing [] .live).collect = some (collecting 100) ∧ (lampAt 1).silent + 1 < (hearing [] .live).silentLimit) := by
  refine ⟨?_, ⟨rfl, rfl, rfl⟩, ⟨rfl, by decide, by decide⟩,
    ⟨(trailerCode >>> 8).setWidth 8, trailerCode.setWidth 8, by decide +kernel⟩, by decide, rfl, by decide⟩
  rintro st (rfl | rfl) <;> decide

/-- The cases of a block: another health set, another identity, another mode, a FAILED record; and none, below the silent
limit and at it. -/
theorem witness_CompleteReturnUpdatesTheNode_cases :
    (lampAt 1).health ≠ (1 : Byte).setWidth 4 ∧
    (({ lampAt 1 with identity := some { model := 1, serial := 1 } } : Node).identity ≠
      some { model := 1, serial := 2 }) ∧
    (¬ ((NodeMode.ident = .live ∧ ((lampAt 1).state = .live ∨ (lampAt 1).state = .suspect)) ∨
        (NodeMode.ident = .ident ∧ (lampAt 1).state = .ident)) ∧
      (lampAt 1).state ≠ .failed ∧ (lampAt 1).state ≠ .cut ∧ (lampAt 1).mismatch = false) ∧
    ((hearing [] .failed).node 1 = some { lampAt 1 with state := .failed } ∧
      (hearing [] .live).silentLimit = 3 ∧ (hearing [] .live).portRoute = .normal ∧
      (hearing [] .live).queue.length < 16 ∧ ∀ b m, (hearing [] .live).node b = some m → m.state ≠ .failed) :=
  ⟨by decide, by decide, by decide, by decide, rfl, rfl, by decide, noFailed (by decide)⟩

/-- A two-lamp chain, the first lamp's block heard, the second silent, and a stranger beyond the path. -/
def twoPath : List (Nat × Node × Option StatusBlock) := [(1, lampAt 1, some lampBlock), (2, lampAt 2, none)]

/-- The stranger's block: address 9, which is ABSENT, at hop 31. -/
def strangeBlock : StatusBlock := { lampBlock with hop := 31, address := 9 }

/-- The chain whose return of two places is being collected. -/
def hearingTwo (e : Nat) (strange : Option StatusBlock) : Chain :=
  { runningWith [some (lampAt 1), some (lampAt 2)] with
    endHop := some e,
    collect := some { collecting 100 with
      info := { (collecting 100).info with path := twoPath.map fun x => { position := x.2.1.position, address := some x.1 } },
      blocks := strange.toList ++ [lampBlock] } }

theorem witness_CompleteReturnUpdatesTheNode_path :
    (∀ e strange, (e = 1 ∨ e = 2) → (strange = none ∨ strange = some strangeBlock) →
      (hearingTwo e strange).state = .running ∧ (hearingTwo e strange).attempt = none ∧
      (hearingTwo e strange).endHop = some e ∧ (hearingTwo e strange).lostHeld = [] ∧
      (hearingTwo e strange).queue.length ≤ 14 ∧ (hearingTwo e strange).nodes.length = 30 ∧
      (∃ k, (hearingTwo e strange).collect = some k ∧
        k.blocks.Perm (twoPath.filterMap (fun x => x.2.2) ++ strange.toList)) ∧
      (∀ x ∈ twoPath, 1 ≤ x.1 ∧ x.1 ≤ 30 ∧ (hearingTwo e strange).node x.1 = some x.2.1 ∧ x.2.1.state = .live)) ∧
    ((twoPath.map fun x => x.1).Nodup ∧ twoPath.length ≤ 30 ∧
      lampBlock.hop.toNat = 1 ∧ lampBlock.address.toNat = 1 ∧ lampBlock.gen.toNat ≤ 15 ∧
      lampBlock.health = (lampAt 1).health.setWidth 8 ∧ (lampAt 1).identity = none) ∧
    ((lampAt 2).silent < 15 ∧ (lampAt 2).silent + 1 < (hearingTwo 2 none).silentLimit) ∧
    (strangeBlock.hop.toNat = 31 ∧ strangeBlock.address.toNat = 9 ∧ (hearingTwo 2 (some strangeBlock)).node 9 = none ∧
      (∀ x i, (x, i) ∈ twoPath.zipIdx → i + 1 ≠ strangeBlock.hop.toNat) ∧
      (hearingTwo 2 (some strangeBlock)).stranger ≠ some (strangeBlock.hop, strangeBlock.address)) := by
  refine ⟨?_, by decide, by decide, rfl, rfl, by decide, ?_, by decide⟩
  · rintro e strange (rfl | rfl) (rfl | rfl) <;>
      exact ⟨rfl, rfl, rfl, rfl, by decide, by decide, ⟨_, rfl, by decide⟩, by decide⟩
  · intro x i h
    have : i < 2 := by simp [twoPath] at h; omega
    have : strangeBlock.hop.toNat = 31 := rfl
    omega

/-- The trailer names hop 2 while END stands at hop 1: the second lamp is not missed, the stranger is remembered, END is
restated. -/
theorem test_return_of_two_places :
    (after (.returnItemReceived 0 ([0x54, 2, 100] ++ put16 (crc16 [0x54, 2, 100])))
        (withChain (hearingTwo 1 (some strangeBlock)))).map
      (fun t => ((t.chains.c0.node 1).map (fun n => n.tag), (t.chains.c0.node 2).map (fun n => n.silent),
        t.chains.c0.stranger, t.chains.c0.queue.map fun x => x.cmd)) =
      some (some 9, some 0, some (31, 9), [.setEnd 1 true, .setEnd 2 false]) := by decide +kernel

theorem test_return_makes_suspect_live :
    (after (.returnItemReceived 0 ([0x54, 1, 100] ++ put16 trailerCode))
        (withChain { hearing [lampBlock] .suspect with
          collect := some { collecting 100 with bytes := [], blocks := [lampBlock] } })).map
      (fun t => (t.chains.c0.node 1).map fun n => (n.state, n.tag, n.gen)) = some (some (.live, 9, some 3)) := by
  decide +kernel

/-- The third silent frame of a lamp begins a bypass. -/
theorem test_silent_limit_begins_a_bypass :
    (after (.returnItemReceived 0 ([0x54, 1, 100] ++ put16 trailerCode))
        (withChain { hearing [] .suspect with
          nodes := some { lampAt 1 with state := .suspect, silent := 2 } :: List.replicate 29 none })).map
      (fun t => (t.chains.c0.attempt.map (fun x => x.target), t.chains.c0.queue.map (fun x => x.cmd))) =
      some (some 1, [.route none .skipNext]) := by decide +kernel

/-- The return of two lamps, the first of which skips the next position, while the second stands before its silent limit. -/
def cutReturn : Chain :=
  { hearingTwo 2 none with
    nodes := some { lampAt 1 with route := .skipNext } :: some { lampAt 2 with silent := 2 } :: List.replicate 28 none }

theorem witness_CompleteReturnUpdatesTheNode_cut :
    (cutReturn.state = .running ∧ cutReturn.attempt = none ∧ cutReturn.endHop = some 2 ∧ cutReturn.queue.length ≤ 13) ∧
    (cutReturn.node 1 = some { lampAt 1 with route := .skipNext } ∧ cutReturn.node 2 = some { lampAt 2 with silent := 2 } ∧
      cutReturn.silentLimit ≤ 2 + 1) ∧
    (cutReturn.collect.map (fun k => (k.blocks, k.stopped)) = some ([lampBlock], false) ∧
      lampBlock.answer?.map (fun x => (x.hop, x.address, x.kind)) = some (1, 1, .lamp)) := by decide

/-- The trailer of hop 1 restates END at hop 2, and the cut in the same return then brings END to hop 1 (R42, R44, R59). -/
theorem test_cut_in_a_return_stands_behind_the_restatement :
    (after (.returnItemReceived 0 ([0x54, 1, 100] ++ put16 trailerCode)) (withChain cutReturn)).map
      (fun t => ((t.chains.c0.node 2).map (fun n => n.state), t.chains.c0.queue.map fun x => x.cmd)) =
      some (some .cut, [.setEnd 2 true, .setEnd 1 false, .setEnd 1 true]) := by decide +kernel

/-- A cut's SET_END waits when a return of an earlier END arrives: END is restated where the cut takes it (R42, R44). -/
theorem test_restating_while_a_cut_waits :
    (after (.returnItemReceived 0 ([0x54, 3, 100] ++ put16 (crc16 [0x54, 3, 100])))
        (withChain { hearingTwo 2 none with queue := [hostEntry (.setEnd 1 true)] })).map
      (fun t => (t.chains.c0.endHop, t.chains.c0.queue.map fun x => x.cmd)) =
      some (some 2, [.setEnd 1 true, .setEnd 1 true, .setEnd 3 false]) := by decide +kernel

/-- Three lamps on a path that still holds the second, FAILED one; the third stands before its silent limit. -/
def besideFailed : Chain :=
  { skipping [] with
    nodes := some { lampAt 1 with route := .skipNext } :: some { lampAt 2 with state := .failed } ::
      some { lampAt 3 with silent := 2 } :: List.replicate 27 none,
    collect := some { collecting 100 with
      info := { (collecting 100).info with path := (skipping []).lastPath, stop := 4 }, blocks := [lampBlock] } }

/-- The node beside a FAILED node meets its limit: the chain is cut at the FAILED node, and END goes on to the reachable node
before it (R58, R59, R42). -/
theorem test_cut_beside_a_failed_node :
    (after (.returnItemReceived 0 ([0x54, 3, 100] ++ put16 (crc16 [0x54, 3, 100]))) (withChain besideFailed)).map
      (fun t => ((t.chains.c0.node 3).map (fun n => n.state), t.chains.c0.queue.map fun x => x.cmd)) =
      some (some .cut, [.setEnd 2 true, .setEnd 1 true, .setEnd 2 false]) := by decide +kernel

/-- The next bundle's path ends ahead of the FAILED node, and END with it (R42). -/
theorem test_end_stays_on_a_shorter_path :
    (after (.chainManagerTick 0) (ticked (withChain
        { besideFailed with
          nodes := (besideFailed.setNode 3 (some { lampAt 3 with state := .cut })).nodes, collect := none,
          queue := [hostEntry (.setEnd 2 true)] }))).map
      (fun t => (t.chains.c0.lastPath.length, t.chains.c0.endHop)) = some (1, some 1) := by decide +kernel

/-- No place is left on the path: a SET_END on that waits turns END off, and none is left (R42). -/
theorem test_no_end_on_an_empty_path :
    (after (.chainManagerTick 0) (ticked (withChain
        { attempting (attemptOn .bypass .routing 0 false) (some 2) [hostEntry (.setEnd 1 true)] with
          attempt := none, nodes := List.replicate 30 none }))).map
      (fun t => (t.chains.c0.lastPath, t.chains.c0.endHop)) = some ([], none) := by decide +kernel

/-- A return being collected for a probe bundle whose probe place is at this position. -/
def probing (position : Nat) (blocks : List StatusBlock) : Collection :=
  { info := { frame := 100, path := [{ position := position, address := none }], probe := some 1, stop := position,
              deciding := false },
    stopped := false, bytes := [], blocks := blocks }

/-- A WALKING chain with its probe at hop 1 and these records, whose return is being collected. -/
def walkingWith (nodes : List (Option Node)) (k : Collection) : Chain :=
  { runningWith nodes with state := .walking, probeHop := some 1, endHop := some 1, collect := some k }

/-- Joining, joining over a CUT record, found again, a clash of positions, the last position and one above it. -/
theorem witness_WalksFindNodesOrEnd :
    (∀ k, k = probing 1 [lampBlock] ∨ k = probing 30 [lampBlock] ∨ k = probing 31 [lampBlock] →
      (walkingWith [] k).collect = some k ∧ k.stopped = false ∧ (walkingWith [] k).probeHop = some 1 ∧
      (walkingWith [] k).nodes.length = 30) ∧
    (lampBlock.answer?.isSome = true ∧ (walkingWith [] (probing 1 [])).node 1 = none ∧
      (probing 31 [lampBlock]).info.stop = 31 ∧ (walkingWith [] (probing 1 [])).queue.length < 16 ∧
      (walkingWith [] (probing 1 [])).endHop = some 1) ∧
    ((walkingWith [none, some { lampAt 1 with state := .cut }] (probing 1 [])).atPosition 1 =
        some (2, { lampAt 1 with state := .cut }) ∧
      (walkingWith [none, some { lampAt 1 with state := .cut }] (probing 1 [])).node 1 = none) ∧
    ((walkingWith [some { lampAt 1 with state := .cut }] (probing 1 [])).node 1 = some { lampAt 1 with state := .cut } ∧
      (walkingWith [some { lampAt 1 with state := .cut }] (probing 2 [])).node 1 = some { lampAt 1 with state := .cut } ∧
      ({ lampAt 1 with state := .cut } : Node).position ≠ 2) := by
  refine ⟨?_, by decide, by decide, by decide⟩
  rintro k (rfl | rfl | rfl) <;> decide

/-- A SET_END of the Chain Manager, the last of a walk's set-back or another one. -/
def backEntry (h : Nat) (on last : Bool) : QEntry :=
  { cmd := .setEnd h on, issuer := .manager, ofAttempt := false, endsWalk := last }

/-- A chain whose walk is over with its set-back queued, a cut's SET_END and a CHAIN_REWALK's pair behind it. -/
def walkedChain : Chain :=
  { runningWith [] with queue := [backEntry 2 true false, backEntry 3 false true, backEntry 1 true false,
                                  backEntry 2 false false, backEntry 4 false false] }

/-- An EXTENDING chain of one lamp whose probe stands at hop 2, and one whose walk is over with its set-back queued. -/
theorem witness_WalksFindNodesOrEnd_ticks :
    (({ runningWith [some (lampAt 1)] with state := .extending, probeHop := some 2 } : Chain).state = .extending ∧
      (ticked (withChain { runningWith [some (lampAt 1)] with
        state := .extending, probeHop := some 2 })).mail.ticks.chains.get 0 = [1] ∧
      ({ walkingWith [] (probing 1 []) with probeHop := some 2 } : Chain).probeHop = some 2) ∧
    ((runningWith []).walkDoneDue = 0 ∧ ({ runningWith [] with walkDoneDue := 1 } : Chain).walkDoneDue = 1 ∧
      ({ runningWith [] with queue := [backEntry 1 false true] } : Chain).queue = [backEntry 1 false true]) ∧
    ((ticked (withChain walkedChain)).mail.ticks.chains.get 0 = [1] ∧ walkedChain.state = .running ∧
      walkedChain.walkDoneDue = 0 ∧ walkedChain.queue.map (fun x => x.endsWalk) = [false, true, false, false, false] ∧
      walkedChain.lastPath = walkedChain.path.1) := by
  decide

theorem test_walk_done_goes_with_its_set_back :
    (after (.chainManagerTick 0) (ticked (withChain walkedChain))).map
      (fun t => (t.chains.c0.queue, t.chains.c0.endHop, t.link.reports.tail.map (fun r => r.body))) =
      some ([backEntry 4 false false], some 1,
        [.chain .walkDone 0 .running (some 1) (runningWith []).stateCounts]) := by decide +kernel

theorem test_walk_joins_a_lamp :
    (after (.returnItemReceived 0 ([0x54, 1, 100] ++ put16 trailerCode))
        (withChain (walkingWith [] (probing 1 [lampBlock])))).map
      (fun t => ((t.chains.c0.node 1).map (fun n => (n.state, n.position)), t.chains.c0.probeHop, t.mail.clamps.c0)) =
      some (some (.live, 1), some 2, [.enrolled 1 600 false]) := by decide +kernel

theorem test_walk_ends :
    (after (.returnItemReceived 0 ([0x54, 1, 100] ++ put16 trailerCode)) (withChain (walkingWith [] (probing 1 [])))).map
      (fun t => (t.chains.c0.state, t.chains.c0.queue, t.chains.c0.walkDoneDue)) =
      some (.running, [backEntry 1 false true], 0) := by decide +kernel

theorem test_address_clash :
    (after (.returnItemReceived 0 ([0x54, 1, 100] ++ put16 trailerCode))
        (withChain (walkingWith [some { lampAt 1 with state := .cut }] (probing 2 [lampBlock])))).map
      (fun t => (t.chains.c0.state, t.link.faultCount, t.mail.orders.c0, t.mail.clamps.c0)) =
      some (.faulted, 1, [.faulted], [.absent 1]) := by decide +kernel

/-- A chain of two lamps with a bundled attempt whose deciding return is being collected. -/
def decidingChain (t : Attempt) (second : NodeState) (path : List Place) (blocks : List StatusBlock) : Chain :=
  { attempting t (some 1) [] with
    nodes := some (lampAt 1) :: some { lampAt 2 with state := second } :: List.replicate 28 none,
    collect := some { info := { frame := 100, path := path, probe := none, stop := path.length + 1, deciding := true },
                      stopped := false, bytes := [], blocks := blocks } }

/-- The path of the first lamp alone. -/
def pathOne : List Place := [{ position := 1, address := some 1 }]

/-- A bypass and a reinstate at their deciding return: missing, arriving, and with the trial END hop at the target. -/
theorem witness_AttemptsAreDecided :
    (∀ k, k = AttemptKind.bypass ∨ k = .reinstate →
      (decidingChain (attemptOn k .deciding 1 true) .failed pathOne []).attempt = some (attemptOn k .deciding 1 true) ∧
      (attemptOn k .deciding 1 true).bundled = true ∧
      (decidingChain (attemptOn k .deciding 1 true) .failed pathOne []).queue.length ≤ 14 ∧
      (decidingChain (attemptOn k .deciding 1 true) .failed pathOne []).nodes.length = 30) ∧
    (0 < predHop pathOne (some 1) ∧ predHop pathOne none = 0 ∧ hopOfAddress pathOne 1 = some 1) ∧
    (lampBlock.answer?.map (fun x => (x.hop, x.address, x.kind)) = some (1, 1, .lamp) ∧
      (decidingChain (attemptOn .bypass .deciding 1 true) .live pathOne [lampBlock]).node 2 = some (lampAt 2)) ∧
    (({ attemptOn .bypass .routing 1 false with evicted := true } : Attempt).evicted = true ∧
      ({ attemptOn .bypass .deciding 0 true with lapsed := true } : Attempt).lapsed = true) := by
  refine ⟨?_, by decide, by decide, by decide⟩
  rintro k (rfl | rfl) <;> decide

/-- A chain with its second record FAILED. -/
def failedSecondOf (ch : Chain) : Chain := ch.setNode 2 (some { lampAt 2 with state := .failed })

/-- No skip is possible from a port that skips already, nor beside a FAILED record. -/
theorem witness_AttemptsAreDecided_no_skip :
    ({ listening 3 (some 1) with state := .broken, portRoute := .skipNext } : Chain).portRoute = .skipNext ∧
    (failedSecondOf (listening 3 (some 1))).node 2 = some { lampAt 2 with state := .failed } ∧
    (lampAt 1).position + 1 = (lampAt 2).position := by
  decide

/-- A bundle of the assembler that waits for its token, deciding, on a chain without an END hop. -/
theorem witness_AttemptsAreDecided_lapses :
    (attempting (attemptOn .bypass .deciding 0 true) none []).collect = none ∧
    (attempting (attemptOn .bypass .deciding 0 true) none []).endHop = none ∧
    (attempting (attemptOn .bypass .deciding 0 true) none []).attempt = some (attemptOn .bypass .deciding 0 true) := by
  decide

/-- A RUNNING chain whose reinstate lost its ROUTE: the next deadline ends the attempt. -/
theorem test_evicted_route_fails_on_a_running_chain :
    (after (.returnDeadline 0) (ticked (withChain
        { attempting { attemptOn .reinstate .routing 1 false with evicted := true } (some 1) [] with
          collect := some (collecting 100) }))).map
      (fun t => (t.chains.c0.attempt, t.chains.c0.state, t.chains.c0.breakCount)) = some (none, .running, 0) := by
  decide +kernel

/-- A cut whose predecessor is the port turns END off (R59). -/
theorem test_cut_at_the_port_turns_end_off :
    (after (.returnDeadline 0) (ticked (withChain
        { attempting { attemptOn .bypass .routing 1 false with evicted := true, pred := none, target := 1 } (some 2) [] with
          collect := some (collecting 100) }))).map
      (fun t => (t.chains.c0.attempt, (t.chains.c0.node 1).map fun n => n.state, t.chains.c0.queue.map fun x => x.cmd)) =
      some (none, some .cut, [.setEnd 2 false]) := by decide +kernel

theorem test_bypass_makes_its_target_failed :
    (after (.returnItemReceived 0 ([0x54, 1, 100] ++ put16 trailerCode))
        (withChain (decidingChain (attemptOn .bypass .deciding 1 true) .live pathOne [lampBlock]))).map
      (fun t => ((t.chains.c0.node 2).map (fun n => n.state), t.chains.c0.attempt.isSome, t.mail.notices.c0)) =
      some (some .failed, false, [.lost 2 .lamp true (.all false), .complete]) := by decide +kernel

theorem test_failed_bypass_cuts :
    (after (.returnDeadline 0) (ticked (withChain (decidingChain (attemptOn .bypass .deciding 1 true) .live pathOne [])))).map
      (fun t => ((t.chains.c0.node 2).map (fun n => n.state), t.chains.c0.queue.map (fun x => x.cmd), t.link.faultCount)) =
      some (some .cut, [.route (some 1) .normal], 1) := by decide +kernel

theorem witness_NodeGetReadsTheRecord :
    (Waits .nodeGet (request 0x06 [3, 30]) [] (asked 0x06 [3, 30]) ∧ (request 0x06 [3, 30]).body = [3, 30]) ∧
    (4 ≤ (4 : Byte).toNat ∧ (0 : Byte).toNat < 1 ∧ 30 < (31 : Byte).toNat) ∧
    ((3 : Byte).toNat = (3 : ChainId).val ∧ (State.reset.chains.get 3).node 30 = none) ∧
    (runningWith [some (lampAt 1)]).node 1 = some (lampAt 1) := by
  refine ⟨⟨⟨rfl, rfl, by decide⟩, rfl⟩, by decide, ⟨by decide, by decide⟩, by decide⟩

theorem witness_NodeSetChangesTheSettings :
    (Waits .nodeSet (request 0x07 [0, 1, 1, 2, 0, 0, 0]) [] (asked 0x07 [0, 1, 1, 2, 0, 0, 0]) ∧
      nodeSet? (request 0x07 [0, 1, 1, 2, 0, 0, 0]).body =
        some { node := { chain := 0, address := 1 }, gap := some .black, fallback := none, clamp := none, clear := false }) ∧
    Chain.reset.node 1 = none ∧
    ((runningWith [some (lampAt 1)]).node 1 = some (lampAt 1) ∧ (lampAt 1).kind = .lamp ∧
      (some GapPolicy.black ≠ none)) ∧
    ((runningWith [some (tileAt 1 .repeatHeld none)]).node 1 = some (tileAt 1 .repeatHeld none) ∧
      (tileAt 1 .repeatHeld none).kind =
        .tile { gap := .repeatHeld, fallback := none, gapCount := 0, lateCount := 0 }) ∧
    (nodeSet? [0, 1, 0, 0, 1, 3, 232, 0] =
      some { node := { chain := 0, address := 1 }, gap := none, fallback := none, clamp := some 1000, clear := false } ∧
      1000 ≠ (lampAt 1).clamp) := by
  refine ⟨⟨⟨rfl, rfl, by decide⟩, by decide⟩, by decide, ⟨by decide, rfl, by decide⟩, ⟨by decide, rfl⟩, by decide, by decide⟩

/-- A tile whose clamp is changed, and a lamp whose clamp is set to its present value. -/
theorem witness_NodeSetChangesTheSettings_clamps :
    (tileAt 1 .repeatHeld none).clamp ≠ 1000 ∧
    nodeSet? [0, 1, 0, 0, 1, 2, 88, 0] =
      some { node := { chain := 0, address := 1 }, gap := none, fallback := none, clamp := some 600, clear := false } ∧
    (lampAt 1).clamp = 600 := by
  decide

theorem test_node_set_clamp :
    (after .nodeSet (asking 0x07 [0, 1, 0, 0, 1, 3, 232, 0] (withChain (runningWith [some (lampAt 1)])))).map
      (fun t => ((t.chains.c0.node 1).map fun n => n.clamp, t.mail.clamps.c0)) = some (some 1000, [.clamp 1 1000]) := by
  decide +kernel

/-- A CONFIGURE in full: tag 5, settings 15, 3, 3, 3, 2. -/
def configureBody : List Byte := [0, 31, 0, 5, 15, 3, 3, 3, 2]

theorem witness_NodeCommandJoinsTheQueue :
    (Waits .nodeCommandConfigure (request 0x08 configureBody) [] (asked 0x08 configureBody) ∧
      configure? (request 0x08 configureBody).body =
        some (0, 31, 5, { colour := 15, gamma := 3, rotation := 3, dimming := 3, fan := 2 })) ∧
    (Waits .nodeCommandEnable (request 0x08 [0, 1, 1]) [] (asked 0x08 [0, 1, 1]) ∧
      enable? (request 0x08 [0, 1, 1]).body = some (0, 1)) ∧
    Chain.reset.state = .off ∧
    ((runningWith [some (lampAt 1)]).pendingDisable = false ∧ (runningWith [some (lampAt 1)]).state ≠ .off ∧
      (runningWith [some (lampAt 1)]).state ≠ .faulted ∧ (runningWith [some (lampAt 1)]).node 2 = none ∧
      (runningWith [some { lampAt 1 with state := .cut }]).node 1 = some { lampAt 1 with state := .cut } ∧
      (runningWith [some (lampAt 1)]).node 1 = some (lampAt 1) ∧ (lampAt 1).state ≠ .failed ∧ (lampAt 1).state ≠ .cut) ∧
    ((runningWith []).queue.length < 16 ∧ (runningWith []).claims = []) ∧
    (¬ (List.replicate 16 (hostEntry (.enable 1))).length < 16) := by
  refine ⟨⟨⟨rfl, rfl, by decide⟩, by decide⟩, ⟨⟨rfl, rfl, by decide⟩, by decide⟩, rfl, by decide, by decide, by decide⟩

theorem test_node_command_enable :
    (after .nodeCommandEnable (asking 0x08 [0, 1, 1] (withChain (runningWith [some (lampAt 1)])))).map
      (fun t => (t.chains.c0.queue, lastCode t)) = some ([hostEntry (.enable 1)], some .ok) := by decide +kernel

/-- A RUNNING chain whose second node is FAILED. -/
def failedSecond (first : NodeState) : Chain :=
  { runningWith [some { lampAt 1 with state := first }, some { lampAt 2 with state := .failed }] with endHop := some 1 }

theorem witness_ReinstateBeginsAnAttempt :
    (Waits .nodeReinstate (request 0x09 [0, 2]) [] (asked 0x09 [0, 2]) ∧
      nodeRef? (request 0x09 [0, 2]).body = some { chain := 0, address := 2 }) ∧
    Chain.reset.node 2 = none ∧ ((runningWith [some (lampAt 1)]).node 1 = some (lampAt 1) ∧ (lampAt 1).state ≠ .failed) ∧
    ((failedSecond .cut).node 2 = some { lampAt 2 with state := .failed } ∧ (failedSecond .cut).pendingDisable = false ∧
      (failedSecond .cut).atPosition 1 = some (1, { lampAt 1 with state := .cut })) ∧
    ((failedSecond .live).atPosition 1 = some (1, lampAt 1) ∧ (lampAt 1).state ≠ .failed ∧ (lampAt 1).state ≠ .cut) ∧
    ((runningWith [some { lampAt 1 with state := .failed }]).node 1 = some { lampAt 1 with state := .failed } ∧
      ({ lampAt 1 with state := .failed } : Node).position = 1) ∧
    ({ failedSecond .live with state := .broken } : Chain).state ≠ .running ∧
    ((failedSecond .live).state = .running ∧ (failedSecond .live).attempt = none ∧
      (failedSecond .live).queue.length < 16) ∧
    (({ failedSecond .live with lastPath := (failedSecond .live).path.1 } : Chain).lastPath =
        ({ failedSecond .live with lastPath := (failedSecond .live).path.1 } : Chain).path.1 ∧
      ∀ x ∈ (failedSecond .live).queue, x.cmd.isRepair = false) := by
  refine ⟨⟨⟨rfl, rfl, by decide⟩, by decide⟩, by decide, by decide, by decide, by decide, by decide, by decide, by decide, by decide⟩

/-- The second of three lamps is reinstated again while the path without it has not been taken into use: END stands at hop 3
and comes to hop 2, and the trial END hop is one beyond that (R62, R42). -/
theorem test_reinstate_while_the_path_changes :
    (after .nodeReinstate (asking 0x09 [0, 2] (withChain (skipping [])))).map
      (fun t => (t.chains.c0.endHop, t.chains.c0.attempt.map fun x => x.trialEnd)) = some (some 3, some 3) := by
  decide +kernel

theorem test_reinstate :
    (after .nodeReinstate (asking 0x09 [0, 2] (withChain (failedSecond .live)))).map
      (fun t => (t.chains.c0.attempt.map (fun x => (x.target, x.trialEnd)), t.chains.c0.queue.map (fun x => x.cmd))) =
      some (some (2, 2), [.route (some 1) .normal]) := by decide +kernel

/-! ### Chapter 4 -/

/-- An intake with these two entries. -/
def intakeWith (e0 e1 : Entry) : Intake := { Intake.reset with e0 := e0, e1 := e1 }

/-- The header of a one-byte segment for address 1 of chain 0. -/
def headerFor (frame : Word16) : SegHeader := { chain := 0, address := 1, frame := frame, length := 1 }

/-- A tick waits at the intake. -/
def intakeTicked (i : Intake) : State :=
  (State.reset.setIntake i).setMail { State.reset.mail with ticks := { State.reset.mail.ticks with intake := [1] } }

theorem test_segment_start :
    (after .segmentStart State.reset).map (fun t => (t.intake.e0, t.intake.total.received)) = some (.receiving none 0, 1) := by
  decide +kernel

theorem test_stall :
    (after .segmentStallExpiry (intakeTicked (intakeWith (.receiving none 1) .free))).map
      (fun t => (t.intake.e0, t.intake.total.stall, t.link.faultCount)) = some (.free, 1, 1) := by decide +kernel

theorem witness_SegmentsStartStallAndAreChecked :
    (Intake.reset.receiving = none ∧ Intake.reset.e0 = .free) ∧
    ((intakeWith (.queued (headerFor 1) [0] 5) (.queued (headerFor 2) [0] 6)).receiving = none ∧
      (intakeWith (.queued (headerFor 1) [0] 5) (.queued (headerFor 2) [0] 6)).e0 ≠ .free ∧
      (intakeWith (.queued (headerFor 1) [0] 5) (.queued (headerFor 2) [0] 6)).e1 ≠ .free) ∧
    ((intakeWith (.queued (headerFor 1) [0] 5) .free).e0 ≠ .free ∧
      (intakeWith (.queued (headerFor 1) [0] 5) .free).e1 = .free ∧
      (intakeWith (.receiving none 1) .free).e0 = .receiving none 1) ∧
    (intakeTicked Intake.reset).mail.ticks.intake = [1] ∧
    ((intakeWith (.receiving none 0) .free).receiving = some (.e0, none, 0) ∧
      (intakeWith (.receiving (some (headerFor 1)) 1) .free).receiving = some (.e0, some (headerFor 1), 1)) := by
  decide

/-- A segment that is truncated in the second entry, with the first one QUEUED and free. -/
theorem witness_SegmentsStartStallAndAreChecked_second :
    (∀ g u, Entry.queued (headerFor 3) [1] 4 ≠ .receiving g u) ∧ (∀ g u, Entry.free ≠ .receiving g u) ∧
    Entry.queued (headerFor 3) [1] 4 ≠ .free ∧
    ∀ x, (State.reset.setIntake (intakeWith x (.receiving none 1))).intake.e1 = .receiving none 1 :=
  ⟨by simp, by simp, by simp, fun _ => rfl⟩

/-- Lengths 0, 1, 4096 and 4097, chains 3 and 4, addresses 0, 1, 30 and 31 stand at the bounds. -/
theorem witness_SegmentsStartStallAndAreChecked_headers :
    ((intakeWith (.receiving none 0) .free).receiving = some (.e0, none, 0)) ∧
    ((0 : Word16).toNat < 1 ∧ 4096 < (4097 : Word16).toNat) ∧
    (1 ≤ (1 : Word16).toNat ∧ (4096 : Word16).toNat ≤ 4096) ∧
    (3 < (4 : Byte).toNat ∧ (0 : Byte).toNat < 1 ∧ 30 < (31 : Byte).toNat) ∧
    ((3 : Byte).toNat = (3 : ChainId).val ∧ 1 ≤ (1 : Byte).toNat ∧ (30 : Byte).toNat ≤ 30) ∧
    ((intakeWith (.receiving (some (headerFor 1)) 0) .free).receiving = some (.e0, some (headerFor 1), 0) ∧
      ([] : List Byte).length ≠ (headerFor 1).length) ∧
    Intake.reset.receiving = none := by
  decide

/-- Chain 0 RUNNING with a tile at address 1, frame 0, a segment of frame `frame` being received. -/
def filing (frame : Word16) (pool : Pool) : State :=
  ((withChain (runningWith [some (tileAt 1 .black none)])).setIntake
    (intakeWith (.receiving (some (headerFor frame)) 0) .free)).setPool pool

/-- The check code of the one-byte segment. -/
def segCode (frame : Word16) : Word32 := crc32 ((headerFor frame).bytes ++ [0xAB])

/-- A pool with one unreserved buffer behind a reserved one. -/
def lowPool : Pool :=
  { Pool.reset with free := [{ buffer := 4, reservedBy := some .e1 }, { buffer := 5, reservedBy := none }] }

/-- Distances 0, 1, 4, 5, 32767 and 32768 from frame 0 stand at the bounds of the window. -/
theorem witness_SegmentEndChecksAndFiles :
    ((filing 1 lowPool).intake.receiving = some (.e0, some (headerFor 1), 0) ∧ [0xAB].length = (headerFor 1).length) ∧
    (crc32 ((headerFor 1).bytes ++ [0xAB]) ≠ segCode 1 + 1 ∧ crc32 ((headerFor 1).bytes ++ [0xAB]) = segCode 1) ∧
    (Chain.reset.state ≠ .running ∧ Chain.reset.state ≠ .extending ∧ Chain.reset.state ≠ .broken) ∧
    ((runningWith []).state = .running ∧ (runningWith []).node 1 = none) ∧
    ((runningWith [some (tileAt 1 .black none)]).node 1 = some (tileAt 1 .black none) ∧
      (tileAt 1 .black none).kind = .tile { gap := .black, fallback := none, gapCount := 0, lateCount := 0 } ∧
      (tileAt 1 .black none).state = .live) ∧
    (((0 : Word16) - State.reset.ref.counter).toNat = 0 ∧ 32768 ≤ ((32768 : Word16) - State.reset.ref.counter).toNat) ∧
    (5 ≤ ((5 : Word16) - State.reset.ref.counter).toNat ∧ ((32767 : Word16) - State.reset.ref.counter).toNat ≤ 32767) ∧
    (1 ≤ ((1 : Word16) - State.reset.ref.counter).toNat ∧ ((4 : Word16) - State.reset.ref.counter).toNat ≤ 4) ∧
    (∀ f ∈ [({ buffer := 4, reservedBy := some .e1 } : FreeBuf)], f.reservedBy ≠ none) ∧
    (lowPool.free = [{ buffer := 4, reservedBy := some .e1 }] ++ { buffer := 5, reservedBy := none } :: [] ∧
      lowPool.busy = none ∧ lowPool.reads = [] ∧ lowPool.stores = []) ∧
    ({ lowPool with busy := some (.read 0 9) } : Pool).busy ≠ none := by
  refine ⟨by decide, by decide +kernel, by decide, by decide, by decide, by decide, by decide, by decide, by decide, by decide,
    by decide⟩

theorem test_segment_end_stores :
    (after (.segmentEnd [0xAB] (segCode 4)) (filing 4 lowPool)).map
      (fun t => (t.intake.e0, t.pool.busy, t.pool.pause, t.pool.flowOut)) =
      some (.storing (headerFor 4) [0xAB] 5 false, some (.store .e0), true, [.resume 0, .pause 0 2]) := by decide +kernel

theorem test_segment_end_late :
    (after (.segmentEnd [0xAB] (segCode 0)) (filing 0 lowPool)).map
      (fun t => (t.intake.total.late, (t.chains.c0.node 1).bind (fun n => n.tile?.map fun x => x.lateCount))) =
      some (1, some 1) := by decide +kernel

/-- A store in progress. -/
def storingState (frame : Word16) (flushed : Bool) (ch : Chain) : State :=
  ((withChain ch).setIntake (intakeWith (.storing (headerFor frame) [0xAB] 5 flushed) .free)).setPool
    { lowPool with busy := some (.store .e0), free := [{ buffer := 5, reservedBy := some .e0 }] }

theorem witness_StoreCompleteRechecksAndFiles :
    ((storingState 1 false (runningWith [])).pool.busy = some (.store .e0) ∧
      (storingState 1 false (runningWith [])).intake.entry .e0 = .storing (headerFor 1) [0xAB] 5 false ∧
      (storingState 1 true (runningWith [])).intake.entry .e0 = .storing (headerFor 1) [0xAB] 5 true) ∧
    (Chain.reset.state ≠ .running ∧ Chain.reset.state ≠ .extending ∧ Chain.reset.state ≠ .broken) ∧
    (runningWith []).state = .running ∧
    (((0 : Word16) - State.reset.ref.counter).toNat = 0 ∧ 32768 ≤ ((32768 : Word16) - State.reset.ref.counter).toNat) ∧
    (5 ≤ ((5 : Word16) - State.reset.ref.counter).toNat ∧ ((32767 : Word16) - State.reset.ref.counter).toNat ≤ 32767) ∧
    (1 ≤ ((1 : Word16) - State.reset.ref.counter).toNat ∧ ((4 : Word16) - State.reset.ref.counter).toNat ≤ 4) ∧
    (∀ x ∈ AsmChain.reset.slots, ¬ (x.address = (headerFor 1).address ∧ x.frame = (headerFor 1).frame)) ∧
    (∃ old : FrameSlot, ({ AsmChain.reset with slots := [old] } : AsmChain).slots = [] ++ old :: [] ∧
      old.address = (headerFor 1).address ∧ old.frame = (headerFor 1).frame) ∧
    Memory.wf State.reset.pool.memory := by
  refine ⟨by decide, by decide, by decide, by decide, by decide, by decide, by decide,
    ⟨{ frame := 1, address := 1, buffer := 9 }, rfl, rfl, rfl⟩, List.Pairwise.nil, by intro c h; cases h⟩

theorem test_store_files :
    (after .storeComplete (storingState 1 false (runningWith [some (tileAt 1 .black none)]))).map
      (fun t => (t.intake.e0, t.asm.c0.slots, t.pool.contents 5)) =
      some (.free, [{ frame := 1, address := 1, buffer := 5 }], [0xAB]) := by decide +kernel

/-- A chain's share of a FLOW_CLEAR is due when its NONE order comes. -/
def sharing (others : Bool) : State :=
  { State.reset with
    mail := State.reset.mail.giveOrder 0 { frame := 1, kind := .none },
    asm := (Four.all { AsmChain.reset with clearDue := others }).set 0
      { AsmChain.reset with clearDue := true, slots := [{ frame := 2, address := 1, buffer := 9 }] },
    intake := { Intake.reset with clearWaiting := true },
    link := { State.reset.link with deferred := [{ kind := 0x0B, tag := 7, what := .flowClear }] } }

/-- The share of chain 0 with two entries out of order and a held buffer, a pause in force at threshold `t`. -/
def sharingPaused (t : Nat) : State :=
  ((sharing false).setPool { Pool.reset with free := [{ buffer := 3, reservedBy := none }], pause := true, threshold := t }).setAsm
    0 { AsmChain.reset with clearDue := true, held := some 7 :: List.replicate 29 none,
                            slots := [{ frame := 2, address := 1, buffer := 9 }, { frame := 1, address := 4, buffer := 8 }] }

theorem witness_FlowClearEmptiesTheBuffers :
    (Waits .flowClear (request 0x0B []) [] (asked 0x0B []) ∧ (request 0x0B []).body = []) ∧
    (Intake.reset.clearWaiting = false ∧ { Intake.reset with clearWaiting := true }.clearWaiting = true) ∧
    ((sharing false).mail.orders.get 0 = [.order { frame := 1, kind := .none }] ∧ ((sharing false).asm.get 0).bundle = none ∧
      ((sharing false).asm.get 0).waiting = [] ∧ ((sharing false).chains.get 0).probes = [] ∧
      ((sharing false).asm.get 0).clearDue = true ∧
      (sharing false).link.deferred = [] ++ { kind := 0x0B, tag := 7, what := .flowClear } :: []) ∧
    ((∀ d : ChainId, d ≠ 0 → ((sharing false).asm.get d).clearDue = false) ∧
      ((1 : ChainId) ≠ 0 ∧ ((sharing true).asm.get 1).clearDue = true)) ∧
    (([{ frame := 1, address := 4, buffer := 8 }, { frame := 2, address := 1, buffer := 9 }] : List FrameSlot).Perm
        ((sharingPaused 9).asm.get 0).slots ∧
      ((1 : Word16) - 1).toNat < ((2 : Word16) - 1).toNat ∧ ((sharingPaused 9).asm.get 0).heldAt 1 = some 7) := by
  refine ⟨⟨⟨rfl, rfl, by decide⟩, rfl⟩, ⟨rfl, rfl⟩, ⟨rfl, rfl, rfl, rfl, rfl, rfl⟩, ⟨by decide, by decide⟩, by decide⟩

/-- Four free buffers behind the share: a pause ends at threshold 4 and is renewed at 5 (R86). -/
theorem test_flow_clear_ends_the_pause :
    (after (.frameOrder 0) (sharingPaused 4)).map
      (fun t => (t.pool.free.map (fun f => f.buffer), t.pool.pause, t.pool.flowOut, t.asm.c0.counters.returned)) =
      some ([3, 8, 9, 7], false, [.resume 0, .resume 0], 3) ∧
    (after (.frameOrder 0) (sharingPaused 5)).map (fun t => (t.pool.pause, t.pool.flowOut)) =
      some (true, [.resume 0, .pause 0 2]) := by decide +kernel

theorem test_flow_clear_share :
    (after (.frameOrder 0) (sharing false)).map
      (fun t => (t.asm.c0.slots, t.intake.clearWaiting, lastCode t, t.pool.free.length)) =
      some ([], false, some .ok, 513) := by decide +kernel

theorem test_flow_clear :
    (after .flowClear (asking 0x0B [] (State.reset.setIntake (intakeWith (.receiving none 0)
        (.storing (headerFor 1) [0xAB] 5 false))))).map
      (fun t => (t.intake.e0, t.intake.e1, t.intake.total.flushed, t.asm.c3.clearDue)) =
      some (.free, .storing (headerFor 1) [0xAB] 5 true, 2, true) := by decide +kernel

/-- A tick waits at the Buffer Pool. -/
def poolTicked (p : Pool) : State :=
  (State.reset.setPool p).setMail { State.reset.mail with ticks := { State.reset.mail.ticks with pool := [1] } }

/-- A pool whose pause is in force, with the memory at rest. -/
def pausedPool (t : Nat) : Pool := { Pool.reset with pause := true, threshold := t }

/-- T 0, 8 and 256 and P 0 and 15 stand at the bounds of SEG_SET; the free count is 512. -/
theorem witness_PoolTicksSettingsAndGrants :
    ((poolTicked Pool.reset).mail.ticks.pool = [1] ∧ Pool.reset.pause = false) ∧
    ((pausedPool 513).pause = true ∧ (pausedPool 513).freeCount < (pausedPool 513).threshold) ∧
    ((pausedPool 512).pause = true ∧ (pausedPool 512).threshold ≤ (pausedPool 512).freeCount) ∧
    (Waits .segSet (request 0x0A [1, 0, 15]) [] (asked 0x0A [1, 0, 15]) ∧
      segSet? (request 0x0A [1, 0, 15]).body = some (256, 15) ∧ segSet? [0, 8, 1] = some (8, 1) ∧
      segSet? [0, 0, 0] = some (0, 0)) ∧
    (lowPool.pause = false ∧ lowPool.freeCount < 8) ∧ Pool.reset.flowOut = .resume 0 :: [] ∧
    ({ Pool.reset with busy := some (.test 1) } : Pool).busy ≠ none ∧
    (∃ p : Pool, p.busy = none ∧ p.reads = (0, 4) :: [(1, 5)]) ∧
    (∃ p : Pool, p.busy = none ∧ p.reads = [] ∧ p.stores = .e1 :: [.e0]) ∧
    (∃ (p : Pool) (sc : Scrub), p.busy = none ∧ p.reads = [] ∧ p.stores = [] ∧ p.testWaiting = true ∧
      p.scrub = some sc ∧ sc.todo = 7 :: []) ∧
    (Pool.reset.busy = none ∧ Pool.reset.reads = [] ∧ Pool.reset.stores = [] ∧ Pool.reset.testWaiting = false) := by
  refine ⟨⟨rfl, rfl⟩, by decide +kernel, by decide +kernel, ⟨⟨rfl, rfl, by decide⟩, by decide, by decide, by decide⟩,
    by decide, rfl, by decide, ⟨{ Pool.reset with reads := [(0, 4), (1, 5)] }, rfl, rfl⟩,
    ⟨{ Pool.reset with stores := [.e1, .e0] }, rfl, rfl, rfl⟩,
    ⟨{ Pool.reset with testWaiting := true, scrub := some { todo := [7], tested := 0, returned := 0, kept := 0 } },
      { todo := [7], tested := 0, returned := 0, kept := 0 }, rfl, rfl, rfl, rfl, rfl, rfl⟩, rfl, rfl, rfl, rfl⟩

theorem test_pause_ends :
    (after .bufferPoolTick (poolTicked (pausedPool 512))).map (fun t => (t.pool.pause, t.pool.flowOut)) =
      some (false, [.resume 0, .resume 0]) := by decide +kernel

theorem test_flow_message_end : (after .flowMessageEnd State.reset).map (fun t => t.pool.flowOut) = some [] := by
  decide +kernel

/-- A pool with a retired buffer and one that can be tested. -/
def scrubPool : Pool := { Pool.reset with quarantine := [(3, 255), (8, 254)] }

/-- A scrub whose last test is under way. -/
def lastTest : Pool :=
  { scrubPool with busy := some (.test 8), scrub := some { todo := [8], tested := 0, returned := 0, kept := 0 } }

theorem witness_ScrubTestsTheQuarantine :
    (Waits .poolScrub (request 0x0C []) [] (asked 0x0C []) ∧ (request 0x0C []).body = []) ∧
    (lastTest.scrub ≠ none ∧ scrubPool.scrub = none ∧
      ((scrubPool.quarantine.filter fun x => decide (x.2 < 255)).map fun x => x.1) ≠ [] ∧
      ((Pool.reset.quarantine.filter fun x => decide (x.2 < 255)).map fun x => x.1) = []) ∧
    (lastTest.busy = some (.test 8) ∧ (∀ x ∈ lastTest.quarantine, x.2 ≤ 255) ∧
      (∃ sc, lastTest.scrub = some sc ∧ sc.todo.tail = [])) ∧
    (∃ sc : Scrub, sc.todo.tail ≠ []) := by
  refine ⟨⟨⟨rfl, rfl, by decide⟩, rfl⟩, by decide, ⟨rfl, by decide, _, rfl, rfl⟩,
    { todo := [8, 9], tested := 0, returned := 0, kept := 0 }, by decide⟩

theorem test_scrub_begins :
    (after .poolScrub (asking 0x0C [] (State.reset.setPool scrubPool))).map (fun t => (t.pool.busy, lastCode t)) =
      some (some (.test 8), some .ok) := by decide +kernel

/-! ### Chapters 5 and 6 -/

/-- A frame order waits at chain 0's assembler. -/
def orderedOn (o : FrameOrder) (m : AsmChain) (ch : Chain) : State :=
  ((withChain ch).setAsm 0 m).setMail (State.reset.mail.giveOrder 0 o)

/-- A bundle that waits for `w`. -/
def bundleAt (w : BundleWait) : Bundle :=
  { info := (collecting 1).info, gen := 0, cmds := [], emitting := [(1, 5)], out := [], jobs := [], wait := w,
    stopping := false }

/-- The order of an empty bundle of frame 1. -/
def emptyOrder : FrameOrder :=
  { frame := 1, kind := .assemble { frame := 1, path := [], probe := none, stop := 1, deciding := false } [] }

theorem witness_FrameOrdersAreTakenOrWait :
    ((orderedOn emptyOrder .reset .reset).mail.orders.get 0 = [.order emptyOrder] ∧ AsmChain.reset.bundle = none ∧
      AsmChain.reset.waiting = [] ∧ Chain.reset.probes = [] ∧ AsmChain.reset.clearDue = false) ∧
    { AsmChain.reset with bundle := some (bundleAt .token) }.bundle ≠ none ∧
    (∃ p : ProbeBundle, p.ordered = true) ∧
    (∃ p : ProbeBundle, p.ordered = false ∧ p.info.frame = emptyOrder.frame ∧
      ({ Chain.reset with probes := [p] } : Chain).probes = [] ++ p :: []) ∧
    (∃ i cmds, emptyOrder.kind = .assemble i cmds ∧ i.path = [] ∧ AsmChain.reset.slots = []) ∧
    (∀ a, AsmChain.reset.heldAt a = none) ∧
    (({ frame := 1, kind := .disable } : FrameOrder).kind = .disable ∧
      ({ frame := 1, kind := .none } : FrameOrder).kind = .none) ∧
    (({ AsmChain.reset with held := some 6 :: List.replicate 29 none } : AsmChain).heldAt 1 = some 6) := by
  refine ⟨⟨rfl, rfl, rfl, rfl, rfl⟩, by decide,
    ⟨{ info := (collecting 0).info, gen := 0, cmds := [], blocks := [], ordered := true }, rfl⟩,
    ⟨{ info := (collecting 1).info, gen := 0, cmds := [], blocks := [], ordered := false }, rfl, by decide, rfl⟩,
    ⟨_, _, rfl, rfl, rfl⟩, ?_, ⟨rfl, rfl⟩,
    rfl⟩
  intro a
  show (List.replicate 30 none).getD (a - 1) none = none
  rw [List.getD_eq_getElem?_getD, List.getElem?_replicate]
  split <;> rfl

/-- An order is taken although the probe bundle of its own tick has not left, and the next one waits. -/
theorem test_orders_wait_behind_an_earlier_probe :
    (after (.frameOrder 0) (orderedOn { frame := 1, kind := .none } .reset { Chain.reset with
        probes := [{ info := (collecting 1).info, gen := 0, cmds := [], blocks := [], ordered := false }] })).map
      (fun t => (t.asm.c0.waiting, t.chains.c0.probes.map (fun p => p.ordered),
        (after (.frameOrder 0) (t.setMail (t.mail.giveOrder 0 { frame := 2, kind := .none }))).map
          (fun u => (u.asm.c0.waiting, u.asm.c0.counters.overrun)))) =
      some ([], [true], some ([{ frame := 2, kind := .none }], 1)) := by decide +kernel

/-- Entries at distances 0, 1, 4 and 5 from frame 1: a NONE order keeps the second and third (R93). -/
theorem test_window_sweep :
    (after (.frameOrder 0) (orderedOn { frame := 1, kind := .none }
        { AsmChain.reset with
          slots := [{ frame := 1, address := 1, buffer := 20 }, { frame := 2, address := 1, buffer := 21 },
                    { frame := 5, address := 1, buffer := 22 }, { frame := 6, address := 1, buffer := 23 }] } .reset)).map
      (fun t => (t.asm.c0.slots.map (fun x => x.buffer), t.asm.c0.counters.withdrawn, t.asm.c0.counters.expiredEarly)) =
      some ([21, 22], 1, 1) := by decide +kernel

/-- The order of a bundle of frame 1 whose path is the node at address 1. -/
def oneOrder : FrameOrder := { frame := 1, kind := .assemble (collecting 1).info [] }

/-- Chain 0 with one tile, its look, held buffer and segments. -/
def showing (gap : GapPolicy) (fallback : Option Nat) (source : TileSource) (held : Option Nat) (slots : List FrameSlot) :
    State :=
  orderedOn oneOrder
    { AsmChain.reset with slots := slots, held := held :: List.replicate 29 none,
                          posts := [{ gen := 1, looks := { Look.reset with source := source } :: List.replicate 29 .reset }] }
    (runningWith [some (tileAt 1 gap fallback)])

/-- The segment of frame 1 for the tile. -/
def segSlot : FrameSlot := { frame := 1, address := 1, buffer := 5 }

theorem witness_BlocksFollowTheRecordAndTheLook :
    ((showing .still (some 3) .liveFeed none []).mail.orders.get 0 = [.order oneOrder] ∧
      oneOrder.kind = .assemble (collecting 1).info [] ∧ (collecting 1).info.frame = oneOrder.frame ∧
      (collecting 1).info.path = [{ position := 1, address := some 1 }]) ∧
    (((showing .still (some 3) .liveFeed none []).asm.get 0).bundle = none ∧
      ((showing .still (some 3) .liveFeed none []).asm.get 0).waiting = [] ∧
      ((showing .still (some 3) .liveFeed none []).chains.get 0).probes = [] ∧
      ((showing .still (some 3) .liveFeed none []).asm.get 0).clearDue = false ∧
      ((showing .still (some 3) .liveFeed none []).asm.get 0).held.length = 30) ∧
    (∀ (n : Node), n = tileAt 1 .black none ∨ n = lampAt 1 ∨ n = { lampAt 1 with state := .ident } ∨
        n = { lampAt 1 with state := .failed } ∨ n = { tileAt 1 .still (some 3) with state := .suspect } →
      (runningWith [some n]).nodes.length = 30 ∧ (runningWith [some n]).node 1 = some n ∧ n.state ≠ .cut) ∧
    (∀ x y, (runningWith [some (tileAt 1 .black none)]).node x = some y → y.state ≠ .cut) ∧
    (∀ src, src = .liveFeed ∨ src = .still 3 ∨ src = .freeze ∨ src = .black →
      ((({ gen := 1, looks := { Look.reset with source := src } :: List.replicate 29 .reset } : Post).look 1).source = src)) ∧
    (({ AsmChain.reset with held := some 6 :: List.replicate 29 none } : AsmChain).heldAt 1 = some 6) := by
  refine ⟨⟨rfl, rfl, rfl, rfl⟩, ⟨rfl, rfl, rfl, rfl, rfl⟩, ?_, ?_, ?_, rfl⟩
  · rintro n (rfl | rfl | rfl | rfl | rfl) <;> decide
  · intro x y h
    have : x ≤ 30 := by
      by_contra hx
      simp [Chain.node, isAddress] at h
      omega
    have all : ∀ x, x ≤ 30 → ∀ y, (runningWith [some (tileAt 1 .black none)]).node x = some y → y.state ≠ .cut := by
      intro x hx
      interval_cases x <;> intro y h <;> simp [Chain.node, isAddress, runningWith, List.replicate, List.getD] at h
      subst h; decide
    exact all x this y h
  · rintro src (rfl | rfl | rfl | rfl) <;> rfl

/-- Places whose blocks go out at once, ahead of a tile that asks for a still and a lamp behind it. -/
def firstPlaces : List Place := [{ position := 1, address := some 1 }, { position := 2, address := some 2 },
  { position := 3, address := none }]

/-- The tile's place and the lamp's. -/
def lastPlaces : List Place := [{ position := 4, address := some 4 }, { position := 5, address := some 5 }]

/-- The nodes of those places: a tile that shows BLACK, a FAILED lamp, none, a tile that shows a still, a lamp. -/
def placeNodes : List (Option Node) :=
  [some (tileAt 1 .black none), some { lampAt 2 with state := .failed }, none, some (tileAt 4 .black none),
   some (lampAt 5)]

/-- The order of their bundle, and the look that shows them so. -/
def severalOrder (places : List Place) : FrameOrder :=
  { frame := 1, kind := .assemble { (collecting 1).info with path := places } [] }

/-- The post of that look. -/
def severalPost : Post :=
  { gen := 1, looks := [{ Look.reset with source := .black }, .reset, .reset, { Look.reset with source := .still 3 }] ++
      List.replicate 26 .reset }

/-- The part with that order, look and table. -/
def severalPlaces (places : List Place) : State :=
  orderedOn (severalOrder places) { AsmChain.reset with posts := [severalPost] } (runningWith placeNodes)

theorem witness_BlocksFollowTheRecordAndTheLook_several :
    (∀ places, (severalPlaces places).mail.orders.get 0 = .order (severalOrder places) :: [] ∧
      ((severalPlaces places).asm.get 0).bundle = none ∧ ((severalPlaces places).asm.get 0).slots = [] ∧
      ((severalPlaces places).chains.get 0).probes = []) ∧
    (runningWith placeNodes).nodes.length = 30 ∧ (∀ x ∈ placeNodes, ∀ y, x = some y → y.state ≠ .cut) ∧
    List.Forall₂ (fun (p : Place) (x : Block) =>
        (p.address = none ∧ x = .empty) ∨
        ∃ a n, p.address = some a ∧ 1 ≤ a ∧ a ≤ 30 ∧ (runningWith placeNodes).node a = some n ∧
          ((n.state = .failed ∧ x = .empty) ∨
            (n.state = .live ∧ (∃ t, n.kind = .tile t) ∧ (severalPost.look a).source = .black ∧
              x = .tileBlack (severalPost.look a).brightness)))
      firstPlaces [.tileBlack 1000, .empty, .empty] ∧
    ((runningWith placeNodes).node 4 = some (tileAt 4 .black none) ∧ (tileAt 4 .black none).state = .live ∧
      (severalPost.look 4).source = .still 3 ∧ ∃ p later, lastPlaces = p :: later ∧ p.address = some 4) := by
  refine ⟨fun _ => ⟨rfl, rfl, rfl, rfl⟩, rfl, by decide, ?_, rfl, rfl, rfl, _, _, rfl, rfl⟩
  refine .cons (.inr ⟨1, tileAt 1 .black none, rfl, by decide, by decide, rfl, .inr ⟨rfl, ⟨_, rfl⟩, rfl, rfl⟩⟩) ?_
  refine .cons (.inr ⟨2, { lampAt 2 with state := .failed }, rfl, by decide, by decide, rfl, .inl ⟨rfl, rfl⟩⟩) ?_
  exact .cons (.inl ⟨rfl, rfl⟩) .nil

theorem test_several_places_go_out_in_order :
    (after (.frameOrder 0) (severalPlaces (firstPlaces ++ lastPlaces))).map
      (fun t => t.asm.c0.bundle.map fun b => (b.out, b.wait, b.jobs)) =
      some (some ([.tileBlack 1000, .empty, .empty], .stillAsk 4 1000 3 false, [.fixed (.level 0 0)])) := by decide +kernel

theorem test_live_feed_reads_its_segment :
    (after (.frameOrder 0) (showing .black none .liveFeed none [segSlot])).map
      (fun t => (t.asm.c0.slots, t.pool.busy, t.asm.c0.bundle.map fun b => b.emitting)) =
      some ([], some (.read 0 5), some [(1, 5)]) := by decide +kernel

theorem test_black_supersedes :
    (after (.frameOrder 0) (showing .black none .black none [segSlot])).map
      (fun t => (t.asm.c0.counters.superseded, t.asm.c0.bundle.map fun b => (b.out, b.wait))) =
      some (1, some ([.tileBlack 1000], .token)) := by decide +kernel

/-- Chain 0's emission read of buffer 5 in progress. -/
def readingFor (why : ReadWhy) (held : Option Nat) (gap : GapPolicy) : State :=
  ((withChain (runningWith [some (tileAt 1 gap none)])).setAsm 0
    { AsmChain.reset with held := held :: List.replicate 29 none,
                          bundle := some (bundleAt (.memRead 1 1000 gap none 5 why)) }).setPool
    { Pool.reset with busy := some (.read 0 5), memory := [(20480, 0xAB)],
                      info := Pool.reset.info.set 5 (some { length := 1, code := 0 }) }

/-- Entries of frame 1 for a showing tile, a lamp and an address without a record, and entries 4, 5, 32767 and 32768 frames
ahead. -/
def sweptSlots : List FrameSlot :=
  [{ frame := 1, address := 1, buffer := 20 }, { frame := 1, address := 2, buffer := 21 },
   { frame := 1, address := 9, buffer := 22 }, { frame := 5, address := 1, buffer := 23 },
   { frame := 6, address := 1, buffer := 24 }, { frame := 0x8000, address := 1, buffer := 25 },
   { frame := 0x8001, address := 1, buffer := 26 }]

/-- An order whose path is the tile and the lamp. -/
def sweptOrder : FrameOrder :=
  { frame := 1, kind := .assemble { (collecting 1).info with path := [{ position := 1, address := some 1 },
                                                                      { position := 2, address := some 2 }] } [] }

/-- The chain of that order, its tile in `st`. -/
def swept (st : NodeState) : State :=
  orderedOn sweptOrder
    { AsmChain.reset with slots := sweptSlots,
                          posts := [{ gen := 1, looks := { Look.reset with source := .liveFeed } :: List.replicate 29 .reset }] }
    (runningWith [some { tileAt 1 .black none with state := st }, some (lampAt 2)])

theorem witness_BlocksFollowTheRecordAndTheLook_entries :
    (((swept .live).asm.get 0).slots = sweptSlots ∧ ((swept .live).asm.get 0).clearDue = false ∧
      ((swept .live).asm.get 0).heldAt 1 = none) ∧
    (sweptSlots.map (fun x => (x.frame - sweptOrder.frame).toNat) = [0, 0, 0, 4, 5, 32767, 32768]) ∧
    (((swept .ident).chains.get 0).node 1 = some { tileAt 1 .black none with state := .ident } ∧
      (({ gen := 1, looks := { Look.reset with source := .liveFeed } :: List.replicate 29 .reset } : Post).look 1).source =
        .liveFeed) := by decide

/-- Expired early, expired late, withdrawn, and the one that joins the emitting set (R92, R93). -/
theorem test_entries_at_an_assemble_order :
    (after (.frameOrder 0) (swept .live)).map
      (fun t => (t.pool.free.map (fun f => f.buffer)).drop 512 ++ t.asm.c0.slots.map (fun x => x.buffer) ++
        (t.asm.c0.bundle.map (fun b => b.emitting.map (fun x => x.2))).getD []) = some [24, 25, 26, 21, 22, 23, 20] ∧
    (after (.frameOrder 0) (swept .ident)).map
      (fun t => (t.asm.c0.counters.withdrawn, t.asm.c0.counters.expiredEarly, t.asm.c0.counters.expiredLate,
        (t.chains.c0.node 1).bind fun n => n.tile?.map fun x => x.lateCount)) = some (3, 2, 1, some 1) := by decide +kernel

theorem witness_EmissionReadsSendTheImage :
    ((readingFor .segment (some 6) .black).pool.busy = some (.read 0 5) ∧
      ((readingFor .segment (some 6) .black).asm.get 0).bundle = some (bundleAt (.memRead 1 1000 .black none 5 .segment)) ∧
      (bundleAt (.memRead 1 1000 .black none 5 .segment)).stopping = false ∧
      (bundleAt (.memRead 1 1000 .black none 5 .segment)).jobs = [] ∧
      ((readingFor .segment (some 6) .black).asm.get 0).held.length = 30) ∧
    (ReadWhy.gapHeld ≠ .segment ∧ ReadWhy.freeze ≠ .segment) ∧
    (∀ k x, State.reset.pool.busy ≠ some (.read k x)) := by
  refine ⟨⟨rfl, rfl, rfl, rfl, rfl⟩, by decide, ?_⟩
  intro k x h; cases h

/-- A read in progress for a bundle with places left: a poll, then a tile with its segment, or one that shows a still. -/
theorem witness_EmissionReadsSendTheImage_places :
    (∀ job, job = Job.tile 1 .liveFeed 1000 .black none ∨ job = Job.tile 2 (.still 3) 1000 .black none →
      ({ bundleAt (.memRead 3 1000 .black none 7 .freeze) with jobs := [.fixed .poll, job] } : Bundle).jobs =
        [Block.poll].map .fixed ++ job :: []) ∧
    (bundleAt .token).segmentOf 1 = some 5 ∧ (bundleAt .token).segmentOf 2 = none ∧ ReadWhy.freeze ≠ .segment ∧
    (∀ old, old = 6 ∨ old = 7 →
      ((readingFor .segment (some old) .repeatHeld).asm.get 0).heldAt 1 = some old ∧ old ≠ 5) := by
  refine ⟨?_, by decide, by decide, by decide, ?_⟩
  · rintro job (rfl | rfl) <;> rfl
  · rintro old (rfl | rfl) <;> decide

/-- A segment that fails its check under REPEAT: the gap is filled with the held buffer. -/
theorem test_mismatch_repeats_the_held_buffer :
    (after (.emissionReadComplete false true) (readingFor .segment (some 6) .repeatHeld)).map
      (fun t => (t.asm.c0.bundle.map fun b => b.wait, t.pool.busy, t.pool.quarantine)) =
      some (some (.memRead 1 1000 .repeatHeld none 6 .gapHeld), some (.read 0 6), [(5, 0)]) := by decide +kernel

theorem test_segment_becomes_held :
    (after (.emissionReadComplete true false) (readingFor .segment (some 6) .black)).map
      (fun t => (t.asm.c0.heldAt 1, t.asm.c0.bundle.map fun b => b.out, t.pool.free.length)) =
      some (some 5, some [.tileImage 1000 [0xAB]], 513) := by decide +kernel

theorem test_mismatch_is_quarantined :
    (after (.emissionReadComplete false true) (readingFor .freeze (some 5) .black)).map
      (fun t => (t.asm.c0.heldAt 1, t.asm.c0.bundle.map fun b => b.out, t.pool.quarantine, t.link.faultCount)) =
      some (none, some [.tileBlack 1000], [(5, 0)], 1) := by decide +kernel

/-- Slot 3/0/30 holds `x`, and chain 0's bundle waits for `w`. -/
def stillOn (x : StillSlot) (reads : List StillRef) (w : BundleWait) : State :=
  { State.reset.setAsm 0 { AsmChain.reset with bundle := some (bundleAt w) } with
    stills := { slots := Stills.reset.slots.set 389 x, reads := reads } }

/-- The still slot of page 3, chain 0, address 30. -/
def lastRef : StillRef := { page := 3, chain := 0, address := 30 }

theorem witness_StillReadsSendTheStill :
    (((stillOn (.ready [1] false) [] (.stillAsk 30 1000 3 false)).asm.get 0).bundle =
        some (bundleAt (.stillAsk 30 1000 3 false)) ∧ (bundleAt (.stillAsk 30 1000 3 false)).jobs = [] ∧
      (stillOn (.ready [1] false) [] (.stillAsk 30 1000 3 false)).stills.slot lastRef = .ready [1] false) ∧
    (∀ data mark, (stillOn .empty [] (.stillAsk 30 1000 3 true)).stills.slot lastRef ≠ .ready data mark) ∧
    ((stillOn .empty [] (.stillAsk 30 1000 3 true)).asm.get 0).heldAt 30 = none ∧
    ((stillOn (.ready [1] true) [lastRef] (.stillRead 30 1000 3)).stills.reads = lastRef :: [] ∧
      (stillOn (.ready [1] true) [lastRef] (.stillRead 30 1000 3)).stills.slot lastRef = .ready [1] true ∧
      ((stillOn (.ready [1] true) [lastRef] (.stillRead 30 1000 3)).asm.get lastRef.chain).bundle =
        some (bundleAt (.stillRead lastRef.address 1000 lastRef.page))) ∧
    State.reset.stills.reads = [] := by
  refine ⟨⟨rfl, rfl, by decide +kernel⟩, ?_, rfl, ⟨rfl, by decide +kernel, rfl⟩, rfl⟩
  intro data mark h
  have e : (stillOn .empty [] (.stillAsk 30 1000 3 true)).stills.slot lastRef = .empty := by decide +kernel
  rw [e] at h; cases h

/-- A fallback still that is not READY, with a held buffer. -/
def fallbackOn : State :=
  (stillOn .empty [] .token).setAsm 0
    { AsmChain.reset with bundle := some (bundleAt (.stillAsk 30 1000 3 true)), held := List.replicate 29 none ++ [some 8] }

theorem witness_StillReadsSendTheStill_fallback :
    fallbackOn.stills.slot lastRef = .empty ∧ (fallbackOn.asm.get 0).heldAt 30 = some 8 := by decide +kernel

theorem test_fallback_still_falls_back_to_the_held_buffer :
    (after (.stillReadRequest 0) fallbackOn).map (fun t => (t.asm.c0.bundle.map (fun b => b.wait), t.pool.busy)) =
      some (some (.memRead 30 1000 .still none 8 .gapHeld), some (.read 0 8)) := by decide +kernel

theorem test_still_sent :
    (after .stillReadComplete (stillOn (.ready [1] true) [lastRef] (.stillRead 30 1000 3))).map
      (fun t => (t.stills.slot lastRef, t.asm.c0.bundle.map fun b => b.out)) =
      some (.ready [1] false, some [.tileImage 1000 [1]]) := by decide +kernel

/-- The FAULTED notice of chain 0 waits at the assembler. -/
def faultedOn (m : AsmChain) : State :=
  (State.reset.setAsm 0 m).setMail { State.reset.mail with orders := State.reset.mail.orders.set 0 [.faulted] }

theorem witness_BundlesLeaveOrAreStopped :
    (Chain.reset.collect = none ∧ AsmChain.reset.waiting = []) ∧
    ({ AsmChain.reset with bundle := some (bundleAt .token) }.bundle = some (bundleAt .token) ∧
      (bundleAt .token).wait = .token ∧ (bundleAt .token).stopping = false) ∧
    (AsmChain.reset.bundle = none ∧ ∃ p : ProbeBundle, ({ Chain.reset with probes := [p] } : Chain).probes = p :: []) ∧
    ((faultedOn .reset).mail.orders.get 0 = .faulted :: [] ∧ ((faultedOn .reset).asm.get 0).waiting = []) := by
  exact ⟨⟨rfl, rfl⟩, ⟨rfl, rfl, rfl⟩,
    ⟨rfl, { info := (collecting 1).info, gen := 0, cmds := [], blocks := [], ordered := false }, rfl⟩, rfl, rfl⟩

/-- A deciding bundle with END absent, and a return still being collected when the token leaves; orders that wait at a FAULTED
chain. -/
theorem witness_BundlesLeaveOrAreStopped_tokens :
    ((attempting (attemptOn .bypass .deciding 1 true) none []).endHop = none ∧
      (attempting (attemptOn .bypass .deciding 1 true) none []).attempt = some (attemptOn .bypass .deciding 1 true) ∧
      (attemptOn .bypass .deciding 1 true).bundled = true ∧
      ({ (collecting 1).info with deciding := true } : BundleInfo).deciding = true) ∧
    ((listening 1 (some 2)).collect ≠ none ∧ (listening 1 (some 2)).pendingDisable = false ∧
      (ticked (withChain (listening 1 (some 2)))).mail.ticks.chains.get 0 ≠ []) ∧
    (((faultedOn { AsmChain.reset with waiting := [oneOrder] }).asm.get 0).waiting = [oneOrder] ∧
      (((faultedOn { AsmChain.reset with waiting := [oneOrder] }).chains.get 0).probes = [])) := by
  refine ⟨⟨rfl, rfl, rfl, rfl⟩, ⟨by decide, rfl, by decide⟩, rfl, rfl⟩

/-- A return below the break limit, with no tick to take and a disable pending; a bundle that emits with orders behind it. -/
theorem witness_BundlesLeaveOrAreStopped_waiting :
    (({ listening 1 (some 2) with pendingDisable := true } : Chain).collect ≠ none ∧
      (listening 1 (some 2)).state = .running ∧ (listening 1 (some 2)).attempt = none ∧
      (listening 1 (some 2)).lostHeld = []) ∧
    ((listening 1 (some 2)).breakCount + 1 < ({ listening 1 (some 2) with breakLimit := 3 } : Chain).breakLimit ∧
      (withChain (listening 1 (some 2))).mail.ticks.chains.get 0 = []) ∧
    (((faultedOn { AsmChain.reset with bundle := some (bundleAt .token), waiting := [oneOrder] }).asm.get 0).waiting ≠ [] ∧
      (faultedOn .reset).mail.orders.get 0 = [.faulted] ∧ AsmChain.reset.clearDue = false) := by
  decide

/-- The token of the next bundle is the deadline of the return before it (R41). -/
theorem test_token_is_a_deadline :
    (after (.returnTokenSent 0) ((withChain (listening 0 (some 2))).setAsm 0
        { AsmChain.reset with bundle := some (bundleAt .token) })).map
      (fun t => (t.chains.c0.breakCount, t.chains.c0.counters.missing, t.chains.c0.collect)) =
      some (1, 1, some (collecting 1)) := by decide +kernel

/-- Orders that wait at a FAULTED chain are taken as NONE orders (R105). -/
theorem test_faulted_takes_the_waiting_orders :
    (after (.faultedNotice 0) (faultedOn { AsmChain.reset with waiting := [oneOrder, emptyOrder] })).map
      (fun t => (t.asm.c0.waiting, t.asm.c0.bundle)) = some ([], none) := by decide +kernel

/-- A bundle that is stopped while it asks for a still, waits for a read, or has its read in progress; then the read ends. -/
theorem witness_BundlesLeaveOrAreStopped_reads :
    ((bundleAt (.stillAsk 1 1000 3 false)).wait = .stillAsk 1 1000 3 false ∧
      (bundleAt (.memRead 1 1000 .black none 5 .segment)).wait = .memRead 1 1000 .black none 5 .segment ∧
      ∀ y, State.reset.pool.busy ≠ some (.read 0 y)) ∧
    (readingFor .segment none .black).pool.busy = some (.read 0 5) ∧
    ((bundleAt (.stillRead 30 1000 3)).wait = .stillRead 30 1000 3 ∧
      (stillOn (.ready [1] true) [lastRef] .token).stills.reads.head? = some lastRef ∧
      (stillOn (.ready [1] true) [{ lastRef with page := 0 }, lastRef] .token).stills.reads.head? ≠ some lastRef ∧
      (stillOn (.ready [1] true) [{ lastRef with page := 0 }, lastRef] .token).stills.slot lastRef = .ready [1] true) ∧
    ({ bundleAt .token with stopping := true } : Bundle).stopping = true := by
  refine ⟨⟨rfl, rfl, ?_⟩, rfl, ⟨rfl, rfl, by decide, by decide +kernel⟩, rfl⟩
  intro y h; cases h

/-- A read in progress ends before the FAULTED bundle gives its buffers back. -/
theorem test_faulted_waits_for_the_read :
    (after (.faultedNotice 0) ((readingFor .segment none .black).setMail
        { State.reset.mail with orders := State.reset.mail.orders.set 0 [.faulted] })).map
      (fun t => (t.asm.c0.bundle.map (fun b => b.stopping), t.pool.free.length,
        (after (.emissionReadComplete true false) t).map (fun u => (u.asm.c0.bundle, u.pool.free.length)))) =
      some (some true, 512, some (none, 513)) := by decide +kernel

theorem test_token_begins_the_collection :
    (after (.returnTokenSent 0) ((withChain (runningWith [some (lampAt 1)])).setAsm 0
        { AsmChain.reset with bundle := some (bundleAt .token) })).map
      (fun t => (t.asm.c0.bundle, t.asm.c0.counters.bundles, t.chains.c0.collect)) = some (none, 1, some (collecting 1)) := by
  decide +kernel

theorem test_faulted_gives_back :
    (after (.faultedNotice 0) (faultedOn { AsmChain.reset with
        bundle := some (bundleAt .token), slots := [{ frame := 2, address := 1, buffer := 9 }] })).map
      (fun t => (t.pool.free.drop 512).map fun f => f.buffer) = some [5, 9] := by decide +kernel

/-- A STILL_WRITE for slot 3/0/30: total 2, one byte at `offset`, with the check code when it is the last. -/
def writeBody (offset : Byte) (crc : List Byte) : List Byte := [3, 0, 30, 0, offset, 0, 2, 0, 1, 0xAB] ++ crc

/-- What it reads as. -/
def writeArgs (offset : Nat) (crc : Option Word32) : StillWriteArgs :=
  { page := 3, chain := 0, address := 30, offset := offset, total := 2, chunk := [0xAB], crc := crc }

/-- Page 3 and address 30, offset 0, and the last chunk's end at the total stand at the bounds. -/
theorem witness_StillsAreWrittenAndCleared :
    (stillWrite? (writeBody 0 [0]) = some (writeArgs 0 none) ∧
      ((writeArgs 0 none).offset + (writeArgs 0 none).chunk.length = (writeArgs 0 none).total ↔
        (writeArgs 0 none).crc.isSome = true) ∧
      Waits .stillWriteBegin (request 0x0D (writeBody 0 [0])) [] (asked 0x0D (writeBody 0 [0]))) ∧
    (stillWrite? (writeBody 1 [1, 0, 0, 0, 0]) = some (writeArgs 1 (some 0)) ∧
      ((writeArgs 1 (some 0)).offset + (writeArgs 1 (some 0)).chunk.length = (writeArgs 1 (some 0)).total ↔
        (writeArgs 1 (some 0)).crc.isSome = true) ∧
      Waits .stillWriteContinue (request 0x0D (writeBody 1 [1, 0, 0, 0, 0])) [] (asked 0x0D (writeBody 1 [1, 0, 0, 0, 0])) ∧
      crc32 [0xAA, 0xAB] ≠ 0) ∧
    ((writeArgs 0 none).page ≤ 3 ∧ (writeArgs 0 none).chain = (0 : ChainId).val ∧ 1 ≤ (writeArgs 0 none).address ∧
      (writeArgs 0 none).address ≤ 30 ∧ (writeArgs 0 none).offset ≤ 4095 ∧ (writeArgs 0 none).total ≤ 4096 ∧
      (writeArgs 0 none).chunk.length ≤ 1024) ∧
    ((stillOn (.ready [1] true) [] .token).stills.slot lastRef = .ready [1] true ∧
      State.reset.stills.slot lastRef = .empty ∧ 2 ≤ State.reset.stills.unreserved ∧
      (stillOn (.filling 2 [0xAA]) [] .token).stills.slot lastRef = .filling 2 [0xAA]) ∧
    (∃ st : Stills, st.unreserved + (st.slot lastRef).reserved < 2) ∧
    (Waits .stillClearSlot (request 0x0E [3, 0, 0, 30]) [] (asked 0x0E [3, 0, 0, 30]) ∧
      stillClearSlot? (request 0x0E [3, 0, 0, 30]).body = some lastRef) ∧
    (Waits .stillClearPage (request 0x0E [3, 1]) [] (asked 0x0E [3, 1]) ∧
      stillClearPage? (request 0x0E [3, 1]).body = some 3 ∧ State.reset.stills.slots.length = 480) := by
  refine ⟨⟨by decide, by decide, rfl, rfl, by decide⟩, ⟨by decide, by decide, ⟨rfl, rfl, by decide⟩, by decide +kernel⟩,
    by decide, ?_, ?_, ⟨⟨rfl, rfl, by decide⟩, by decide⟩, ⟨rfl, rfl, by decide⟩, by decide, by decide +kernel⟩
  · refine ⟨?_, ?_, ?_, ?_⟩ <;> decide +kernel
  · exact ⟨{ slots := [.filling 1048576 []], reads := [] }, by decide +kernel⟩

theorem test_still_write_begins :
    (after .stillWriteBegin (asked 0x0D (writeBody 0 [0]))).map (fun t => (t.stills.slot lastRef, lastCode t)) =
      some (.filling 2 [0xAB], some .ok) := by decide +kernel

theorem test_still_clear_page :
    (after .stillClearPage (asking 0x0E [3, 1] (stillOn (.ready [1] false) [] .token))).map
      (fun t => (t.stills.slot lastRef, lastCode t)) = some (.empty, some .ok) := by decide +kernel

/-! ### Chapters 7 and 8 -/

/-- A delivered tick waits at the Scene Table. -/
def sceneTicked (s : State) : State := s.setMail { s.mail with ticks := { s.mail.ticks with scene := [1] } }

/-- The part after reset with this entry for chain 3, address 30, the last of the table. -/
def lastEntry (e : SceneEntry) : State :=
  { State.reset with scene := { Scene.reset with entries := Scene.reset.entries.set 119 e } }

/-- The node of that entry. -/
def lastNode : NodeRef := { chain := 3, address := 30 }

/-- A fade from 0 to 1000 over `n` frames, `k` of them gone. -/
def fading (n k : Nat) : LevelParam :=
  { LevelParam.reset 0 with owner := .runner 2, fade := some { start := 0, target := 1000, length := n, elapsed := k } }

/-- A glide of `n` frames, `k` of them gone, over base 200 and, for an attack, override 800. -/
def gliding (kind : GlideKind) (n k : Nat) : LevelParam :=
  { LevelParam.reset 200 with
    drive := if kind = .attack then some { rule := 0, value := 800 } else none,
    glide := some { kind := kind, start := 0, length := n, elapsed := k } }

/-- One frame before its end a fade of 2 is due, two frames before it is not. -/
theorem witness_SceneTicksAdvanceAndPost :
    ((sceneTicked (lastEntry { SceneEntry.reset with intensity := fading 2 1, brightness := gliding .release 2 1 })).mail.ticks.scene
        = [1] ∧
      ((lastEntry { SceneEntry.reset with intensity := fading 2 1 }).scene.entry lastNode).intensity = fading 2 1 ∧
      ((lastEntry { SceneEntry.reset with brightness := gliding .release 2 1 }).scene.entry lastNode).brightness =
        gliding .release 2 1) ∧
    ((fading 2 1).fade = some { start := 0, target := 1000, length := 2, elapsed := 1 } ∧ 2 ≤ 1 + 1 ∧ ¬ 2 ≤ 0 + 1) ∧
    ((gliding .attack 2 0).glide = some { kind := .attack, start := 0, length := 2, elapsed := 0 } ∧
      (gliding .attack 2 0).drive = some { rule := 0, value := 800 } ∧ (gliding .release 2 0).drive = none) ∧
    (State.reset.looks 0 = (State.reset.scene.previous.get 0).looks) ∧
    ((lastEntry { SceneEntry.reset with intensity := fading 2 1 }).looks 3 = (State.reset.scene.previous.get 3).looks) ∧
    ((lastEntry { SceneEntry.reset with intensity := .reset 1 }).looks 3 ≠ (State.reset.scene.previous.get 3).looks) := by
  refine ⟨?_, ?_, ?_, ?_, ?_, ?_⟩ <;> decide +kernel

theorem test_fade_half_way :
    (after .sceneTableTick (sceneTicked (lastEntry { SceneEntry.reset with intensity := fading 2 0 }))).map
      (fun t => ((t.scene.entry lastNode).intensity.base, (t.scene.previous.get 3).gen, (t.scene.previous.get 0).gen)) =
      some (500, 1, 0) := by decide +kernel

theorem test_fade_completes :
    (after (.fadeComplete 3 30 .intensity) (sceneTicked (lastEntry { SceneEntry.reset with intensity := fading 2 1 }))).map
      (fun t => (t.scene.entry lastNode).intensity) = some { fading 2 1 with base := 1000, fade := none } := by
  decide +kernel

theorem test_glide_ends :
    (after (.glideEnd 3 30 .brightness) (sceneTicked (lastEntry { SceneEntry.reset with brightness := gliding .attack 2 1 }))).map
      (fun t => (t.chains.get 3).lookGen) = some 1 := by decide +kernel

theorem test_overheat_clamps :
    ({ SceneEntry.reset with overheat := true } : SceneEntry).look (some .tile) = { Look.reset with brightness := 600 } := by
  decide

/-- The step of INTENSITY to 1000 on chain 3, address 30. -/
def lastStep : List Byte := [0, 3, 30, 2, 2, 0x03, 0xE8, 0, 0]

/-- The fade of BRIGHTNESS to 300 over 50 frames on every tile. -/
def tileFade : List Byte := [0, 0xFF, 0xFF, 0, 1, 0x01, 0x2C, 0, 50]

/-- A write reaches an ABSENT entry that a selector names, and no entry that the record's kind shuts out. -/
theorem witness_WritesReachTheSelectedEntries :
    (State.reset.scene.entries.length = 120 ∧
      State.reset.writable (.nodes (some 3) (some 30) .any) (.intensity 1000) = [lastNode] ∧
      (withChain (runningWith [some (tileAt 1 .black none), some (lampAt 2)])).writable (.nodes none none .any) (.brightness 300) =
        [{ chain := 0, address := 1 }]) ∧
    (Waits .lookSet (request 0x0F lastStep) [] (asked 0x0F lastStep) ∧
      lookSet? lastStep = some (.nodes (some 3) (some 30) .any, .intensity 1000, none)) ∧
    lookSet? tileFade = some (.nodes none none .tile, .brightness 300, some 50) ∧
    ((State.reset.setMail { State.reset.mail with toScene := [.write (.group 15) (.preset 7) none 2] }).mail.toScene =
      .write (.group 15) (.preset 7) none 2 :: []) ∧
    (Waits .groupSet (request 0x10 [15, 2, 3, 30, 3, 30]) [] (asked 0x10 [15, 2, 3, 30, 3, 30]) ∧
      groupSet? [15, 2, 3, 30, 3, 30] = some (15, [lastNode, lastNode])) := by
  refine ⟨⟨?_, ?_, ?_⟩, ⟨⟨rfl, rfl, by decide⟩, ?_⟩, ?_, rfl, ⟨rfl, rfl, by decide⟩, ?_⟩ <;> decide +kernel

/-- An address on every chain, and the enrolled lamps, in ascending order of chain and then address (R119). -/
theorem test_selectors_name_their_entries :
    State.reset.select (.nodes none (some 30) .any) = allChains.map (fun c => { chain := c, address := 30 }) ∧
    (withChain (runningWith [some (lampAt 2), some (tileAt 3 .black none), some (lampAt 1)])).select
      (.nodes none none .lamp) = [{ chain := 0, address := 1 }, { chain := 0, address := 3 }] := by
  decide +kernel

theorem test_look_set_writes :
    (after .lookSet (asked 0x0F lastStep)).map (fun t => ((t.scene.entry lastNode).intensity.base,
      (t.scene.entry lastNode).intensity.owner, lastCode t)) = some (1000, .control, some .ok) := by decide +kernel

theorem test_group_keeps_the_first :
    (after .groupSet (asked 0x10 [15, 2, 3, 30, 3, 30])).map (fun t => (t.scene.groups.getD 15 [], lastCode t)) =
      some ([lastNode], some .ok) := by decide +kernel

theorem witness_HaltAndClampNoticesReachTheEntries :
    ((State.reset.setMail { State.reset.mail with toScene := [.halt 2] }).mail.toScene = .halt 2 :: [] ∧
      (fading 2 0).owner = .runner 2 ∧ (LevelParam.reset 0).owner ≠ .runner 2) ∧
    (∀ m, m = .enrolled 30 600 true ∨ m = .health 30 true ∨ m = .clamp 30 0 ∨ m = .absent 30 →
      (State.reset.setMail { State.reset.mail with clamps := State.reset.mail.clamps.set 3 [m] }).mail.clamps.get 3 = m :: []) := by
  refine ⟨⟨rfl, rfl, by decide⟩, fun m _ => rfl⟩

theorem test_halt_cancels_the_fade :
    (after .haltNotice ((lastEntry { SceneEntry.reset with intensity := fading 2 0 }).setMail
        { State.reset.mail with toScene := [.halt 2] })).map (fun t => (t.scene.entry lastNode).intensity.fade) =
      some none := by decide +kernel

theorem test_clamp_notice :
    (after (.clampNotice 3) (State.reset.setMail
        { State.reset.mail with clamps := State.reset.mail.clamps.set 3 [.enrolled 30 450 true] })).map
      (fun t => ((t.scene.entry lastNode).clamp, (t.scene.entry lastNode).overheat)) = some (450, true) := by decide +kernel

/-- The record of rule 15 on INTENSITY of chain 3, address 30. -/
def lastClaim (p : OverParam) (attack : Nat) : ClaimRecord :=
  { param := p, value := 900, attack := attack, release := 5, entries := [lastNode] }

/-- The part after reset with one batch waiting and these claim records. -/
def batchOf (b : List TallyClaim) (claims : List (Option ClaimRecord)) (s : State) : State :=
  { s with mail := { s.mail with batches := [b] }, scene := { s.scene with claims := claims } }

/-- Rule 15, the last, with an attack of 0 and one of 5. -/
theorem witness_BatchesDriveTheParameters :
    (State.reset.scene.claims = List.replicate 16 none ∧ (lastClaim .preset 0).entries = [lastNode] ∧
      State.reset.node lastNode = none ∧ (State.reset.scene.entry lastNode).brightness.drive = none ∧
      (State.reset.scene.entry lastNode).intensity.drive = none ∧ (State.reset.scene.entry lastNode).preset.drive = none) ∧
    ((batchOf [.deactivate 15] ((List.replicate 16 none).set 15 (some (lastClaim .brightness 5)))
        (lastEntry { SceneEntry.reset with brightness := { gliding .attack 5 0 with drive := some { rule := 15, value := 900 } } })).scene.claims
        = (List.replicate 16 none).set 15 (some (lastClaim .brightness 5)) ∧
      ((lastEntry { SceneEntry.reset with brightness := { gliding .attack 5 0 with drive := some { rule := 15, value := 900 } } }).scene.entry
        lastNode).brightness.drive = some { rule := 15, value := 900 }) ∧
    ((gliding .attack 5 0).drive = some { rule := 0, value := 800 } ∧ (gliding .attack 5 0).glide ≠ none ∧
      (lastClaim .brightness 5).value ≠ 800 ∧ (lastClaim .brightness 5).attack ≠ 0) := by
  refine ⟨?_, ?_, ?_⟩ <;> decide +kernel

/-- A batch that takes rule 15's record away and gives rule 0 one on the same entry. -/
def exchange : List TallyClaim := [.deactivate 15, .activate 0 (.nodes (some 3) (some 30) .any) .intensity 400 0 2]

/-- The part with that batch waiting while rule 15 drives INTENSITY of the entry. -/
def exchanging : State :=
  batchOf [] ((List.replicate 16 none).set 15 (some (lastClaim .intensity 5)))
    (lastEntry { SceneEntry.reset with intensity := { gliding .attack 5 0 with drive := some { rule := 15, value := 900 } } })

/-- Two claims in one batch; and a driven parameter whose glide has ended. -/
theorem witness_BatchesDriveTheParameters_general :
    (exchanging.scene.entries.length = 120 ∧
      ∀ r p, (∃ c ∈ exchange, ∃ x,
        (exchanging.scene.claims.getD c.rule none = some x ∨
          (exchange.foldl exchanging.takeClaim exchanging.scene.claims).getD c.rule none = some x) ∧
        x.param = p ∧ r ∈ x.entries) → 1 ≤ r.address ∧ r.address ≤ 30) ∧
    (({ gliding .attack 5 0 with glide := none } : LevelParam).glide = none ∧
      ({ gliding .attack 5 0 with glide := none } : LevelParam).drive = some { rule := 0, value := 800 }) := by
  refine ⟨⟨by decide +kernel, ?_⟩, by decide⟩
  rintro r p ⟨c, hc, x, hx, -, hr⟩
  have all : ∀ c ∈ exchange,
      (∀ x ∈ exchanging.scene.claims.getD c.rule none, ∀ r ∈ x.entries, 1 ≤ r.address ∧ r.address ≤ 30) ∧
      (∀ x ∈ (exchange.foldl exchanging.takeClaim exchanging.scene.claims).getD c.rule none,
        ∀ r ∈ x.entries, 1 ≤ r.address ∧ r.address ≤ 30) := by decide +kernel
  rcases hx with h | h
  · exact (all c hc).1 x h r hr
  · exact (all c hc).2 x h r hr

theorem test_batch_exchanges_the_driver :
    (after .tallyBatch { exchanging with mail := { State.reset.mail with batches := [exchange] } }).map
      (fun t => ((t.scene.entry lastNode).intensity.drive, (t.scene.entry lastNode).intensity.glide,
        t.scene.claims.map (fun x => x.isSome))) =
      some (some { rule := 0, value := 400 }, none, true :: List.replicate 15 false) := by decide +kernel

theorem test_activate_starts_an_attack :
    (after .tallyBatch (batchOf [.activate 15 (.nodes (some 3) (some 30) .any) .intensity 900 5 5] (List.replicate 16 none)
        State.reset)).map (fun t => ((t.scene.entry lastNode).intensity.drive, (t.scene.entry lastNode).intensity.glide)) =
      some (some { rule := 15, value := 900 }, some { kind := .attack, start := 0, length := 5, elapsed := 0 }) := by
  decide +kernel

/-- A delivered tick waits at the Tally Unit. -/
def tallyTicked (t : Tally) : State :=
  { State.reset with tally := t, mail := { State.reset.mail with ticks := { State.reset.mail.ticks with tally := [1] } } }

/-- Line 7 on: unmasked, sampled once and latched off. -/
theorem witness_TallyLinesSettleInTwoTicks :
    (tallyTicked .reset).mail.ticks.tally = [1] ∧
    ((!Tally.reset.mask.getLsbD 7 && (0x80 : BitVec 8).getLsbD 7) ≠ Tally.reset.latched.getLsbD 7) ∧
    ((!({ Tally.reset with sample := 0x80 } : Tally).mask.getLsbD 7 && (0x80 : BitVec 8).getLsbD 7) =
      ({ Tally.reset with sample := 0x80 } : Tally).sample.getLsbD 7) ∧
    ((!({ Tally.reset with mask := 0x80 } : Tally).mask.getLsbD 7 && (0x80 : BitVec 8).getLsbD 7) = false) := by decide

theorem test_line_needs_two_ticks :
    (after (.tallyTick 0x80) (tallyTicked .reset)).map (fun t => (t.tally.sample, t.tally.latched)) = some (0x80, 0) ∧
    (after (.tallyTick 0x80) (tallyTicked { Tally.reset with sample := 0x80 })).map
      (fun t => (t.tally.sample, t.tally.latched)) = some (0x80, 0x80) := by decide +kernel

/-- Rule 15 on line 7: INTENSITY 900 of chain 3, address 30. -/
def lastRule : List Byte := [15, 0, 7, 0, 0, 3, 30, 2, 1, 0x03, 0x84, 5, 5]

/-- What it reads as with sense ON, and the same rule with sense OFF. -/
def ruleArgs (sense : Sense) : TallyRule :=
  { enabled := true, line := 7, sense := sense, target := .nodes (some 3) (some 30) .any, param := .intensity, value := 900,
    attack := 5, release := 5 }

theorem witness_TallyMaskAndRulesChangeTheActiveSet :
    (Waits .tallyMask (request 0x12 [0x81]) [] (asked 0x12 [0x81]) ∧ (request 0x12 [0x81]).body = [0x81] ∧
      (0x81 : BitVec 8).getLsbD 7 = true ∧ State.reset.tally.mask.getLsbD 7 = false) ∧
    (Waits .tallyRuleSet (request 0x11 lastRule) [] (asked 0x11 lastRule) ∧
      tallyRule? lastRule = some (15, ruleArgs .on) ∧ State.reset.tally.rules.length = 16) ∧
    ((ruleArgs .on).active 0 = false ∧ (ruleArgs .on).active 0x80 = true ∧ (ruleArgs .off).active 0 = true) := by
  refine ⟨⟨⟨rfl, rfl, by decide⟩, rfl, by decide, by decide⟩, ⟨⟨rfl, rfl, by decide⟩, ?_, by decide⟩, ?_⟩ <;>
    decide +kernel

theorem test_mask_deactivates :
    (after .tallyMask (asking 0x12 [0x80] { State.reset with
        tally := { Tally.reset with sample := 0x80, latched := 0x80, rules := Tally.reset.rules.set 15 (ruleArgs .on) } })).map
      (fun t => (t.tally.latched, t.tally.sample, t.mail.batches, lastCode t)) =
      some (0, 0, [[.deactivate 15]], some .ok) := by decide +kernel

/-! ### Chapter 9 -/

/-- The part after reset with slot 7 loaded with `steps` and the last runner on it in `st`, at step `k`. -/
def cued (steps : List CueStep) (st : RunState) (k : Option Nat) : State :=
  { State.reset with
    cues := { slots := Cues.reset.slots.set 7 (some (steps.map fun x => { step := x, mark := none })),
              runners := Cues.reset.runners.set 2 { state := st, slot := some 7, step := k } } }

/-- A step that fits a list of `n` steps. -/
def fits (n : Nat) (st : Option CueStep) : Prop := ∃ y, st = some y ∧ ∀ w k, y = .confirm w (some k) → k < n

/-- Slot 7; 1 and 32 steps stand at the bounds of the count, and a fallback of 0 in a list of one step at its own. -/
theorem witness_CueSlotsAreLoadedAndRead :
    (Waits .cueLoad (request 0x13 [7, 1, 8]) [] (asked 0x13 [7, 1, 8]) ∧
      cueLoad? [7, 1, 8] = some { slot := 7, count := 1, steps := [some .finish] }) ∧
    cueLoad? [8, 1, 8] = some { slot := 8, count := 1, steps := [some .finish] } ∧
    cueLoad? [0, 0] = some { slot := 0, count := 0, steps := [] } ∧
    (cueLoad? ([0, 32] ++ List.replicate 32 9)).map (fun x => (x.count, x.steps.length)) = some (32, 32) ∧
    (((cued [.finish] .armed none).runner 2).slot = some 7 ∧ ((cued [.finish] .armed none).runner 2).state = .armed) ∧
    (∀ r, (State.reset.runner r).slot = none) ∧
    (cueLoad? [7, 1, 7, 0, 5, 1, 1] = some { slot := 7, count := 1, steps := [] ++ some (.confirm 5 (some 1)) :: [] } ∧
      ¬ fits 1 (some (.confirm 5 (some 1))) ∧ fits 1 (some (.confirm 5 (some 0)))) ∧
    (∀ last, last = .finish ∨ last = .stop ∨ last = .syncGo → fits 1 (some last)) ∧
    (∀ b : Byte, Waits .cueRead (request 0x14 [b]) [] (asked 0x14 [b])) := by
  refine ⟨⟨⟨rfl, rfl, by decide⟩, by decide⟩, by decide, by decide, by decide, ⟨rfl, rfl⟩, by decide,
    ⟨by decide, ?_, ?_⟩, ?_, fun b => ⟨rfl, rfl, rfl⟩⟩
  · rintro ⟨y, e, h⟩
    cases e
    exact absurd (h 5 1 rfl) (by decide)
  · exact ⟨_, rfl, fun w k e => by cases e; decide⟩
  · intro last h
    exact ⟨last, rfl, fun w k e => by rcases h with h | h | h <;> rw [h] at e <;> cases e⟩

/-- A selector at its bounds and one out of range; a step of unknown length. -/
theorem witness_CueSlotsAreLoadedAndRead_fields :
    selector? 0 3 30 2 = some (.nodes (some 3) (some 30) .any) ∧ selector? 0 4 1 0 = none ∧
    (2 < (3 : Byte).toNat ∧ (3 : Byte) ≠ 1 ∧ (3 : Byte) ≠ 2 ∧ 3 < (4 : Byte).toNat ∧ 9 < (10 : Byte).toNat) ∧
    ((4 : Byte).toNat = 3 + 1 ∧ 6 < (7 : Byte).toNat) := by decide

/-- The second presence byte of a CONFIRM is unknown: the load is refused with the step's index (log 10). -/
theorem test_load_names_an_unknown_presence_byte :
    (after .cueLoad (asked 0x13 [7, 2, 3, 1, 7, 0, 5, 2])).map (fun t => t.link.ready.map fun r => (r.code, r.body)) =
      some [(.badArg, .cueBadStep 1)] := by decide +kernel

theorem test_load_names_the_bad_step :
    (after .cueLoad (asked 0x13 [7, 2, 3, 1, 2, 0, 0])).map (fun t => t.link.ready.map fun r => (r.code, r.body)) =
      some [(.badArg, .cueBadStep 1)] := by decide +kernel

theorem test_load_fills_the_slot :
    (after .cueLoad (asked 0x13 [7, 2, 3, 1, 8])).map (fun t => (t.steps 7, lastCode t)) =
      some (some [{ step := .syncGo, mark := none }, { step := .finish, mark := none }], some .ok) := by decide +kernel

/-- Every state of the last runner. -/
theorem witness_RunnerRequestsFollowTheState :
    (Waits .runnerArm (request 0x15 [2, 7]) [] (asking 0x15 [2, 7] (cued [.finish] .idle none)) ∧
      runnerArm? [2, 7] = some (2, 7) ∧ (cued [.finish] .idle none).steps 7 = some [{ step := .finish, mark := none }] ∧
      State.reset.steps 7 = none) ∧
    runner? [2] = some 2 ∧
    (∀ st, ((cued [.finish] st (some 0)).runner 2).state = st ∧ ((cued [.finish] st (some 0)).runner 2).slot = some 7) ∧
    (Waits .runnerGo (request 0x16 [2]) [] (asked 0x16 [2]) ∧ Waits .runnerHalt (request 0x17 [2]) [] (asked 0x17 [2]) ∧
      Waits .runnerConfirm (request 0x18 [2]) [] (asked 0x18 [2]) ∧
      Waits .runnerResume (request 0x19 [2]) [] (asked 0x19 [2]) ∧
      Waits .runnerClear (request 0x1A [2]) [] (asked 0x1A [2])) := by
  exact ⟨⟨⟨rfl, rfl, by decide⟩, by decide, rfl, rfl⟩, by decide, fun _ => ⟨rfl, rfl⟩, ⟨rfl, rfl, by decide⟩,
    ⟨rfl, rfl, by decide⟩, ⟨rfl, rfl, by decide⟩, ⟨rfl, rfl, by decide⟩, rfl, rfl, by decide⟩

theorem test_arm_and_go :
    (after .runnerArm (asking 0x15 [2, 7] (cued [.finish] .idle none))).map (fun t => (t.runner 2, lastCode t)) =
      some ({ state := .armed, slot := some 7, step := none }, some .ok) ∧
    (after .runnerGo (asking 0x16 [2] (cued [.look (.group 0) (.preset 1), .wait 5, .finish] .armed none))).map
      (fun t => (t.runner 2, t.mail.toScene, lastCode t)) =
      some ({ state := .waiting (.ticks 5), slot := some 7, step := some 1 }, [.write (.group 0) (.preset 1) none 2], some .ok) := by
  decide +kernel

theorem test_halt_tells_the_scene_table :
    (after .runnerHalt (asking 0x17 [2] (cued [.wait 5, .finish] (.waiting (.ticks 5)) (some 0)))).map
      (fun t => ((t.runner 2).state, t.mail.toScene)) = some (.aborted .halted, [.halt 2]) := by decide +kernel

/-- A selection of one ABSENT node considers none; one of a LIVE lamp considers it. Frames 0, 32767 and 32768 ahead of E = 0
stand at the bounds. -/
theorem witness_StepsAreTakenOneByOne :
    (∀ st, (cued [st, .finish] .armed none).stepAt 2 0 = some st) ∧
    ((cued [.finish] .armed none).stepAt 2 1 = none) ∧
    ((cued [.finish] .armed none).considered [{ chain := 0, address := 1 }] none = []) ∧
    ((withChain (runningWith [some (lampAt 1)])).considered [{ chain := 0, address := 1 }] none ≠ []) ∧
    (((0 : Word16) - State.reset.ref.counter).toNat = 0 ∧ ((32767 : Word16) - State.reset.ref.counter).toNat = 32767 ∧
      ((32768 : Word16) - State.reset.ref.counter).toNat = 32768) ∧
    (((cued [.finish] .armed none).runner 2).slot = some 7 ∧ 7 < (cued [.finish] .armed none).cues.slots.length ∧
      (cued [.finish] .armed none).steps 7 = some [{ step := .finish, mark := none }]) := by
  refine ⟨fun st => rfl, rfl, ?_, ?_, ?_, rfl, by decide, rfl⟩ <;> decide +kernel

/-- The part in which chain 0 carries one lamp, its command queue holds these, and the last runner runs `steps`. -/
def offering (steps : List CueStep) (queue : List QEntry) : State :=
  (cued steps .armed none).setChain 0 { runningWith [some (lampAt 1)] with queue := queue }

/-- A queue of sixteen commands. -/
def fullQueue : List QEntry := List.replicate 16 (hostEntry (.enable 1))

/-- An ENABLE step meets room, and meets a full queue; a record left the table; a runner at a step completes it. -/
theorem witness_StepsAreTakenOneByOne_offers :
    ((offering [.enable (.nodes (some 0) none .any), .finish] []).stepAt 2 0 = some (.enable (.nodes (some 0) none .any)) ∧
      (offering [.enable (.nodes (some 0) none .any), .finish] []).targets (.nodes (some 0) none .any) =
        [{ chain := 0, address := 1 }]) ∧
    (((offering [] []).chains.get 0).queue.length < 16 ∧ ((offering [] []).chains.get 0).claims = [] ∧
      16 ≤ ((offering [] fullQueue).chains.get 0).queue.length) ∧
    ((offering [] []).node { chain := 0, address := 1 } = some (lampAt 1) ∧
      (offering [] []).node { chain := 0, address := 2 } = none) ∧
    (((offering [] []).offerAll 2 (.enable 31) [{ chain := 0, address := 1 }]).2 = true ∧
      ((offering [] fullQueue).offerAll 2 (.enable 31) [{ chain := 0, address := 1 }]).2 = false ∧
      ((cued [.finish] .armed (some 0)).runner 2).step = some 0) := by
  refine ⟨?_, ?_, ?_, ?_⟩ <;> decide +kernel

theorem test_enable_step_offers_and_waits :
    (after .runnerGo (asking 0x16 [2] (offering [.enable (.nodes (some 0) none .any), .finish] []))).map
      (fun t => (t.chains.c0.queue.map (fun x => (x.cmd, x.issuer)), (t.runner 2).state)) =
      some ([(.enable 1, .runner 2)], .parked) ∧
    (after .runnerGo (asking 0x16 [2] (offering [.enable (.nodes (some 0) none .any), .finish] fullQueue))).map
      (fun t => (t.chains.c0.claims, (t.runner 2).state)) =
      some ([{ runner := 2, cmd := .enable 1 }], .waiting (.room 0 (.enable 1) [])) := by decide +kernel

theorem test_late_sync_marks_and_parks :
    (after .runnerGo (asking 0x16 [2] (cued [.syncFrame 32768, .finish] .armed none))).map
      (fun t => ((t.runner 2).state, (t.list 2).map fun x => x.mark.map fun m => m.outcome)) =
      some (.parked, [some .late, some .done]) := by decide +kernel

/-- A record, a kept generation with none of its chain ahead of it, and a place on the chain. -/
theorem witness_SelectionsAndConditionsAreResolved :
    (withChain (runningWith [some (lampAt 1)])).node { chain := 0, address := 1 } = some (lampAt 1) ∧
    (∀ y ∈ [((3 : ChainId), (0 : BitVec 4))], y.1 ≠ 0) ∧
    ((withChain (runningWith [some (lampAt 1)])).chains.get 0).atPosition 1 = some (1, lampAt 1) ∧
    ((withChain (runningWith [some (lampAt 1)])).firstUnsatisfied (.configTag 5) [] [{ chain := 0, address := 1 }] =
      some { chain := 0, address := 1 }) := by
  refine ⟨?_, ?_, ?_, ?_⟩ <;> decide +kernel

/-- Seven generations past the kept one APPLIED holds, eight past it does not (R164). -/
theorem test_applied_window :
    (withChain (runningWith [some { lampAt 1 with gen := some 5 }])).satisfied .applied [(0, 14)] { chain := 0, address := 1 }
      = true ∧
    (withChain (runningWith [some { lampAt 1 with gen := some 5 }])).satisfied .applied [(0, 13)] { chain := 0, address := 1 }
      = false := by decide +kernel

/-- A delivered tick of frame `n` waits at every runner. -/
def runnersTicked (n : Word16) (s : State) : State :=
  s.setMail { s.mail with ticks := { s.mail.ticks with runners := .all [n] } }

/-- A delivered tick of frame `n` waits at the last runner alone. -/
def lastTicked (n : Word16) (s : State) : State :=
  s.setMail { s.mail with ticks := { s.mail.ticks with runners := s.mail.ticks.runners.set 2 [n] } }

theorem witness_TicksEndTheWaits :
    ((runnersTicked 1 State.reset).mail.ticks.runners = .all [1] ∧ (∀ r w, (State.reset.runner r).state ≠ .waiting w)) ∧
    ((∀ w, ((cued [.finish] (.waiting w) (some 0)).runner 2).state = .waiting w) ∧
      (∀ d, d ≠ 2 → ∀ x w, ((cued [.finish] (.waiting w) (some 0)).runner d).state ≠ .waiting x)) ∧
    (((2 : Word16) - 1).toNat = 1 ∧ ((32768 : Word16) - 1).toNat = 32767 ∧ ((32769 : Word16) - 1).toNat = 32768) ∧
    ((lastTicked 1 State.reset).mail.ticks.runners.get 2 = 1 :: [] ∧
      ∀ d, d ≠ 2 → (lastTicked 1 State.reset).mail.ticks.runners.get d = []) ∧
    (∀ st, st = .wait 1 ∨ st = .expect (.group 0) .modeLive 1 true ∨ st = .expect (.group 0) .applied 1 false ∨
        st = .confirm 1 (some 1) ∨ st = .confirm 1 none →
      (cued [st, .finish] .idle (some 0)).stepAt 2 (((cued [st, .finish] .idle (some 0)).runner 2).step.getD 0) = some st) := by
  refine ⟨⟨rfl, ?_⟩, ⟨fun _ => rfl, ?_⟩, by decide, ⟨rfl, by decide⟩, fun _ _ => rfl⟩
  · intro r w
    have all : ∀ r, (State.reset.runner r).state = .idle := by decide
    rw [all r]; intro e; cases e
  · intro d hd x w
    have idle : ∀ d : RunnerId, d ≠ 2 → ((cued [.finish] (.waiting w) (some 0)).runner d).state = .idle := by
      intro d hd
      match d, hd with
      | 0, _ => rfl
      | 1, _ => rfl
      | 2, h => exact absurd rfl h
    rw [idle d hd]; intro e; cases e

/-- The first and the last runner wait, each with this wait, on these two lists. -/
def bothWait (x y : CueStep) (w : Wait) : State :=
  let slot (x : CueStep) : Option (List SlotStep) :=
    some [{ step := x, mark := none }, { step := .enable (.nodes (some 0) (some 1) .any), mark := none },
          { step := .finish, mark := none }]
  { withChain (runningWith [some (lampAt 1)]) with
    cues := { slots := slot x :: slot y :: List.replicate 6 none,
              runners := ⟨{ state := .waiting w, slot := some 0, step := some 0 }, (Cues.reset.runners.get 1),
                          { state := .waiting w, slot := some 1, step := some 0 }⟩ } }

/-- Two runners that one tick releases queue their commands in the order of the operand (R172). -/
theorem test_one_tick_releases_two_runners :
    (after (.runnersTick .o210) (runnersTicked 1 (bothWait (.wait 1) (.wait 1) (.ticks 1)))).map
      (fun t => t.chains.c0.queue.map fun x => x.issuer) = some [.runner 2, .runner 0] ∧
    (after (.runnersTick .o012) (runnersTicked 1 (bothWait (.wait 1) (.wait 1) (.ticks 1)))).map
      (fun t => t.chains.c0.queue.map fun x => x.issuer) = some [.runner 0, .runner 2] := by decide +kernel

theorem test_wait_expires :
    (after (.waitExpiry 2) (lastTicked 1 (cued [.wait 1, .finish] (.waiting (.ticks 1)) (some 0)))).map
      (fun t => (t.runner 2, (t.list 2).map fun x => x.mark.isSome)) =
      some ({ state := .parked, slot := some 7, step := some 1 }, [true, true]) := by decide +kernel

theorem test_strict_expect_fails :
    (after (.expectExpiry 2) (lastTicked 1
        (cued [.expect (.group 0) .modeLive 1 true, .finish] (.waiting (.check [] none [] 1)) (some 0)))).map
      (fun t => ((t.runner 2).state, t.link.faultCount)) = some (.aborted .expectFailed, 1) := by decide +kernel

theorem test_confirm_falls_back :
    (after (.confirmFirstExpiry 2) (lastTicked 1
        (cued [.confirm 9 (some 1), .finish] (.waiting (.confirm false 1)) (some 0)))).map (fun t => (t.runner 2).state) =
      some (.waiting (.confirm true 9)) ∧
    (after (.confirmSecondExpiry 2) (lastTicked 1
        (cued [.confirm 9 (some 1), .finish] (.waiting (.confirm true 1)) (some 0)))).map
      (fun t => (t.runner 2, t.link.faultCount)) = some ({ state := .parked, slot := some 7, step := some 1 }, 1) := by
  decide +kernel

/-- This notice of chain 3 waits at the Runners. -/
def notified (m : RunnerMsg) (s : State) : State :=
  s.setMail { s.mail with notices := s.mail.notices.set 3 [m] }

/-- The last runner waits at an EXPECT on chain 3, address 30, whose node is a LIVE lamp at position 1 in mode `mode`. -/
def expecting (mode : NodeMode) (strict : Bool) : State :=
  (cued [.expect (.nodes (some 3) (some 30) .any) .modeLive 9 strict, .finish]
      (.waiting (.check [lastNode] (some .any) [(3, 0)] 9)) (some 0)).setChain 3
    { runningWith [] with endHop := some 1, nodes := List.replicate 29 none ++ [some { lampAt 1 with mode := mode }] }

theorem witness_NoticesReleaseTheRunners :
    (∀ m s, (notified m s).mail.notices.get 3 = m :: []) ∧
    (((expecting .live true).runner 2).state = .waiting (.check [lastNode] (some .any) [(3, 0)] 9) ∧
      (∀ strict, (expecting .live strict).stepAt 2 ((expecting .live strict).stepIndex 2) =
        some (.expect (.nodes (some 3) (some 30) .any) .modeLive 9 strict)) ∧
      (∀ d, d ≠ 2 → ((expecting .live true).runner d).state = .idle)) ∧
    ((∃ x ∈ [((3 : ChainId), (0 : BitVec 4))], x.1 = 3) ∧
      (expecting .live true).considered [lastNode] (some .any) = [lastNode] ∧
      (expecting .live true).satisfied .modeLive [(3, 0)] lastNode = true ∧
      (expecting .ident true).considered [lastNode] (some .any) = [lastNode] ∧
      (expecting .ident true).satisfied .modeLive [(3, 0)] lastNode = false) ∧
    (lastNode ∈ [lastNode] ∧ (Three.all false).get (2 : RunnerId) = false ∧
      ((some KindFilter.any).getD .any).takes .lamp = true) ∧
    (∀ k ∈ (State.reset.chains.get 3).claims, k.runner ≠ 2) := by
  refine ⟨fun m s => rfl, ⟨rfl, fun _ => rfl, ?_⟩, ⟨⟨(3, 0), by decide, rfl⟩, ?_, ?_, ?_, ?_⟩, ⟨by decide, rfl, rfl⟩, ?_⟩ <;>
    decide +kernel

/-- The last runner waits for room on chain 0 with these references still to offer. -/
def roomWait (refs : List NodeRef) (queue : List QEntry) (claims : List QClaim) : State :=
  ((cued [.enable (.group 0), .finish] (.waiting (.room 0 (.enable 1) refs)) (some 0)).setChain 0
    { runningWith [some (lampAt 1)] with queue := queue, claims := claims }).setMail
      { State.reset.mail with notices := State.reset.mail.notices.set 0 [.room [2]] }

/-- Room with nothing left, with a reference that finds room, with one that does not, and with a claim that still stands; and
two runners given room by one event, in the order of the operand. -/
theorem witness_NoticesReleaseTheRunners_room :
    (((roomWait [] [] []).runner 2).state = .waiting (.room 0 (.enable 1) []) ∧
      (roomWait [] [] []).mail.notices.get 0 = [.room [2]]) ∧
    (((roomWait [{ chain := 0, address := 1 }] [] []).offerAll 2 (.enable 1) [{ chain := 0, address := 1 }]).2 = true ∧
      ((roomWait [{ chain := 0, address := 1 }] fullQueue []).offerAll 2 (.enable 1) [{ chain := 0, address := 1 }]).2 = false) ∧
    (∃ k ∈ ((roomWait [] [] [{ runner := 2, cmd := .enable 1 }]).chains.get 0).claims, k.runner = 2) ∧
    ((RunnerOrder.o210.toList.filter fun x => decide (x ∈ [(0 : RunnerId), 2])) = [2, 0]) := by
  refine ⟨?_, ?_, ?_, ?_⟩ <;> decide +kernel

theorem test_room_goes_on :
    (after (.roomNotice { chain := 0, order := .o012 }) (roomWait [{ chain := 0, address := 1 }] [] [])).map
      (fun t => (t.chains.c0.queue.map (fun x => x.cmd), (t.runner 2).state)) = some ([.enable 1], .parked) ∧
    (after (.roomNotice { chain := 0, order := .o012 }) (roomWait [] [] [{ runner := 2, cmd := .enable 1 }])).map (fun t => (t.runner 2).state) =
      some (.waiting (.room 0 (.enable 1) [])) := by decide +kernel

theorem test_complete_return_completes :
    (after (.completeReturnNotice 3 .o210) (notified .complete (expecting .live true))).map (fun t => (t.runner 2).state) =
      some .parked := by decide +kernel

/-- An EXPECT of both runners on chain 0. -/
def bothExpect (strict : Bool) (m : RunnerMsg) : State :=
  let s := bothWait (.expect (.nodes (some 0) none .any) .modeLive 9 strict)
    (.expect (.nodes (some 0) none .any) (.configTag 0) 9 strict) (.check [{ chain := 0, address := 1 }] none [(0, 0)] 9)
  s.setMail { s.mail with notices := s.mail.notices.set 0 [m] }

theorem test_one_event_releases_two_runners :
    (after (.completeReturnNotice 0 .o201) (bothExpect true .complete)).map
      (fun t => t.chains.c0.queue.map fun x => x.issuer) = some [.runner 2, .runner 0] ∧
    (after (.nodeLostNotice 0 .o012) (bothExpect false (.lost 1 .lamp true (.all false)))).map
      (fun t => t.chains.c0.queue.map fun x => x.issuer) = some [.runner 0, .runner 2] := by decide +kernel

theorem test_lost_node_misses :
    (after (.nodeLostNotice 3 .o012) (notified (.lost 30 .lamp true (.all false)) (expecting .live false))).map
      (fun t => ((t.runner 2).state, (t.list 2).map fun x => x.mark.map fun m => m.outcome)) =
      some (.parked, [some .missed, some .done]) := by decide +kernel

theorem test_room_and_eviction :
    (after (.roomNotice { chain := 3, order := .o012 }) (notified (.room [2]) (cued [.enable (.group 0), .finish] (.waiting (.room 3 (.enable 30) [])) (some 0)))).map
      (fun t => (t.runner 2).state) = some .parked ∧
    (after (.evictionNotice 3) (notified (.evicted 2 (.enable 30)) (cued [.wait 9] (.waiting (.ticks 9)) (some 0)))).map
      (fun t => (t.runner 2).state) = some (.aborted .queueEvicted) := by decide +kernel

/-! ### Chapter 10 -/

/-- The part after reset with the rate learned and the receiver as given. -/
def heard (x : Receiver) : State := State.reset.setLink { State.reset.link with rate := some 115200, receiver := x }

/-- FAULT_GET with tag 7, without its sync byte and its CRC-16. -/
def faultGetFrame : List Byte := [0, 2, 0x1C, 7]

/-- Both bytes of its CRC-16. -/
def faultGetCheck : Byte × Byte := ((crc16 faultGetFrame).extractLsb' 8 8, (crc16 faultGetFrame).extractLsb' 0 8)

/-- Lengths 1, 2, 1102 and 1103 stand at the bounds. -/
theorem witness_ReceivedBytesBecomeRequests :
    (State.reset.link.rate = none ∧ (0x00 : Byte) ≠ 0xA7) ∧
    (∀ x, (heard x).link.rate ≠ none ∧ (heard x).link.receiver = x) ∧
    (((0x00 : Byte) ++ (0x01 : Byte) : Word16).toNat = 1 ∧ ((0x00 : Byte) ++ (0x02 : Byte) : Word16).toNat = 2 ∧
      ((0x04 : Byte) ++ (0x4E : Byte) : Word16).toNat = 1102 ∧ ((0x04 : Byte) ++ (0x4F : Byte) : Word16).toNat = 1103) ∧
    (((0x00 : Byte) ++ (0x02 : Byte) : Word16).toNat = ([] : List Byte).length + 2 ∧
      crc16 faultGetFrame = (faultGetCheck.1 ++ faultGetCheck.2 : Word16) ∧
      crc16 faultGetFrame ≠ (faultGetCheck.1 ++ ~~~faultGetCheck.2 : Word16)) ∧
    (State.reset.link.resetting = false ∧ State.reset.link.placesHeld < 4 ∧ State.reset.link.refusalHeld = false ∧
      4 ≤ ({ State.reset.link with waiting := List.replicate 4 (request 0 []) } : Link).placesHeld ∧
      ({ State.reset.link with ready := [(request 0 []).refusal] } : Link).refusalHeld = true) := by
  refine ⟨by decide, fun x => ⟨by simp [heard, State.setLink], rfl⟩, by decide, ?_, by decide⟩
  decide +kernel

theorem test_frame_becomes_a_request :
    (after (.controlFrame faultGetCheck.2) (heard (.receiving (faultGetFrame ++ [faultGetCheck.1]) 0))).map
      (fun t => (t.link.waiting, t.link.receiver, t.link.counters.received)) = some ([request 0x1C []], .hunting, 1) := by
  decide +kernel

theorem test_long_frame_is_discarded :
    (after (.incomingByte 0x4F 115200) (heard (.receiving [0x04] 0))).map
      (fun t => (t.link.receiver, t.link.counters.lengthDiscards, t.link.faultCount)) = some (.hunting, 1, 1) := by
  decide +kernel

theorem test_first_sync_byte_sets_the_rate :
    (after (.incomingByte 0xA7 9600) State.reset).map (fun t => (t.link.rate, t.link.receiver)) =
      some (some 9600, .receiving [] 0) := by decide +kernel

/-- A reply that starts no reset. -/
def plainReply : Reply := { kind := 0x1C, tag := 7, code := .ok, body := .empty, refusal := false }

/-- A report. -/
def someReport : Report := { seq := 0, frame := 0, body := .hello .pin none }

theorem witness_RequestsAreAnsweredAndSent :
    (∀ k : Byte, k.toNat = 0 ∨ 0x1E < k.toNat →
      (asked k []).link.waiting = [request k []] ∧ (asked k []).link.resetting = false) ∧
    (∀ row k, (row, k) ∈ [(ReqRow.refSet, (0x02 : Byte)), (.frameSet, 0x03), (.chainRewalk, 0x05), (.nodeGet, 0x06),
        (.nodeReinstate, 0x09), (.segSet, 0x0A), (.flowClear, 0x0B), (.poolScrub, 0x0C), (.tallyMask, 0x12), (.cueRead, 0x14),
        (.runnerArm, 0x15), (.runnerGo, 0x16), (.runnerHalt, 0x17), (.runnerConfirm, 0x18), (.runnerResume, 0x19),
        (.runnerClear, 0x1A), (.reportSet, 0x1B), (.faultGet, 0x1C), (.reset, 0x1E)] →
      Waits row (request k [0, 0, 0]) [] (asked k [0, 0, 0])) ∧
    (Waits .chainSetEnable (request 0x04 [0, 0]) [] (asked 0x04 [0, 0]) ∧
      Waits .chainSetDisable (request 0x04 [0, 1]) [] (asked 0x04 [0, 1]) ∧
      Waits .nodeCommandConfigure (request 0x08 [0, 1, 0]) [] (asked 0x08 [0, 1, 0]) ∧
      Waits .nodeCommandEnable (request 0x08 [0, 1, 1, 0]) [] (asked 0x08 [0, 1, 1, 0])) ∧
    (State.reset.link.tx = none ∧ ¬ (plainReply.kind = 0x1E ∧ plainReply.code = .ok ∧ plainReply.refusal = false)) ∧
    ((heard .hunting).link.tx = none ∧ (heard .hunting).link.rate ≠ none ∧ (heard .hunting).link.ready = [] ∧
      (heard .hunting).link.resetting = false ∧ (heard .hunting).link.reports ≠ []) := by
  refine ⟨fun k _ => ⟨rfl, rfl⟩, ?_, ⟨⟨rfl, rfl, by decide⟩, ⟨rfl, rfl, by decide⟩, ⟨rfl, rfl, by decide⟩, rfl, rfl, by decide⟩,
    by decide, by decide⟩
  intro row k h
  have all : ∀ x ∈
      [(ReqRow.refSet, (0x02 : Byte)), (.frameSet, 0x03), (.chainRewalk, 0x05), (.nodeGet, 0x06), (.nodeReinstate,
      0x09), (.segSet, 0x0A), (.flowClear, 0x0B), (.poolScrub, 0x0C), (.tallyMask, 0x12), (.cueRead, 0x14),
      (.runnerArm, 0x15), (.runnerGo, 0x16), (.runnerHalt, 0x17), (.runnerConfirm, 0x18), (.runnerResume, 0x19),
      (.runnerClear, 0x1A), (.reportSet, 0x1B), (.faultGet, 0x1C), (.reset, 0x1E)], (request x.2 [0, 0, 0]).row = x.1 := by decide
  exact ⟨rfl, rfl, all (row, k) h⟩

/-- Once RESET has been taken a report that ends is followed by none (R190). -/
theorem witness_RequestsAreAnsweredAndSent_resetting :
    ((State.reset.setLink { State.reset.link with resetting := true, tx := some (.report someReport) }).link.resetting = true ∧
      (State.reset.setLink { State.reset.link with resetting := true, tx := some (.report someReport) }).link.ready = [] ∧
      State.reset.link.reports ≠ []) ∧
    ¬ (plainReply.kind = 0x1E ∧ plainReply.code = .ok ∧ plainReply.refusal = false) := by decide

/-- STATUS with a body too long for its section. -/
theorem witness_RequestsAreAnsweredAndSent_status :
    ∀ row k, (row, k) ∈ [(ReqRow.statusReference, (0 : Byte)), (.statusChain, 1), (.statusIntake, 2), (.statusPool, 3),
        (.statusStills, 4), (.statusScene, 5), (.statusGroups, 6), (.statusTally, 7), (.statusRunners, 8), (.statusLink, 9)] →
      Waits row (request 0x01 [k, 0, 0]) [] (asked 0x01 [k, 0, 0]) := by
  intro row k h
  have all : ∀ x ∈ [(ReqRow.statusReference, (0 : Byte)), (.statusChain, 1), (.statusIntake, 2), (.statusPool, 3),
      (.statusStills, 4), (.statusScene, 5), (.statusGroups, 6), (.statusTally, 7), (.statusRunners, 8),
      (.statusLink, 9)], (request 0x01 [x.2, 0, 0]).row = x.1 := by decide
  exact ⟨rfl, rfl, all (row, k) h⟩

/-- Requests with a field out of its range, or a body of variable length that is short. -/
def badBodies : List (ReqRow × Byte × List Byte) :=
  [(.refSet, 0x02, [5, 0]), (.chainSetEnable, 0x04, [0, 2, 0, 0]), (.chainSetDisable, 0x04, [4, 1, 0, 0]),
   (.chainRewalk, 0x05, [4]), (.nodeSet, 0x07, [0, 1, 2, 0, 0, 0]), (.nodeCommandConfigure, 0x08, [0, 32, 0, 1, 0, 0, 0, 0, 0]),
   (.nodeCommandEnable, 0x08, [0, 0, 1]), (.nodeReinstate, 0x09, [0, 31]), (.segSet, 0x0A, [0, 7, 0]),
   (.stillWriteBegin, 0x0D, [4, 0, 1, 0, 0, 0, 2, 0, 1, 0, 0]), (.stillWriteContinue, 0x0D, [0, 0, 1, 0, 1, 0, 2, 0, 1, 0, 2]),
   (.stillClearSlot, 0x0E, [4, 0, 0, 1]), (.stillClearPage, 0x0E, [4, 1]), (.lookSet, 0x0F, [0, 4, 1, 0, 1, 0, 0, 0, 0]),
   (.groupSet, 0x10, [16, 0]), (.tallyRuleSet, 0x11, [16, 1, 0, 0, 0, 0, 1, 0, 1, 0, 0, 0, 0]), (.cueLoad, 0x13, [0, 1]),
   (.runnerArm, 0x15, [3, 0]), (.runnerGo, 0x16, [3]), (.runnerHalt, 0x17, [3]), (.runnerConfirm, 0x18, [3]),
   (.runnerResume, 0x19, [3]), (.runnerClear, 0x1A, [3]), (.faultClear, 0x1D, [2])]

theorem witness_FieldsOutOfRangeAreRefused :
    ∀ x ∈ badBodies, Waits x.1 (request x.2.1 x.2.2) [] (asked x.2.1 x.2.2) := by
  have all : ∀ x ∈ badBodies, (request x.2.1 x.2.2).row = x.1 := by decide
  exact fun x h => ⟨rfl, rfl, all x h⟩

/-- NODE_SET bodies with a presence byte or a field out of its range behind fields that are present. -/
theorem witness_FieldsOutOfRangeAreRefused_nodeSet :
    ∀ more : List Byte, more ∈ [[2, 0, 0], [1, 5, 0, 0], [1, 4, 2, 0], [0, 1, 0x03, 0xE9, 0], [1, 3, 0, 2], [0, 1, 3, 0xE8, 2]] →
      Waits .nodeSet (request 0x07 ([0, 1, 1, 2] ++ more)) [] (asked 0x07 ([0, 1, 1, 2] ++ more)) :=
  fun _ _ => ⟨rfl, rfl, rfl⟩

theorem test_node_set_behind_present_fields :
    (after .nodeSet (asked 0x07 [0, 1, 1, 2, 1, 5, 0, 0])).map lastCode = some (some .badArg) ∧
    (after .nodeSet (asked 0x07 [0, 1, 1, 2, 0, 1, 0x03, 0xE9, 0])).map lastCode = some (some .badArg) := by
  decide +kernel

theorem test_bad_fields_are_refused :
    (after .segSet (asked 0x0A [0, 7, 0])).map lastCode = some (some .badArg) ∧
    (after .stillWriteContinue (asked 0x0D [0, 0, 1, 0, 1, 0, 2, 0, 1, 0, 2])).map lastCode = some (some .badArg) ∧
    (after .cueLoad (asked 0x13 [0, 1])).map lastCode = some (some .badArg) ∧
    (after .faultClear (asked 0x1D [2])).map lastCode = some (some .badArg) := by decide +kernel

theorem test_reports_leave_once_the_rate_is_known :
    (heard .hunting).link.pump.tx = some (.report someReport) ∧ State.reset.link.pump.tx = none := by decide

/-- A delivered tick waits at the Control Link `l`. -/
def linkTicked (l : Link) : State :=
  (State.reset.setLink l).setMail { State.reset.mail with ticks := { State.reset.mail.ticks with link := [1] } }

/-- FRAME excluded or admitted, and 31 and 32 reports, stand at the bounds; the tick count at 23 and 24 of 25. -/
theorem witness_LinkTicksReportAndWatch :
    ((linkTicked State.reset.link).mail.ticks.link = 1 :: [] ∧ (linkTicked State.reset.link).link.receiver = .hunting) ∧
    (({ State.reset.link with period := 0 } : Link).period = 0 ∧ 23 + 1 < State.reset.link.period ∧
      State.reset.link.period ≠ 0 ∧ State.reset.link.period ≤ 24 + 1) ∧
    (State.reset.link.mask.getLsbD 0 = true ∧ ({ State.reset.link with mask := 0xFE } : Link).mask.getLsbD 0 = false ∧
      (List.replicate 31 someReport).length < 32 ∧ 32 ≤ (List.replicate 32 someReport).length) ∧
    (∀ t, ({ State.reset.link with period := 0, receiver := .receiving [0] t } : Link).receiver = .receiving [0] t) := by
  refine ⟨⟨rfl, rfl⟩, by decide, by decide, fun _ => rfl⟩

/-- A tick at which the FRAME report is due and a frame stalls: the tick's row reports FRAME first, the stall's row the fault
(log 40). -/
theorem test_frame_and_stall_at_one_tick :
    (after .controlLinkTick (linkTicked { State.reset.link with tickCount := 24, receiver := .receiving [0] 1 })).map
      (fun t => (t.link.reports.tail.map fun r => match r.body with
        | .frame _ _ _ _ _ _ _ _ n => n
        | _ => 99)) = some [0, 99] ∧
    (after .linkStallExpiry (linkTicked { State.reset.link with tickCount := 24, receiver := .receiving [0] 1 })).map
      (fun t => (t.link.reports.tail.map fun r => match r.body with
        | .frame _ _ _ _ _ _ _ _ n => n
        | _ => 99)) = some [99, 1] := by decide +kernel

theorem test_frame_report_is_due :
    (after .frameReportDue (linkTicked { State.reset.link with tickCount := 24 })).map
      (fun t => (t.link.tickCount, t.link.reports.length, t.link.seq)) = some (0, 2, 2) := by decide +kernel

theorem test_stall_discards :
    (after .linkStallExpiry (linkTicked { State.reset.link with receiver := .receiving [0] 1 })).map
      (fun t => (t.link.receiver, t.link.counters.stallDiscards, t.link.faultCount)) = some (.hunting, 1, 1) := by
  decide +kernel

/-- The fault of a stalled frame. -/
def someFault : FaultRecord := { fault := .linkCheck .stall, source := .link, frame := 3, node := none }

theorem witness_ReportsAndFaultsAreTaken :
    (∀ b, b = .hello .pin none ∨ b = .fault someFault 1 true → State.reset.link.admits b = true) ∧
    (({ State.reset.link with mask := 0 } : Link).admits (.fault someFault 1 true) = false ∧
      ({ State.reset.link with mask := 0 } : Link).admits (.hello .pin none) = true) ∧
    (State.reset.link.reports.length < 32 ∧
      32 ≤ ({ State.reset.link with reports := List.replicate 32 someReport } : Link).reports.length) ∧
    (State.reset.link.faultCount = 0 ∧ ({ State.reset.link with faultCount := 65534 } : Link).faultCount < 65535 ∧
      ({ State.reset.link with faultCount := 65535 } : Link).faultCount = 65535) ∧
    (∀ p : Byte, Waits .reportSet (request 0x1B [0, p]) [] (asked 0x1B [0, p])) ∧
    ((250 : Byte).toNat ≤ 250 ∧ 250 < (251 : Byte).toNat) := by
  refine ⟨?_, by decide, by decide, by decide, fun p => ⟨rfl, rfl, rfl⟩, by decide⟩
  rintro b (rfl | rfl) <;> decide

theorem witness_FaultRecordIsReadAndCleared :
    (Waits .faultGet (request 0x1C []) [] (asked 0x1C []) ∧ (request 0x1C []).body = []) ∧
    (∀ body, Waits .faultClear (request 0x1D body) [] (asked 0x1D body)) ∧
    (((0 : Byte) ++ (0 : Byte) : Word16) = 0 ∧ ((0 : Byte) ++ (1 : Byte) : Word16) ≠ 0 ∧
      ((0 : Byte) ++ (1 : Byte) : Word16).toNat = ({ State.reset.link with faultCount := 1 } : Link).faultCount ∧
      ((0 : Byte) ++ (1 : Byte) : Word16).toNat ≠ State.reset.link.faultCount) := by
  exact ⟨⟨⟨rfl, rfl, by decide⟩, rfl⟩, fun _ => ⟨rfl, rfl, rfl⟩, by decide⟩

/-- The part after reset with one fault captured. -/
def faulted : State := State.reset.setLink { State.reset.link with captured := some someFault, faultCount := 1 }

theorem test_fault_is_read_and_cleared :
    (after .faultGet (asking 0x1C [] faulted)).map (fun t => t.link.ready.map fun r => (r.code, r.body)) =
      some [(.ok, .faults 1 (some someFault))] ∧
    (after .faultClear (asking 0x1D [1, 0, 2] faulted)).map (fun t => (t.link.faultCount, lastCode t)) =
      some (1, some .state) ∧
    (after .faultClear (asking 0x1D [1, 0, 1] faulted)).map (fun t => (t.link.faultCount, lastCode t)) =
      some (0, some .ok) := by decide +kernel

/-- Every section, chain 3 and chain 4, and section 10. -/
theorem witness_StatusReadsEverySection :
    (∀ row k, (row, k) ∈ [(ReqRow.statusReference, (0 : Byte)), (.statusReference, 10), (.statusIntake, 2), (.statusPool, 3),
        (.statusStills, 4), (.statusScene, 5), (.statusGroups, 6), (.statusTally, 7), (.statusRunners, 8), (.statusLink, 9)] →
      Waits row (request 0x01 [k]) [] (asked 0x01 [k])) ∧
    (∀ c : Byte, Waits .statusChain (request 0x01 [1, c]) [] (asked 0x01 [1, c])) ∧
    (9 < (10 : Byte).toNat ∧ 3 < (4 : Byte).toNat ∧ (BitVec.ofNat 8 (3 : ChainId).val : Byte) = 3) := by
  refine ⟨?_, fun c => ⟨rfl, rfl, rfl⟩, by decide⟩
  intro row k h
  have all : ∀ x ∈
      [(ReqRow.statusReference, (0 : Byte)), (.statusReference, 10), (.statusIntake, 2), (.statusPool, 3),
      (.statusStills, 4), (.statusScene, 5), (.statusGroups, 6), (.statusTally, 7), (.statusRunners, 8),
      (.statusLink, 9)], (request 0x01 [x.2]).row = x.1 := by decide
  exact ⟨rfl, rfl, all (row, k) h⟩

theorem test_status_section_is_checked :
    (after .statusReference (asked 0x01 [10])).map lastCode = some (some .badArg) ∧
    (after .statusChain (asked 0x01 [1, 3])).map lastCode = some (some .ok) := by decide +kernel

/-- Line 0 latched on and last sampled off, the other lines off: on is 0, off is 1 (R144). The bytes of the record of a chain
in RUNNING with END at hop 2 begin with state, END hop and port route (R25). -/
theorem test_status_bytes :
    codeLines 1 0 = [0, 1] ++ List.replicate 14 1 ∧
    (codeChainStatus ((withChain (runningWith [some (lampAt 1), some (lampAt 2)])).chainStatus 0)).take 7 =
      [2, 1, 2, 0, 0, 3, 3] ∧
    codeDetail (.segStall none) = [] ∧ codeDetail (.segStall (some 7)) = [0, 7] := by decide +kernel

/-! ### What every command leaves, and what every step keeps -/

theorem witness_ReferenceSceneTallyAndMemoryChangeByTheirOwnCommands :
    (∃ t, exec .haltNotice State.reset = .next t ∧ t.ref = State.reset.ref) ∧
    (after .holdoverTimerExpiry State.reset).map (fun t => t.ref.counter) = some 1 :=
  ⟨⟨_, rfl, rfl⟩, by decide +kernel⟩

theorem witness_StepKeepsTheMemoryCanonical :
    Memory.wf State.reset.pool.memory ∧ step State.reset = .next State.reset :=
  ⟨by decide +kernel, rfl⟩

/-- The part after reset meets what the steps keep; the step of the empty queue leaves it as it is. -/
theorem witness_StepKeepsTheBounds :
    State.reset.ref.wf ∧ (∀ c, (State.reset.chains.get c).wf) ∧ (∀ c, (State.reset.asm.get c).wf) ∧ State.reset.scene.wf ∧
      State.reset.tally.wf ∧ State.reset.link.wf ∧ step State.reset = .next State.reset := by
  refine ⟨rfl, ?_, ?_, ?_, ?_, ?_, rfl⟩
  · intro c
    fin_cases c <;>
      exact ⟨rfl, ⟨Nat.zero_le _, List.Pairwise.nil, fun _ h => absurd h List.not_mem_nil⟩, nofun, nofun⟩
  · intro c; fin_cases c <;> rfl
  · refine ⟨?_, ?_, ?_, ?_⟩ <;> decide +kernel
  · refine ⟨?_, ?_, ?_⟩ <;> decide
  · refine ⟨?_, ?_, ?_, ?_⟩ <;> decide

theorem witness_StepKeepsTheBoundsOfStores : State.reset.stills.wf ∧ State.reset.cues.wf := by
  refine ⟨⟨by decide +kernel, ?_, by decide +kernel⟩, by decide, ?_⟩
  · intro x hx
    have e : x = .empty := List.eq_of_mem_replicate (n := 480) hx
    rw [e]; exact True.intro
  · intro l hl
    have e : some l = none := List.eq_of_mem_replicate (n := 8) hl
    cases e

theorem test_pin_reset_keeps_the_queue :
    (after (.pinReset 9) { faulted with pending := [.haltNotice] }).map (fun t => (t.pending, t.link.faultCount, t.ref.now)) =
      some ([.haltNotice], 0, 9) := by decide +kernel

end Sys2Proof.Tests
end

section
/-! Chapter 1, FRAME_SET (R13): how its body is read, how the request is taken, and what a candidate tick does with the
pending frame value. -/

namespace Sys2Proof.Machine

/-! ### The body of FRAME_SET -/

theorem frameSet?_pair (h l : Byte) : frameSet? [h, l] = some (get16 h l) := rfl

/-- A body of any length but two bytes does not hold exactly one frame value (R13). -/
theorem frameSet?_eq_none_of_length {body : List Byte} (hlen : body.length ≠ 2) : frameSet? body = none := by
  match body, hlen with
  | [], _ => rfl
  | [_], _ => rfl
  | [_, _], hlen => exact absurd rfl hlen
  | _ :: _ :: _ :: _, _ => rfl

/-! ### The request taken -/

theorem exec_frameSet (s : State) : exec .frameSet s = execFrameSet s := rfl

theorem exec_frameSet_of_value {q : Request} {rest : List Request} {s : State} {v : Word16}
    (hq : Waits .frameSet q rest s) (hv : frameSet? q.body = some v) :
    exec .frameSet s =
      .next (({ s.taken rest with ref := { s.ref with pendingFrame := some v } } : State).replied q .ok .empty) := by
  rw [exec_frameSet, execFrameSet, takeWith_some hq hv]
  rfl

theorem exec_frameSet_of_no_value {q : Request} {rest : List Request} {s : State}
    (hq : Waits .frameSet q rest s) (hv : frameSet? q.body = none) :
    exec .frameSet s = .next ((s.taken rest).replied q .badArg .empty) := by
  rw [exec_frameSet, execFrameSet, takeWith_none hq hv]

/-! ### Candidate ticks -/

theorem RefUnit.nextFrame_of_pending {r : RefUnit} {v : Word16} (hv : r.pendingFrame = some v) : r.nextFrame = v := by
  unfold RefUnit.nextFrame
  rw [hv, Option.getD_some]

theorem State.candidate_of_suppressed {s : State} {m : Nat} (hm : s.ref.suppresses m = true) : s.candidate m = s :=
  if_pos hm

/-- A delivered tick: the counter takes the next frame number, and every block is handed it (R12). -/
theorem State.candidate_of_delivered {s : State} {m : Nat} (hm : s.ref.suppresses m = false) :
    s.candidate m =
      { s with ref := { s.ref with counter := s.ref.nextFrame, pendingFrame := none, lastTick := some m },
               mail := { s.mail with ticks := s.mail.ticks.deliver s.ref.nextFrame } } :=
  if_neg (by rw [hm]; exact Bool.false_ne_true)

/-- A delivered tick with a pending value carries it as its frame number and clears it (R13). -/
theorem State.candidate_of_pending {s : State} {m : Nat} {v : Word16} (hv : s.ref.pendingFrame = some v)
    (hm : s.ref.suppresses m = false) :
    s.candidate m =
      { s with ref := { s.ref with counter := v, pendingFrame := none, lastTick := some m },
               mail := { s.mail with ticks := s.mail.ticks.deliver v } } := by
  rw [State.candidate_of_delivered hm, RefUnit.nextFrame_of_pending hv]

/-- Settles O9: the request by what its body holds, the candidate tick by whether it is suppressed. -/
theorem frameSetNumbersTheNextTick : Obligations.FrameSetNumbersTheNextTick := by
  unfold Obligations.FrameSetNumbersTheNextTick
  refine ⟨?value, ?noValue, ?delivered, ?suppressed⟩
  case value =>
    intro q rest s h l hq hbody
    have hv : frameSet? q.body = some (get16 h l) := by rw [hbody, frameSet?_pair]
    exact exec_frameSet_of_value hq hv
  case noValue =>
    intro q rest s hq hlen
    exact exec_frameSet_of_no_value hq (frameSet?_eq_none_of_length hlen)
  case delivered =>
    intro s m v hv hm
    exact State.candidate_of_pending hv hm
  case suppressed =>
    intro s m hm
    exact State.candidate_of_suppressed hm

end Sys2Proof.Machine
end

section
/-! Chapter 2, the node table (R22, R32, R33): what a read of the table returns after each of its updates, and what the
departure of each command makes of the table. -/

namespace Sys2Proof.Machine

/-! ### Reading the node table after an update -/

theorem Chain.isAddress_of_node {ch : Chain} {a : Nat} {n : Node} (hn : ch.node a = some n) : isAddress a = true := by
  by_contra ha
  simp [Chain.node, ha] at hn

theorem isAddress_iff {a : Nat} : isAddress a = true ↔ 1 ≤ a ∧ a ≤ 30 := by simp [isAddress]

/-- Address 31 names every record (R32), so no record has it. -/
theorem Chain.ne_all_of_node {ch : Chain} {a : Nat} {n : Node} (hn : ch.node a = some n) : a ≠ 31 := by
  have ha := isAddress_iff.1 (ch.isAddress_of_node hn)
  omega

theorem Chain.node_setNode_same {ch : Chain} (hlen : ch.nodes.length = 30) {a : Nat} (ha : isAddress a = true)
    (o : Option Node) : (ch.setNode a o).node a = o := by
  have hlt : a - 1 < ch.nodes.length := by have := isAddress_iff.1 ha; omega
  simp [Chain.node, Chain.setNode, ha, List.getD_eq_getElem?_getD, List.getElem?_set_self hlt]

theorem Chain.node_setNode_ne {ch : Chain} {a b : Nat} (ha : isAddress a = true) (hb : b ≠ a) (o : Option Node) :
    (ch.setNode a o).node b = ch.node b := by
  unfold Chain.node
  split
  case isFalse => rfl
  case isTrue hb' =>
    have hne : a - 1 ≠ b - 1 := by
      have := isAddress_iff.1 ha
      have := isAddress_iff.1 hb'
      omega
    simp [Chain.setNode, List.getD_eq_getElem?_getD, List.getElem?_set_ne hne]

theorem Chain.node_updateNode {ch : Chain} (hlen : ch.nodes.length = 30) (a b : Nat) (f : Node → Node) :
    (ch.updateNode a f).node b = if b = a then (ch.node b).map f else ch.node b := by
  unfold Chain.updateNode
  split
  case h_1 n hn =>
    have ha := ch.isAddress_of_node hn
    by_cases hb : b = a
    · rw [if_pos hb, hb, Chain.node_setNode_same hlen ha, hn, Option.map_some]
    · rw [if_neg hb, Chain.node_setNode_ne ha hb]
  case h_2 hn =>
    split
    case isTrue hb => rw [hb, hn, Option.map_none]
    case isFalse => rfl

theorem Chain.node_updateAll (ch : Chain) (b : Nat) (f : Node → Node) :
    (ch.updateAll f).node b = (ch.node b).map f := by
  unfold Chain.node
  split
  case isTrue => cases h : ch.nodes[b - 1]? <;> simp [Chain.updateAll, List.getD_eq_getElem?_getD, h]
  case isFalse => rfl

theorem Chain.updateNode_nodes_length (ch : Chain) (a : Nat) (f : Node → Node) :
    (ch.updateNode a f).nodes.length = ch.nodes.length := by
  unfold Chain.updateNode
  split
  case h_1 => exact List.length_set
  case h_2 => rfl

theorem Chain.updateAll_nodes_length (ch : Chain) (f : Node → Node) :
    (ch.updateAll f).nodes.length = ch.nodes.length := List.length_map _

/-! ### Hops (R21) -/

/-- The enrolled list after an update of one record: the same addresses, the named record changed. -/
theorem Chain.enrolled_updateNode {ch : Chain} (hlen : ch.nodes.length = 30) (a : Nat) (f : Node → Node) :
    (ch.updateNode a f).enrolled = ch.enrolled.map fun p => (p.1, if p.1 = a then f p.2 else p.2) := by
  unfold Chain.enrolled
  rw [List.map_filterMap]
  refine List.filterMap_congr fun b _ => ?_
  rw [Chain.node_updateNode hlen]
  by_cases hb : b = a <;> cases ch.node b <;> simp [hb]

/-- A hop depends on the states and positions of the table alone (R21): an update that keeps both moves no hop. -/
theorem Chain.hop_updateNode {ch : Chain} (hlen : ch.nodes.length = 30) (a : Nat) {f : Node → Node}
    (hstate : ∀ n, (f n).state = n.state) (hpos : ∀ n, (f n).position = n.position) (m : Node) :
    (ch.updateNode a f).hop m = ch.hop m := by
  have hstate' (p : Nat × Node) : (if p.1 = a then f p.2 else p.2).state = p.2.state := by split <;> simp [hstate]
  have hpos' (p : Nat × Node) : (if p.1 = a then f p.2 else p.2).position = p.2.position := by split <;> simp [hpos]
  unfold Chain.hop
  rw [Chain.enrolled_updateNode hlen]
  simp only [List.filter_map, List.length_map, Function.comp_def, hstate', hpos']

/-! ### Records named by a configuration command (R32) -/

theorem NodeState.reachable_iff (st : NodeState) : st.reachable = true ↔ st = .ident ∨ st = .live ∨ st = .suspect := by
  cases st <;> simp [NodeState.reachable]

theorem NodeState.not_reachable_iff (st : NodeState) : st.reachable = false ↔ st = .failed ∨ st = .cut := by
  cases st <;> simp [NodeState.reachable]

theorem Node.configured_of_reachable {n : Node} (hr : n.state.reachable = true) :
    n.configured = { n with state := .ident } := if_pos hr

theorem Node.enabled_of_reachable {n : Node} (hr : n.state.reachable = true) :
    n.enabled = { n with state := if n.silent = 0 then .live else .suspect } := if_pos hr

theorem Node.configured_of_not_reachable {n : Node} (hr : n.state.reachable = false) : n.configured = n :=
  if_neg (Bool.eq_false_iff.1 hr)

theorem Node.enabled_of_not_reachable {n : Node} (hr : n.state.reachable = false) : n.enabled = n :=
  if_neg (Bool.eq_false_iff.1 hr)

/-- An ENABLE behind a CONFIGURE decides alone (R32). -/
theorem Node.enabled_configured {n : Node} (hr : n.state.reachable = true) : n.configured.enabled = n.enabled := by
  rw [Node.configured_of_reachable hr, Node.enabled_of_reachable hr, Node.enabled_of_reachable rfl]

/-- A CONFIGURE behind an ENABLE decides alone (R32). -/
theorem Node.configured_enabled {n : Node} (hr : n.state.reachable = true) : n.enabled.configured = n.configured := by
  have hr' : NodeState.reachable (if n.silent = 0 then .live else .suspect) = true := by split <;> rfl
  rw [Node.enabled_of_reachable hr, Node.configured_of_reachable hr, Node.configured_of_reachable hr']

/-! ### Departures -/

/-- The records that address `a` of a configuration command names: its own, or every one with address 31 (R32). -/
theorem Chain.node_updateNamed {ch : Chain} (hlen : ch.nodes.length = 30) (a b : Nat) (f : Node → Node) :
    (if a = 31 then ch.updateAll f else ch.updateNode a f).node b =
      if a = 31 ∨ b = a then (ch.node b).map f else ch.node b := by
  by_cases ha : a = 31
  · rw [if_pos ha, if_pos (.inl ha), Chain.node_updateAll]
  · rw [if_neg ha, Chain.node_updateNode hlen]
    simp only [ha, false_or]

theorem Chain.node_depart_configure {ch : Chain} (hlen : ch.nodes.length = 30) (a b : Nat) (tag : Byte)
    (x : ConfigSettings) :
    (ch.depart (.configure a tag x)).node b =
      if a = 31 ∨ b = a then (ch.node b).map Node.configured else ch.node b :=
  Chain.node_updateNamed hlen a b Node.configured

theorem Chain.node_depart_enable {ch : Chain} (hlen : ch.nodes.length = 30) (a b : Nat) :
    (ch.depart (.enable a)).node b = if a = 31 ∨ b = a then (ch.node b).map Node.enabled else ch.node b :=
  Chain.node_updateNamed hlen a b Node.enabled

theorem Chain.node_depart_configure_named {ch : Chain} (hlen : ch.nodes.length = 30) {a b : Nat} {n : Node}
    (hn : ch.node b = some n) (hab : a = 31 ∨ b = a) (tag : Byte) (x : ConfigSettings) :
    (ch.depart (.configure a tag x)).node b = some n.configured := by
  rw [Chain.node_depart_configure hlen, if_pos hab, hn, Option.map_some]

theorem Chain.node_depart_enable_named {ch : Chain} (hlen : ch.nodes.length = 30) {a b : Nat} {n : Node}
    (hn : ch.node b = some n) (hab : a = 31 ∨ b = a) : (ch.depart (.enable a)).node b = some n.enabled := by
  rw [Chain.node_depart_enable hlen, if_pos hab, hn, Option.map_some]

theorem Chain.depart_nodes_length (ch : Chain) (cmd : Cmd) : (ch.depart cmd).nodes.length = ch.nodes.length := by
  unfold Chain.depart
  split
  case h_1 => rfl
  case h_2 => split <;> rfl
  case h_3 => rfl
  case h_4 => exact ch.updateNode_nodes_length _ _
  case h_5 | h_6 =>
    split
    · exact ch.updateAll_nodes_length _
    · exact ch.updateNode_nodes_length _ _

theorem Chain.depart_setEnd_off (ch : Chain) (h : Nat) :
    ch.depart (.setEnd h false) = { ch with endHop := if ch.endHop = some h then none else ch.endHop } := by
  change (if ch.endHop = some h then { ch with endHop := none } else ch) = _
  split <;> rfl

/-- A ROUTE to an enrolled node sets that record's route and nothing else of the table, so it moves no hop (R33). -/
theorem Chain.depart_route_node {ch : Chain} (hlen : ch.nodes.length = 30) {a : Nat} {n : Node} (hn : ch.node a = some n)
    (r : Route) :
    (ch.depart (.route (some a) r)).node a = some { n with route := r } ∧
    (∀ b, b ≠ a → (ch.depart (.route (some a) r)).node b = ch.node b) ∧
    (∀ m, (ch.depart (.route (some a) r)).hop m = ch.hop m) := by
  refine ⟨?own, fun b hb => ?others, fun m => ?hops⟩
  case own => exact (Chain.node_updateNode hlen a a _).trans (by rw [if_pos rfl, hn, Option.map_some])
  case others => exact (Chain.node_updateNode hlen a b _).trans (if_neg hb)
  case hops => exact Chain.hop_updateNode hlen a (f := fun k => { k with route := r }) (fun _ => rfl) (fun _ => rfl) m

/-! ### A record in IDENT -/

/-- No segment is filed for a record in IDENT (R24). -/
theorem Chain.showsTile_of_ident {ch : Chain} {a : Nat} {n : Node} (hn : ch.node a = some n) (hi : n.state = .ident) :
    ch.showsTile a = false := by
  unfold Chain.showsTile
  rw [hn]
  dsimp only
  rw [hi]
  exact Bool.and_false _

/-- The block of a record in IDENT is an identity-poll (R24, R96). -/
theorem Chain.job_of_ident {ch : Chain} {a : Nat} {n : Node} (hn : ch.node a = some n) (hi : n.state = .ident)
    (post : Post) (q : Nat) : ch.job post { position := q, address := some a } = .fixed .poll := by
  unfold Chain.job
  dsimp only
  rw [hn]
  dsimp only
  rw [hi]

/-! ### The statement -/

/-- Settles O13: the repair commands one by one, then the configuration commands by whether the record they name is
reachable. -/
theorem departuresUpdateTheTable : Obligations.DeparturesUpdateTheTable := by
  unfold Obligations.DeparturesUpdateTheTable
  refine ⟨⟨?on, ?off, ?port, ?route, ?onThenOff, ?offThenOn⟩, ?config⟩
  case on => exact fun ch h => rfl
  case off => exact Chain.depart_setEnd_off
  case port => exact fun ch r => rfl
  case route => exact fun ch a n r hlen hn => Chain.depart_route_node hlen hn r
  case onThenOff =>
    intro ch old new hne
    rw [Chain.depart_endHop, Chain.depart_endHop]
    exact if_neg fun e => hne (Option.some.inj e).symm
  case offThenOn => exact fun ch h => rfl
  case config =>
    intro ch a n tag x hlen hn
    have hconf (b : Nat) (hb : b = 31 ∨ a = b) := Chain.node_depart_configure_named hlen hn hb tag x
    have hen (b : Nat) (hb : b = 31 ∨ a = b) := Chain.node_depart_enable_named hlen hn hb
    refine ⟨fun hst => ?reachable, fun hst => ?dead, fun b hb => ?others⟩
    case reachable =>
      have hr := n.state.reachable_iff.2 hst
      have hconfEn := Chain.node_depart_enable_named ((ch.depart_nodes_length _).trans hlen) (hconf a (.inr rfl)) (.inr rfl)
      have henConf := Chain.node_depart_configure_named ((ch.depart_nodes_length _).trans hlen) (hen a (.inr rfl)) (.inr rfl)
        tag x
      rw [Node.enabled_configured hr] at hconfEn
      rw [Node.configured_enabled hr] at henConf
      simp only [Node.configured_of_reachable hr] at hconf henConf
      simp only [Node.enabled_of_reachable hr] at hen hconfEn
      exact ⟨hconf a (.inr rfl), hconf 31 (.inl rfl), hen a (.inr rfl), hen 31 (.inl rfl), hconfEn, henConf,
        Chain.showsTile_of_ident (hconf a (.inr rfl)) rfl, Chain.job_of_ident (hconf a (.inr rfl)) rfl⟩
    case dead =>
      have hr := n.state.not_reachable_iff.2 hst
      simp only [Node.configured_of_not_reachable hr] at hconf
      simp only [Node.enabled_of_not_reachable hr] at hen
      exact ⟨hconf a (.inr rfl), hconf 31 (.inl rfl), hen a (.inr rfl), hen 31 (.inl rfl)⟩
    case others =>
      have hnot : ¬ (a = 31 ∨ b = a) := not_or.2 ⟨Chain.ne_all_of_node hn, hb⟩
      exact ⟨(Chain.node_depart_configure hlen a b tag x).trans (if_neg hnot),
        (Chain.node_depart_enable hlen a b).trans (if_neg hnot)⟩

end Sys2Proof.Machine
end

section
/-! Chapter 2, NODE_GET (R37): how its body is read, and what it answers. -/

namespace Sys2Proof.Machine

/-! ### The body of a request that names a node -/

theorem chainByte?_of_val {b : Byte} {c : ChainId} (hc : b.toNat = c.val) : chainByte? b = some c := by
  have hlt : b.toNat < 4 := hc ▸ c.isLt
  unfold chainByte? chainOf?
  rw [dif_pos hlt]
  exact congrArg some (Fin.ext hc)

theorem chainByte?_eq_none {b : Byte} (hb : 4 ≤ b.toNat) : chainByte? b = none := dif_neg (Nat.not_lt.2 hb)

theorem address?_of_mem {b : Byte} (hlo : 1 ≤ b.toNat) (hhi : b.toNat ≤ 30) : address? b = some b.toNat :=
  if_pos ⟨hlo, hhi⟩

theorem address?_eq_none {b : Byte} (hb : b.toNat < 1 ∨ 30 < b.toNat) : address? b = none :=
  if_neg (by omega)

theorem nodeRef?_pair (cb ab : Byte) :
    nodeRef? [cb, ab] = (chainByte? cb).bind fun c => (address? ab).bind fun a => some { chain := c, address := a } := rfl

theorem nodeRef?_of_fields {cb ab : Byte} {c : ChainId} (hc : cb.toNat = c.val) (hlo : 1 ≤ ab.toNat)
    (hhi : ab.toNat ≤ 30) : nodeRef? [cb, ab] = some { chain := c, address := ab.toNat } := by
  rw [nodeRef?_pair, chainByte?_of_val hc, address?_of_mem hlo hhi]
  rfl

/-- A chain or an address out of range leaves no node named. -/
theorem nodeRef?_eq_none {cb ab : Byte} (hbad : 4 ≤ cb.toNat ∨ ab.toNat < 1 ∨ 30 < ab.toNat) :
    nodeRef? [cb, ab] = none := by
  rw [nodeRef?_pair]
  rcases hbad with hc | ha
  · rw [chainByte?_eq_none hc, Option.bind_none]
  · rw [address?_eq_none ha]
    exact Option.bind_fun_none _

/-! ### NODE_GET taken -/

theorem Node.tile?_isSome (n : Node) : n.tile?.isSome = decide (n.kindName = .tile) := by
  unfold Node.tile? Node.kindName
  cases n.kind <;> rfl

theorem exec_nodeGet (s : State) : exec .nodeGet s = execNodeGet s := rfl

/-- NODE_GET of a record that is `o`: it changes nothing but the request places and the replies. -/
theorem exec_nodeGet_of_node {q : Request} {rest : List Request} {s : State} {r : NodeRef} {o : Option Node}
    (hq : Waits .nodeGet q rest s) (hr : nodeRef? q.body = some r) (ho : s.node r = o) :
    exec .nodeGet s = .next ((s.taken rest).replied q .ok
      (.nodeGet r.address o (o.bind (s.chains.get r.chain).hop)
        ((o.bind Node.tile?).isSome && ((s.asm.get r.chain).heldAt r.address).isSome))) := by
  rw [exec_nodeGet, execNodeGet, takeWith_some hq hr, ← ho]
  rfl

theorem exec_nodeGet_of_no_node {q : Request} {rest : List Request} {s : State} (hq : Waits .nodeGet q rest s)
    (hr : nodeRef? q.body = none) : exec .nodeGet s = .next ((s.taken rest).replied q .badArg .empty) := by
  rw [exec_nodeGet, execNodeGet, takeWith_none hq hr]

/-- Settles O22: by what the body names, and by whether the record is ABSENT. -/
theorem nodeGetReadsTheRecord : Obligations.NodeGetReadsTheRecord := by
  unfold Obligations.NodeGetReadsTheRecord
  intro q rest s cb ab hq hbody
  have named {c : ChainId} (hc : cb.toNat = c.val) (hlo : 1 ≤ ab.toNat) (hhi : ab.toNat ≤ 30) :
      nodeRef? q.body = some { chain := c, address := ab.toNat } := by rw [hbody, nodeRef?_of_fields hc hlo hhi]
  refine ⟨fun hbad => ?outOfRange, fun c hc hlo hhi hn => ?absent, fun c n hc hlo hhi hn => ?enrolled⟩
  case outOfRange => exact exec_nodeGet_of_no_node hq (by rw [hbody, nodeRef?_eq_none hbad])
  case absent => exact exec_nodeGet_of_node hq (named hc hlo hhi) hn
  case enrolled =>
    rw [← Node.tile?_isSome]
    exact exec_nodeGet_of_node hq (named hc hlo hhi) hn

end Sys2Proof.Machine
end

section
/-! Chapter 8, TALLY_TICK (R134): what one line of the unit becomes at a sample, what handing over a batch changes, and the
tick taken. -/

namespace Sys2Proof.Machine

/-! ### One line at a sample -/

theorem Tally.sampled_getLsbD (t : Tally) (levels : BitVec 8) {k : Nat} (hk : k < 8) :
    (t.sampled levels).getLsbD k = (!t.mask.getLsbD k && levels.getLsbD k) := by
  unfold Tally.sampled
  rw [BitVec.getLsbD_and, BitVec.getLsbD_not, decide_eq_true hk, Bool.true_and, Bool.and_comm]

/-- The latched lines, line by line: a sample that repeats the last one is latched, any other leaves the line as it is. -/
theorem Tally.latchedAfter_getLsbD (t : Tally) (levels : BitVec 8) {k : Nat} (hk : k < 8) :
    (t.latchedAfter levels).getLsbD k =
      if (t.sampled levels).getLsbD k = t.sample.getLsbD k then (t.sampled levels).getLsbD k
      else t.latched.getLsbD k := by
  simp only [Tally.latchedAfter, BitVec.getLsbD_or, BitVec.getLsbD_and, BitVec.getLsbD_not, BitVec.getLsbD_xor, hk,
    decide_true, Bool.true_and]
  by_cases hrep : (t.sampled levels).getLsbD k = t.sample.getLsbD k
  · simp [hrep]
  · simp [Bool.eq_not_of_ne hrep]

/-- A line with no line change (R134, step 2): a repeated sample is latched there too, but it is the latched state already. -/
theorem Tally.latchedAfter_getLsbD_of_not_change {t : Tally} {levels : BitVec 8} {k : Nat} (hk : k < 8)
    (hno : ¬ ((t.sampled levels).getLsbD k ≠ t.latched.getLsbD k ∧ (t.sampled levels).getLsbD k = t.sample.getLsbD k)) :
    (t.latchedAfter levels).getLsbD k = t.latched.getLsbD k := by
  rw [Tally.latchedAfter_getLsbD t levels hk]
  split
  case isTrue hrep => exact not_not.1 fun hne => hno ⟨hne, hrep⟩
  case isFalse => rfl

/-! ### A batch handed over -/

/-- A batch joins the batches on their way to the Scene Table, unless it holds no claim (R138). -/
theorem State.handBatch_eq (batch : List TallyClaim) (s : State) :
    s.handBatch batch =
      { s with mail := { s.mail with batches := s.mail.batches ++ if batch = [] then [] else [batch] } } := by
  cases batch with
  | nil => rw [if_pos rfl, List.append_nil]; rfl
  | cons x rest => rw [if_neg (List.cons_ne_nil x rest)]; rfl

/-! ### The tick taken -/

theorem exec_tallyTick (levels : BitVec 8) (s : State) : exec (.tallyTick levels) s = execTallyTick levels s := rfl

theorem exec_tallyTick_of_tick {s : State} {n : Word16} {ticks : List Word16} (hticks : s.mail.ticks.tally = n :: ticks)
    (levels : BitVec 8) :
    let latched := s.tally.latchedAfter levels
    let batch := changeClaims s.tally.latched latched 0 s.tally.rules
    exec (.tallyTick levels) s = .next ({ s with
      tally := { s.tally with sample := s.tally.sampled levels, latched := latched },
      mail := { s.mail with ticks := { s.mail.ticks with tally := ticks },
                            batches := s.mail.batches ++ if batch = [] then [] else [batch] } } : State).ended := by
  rw [exec_tallyTick, execTallyTick, hticks]
  dsimp only
  rw [done_eq, State.tallyTick, State.handBatch_eq]

/-- Settles O42: the tick as one equation, then each line by its sample against its last sample and its latched state. -/
theorem tallyLinesSettleInTwoTicks : Obligations.TallyLinesSettleInTwoTicks := by
  unfold Obligations.TallyLinesSettleInTwoTicks
  intro levels n ticks s hticks
  refine ⟨_, exec_tallyTick_of_tick hticks levels, fun k hk => ?line, rfl, rfl, rfl, rfl, rfl, rfl, rfl, rfl, rfl, rfl,
    rfl, rfl⟩
  case line =>
    rw [← Tally.sampled_getLsbD s.tally levels hk]
    refine ⟨rfl, fun _ hrep => ?moved, Tally.latchedAfter_getLsbD_of_not_change hk⟩
    case moved => exact (Tally.latchedAfter_getLsbD s.tally levels hk).trans (if_pos hrep)

end Sys2Proof.Machine
end

section
/-! Chapter 10, FAULT_GET and FAULT_CLEAR (R188, R189): how their bodies are read, and what each answers and leaves. -/

namespace Sys2Proof.Machine

/-! ### The body of FAULT_CLEAR -/

theorem faultClear?_unseen : faultClear? [0] = some none := rfl

/-- A seen count is read when it is in the range of R189. -/
theorem faultClear?_seen (h l : Byte) :
    faultClear? [1, h, l] = (inRange 1 65535 (get16 h l).toNat).bind fun n => some (some n) := rfl

theorem faultClear?_of_ne_zero {h l : Byte} (hne : get16 h l ≠ 0) :
    faultClear? [1, h, l] = some (some (get16 h l).toNat) := by
  have hlo : 1 ≤ (get16 h l).toNat :=
    Nat.one_le_iff_ne_zero.2 fun h0 => hne (BitVec.eq_of_toNat_eq h0)
  have hhi : (get16 h l).toNat ≤ 65535 := Nat.le_of_lt_succ (get16 h l).isLt
  rw [faultClear?_seen, inRange, if_pos ⟨hlo, hhi⟩, Option.bind_some]

/-- A seen count of 0 is below the range of R189. -/
theorem faultClear?_of_zero {h l : Byte} (h0 : get16 h l = 0) : faultClear? [1, h, l] = none := by
  rw [faultClear?_seen, h0]
  rfl

/-! ### FAULT_GET taken -/

theorem exec_faultGet (s : State) : exec .faultGet s = execFaultGet s := rfl

/-- FAULT_GET changes nothing but the request places and the replies (R188). -/
theorem exec_faultGet_of_empty {q : Request} {rest : List Request} {s : State} (hq : Waits .faultGet q rest s)
    (hbody : q.body = []) : exec .faultGet s = .next ((s.taken rest).replied q .ok s.link.faultReply) := by
  have hfields : noFields? q.body = some () := by rw [hbody]; rfl
  rw [exec_faultGet, execFaultGet, takeWith_some hq hfields]
  rfl

/-! ### FAULT_CLEAR taken -/

theorem exec_faultClear (s : State) : exec .faultClear s = execFaultClear s := rfl

theorem State.clearFaults_taken (rest : List Request) (s : State) :
    (s.taken rest).clearFaults = s.setLink { s.link with waiting := rest, captured := none, faultCount := 0 } := rfl

/-- Without a seen count the record is emptied whatever it holds (R189). -/
theorem exec_faultClear_of_unseen {q : Request} {rest : List Request} {s : State} (hq : Waits .faultClear q rest s)
    (hseen : faultClear? q.body = some none) :
    exec .faultClear s = .next ((s.taken rest).clearFaults.replied q .ok .empty) := by
  rw [exec_faultClear, execFaultClear, takeWith_some hq hseen]
  rfl

/-- A seen count empties the record when it is the fault count, and is otherwise refused with what the record holds (R189). -/
theorem exec_faultClear_of_seen {q : Request} {rest : List Request} {s : State} {n : Nat}
    (hq : Waits .faultClear q rest s) (hseen : faultClear? q.body = some (some n)) :
    exec .faultClear s = .next
      (if n = s.link.faultCount then (s.taken rest).clearFaults.replied q .ok .empty
       else (s.taken rest).replied q .state s.link.faultReply) := by
  rw [exec_faultClear, execFaultClear, takeWith_some hq hseen]
  exact congrArg _ (apply_ite State.ended _ _ _)

theorem exec_faultClear_of_unreadable {q : Request} {rest : List Request} {s : State} (hq : Waits .faultClear q rest s)
    (hseen : faultClear? q.body = none) :
    exec .faultClear s = .next ((s.taken rest).replied q .badArg .empty) := by
  rw [exec_faultClear, execFaultClear, takeWith_none hq hseen]

/-- Settles O55: FAULT_GET, then FAULT_CLEAR by whether it gives a seen count, and a seen count by whether it is 0, the fault
count held, or another. -/
theorem faultRecordIsReadAndCleared : Obligations.FaultRecordIsReadAndCleared := by
  unfold Obligations.FaultRecordIsReadAndCleared
  refine ⟨fun q rest s hq hbody => exec_faultGet_of_empty hq hbody, fun q rest s hq => ⟨fun hbody => ?unseen,
    fun h l hbody => ⟨fun h0 => ?zero, fun hne heq => ?held, fun hne hother => ?other⟩⟩⟩
  case unseen =>
    rw [← State.clearFaults_taken]
    exact exec_faultClear_of_unseen hq (by rw [hbody, faultClear?_unseen])
  case zero => exact exec_faultClear_of_unreadable hq (by rw [hbody, faultClear?_of_zero h0])
  case held =>
    have hseen : faultClear? q.body = some (some (get16 h l).toNat) := by rw [hbody, faultClear?_of_ne_zero hne]
    rw [← State.clearFaults_taken]
    exact (exec_faultClear_of_seen hq hseen).trans (congrArg _ (if_pos heq))
  case other =>
    have hseen : faultClear? q.body = some (some (get16 h l).toNat) := by rw [hbody, faultClear?_of_ne_zero hne]
    exact (exec_faultClear_of_seen hq hseen).trans (congrArg _ (if_neg hother))

end Sys2Proof.Machine
end

section
/-! Every command and every step, chapters 0 and 95: what a command leaves as it was, and the invariants that every step
keeps. Each is a case of `Kept`, which says once what a command may do. -/

namespace Sys2Proof.Machine

/-! ### One component of the state -/

/-- A component of the state that no internal update changes. -/
structure Unmoved {α : Type} (f : State → α) : Prop where
  chain : ∀ s x, f { s with chains := x } = f s
  asm : ∀ s x, f { s with asm := x } = f s
  intake : ∀ s x, f { s with intake := x } = f s
  pool : ∀ s p, p.memory = s.pool.memory → f { s with pool := p } = f s
  stills : ∀ s x, f { s with stills := x } = f s
  cues : ∀ s x, f { s with cues := x } = f s
  mail : ∀ s x, f { s with mail := x } = f s
  link : ∀ s x, f { s with link := x } = f s

theorem Unmoved.closed {α : Type} {f : State → α} (h : Unmoved f) (v : α) : Closed (f · = v) where
  chain _ _ _ hs _ := (h.chain _ _).trans hs
  asm _ _ _ hs _ := (h.asm _ _).trans hs
  intake _ _ hs := (h.intake _ _).trans hs
  pool _ _ hs hm := (h.pool _ _ hm).trans hs
  stills _ _ hs _ := (h.stills _ _).trans hs
  cues _ _ hs _ := (h.cues _ _).trans hs
  mail _ _ hs := (h.mail _ _).trans hs
  offer _ _ _ hs := (h.link _ _).trans hs
  fault _ _ hs := (h.link _ _).trans hs
  undefer _ _ hs := (h.link _ _).trans hs

/-- A component that the commands of `own` alone may change is kept by every other command. -/
theorem Unmoved.kept {α : Type} {f : State → α} (h : Unmoved f) {own : Part → Prop} (v : α)
    (href : own .ref → ∀ s x, f { s with ref := x } = f s) (hscene : own .scene → ∀ s x, f { s with scene := x } = f s)
    (htally : own .tally → ∀ s x, f { s with tally := x } = f s)
    (hmemory : own .memory → ∀ s x, f { s with pool := x } = f s)
    (hrestart : own .all → ∀ s m k r, f (s.restart m k r) = f s) : Kept own (f · = v) (f · = v) where
  inner := h.closed v
  spare := h.closed v
  take _ _ _ hs _ := (h.link _ _).trans hs
  answer _ _ _ _ hs := (h.link _ _).trans hs
  defer _ _ hs := (h.link _ _).trans hs
  link _ _ hs _ := (h.link _ _).trans hs
  settings _ _ hs _ := (h.link _ _).trans hs
  ref ho _ _ hs _ := (href ho _ _).trans hs
  refSpare ho _ _ hs _ := (href ho _ _).trans hs
  scene ho _ _ hs _ := (hscene ho _ _).trans hs
  sceneSpare ho _ _ hs _ := (hscene ho _ _).trans hs
  tally ho _ _ hs _ := (htally ho _ _).trans hs
  tallySpare ho _ _ hs _ := (htally ho _ _).trans hs
  memory ho _ _ hs _ := (hmemory ho _ _).trans hs
  restart ho _ _ _ _ hs := (hrestart ho _ _ _ _).trans hs

theorem unmoved_pending : Unmoved State.pending := by constructor <;> intros <;> rfl
theorem unmoved_ref : Unmoved State.ref := by constructor <;> intros <;> rfl
theorem unmoved_scene : Unmoved State.scene := by constructor <;> intros <;> rfl
theorem unmoved_tally : Unmoved State.tally := by constructor <;> intros <;> rfl

theorem unmoved_memory : Unmoved fun s => s.pool.memory where
  chain _ _ := rfl
  asm _ _ := rfl
  intake _ _ := rfl
  pool _ _ hm := hm
  stills _ _ := rfl
  cues _ _ := rfl
  mail _ _ := rfl
  link _ _ := rfl

/-- Settles O2: the waiting commands are a component that nothing moves. -/
theorem everyCommandGoesOn : Obligations.EveryCommandGoesOn := by
  unfold Obligations.EveryCommandGoesOn
  intro i s
  have hkept : Kept (fun _ => True) (State.pending · = s.pending) (State.pending · = s.pending) :=
    unmoved_pending.kept _ (fun _ _ _ => rfl) (fun _ _ _ => rfl) (fun _ _ _ => rfl) (fun _ _ _ => rfl)
      (fun _ _ _ _ _ => rfl)
  exact hkept.exec i (fun _ _ => trivial) rfl

/-! ### What only a unit's own commands change -/

/-- What a command answers has every property it is known to answer with. -/
theorem answersWith.of_next {P : State → Prop} {o : Out} (h : answersWith P o) {t : State} (ht : o = .next t) : P t := by
  obtain ⟨u, hu, hp⟩ := h
  rw [ht] at hu
  exact Host.Outcome.next.inj hu ▸ hp

/-- A component that only the commands of part `p` and the resets may change. -/
theorem Unmoved.eq_of_exec {α : Type} {f : State → α} (h : Unmoved f) {p : Part}
    (href : p ≠ .ref → ∀ s x, f { s with ref := x } = f s) (hscene : p ≠ .scene → ∀ s x, f { s with scene := x } = f s)
    (htally : p ≠ .tally → ∀ s x, f { s with tally := x } = f s)
    (hmemory : p ≠ .memory → ∀ s x, f { s with pool := x } = f s)
    {i : Instr} (hi : partOf i ≠ some p) (hreset : partOf i ≠ some .all) {s t : State} (ht : exec i s = .next t) :
    f t = f s := by
  have hkept : Kept (fun q => q ≠ p ∧ q ≠ .all) (f · = f s) (f · = f s) :=
    h.kept _ (fun ho => href ho.1.symm) (fun ho => hscene ho.1.symm) (fun ho => htally ho.1.symm)
      (fun ho => hmemory ho.1.symm) (fun ho => absurd rfl ho.2)
  refine (hkept.exec i (fun q hq => ⟨?_, ?_⟩) rfl).of_next ht
  · rintro rfl; exact hi hq
  · rintro rfl; exact hreset hq

theorem partOf_eq_all {i : Instr} (h : partOf i = some .all) : (∃ m, i = .pinReset m) ∨ ∃ m, i = .transmitDone m := by
  cases i with
  | pinReset m => exact .inl ⟨m, rfl⟩
  | transmitDone m => exact .inr ⟨m, rfl⟩
  | _ => cases h

/-- Settles O57: each of the four is a component that the commands of its own part alone may change. -/
theorem referenceSceneTallyAndMemoryChangeByTheirOwnCommands :
    Obligations.ReferenceSceneTallyAndMemoryChangeByTheirOwnCommands := by
  unfold Obligations.ReferenceSceneTallyAndMemoryChangeByTheirOwnCommands
  intro i s t ht resets
  have notReset (h : ¬ resets) : partOf i ≠ some .all := fun e => h (partOf_eq_all e)
  refine ⟨fun hr hi => ?ref, fun hr hi => ?scene, fun hr hi => ?tally, fun hr hi => ?memory⟩
  case ref =>
    exact unmoved_ref.eq_of_exec (p := .ref) (fun hp => absurd rfl hp) (fun _ _ _ => rfl) (fun _ _ _ => rfl)
      (fun _ _ _ => rfl) (fun e => by revert hi e; cases i <;> simp [partOf]) (notReset hr) ht
  case scene =>
    exact unmoved_scene.eq_of_exec (p := .scene) (fun _ _ _ => rfl) (fun hp => absurd rfl hp) (fun _ _ _ => rfl)
      (fun _ _ _ => rfl) (fun e => by revert hi e; cases i <;> simp [partOf]) (notReset hr) ht
  case tally =>
    exact unmoved_tally.eq_of_exec (p := .tally) (fun _ _ _ => rfl) (fun _ _ _ => rfl) (fun hp => absurd rfl hp)
      (fun _ _ _ => rfl) (fun e => by revert hi e; cases i <;> simp [partOf]) (notReset hr) ht
  case memory =>
    exact unmoved_memory.eq_of_exec (p := .memory) (fun _ _ _ => rfl) (fun _ _ _ => rfl) (fun _ _ _ => rfl)
      (fun hp => absurd rfl hp) (fun e => by revert hi e; cases i <;> simp [partOf]) (notReset hr) ht

/-! ### Steps -/

theorem step_of_nil {s : State} (h : s.pending = []) : step s = .next s := by
  unfold step
  rw [h]

theorem step_of_cons {s : State} {c : Instr} {rest : List Instr} (h : s.pending = c :: rest) :
    step s = exec c { s with pending := rest } := by
  unfold step
  rw [h]

/-- Settles O1: a step by whether a command waits. -/
theorem stepRunsTheFrontCommand : Obligations.StepRunsTheFrontCommand := by
  unfold Obligations.StepRunsTheFrontCommand
  exact ⟨fun _ _ _ => step_of_cons rfl, fun _ hs => step_of_nil hs⟩

/-- A property that every command keeps, and that does not look at the waiting commands, is kept by every step. -/
theorem Kept.step {P Spare : State → Prop} (h : Kept (fun _ => True) P Spare)
    (hpending : ∀ s l, P s → P { s with pending := l }) {s t : State} (hs : P s) (ht : step s = .next t) : P t := by
  cases hp : s.pending with
  | nil =>
    rw [step_of_nil hp] at ht
    exact Host.Outcome.next.inj ht ▸ hs
  | cons c rest =>
    rw [step_of_cons hp] at ht
    exact (h.exec c (fun _ _ => trivial) (hpending s rest hs)).of_next ht

/-! ### The segment memory -/

theorem closed_memoryWf : Closed fun s => Memory.wf s.pool.memory where
  chain _ _ _ hs _ := hs
  asm _ _ _ hs _ := hs
  intake _ _ hs := hs
  pool _ _ hs hm := hm.symm ▸ hs
  stills _ _ hs _ := hs
  cues _ _ hs _ := hs
  mail _ _ hs := hs
  offer _ _ _ hs := hs
  fault _ _ hs := hs
  undefer _ _ hs := hs

theorem kept_memoryWf : Kept (fun _ => True) (fun s => Memory.wf s.pool.memory) (fun s => Memory.wf s.pool.memory) where
  inner := closed_memoryWf
  spare := closed_memoryWf
  take _ _ _ hs _ := hs
  answer _ _ _ _ hs := hs
  defer _ _ hs := hs
  link _ _ hs _ := hs
  settings _ _ hs _ := hs
  ref _ _ _ hs _ := hs
  refSpare _ _ _ hs _ := hs
  scene _ _ _ hs _ := hs
  sceneSpare _ _ _ hs _ := hs
  tally _ _ _ hs _ := hs
  tallySpare _ _ _ hs _ := hs
  memory _ _ _ hs hm := hm hs
  restart _ _ _ _ _ _ := Memory.wf_nil

/-- Settles O58: stores and scrub tests write bytes one by one, a reset lists none, and nothing else touches the memory. -/
theorem stepKeepsTheMemoryCanonical : Obligations.StepKeepsTheMemoryCanonical := by
  unfold Obligations.StepKeepsTheMemoryCanonical
  exact fun _ _ hs ht => kept_memoryWf.step (fun _ _ h => h) hs ht

/-! ### The bounds of the tables, queues and records -/

/-- The bounds of every block, with `spare` request places free at least. -/
structure State.Bounded (spare : Nat) (s : State) : Prop where
  ref : s.ref.wf
  chains : ∀ c, (s.chains.get c).wf
  asm : ∀ c, (s.asm.get c).wf
  stills : s.stills.wf
  scene : s.scene.wf
  tally : s.tally.wf
  cues : s.cues.wf
  link : s.link.wfWith spare

theorem Four.forall_get_set {α : Type} {p : α → Prop} {q : Four α} (h : ∀ c, p (q.get c)) {c : ChainId} {x : α}
    (hx : p (q.get c) → p x) : ∀ d, p ((q.set c x).get d) := by
  intro d
  by_cases hd : d = c
  · rw [hd, Four.get_set_same]
    exact hx (h c)
  · rw [Four.get_set_ne q hd]
    exact h d

theorem closed_bounded (spare : Nat) : Closed (State.Bounded spare) where
  chain _ _ _ hs hx := { hs with chains := Four.forall_get_set hs.chains hx }
  asm _ _ _ hs hx := { hs with asm := Four.forall_get_set hs.asm hx }
  intake _ _ hs := { hs with }
  pool _ _ hs _ := { hs with }
  stills _ _ hs hx := { hs with stills := hx hs.stills }
  cues _ _ hs hx := { hs with cues := hx hs.cues }
  mail _ _ hs := { hs with }
  offer _ _ _ hs := { hs with link := Link.offer_wfWith hs.link _ _ }
  fault _ _ hs := { hs with link := Link.takeFault_wfWith hs.link _ }
  undefer _ _ hs := { hs with link := Link.undefer_wfWith hs.link _ }

/-! The blocks right after a reset. -/

theorem Chain.reset_wf : Chain.reset.wf :=
  ⟨List.length_replicate, queueWf_nil, nofun, nofun⟩

theorem Stills.reset_reserved : Stills.reset.reserved = 0 := by
  change ((List.replicate 480 StillSlot.empty).map StillSlot.reserved).sum = 0
  rw [List.map_replicate, List.sum_replicate]
  rfl

theorem Stills.reset_wf : Stills.reset.wf := by
  refine ⟨List.length_replicate, fun x hx => ?_, ?_⟩
  · rw [List.eq_of_mem_replicate hx]
    exact True.intro
  · rw [Stills.reset_reserved]
    exact Nat.zero_le _

theorem Scene.reset_wf : Scene.reset.wf := by
  refine ⟨List.length_replicate, List.length_replicate, fun g hg => ?_, List.length_replicate⟩
  rw [List.eq_of_mem_replicate hg]
  exact ⟨Nat.zero_le _, List.nodup_nil⟩

theorem Tally.reset_wf : Tally.reset.wf := ⟨List.length_replicate, rfl, rfl⟩

theorem Cues.reset_wf : Cues.reset.wf :=
  ⟨List.length_replicate, fun _ hl => nomatch List.eq_of_mem_replicate hl⟩

theorem Link.resetWith_wf (cause : ResetCause) (rate : Option Nat) : (Link.resetWith cause rate).wf :=
  ⟨Nat.le_add_left 1 31, Nat.zero_le 4, Nat.zero_le 1, ⟨nofun, nofun⟩⟩

theorem State.resetAt_bounded (m : Nat) (cause : ResetCause) (rate : Option Nat) :
    (State.resetAt m cause rate).Bounded 0 where
  ref := rfl
  chains c := by
    rw [show (State.resetAt m cause rate).chains = .all .reset from rfl, Four.get_all]
    exact Chain.reset_wf
  asm c := by
    rw [show (State.resetAt m cause rate).asm = .all .reset from rfl, Four.get_all]
    exact List.length_replicate
  stills := Stills.reset_wf
  scene := Scene.reset_wf
  tally := Tally.reset_wf
  cues := Cues.reset_wf
  link := Link.resetWith_wf cause rate

theorem State.Bounded.with_pending {spare : Nat} {s : State} (h : s.Bounded spare) (l : List Instr) :
    State.Bounded spare { s with pending := l } := { h with }

theorem kept_bounded : Kept (fun _ => True) (State.Bounded 0) (State.Bounded 1) where
  inner := closed_bounded 0
  spare := closed_bounded 1
  take _ _ _ hs hq := { hs with link := Link.taken_wf hs.link hq }
  answer _ _ _ _ hs := { hs with link := Link.answer_wf hs.link _ _ _ }
  defer _ _ hs := { hs with link := Link.defer_wf hs.link _ }
  link _ _ hs hx := { hs with link := hx hs.link }
  settings _ _ hs hx := { hs with link := hx hs.link }
  ref _ _ _ hs hx := { hs with ref := hx hs.ref }
  refSpare _ _ _ hs hx := { hs with ref := hx hs.ref }
  scene _ _ _ hs hx := { hs with scene := hx hs.scene }
  sceneSpare _ _ _ hs hx := { hs with scene := hx hs.scene }
  tally _ _ _ hs hx := { hs with tally := hx hs.tally }
  tallySpare _ _ _ hs hx := { hs with tally := hx hs.tally }
  memory _ _ _ hs _ := { hs with }
  restart _ _ _ _ _ _ := (State.resetAt_bounded _ _ _).with_pending _

/-- Settles O59: every named update keeps the bounds, one request place being spare while a request is taken. -/
theorem stepKeepsTheBounds : Obligations.StepKeepsTheBounds := by
  unfold Obligations.StepKeepsTheBounds
  intro Inv s t hs ht
  obtain ⟨href, hchains, hasm, hstills, hscene, htally, hcues, hlink⟩ := hs
  have h := kept_bounded.step (fun _ l h => h.with_pending l)
    ⟨href, hchains, hasm, hstills, hscene, htally, hcues, hlink⟩ ht
  exact ⟨h.ref, h.chains, h.asm, h.stills, h.scene, h.tally, h.cues, h.link⟩

/-- Settles O60: block by block. -/
theorem resetHoldsTheInvariants : Obligations.ResetHoldsTheInvariants := by
  unfold Obligations.ResetHoldsTheInvariants
  have h := State.resetAt_bounded 0 .pin none
  exact ⟨Memory.reset_wf, h.ref, h.chains, h.asm, h.stills, h.scene, h.tally, h.cues, h.link⟩

end Sys2Proof.Machine
end

section
/-! Resets (R18, R40, R65, R87, R106, R114, R133, R145, R174, R185, R190, R191): the values they give, and how they come
about. -/

namespace Sys2Proof.Machine

/-! ### Reading the tables right after a reset -/

theorem getD_replicate_self {α : Type} (n i : Nat) (x : α) : (List.replicate n x).getD i x = x := by
  rw [List.getD_eq_getElem?_getD, List.getElem?_replicate]
  split <;> rfl

theorem Chain.reset_node (a : Nat) : Chain.reset.node a = none := by
  unfold Chain.node
  split
  case isTrue => exact getD_replicate_self 30 (a - 1) none
  case isFalse => rfl

theorem AsmChain.reset_heldAt (a : Nat) : AsmChain.reset.heldAt a = none := getD_replicate_self 30 (a - 1) none

theorem Stills.reset_slot (r : StillRef) : Stills.reset.slot r = .empty := 
  getD_replicate_self 480 r.index StillSlot.empty

theorem Scene.reset_entry (r : NodeRef) : Scene.reset.entry r = .reset := 
  getD_replicate_self 120 r.index SceneEntry.reset

theorem Scene.reset_claim (k : Nat) : Scene.reset.claim k = none := getD_replicate_self 16 k none

theorem Pool.reset_free :
    Pool.reset.free = (List.range 512).map fun b => { buffer := b, reservedBy := none } := by
  simp only [Pool.reset]

theorem Pool.reset_free_buffers : Pool.reset.free.map (fun f => f.buffer) = List.range 512 := by
  rw [Pool.reset_free, List.map_map]
  exact List.map_id _

/-- Of buffers that nobody has reserved, every one counts as free. -/
theorem Pool.freeCount_of_unreserved {p : Pool} (h : ∀ f ∈ p.free, f.reservedBy = none) :
    p.freeCount = (p.free.map fun f => f.buffer).length := by
  rw [Pool.freeCount, List.filter_eq_self.2 fun f hf => by rw [h f hf]; rfl, List.length_map]

theorem Pool.reset_freeCount : Pool.reset.freeCount = 512 := by
  have hfree : ∀ f ∈ Pool.reset.free, f.reservedBy = none := by
    intro f hf
    rw [Pool.reset_free] at hf
    obtain ⟨b, _, rfl⟩ := List.mem_map.1 hf
    rfl
  calc Pool.reset.freeCount
      _ = (Pool.reset.free.map fun f => f.buffer).length := Pool.freeCount_of_unreserved hfree
      _ = (List.range 512).length := congrArg List.length Pool.reset_free_buffers
      _ = 512 := List.length_range

theorem Stills.reset_unreserved : Stills.reset.unreserved = 1048576 := by
  rw [Stills.unreserved, Stills.reset_reserved]
  rfl

/-- Settles O4, by the blocks of the three clauses. -/
theorem resetValuesOfTheBlocks : Obligations.ResetValuesOfTheBlocks := by
  unfold Obligations.ResetValuesOfTheBlocks
  refine ⟨fun m k rate => ?referenceAndChains, fun m k rate => ?segmentsAndStills, fun m k rate => ?lookAndLink⟩
  case referenceAndChains =>
    refine ⟨rfl, rfl, rfl, rfl, rfl, rfl, rfl, rfl, fun x => by cases x <;> rfl, fun c => ?_⟩
    have hc : (State.resetAt m k rate).chains.get c = .reset := Four.get_all _ c
    rw [hc]
    exact ⟨rfl, rfl, rfl, rfl, rfl, rfl, rfl, rfl, rfl, rfl, rfl, rfl, Chain.reset_node, rfl, rfl, rfl, rfl⟩
  case segmentsAndStills =>
    refine ⟨rfl, rfl, rfl, rfl, rfl, rfl, Pool.reset_free_buffers, Pool.reset_freeCount, rfl, rfl, rfl, rfl, rfl, rfl, rfl,
      rfl, rfl, rfl, rfl, fun c => ?_, Stills.reset_slot, rfl, Stills.reset_reserved, Stills.reset_unreserved⟩
    have hc : (State.resetAt m k rate).asm.get c = .reset := Four.get_all _ c
    rw [hc]
    exact ⟨rfl, AsmChain.reset_heldAt, rfl, rfl, rfl, rfl⟩
  case lookAndLink =>
    exact ⟨Scene.reset_entry, rfl, Four.get_all _, Scene.reset_claim, rfl, rfl, rfl, rfl,
      fun j => getD_replicate_self 8 j none, Three.get_all _, rfl, rfl, rfl, rfl, rfl, rfl, rfl, rfl, rfl, rfl, rfl, rfl⟩

/-! ### PIN_RESET and RESET -/

theorem noFields?_nil : noFields? [] = some () := rfl

theorem exec_pinReset (m : Nat) (s : State) : exec (.pinReset m) s = .next (s.restart m .pin none).ended := rfl

/-- After a reset of cause PIN no line rate is known, so nothing is sent (R177, R191). -/
theorem State.ended_of_norate {s : State} (h : s.link.rate = none) : s.ended = s := by
  unfold State.ended
  rw [Link.pump_norate h]

theorem exec_reset (s : State) : exec .reset s = execReset s := rfl

/-- Once RESET has been taken, no request is (R190). -/
theorem takeRequest_of_resetting {s : State} (h : s.link.resetting = true) (row : ReqRow)
    (take : Request → State → State) : s.takeRequest row take = .next s := by
  rcases takeRequest_or row take s with e | ⟨q, rest, ⟨_, hr, _⟩, _⟩
  · exact e
  · rw [h] at hr
    cases hr

theorem State.placeRequest_of_resetting {s : State} (h : s.link.resetting = true) (q : Request) :
    s.placeRequest q = s := if_pos h

/-- Once RESET has been taken, no report is sent (R190). -/
theorem Link.pump_of_resetting {l : Link} (h : l.resetting = true) (hready : l.ready = []) : l.pump = l := by
  unfold Link.pump
  split
  · rw [hready]
    exact if_pos h
  · rfl

theorem exec_transmitDone (m : Nat) (s : State) : exec (.transmitDone m) s = execTransmitDone m s := rfl

theorem Reply.startsReset_of {r : Reply} (hk : r.kind = 0x1E) (hc : r.code = .ok) (hr : r.refusal = false) :
    r.startsReset = true := by
  simp [Reply.startsReset, hk, hc, hr]

theorem exec_transmitDone_of_reset {s : State} {r : Reply} (hx : s.link.tx = some (.reply r))
    (hr : r.startsReset = true) (m : Nat) :
    exec (.transmitDone m) s = .next (s.restart m .request s.link.rate).ended := by
  rw [exec_transmitDone, execTransmitDone, hx]
  exact if_pos hr

/-- Settles O3: PIN_RESET, the RESET request, what holds once it has been taken, and the end of its reply. -/
theorem resetsGiveResetValues : Obligations.ResetsGiveResetValues := by
  unfold Obligations.ResetsGiveResetValues
  refine ⟨fun m s => ?pin, fun q rest s hq hbody => ?request, fun s row take h => takeRequest_of_resetting h row take,
    fun s q h => State.placeRequest_of_resetting h q, fun l h hready => Link.pump_of_resetting h hready,
    fun m s r hx hk hc hr => exec_transmitDone_of_reset hx (Reply.startsReset_of hk hc hr) m⟩
  case pin => exact (exec_pinReset m s).trans (congrArg _ (State.ended_of_norate rfl))
  case request =>
    rw [exec_reset, execReset, takeWith_some hq (by rw [hbody, noFields?_nil])]
    rfl

end Sys2Proof.Machine
end

section
/-! Chapter 1, the Reference Unit: how an input takes an edge (R2), what moves the tick source (R6 to R9), the timer's tick
(R10 to R12) and REF_SET (R14, R15). -/

namespace Sys2Proof.Machine

/-! ### Reading the inputs after an update -/

@[simp] theorem otherInput_otherInput (x : RefInput) : otherInput (otherInput x) = x := by cases x <;> rfl

theorem otherInput_ne (x : RefInput) : otherInput x ≠ x := by cases x <;> exact nofun

theorem RefInput.eq_or_eq_other (x y : RefInput) : y = x ∨ y = otherInput x := by
  cases x <;> cases y <;> simp [otherInput]

@[simp] theorem RefUnit.input_setInput_same (r : RefUnit) (x : RefInput) (i : InputRec) :
    (r.setInput x i).input x = i := by cases x <;> rfl

@[simp] theorem RefUnit.input_setInput_other (r : RefUnit) (x : RefInput) (i : InputRec) :
    (r.setInput x i).input (otherInput x) = r.input (otherInput x) := by cases x <;> rfl

@[simp] theorem RefUnit.setInput_mode (r : RefUnit) (x : RefInput) (i : InputRec) : (r.setInput x i).mode = r.mode := by
  cases x <;> rfl
@[simp] theorem RefUnit.setInput_rate (r : RefUnit) (x : RefInput) (i : InputRec) : (r.setInput x i).rate = r.rate := by
  cases x <;> rfl
@[simp] theorem RefUnit.setInput_source (r : RefUnit) (x : RefInput) (i : InputRec) :
    (r.setInput x i).source = r.source := by cases x <;> rfl
@[simp] theorem RefUnit.setInput_switch (r : RefUnit) (x : RefInput) (i : InputRec) :
    (r.setInput x i).switch = r.switch := by cases x <;> rfl
@[simp] theorem RefUnit.setInput_counter (r : RefUnit) (x : RefInput) (i : InputRec) :
    (r.setInput x i).counter = r.counter := by cases x <;> rfl
@[simp] theorem RefUnit.setInput_lastTick (r : RefUnit) (x : RefInput) (i : InputRec) :
    (r.setInput x i).lastTick = r.lastTick := by cases x <;> rfl
@[simp] theorem RefUnit.setInput_resetEnd (r : RefUnit) (x : RefInput) (i : InputRec) :
    (r.setInput x i).resetEnd = r.resetEnd := by cases x <;> rfl

/-- Two units with the same two records have the same record of each input. -/
theorem RefUnit.input_congr {r r' : RefUnit} (ha : r'.a = r.a) (hb : r'.b = r.b) (x : RefInput) :
    r'.input x = r.input x := by
  cases x
  · exact ha
  · exact hb

/-! ### An edge taken by its record (R2) -/

theorem withinTolerance_iff {period interval : Nat} :
    withinTolerance period interval = true ↔ 995 * period ≤ 1000 * interval ∧ 1000 * interval ≤ 1005 * period := by
  simp [withinTolerance]

/-- The record of an input that takes an edge as an ABSENT one does. -/
def InputRec.fresh (moment : Nat) : InputRec := { state := .unstable, run := 1, lastEdge := some moment }

theorem InputRec.edge_of_absent {i : InputRec} (h : i.state = .absent) (period moment : Nat) :
    i.edge period moment = .fresh moment := by
  unfold InputRec.edge
  rw [h]
  rfl

theorem InputRec.edge_of_unstable {i : InputRec} {t : Nat} (h : i.state = .unstable) (hl : i.lastEdge = some t)
    (period moment : Nat) :
    i.edge period moment =
      if i.run ≠ 0 ∧ withinTolerance period (moment - t) = true then
        { state := if 8 ≤ i.run + 1 then .good else .unstable, run := i.run + 1, lastEdge := some moment }
      else .fresh moment := by
  unfold InputRec.edge
  rw [h, hl]
  dsimp only
  by_cases h0 : i.run = 0 <;> simp [h0, InputRec.fresh]

theorem InputRec.edge_of_good {i : InputRec} {t : Nat} (h : i.state = .good) (hl : i.lastEdge = some t)
    (period moment : Nat) :
    i.edge period moment =
      if withinTolerance period (moment - t) = true then { i with lastEdge := some moment } else .fresh moment := by
  unfold InputRec.edge
  rw [h, hl]
  rfl

theorem InputRec.edge_of_seventh {i : InputRec} {period moment t : Nat}
    (h : i = { state := .unstable, run := 7, lastEdge := some t }) (hw : withinTolerance period (moment - t) = true) :
    (i.edge period moment).state = .good := by
  subst h
  exact congrArg InputRec.state ((InputRec.edge_of_unstable rfl rfl _ _).trans (if_pos ⟨nofun, hw⟩))

theorem State.takeEdge_ref (x : RefInput) (m : Nat) (s : State) :
    (s.takeEdge x m).ref = { s.ref.setInput x ((s.ref.input x).edge s.ref.period m) with now := m } := rfl

theorem State.takeEdge_input_same (x : RefInput) (m : Nat) (s : State) :
    (s.takeEdge x m).ref.input x = (s.ref.input x).edge s.ref.period m :=
  (RefUnit.input_congr rfl rfl x).trans (RefUnit.input_setInput_same _ _ _)

theorem State.takeEdge_input_other (x : RefInput) (m : Nat) (s : State) :
    (s.takeEdge x m).ref.input (otherInput x) = s.ref.input (otherInput x) :=
  (RefUnit.input_congr rfl rfl _).trans (RefUnit.input_setInput_other _ _ _)

@[simp] theorem State.takeEdge_source (x : RefInput) (m : Nat) (s : State) :
    (s.takeEdge x m).ref.source = s.ref.source := RefUnit.setInput_source _ _ _
@[simp] theorem State.takeEdge_switch (x : RefInput) (m : Nat) (s : State) :
    (s.takeEdge x m).ref.switch = s.ref.switch := RefUnit.setInput_switch _ _ _
@[simp] theorem State.takeEdge_mode (x : RefInput) (m : Nat) (s : State) :
    (s.takeEdge x m).ref.mode = s.ref.mode := RefUnit.setInput_mode _ _ _
@[simp] theorem State.takeEdge_period (x : RefInput) (m : Nat) (s : State) :
    (s.takeEdge x m).ref.period = s.ref.period := congrArg FrameRate.period (RefUnit.setInput_rate _ _ _)

/-! ### What moving the tick source leaves as it was -/

/-- `t` is `s` but for what the choice of the tick source may change: source, switch, timer, ticks, and the Control Link. -/
structure SourceMoved (s t : State) : Prop where
  a : t.ref.a = s.ref.a
  b : t.ref.b = s.ref.b
  mode : t.ref.mode = s.ref.mode
  rate : t.ref.rate = s.ref.rate
  chains : t.chains = s.chains
  intake : t.intake = s.intake
  pool : t.pool = s.pool
  asm : t.asm = s.asm
  stills : t.stills = s.stills
  scene : t.scene = s.scene
  tally : t.tally = s.tally
  cues : t.cues = s.cues
  mail : t.mail = { s.mail with ticks := t.mail.ticks }

namespace SourceMoved

theorem refl (s : State) : SourceMoved s s := ⟨rfl, rfl, rfl, rfl, rfl, rfl, rfl, rfl, rfl, rfl, rfl, rfl, rfl⟩

theorem trans {s t u : State} (h : SourceMoved s t) (k : SourceMoved t u) : SourceMoved s u where
  a := k.a.trans h.a
  b := k.b.trans h.b
  mode := k.mode.trans h.mode
  rate := k.rate.trans h.rate
  chains := k.chains.trans h.chains
  intake := k.intake.trans h.intake
  pool := k.pool.trans h.pool
  asm := k.asm.trans h.asm
  stills := k.stills.trans h.stills
  scene := k.scene.trans h.scene
  tally := k.tally.trans h.tally
  cues := k.cues.trans h.cues
  mail := k.mail.trans (by rw [h.mail])

theorem input {s t : State} (h : SourceMoved s t) (x : RefInput) : t.ref.input x = s.ref.input x :=
  RefUnit.input_congr h.a h.b x

theorem refReport (k : RefCause) (s : State) : SourceMoved s (s.refReport k) :=
  ⟨rfl, rfl, rfl, rfl, rfl, rfl, rfl, rfl, rfl, rfl, rfl, rfl, rfl⟩

theorem raise (f : PartFault) (src : FaultSource) (n : Option NodeRef) (s : State) : SourceMoved s (s.raise f src n) :=
  ⟨rfl, rfl, rfl, rfl, rfl, rfl, rfl, rfl, rfl, rfl, rfl, rfl, rfl⟩

theorem ended (s : State) : SourceMoved s s.ended :=
  ⟨rfl, rfl, rfl, rfl, rfl, rfl, rfl, rfl, rfl, rfl, rfl, rfl, rfl⟩

theorem candidate (m : Nat) (s : State) : SourceMoved s (s.candidate m) := by
  cases hm : s.ref.suppresses m with
  | true => rw [State.candidate_of_suppressed hm]; exact .refl s
  | false =>
    rw [State.candidate_of_delivered hm]
    exact ⟨rfl, rfl, rfl, rfl, rfl, rfl, rfl, rfl, rfl, rfl, rfl, rfl, rfl⟩

theorem enterHoldover (m : Nat) (s : State) : SourceMoved s (s.enterHoldover m) :=
  ⟨rfl, rfl, rfl, rfl, rfl, rfl, rfl, rfl, rfl, rfl, rfl, rfl, rfl⟩

/-- A change of source, switch and timer alone. -/
theorem withSource (src : TickSource) (sw : Option RefInput) (timer : Option Nat) (s : State) :
    SourceMoved s { s with ref := { s.ref with source := src, switch := sw, timer := timer } } :=
  ⟨rfl, rfl, rfl, rfl, rfl, rfl, rfl, rfl, rfl, rfl, rfl, rfl, rfl⟩

theorem lockAt (x : RefInput) (m : Nat) (s : State) : SourceMoved s (s.lockAt x m) :=
  ((withSource (.locked x) none none s).trans (refReport _ _)).trans (candidate m _)

theorem lockLost (x : RefInput) (k : LossManner) (m : Nat) (s : State) : SourceMoved s (s.lockLost x k m) := by
  have hlost : SourceMoved s { s.raise (.refLost x k) .reference none with ref := { s.ref with switch := none } } :=
    (raise (.refLost x k) .reference none s).trans (withSource s.ref.source none s.ref.timer _)
  unfold State.lockLost
  dsimp only
  split
  · exact (hlost.trans (withSource (.locked (otherInput x)) none s.ref.timer _)).trans (refReport .source _)
  · exact hlost.trans (enterHoldover m _)

theorem leftGood (x : RefInput) (k : LossManner) (m : Nat) (s : State) : SourceMoved s (s.leftGood x k m) := by
  have hcleared : SourceMoved s
      (if s.ref.switch = some x then { s with ref := { s.ref with switch := none } } else s) := by
    split
    · exact withSource s.ref.source none s.ref.timer s
    · exact .refl s
  unfold State.leftGood
  dsimp only
  generalize (if s.ref.switch = some x then { s with ref := { s.ref with switch := none } } else s) = t at hcleared ⊢
  split
  · exact hcleared.trans (lockLost x k m t)
  · exact hcleared

theorem goodEdge (x : RefInput) (was : InputState) (m : Nat) (s : State) : SourceMoved s (s.goodEdge x was m) := by
  unfold State.goodEdge
  split
  · split
    · exact lockAt x m s
    · split
      · exact candidate m s
      · exact .refl s
  · split
    · exact .refl s
    all_goals
      split
      · exact lockAt x m s
      · exact .refl s

theorem settleEdge (x : RefInput) (was : InputState) (m : Nat) (s : State) : SourceMoved s (s.settleEdge x was m) := by
  unfold State.settleEdge
  split
  · exact goodEdge x was m s
  · split
    · exact leftGood x .unstable m s
    · exact .refl s

theorem reportInput (x : RefInput) (was : InputState) (s : State) : SourceMoved s (s.reportInput x was) := by
  unfold State.reportInput
  split
  · exact .refl s
  · exact refReport _ s

end SourceMoved

/-! ### REF_EDGE of one input -/

theorem exec_refEdge (x : RefInput) (m : Nat) (both : Bool) (s : State) :
    exec (.refEdge x m both) s =
      .next (if both then s.refEdges x (s.ref.at_ m) else s.refEdge x (s.ref.at_ m)).ended := rfl

theorem exec_refEdge_single (x : RefInput) (m : Nat) (s : State) :
    exec (.refEdge x m false) s = .next (s.refEdge x (max s.ref.now m)).ended := rfl

theorem refEdge_sourceMoved (x : RefInput) (m : Nat) (s : State) :
    SourceMoved (s.takeEdge x m) (s.refEdge x m).ended :=
  ((SourceMoved.reportInput x _ _).trans (SourceMoved.settleEdge x _ m _)).trans (SourceMoved.ended _)

/-- Settles O5: behind the edge only the tick source moves, which touches no input record. -/
theorem edgeIsTakenByItsInput : Obligations.EdgeIsTakenByItsInput := by
  unfold Obligations.EdgeIsTakenByItsInput
  intro x m s at_ i within fresh
  have hmoved := refEdge_sourceMoved x at_ s
  have hsame : (s.refEdge x at_).ended.ref.input x = i.edge s.ref.period at_ :=
    (hmoved.input x).trans (State.takeEdge_input_same x at_ s)
  have hwithin (t : Nat) : withinTolerance s.ref.period (at_ - t) = true ↔ within t := withinTolerance_iff
  refine ⟨_, exec_refEdge_single x m s, (hmoved.input _).trans (State.takeEdge_input_other x at_ s), fun hi => ?absent,
    fun t hi ht hrun hw => ?counted, fun t hi ht hout => ?broken, fun t hi ht hw => ?kept, fun t hi ht hout => ?lost,
    hmoved.chains, hmoved.intake, hmoved.pool, hmoved.asm, hmoved.stills, hmoved.scene, hmoved.tally, hmoved.cues,
    hmoved.mail⟩
  case absent => exact hsame.trans (InputRec.edge_of_absent hi _ _)
  case counted =>
    exact hsame.trans ((InputRec.edge_of_unstable hi ht _ _).trans (if_pos ⟨hrun, (hwithin t).2 hw⟩))
  case broken =>
    have hnot : ¬ (i.run ≠ 0 ∧ withinTolerance s.ref.period (at_ - t) = true) := by
      rw [hwithin]
      tauto
    exact hsame.trans ((InputRec.edge_of_unstable hi ht _ _).trans (if_neg hnot))
  case kept => exact hsame.trans ((InputRec.edge_of_good hi ht _ _).trans (if_pos ((hwithin t).2 hw)))
  case lost => exact hsame.trans ((InputRec.edge_of_good hi ht _ _).trans (if_neg fun h => hout ((hwithin t).1 h)))

/-! ### What moves the tick source (R6 to R9), case by case -/

theorem State.takeEdge_eq {x : RefInput} {m : Nat} {s : State} {i : InputRec}
    (hi : (s.ref.input x).edge s.ref.period m = i) :
    s.takeEdge x m = { s with ref := { s.ref.setInput x i with now := m } } := by
  rw [State.takeEdge, hi]

theorem inputCause_eq (x : RefInput) : inputCause x = if x = .a then .inputA else .inputB := by cases x <;> rfl

theorem State.reportInput_of_change {x : RefInput} {was : InputState} {s : State} (h : was ≠ (s.ref.input x).state) :
    s.reportInput x was = s.refReport (inputCause x) := if_neg h

theorem State.reportInput_of_same {x : RefInput} {s : State} : s.reportInput x (s.ref.input x).state = s := if_pos rfl

theorem State.settleEdge_of_good {x : RefInput} {s : State} (h : (s.ref.input x).state = .good) (was : InputState)
    (m : Nat) : s.settleEdge x was m = s.goodEdge x was m := if_pos h

theorem State.settleEdge_of_left {x : RefInput} {s : State} (h : (s.ref.input x).state ≠ .good) (m : Nat) :
    s.settleEdge x .good m = s.leftGood x .unstable m := (if_neg h).trans (if_pos rfl)

theorem State.goodEdge_of_switch {x : RefInput} {s : State} (h : s.ref.switch = some x) (m : Nat) :
    s.goodEdge x .good m = s.lockAt x m := (if_pos rfl).trans (if_pos h)

theorem State.goodEdge_of_source {x : RefInput} {s : State} (hsw : s.ref.switch ≠ some x)
    (h : s.ref.source = .locked x) (m : Nat) : s.goodEdge x .good m = s.candidate m :=
  (if_pos rfl).trans ((if_neg hsw).trans (if_pos h))

theorem State.goodEdge_of_unlocked {x : RefInput} {was : InputState} {s : State} (hwas : was ≠ .good)
    (h : s.ref.source = .holdover ∨ s.ref.source = .freeRun) (m : Nat) :
    s.goodEdge x was m = if s.ref.firstGood = some x then s.lockAt x m else s := by
  unfold State.goodEdge
  rw [if_neg hwas]
  rcases h with h | h <;> rw [h]

theorem State.goodEdge_of_locked {x y : RefInput} {was : InputState} {s : State} (hwas : was ≠ .good)
    (h : s.ref.source = .locked y) (m : Nat) : s.goodEdge x was m = s := by
  unfold State.goodEdge
  rw [if_neg hwas, h]

/-- An input that leaves GOOD while the unit is not locked to it: a switch pending to it is cleared (R8). -/
theorem State.leftGood_of_other_source {x : RefInput} {s : State} (h : s.ref.source ≠ .locked x) (k : LossManner)
    (m : Nat) :
    s.leftGood x k m =
      { s with ref := { s.ref with switch := if s.ref.switch = some x then none else s.ref.switch } } := by
  unfold State.leftGood
  by_cases hsw : s.ref.switch = some x
  · simp only [hsw, if_true]
    exact if_neg h
  · simp only [if_neg hsw]
    exact if_neg h

/-- The locked input is lost: whatever switch was pending is cleared (R7, R8). -/
theorem State.leftGood_of_source {x : RefInput} {s : State} (h : s.ref.source = .locked x) (k : LossManner) (m : Nat) :
    s.leftGood x k m = s.lockLost x k m := by
  unfold State.leftGood
  by_cases hsw : s.ref.switch = some x
  · rw [if_pos hsw]
    exact if_pos h
  · rw [if_neg hsw]
    exact if_pos h

/-- Failover (R8): the other input is allowed and GOOD. -/
theorem State.lockLost_of_other {x : RefInput} {s : State} (hy : otherInput x ∈ s.ref.mode.list)
    (hg : (s.ref.input (otherInput x)).state = .good) (k : LossManner) (m : Nat) :
    s.lockLost x k m =
      ({ s.raise (.refLost x k) .reference none with
          ref := { s.ref with switch := none, source := .locked (otherInput x) } } : State).refReport .source := by
  refine if_pos ?_
  rw [Bool.and_eq_true, List.contains_iff_mem, decide_eq_true_iff]
  exact ⟨hy, hg⟩

/-- No other input is allowed and GOOD: HOLDOVER, its timer started (R7, R10). -/
theorem State.lockLost_of_none {x : RefInput} {s : State} (hsrc : s.ref.source = .locked x)
    (h : ¬ (otherInput x ∈ s.ref.mode.list ∧ (s.ref.input (otherInput x)).state = .good)) (k : LossManner) (m : Nat) :
    s.lockLost x k m =
      (({ s.raise (.refLost x k) .reference none with
          ref := { s.ref with switch := none, source := .holdover,
                              timer := some (max m (s.ref.lastTick.getD s.ref.resetEnd + s.ref.period)) } } :
          State).refReport .source).raise (.refHoldover (.locked x)) .reference none := by
  rw [← hsrc]
  refine if_neg fun hand => h ?_
  rwa [Bool.and_eq_true, List.contains_iff_mem, decide_eq_true_iff] at hand

@[simp] theorem State.candidate_source (m : Nat) (s : State) : (s.candidate m).ref.source = s.ref.source := by
  unfold State.candidate
  split <;> rfl
@[simp] theorem State.candidate_timer (m : Nat) (s : State) : (s.candidate m).ref.timer = s.ref.timer := by
  unfold State.candidate
  split <;> rfl
@[simp] theorem State.candidate_switch (m : Nat) (s : State) : (s.candidate m).ref.switch = s.ref.switch := by
  unfold State.candidate
  split <;> rfl

@[simp] theorem State.lockAt_source (x : RefInput) (m : Nat) (s : State) : (s.lockAt x m).ref.source = .locked x :=
  State.candidate_source m _
@[simp] theorem State.lockAt_timer (x : RefInput) (m : Nat) (s : State) : (s.lockAt x m).ref.timer = none :=
  State.candidate_timer m _
@[simp] theorem State.lockAt_switch (x : RefInput) (m : Nat) (s : State) : (s.lockAt x m).ref.switch = none :=
  State.candidate_switch m _

/-! ### Edges that move the source -/

theorem State.refEdge_eq (x : RefInput) (m : Nat) (s : State) :
    s.refEdge x m =
      ((s.takeEdge x m).reportInput x (s.ref.input x).state).settleEdge x (s.ref.input x).state m := rfl

/-- The first GOOD input once `x` is GOOD too: the mode's first input that is `x` or was GOOD. -/
theorem RefUnit.firstGood_of_input_good {r r' : RefUnit} {x : RefInput} (hmode : r'.mode = r.mode)
    (hx : (r'.input x).state = .good) (hy : r'.input (otherInput x) = r.input (otherInput x)) :
    r'.firstGood = r.mode.list.find? fun y => decide (y = x ∨ (r.input y).state = .good) := by
  unfold RefUnit.firstGood
  rw [hmode]
  refine congrArg (List.find? · r.mode.list) (funext fun y => decide_eq_decide.2 ?_)
  rcases RefInput.eq_or_eq_other x y with rfl | rfl
  · simp [hx]
  · simp [hy, otherInput_ne]

section Edge

variable {x : RefInput} {m t : Nat} {s : State}

/-- The eighth edge of the input that the mode prefers locks the unit (R6). -/
theorem State.refEdge_of_eighth (hstate : (s.ref.input x).state = .unstable) (hrun : (s.ref.input x).run = 7)
    (hlast : (s.ref.input x).lastEdge = some t) (hw : withinTolerance s.ref.period (m - t) = true)
    (hsrc : s.ref.source = .holdover ∨ s.ref.source = .freeRun)
    (hfirst : s.ref.mode.list.find? (fun y => decide (y = x ∨ (s.ref.input y).state = .good)) = some x) :
    s.refEdge x m =
      (({ s with ref := { s.ref.setInput x { state := .good, run := 8, lastEdge := some m } with now := m } } :
        State).refReport (inputCause x)).lockAt x m := by
  have hedge : (s.ref.input x).edge s.ref.period m = { state := .good, run := 8, lastEdge := some m } := by
    rw [InputRec.edge_of_unstable hstate hlast, hrun, if_pos ⟨by decide, hw⟩]
    rfl
  have hgood : ((s.takeEdge x m).ref.input x).state = .good := by rw [State.takeEdge_input_same, hedge]
  rw [State.refEdge_eq, hstate, State.reportInput_of_change (by rw [hgood]; exact nofun),
    State.settleEdge_of_good (by exact hgood), State.goodEdge_of_unlocked (by exact nofun) (by simpa using hsrc), if_pos]
  · rw [State.takeEdge_eq hedge]
  · exact (RefUnit.firstGood_of_input_good (State.takeEdge_mode x m s) hgood (State.takeEdge_input_other x m s)).trans
      hfirst

/-- An edge in time keeps a GOOD input GOOD, unreported. -/
theorem State.refEdge_of_good (hstate : (s.ref.input x).state = .good) (hlast : (s.ref.input x).lastEdge = some t)
    (hw : withinTolerance s.ref.period (m - t) = true) :
    s.refEdge x m = (s.takeEdge x m).goodEdge x .good m := by
  have hgood : ((s.takeEdge x m).ref.input x).state = .good := by
    rw [State.takeEdge_input_same, InputRec.edge_of_good hstate hlast, if_pos hw]
    exact hstate
  have hreport := State.reportInput_of_same (x := x) (s := s.takeEdge x m)
  rw [hgood] at hreport
  rw [State.refEdge_eq, hstate, hreport, State.settleEdge_of_good hgood]

/-- An edge out of tolerance makes a GOOD input UNSTABLE, which is reported ahead of what it means for the source. -/
theorem State.refEdge_of_left (hstate : (s.ref.input x).state = .good) (hlast : (s.ref.input x).lastEdge = some t)
    (hw : ¬ withinTolerance s.ref.period (m - t) = true) :
    s.refEdge x m =
      (({ s with ref := { s.ref.setInput x { state := .unstable, run := 1, lastEdge := some m } with now := m } } :
        State).refReport (inputCause x)).leftGood x .unstable m := by
  have hedge : (s.ref.input x).edge s.ref.period m = { state := .unstable, run := 1, lastEdge := some m } :=
    (InputRec.edge_of_good hstate hlast _ _).trans (if_neg hw)
  have hleft : ((s.takeEdge x m).ref.input x).state = .unstable := by rw [State.takeEdge_input_same, hedge]
  rw [State.refEdge_eq, hstate, State.reportInput_of_change (by rw [hleft]; exact nofun),
    State.settleEdge_of_left (by rw [State.refReport_ref, hleft]; exact nofun), State.takeEdge_eq hedge]

end Edge

/-! ### Two edges taken together (R6) -/

@[simp] theorem State.reportInput_ref (x : RefInput) (was : InputState) (s : State) :
    (s.reportInput x was).ref = s.ref := by
  unfold State.reportInput
  split <;> rfl

/-- Both records have taken their edges and are reported; the tick source is not looked at yet. -/
def State.takeBoth (x : RefInput) (m : Nat) (s : State) : State :=
  (((s.takeEdge x m).takeEdge (otherInput x) m).reportInput x (s.ref.input x).state).reportInput (otherInput x)
    (s.ref.input (otherInput x)).state

theorem exec_refEdge_both (x : RefInput) (m : Nat) (s : State) :
    exec (.refEdge x m true) s =
      .next (((s.takeBoth x (max s.ref.now m)).settleEdge x (s.ref.input x).state (max s.ref.now m)).settleEdge
        (otherInput x) (s.ref.input (otherInput x)).state (max s.ref.now m)).ended := rfl

theorem State.takeBoth_input (x : RefInput) (m : Nat) (s : State) (y : RefInput) :
    (s.takeBoth x m).ref.input y = (s.ref.input y).edge s.ref.period m := by
  unfold State.takeBoth
  rw [State.reportInput_ref, State.reportInput_ref]
  rcases RefInput.eq_or_eq_other x y with rfl | rfl
  · have hother := State.takeEdge_input_other (otherInput y) m (s.takeEdge y m)
    rw [otherInput_otherInput] at hother
    rw [hother, State.takeEdge_input_same]
  · rw [State.takeEdge_input_same, State.takeEdge_input_other, State.takeEdge_period]

@[simp] theorem State.takeBoth_mode (x : RefInput) (m : Nat) (s : State) :
    (s.takeBoth x m).ref.mode = s.ref.mode := by simp [State.takeBoth]
@[simp] theorem State.takeBoth_source (x : RefInput) (m : Nat) (s : State) :
    (s.takeBoth x m).ref.source = s.ref.source := by simp [State.takeBoth]

/-- With both inputs GOOD the first GOOD input is the one that the mode prefers. -/
theorem RefUnit.firstGood_of_both {r : RefUnit} (h : ∀ y, (r.input y).state = .good) :
    r.firstGood = r.mode.list.head? := by
  unfold RefUnit.firstGood
  cases r.mode.list with
  | nil => rfl
  | cons y rest => exact List.find?_cons_of_pos (decide_eq_true (h y))

/-- Both inputs have become GOOD: looked at one after the other, the edges lock the unit to the input that the mode
prefers, whichever is looked at first. -/
theorem State.settleEdges_source {x p : RefInput} {m : Nat} {s : State} {wasX wasY : InputState}
    (hgood : ∀ y, (s.ref.input y).state = .good) (hp : s.ref.mode.list.head? = some p)
    (hsrc : s.ref.source = .holdover ∨ s.ref.source = .freeRun) (hx : wasX ≠ .good) (hy : wasY ≠ .good) :
    ((s.settleEdge x wasX m).settleEdge (otherInput x) wasY m).ref.source = .locked p := by
  have hfirst : s.ref.firstGood = some p := (RefUnit.firstGood_of_both hgood).trans hp
  have hmoved := SourceMoved.settleEdge x wasX m s
  rw [State.settleEdge_of_good (s := s.settleEdge x wasX m) (by rw [hmoved.input, hgood])]
  rw [State.settleEdge_of_good (hgood x), State.goodEdge_of_unlocked hx hsrc, hfirst]
  rcases RefInput.eq_or_eq_other x p with rfl | rfl
  · rw [if_pos rfl, State.goodEdge_of_locked hy (State.lockAt_source p m s), State.lockAt_source]
  · rw [if_neg (by rw [Option.some_inj]; exact otherInput_ne x), State.goodEdge_of_unlocked hy hsrc, if_pos hfirst,
      State.lockAt_source]

/-- Settles O6: the edge in time by what it finds of the source, the edge out of tolerance likewise, and two edges
together. -/
theorem edgesMoveTheSource : Obligations.EdgesMoveTheSource := by
  unfold Obligations.EdgesMoveTheSource
  intro shown cause
  have hcause : cause = inputCause := funext fun x => (inputCause_eq x).symm
  clear_value cause
  subst hcause
  refine ⟨?inTime, ?outOfTolerance, ?together⟩
  case inTime =>
    intro x m t s at_ hlast hlo hhi
    have hw : withinTolerance s.ref.period (at_ - t) = true := withinTolerance_iff.2 ⟨hlo, hhi⟩
    refine ⟨?eighth, ?switch, ?tick⟩
    case eighth =>
      intro hstate hrun hsrc hfirst good locked
      have heq := State.refEdge_of_eighth hstate hrun hlast hw hsrc hfirst
      refine ⟨_, exec_refEdge_single x m s, ?_, ?_, ?_, ?_⟩
      all_goals rw [heq]
      · exact State.lockAt_source _ _ _
      · exact State.lockAt_timer _ _ _
      · exact State.lockAt_switch _ _ _
      · rfl
    case switch =>
      intro hstate hsw locked
      have heq := State.refEdge_of_good hstate hlast hw
      rw [State.goodEdge_of_switch (by rwa [State.takeEdge_switch])] at heq
      have hedge := (InputRec.edge_of_good hstate hlast s.ref.period at_).trans (if_pos hw)
      refine ⟨_, exec_refEdge_single x m s, ?_, ?_, ?_, ?_⟩
      all_goals rw [heq]
      · exact State.lockAt_source _ _ _
      · exact State.lockAt_timer _ _ _
      · exact State.lockAt_switch _ _ _
      · rw [State.takeEdge_eq hedge]
        rfl
    case tick =>
      intro hstate hsw hsrc
      rw [exec_refEdge_single, State.refEdge_of_good hstate hlast hw,
        State.goodEdge_of_source (by rwa [State.takeEdge_switch]) (by rwa [State.takeEdge_source])]
  case outOfTolerance =>
    intro x m t s at_ y hstate hlast hout
    have hw : ¬ withinTolerance s.ref.period (at_ - t) = true := by
      rw [withinTolerance_iff]
      omega
    have heq := State.refEdge_of_left hstate hlast hw
    intro left reported lost
    have hsource : reported.ref.source = s.ref.source := RefUnit.setInput_source _ _ _
    have hswitch : reported.ref.switch = s.ref.switch := RefUnit.setInput_switch _ _ _
    have hmode : reported.ref.mode = s.ref.mode := RefUnit.setInput_mode _ _ _
    have hy : reported.ref.input y = s.ref.input y :=
      (RefUnit.input_congr rfl rfl y).trans (RefUnit.input_setInput_other _ _ _)
    refine ⟨?kept, ?failover, ?holdover⟩
    case kept =>
      intro hsrc kept
      rw [exec_refEdge_single, heq, State.leftGood_of_other_source (by exact hsource ▸ hsrc), State.refReport_ref,
        RefUnit.setInput_switch]
      rfl
    case failover =>
      intro hsrc hlist hg moved
      rw [exec_refEdge_single, heq, State.leftGood_of_source (by exact hsource.trans hsrc),
        State.lockLost_of_other (by exact hmode ▸ hlist) (by exact hy ▸ hg)]
      rfl
    case holdover =>
      intro hsrc hnone held
      rw [exec_refEdge_single, heq, State.leftGood_of_source (by exact hsource.trans hsrc),
        State.lockLost_of_none (by exact hsource.trans hsrc) (by exact hmode ▸ hy ▸ hnone)]
      cases x <;> rfl
  case together =>
    intro x p m ta tb s at_ hsrc hp ha hb hla hha hlb hhb
    have hedge (y : RefInput) : ((s.ref.input y).edge s.ref.period at_).state = .good := by
      cases y
      · exact InputRec.edge_of_seventh ha (withinTolerance_iff.2 ⟨hla, hha⟩)
      · exact InputRec.edge_of_seventh hb (withinTolerance_iff.2 ⟨hlb, hhb⟩)
    have hwas (y : RefInput) : (s.ref.input y).state ≠ .good := by
      cases y
      · exact (congrArg InputRec.state ha).trans_ne nofun
      · exact (congrArg InputRec.state hb).trans_ne nofun
    have hgood (y : RefInput) : ((s.takeBoth x at_).ref.input y).state = .good := by
      rw [State.takeBoth_input, hedge]
    have hsettled := State.settleEdges_source (x := x) (m := at_) hgood (by rwa [State.takeBoth_mode]) (by rwa [State.takeBoth_source])
      (hwas x) (hwas (otherInput x))
    have hmoved := (SourceMoved.settleEdge x (s.ref.input x).state at_ (s.takeBoth x at_)).trans
      (SourceMoved.settleEdge (otherInput x) (s.ref.input (otherInput x)).state at_ _)
    exact ⟨_, exec_refEdge_both x m s, hsettled, by exact (congrArg InputRec.state (hmoved.input _)).trans (hgood _),
      by exact (congrArg InputRec.state (hmoved.input _)).trans (hgood _)⟩

end Sys2Proof.Machine
end

section
/-! Chapter 1, the Reference Unit: the absence watch (R3, R7), the holdover timer (R10 to R12) and REF_SET (R14, R15). -/

namespace Sys2Proof.Machine

/-! ### The fault count (R186) -/

@[simp] theorem Link.offer_faultCount (e : Word16) (b : ReportBody) (l : Link) :
    (l.offer e b).faultCount = l.faultCount := by
  rcases l.offer_cases e b with ⟨-, h⟩ | ⟨-, -, h⟩ | ⟨-, -, h⟩ <;> rw [h]

theorem Link.takeFault_faultCount (f : FaultRecord) (l : Link) : (l.takeFault f).faultCount = bump16 l.faultCount :=
  Link.offer_faultCount _ _ _

@[simp] theorem Link.pump_faultCount (l : Link) : l.pump.faultCount = l.faultCount := by
  rcases l.pump_cases with h | ⟨-, r, rest, -, h⟩ | ⟨-, -, r, rest, -, h⟩ <;> rw [h]

@[simp] theorem State.ended_faultCount (s : State) : s.ended.link.faultCount = s.link.faultCount :=
  Link.pump_faultCount _

@[simp] theorem State.refReport_faultCount (k : RefCause) (s : State) :
    (s.refReport k).link.faultCount = s.link.faultCount := Link.offer_faultCount _ _ _

theorem State.raise_faultCount (f : PartFault) (src : FaultSource) (n : Option NodeRef) (s : State) :
    (s.raise f src n).link.faultCount = bump16 s.link.faultCount := Link.takeFault_faultCount _ _

theorem State.enterHoldover_faultCount (m : Nat) (s : State) :
    (s.enterHoldover m).link.faultCount = bump16 s.link.faultCount := by
  unfold State.enterHoldover
  rw [State.raise_faultCount, State.refReport_faultCount]

/-! ### A source moved without a tick -/

/-- `t` is `s` but for the choice of the tick source, and no tick was delivered. -/
structure SourceChosen (s t : State) : Prop where
  moved : SourceMoved s t
  counter : t.ref.counter = s.ref.counter
  noTick : t.mail = s.mail

namespace SourceChosen

theorem trans {s t u : State} (h : SourceChosen s t) (k : SourceChosen t u) : SourceChosen s u :=
  ⟨h.moved.trans k.moved, k.counter.trans h.counter, k.noTick.trans h.noTick⟩

theorem ended {s t : State} (h : SourceChosen s t) : SourceChosen s t.ended :=
  ⟨h.moved.trans (.ended t), h.counter, h.noTick⟩

theorem enterHoldover (m : Nat) (s : State) : SourceChosen s (s.enterHoldover m) :=
  ⟨.enterHoldover m s, rfl, rfl⟩

theorem withSwitch (sw : Option RefInput) (s : State) :
    SourceChosen s { s with ref := { s.ref with switch := sw } } :=
  ⟨.withSource s.ref.source sw s.ref.timer s, rfl, rfl⟩

/-- An input that leaves GOOD delivers no tick. -/
theorem leftGood (x : RefInput) (k : LossManner) (m : Nat) (s : State) : SourceChosen s (s.leftGood x k m) := by
  suffices h : (s.leftGood x k m).ref.counter = s.ref.counter ∧ (s.leftGood x k m).mail = s.mail from
    ⟨.leftGood x k m s, h.1, h.2⟩
  by_cases hsrc : s.ref.source = .locked x
  · rw [State.leftGood_of_source hsrc]
    by_cases h : otherInput x ∈ s.ref.mode.list ∧ (s.ref.input (otherInput x)).state = .good
    · rw [State.lockLost_of_other h.1 h.2]
      exact ⟨rfl, rfl⟩
    · rw [State.lockLost_of_none hsrc h]
      exact ⟨rfl, rfl⟩
  · rw [State.leftGood_of_other_source hsrc]
    exact ⟨rfl, rfl⟩

end SourceChosen

/-! ### ABSENCE_WATCH_EXPIRY (R3, R7) -/

theorem exec_absenceWatchExpiry (x : RefInput) (s : State) :
    exec (.absenceWatchExpiry x) s = execAbsenceWatchExpiry x s := rfl

/-- The input's record when its watch expires, reported. -/
def State.absent (x : RefInput) (m : Nat) (s : State) : State :=
  ({ s with ref := { s.ref.setInput x .reset with now := m } } : State).refReport (inputCause x)

theorem exec_absenceWatchExpiry_of_good {x : RefInput} {s : State} {t : Nat} (hg : (s.ref.input x).state = .good)
    (ht : (s.ref.input x).lastEdge = some t) :
    exec (.absenceWatchExpiry x) s =
      .next ((s.absent x (max s.ref.now (t + 3 * s.ref.period / 2))).leftGood x .absent
        (max s.ref.now (t + 3 * s.ref.period / 2))).ended := by
  rw [exec_absenceWatchExpiry, execAbsenceWatchExpiry, hg, ht]
  rfl

theorem exec_absenceWatchExpiry_of_unstable {x : RefInput} {s : State} {t : Nat}
    (hg : (s.ref.input x).state = .unstable) (ht : (s.ref.input x).lastEdge = some t) :
    exec (.absenceWatchExpiry x) s =
      .next (s.absent x (max s.ref.now (t + 3 * s.ref.period / 2))).ended := by
  rw [exec_absenceWatchExpiry, execAbsenceWatchExpiry, hg, ht]
  rfl

theorem exec_absenceWatchExpiry_of_absent {x : RefInput} {s : State} (h : (s.ref.input x).state = .absent) :
    exec (.absenceWatchExpiry x) s = .next s := by
  rw [exec_absenceWatchExpiry, execAbsenceWatchExpiry, h]
  rfl

theorem State.absent_input_same (x : RefInput) (m : Nat) (s : State) : (s.absent x m).ref.input x = .reset :=
  (RefUnit.input_congr rfl rfl x).trans (RefUnit.input_setInput_same _ _ _)

theorem State.absent_input_other (x : RefInput) (m : Nat) (s : State) :
    (s.absent x m).ref.input (otherInput x) = s.ref.input (otherInput x) :=
  (RefUnit.input_congr rfl rfl _).trans (RefUnit.input_setInput_other _ _ _)

@[simp] theorem State.absent_source (x : RefInput) (m : Nat) (s : State) :
    (s.absent x m).ref.source = s.ref.source := RefUnit.setInput_source _ _ _
@[simp] theorem State.absent_mode (x : RefInput) (m : Nat) (s : State) :
    (s.absent x m).ref.mode = s.ref.mode := RefUnit.setInput_mode _ _ _
@[simp] theorem State.absent_counter (x : RefInput) (m : Nat) (s : State) :
    (s.absent x m).ref.counter = s.ref.counter := RefUnit.setInput_counter _ _ _
@[simp] theorem State.absent_faultCount (x : RefInput) (m : Nat) (s : State) :
    (s.absent x m).link.faultCount = s.link.faultCount := State.refReport_faultCount _ _

/-- Settles O7: by the state of the input, and for a GOOD one by whether it is the source and whether the other input
may follow it. -/
theorem absenceExpiryLosesTheInput : Obligations.AbsenceExpiryLosesTheInput := by
  unfold Obligations.AbsenceExpiryLosesTheInput
  refine ⟨?watched, fun x s => exec_absenceWatchExpiry_of_absent⟩
  intro x t s hstate ht at_ y
  cases hs : (s.ref.input x).state with
  | absent => exact absurd hs hstate
  | unstable =>
    refine ⟨_, exec_absenceWatchExpiry_of_unstable hs ht, State.absent_input_same x _ s, State.absent_input_other x _ s,
      State.absent_counter x _ s, rfl, nofun, nofun, fun _ => ⟨State.absent_source x _ s, ?_⟩⟩
    rw [State.ended_faultCount, State.absent_faultCount]
  | good =>
    have hchosen := (SourceChosen.leftGood x .absent at_ (s.absent x at_)).ended
    have hy : (s.absent x at_).ref.input y = s.ref.input y := State.absent_input_other x at_ s
    have hcount : (s.absent x at_).link.faultCount = s.link.faultCount := State.absent_faultCount x at_ s
    have hmode : (s.absent x at_).ref.mode = s.ref.mode := State.absent_mode x at_ s
    have hsource : (s.absent x at_).ref.source = s.ref.source := State.absent_source x at_ s
    refine ⟨_, exec_absenceWatchExpiry_of_good hs ht, (hchosen.moved.input x).trans (State.absent_input_same x _ s),
      (hchosen.moved.input y).trans hy, hchosen.counter.trans (State.absent_counter x _ s), hchosen.noTick, ?failover, ?holdover,
      ?otherSource⟩
    case failover =>
      intro hsrc _ hlist hg
      rw [State.leftGood_of_source (by exact hsource.trans hsrc),
        State.lockLost_of_other (by exact hmode ▸ hlist) (by exact hy ▸ hg)]
      refine ⟨rfl, ?_⟩
      rw [State.ended_faultCount, State.refReport_faultCount]
      exact (State.raise_faultCount _ _ _ _).trans (by rw [hcount])
    case holdover =>
      intro hsrc _ hnone
      rw [State.leftGood_of_source (by exact hsource.trans hsrc),
        State.lockLost_of_none (by exact hsource.trans hsrc) (by exact hmode ▸ hy ▸ hnone)]
      refine ⟨rfl, by cases x <;> rfl, ?_⟩
      rw [State.ended_faultCount, State.raise_faultCount, State.refReport_faultCount]
      exact congrArg bump16 ((State.raise_faultCount _ _ _ _).trans (by rw [hcount]))
    case otherSource =>
      intro hnot
      have hsrc : (s.absent x at_).ref.source ≠ .locked x := fun h => hnot ⟨hsource.symm.trans h, rfl⟩
      rw [State.leftGood_of_other_source hsrc]
      refine ⟨hsource, ?_⟩
      rw [State.ended_faultCount]
      exact hcount

/-! ### HOLDOVER_TIMER_EXPIRY (R10 to R12) -/

theorem exec_holdoverTimerExpiry_of_timer {s : State} {t : Nat} (h : s.ref.timer = some t) :
    exec .holdoverTimerExpiry s =
      .next (({ s with ref := { s.ref with timer := some (t + s.ref.period), now := max s.ref.now t } } :
        State).candidate (max s.ref.now t)).ended := by
  rw [show exec .holdoverTimerExpiry s = execHoldoverTimerExpiry s from rfl, execHoldoverTimerExpiry, h]
  rfl

theorem exec_holdoverTimerExpiry_of_stopped {s : State} (h : s.ref.timer = none) :
    exec .holdoverTimerExpiry s = .next s := by
  rw [show exec .holdoverTimerExpiry s = execHoldoverTimerExpiry s from rfl, execHoldoverTimerExpiry, h]
  rfl

theorem RefUnit.suppresses_of_recent {r : RefUnit} {m d : Nat} (hd : r.lastTick = some d)
    (h : 2 * (m - d) < r.period) : r.suppresses m = true := by
  rw [RefUnit.suppresses, hd]
  exact decide_eq_true h

theorem RefUnit.not_suppresses {r : RefUnit} {m : Nat} (h : ∀ d, r.lastTick = some d → r.period ≤ 2 * (m - d)) :
    r.suppresses m = false := by
  unfold RefUnit.suppresses
  cases hd : r.lastTick with
  | none => rfl
  | some d => exact decide_eq_false (Nat.not_lt.2 (h d hd))

theorem Ticks.deliver_chains (n : Word16) (k : Ticks) (c : ChainId) :
    (k.deliver n).chains.get c = k.chains.get c ++ [n] := by
  fin_cases c <;> rfl

theorem Ticks.deliver_runners (n : Word16) (k : Ticks) (r : RunnerId) :
    (k.deliver n).runners.get r = k.runners.get r ++ [n] := by
  fin_cases r <;> rfl

/-- Settles O8: the timer's expiry is a candidate tick, suppressed or delivered. -/
theorem holdoverTimerTicks : Obligations.HoldoverTimerTicks := by
  unfold Obligations.HoldoverTimerTicks
  refine ⟨?running, fun s => exec_holdoverTimerExpiry_of_stopped, fun n k =>
    ⟨Ticks.deliver_chains n k, rfl, rfl, rfl, rfl, Ticks.deliver_runners n k, rfl⟩⟩
  intro t s ht at_ r
  refine ⟨fun d hd hrecent => ?suppressed, ?delivered⟩
  case suppressed =>
    rw [exec_holdoverTimerExpiry_of_timer ht, State.candidate_of_suppressed]
    exact RefUnit.suppresses_of_recent (r := r) hd hrecent
  case delivered =>
    intro hlate n
    rw [exec_holdoverTimerExpiry_of_timer ht, State.candidate_of_delivered]
    · rfl
    · exact RefUnit.not_suppresses (r := r) hlate

/-! ### The tick source reconsidered (R14) -/

section Reconsider

variable {s : State}

/-- FREE runs free (R14, step 1). -/
theorem State.reconsider_of_free (h : s.ref.mode = .free) (m : Nat) :
    SourceChosen s (s.reconsider m) ∧ (s.reconsider m).ref.source = .freeRun ∧ (s.reconsider m).ref.switch = none := by
  unfold State.reconsider
  dsimp only
  rw [if_pos h]
  split
  · next hsrc => exact ⟨.withSwitch none s, hsrc, rfl⟩
  · exact ⟨⟨⟨rfl, rfl, rfl, rfl, rfl, rfl, rfl, rfl, rfl, rfl, rfl, rfl, rfl⟩, rfl, rfl⟩, rfl, rfl⟩

/-- A GOOD input of the mode that is not the source is switched to at its next edge (R14, step 2). -/
theorem State.reconsider_of_good {x : RefInput} (h : s.ref.mode ≠ .free) (hx : s.ref.firstGood = some x) (m : Nat) :
    s.reconsider m =
      { s with ref := { s.ref with switch := if s.ref.source = .locked x then none else some x } } := by
  unfold State.reconsider
  dsimp only
  rw [if_neg h, show RefUnit.firstGood { s.ref with switch := none } = some x from hx]
  dsimp only
  split <;> rfl

/-- With no GOOD input a locked unit enters HOLDOVER (R14, step 3). -/
theorem State.reconsider_of_locked {y : RefInput} (h : s.ref.mode ≠ .free) (hx : s.ref.firstGood = none)
    (hy : s.ref.source = .locked y) (m : Nat) :
    s.reconsider m = ({ s with ref := { s.ref with switch := none } } : State).enterHoldover m := by
  unfold State.reconsider
  dsimp only
  rw [if_neg h, show RefUnit.firstGood { s.ref with switch := none } = none from hx, hy]

/-- With no GOOD input an unlocked unit keeps its source (R14, step 3). -/
theorem State.reconsider_of_unlocked (h : s.ref.mode ≠ .free) (hx : s.ref.firstGood = none)
    (hy : ¬ ∃ y, s.ref.source = .locked y) (m : Nat) :
    s.reconsider m = { s with ref := { s.ref with switch := none } } := by
  unfold State.reconsider
  dsimp only
  rw [if_neg h, show RefUnit.firstGood { s.ref with switch := none } = none from hx]
  cases hs : s.ref.source with
  | locked y => exact absurd ⟨y, hs⟩ hy
  | holdover => rfl
  | freeRun => rfl

/-- With no GOOD input no switch is pending. -/
theorem State.reconsider_switch_of_none (hx : s.ref.firstGood = none) (m : Nat) :
    (s.reconsider m).ref.switch = none := by
  by_cases hmode : s.ref.mode = .free
  · exact (State.reconsider_of_free hmode m).2.2
  · by_cases hy : ∃ y, s.ref.source = .locked y
    · obtain ⟨y, hy⟩ := hy
      rw [State.reconsider_of_locked hmode hx hy]
      rfl
    · rw [State.reconsider_of_unlocked hmode hx hy]

end Reconsider

theorem SourceChosen.reconsider (m : Nat) (s : State) : SourceChosen s (s.reconsider m) := by
  by_cases hmode : s.ref.mode = .free
  · exact (State.reconsider_of_free hmode m).1
  · cases hx : s.ref.firstGood with
    | some x =>
      rw [State.reconsider_of_good hmode hx]
      exact .withSwitch _ s
    | none =>
      by_cases hy : ∃ y, s.ref.source = .locked y
      · obtain ⟨y, hy⟩ := hy
        rw [State.reconsider_of_locked hmode hx hy]
        exact (SourceChosen.withSwitch none s).trans (.enterHoldover m _)
      · rw [State.reconsider_of_unlocked hmode hx hy]
        exact .withSwitch none s

/-! ### A changed rate (R15) -/

theorem State.requalifyInput_ref (x : RefInput) (s : State) :
    (s.requalifyInput x).ref = s.ref.setInput x (s.ref.input x).requalify := by
  unfold State.requalifyInput
  dsimp only
  split <;> rfl

theorem State.requalifyInput_mail (x : RefInput) (s : State) : (s.requalifyInput x).mail = s.mail := by
  unfold State.requalifyInput
  dsimp only
  split <;> rfl

theorem State.applyRate_ref (rate : FrameRate) (s : State) :
    (s.applyRate rate).ref = { s.ref with rate := rate, a := s.ref.a.requalify, b := s.ref.b.requalify } := by
  unfold State.applyRate
  rw [State.requalifyInput_ref, State.requalifyInput_ref]
  rfl

theorem State.applyRate_mail (rate : FrameRate) (s : State) : (s.applyRate rate).mail = s.mail := by
  unfold State.applyRate
  rw [State.requalifyInput_mail, State.requalifyInput_mail]

theorem State.retime_spec (m : Nat) (s : State) :
    ∃ timer, s.retime m = { s with ref := { s.ref with timer := timer } } := by
  unfold State.retime
  split
  · exact ⟨_, rfl⟩
  · exact ⟨s.ref.timer, rfl⟩

theorem State.retime_applyRate (rate : FrameRate) (m : Nat) (s : State) :
    ∃ timer, ((s.applyRate rate).retime m).ref =
        { s.ref with rate := rate, a := s.ref.a.requalify, b := s.ref.b.requalify, timer := timer } ∧
      ((s.applyRate rate).retime m).mail = s.mail := by
  obtain ⟨timer, h⟩ := State.retime_spec m (s.applyRate rate)
  refine ⟨timer, ?_, ?_⟩ <;> rw [h]
  · rw [State.applyRate_ref]
  · exact State.applyRate_mail rate s

theorem InputRec.requalify_of_absent {i : InputRec} (h : i.state = .absent) : i.requalify = i := by
  rw [InputRec.requalify, h]

theorem InputRec.requalify_of_present {i : InputRec} (h : i.state ≠ .absent) :
    i.requalify = { i with state := .unstable, run := 0 } := by
  unfold InputRec.requalify
  cases hs : i.state with
  | absent => exact absurd hs h
  | unstable =>
    obtain ⟨state, run, lastEdge⟩ := i
    dsimp only at hs
    subst hs
    rfl
  | good => rfl

/-- No input is GOOD after a change of rate. -/
theorem InputRec.requalify_not_good (i : InputRec) : i.requalify.state ≠ .good := by
  unfold InputRec.requalify
  cases hs : i.state with
  | absent => exact hs.trans_ne nofun
  | unstable => exact nofun
  | good => exact nofun

theorem RefUnit.firstGood_eq_none {r : RefUnit} (h : ∀ x, (r.input x).state ≠ .good) : r.firstGood = none := by
  unfold RefUnit.firstGood
  rw [List.find?_eq_none]
  intro x _ hx
  exact h x (of_decide_eq_true hx)

/-! ### REF_SET (R14, R15) -/

theorem exec_refSet (m : Nat) (s : State) : exec (.refSet m) s = execRefSet m s := rfl

section RefSet

variable {q : Request} {rest : List Request} {s : State} {mode : RefMode} {rate : FrameRate}

theorem exec_refSet_of_busy (hq : Waits .refSet q rest s) (hx : refSet? q.body = some (mode, rate))
    (hrate : rate ≠ s.ref.rate) (hoff : s.allChainsOff = false) (m : Nat) :
    exec (.refSet m) s = .next ((s.taken rest).replied q .busy .empty) := by
  rw [exec_refSet, execRefSet, takeWith_some hq hx]
  exact congrArg (fun t : State => (.next t.ended : Out)) (if_pos ⟨hrate, hoff⟩)

theorem exec_refSet_of_free (hq : Waits .refSet q rest s) (hx : refSet? q.body = some (mode, rate))
    (h : rate ≠ s.ref.rate → s.allChainsOff = true) (m : Nat) :
    exec (.refSet m) s = .next (((s.taken rest).refSet mode rate (max s.ref.now m)).replied q .ok .empty) := by
  have hnot : ¬ (rate ≠ s.ref.rate ∧ s.allChainsOff = false) := fun ⟨hr, hoff⟩ =>
    Bool.false_ne_true (hoff.symm.trans (h hr))
  rw [exec_refSet, execRefSet, takeWith_some hq hx]
  exact congrArg (fun t : State => (.next t.ended : Out)) (if_neg hnot)

end RefSet

theorem State.refSet_of_same {mode : RefMode} {rate : FrameRate} {s : State} (h : rate = s.ref.rate) (m : Nat) :
    s.refSet mode rate m = ({ s with ref := { s.ref with mode := mode, now := m } } : State).reconsider m := by
  unfold State.refSet
  dsimp only
  rw [if_neg]
  simp [h]

theorem State.refSet_of_change {mode : RefMode} {rate : FrameRate} {s : State} (h : rate ≠ s.ref.rate) (m : Nat) :
    s.refSet mode rate m =
      ((({ s with ref := { s.ref with mode := mode, now := m } } : State).applyRate rate).retime m).reconsider m := by
  unfold State.refSet
  dsimp only
  rw [if_pos (decide_eq_true h)]

@[simp] theorem State.replied_ref (q : Request) (c : ReplyCode) (b : ReplyBody) (s : State) :
    (s.replied q c b).ref = s.ref := rfl
@[simp] theorem State.replied_mail (q : Request) (c : ReplyCode) (b : ReplyBody) (s : State) :
    (s.replied q c b).mail = s.mail := rfl
@[simp] theorem State.replied_faultCount (q : Request) (c : ReplyCode) (b : ReplyBody) (s : State) :
    (s.replied q c b).link.faultCount = s.link.faultCount := Link.pump_faultCount _

/-- Settles O10: the rate refused, kept or changed, and the source reconsidered by the mode and the inputs. -/
theorem refSetReconsidersTheSource : Obligations.RefSetReconsidersTheSource := by
  unfold Obligations.RefSetReconsidersTheSource
  intro q rest s m mode rate hq hx
  refine ⟨fun hrate hoff => exec_refSet_of_busy hq hx hrate hoff m, fun hrate => ?same, fun hrate hoff => ?change⟩
  case same =>
    refine ⟨_, exec_refSet_of_free hq hx (fun h => absurd hrate h) m, ?_⟩
    rw [State.refSet_of_same (by exact hrate)]
    have hchosen := SourceChosen.reconsider (max s.ref.now m)
      { s.taken rest with ref := { s.ref with mode := mode, now := max s.ref.now m } }
    refine ⟨hchosen.moved.mode, hchosen.moved.a, hchosen.moved.b, hchosen.counter, hchosen.noTick, ?free, ?good, ?noGood⟩
    case free =>
      intro hmode
      exact (State.reconsider_of_free (by exact hmode) _).2
    case good =>
      intro x hmode hgood
      rw [State.reconsider_of_good (by exact hmode) (by exact hgood)]
      exact ⟨rfl, rfl⟩
    case noGood =>
      intro hmode hnone
      by_cases hlocked : ∃ y, s.ref.source = .locked y
      · obtain ⟨y, hy⟩ := hlocked
        rw [State.reconsider_of_locked (by exact hmode) (by exact hnone) (by exact hy)]
        refine ⟨rfl, fun _ => ⟨rfl, ?_⟩, fun hnot => absurd ⟨y, hy⟩ hnot⟩
        rw [State.replied_faultCount, State.enterHoldover_faultCount]
        rfl
      · rw [State.reconsider_of_unlocked (by exact hmode) (by exact hnone) (by exact hlocked)]
        refine ⟨rfl, fun h => absurd h hlocked, fun _ => ⟨rfl, ?_⟩⟩
        rw [State.replied_faultCount]
        rfl
  case change =>
    refine ⟨_, exec_refSet_of_free hq hx (fun _ => hoff) m, ?_⟩
    rw [State.refSet_of_change (by exact hrate)]
    obtain ⟨timer, href, hmail⟩ := State.retime_applyRate rate (max s.ref.now m)
      { s.taken rest with ref := { s.ref with mode := mode, now := max s.ref.now m } }
    rw [State.taken_ref]
    generalize (State.retime _ _) = t at href hmail ⊢
    have hinput (x : RefInput) : t.ref.input x = (s.ref.input x).requalify := by rw [href]; cases x <;> rfl
    have hmode : t.ref.mode = mode := by rw [href]
    have hsource : t.ref.source = s.ref.source := by rw [href]
    have hnone : t.ref.firstGood = none :=
      RefUnit.firstGood_eq_none fun x => by rw [hinput]; exact InputRec.requalify_not_good _
    have hchosen := SourceChosen.reconsider (max s.ref.now m) t
    have hreconsidered (x : RefInput) : (t.reconsider (max s.ref.now m)).ref.input x = (s.ref.input x).requalify :=
      (hchosen.moved.input x).trans (hinput x)
    refine ⟨hchosen.moved.mode.trans hmode, hchosen.moved.rate.trans (by rw [href]), hchosen.counter.trans (by rw [href]),
      hchosen.noTick.trans hmail, State.reconsider_switch_of_none hnone _,
      fun x h => (hreconsidered x).trans (InputRec.requalify_of_absent h),
      fun x h => (hreconsidered x).trans (InputRec.requalify_of_present h), fun hfree => ?_, fun hfree hy => ?_,
      fun hfree hy => ?_⟩
    · exact (State.reconsider_of_free (hmode.trans hfree) _).2.1
    · obtain ⟨y, hy⟩ := hy
      rw [State.reconsider_of_locked (by rwa [hmode]) hnone (hsource.trans hy)]
      rfl
    · rw [State.reconsider_of_unlocked (by rwa [hmode]) hnone (by rwa [hsource])]
      exact hsource

end Sys2Proof.Machine
end

section
/-! Chapters 2 and 3: what a Chain Manager hands on (R26 to R30), CHAIN_SET and CHAIN_REWALK (R34, R54), a disable (R36), and
the order of the command queue (R28 to R31). -/

namespace Sys2Proof.Machine

/-! ### What a Chain Manager hands on -/

/-- The Chain Manager of `c` before an event. -/
def State.manager (c : ChainId) (s : State) : Cm := { id := c, ch := s.chains.get c, out := [] }

theorem State.manage_eq (c : ChainId) (f : Cm → Cm) (s : State) :
    s.manage c f = (f (s.manager c)).out.foldl (State.deliverCm c) (s.setChain c (f (s.manager c)).ch) := rfl

/-- An event at which a Chain Manager changes its record alone. -/
theorem State.manage_of_silent {c : ChainId} {f : Cm → Cm} {s : State} {ch : Chain}
    (h : f (s.manager c) = { s.manager c with ch := ch }) : s.manage c f = s.setChain c ch := by
  rw [State.manage_eq, h]
  rfl

theorem State.manage_of_outs {c : ChainId} {f : Cm → Cm} {s : State} {ch : Chain} {outs : List CmOut}
    (h : f (s.manager c) = { id := c, ch := ch, out := outs }) :
    s.manage c f = outs.foldl (State.deliverCm c) (s.setChain c ch) := by
  rw [State.manage_eq, h]

/-- A Chain Manager's clamp messages and runner notices: what it hands to other blocks than the Control Link and the Frame
Assembler. -/
def CmOut.isMessage : CmOut → Prop
  | .clamp _ => True
  | .notice _ => True
  | .report _ => False
  | .fault _ _ => False
  | .order _ => False
  | .faulted => False
  | .disabled => False

theorem State.deliver_messages (c : ChainId) (l : List CmOut) (h : ∀ o ∈ l, o.isMessage) (s : State) :
    ∃ k n, l.foldl (State.deliverCm c) s = { s with mail := { s.mail with clamps := k, notices := n } } := by
  induction l generalizing s with
  | nil => exact ⟨_, _, rfl⟩
  | cons o l ih =>
    obtain ⟨ho, hl⟩ := List.forall_mem_cons.1 h
    obtain ⟨k, n, heq⟩ := ih hl (s.deliverCm c o)
    cases o with
    | clamp x => exact ⟨k, n, heq⟩
    | notice x => exact ⟨k, n, heq⟩
    | report => exact ho.elim
    | fault => exact ho.elim
    | order => exact ho.elim
    | faulted => exact ho.elim
    | disabled => exact ho.elim

/-- Two commands that leave the same state before the transmitter's turn end alike. -/
theorem ended_congr {s t : State} (h : s = t) : (.next s.ended : Out) = .next t.ended := h ▸ rfl

/-! ### CHAIN_SET with ENABLE (R34) -/

theorem exec_chainSetEnable (s : State) : exec .chainSetEnable s = execChainSetEnable s := rfl

theorem Cm.enable_of_off {m : Cm} (h : m.ch.state = .off) (x : ChainSetArgs) :
    m.enable x = (m.modify fun ch => (ch.setLimits x).prepareWalk).chainReport .enabled := if_pos h

theorem Cm.enable_of_on {m : Cm} (h : m.ch.state ≠ .off) (x : ChainSetArgs) :
    m.enable x = m.modify (Chain.setLimits x) := if_neg h

section Enable

variable {q : Request} {rest : List Request} {s : State} {x : ChainSetArgs}

theorem exec_chainSetEnable_of_pending (hq : Waits .chainSetEnable q rest s) (hx : chainSet? 0 q.body = some x)
    (h : (s.chains.get x.chain).pendingDisable = true) :
    exec .chainSetEnable s = .next ((s.taken rest).replied q .busy .empty) := by
  rw [exec_chainSetEnable, execChainSetEnable, takeWith_some hq hx]
  exact ended_congr (if_pos h)

theorem exec_chainSetEnable_of_accepted (hq : Waits .chainSetEnable q rest s) (hx : chainSet? 0 q.body = some x)
    (h : (s.chains.get x.chain).pendingDisable = false) :
    exec .chainSetEnable s = .next (((s.taken rest).manage x.chain (Cm.enable x)).replied q .ok .empty) := by
  rw [exec_chainSetEnable, execChainSetEnable, takeWith_some hq hx]
  exact ended_congr (if_neg (ne_true_of_eq_false h))

end Enable

/-! ### CHAIN_REWALK (R54) -/

theorem exec_chainRewalk (s : State) : exec .chainRewalk s = execChainRewalk s := rfl

theorem Chain.rewalkCode_of_state {ch : Chain} (h : ch.pendingDisable = true ∨ ch.state = .off ∨ ch.state = .faulted) :
    ch.rewalkCode = .state := if_pos h

theorem Chain.rewalkCode_of_settled {ch : Chain} (hp : ch.pendingDisable = false) (hs : ch.state = .running)
    (ha : ch.attempt = none) : ch.rewalkCode = .ok := by
  simp [Chain.rewalkCode, hp, hs, ha]

theorem Chain.rewalkCode_of_busy {ch : Chain} (hp : ch.pendingDisable = false)
    (h : ch.state = .walking ∨ ch.state = .extending ∨ ch.state = .broken ∨ (ch.state = .running ∧ ch.attempt ≠ none)) :
    ch.rewalkCode = .busy := by
  unfold Chain.rewalkCode
  rcases h with h | h | h | ⟨h, ha⟩
  all_goals simp_all

section Rewalk

variable {q : Request} {rest : List Request} {s : State} {c : ChainId}

theorem exec_chainRewalk_of_refused {code : ReplyCode} (hq : Waits .chainRewalk q rest s) (hc : chain? q.body = some c)
    (hcode : (s.chains.get c).rewalkCode = code) (hne : code ≠ .ok) :
    exec .chainRewalk s = .next ((s.taken rest).replied q code .empty) := by
  subst hcode
  rw [exec_chainRewalk, execChainRewalk, takeWith_some hq hc]
  exact ended_congr (congrArg (State.answer q _ .empty) (if_neg hne))

theorem exec_chainRewalk_of_settled (hq : Waits .chainRewalk q rest s) (hc : chain? q.body = some c)
    (hcode : (s.chains.get c).rewalkCode = .ok) :
    exec .chainRewalk s = .next (((s.taken rest).manage c Cm.rewalk).replied q .ok .empty) := by
  rw [exec_chainRewalk, execChainRewalk, takeWith_some hq hc]
  exact ended_congr ((congrArg (State.answer q _ .empty) (if_pos hcode)).trans
    (congrArg (fun code => State.answer q code .empty _) hcode))

end Rewalk

/-- Settles O11: each request by the state of its chain. -/
theorem enableAndRewalkStartWalks : Obligations.EnableAndRewalkStartWalks := by
  unfold Obligations.EnableAndRewalkStartWalks
  refine ⟨?enable, ?rewalk⟩
  case enable =>
    intro q rest s x hq hx ch limited walking
    refine ⟨exec_chainSetEnable_of_pending hq hx, fun hp hon => ?_, fun hp hoff => ?_⟩
    · rw [exec_chainSetEnable_of_accepted hq hx hp, State.manage_of_silent (Cm.enable_of_on (by exact hon) x)]
      rfl
    · rw [exec_chainSetEnable_of_accepted hq hx hp, State.manage_of_outs (Cm.enable_of_off (by exact hoff) x)]
      rfl
  case rewalk =>
    intro q rest s c hq hc ch extending
    refine ⟨Chain.comingEnd_of_none_waits, fun h => ?_, fun hp h => ?_, fun hp hs ha => ?_⟩
    · exact exec_chainRewalk_of_refused hq hc (Chain.rewalkCode_of_state h) nofun
    · exact exec_chainRewalk_of_refused hq hc (Chain.rewalkCode_of_busy hp h) nofun
    · rw [exec_chainRewalk_of_settled hq hc (Chain.rewalkCode_of_settled hp hs ha)]
      rfl

/-! ### CHAIN_SET with DISABLE (R36) -/

theorem exec_chainSetDisable (s : State) : exec .chainSetDisable s = execChainSetDisable s := rfl

section Disable

variable {q : Request} {rest : List Request} {s : State} {x : ChainSetArgs}

theorem exec_chainSetDisable_of_pending (hq : Waits .chainSetDisable q rest s) (hx : chainSet? 1 q.body = some x)
    (h : (s.chains.get x.chain).pendingDisable = true) :
    exec .chainSetDisable s = .next ((s.taken rest).replied q .busy .empty) := by
  rw [exec_chainSetDisable, execChainSetDisable, takeWith_some hq hx]
  exact ended_congr (if_pos h)

theorem exec_chainSetDisable_of_off (hq : Waits .chainSetDisable q rest s) (hx : chainSet? 1 q.body = some x)
    (hp : (s.chains.get x.chain).pendingDisable = false) (h : (s.chains.get x.chain).state = .off) :
    exec .chainSetDisable s = .next ((s.taken rest).replied q .ok .empty) := by
  rw [exec_chainSetDisable, execChainSetDisable, takeWith_some hq hx]
  exact ended_congr ((if_neg (ne_true_of_eq_false hp)).trans (if_pos h))

theorem exec_chainSetDisable_of_on (hq : Waits .chainSetDisable q rest s) (hx : chainSet? 1 q.body = some x)
    (hp : (s.chains.get x.chain).pendingDisable = false) (h : (s.chains.get x.chain).state ≠ .off) :
    exec .chainSetDisable s = .next ((s.taken rest).beginDisable q x.chain).ended := by
  rw [exec_chainSetDisable, execChainSetDisable, takeWith_some hq hx]
  exact ended_congr ((if_neg (ne_true_of_eq_false hp)).trans (if_neg h))

end Disable

/-! ### The tick that carries a disable out (R36) -/

theorem exec_chainManagerTick_of_tick {c : ChainId} {n : Word16} {ticks : List Word16} {s : State}
    (h : s.mail.ticks.chains.get c = n :: ticks) :
    exec (.chainManagerTick c) s = .next ((s.setChainTicks c ticks).manage c (Cm.tick n)).ended := by
  rw [show exec (.chainManagerTick c) s = execChainManagerTick c s from rfl, execChainManagerTick, h]
  rfl

theorem Cm.tick_of_disable {m : Cm} (h : m.ch.pendingDisable = true) (n : Word16) :
    m.tick n = (m.disable n).flushLost := if_pos h

theorem Cm.tick_of_enabled {m : Cm} (h : m.ch.pendingDisable = false) (n : Word16) :
    m.tick n = (m.deadline.send n).flushLost := if_neg (ne_true_of_eq_false h)

theorem Cm.foldl_emit {α : Type} (g : α → CmOut) (l : List α) (m : Cm) :
    l.foldl (fun m x => m.emit (g x)) m = { m with out := m.out ++ l.map g } := by
  induction l generalizing m with
  | nil => simp
  | cons x l ih =>
    rw [List.foldl_cons, ih]
    simp [Cm.emit]

/-- The notice of a lost node (R49). -/
def LostNode.notice (x : LostNode) : CmOut := .notice (.lost x.address x.kind x.reachable x.since)

theorem Cm.flushLost_eq (m : Cm) :
    m.flushLost = { m with ch := { m.ch with lostHeld := [] }, out := m.out ++ m.ch.lostHeld.map LostNode.notice } :=
  Cm.foldl_emit LostNode.notice m.ch.lostHeld _

/-- The chain record with the records of some addresses ABSENT. -/
def Chain.without (l : List Nat) (ch : Chain) : Chain :=
  { ch with nodes := l.foldl (fun nodes a => nodes.set (a - 1) none) ch.nodes }

theorem Cm.foldl_makeAbsent (l : List Nat) (m : Cm) :
    l.foldl (fun m a => m.makeAbsent a) m =
      { m with ch := m.ch.without l, out := m.out ++ l.map fun a => .clamp (.absent a) } := by
  induction l generalizing m with
  | nil => simp [Chain.without]
  | cons a l ih =>
    rw [List.foldl_cons, ih]
    simp [Cm.makeAbsent, Cm.emit, Cm.modify, Chain.without, Chain.setNode]

theorem Chain.node_setNode_none {ch : Chain} {a b : Nat} (h : b = a ∨ ch.node b = none) :
    (ch.setNode a none).node b = none := by
  unfold Chain.node at h ⊢
  by_cases hb : isAddress b = true
  · rw [if_pos hb] at h ⊢
    simp only [Chain.setNode, List.getD_eq_getElem?_getD, List.getElem?_set] at h ⊢
    split
    · split <;> rfl
    · next hne =>
      refine h.resolve_left fun hba => hne ?_
      rw [hba]
  · exact if_neg hb

theorem Chain.node_without {l : List Nat} {ch : Chain} {b : Nat} (h : b ∈ l ∨ ch.node b = none) :
    (ch.without l).node b = none := by
  induction l generalizing ch with
  | nil => exact h.resolve_left (List.not_mem_nil)
  | cons a l ih =>
    refine ih (ch := ch.setNode a none) ?_
    rcases h with h | h
    · rcases List.mem_cons.1 h with rfl | h
      · exact .inr (Chain.node_setNode_none (.inl rfl))
      · exact .inl h
    · exact .inr (Chain.node_setNode_none (.inr h))

theorem mem_addresses_iff {a : Nat} : a ∈ addresses ↔ isAddress a = true := by
  rw [isAddress_iff, addresses, List.mem_map]
  constructor
  · rintro ⟨b, hb, rfl⟩
    have := List.mem_range.1 hb
    omega
  · intro h
    exact ⟨a - 1, List.mem_range.2 (by omega), by omega⟩

theorem Chain.mem_enrolled {ch : Chain} {a : Nat} {n : Node} : (a, n) ∈ ch.enrolled ↔ ch.node a = some n := by
  unfold Chain.enrolled
  simp only [List.mem_filterMap, Option.map_eq_some_iff, Prod.mk.injEq, mem_addresses_iff]
  constructor
  · rintro ⟨b, -, x, hx, rfl, rfl⟩
    exact hx
  · exact fun h => ⟨a, Chain.isAddress_of_node h, n, h, rfl, rfl⟩

/-- The records of every enrolled address ABSENT leave no record. -/
theorem Chain.node_without_enrolled (ch : Chain) (a : Nat) :
    (ch.without (ch.enrolled.map fun p => p.1)).node a = none := by
  refine Chain.node_without ?_
  cases h : ch.node a with
  | none => exact .inr rfl
  | some n => exact .inl (List.mem_map.2 ⟨(a, n), Chain.mem_enrolled.2 h, rfl⟩)

theorem Chain.enrolled_of_empty {ch : Chain} (h : ∀ a, ch.node a = none) : ch.enrolled = [] := by
  unfold Chain.enrolled
  simp [h]

theorem Chain.stateCounts_of_empty {ch : Chain} (h : ∀ a, ch.node a = none) :
    ch.stateCounts = { ident := 0, live := 0, suspect := 0, failed := 0, cut := 0 } := by
  simp [Chain.stateCounts, Chain.countIn, Chain.enrolled_of_empty h]

theorem Cm.giveRoom_messages {m : Cm} (h : ∀ o ∈ m.out, o.isMessage) (r : RunnerId) :
    ∀ o ∈ (m.giveRoom r).out, o.isMessage := by
  intro o ho
  unfold Cm.giveRoom at ho
  split at ho
  · rcases List.mem_append.1 ho with ho | ho
    · exact h o (List.dropLast_subset _ ho)
    · rw [List.mem_singleton.1 ho]
      exact trivial
  · rcases List.mem_append.1 ho with ho | ho
    · exact h o ho
    · rw [List.mem_singleton.1 ho]
      exact trivial

theorem Cm.giveRoom_eq (r : RunnerId) (m : Cm) : m.giveRoom r = { m with out := (m.giveRoom r).out } := by
  unfold Cm.giveRoom
  split <;> rfl

theorem Cm.foldl_giveRoom (l : List RunnerId) {m : Cm} (h : ∀ o ∈ m.out, o.isMessage) :
    ∃ out, l.foldl (fun m r => m.giveRoom r) m = { m with out := out } ∧ ∀ o ∈ out, o.isMessage := by
  induction l generalizing m with
  | nil => exact ⟨m.out, rfl, h⟩
  | cons r l ih =>
    obtain ⟨out, heq, hout⟩ := ih (Cm.giveRoom_messages h r)
    refine ⟨out, heq.trans ?_, hout⟩
    rw [Cm.giveRoom_eq]

/-- A queue emptied: the commands discarded and the claims released, of which the runners alone are told (R29, R161). -/
theorem Cm.emptyQueue_spec {m : Cm} (h : ∀ o ∈ m.out, o.isMessage) :
    ∃ out, m.emptyQueue =
        { m with
          ch := { m.ch with
            queue := [], claims := [],
            counters := { m.ch.counters with
              discarded := bump16By (m.ch.queue.length + m.ch.claims.length) m.ch.counters.discarded } },
          out := out } ∧
      ∀ o ∈ out, o.isMessage :=
  Cm.foldl_giveRoom _ (m := m.modify _) h

/-- The chain record that a disable leaves (R36). -/
def Chain.disabled (ch : Chain) : Chain :=
  { ch.without (ch.enrolled.map fun p => p.1) with
    queue := [], claims := [], collect := none, walkDoneDue := 0, lastPath := [], endHop := none, probeHop := none,
    attempt := none, brokenFrom := none, stranger := none, breakCount := 0, portRoute := .normal, state := .off,
    pendingDisable := false, lostHeld := [],
    counters := { ch.counters with
      discarded := bump16By (ch.queue.length + ch.claims.length) ch.counters.discarded } }

theorem Chain.node_disabled (ch : Chain) (a : Nat) : ch.disabled.node a = none := ch.node_without_enrolled a

/-- A Chain Manager with every record ABSENT, each handed to the Scene Table (R36, R47). -/
def Cm.cleared (m : Cm) : Cm :=
  { m with ch := { m.ch.without (m.ch.enrolled.map fun p => p.1) with collect := none, walkDoneDue := 0, lastPath := [] },
           out := m.out ++ (m.ch.enrolled.map fun p => p.1).map fun a => .clamp (.absent a) }

/-- The fields that a disable sets behind the queue (R36). -/
def Chain.turnedOff (ch : Chain) : Chain :=
  { ch with endHop := none, probeHop := none, attempt := none, brokenFrom := none, stranger := none, breakCount := 0,
            portRoute := .normal, state := .off, pendingDisable := false }

theorem Cm.disable_eq (n : Word16) (m : Cm) :
    m.disable n =
      (((m.cleared.emptyQueue.modify Chain.turnedOff).chainReport .disabled).emit .disabled).emit
        (.order { frame := n, kind := .disable }) := by
  unfold Cm.disable
  dsimp only
  rw [Cm.foldl_makeAbsent]
  rfl

/-- What a tick that carries a disable out hands on: messages, the report, the reply and the order, and the notices of nodes
lost before. -/
theorem Cm.disable_tick_spec {c : ChainId} {ch : Chain} (h : ch.pendingDisable = true) (n : Word16) :
    ∃ before after : List CmOut, (∀ o ∈ before, o.isMessage) ∧ (∀ o ∈ after, o.isMessage) ∧
      Cm.tick n { id := c, ch := ch, out := [] } =
        { id := c, ch := ch.disabled,
          out := before ++ [.report (.chain .disabled c .off none
              { ident := 0, live := 0, suspect := 0, failed := 0, cut := 0 }),
            .disabled, .order { frame := n, kind := .disable }] ++ after } := by
  have hcleared : ∀ o ∈ (Cm.cleared { id := c, ch := ch, out := [] }).out, o.isMessage := by
    intro o ho
    obtain ⟨a, -, rfl⟩ := List.mem_map.1 ho
    trivial
  obtain ⟨out, heq, hout⟩ := Cm.emptyQueue_spec hcleared
  refine ⟨out, ch.lostHeld.map LostNode.notice, hout, by simp [LostNode.notice, CmOut.isMessage], ?_⟩
  rw [Cm.tick_of_disable h, Cm.flushLost_eq, Cm.disable_eq, heq, ← Chain.stateCounts_of_empty ch.node_disabled]
  simp only [Cm.emit, Cm.chainReport, Cm.modify, List.append_assoc, List.cons_append, List.nil_append]
  rfl

/-! ### A withheld reply that becomes ready (R36) -/

theorem Link.offer_deferred (e : Word16) (b : ReportBody) (l : Link) : (l.offer e b).deferred = l.deferred := by
  rcases l.offer_cases e b with ⟨-, h⟩ | ⟨-, -, h⟩ | ⟨-, -, h⟩ <;> rw [h]

theorem Link.pump_deferred (l : Link) : l.pump.deferred = l.deferred := by
  rcases l.pump_cases with h | ⟨-, r, rest, -, h⟩ | ⟨-, -, r, rest, -, h⟩ <;> rw [h]

/-- The transmitter's turn leaves a ready reply ready, or sends it. -/
theorem Link.mem_ready_or_sent {l : Link} {r : Reply} (h : r ∈ l.ready) :
    r ∈ l.pump.ready ∨ l.pump.tx = some (.reply r) := by
  rcases l.pump_cases with e | ⟨-, x, rest, hq, e⟩ | ⟨-, -, x, rest, -, e⟩ <;> rw [e]
  · exact .inl h
  · rcases List.mem_cons.1 (hq ▸ h) with rfl | h
    · exact .inr rfl
    · exact .inl h
  · exact .inl h

theorem Link.undefer_of_find {l : Link} {w : Deferral} {d : Deferred}
    (h : l.deferred.find? (fun d => decide (d.what = w)) = some d) :
    l.undefer w =
      { l with deferred := l.deferred.erase d,
               ready := l.ready ++ [{ kind := d.kind, tag := d.tag, code := .ok, body := .empty, refusal := false }] } := by
  rw [Link.undefer, h]

/-- The state after the tick that carries a disable out, but for the transmitter's turn. -/
def State.afterDisable (c : ChainId) (n : Word16) (ticks : List Word16) (s : State) : State :=
  { s.setChain c (s.chains.get c).disabled with
    link := (s.report (.chain .disabled c .off none
      { ident := 0, live := 0, suspect := 0, failed := 0, cut := 0 })).link.undefer (.disable c),
    mail := (s.mail.chainTicks c ticks).giveOrder c { frame := n, kind := .disable } }

theorem exec_chainManagerTick_of_disable {c : ChainId} {n : Word16} {ticks : List Word16} {s : State}
    (hticks : s.mail.ticks.chains.get c = n :: ticks) (hpending : (s.chains.get c).pendingDisable = true) :
    ∃ k l, exec (.chainManagerTick c) s =
      .next ({ s.afterDisable c n ticks with
        mail := { (s.afterDisable c n ticks).mail with clamps := k, notices := l } } : State).ended := by
  obtain ⟨before, after, hbefore, hafter, htick⟩ := Cm.disable_tick_spec (c := c) hpending n
  obtain ⟨k, l, hfirst⟩ := State.deliver_messages c before hbefore
    ((s.setChainTicks c ticks).setChain c (s.chains.get c).disabled)
  obtain ⟨k', l', hlast⟩ := State.deliver_messages c after hafter
    { s.afterDisable c n ticks with mail := { (s.afterDisable c n ticks).mail with clamps := k, notices := l } }
  refine ⟨k', l', ?_⟩
  rw [exec_chainManagerTick_of_tick hticks, State.manage_of_outs (s := s.setChainTicks c ticks) htick, List.foldl_append,
    List.foldl_append, hfirst]
  exact ended_congr hlast

/-- Settles O12: the request by the chain, and its tick by what the Chain Manager hands on. -/
theorem chainDisableWaitsForItsTick : Obligations.ChainDisableWaitsForItsTick := by
  unfold Obligations.ChainDisableWaitsForItsTick
  refine ⟨?request, ?tick⟩
  case request =>
    intro q rest s x hq hx ch d
    exact ⟨exec_chainSetDisable_of_pending hq hx, exec_chainSetDisable_of_off hq hx,
      exec_chainSetDisable_of_on hq hx⟩
  case tick =>
    intro c n ticks s hticks hpending ch
    obtain ⟨k, l, hexec⟩ := exec_chainManagerTick_of_disable hticks hpending
    refine ⟨_, hexec, ?_⟩
    have hchain : (s.chains.set c ch.disabled).get c = ch.disabled := Four.get_set_same _ _ _
    have hnode := ch.node_disabled
    dsimp only [State.ended_chains, State.afterDisable, State.setChain]
    rw [hchain]
    refine ⟨rfl, rfl, hnode, rfl, rfl, rfl, rfl, rfl, rfl, rfl, rfl, rfl, rfl, rfl, rfl, rfl,
      fun d hd => Four.get_set_ne _ hd _, rfl, Four.get_set_same _ _ _, Four.get_set_same _ _ _, fun d hd => ?_⟩
    have hdeferred := Link.offer_deferred s.e (.chain .disabled c .off none
      { ident := 0, live := 0, suspect := 0, failed := 0, cut := 0 }) s.link
    have hundefer := Link.undefer_of_find (l := s.link.offer _ _) (hdeferred.symm ▸ hd)
    refine ⟨(Link.pump_deferred _).trans ?_, Link.mem_ready_or_sent ?_⟩
    · exact (congrArg Link.deferred hundefer).trans (congrArg (List.erase · d) hdeferred)
    · exact (congrArg Link.ready hundefer).symm ▸ List.mem_append_right _ (List.mem_singleton.2 rfl)

/-! ### The order of the command queue (R28 to R31) -/

theorem insertRepair_cons_repair {q : List QEntry} {x y : QEntry} (h : y.cmd.isRepair = true) :
    insertRepair (y :: q) x = y :: insertRepair q x := by simp [insertRepair, h]

theorem insertRepair_cons_config {q : List QEntry} {x y : QEntry} (h : y.cmd.isRepair = false) :
    insertRepair (y :: q) x = x :: y :: q := by simp [insertRepair, h]

/-- A queue in class order that begins with a configuration command holds no repair command. -/
theorem filter_repair_of_config {q : List QEntry} {y : QEntry} (hq : inClassOrder (y :: q)) (hy : y.cmd.isRepair = false) :
    (y :: q).filter (fun z => z.cmd.isRepair) = [] := by
  rw [List.filter_eq_nil_iff]
  intro z hz hr
  rcases List.mem_cons.1 hz with rfl | hz
  · exact Bool.false_ne_true (hy.symm.trans hr)
  · exact Bool.false_ne_true (hy.symm.trans (List.rel_of_pairwise_cons hq hz hr))

theorem filter_repair_insertRepair {q : List QEntry} {x : QEntry} (hq : inClassOrder q) (hx : x.cmd.isRepair = true) :
    (insertRepair q x).filter (fun y => y.cmd.isRepair) = q.filter (fun y => y.cmd.isRepair) ++ [x] := by
  induction q with
  | nil => simp [insertRepair, hx]
  | cons y q ih =>
    cases hy : y.cmd.isRepair with
    | true =>
      rw [insertRepair_cons_repair hy, List.filter_cons, List.filter_cons, if_pos hy, if_pos hy,
        ih (List.Pairwise.of_cons hq), List.cons_append]
    | false =>
      rw [insertRepair_cons_config hy, List.filter_cons, if_pos hx, filter_repair_of_config hq hy, List.nil_append]

theorem filter_config_insertRepair (q : List QEntry) {x : QEntry} (hx : x.cmd.isRepair = true) :
    (insertRepair q x).filter (fun y => !y.cmd.isRepair) = q.filter fun y => !y.cmd.isRepair := by
  have hskip (l : List QEntry) : (x :: l).filter (fun y => !y.cmd.isRepair) = l.filter fun y => !y.cmd.isRepair :=
    List.filter_cons_of_neg (by simp [hx])
  rw [insertRepair, List.filter_append, hskip, ← List.filter_append, List.takeWhile_append_dropWhile]

theorem evictFrom_of_config {q : List QEntry} {x : QEntry} (hx : x.cmd.isRepair = false) :
    evictFrom (q ++ [x]) = some (x, q) := by simp [evictFrom, hx]

theorem evictFrom_of_repairs {q : List QEntry} {x : QEntry} (h : ∀ y ∈ x :: q, y.cmd.isRepair = true) :
    evictFrom (x :: q) = some (x, q) := by
  have hlast : (x :: q).getLast? = some ((x :: q).getLast nofun) := List.getLast?_eq_some_getLast _
  rw [evictFrom, hlast]
  dsimp only
  rw [if_pos (h _ (List.getLast_mem _))]
  rfl

/-- A command that waits in a place of the queue or in a claim on one. -/
def Chain.holds (ch : Chain) (cmd : Cmd) : Prop :=
  cmd ∈ ch.queue.map (fun e => e.cmd) ∨ cmd ∈ ch.claims.map fun k => k.cmd.toCmd

/-- Places given to claims bring no command that did not wait. -/
theorem Cm.serveClaims_holds (claims : List QClaim) (m : Cm) {cmd : Cmd} (h : (m.serveClaims claims).ch.holds cmd) :
    cmd ∈ m.ch.queue.map (fun e => e.cmd) ∨ cmd ∈ claims.map fun k => k.cmd.toCmd := by
  induction claims generalizing m with
  | nil => exact h
  | cons k rest ih =>
    unfold Cm.serveClaims at h
    split at h
    · rcases ih _ h with h | h
      · rw [Cm.giveRoom_ch] at h
        simp only [Cm.modify, Chain.enqueue, List.map_append, List.mem_append, List.map_cons, List.map_nil,
          List.mem_singleton] at h
        rcases h with h | h
        · exact .inl h
        · exact .inr (h ▸ List.mem_cons_self)
      · exact .inr (List.mem_cons_of_mem _ h)
    · exact h

/-- A command that leaves changes the END hop, the port route and the node records alone (R32, R33). -/
theorem Chain.depart_eq (ch : Chain) (cmd : Cmd) :
    ch.depart cmd =
      { ch with endHop := (ch.depart cmd).endHop, portRoute := (ch.depart cmd).portRoute,
                nodes := (ch.depart cmd).nodes } := by
  have hnode (a : Nat) (f : Node → Node) : ch.updateNode a f = { ch with nodes := (ch.updateNode a f).nodes } := by
    unfold Chain.updateNode
    split <;> rfl
  cases cmd with
  | setEnd h on =>
    cases on with
    | true => rfl
    | false =>
      unfold Chain.depart
      dsimp only
      split <;> rfl
  | route a r =>
    cases a with
    | none => rfl
    | some a =>
      unfold Chain.depart
      dsimp only
      rw [hnode]
  | configure a tag x =>
    unfold Chain.depart
    dsimp only
    split
    · rfl
    · rw [hnode]
  | enable a =>
    unfold Chain.depart
    dsimp only
    split
    · rfl
    · rw [hnode]

/-- A dead command removed from the head of its queue (R31). -/
def Chain.dropHead (rest : List QEntry) (ch : Chain) : Chain :=
  { ch with queue := rest, counters := { ch.counters with discarded := bump16 ch.counters.discarded } }

/-- The chain record when entry `x` leaves from the head of its queue (R31 to R33). -/
def Chain.leave (x : QEntry) (rest : List QEntry) (ch : Chain) : Chain :=
  { ch.depart x.cmd with
    queue := rest, counters := { ch.counters with sent := bump16 ch.counters.sent },
    walkDoneDue := ch.walkDoneDue + x.walksEnded,
    attempt := if x.ofAttempt then ch.attempt.map fun t => { t with phase := .deciding } else ch.attempt }

theorem Chain.leave_claims (x : QEntry) (rest : List QEntry) (ch : Chain) : (ch.leave x rest).claims = ch.claims := by
  unfold Chain.leave
  rw [Chain.depart_eq]

theorem Cm.fillCommands_of_nil {m : Cm} (h : m.ch.queue = []) (fuel left : Nat) (carried : List Cmd) :
    m.fillCommands fuel left carried = (m, carried) := by
  unfold Cm.fillCommands
  split
  · rfl
  · rfl
  · rw [h]

theorem Cm.fillCommands_of_dead {m : Cm} {x : QEntry} {rest : List QEntry} (h : m.ch.queue = x :: rest)
    (hd : m.ch.isDead x.cmd = true) (fuel left : Nat) (carried : List Cmd) :
    m.fillCommands (fuel + 1) (left + 1) carried =
      ((m.modify (Chain.dropHead rest)).fillPlaces).fillCommands fuel (left + 1) carried := by
  rw [Cm.fillCommands, h]
  exact if_pos hd

theorem Cm.fillCommands_of_alive {m : Cm} {x : QEntry} {rest : List QEntry} (h : m.ch.queue = x :: rest)
    (hd : m.ch.isDead x.cmd = false) (fuel left : Nat) (carried : List Cmd) :
    m.fillCommands (fuel + 1) (left + 1) carried =
      ((m.modify (Chain.leave x rest)).fillPlaces).fillCommands fuel left
        (if x.cmd.carried then carried ++ [x.cmd] else carried) := by
  rw [Cm.fillCommands, h]
  exact if_neg (ne_true_of_eq_false hd)

/-- What leaves waited in the queue or in a claim. -/
theorem Cm.fillCommands_holds (fuel : Nat) : ∀ (left : Nat) (carried : List Cmd) (m : Cm) {cmd : Cmd},
    cmd ∈ (m.fillCommands fuel left carried).2 → cmd ∈ carried ∨ m.ch.holds cmd := by
  induction fuel with
  | zero =>
    intro left carried m cmd h
    cases left <;> exact .inl h
  | succ fuel ih =>
    intro left carried m cmd h
    cases left with
    | zero => exact .inl h
    | succ left =>
      cases hq : m.ch.queue with
      | nil =>
        rw [Cm.fillCommands_of_nil hq] at h
        exact .inl h
      | cons x rest =>
        have hrest (hw : cmd ∈ rest.map (fun e => e.cmd) ∨ cmd ∈ m.ch.claims.map fun k => k.cmd.toCmd) :
            m.ch.holds cmd := by
          unfold Chain.holds
          rw [hq]
          exact hw.imp_left (List.mem_cons_of_mem _)
        cases hd : m.ch.isDead x.cmd with
        | true =>
          rw [Cm.fillCommands_of_dead hq hd] at h
          rcases ih _ _ _ h with h | h
          · exact .inl h
          · exact .inr (hrest (Cm.serveClaims_holds _ _ h))
        | false =>
          rw [Cm.fillCommands_of_alive hq hd] at h
          rcases ih _ _ _ h with h | h
          · split at h
            · rcases List.mem_append.1 h with h | h
              · exact .inl h
              · rw [List.mem_singleton.1 h]
                exact .inr (.inl (hq ▸ List.mem_cons_self))
            · exact .inl h
          · have hw := Cm.serveClaims_holds _ _ h
            rw [Cm.modify_ch, Chain.leave_claims] at hw
            exact .inr (hrest hw)

/-- Settles O14: an insertion and an eviction split the queue at its first configuration command, and the bundle is filled
entry by entry from what waits. -/
theorem commandQueueOrder : Obligations.CommandQueueOrder := by
  unfold Obligations.CommandQueueOrder
  refine ⟨⟨fun q x hq hx => ⟨insertRepair_inClassOrder hq hx, filter_repair_insertRepair hq hx,
    filter_config_insertRepair q hx⟩, fun q x => evictFrom_of_config, fun q x => evictFrom_of_repairs⟩, fun m =>
    ⟨m.departures_length, fun x hx => ?_⟩⟩
  exact (Cm.fillCommands_holds _ _ _ _ hx).resolve_left List.not_mem_nil

end Sys2Proof.Machine
end

section
/-! Chapters 2 and 3: the ticks of a Chain Manager (R26, R31, R42, R50, R58, R60). -/

namespace Sys2Proof.Machine

/-! ### Events at which nothing is due -/

theorem Cm.missing_of_none {m : Cm} (h : m.ch.collect = none) : m.missing = m := by
  rw [Cm.missing, h]

theorem Cm.failEvicted_of_none {m : Cm} (h : m.ch.attempt = none) : m.failEvicted = m := by
  rw [Cm.failEvicted, h]

theorem Cm.failEvicted_of_route {m : Cm} {t : Attempt} (h : m.ch.attempt = some t) (ht : t.evicted = false) :
    m.failEvicted = m := by
  rw [Cm.failEvicted, h]
  exact if_neg (ne_true_of_eq_false ht)

theorem Cm.failLapsed_of_none {m : Cm} (h : m.ch.attempt = none) : m.failLapsed = m := by
  rw [Cm.failLapsed, h]

theorem Cm.failLapsed_of_end {m : Cm} {t : Attempt} (h : m.ch.attempt = some t) (ht : t.lapsed = false) :
    m.failLapsed = m := by
  rw [Cm.failLapsed, h]
  exact if_neg (ne_true_of_eq_false ht)

/-- No return is missing and no attempt has failed. -/
theorem Cm.deadline_of_none {m : Cm} (hc : m.ch.collect = none) (ha : m.ch.attempt = none) : m.deadline = m := by
  rw [Cm.deadline, Cm.missing_of_none hc, Cm.failEvicted_of_none ha, Cm.failLapsed_of_none ha]

theorem Cm.deadline_of_attempt {m : Cm} {t : Attempt} (hc : m.ch.collect = none) (ha : m.ch.attempt = some t)
    (he : t.evicted = false) (hl : t.lapsed = false) : m.deadline = m := by
  rw [Cm.deadline, Cm.missing_of_none hc, Cm.failEvicted_of_route ha he, Cm.failLapsed_of_end ha hl]

theorem Cm.flushLost_of_nil {m : Cm} (h : m.ch.lostHeld = []) : m.flushLost = m := by
  have hch : ({ m.ch with lostHeld := [] } : Chain) = m.ch := congrArg (fun l => { m.ch with lostHeld := l }) h.symm
  rw [Cm.flushLost_eq, h, hch, List.map_nil, List.append_nil]

theorem Cm.fillPlaces_of_no_claims {m : Cm} (h : m.ch.claims = []) : m.fillPlaces = m := by
  have hch : ({ m.ch with claims := [] } : Chain) = m.ch := congrArg (fun l => { m.ch with claims := l }) h.symm
  rw [Cm.fillPlaces, h]
  exact congrArg (fun ch => { m with ch := ch }) hch

theorem Cm.makeRoom_of_room {m : Cm} (h : m.ch.queue.length < 16) : m.makeRoom = m := if_pos h

theorem Cm.offerEntry_of_room {m : Cm} (h : m.ch.queue.length < 16) (x : QEntry) :
    m.offerEntry x = m.modify fun ch => { ch with queue := insertRepair ch.queue x } := by
  rw [Cm.offerEntry, Cm.makeRoom_of_room h]

/-- The entry of a repair command that belongs to no attempt and ends no walk. -/
def Cmd.repairEntry (cmd : Cmd) : QEntry := { cmd := cmd, issuer := .manager, ofAttempt := false }

theorem Cm.offerRepair_of_room {m : Cm} (h : m.ch.queue.length < 16) (cmd : Cmd) :
    m.offerRepair cmd = m.modify fun ch => { ch with queue := insertRepair ch.queue cmd.repairEntry } :=
  Cm.offerEntry_of_room h _

/-! ### The commands of a bundle whose queue no claim waits on (R31) -/

theorem Cm.departures_of_nil {m : Cm} (hq : m.ch.queue = []) : m.departures = (m, []) :=
  Cm.fillCommands_of_nil hq _ _ _

/-- The commands that are carried among those that leave. -/
def Cmd.carriedList (cmd : Cmd) : List Cmd := if cmd.carried then [cmd] else []

theorem Cm.departures_of_one {m : Cm} {x : QEntry} (hq : m.ch.queue = [x]) (hclaims : m.ch.claims = [])
    (hx : m.ch.isDead x.cmd = false) : m.departures = (m.modify (Chain.leave x []), x.cmd.carriedList) := by
  rw [Cm.departures, Cm.fillCommands_of_alive hq hx,
    Cm.fillPlaces_of_no_claims (by rw [Cm.modify_ch, Chain.leave_claims, hclaims]), Cm.fillCommands_of_nil rfl]
  rfl

theorem Cm.departures_of_two {m : Cm} {x y : QEntry} (hq : m.ch.queue = [x, y]) (hclaims : m.ch.claims = [])
    (hx : m.ch.isDead x.cmd = false) (hy : (m.ch.leave x [y]).isDead y.cmd = false) (hcx : x.cmd.carried = true)
    (hcy : y.cmd.carried = true) :
    m.departures = (m.modify fun ch => (ch.leave x [y]).leave y [], [x.cmd, y.cmd]) := by
  rw [Cm.departures, Cm.fillCommands_of_alive hq hx,
    Cm.fillPlaces_of_no_claims (by rw [Cm.modify_ch, Chain.leave_claims, hclaims]), Cm.fillCommands_of_alive rfl hy,
    Cm.fillPlaces_of_no_claims (by simp only [Cm.modify_ch, Chain.leave_claims, hclaims]), Cm.fillCommands_of_nil rfl,
    if_pos hcx, if_pos hcy]
  rfl

/-! ### A bundle without a probe place (R42) -/

/-- A command is as dead on a new path as it was (R31). -/
theorem Chain.isDead_onPath (ch : Chain) (old new : List Place) (stop : Nat) (cmd : Cmd) :
    ch.isDead (cmd.onPath old new stop) = ch.isDead cmd := by
  cases cmd with
  | setEnd h on =>
    cases on with
    | false => rfl
    | true =>
      unfold Cmd.onPath endOnPath
      dsimp only
      split <;> rfl
  | route => rfl
  | configure => rfl
  | enable => rfl

/-- The chain record when its bundle takes a new path: END and the commands that wait are renumbered to it (R42). -/
def Chain.rerouted (ch : Chain) : Chain :=
  { ch with endHop := renumberEnd ch.lastPath ch.path.1 ch.endHop, lastPath := ch.path.1,
            queue := ch.queue.map fun x => { x with cmd := x.cmd.onPath ch.lastPath ch.path.1 ch.path.2 } }

theorem Cm.computePath_of_no_probe {m : Cm} (h : m.ch.state.probes = false) (n : Word16) (deciding : Bool) :
    m.computePath n deciding =
      (m.modify Chain.rerouted,
       { frame := n, path := m.ch.path.1, probe := none, stop := m.ch.path.2, deciding := deciding }) := by
  unfold Cm.computePath
  simp only [h, Bool.false_eq_true, if_false]
  simp only [Cm.modify, h, Bool.false_eq_true, if_false]
  rfl

theorem Cm.reportWalkDone_of_none {m : Cm} (h : m.ch.walkDoneDue = 0) : m.reportWalkDone = m := by
  have hch : ({ m.ch with walkDoneDue := 0 } : Chain) = m.ch := congrArg (fun l => { m.ch with walkDoneDue := l }) h.symm
  rw [Cm.reportWalkDone, h]
  exact congrArg (fun ch => { m with ch := ch }) hch

/-- The end of a bundle's preparation: its commands leave, and the Frame Assembler is ordered to build it. -/
def Cm.orderBundle (info : BundleInfo) (m : Cm) : Cm :=
  m.departures.1.reportWalkDone.emit (.order { frame := info.frame, kind := .assemble info m.departures.2 })

/-- The bundle that a chain without a walk prepares (R42). -/
def Chain.bundleInfo (n : Word16) (ch : Chain) : BundleInfo :=
  { frame := n, path := ch.path.1, probe := none, stop := ch.path.2, deciding := ch.decidesNext }

theorem Cm.prepareBundle_eq (n : Word16) (m : Cm) :
    m.prepareBundle n =
      let r := m.computePath n m.ch.decidesNext
      let offered := if m.ch.decidesNext then r.1.offerTrial else r.1
      (if offered.ch.state = .extending then offered.offerProbe else offered).orderBundle r.2 := rfl

theorem Cm.prepareBundle_of_plain {m : Cm} (hprobes : m.ch.state.probes = false) (hext : m.ch.state ≠ .extending)
    (hdec : m.ch.decidesNext = false) (n : Word16) :
    m.prepareBundle n = (m.modify Chain.rerouted).orderBundle (m.ch.bundleInfo n) := by
  have hstate : (m.modify Chain.rerouted).ch.state ≠ .extending := hext
  rw [Cm.prepareBundle_eq, Cm.computePath_of_no_probe hprobes]
  dsimp only
  rw [hdec, if_neg Bool.false_ne_true, if_neg hstate, Chain.bundleInfo, hdec]

/-- Room made in a queue changes the queue, a counter, the WALK_DONEs due and the attempt's mark alone (R30). -/
theorem Cm.makeRoom_state (m : Cm) : m.makeRoom.ch.state = m.ch.state := by
  unfold Cm.makeRoom
  split
  · rfl
  · split
    · rfl
    · dsimp only
      split <;> rfl

theorem Cm.offerRepair_state (cmd : Cmd) (m : Cm) : (m.offerRepair cmd).ch.state = m.ch.state := m.makeRoom_state

theorem Cm.offerTrial_state (m : Cm) : m.offerTrial.ch.state = m.ch.state := by
  cases ha : m.ch.attempt with
  | none => rw [Cm.offerTrial, ha]
  | some t =>
    have hon (m : Cm) : (if t.trialEnd = 0 then m else m.offerRepair (.setEnd t.trialEnd true)).ch.state = m.ch.state := by
      split
      · rfl
      · exact m.offerRepair_state _
    unfold Cm.offerTrial
    rw [ha]
    dsimp only
    split
    · split
      · exact (Cm.offerRepair_state _ _).trans (hon _)
      · exact hon _
    · exact hon _

theorem Cm.prepareBundle_of_deciding {m : Cm} (hprobes : m.ch.state.probes = false) (hext : m.ch.state ≠ .extending)
    (hdec : m.ch.decidesNext = true) (n : Word16) :
    m.prepareBundle n = (m.modify Chain.rerouted).offerTrial.orderBundle (m.ch.bundleInfo n) := by
  have hstate : (m.modify Chain.rerouted).offerTrial.ch.state ≠ .extending := by rwa [Cm.offerTrial_state]
  rw [Cm.prepareBundle_eq, Cm.computePath_of_no_probe hprobes]
  dsimp only
  rw [hdec, if_pos rfl, if_neg hstate, Chain.bundleInfo, hdec]

/-- The mode of a chain whose bundles the Frame Assembler builds without a probe place. -/
theorem ChainMode.not_probes {st : ChainMode} (h : st = .running ∨ st = .broken) :
    st.probes = false ∧ st ≠ .extending := by
  rcases h with rfl | rfl <;> exact ⟨rfl, nofun⟩

theorem Cm.send_of_bundle {m : Cm} (h : m.ch.state = .running ∨ m.ch.state = .broken) (n : Word16) :
    m.send n = m.prepareBundle n := by
  unfold Cm.send
  rcases h with h | h <;> rw [h]

theorem Cm.send_of_silent {m : Cm} (h : m.ch.state = .off ∨ m.ch.state = .faulted) (n : Word16) :
    m.send n = m.emit (.order { frame := n, kind := .none }) := by
  unfold Cm.send
  rcases h with h | h <;> rw [h]

theorem Cm.send_of_walking {m : Cm} (h : m.ch.state = .walking) (n : Word16) :
    m.send n = (m.prepareProbe n).emit (.order { frame := n, kind := .none }) := by
  rw [Cm.send, h]

/-- A tick at which the deadline finds nothing and no node was lost. -/
theorem Cm.tick_of_send {m m' : Cm} {n : Word16} (hp : m.ch.pendingDisable = false) (hd : m.deadline = m)
    (hsend : m.send n = m') (hlost : m'.ch.lostHeld = []) : m.tick n = m' := by
  rw [Cm.tick_of_enabled hp, hd, hsend, Cm.flushLost_of_nil hlost]

/-- The tick of a Chain Manager that hands its order on and nothing else. -/
theorem exec_chainManagerTick_of_order {c : ChainId} {n : Word16} {ticks : List Word16} {s : State} {ch : Chain}
    {o : FrameOrder} (hticks : s.mail.ticks.chains.get c = n :: ticks)
    (htick : Cm.tick n (s.manager c) = { id := c, ch := ch, out := [.order o] }) :
    exec (.chainManagerTick c) s =
      .next ((s.setChain c ch).setMail ((s.mail.chainTicks c ticks).giveOrder c o)).ended := by
  rw [exec_chainManagerTick_of_tick hticks, State.manage_of_outs (s := s.setChainTicks c ticks) htick]
  rfl

@[simp] theorem State.manager_ch (c : ChainId) (s : State) : (s.manager c).ch = s.chains.get c := rfl

theorem State.setChain_same (c : ChainId) (s : State) : s.setChain c (s.chains.get c) = s := by
  rw [State.setChain, Four.set_get]

/-! ### The first probe of a walk (R50) -/

/-- With no node at position 1 and the port route NORMAL the path is empty. -/
theorem Chain.path_of_no_first {ch : Chain} (hroute : ch.portRoute = .normal) (h : ch.atPosition 1 = none) :
    ch.path = ([], 1) := by
  unfold Chain.path Chain.pathFrom
  simp [hroute, h]

theorem Cm.computePath_of_probe {m : Cm} (h : m.ch.state.probes = true) (n : Word16) (deciding : Bool) :
    let full := m.ch.path.1 ++ [{ position := m.ch.path.2, address := none }]
    let probe := m.ch.probeHop.map fun _ => full.length
    m.computePath n deciding =
      (m.modify fun ch =>
        { ch with endHop := renumberEnd ch.lastPath full ch.endHop, lastPath := full, probeHop := probe,
                  queue := ch.queue.map fun x => { x with cmd := x.cmd.onPath ch.lastPath full m.ch.path.2 } },
       { frame := n, path := full, probe := probe, stop := m.ch.path.2, deciding := deciding }) := by
  unfold Cm.computePath
  simp only [h, if_true]
  simp only [Cm.modify, h, if_true]

theorem Cm.offerProbe_of_first {m : Cm} (h : m.ch.probeHop = some 1) : m.offerProbe = m.offerRepair (.setEnd 1 true) := by
  rw [Cm.offerProbe, h]
  exact if_neg (Nat.lt_irrefl 1)

theorem Cm.offerProbe_of_next {m : Cm} {p : Nat} (h : m.ch.probeHop = some p) (hp : 1 < p) :
    m.offerProbe = (m.offerRepair (.setEnd p true)).offerRepair (.setEnd (p - 1) false) := by
  rw [Cm.offerProbe, h]
  exact if_pos hp

/-- Settles O15: the tick of a silent chain, and the first probe of a walk. -/
theorem silentAndWalkingTicks : Obligations.SilentAndWalkingTicks := by
  unfold Obligations.SilentAndWalkingTicks
  refine ⟨?silent, ?walking⟩
  case silent =>
    intro c n ticks s ch hticks hstate hp hcollect hattempt hlost
    rw [exec_chainManagerTick_of_order hticks (Cm.tick_of_send (by exact hp) (Cm.deadline_of_none hcollect hattempt)
      (Cm.send_of_silent hstate n) (by exact hlost)), State.manager_ch,
      State.setChain_same]
  case walking =>
    intro c n ticks s ch hticks hstate hp hcollect hattempt hlost hq hclaims hprobe hend hroute hprobes hfree place info
    have hpath : ch.path = ([], 1) := Chain.path_of_no_first hroute hfree
    have hcomputed : (s.manager c).computePath n false = ((s.manager c).modify fun ch => { ch with lastPath := [place] }, info) := by
      rw [Cm.computePath_of_probe (by exact hstate ▸ rfl), State.manager_ch, hpath]
      simp [Cm.modify, hprobe, hend, hq, renumberEnd, ch, place, info]
    have hprepared : (s.manager c).prepareProbe n = (s.manager c).modify fun ch =>
        { ch with endHop := some 1, lastPath := [place], counters := { ch.counters with sent := bump16 ch.counters.sent },
                  probes := [{ info := info, gen := ch.lookGen, cmds := [.setEnd 1 true], blocks := [.empty],
                               ordered := false }] } := by
      rw [Cm.prepareProbe, hcomputed]
      dsimp only
      rw [Cm.offerProbe_of_first (by exact hprobe), Cm.offerRepair_of_room (by simp [hq, ch]),
        Cm.departures_of_one (x := Cmd.repairEntry (.setEnd 1 true)) _ (by exact hclaims) rfl]
      · simp [Cm.modify, Chain.leave, Chain.depart, Chain.probeBlock, Cmd.repairEntry, Cmd.carriedList, Cmd.carried,
          QEntry.walksEnded, hq, hprobes, ch, place, info]
      · simp [insertRepair, hq, ch]
    rw [exec_chainManagerTick_of_order hticks (Cm.tick_of_send (by exact hp) (Cm.deadline_of_none hcollect hattempt)
      ((Cm.send_of_walking hstate n).trans (congrArg _ hprepared)) (by exact hlost))]
    rfl

/-! ### The bundle of a chain without a walk (R31, R42, R58, R60) -/

/-- The table effect of a command does not look at the queue. -/
theorem Chain.depart_withQueue (ch : Chain) (q : List QEntry) (cmd : Cmd) :
    ({ ch with queue := q } : Chain).depart cmd = { ch.depart cmd with queue := q } := by
  have hnode (a : Nat) (f : Node → Node) :
      ({ ch with queue := q } : Chain).updateNode a f = { ch.updateNode a f with queue := q } := by
    unfold Chain.updateNode
    rw [show ({ ch with queue := q } : Chain).node a = ch.node a from rfl]
    split <;> rfl
  cases cmd with
  | setEnd h on =>
    cases on with
    | true => rfl
    | false =>
      unfold Chain.depart
      dsimp only
      split <;> rfl
  | route a r =>
    cases a with
    | none => rfl
    | some a => exact hnode a _
  | configure a tag x =>
    unfold Chain.depart
    dsimp only
    split
    · rfl
    · exact hnode a _
  | enable a =>
    unfold Chain.depart
    dsimp only
    split
    · rfl
    · exact hnode a _

theorem Chain.depart_walkDoneDue (ch : Chain) (cmd : Cmd) : (ch.depart cmd).walkDoneDue = ch.walkDoneDue := by
  rw [Chain.depart_eq]

theorem Chain.depart_attempt (ch : Chain) (cmd : Cmd) : (ch.depart cmd).attempt = ch.attempt := by
  rw [Chain.depart_eq]

theorem Chain.depart_counters (ch : Chain) (cmd : Cmd) : (ch.depart cmd).counters = ch.counters := by
  rw [Chain.depart_eq]

/-- The chain record with END renumbered to the path of its bundle (R42). -/
def Chain.renumbered (ch : Chain) : Chain :=
  { ch with endHop := renumberEnd ch.lastPath ch.path.1 ch.endHop, lastPath := ch.path.1 }

/-- A command that waits as the path of the bundle makes it (R42). -/
def Chain.onNewPath (ch : Chain) (cmd : Cmd) : Cmd := cmd.onPath ch.lastPath ch.path.1 ch.path.2

/-- The chain record behind a bundle that carried its queue's one entry (R31, R58). -/
def Chain.sentOne (x : QEntry) (ch : Chain) : Chain :=
  { ch.renumbered.depart (ch.onNewPath x.cmd) with
    queue := [], counters := { ch.counters with sent := bump16 ch.counters.sent },
    attempt := if x.ofAttempt then ch.attempt.map fun t => { t with phase := .deciding } else ch.attempt }

theorem Chain.leave_rerouted {ch : Chain} {x : QEntry} (hx : x.endsWalk = false) :
    ch.rerouted.leave { x with cmd := ch.onNewPath x.cmd } [] = ch.sentOne x := by
  have hreroute : ch.rerouted = { ch.renumbered with queue := ch.rerouted.queue } := rfl
  unfold Chain.leave Chain.sentOne
  rw [hreroute, Chain.depart_withQueue]
  simp only [QEntry.walksEnded, hx, Bool.false_eq_true, if_false, Nat.add_zero]
  rw [Chain.depart_eq]
  rfl

theorem Cm.prepareBundle_of_one {m : Cm} {x : QEntry} (hstate : m.ch.state = .running ∨ m.ch.state = .broken)
    (hdec : m.ch.decidesNext = false) (hdue : m.ch.walkDoneDue = 0) (hq : m.ch.queue = [x]) (hclaims : m.ch.claims = [])
    (hx : x.endsWalk = false) (hdead : m.ch.isDead x.cmd = false) (n : Word16) :
    m.prepareBundle n = (m.modify (Chain.sentOne x)).emit (.order
      { frame := n, kind := .assemble (m.ch.bundleInfo n) (m.ch.onNewPath x.cmd).carriedList }) := by
  obtain ⟨hprobes, hext⟩ := ChainMode.not_probes hstate
  have hqueue : (m.modify Chain.rerouted).ch.queue = [{ x with cmd := m.ch.onNewPath x.cmd }] := by
    simp [Chain.rerouted, hq, Chain.onNewPath]
  have hsent : (m.modify Chain.rerouted).modify (Chain.leave { x with cmd := m.ch.onNewPath x.cmd } []) =
      m.modify (Chain.sentOne x) := congrArg (fun ch => { m with ch := ch }) (Chain.leave_rerouted hx)
  have hdone : (m.modify (Chain.sentOne x)).ch.walkDoneDue = 0 := (Chain.depart_walkDoneDue _ _).trans hdue
  rw [Cm.prepareBundle_of_plain hprobes hext hdec, Cm.orderBundle,
    Cm.departures_of_one hqueue (by exact hclaims) (by exact (Chain.isDead_onPath _ _ _ _ _).trans hdead), hsent]
  dsimp only
  rw [Cm.reportWalkDone_of_none hdone]
  rfl

theorem Chain.sentOne_lostHeld (ch : Chain) (x : QEntry) : (ch.sentOne x).lostHeld = ch.lostHeld := by
  unfold Chain.sentOne
  rw [Chain.depart_eq]
  rfl

theorem exec_chainManagerTick_of_one {c : ChainId} {n : Word16} {ticks : List Word16} {s : State} {x : QEntry}
    (hticks : s.mail.ticks.chains.get c = n :: ticks)
    (hstate : (s.chains.get c).state = .running ∨ (s.chains.get c).state = .broken)
    (hp : (s.chains.get c).pendingDisable = false) (hd : (s.manager c).deadline = s.manager c)
    (hdec : (s.chains.get c).decidesNext = false) (hlost : (s.chains.get c).lostHeld = [])
    (hdue : (s.chains.get c).walkDoneDue = 0) (hq : (s.chains.get c).queue = [x])
    (hclaims : (s.chains.get c).claims = []) (hx : x.endsWalk = false)
    (hdead : (s.chains.get c).isDead x.cmd = false) :
    exec (.chainManagerTick c) s =
      .next ((s.setChain c ((s.chains.get c).sentOne x)).setMail ((s.mail.chainTicks c ticks).giveOrder c
        { frame := n, kind := .assemble ((s.chains.get c).bundleInfo n)
            ((s.chains.get c).onNewPath x.cmd).carriedList })).ended :=
  exec_chainManagerTick_of_order hticks (Cm.tick_of_send hp hd
    ((Cm.send_of_bundle hstate n).trans (Cm.prepareBundle_of_one hstate hdec hdue hq hclaims hx hdead n))
    ((Chain.sentOne_lostHeld _ x).trans hlost))

theorem Chain.sentOne_of_other {ch : Chain} {x : QEntry} (h : x.ofAttempt = false) :
    ch.sentOne x =
      { ch.renumbered.depart (ch.onNewPath x.cmd) with
        queue := [], counters := { ch.counters with sent := bump16 ch.counters.sent } } := by
  unfold Chain.sentOne
  rw [if_neg (ne_true_of_eq_false h)]
  exact congrArg
    (fun a => ({ ch.renumbered.depart (ch.onNewPath x.cmd) with
      queue := [], counters := { ch.counters with sent := bump16 ch.counters.sent }, attempt := a } : Chain))
    (Chain.depart_attempt ch.renumbered _).symm

theorem Chain.sentOne_of_attempt {ch : Chain} {x : QEntry} {t : Attempt} (h : x.ofAttempt = true)
    (ha : ch.attempt = some t) :
    ch.sentOne x =
      { ch.renumbered.depart (ch.onNewPath x.cmd) with
        queue := [], counters := { ch.counters with sent := bump16 ch.counters.sent },
        attempt := some { t with phase := .deciding } } := by
  unfold Chain.sentOne
  rw [if_pos h, ha]
  rfl

/-! ### The deciding bundle (R60) -/

theorem Chain.depart_setEnd (ch : Chain) (h : Nat) (on : Bool) :
    ch.depart (.setEnd h on) = { ch with endHop := (Cmd.setEnd h on).endAfter ch.endHop } := by
  cases on with
  | true => rfl
  | false => exact Chain.depart_setEnd_off ch h

theorem Chain.leave_setEnd (ch : Chain) (h : Nat) (on : Bool) (rest : List QEntry) :
    ch.leave (Cmd.setEnd h on).repairEntry rest =
      { ch with endHop := (Cmd.setEnd h on).endAfter ch.endHop, queue := rest,
                counters := { ch.counters with sent := bump16 ch.counters.sent } } := by
  unfold Chain.leave
  rw [show (Cmd.setEnd h on).repairEntry.cmd = .setEnd h on from rfl, Chain.depart_setEnd]
  rfl

/-- The chain record when SET_END commands and nothing else leave its queue (R33). -/
def Chain.leaveEnds (l : List Cmd) (ch : Chain) : Chain :=
  { ch with queue := [], endHop := l.foldl (fun e cmd => cmd.endAfter e) ch.endHop,
            counters := { ch.counters with sent := bump16By l.length ch.counters.sent } }

/-- SET_END commands leave in their order (R31, R33). -/
theorem Cm.fillCommands_of_ends (l : List (Nat × Bool)) : ∀ (fuel left : Nat) (carried : List Cmd) (m : Cm),
    m.ch.queue = l.map (fun e => (Cmd.setEnd e.1 e.2).repairEntry) → m.ch.claims = [] → l.length ≤ fuel →
    l.length ≤ left →
    m.fillCommands fuel left carried =
      (m.modify (Chain.leaveEnds (l.map fun e => .setEnd e.1 e.2)), carried ++ l.map fun e => .setEnd e.1 e.2) := by
  induction l with
  | nil =>
    intro fuel left carried m hq hclaims _ _
    have hch : m.ch.leaveEnds [] = m.ch := congrArg (fun q => ({ m.ch with queue := q } : Chain)) hq.symm
    rw [Cm.fillCommands_of_nil hq, List.map_nil, List.append_nil]
    exact congrArg (fun ch => (({ m with ch := ch } : Cm), carried)) hch.symm
  | cons e l ih =>
    intro fuel left carried m hq hclaims hfuel hleft
    obtain ⟨fuel, rfl⟩ := Nat.exists_eq_succ_of_ne_zero (Nat.ne_of_gt (Nat.lt_of_lt_of_le (Nat.succ_pos _) hfuel))
    obtain ⟨left, rfl⟩ := Nat.exists_eq_succ_of_ne_zero (Nat.ne_of_gt (Nat.lt_of_lt_of_le (Nat.succ_pos _) hleft))
    rw [Cm.fillCommands_of_alive hq rfl, Cm.fillPlaces_of_no_claims (by rw [Cm.modify_ch, Chain.leave_claims, hclaims]),
      ih _ _ _ _ (by rw [Cm.modify_ch, Chain.leave_setEnd]) (by rw [Cm.modify_ch, Chain.leave_claims, hclaims])
        (Nat.le_of_succ_le_succ hfuel) (Nat.le_of_succ_le_succ hleft)]
    have hleaves : (m.ch.leave (Cmd.setEnd e.1 e.2).repairEntry
          (l.map fun e => (Cmd.setEnd e.1 e.2).repairEntry)).leaveEnds (l.map fun e => .setEnd e.1 e.2) =
        m.ch.leaveEnds ((e :: l).map fun e => .setEnd e.1 e.2) := by
      rw [Chain.leave_setEnd]
      rfl
    exact Prod.ext (congrArg (fun ch => ({ m with ch := ch } : Cm)) hleaves)
      (List.append_assoc carried [.setEnd e.1 e.2] _)

theorem Cm.departures_of_ends {m : Cm} (l : List (Nat × Bool))
    (hq : m.ch.queue = l.map fun e => (Cmd.setEnd e.1 e.2).repairEntry) (hclaims : m.ch.claims = [])
    (hlen : l.length ≤ 4) :
    m.departures = (m.modify (Chain.leaveEnds (l.map fun e => .setEnd e.1 e.2)), l.map fun e => .setEnd e.1 e.2) :=
  (Cm.fillCommands_of_ends l _ _ [] m hq hclaims (hlen.trans (by decide)) hlen).trans (by rw [List.nil_append])

/-- END's commands of the deciding bundle, for an attempt with trial END hop `trial` and END renumbered (R60). -/
def trialEnds (trial : Nat) (renumbered : Option Nat) : List (Nat × Bool) :=
  (if trial = 0 then [] else [(trial, true)]) ++
    (match renumbered with
      | some k => if k ≠ trial then [(k, false)] else []
      | none => [])

theorem trialEnds_length (trial : Nat) (renumbered : Option Nat) : (trialEnds trial renumbered).length ≤ 4 := by
  unfold trialEnds
  rw [List.length_append]
  have hfirst : (if trial = 0 then [] else [(trial, true)]).length ≤ 1 := by split <;> simp
  have hlast : (match renumbered with
      | some k => if k ≠ trial then [(k, false)] else []
      | none => []).length ≤ 1 := by
    split
    · split <;> simp
    · simp
  omega

/-- A SET_END offered to a queue of SET_ENDs and nothing else stands last. -/
theorem insertRepair_ends (l : List (Nat × Bool)) (h : Nat) (on : Bool) :
    insertRepair (l.map fun e => (Cmd.setEnd e.1 e.2).repairEntry) (Cmd.setEnd h on).repairEntry =
      (l ++ [(h, on)]).map fun e => (Cmd.setEnd e.1 e.2).repairEntry := by
  induction l with
  | nil => rfl
  | cons e l ih =>
    rw [List.map_cons, insertRepair_cons_repair rfl, ih]
    rfl

/-- The chain record with SET_END commands and nothing else in its queue. -/
def Chain.withEnds (l : List (Nat × Bool)) (ch : Chain) : Chain :=
  { ch with queue := l.map fun e => (Cmd.setEnd e.1 e.2).repairEntry }

theorem Cm.offerRepair_of_ends {m : Cm} {l : List (Nat × Bool)}
    (hq : m.ch.queue = l.map fun e => (Cmd.setEnd e.1 e.2).repairEntry) (hlen : l.length < 16) (h : Nat) (on : Bool) :
    m.offerRepair (.setEnd h on) = m.modify (Chain.withEnds (l ++ [(h, on)])) := by
  rw [Cm.offerRepair_of_room (by rwa [hq, List.length_map])]
  refine congrArg (fun q => m.modify fun ch => { ch with queue := q }) (a₁ := insertRepair m.ch.queue _) ?_
  rw [hq, insertRepair_ends]

/-- The chain record with its attempt's deciding bundle prepared (R60). -/
def Chain.withBundled (t : Attempt) (ch : Chain) : Chain := { ch with attempt := some { t with bundled := true } }

theorem Cm.offerTrial_eq {m : Cm} {t : Attempt} (ha : m.ch.attempt = some t) :
    m.offerTrial =
      let first := if t.trialEnd = 0 then m.modify (Chain.withBundled t)
        else (m.modify (Chain.withBundled t)).offerRepair (.setEnd t.trialEnd true)
      match m.ch.endHop with
      | some k => if k ≠ t.trialEnd then first.offerRepair (.setEnd k false) else first
      | none => first := by
  unfold Cm.offerTrial
  rw [ha]
  rfl

theorem Cm.offerTrial_of_empty {m : Cm} {t : Attempt} (ha : m.ch.attempt = some t) (hq : m.ch.queue = []) :
    m.offerTrial = { m with ch := (m.ch.withBundled t).withEnds (trialEnds t.trialEnd m.ch.endHop) } := by
  have hlen : (if t.trialEnd = 0 then [] else [(t.trialEnd, true)]).length < 16 := by split <;> simp
  have hfirst : (if t.trialEnd = 0 then m.modify (Chain.withBundled t)
      else (m.modify (Chain.withBundled t)).offerRepair (.setEnd t.trialEnd true)) =
      { m with ch := (m.ch.withBundled t).withEnds (if t.trialEnd = 0 then [] else [(t.trialEnd, true)]) } := by
    split
    · exact congrArg (fun q => ({ m with ch := { m.ch.withBundled t with queue := q } } : Cm)) hq
    · exact Cm.offerRepair_of_ends (l := []) (m := m.modify (Chain.withBundled t)) hq (by simp) t.trialEnd true
  rw [Cm.offerTrial_eq ha]
  dsimp only
  rw [hfirst]
  unfold trialEnds
  cases m.ch.endHop with
  | none => rw [List.append_nil]
  | some k =>
    dsimp only
    split
    · exact Cm.offerRepair_of_ends (m := { m with ch := (m.ch.withBundled t).withEnds _ }) rfl hlen k false
    · rw [List.append_nil]

theorem Cm.orderBundle_of_ends {m : Cm} (l : List (Nat × Bool))
    (hq : m.ch.queue = l.map fun e => (Cmd.setEnd e.1 e.2).repairEntry) (hclaims : m.ch.claims = [])
    (hlen : l.length ≤ 4) (hdue : m.ch.walkDoneDue = 0) (info : BundleInfo) :
    m.orderBundle info =
      (m.modify (Chain.leaveEnds (l.map fun e => .setEnd e.1 e.2))).emit (.order
        { frame := info.frame, kind := .assemble info (l.map fun e => .setEnd e.1 e.2) }) := by
  rw [Cm.orderBundle, Cm.departures_of_ends l hq hclaims hlen]
  dsimp only
  rw [Cm.reportWalkDone_of_none (by exact hdue)]

/-- The chain record behind its deciding bundle (R60). -/
def Chain.decided (t : Attempt) (ch : Chain) : Chain :=
  ((ch.rerouted.withBundled t).withEnds (trialEnds t.trialEnd ch.rerouted.endHop)).leaveEnds
    ((trialEnds t.trialEnd ch.rerouted.endHop).map fun e => .setEnd e.1 e.2)

theorem Cm.prepareBundle_of_decision {m : Cm} {t : Attempt} (hstate : m.ch.state = .running ∨ m.ch.state = .broken)
    (hdec : m.ch.decidesNext = true) (hattempt : m.ch.attempt = some t) (hdue : m.ch.walkDoneDue = 0)
    (hq : m.ch.queue = []) (hclaims : m.ch.claims = []) (n : Word16) :
    m.prepareBundle n = (m.modify (Chain.decided t)).emit (.order
      { frame := n, kind := .assemble (m.ch.bundleInfo n)
          ((trialEnds t.trialEnd m.ch.rerouted.endHop).map fun e => .setEnd e.1 e.2) }) := by
  obtain ⟨hprobes, hext⟩ := ChainMode.not_probes hstate
  have hqueue : (m.modify Chain.rerouted).ch.queue = [] := by simp [Chain.rerouted, hq]
  rw [Cm.prepareBundle_of_deciding hprobes hext hdec,
    Cm.offerTrial_of_empty (m := m.modify Chain.rerouted) hattempt hqueue]
  exact Cm.orderBundle_of_ends
    (m := { m with ch := (m.ch.rerouted.withBundled t).withEnds (trialEnds t.trialEnd m.ch.rerouted.endHop) })
    (trialEnds t.trialEnd m.ch.rerouted.endHop) rfl hclaims (trialEnds_length _ _) hdue _

/-- Settles O16: the entry that waits leaves, or END's two commands of the deciding bundle do. -/
theorem runningTickSendsTheQueuedCommand : Obligations.RunningTickSendsTheQueuedCommand := by
  unfold Obligations.RunningTickSendsTheQueuedCommand
  refine ⟨?running, ?routing, ?deciding⟩
  case running =>
    intro c n ticks x s ch hticks hstate hp hcollect hattempt hlost hdue hq hclaims hof hends hdead renumbered cmd sent info
    have hdec : (s.chains.get c).decidesNext = false := by rw [Chain.decidesNext, hattempt]
    have hinfo : (s.chains.get c).bundleInfo n = info := by rw [Chain.bundleInfo, hdec]
    have hsent : (s.chains.get c).sentOne x = sent := Chain.sentOne_of_other hof
    refine ⟨fun hpath => ?_, ?_⟩
    · exact (congrArg (fun p => x.cmd.onPath p ch.path.1 ch.path.2) hpath).trans (Cmd.onPath_same _ _ _)
    · rw [exec_chainManagerTick_of_one hticks (.inl hstate) hp (Cm.deadline_of_none hcollect hattempt) hdec hlost hdue hq
        hclaims hends hdead, hsent, hinfo]
      rfl
  case routing =>
    intro c n ticks x t s ch hticks hstate hp hcollect hattempt hphase hev hlapsed hlost hdue hq hclaims hof hends hdead
      renumbered cmd sent info
    have hdec : (s.chains.get c).decidesNext = false := by
      rw [Chain.decidesNext, hattempt]
      simp [hphase]
    have hinfo : (s.chains.get c).bundleInfo n = info := by rw [Chain.bundleInfo, hdec]
    have hsent : (s.chains.get c).sentOne x = sent := Chain.sentOne_of_attempt hof hattempt
    rw [exec_chainManagerTick_of_one hticks hstate hp (Cm.deadline_of_attempt hcollect hattempt hev hlapsed) hdec hlost hdue
      hq hclaims hends hdead, hsent, hinfo]
    rfl
  case deciding =>
    intro c n ticks t s ch hticks hstate hp hcollect hattempt hphase hbundled hev hlapsed hlost hdue hq hclaims info
      renumbered after
    have hdec : (s.chains.get c).decidesNext = true := by
      rw [Chain.decidesNext, hattempt]
      simp [hphase, hbundled, hev]
    have hinfo : (s.chains.get c).bundleInfo n = info := by rw [Chain.bundleInfo, hdec]
    obtain ⟨hprobes, hext⟩ := ChainMode.not_probes hstate
    have hexec (ends : List (Nat × Bool)) (hends : trialEnds t.trialEnd renumbered = ends) :
        exec (.chainManagerTick c) s =
          .next (after (ends.foldl (fun e x => (Cmd.setEnd x.1 x.2).endAfter e) renumbered)
            (ends.map fun e => .setEnd e.1 e.2)) := by
      subst hends
      have hempty : ch.queue = [] := hq
      rw [exec_chainManagerTick_of_order hticks (Cm.tick_of_send (by exact hp)
        (Cm.deadline_of_attempt hcollect hattempt hev hlapsed)
        ((Cm.send_of_bundle hstate n).trans (Cm.prepareBundle_of_decision hstate hdec hattempt hdue hq hclaims n))
        (by exact hlost)), State.manager_ch, hinfo]
      have hchain : (s.chains.get c).decided t =
          { ch with
            lastPath := ch.path.1,
            endHop := (trialEnds t.trialEnd renumbered).foldl (fun e x => (Cmd.setEnd x.1 x.2).endAfter e) renumbered,
            attempt := some { t with bundled := true },
            counters := { ch.counters with
              sent := bump16By ((trialEnds t.trialEnd renumbered).map fun e => Cmd.setEnd e.1 e.2).length
                ch.counters.sent } } := by
        rw [Chain.decided, Chain.leaveEnds, List.foldl_map]
        exact congrArg
          (fun q => ({ ch with
            lastPath := ch.path.1, queue := q,
            endHop := (trialEnds t.trialEnd renumbered).foldl (fun e x => (Cmd.setEnd x.1 x.2).endAfter e) renumbered,
            attempt := some { t with bundled := true },
            counters := { ch.counters with
              sent := bump16By ((trialEnds t.trialEnd renumbered).map fun e => Cmd.setEnd e.1 e.2).length
                ch.counters.sent } } : Chain)) hempty.symm
      rw [Cm.modify_ch, State.manager_ch, hchain]
      rfl
    refine ⟨fun k h0 hk hne => ?_, fun h0 hr => ?_, fun k h0 hk hne => ?_, fun h0 hr => ?_⟩
    · rw [hexec [(t.trialEnd, true), (k, false)] (by simp [trialEnds, h0, hk, hne])]
      simp [Cmd.endAfter, Ne.symm hne]
    · rw [hexec [(t.trialEnd, true)] (by rcases hr with h | h <;> simp [trialEnds, h0, h])]
      rfl
    · rw [hexec [(k, false)] (by simp [trialEnds, h0, hk, hne])]
      simp [Cmd.endAfter, hk]
    · rw [hexec [] (by simp [trialEnds, h0, hr])]
      simp [hr]

end Sys2Proof.Machine
end

section
/-! Chapter 3: returns. The items of a return stream (R41, R200), and a return that is missing (R41, R55, R56). -/

namespace Sys2Proof.Machine

/-! ### What a Chain Manager's event leaves unchanged -/

theorem State.deliverCm_chains (c : ChainId) (s : State) (o : CmOut) : (s.deliverCm c o).chains = s.chains := by
  cases o <;> rfl

theorem State.deliverAll_chains (c : ChainId) (l : List CmOut) (s : State) :
    (l.foldl (State.deliverCm c) s).chains = s.chains := by
  induction l generalizing s with
  | nil => rfl
  | cons o l ih => exact (ih _).trans (State.deliverCm_chains c s o)

theorem State.manage_chain (c : ChainId) (f : Cm → Cm) (s : State) :
    (s.manage c f).chains.get c = (f (s.manager c)).ch := by
  rw [State.manage_eq, State.deliverAll_chains]
  exact Four.get_set_same _ _ _

theorem State.manage_other_chain {c d : ChainId} (h : d ≠ c) (f : Cm → Cm) (s : State) :
    (s.manage c f).chains.get d = s.chains.get d := by
  rw [State.manage_eq, State.deliverAll_chains]
  exact Four.get_set_ne _ h _

theorem State.manage_congr {c : ChainId} {f g : Cm → Cm} {s : State} (h : f (s.manager c) = g (s.manager c)) :
    s.manage c f = s.manage c g := by
  rw [State.manage_eq, State.manage_eq, h]

/-! ### RETURN_DEADLINE (R41) -/

theorem exec_returnDeadline_of_due {c : ChainId} {k : Collection} {s : State} (hk : (s.chains.get c).collect = some k)
    (hp : (s.chains.get c).pendingDisable = false) (ht : s.mail.ticks.chains.get c ≠ []) :
    exec (.returnDeadline c) s = .next (s.manage c Cm.deadline).ended := by
  refine if_pos ?_
  rw [hk, hp]
  simpa using ht

/-- A deadline at which no attempt fails for its ROUTE or its END. -/
theorem Cm.deadline_of_missing {m m' : Cm} (h : m.missing = m')
    (ha : ∀ t, m'.ch.attempt = some t → t.evicted = false ∧ t.lapsed = false) : m.deadline = m' := by
  rw [Cm.deadline, h]
  cases hat : m'.ch.attempt with
  | none => rw [Cm.failEvicted_of_none hat, Cm.failLapsed_of_none hat]
  | some t => rw [Cm.failEvicted_of_route hat (ha t hat).1, Cm.failLapsed_of_end hat (ha t hat).2]

/-- The chain record when the return it collects is missing (R41). -/
def Chain.withMissing (ch : Chain) : Chain :=
  { ch with collect := none, counters := { ch.counters with missing := bump16 ch.counters.missing } }

theorem Chain.deciding_of_no_attempt {ch : Chain} (h : ch.attempt = none) (info : BundleInfo) : ch.deciding info = none := by
  unfold Chain.deciding
  rw [h]
  split <;> rfl

theorem Cm.missing_of_running {m : Cm} {k : Collection} (hk : m.ch.collect = some k) (hs : m.ch.state = .running)
    (ha : m.ch.attempt = none) : m.missing = (m.modify Chain.withMissing).countBreak k.info := by
  simp only [Cm.missing, hk, Cm.modify, Chain.withMissing, hs, ha, Chain.deciding_of_no_attempt]

theorem Cm.missing_of_broken {m : Cm} {k : Collection} (hk : m.ch.collect = some k) (hs : m.ch.state = .broken)
    (ha : m.ch.attempt = none) : m.missing = (m.modify Chain.withMissing).probeBack k.info := by
  simp only [Cm.missing, hk, Cm.modify, Chain.withMissing, hs, ha]

/-! ### Breaks and probe-back (R55, R56) -/

/-- The chain record with its break count raised (R55). -/
def Chain.breakCounted (ch : Chain) : Chain := { ch with breakCount := bump15 ch.breakCount }

theorem bump15_eq_min {n : Nat} (h : n ≤ 15) : bump15 n = min (n + 1) 15 := by
  unfold bump15
  split <;> omega

theorem Cm.countBreak_of_few {m : Cm} (h : m.ch.breakCount = 15 ∨ m.ch.breakCount + 1 < m.ch.breakLimit)
    (hle : m.ch.breakCount ≤ 15) (info : BundleInfo) : m.countBreak info = m.modify Chain.breakCounted := by
  refine if_neg fun hand => ?_
  obtain ⟨hlt, hlimit, -⟩ := hand
  simp only [Cm.modify, bump15_eq_min hle] at hlt hlimit
  omega

theorem Cm.countBreak_of_limit {m : Cm} (hlt : m.ch.breakCount < 15) (hlimit : m.ch.breakLimit ≤ m.ch.breakCount + 1)
    (ha : m.ch.attempt = none) (info : BundleInfo) :
    m.countBreak info =
      ((((m.modify Chain.breakCounted).modify fun ch => { ch with state := .broken, brokenFrom := ch.endHop }).fault
        (.chainBroken m.ch.endHop) none).chainReport .broken).probeBack info := by
  refine if_pos ⟨?_, ?_, ha⟩
  all_goals
    simp only [Cm.modify, bump15, if_pos hlt]
    omega

/-- A repair command that joins a queue with room for it. -/
def Chain.offered (cmd : Cmd) (ch : Chain) : Chain := { ch with queue := insertRepair ch.queue cmd.repairEntry }

theorem Cm.offerRepair_eq {m : Cm} (h : m.ch.queue.length < 16) (cmd : Cmd) :
    m.offerRepair cmd = m.modify (Chain.offered cmd) := Cm.offerRepair_of_room h cmd

theorem Chain.offered_length (cmd : Cmd) (ch : Chain) : (ch.offered cmd).queue.length = ch.queue.length + 1 :=
  insertRepair_length _ _

theorem Cm.offerRepair_twice {m : Cm} (h : m.ch.queue.length ≤ 14) (cmd cmd' : Cmd) :
    (m.offerRepair cmd).offerRepair cmd' = m.modify fun ch => (ch.offered cmd).offered cmd' := by
  have hlen : (m.modify (Chain.offered cmd)).ch.queue.length < 16 := by
    rw [Cm.modify_ch, Chain.offered_length]
    omega
  rw [Cm.offerRepair_eq (m := m) (by omega), Cm.offerRepair_eq hlen]
  rfl

/-- END moves one hop inward (R56). -/
theorem Cm.probeBack_of_inner {m : Cm} {e : Nat} (hend : m.ch.endHop = some e) (he : 1 < e)
    (h : m.ch.queue.length ≤ 14) (info : BundleInfo) :
    m.probeBack info = m.modify fun ch => (ch.offered (.setEnd (e - 1) true)).offered (.setEnd e false) := by
  rw [Cm.probeBack, hend]
  exact (if_pos he).trans (Cm.offerRepair_twice h _ _)

theorem Cm.probeBack_of_first {m : Cm} {info : BundleInfo} {q a : Nat} (hend : m.ch.endHop = some 1)
    (hpath : info.path.head? = some { position := q, address := some a }) :
    m.probeBack info = (m.offerRepair (.setEnd 1 false)).beginBypass a none 0 := by
  have hplace : placeAt info.path 1 = some { position := q, address := some a } := by
    rw [← hpath, List.head?_eq_getElem?]
    rfl
  rw [Cm.probeBack, hend]
  dsimp only
  rw [if_neg (Nat.lt_irrefl 1), hplace]

/-- No FAILED node stands next to position `q` (R58). -/
theorem Chain.besideFailed_eq_false {ch : Chain} {q : Nat}
    (h : ∀ b m, ch.node b = some m → m.state = .failed → m.position + 1 ≠ q ∧ q + 1 ≠ m.position) :
    ch.besideFailed q = false := by
  unfold Chain.besideFailed
  rw [List.any_eq_false]
  rintro ⟨b, n⟩ hmem hb
  obtain ⟨hfailed, hbeside⟩ := of_decide_eq_true hb
  obtain ⟨hne, hne'⟩ := h b n (Chain.mem_enrolled.1 hmem) hfailed
  exact hbeside.elim hne hne'

theorem Chain.positionOf_of_node {ch : Chain} {a : Nat} {n : Node} (h : ch.node a = some n) :
    ch.positionOf (some a) = n.position := by
  rw [Chain.positionOf, h]

theorem Chain.routeOf_of_node {ch : Chain} {a : Nat} {n : Node} (h : ch.node a = some n) :
    ch.routeOf (some a) = n.route := by
  rw [Chain.routeOf, h]

/-- The repair attempt of a bypass that begins (R58). -/
def bypassAttempt (target : Nat) (pred : Option Nat) (trialEnd : Nat) : Attempt :=
  { kind := .bypass, target := target, pred := pred, phase := .routing, trialEnd := trialEnd, bundled := false,
    evicted := false, lapsed := false }

/-- The END hop from which the trial END hop of a bypass is reckoned (R58). -/
def Chain.bypassEnd (ch : Chain) : Option Nat := if ch.state = .broken then ch.brokenFrom else ch.nextEnd

/-- The chain record with a bypass attempt begun, its ROUTE in the queue (R58). -/
def Chain.bypassing (target : Nat) (pred : Option Nat) (ch : Chain) : Chain :=
  { ch with attempt := some (bypassAttempt target pred (ch.bypassEnd.getD 0 - 1)),
            queue := insertRepair ch.queue { cmd := .route pred .skipNext, issuer := .manager, ofAttempt := true } }

theorem Chain.bypassing_of_broken {ch : Chain} (h : ch.state = .broken) (target : Nat) (pred : Option Nat) :
    ch.bypassing target pred =
      { ch with attempt := some (bypassAttempt target pred (ch.brokenFrom.getD 0 - 1)),
                queue := insertRepair ch.queue { cmd := .route pred .skipNext, issuer := .manager, ofAttempt := true } } := by
  rw [Chain.bypassing, Chain.bypassEnd, if_pos h]

/-- The attempt of a bypass that begins has lost neither its ROUTE nor its END. -/
theorem Chain.bypassing_attempt (target : Nat) (pred : Option Nat) (ch : Chain) (t : Attempt)
    (h : (ch.bypassing target pred).attempt = some t) : t.evicted = false ∧ t.lapsed = false := by
  obtain rfl := Option.some.inj h
  exact ⟨rfl, rfl⟩

/-- A bypass attempt begins where no FAILED node stands beside its target and its predecessor has the NORMAL route (R58). -/
theorem Cm.beginBypass_of_clear {m : Cm} {target : Nat} {pred : Option Nat}
    (hbeside : m.ch.besideFailed (m.ch.positionOf (some target)) = false) (hroute : m.ch.routeOf pred = .normal)
    (h : m.ch.queue.length < 16) (hop : Nat) : m.beginBypass target pred hop = m.modify (Chain.bypassing target pred) := by
  rw [Cm.beginBypass, if_neg (by rw [hbeside, hroute]; simp), Cm.offerAttemptRoute, Cm.offerEntry_of_room (by exact h)]
  rfl

/-! ### The items of a return (R41, R200) -/

theorem exec_returnItemReceived (c : ChainId) (item : List Byte) (s : State) :
    exec (.returnItemReceived c item) s = .next (s.manage c (Cm.takeItem item)).ended := rfl

section Items

variable {m : Cm} {k : Collection}

theorem Cm.takeItem_of_none (h : m.ch.collect = none) (item : List Byte) : m.takeItem item = m := by
  rw [Cm.takeItem, h]

theorem Cm.takeItem_of_stopped (h : m.ch.collect = some k) (hs : k.stopped = true) (item : List Byte) :
    m.takeItem item = m := by
  rw [Cm.takeItem, h]
  exact if_pos hs

/-- An item that is read, by its type byte. -/
theorem Cm.takeItem_of_open (h : m.ch.collect = some k) (hs : k.stopped = false) (ty : Byte) (more : List Byte) :
    m.takeItem (ty :: more) =
      if ty = 0x54 then
        match more with
        | [hop, echo, h, l] => m.takeTrailer k ty hop echo h l
        | _ => m
      else if ty = 0x51 ∨ ty = 0x52 then m.gather k (ty :: more)
      else m.returnCheck { k.restart with stopped := true } := by
  rw [Cm.takeItem, h]
  exact if_neg (ne_true_of_eq_false hs)

theorem Cm.takeItem_of_unknown (h : m.ch.collect = some k) (hs : k.stopped = false) {ty : Byte} (h1 : ty ≠ 0x51)
    (h2 : ty ≠ 0x52) (h4 : ty ≠ 0x54) (more : List Byte) :
    m.takeItem (ty :: more) = m.returnCheck { k.restart with stopped := true } := by
  rw [Cm.takeItem_of_open h hs, if_neg h4, if_neg (by tauto)]

theorem Cm.takeItem_of_block (h : m.ch.collect = some k) (hs : k.stopped = false) {ty : Byte} {more : List Byte}
    {b : StatusBlock} (hty : ty = 0x51 ∨ ty = 0x52) (hb : readBlock (ty :: more) = some b) :
    m.takeItem (ty :: more) = m.modify fun ch =>
      { ch with collect := some { k with bytes := k.bytes ++ ty :: more, blocks := k.blocks ++ [b] } } := by
  rw [Cm.takeItem_of_open h hs, if_neg (by rcases hty with rfl | rfl <;> decide), if_pos hty, Cm.gather, hb]

theorem Cm.takeItem_of_trailer (h : m.ch.collect = some k) (hs : k.stopped = false) (hop echo hi lo : Byte) :
    m.takeItem [0x54, hop, echo, hi, lo] = m.takeTrailer k 0x54 hop echo hi lo :=
  (Cm.takeItem_of_open h hs _ _).trans (if_pos rfl)

theorem inRange_eq_none {lo hi n : Nat} : inRange lo hi n = none ↔ n < lo ∨ hi < n := by
  unfold inRange
  rw [ite_eq_right_iff]
  simp only [reduceCtorEq, imp_false, not_and_or, not_le]

theorem Cm.takeTrailer_of_damaged {hop echo hi lo : Byte}
    (h : crc16 (k.bytes ++ [0x54, hop, echo]) ≠ hi ++ lo ∨ hop.toNat < 1 ∨ 31 < hop.toNat) :
    m.takeTrailer k 0x54 hop echo hi lo = m.returnCheck k.restart :=
  if_pos (h.imp_right inRange_eq_none.2)

/-- An intact trailer: of the return's own frame it completes the return, of another it is discarded. -/
theorem Cm.takeTrailer_of_intact {hop echo hi lo : Byte} (hcrc : crc16 (k.bytes ++ [0x54, hop, echo]) = hi ++ lo)
    (hlo : 1 ≤ hop.toNat) (hhi : hop.toNat ≤ 31) :
    m.takeTrailer k 0x54 hop echo hi lo =
      if echo = k.info.frame.setWidth 8 then m.arrival k.info k.blocks hop.toNat
      else m.modify fun ch => { ch with collect := some k.restart } := by
  refine if_neg (not_or.2 ⟨not_not.2 hcrc, ?_⟩)
  rw [inRange_eq_none]
  omega

end Items

/-- Settles O18: each item by what the Chain Manager reads of it. -/
theorem returnItemsAreReadOneByOne : Obligations.ReturnItemsAreReadOneByOne := by
  unfold Obligations.ReturnItemsAreReadOneByOne
  intro c s ch counted
  have hsilent {item : List Byte} {ch' : Chain} (h : Cm.takeItem item (s.manager c) = { s.manager c with ch := ch' }) :
      exec (.returnItemReceived c item) s = .next (s.setChain c ch').ended := by
    rw [exec_returnItemReceived, State.manage_of_silent h]
  refine ⟨?none, ?stopped, ?unknown, ?block, ?blockWithIdentity, ?damaged, ?otherFrame⟩
  case none =>
    intro item h
    rw [hsilent (Cm.takeItem_of_none (by exact h) item), State.setChain_same]
  case stopped =>
    intro k item h hs
    rw [hsilent (Cm.takeItem_of_stopped (by exact h) hs item), State.setChain_same]
  case unknown =>
    intro k ty more h hs h1 h2 h4
    exact hsilent (Cm.takeItem_of_unknown (by exact h) hs h1 h2 h4 more)
  case block =>
    intro k hop a kd m t g f h hs b
    exact hsilent (Cm.takeItem_of_block (by exact h) hs (.inl rfl) rfl)
  case blockWithIdentity =>
    intro k hop a kd m t g f m1 m0 s3 s2 s1 s0 h hs b
    exact hsilent (Cm.takeItem_of_block (by exact h) hs (.inr rfl) rfl)
  case damaged =>
    intro k hop echo hi lo h hs hbad
    exact hsilent ((Cm.takeItem_of_trailer (by exact h) hs _ _ _ _).trans (Cm.takeTrailer_of_damaged hbad))
  case otherFrame =>
    intro k hop echo hi lo h hs hcrc hlo hhi hecho
    exact hsilent ((Cm.takeItem_of_trailer (by exact h) hs _ _ _ _).trans
      ((Cm.takeTrailer_of_intact hcrc hlo hhi).trans (if_neg hecho)))

/-! ### A complete return (R43, R44) -/

theorem exec_returnItemReceived_of_arrival {c : ChainId} {k : Collection} {s : State} {hop echo hi lo : Byte}
    (hk : (s.chains.get c).collect = some k) (hs : k.stopped = false)
    (hcrc : crc16 (k.bytes ++ [0x54, hop, echo]) = hi ++ lo) (hlo : 1 ≤ hop.toNat) (hhi : hop.toNat ≤ 31)
    (hecho : echo = k.info.frame.setWidth 8) :
    exec (.returnItemReceived c [0x54, hop, echo, hi, lo]) s =
      .next (s.manage c (Cm.arrival k.info k.blocks hop.toNat)).ended := by
  rw [exec_returnItemReceived]
  refine ended_congr (State.manage_congr ?_)
  rw [Cm.takeItem_of_trailer (m := s.manager c) hk hs, Cm.takeTrailer_of_intact hcrc hlo hhi, if_pos hecho]

/-- The blocks of a return that are in range, the first for each hop (R43, R200). -/
def answersOf (blocks : List StatusBlock) : List Answer := firstPerHop [] (blocks.filterMap StatusBlock.answer?)

/-- The chain record with its return complete (R41). -/
def Chain.withComplete (blocks : List StatusBlock) (ch : Chain) : Chain :=
  { ch with collect := none,
            counters := { ch.counters with
              complete := bump16 ch.counters.complete,
              blockRange := bump16By (blocks.length - (blocks.filterMap StatusBlock.answer?).length)
                ch.counters.blockRange } }

theorem Cm.arrival_eq (info : BundleInfo) (blocks : List StatusBlock) (trailer : Nat) (m : Cm) :
    m.arrival info blocks trailer =
      let m := m.modify (Chain.withComplete blocks)
      match (answersOf blocks).find? (fun x => !info.atProbe x && m.ch.clashes info x) with
      | some x => (m.clash info x).endHandling
      | none =>
          match m.ch.probeClash info (answersOf blocks) with
          | some x => (m.clash info x).endHandling
          | none => (m.handleReturn info (answersOf blocks) trailer).endHandling := rfl

theorem Cm.arrival_of_no_clash {m : Cm} {info : BundleInfo} {blocks : List StatusBlock}
    (hclash : ∀ x ∈ answersOf blocks, info.atProbe x = true ∨ m.ch.clashes info x = false)
    (hprobe : m.ch.probeClash info (answersOf blocks) = none) (trailer : Nat) :
    m.arrival info blocks trailer =
      ((m.modify (Chain.withComplete blocks)).handleReturn info (answersOf blocks) trailer).endHandling := by
  have hfind : (answersOf blocks).find? (fun x => !info.atProbe x && (m.modify (Chain.withComplete blocks)).ch.clashes
      info x) = none := by
    rw [List.find?_eq_none]
    intro x hx hfound
    obtain ⟨hplace, hfound⟩ := (Bool.and_eq_true _ _).mp hfound
    rcases hclash x hx with h | h
    · exact Bool.false_ne_true ((Bool.not_eq_true' _).mp hplace ▸ h)
    · exact Bool.false_ne_true (h.symm.trans hfound)
  have hprobe' : (m.modify (Chain.withComplete blocks)).ch.probeClash info (answersOf blocks) = none := hprobe
  rw [Cm.arrival_eq]
  dsimp only
  rw [hfind]
  dsimp only
  rw [hprobe']

/-- A bundle without a probe place is no walk's (R43). -/
theorem Chain.walksOn_of_no_probe {info : BundleInfo} (h : info.probe = none) (ch : Chain) : ch.walksOn info = false := by
  unfold Chain.walksOn
  rw [h]
  cases ch.probeHop <;> simp

theorem Chain.probeClash_of_no_walk {ch : Chain} {info : BundleInfo} (h : ch.walksOn info = false) (answers : List Answer) :
    ch.probeClash info answers = none := if_neg (ne_true_of_eq_false h)

/-- The chain record behind the effect of its state: the break count is 0 (R44, step 3). -/
def Chain.unbroken (ch : Chain) : Chain := { ch with breakCount := 0 }

/-- The chain record when a return held no stranger block (R43). -/
def Chain.noStranger (ch : Chain) : Chain := { ch with stranger := none }

theorem Cm.handleReturn_eq (info : BundleInfo) (answers : List Answer) (trailer : Nat) (m : Cm) :
    m.handleReturn info answers trailer =
      let m := m.strangers (answers.filter fun x => !info.atProbe x && !m.ch.matches info x)
      let m := (m.stateEffect info answers).modify Chain.unbroken
      info.path.zipIdx.foldl (Cm.takePlace info answers) (if m.ch.settled then m.restate trailer else m) := rfl

theorem Cm.strangers_of_none (m : Cm) : m.strangers [] = m.modify Chain.noStranger := rfl

/-! ### A return that answers on a BROKEN chain (R56) -/

theorem Cm.endProbeBack_of_place {m : Cm} {info : BundleInfo} {k q a : Nat} (hend : m.ch.endHop = some k)
    (hplace : placeAt info.path (k + 1) = some { position := q, address := some a }) :
    m.endProbeBack info = m.beginBypass a ((placeAt info.path k).bind fun p => p.address) k := by
  rw [Cm.endProbeBack, hend]
  dsimp only
  rw [hplace]

theorem Cm.stateEffect_of_broken {m : Cm} (ha : m.ch.attempt = none) (hs : m.ch.state = .broken) (info : BundleInfo)
    (answers : List Answer) : m.stateEffect info answers = m.endProbeBack info := by
  rw [Cm.stateEffect, ha, hs]

/-- While an attempt is present, a place that gave no block changes the record of its node alone. -/
theorem Cm.takePlace_of_silence {m : Cm} {info : BundleInfo} (ha : m.ch.attempt ≠ none) (p : Place × Nat) :
    ∃ nodes, m.takePlace info [] p = { m with ch := { m.ch with nodes := nodes } } := by
  unfold Cm.takePlace
  dsimp only
  split
  · exact ⟨_, rfl⟩
  · split
    · exact ⟨_, rfl⟩
    · split
      · exact ⟨_, rfl⟩
      · rw [List.find?_nil]
        dsimp only
        split
        · unfold Cm.takeSilence
          rw [if_neg (fun h => ha h.2.2.2)]
          exact ⟨_, rfl⟩
        · exact ⟨_, rfl⟩

theorem Cm.foldl_takePlace_of_silence {info : BundleInfo} (l : List (Place × Nat)) {m : Cm} (ha : m.ch.attempt ≠ none) :
    ∃ nodes, l.foldl (Cm.takePlace info []) m = { m with ch := { m.ch with nodes := nodes } } := by
  induction l generalizing m with
  | nil => exact ⟨_, rfl⟩
  | cons p l ih =>
    obtain ⟨nodes, hfirst⟩ := Cm.takePlace_of_silence (info := info) ha p
    obtain ⟨nodes', hrest⟩ := ih (m := { m with ch := { m.ch with nodes := nodes } }) ha
    exact ⟨nodes', (congrArg (List.foldl _ · l) hfirst).trans hrest⟩

theorem Cm.endHandling_ch (m : Cm) : m.endHandling.ch = { m.ch with lostHeld := [] } := by
  rw [Cm.endHandling, Cm.emit_ch, Cm.flushLost_eq]

/-- A return without blocks on a BROKEN chain begins a bypass of the node beyond END (R56). -/
theorem Cm.arrival_of_broken {m : Cm} {info : BundleInfo} {e q target : Nat} {pred : Option Nat}
    (hstate : m.ch.state = .broken) (hattempt : m.ch.attempt = none) (hprobe : info.probe = none)
    (hend : m.ch.endHop = some e) (hplace : placeAt info.path (e + 1) = some { position := q, address := some target })
    (hpred : (placeAt info.path e).bind (fun p => p.address) = pred)
    (hclear : m.ch.besideFailed (m.ch.positionOf (some target)) = false) (hroute : m.ch.routeOf pred = .normal)
    (hq : m.ch.queue.length < 16) (trailer : Nat) :
    ∃ nodes, (m.arrival info [] trailer).ch =
      { ((m.ch.withComplete []).noStranger.bypassing target pred).unbroken with nodes := nodes, lostHeld := [] } := by
  have heffect : ((m.modify (Chain.withComplete [])).modify Chain.noStranger).stateEffect info [] =
      ((m.modify (Chain.withComplete [])).modify Chain.noStranger).modify (Chain.bypassing target pred) := by
    rw [Cm.stateEffect_of_broken (by exact hattempt) (by exact hstate), Cm.endProbeBack_of_place (by exact hend) hplace,
      hpred, Cm.beginBypass_of_clear (by exact hclear) (by exact hroute) (by exact hq)]
  have hsettled : ((m.ch.withComplete []).noStranger.bypassing target pred).unbroken.settled = false :=
    decide_eq_false fun h => nomatch h.2
  obtain ⟨nodes, hplaces⟩ := Cm.foldl_takePlace_of_silence (info := info) info.path.zipIdx
    (m := { m with ch := ((m.ch.withComplete []).noStranger.bypassing target pred).unbroken }) nofun
  have hhandled : (m.modify (Chain.withComplete [])).handleReturn info [] trailer =
      { m with ch := { ((m.ch.withComplete []).noStranger.bypassing target pred).unbroken with nodes := nodes } } := by
    rw [Cm.handleReturn_eq, List.filter_nil, Cm.strangers_of_none]
    dsimp only
    rw [heffect, if_neg (by exact ne_true_of_eq_false hsettled)]
    exact hplaces
  refine ⟨nodes, ?_⟩
  rw [Cm.arrival_of_no_clash (by exact nofun) (Chain.probeClash_of_no_walk (Chain.walksOn_of_no_probe hprobe _) _),
    Cm.endHandling_ch]
  exact congrArg (fun m : Cm => { m.ch with lostHeld := [] }) hhandled

/-- Settles O17: the missing return by the state of the chain, and the return that ends probe-back. -/
theorem missingReturnsBreakTheChain : Obligations.MissingReturnsBreakTheChain := by
  unfold Obligations.MissingReturnsBreakTheChain
  refine ⟨?running, ?broken, ?answered⟩
  case running =>
    intro c k s ch hstate hattempt hcollect hp hticks missed
    have hmissing := Cm.missing_of_running (m := s.manager c) hcollect hstate hattempt
    have hnone : ∀ t, ch.attempt = some t → t.evicted = false ∧ t.lapsed = false := by simp [hattempt]
    refine ⟨fun hle hfew => ?few, ?limit⟩
    case few =>
      have hdeadline := Cm.deadline_of_missing
        (hmissing.trans (Cm.countBreak_of_few (by exact hfew) (by exact hle) _)) hnone
      have hmissed : (ch.withMissing).breakCounted = missed :=
        congrArg (fun b => ({ ch.withMissing with breakCount := b } : Chain)) (bump15_eq_min hle)
      rw [exec_returnDeadline_of_due hcollect hp hticks, State.manage_of_silent hdeadline, ← hmissed]
      rfl
    case limit =>
      intro e hlt hlimit hend he hq on_ off
      have hbroken := hmissing.trans (Cm.countBreak_of_limit (by exact hlt) (by exact hlimit) (by exact hattempt) _)
      rw [Cm.probeBack_of_inner (by exact hend) he (by exact hq)] at hbroken
      have hdeadline := Cm.deadline_of_missing hbroken hnone
      refine ⟨_, exec_returnDeadline_of_due hcollect hp hticks, ?_⟩
      rw [State.manage_of_outs (f := Cm.deadline) hdeadline]
      refine ⟨(Four.get_set_same _ _ _).trans ?_, ?_, rfl, fun d hd => Four.get_set_ne _ hd _⟩
      · simp [Chain.withMissing, Chain.breakCounted, Chain.offered, Cmd.repairEntry, bump15_eq_min hlt.le, hend, ch, missed,
          on_, off]
      · rw [State.ended_faultCount]
        exact (Link.offer_faultCount _ _ _).trans (State.raise_faultCount _ _ _ _)
  case broken =>
    intro c k s ch hstate hattempt hcollect hp hticks hq missed end_
    have hmissing := Cm.missing_of_broken (m := s.manager c) hcollect hstate hattempt
    have hnone : ∀ t, ch.attempt = some t → t.evicted = false ∧ t.lapsed = false := by simp [hattempt]
    refine ⟨fun e hend he => ?inner, fun q a n hend hpath hn hroute hbeside => ?first⟩
    case inner =>
      rw [Cm.probeBack_of_inner (by exact hend) he (by exact hq)] at hmissing
      rw [exec_returnDeadline_of_due hcollect hp hticks,
        State.manage_of_silent (Cm.deadline_of_missing hmissing hnone)]
      rfl
    case first =>
      have hclear : ch.besideFailed (ch.positionOf (some a)) = false := by
        rw [Chain.positionOf_of_node hn, Chain.besideFailed_eq_false hbeside]
      have hlen : (ch.withMissing.offered (.setEnd 1 false)).queue.length < 16 := by
        rw [Chain.offered_length]
        exact Nat.lt_succ_of_le (Nat.succ_le_succ hq)
      rw [Cm.probeBack_of_first (by exact hend) hpath, Cm.offerRepair_eq (by exact Nat.lt_succ_of_le (hq.trans (by decide))),
        Cm.beginBypass_of_clear (by exact hclear) (by exact hroute) (by exact hlen)] at hmissing
      rw [exec_returnDeadline_of_due hcollect hp hticks,
        State.manage_of_silent (Cm.deadline_of_missing hmissing (Chain.bypassing_attempt _ _ _)), Cm.modify_ch,
        Chain.bypassing_of_broken (by exact hstate)]
      rfl
  case answered =>
    intro c k s a1 a2 q1 q2 n1 n2 hi lo ch echo hstate hattempt hcollect hstop hblocks hprobe hlen hend hq hpath hn1 hn2
      hroute hbeside hcrc
    have hplace : placeAt k.info.path 2 = some { position := q2, address := some a2 } := by rw [hpath]; rfl
    have hpred : (placeAt k.info.path 1).bind (fun p => p.address) = some a1 := by rw [hpath]; rfl
    have hclear : ch.besideFailed (ch.positionOf (some a2)) = false := by
      rw [Chain.positionOf_of_node hn2, Chain.besideFailed_eq_false hbeside]
    obtain ⟨nodes, harrival⟩ := Cm.arrival_of_broken (m := s.manager c) hstate hattempt hprobe hend hplace hpred hclear
      ((Chain.routeOf_of_node hn1).trans hroute) hq (1 : Byte).toNat
    refine ⟨_, exec_returnItemReceived_of_arrival hcollect hstop hcrc (by decide) (by decide) rfl, ?_⟩
    rw [State.ended_chains, State.manage_chain, hblocks, harrival, Chain.bypassing_of_broken (by exact hstate)]
    exact ⟨rfl, rfl, hstate, rfl, hend, rfl⟩

end Sys2Proof.Machine
end

section
/-! Chapter 3: NODE_SET (R38), NODE_COMMAND (R39) and NODE_REINSTATE (R62). -/

namespace Sys2Proof.Machine

/-! ### NODE_SET (R38) -/

theorem exec_nodeSet (s : State) : exec .nodeSet s = execNodeSet s := rfl

theorem Chain.updateNode_of_node {ch : Chain} {a : Nat} {n : Node} (h : ch.node a = some n) (f : Node → Node) :
    ch.updateNode a f = ch.setNode a (some (f n)) := by
  rw [Chain.updateNode, h]

theorem NodeSetArgs.apply_clamp (x : NodeSetArgs) (n : Node) : (x.apply n).clamp = x.clamp.getD n.clamp := rfl

/-- A clamp that is absent, or the present one, leaves the record's clamp. -/
theorem NodeSetArgs.clamp_of_same {x : NodeSetArgs} {n : Node} (h : ∀ v, x.clamp = some v → v = n.clamp) :
    x.clamp.getD n.clamp = n.clamp := by
  cases hv : x.clamp with
  | none => rfl
  | some v => exact h v hv

theorem NodeSetArgs.apply_of_tile {x : NodeSetArgs} {n : Node} {t : TileSettings} (h : n.kind = .tile t) :
    x.apply n = { n with clamp := x.clamp.getD n.clamp, kind := .tile (x.applyTile t) } := by
  rw [NodeSetArgs.apply, h]

theorem NodeSetArgs.apply_of_lamp {x : NodeSetArgs} {n : Node} (h : n.kind = .lamp) :
    x.apply n = { n with clamp := x.clamp.getD n.clamp } := by
  rw [NodeSetArgs.apply, h]

theorem NodeSetArgs.forTile_eq_true {x : NodeSetArgs} (h : x.gap ≠ none ∨ x.fallback ≠ none ∨ x.clear = true) :
    x.forTile = true := by
  rw [NodeSetArgs.forTile, Bool.or_eq_true, Bool.or_eq_true, Option.isSome_iff_ne_none, Option.isSome_iff_ne_none,
    or_assoc]
  exact h

theorem NodeSetArgs.forTile_eq_false {x : NodeSetArgs} (hg : x.gap = none) (hf : x.fallback = none)
    (hc : x.clear = false) : x.forTile = false := by
  rw [NodeSetArgs.forTile, hg, hf, hc]
  rfl

theorem Node.tile?_of_lamp {n : Node} (h : n.kind = .lamp) : n.tile? = none := by rw [Node.tile?, h]
theorem Node.tile?_of_tile {n : Node} {t : TileSettings} (h : n.kind = .tile t) : n.tile? = some t := by
  rw [Node.tile?, h]

section NodeSet

variable {q : Request} {rest : List Request} {s : State} {x : NodeSetArgs} {n : Node}

theorem exec_nodeSet_of_absent (hq : Waits .nodeSet q rest s) (hx : nodeSet? q.body = some x)
    (h : s.node x.node = none) : exec .nodeSet s = .next ((s.taken rest).replied q .notFound .empty) := by
  have h' : (s.taken rest).node x.node = none := h
  rw [exec_nodeSet, execNodeSet, takeWith_some hq hx]
  refine ended_congr ?_
  rw [h']

/-- NODE_SET of an enrolled node, put to its check. -/
theorem exec_nodeSet_of_node (hq : Waits .nodeSet q rest s) (hx : nodeSet? q.body = some x)
    (h : s.node x.node = some n) :
    exec .nodeSet s =
      .next (if n.tile?.isNone && x.forTile then (s.taken rest).answer q .badArg .empty
        else ((s.taken rest).manage x.node.chain (Cm.nodeSet x n)).answer q .ok .empty).ended := by
  have h' : (s.taken rest).node x.node = some n := h
  rw [exec_nodeSet, execNodeSet, takeWith_some hq hx]
  refine ended_congr ?_
  rw [h']

theorem exec_nodeSet_of_refused (hq : Waits .nodeSet q rest s) (hx : nodeSet? q.body = some x)
    (h : s.node x.node = some n) (hn : n.tile? = none) (hfor : x.forTile = true) :
    exec .nodeSet s = .next ((s.taken rest).replied q .badArg .empty) := by
  rw [exec_nodeSet_of_node hq hx h, hn, hfor]
  rfl

theorem exec_nodeSet_of_accepted (hq : Waits .nodeSet q rest s) (hx : nodeSet? q.body = some x)
    (h : s.node x.node = some n) (hn : n.tile?.isSome = true ∨ x.forTile = false) :
    exec .nodeSet s =
      .next (((s.taken rest).manage x.node.chain (Cm.nodeSet x n)).replied q .ok .empty) := by
  rw [exec_nodeSet_of_node hq hx h, if_neg]
  · rfl
  · rcases hn with hn | hn
    · simp [Option.isNone_eq_false_iff.2 hn]
    · simp [hn]

/-- An accepted NODE_SET that leaves the clamp: the record alone changes. -/
theorem Cm.nodeSet_of_same_clamp {m : Cm} (h : m.ch.node x.node.address = some n)
    (hc : x.clamp.getD n.clamp = n.clamp) :
    m.nodeSet x n = m.modify fun ch => ch.setNode x.node.address (some (x.apply n)) := by
  refine (if_pos hc).trans (congrArg (fun ch => ({ m with ch := ch } : Cm)) ?_)
  exact Chain.updateNode_of_node h _

/-- An accepted NODE_SET with another clamp: the Scene Table is handed it. -/
theorem Cm.nodeSet_of_other_clamp {m : Cm} (h : m.ch.node x.node.address = some n)
    (hc : x.clamp.getD n.clamp ≠ n.clamp) :
    m.nodeSet x n = (m.modify fun ch => ch.setNode x.node.address (some (x.apply n))).emit
      (.clamp (.clamp x.node.address (x.clamp.getD n.clamp))) := by
  refine (if_neg hc).trans (congrArg (fun ch => Cm.emit _ ({ m with ch := ch } : Cm)) ?_)
  exact Chain.updateNode_of_node h _

/-- The part with another record, and a clamp message when the clamp is another. -/
theorem exec_nodeSet_of_same_clamp (hq : Waits .nodeSet q rest s) (hx : nodeSet? q.body = some x)
    (h : s.node x.node = some n) (hn : n.tile?.isSome = true ∨ x.forTile = false)
    (hc : x.clamp.getD n.clamp = n.clamp) :
    exec .nodeSet s =
      .next (((s.taken rest).setChain x.node.chain
        ((s.chains.get x.node.chain).setNode x.node.address (some (x.apply n)))).replied q .ok .empty) := by
  rw [exec_nodeSet_of_accepted hq hx h hn, State.manage_of_silent (Cm.nodeSet_of_same_clamp (by exact h) hc)]
  rfl

theorem exec_nodeSet_of_other_clamp (hq : Waits .nodeSet q rest s) (hx : nodeSet? q.body = some x)
    (h : s.node x.node = some n) (hn : n.tile?.isSome = true ∨ x.forTile = false)
    (hc : x.clamp.getD n.clamp ≠ n.clamp) :
    exec .nodeSet s =
      .next ((((s.taken rest).setChain x.node.chain
        ((s.chains.get x.node.chain).setNode x.node.address (some (x.apply n)))).setMail
          { s.mail with clamps := s.mail.clamps.set x.node.chain (s.mail.clamps.get x.node.chain ++
            [.clamp x.node.address (x.clamp.getD n.clamp)]) }).replied q .ok .empty) := by
  rw [exec_nodeSet_of_accepted hq hx h hn, State.manage_of_outs (Cm.nodeSet_of_other_clamp (by exact h) hc)]
  rfl

end NodeSet

/-- Settles O23: the checks in their order, and the record by its kind and by whether the clamp is another. -/
theorem nodeSetChangesTheSettings : Obligations.NodeSetChangesTheSettings := by
  unfold Obligations.NodeSetChangesTheSettings
  intro q rest s x hq hx c a ch
  refine ⟨exec_nodeSet_of_absent hq hx, fun n hn hk hfor =>
    exec_nodeSet_of_refused hq hx hn (Node.tile?_of_lamp hk) (NodeSetArgs.forTile_eq_true hfor), ?tileSame, ?tileOther,
    ?lampSame, ?lampOther⟩
  case tileSame =>
    intro n t hn hk hclamp t'
    have hsame := NodeSetArgs.clamp_of_same hclamp
    rw [exec_nodeSet_of_same_clamp hq hx hn (.inl (by rw [Node.tile?_of_tile hk]; rfl)) hsame,
      NodeSetArgs.apply_of_tile hk, hsame]
    rfl
  case tileOther =>
    intro n t v hn hk hv hne t'
    have hother : x.clamp.getD n.clamp = v := by rw [hv, Option.getD_some]
    rw [exec_nodeSet_of_other_clamp hq hx hn (.inl (by rw [Node.tile?_of_tile hk]; rfl)) (hother.symm ▸ hne),
      NodeSetArgs.apply_of_tile hk, hother]
    rfl
  case lampSame =>
    intro n hn hk hgap hfall hclear hclamp
    have hsame := NodeSetArgs.clamp_of_same hclamp
    rw [exec_nodeSet_of_same_clamp hq hx hn (.inr (NodeSetArgs.forTile_eq_false hgap hfall hclear)) hsame,
      NodeSetArgs.apply_of_lamp hk, hsame]
  case lampOther =>
    intro n v hn hk hgap hfall hclear hv hne
    have hother : x.clamp.getD n.clamp = v := by rw [hv, Option.getD_some]
    rw [exec_nodeSet_of_other_clamp hq hx hn (.inr (NodeSetArgs.forTile_eq_false hgap hfall hclear)) (hother.symm ▸ hne),
      NodeSetArgs.apply_of_lamp hk, hother]

/-! ### NODE_COMMAND (R39) -/

theorem exec_nodeCommandConfigure {q : Request} {rest : List Request} {s : State}
    {x : ChainId × Nat × Byte × ConfigSettings} (hq : Waits .nodeCommandConfigure q rest s)
    (hx : configure? q.body = some x) :
    exec .nodeCommandConfigure s =
      .next ((s.taken rest).nodeCommand q x.1 x.2.1 (.configure x.2.1 x.2.2.1 x.2.2.2)).ended := by
  rw [show exec .nodeCommandConfigure s = execNodeCommandConfigure s from rfl, execNodeCommandConfigure,
    takeWith_some hq hx]

theorem exec_nodeCommandEnable {q : Request} {rest : List Request} {s : State} {x : ChainId × Nat}
    (hq : Waits .nodeCommandEnable q rest s) (hx : enable? q.body = some x) :
    exec .nodeCommandEnable s = .next ((s.taken rest).nodeCommand q x.1 x.2 (.enable x.2)).ended := by
  rw [show exec .nodeCommandEnable s = execNodeCommandEnable s from rfl, execNodeCommandEnable, takeWith_some hq hx]

theorem State.nodeCommand_of_refused {q : Request} {c : ChainId} {a : Nat} {cmd : ConfigCmd} {s : State} {code : ReplyCode}
    (h : (s.chains.get c).commandCode a = code) (hne : code ≠ .ok) :
    s.nodeCommand q c a cmd = s.answer q code .empty := by
  unfold State.nodeCommand
  rw [h]
  exact congrArg (State.answer q code .empty) (if_neg hne)

theorem State.nodeCommand_of_ok {q : Request} {c : ChainId} {a : Nat} {cmd : ConfigCmd} {s : State}
    (h : (s.chains.get c).commandCode a = .ok) :
    s.nodeCommand q c a cmd = (s.setChain c ((s.chains.get c).enqueue cmd .control)).answer q .ok .empty := by
  unfold State.nodeCommand
  rw [h]
  rfl

section CommandCode

variable {ch : Chain} {a : Nat}

theorem Chain.commandCode_of_state (h : ch.pendingDisable = true ∨ ch.state = .off ∨ ch.state = .faulted) :
    ch.commandCode a = .state := if_pos h

theorem Chain.takesConfig_iff : ch.takesConfig = true ↔ ch.queue.length < 16 ∧ ch.claims = [] := by
  rw [Chain.takesConfig, Bool.and_eq_true, decide_eq_true_iff, List.isEmpty_iff]
  rfl

theorem Chain.commandCode_of_open (hp : ch.pendingDisable = false) (hoff : ch.state ≠ .off) (hf : ch.state ≠ .faulted) :
    ch.commandCode a =
      match decide (a = 31), ch.node a with
      | true, _ => if ch.takesConfig then .ok else .full
      | false, none => .notFound
      | false, some n => if !n.state.reachable then .state else if ch.takesConfig then .ok else .full :=
  if_neg (by simp [hp, hoff, hf])

/-- A command to every node, or to a node that can be reached, is taken when there is room (R39, checks 4 and 5). -/
theorem Chain.commandCode_of_target (hp : ch.pendingDisable = false) (hoff : ch.state ≠ .off) (hf : ch.state ≠ .faulted)
    (h : a = 31 ∨ ∃ n, ch.node a = some n ∧ n.state ≠ .failed ∧ n.state ≠ .cut) :
    ch.commandCode a = if ch.takesConfig then .ok else .full := by
  rw [Chain.commandCode_of_open hp hoff hf]
  rcases h with rfl | ⟨n, hn, hfailed, hcut⟩
  · rfl
  · have hreach : n.state.reachable = true := by
      cases hr : n.state.reachable with
      | true => rfl
      | false => exact absurd ((NodeState.not_reachable_iff _).1 hr) (by tauto)
    rw [decide_eq_false (Chain.ne_all_of_node hn), hn]
    dsimp only
    rw [hreach]
    rfl

theorem Chain.commandCode_of_absent (hp : ch.pendingDisable = false) (hoff : ch.state ≠ .off) (hf : ch.state ≠ .faulted)
    (ha : a ≠ 31) (hn : ch.node a = none) : ch.commandCode a = .notFound := by
  rw [Chain.commandCode_of_open hp hoff hf, decide_eq_false ha, hn]

theorem Chain.commandCode_of_unreachable (hp : ch.pendingDisable = false) (hoff : ch.state ≠ .off)
    (hf : ch.state ≠ .faulted) (ha : a ≠ 31) {n : Node} (hn : ch.node a = some n) (h : n.state = .failed ∨ n.state = .cut) :
    ch.commandCode a = .state := by
  rw [Chain.commandCode_of_open hp hoff hf, decide_eq_false ha, hn]
  dsimp only
  rw [(NodeState.not_reachable_iff _).2 h]
  rfl

end CommandCode

/-- Settles O24: the requests by their operands, the command by its checks in order. -/
theorem nodeCommandJoinsTheQueue : Obligations.NodeCommandJoinsTheQueue := by
  unfold Obligations.NodeCommandJoinsTheQueue
  refine ⟨fun q rest s c a tag x hq hx => exec_nodeCommandConfigure hq hx, fun q rest s c a hq hx =>
    exec_nodeCommandEnable hq hx, ?checks⟩
  intro q s c a cmd ch room joined
  refine ⟨fun h => State.nodeCommand_of_refused (Chain.commandCode_of_state h) nofun, fun hp hoff hf =>
    ⟨fun ha hn => State.nodeCommand_of_refused (Chain.commandCode_of_absent hp hoff hf ha hn) nofun,
      fun n ha hn h => State.nodeCommand_of_refused (Chain.commandCode_of_unreachable hp hoff hf ha hn h) nofun,
      fun h => ?target⟩⟩
  have hcode := Chain.commandCode_of_target hp hoff hf h
  refine ⟨fun hfull => State.nodeCommand_of_refused (hcode.trans (if_neg ?_)) nofun, fun hroom =>
    State.nodeCommand_of_ok (hcode.trans (if_pos (Chain.takesConfig_iff.2 hroom)))⟩
  rwa [Chain.takesConfig_iff]

/-! ### NODE_REINSTATE (R62) -/

section Reinstate

variable {q : Request} {rest : List Request} {s : State} {r : NodeRef}

theorem exec_nodeReinstate (hq : Waits .nodeReinstate q rest s) (hr : nodeRef? q.body = some r) :
    exec .nodeReinstate s = .next ((s.taken rest).nodeReinstate q r).ended := by
  rw [show exec .nodeReinstate s = execNodeReinstate s from rfl, execNodeReinstate, takeWith_some hq hr]

theorem State.nodeReinstate_of_absent (h : s.node r = none) : s.nodeReinstate q r = s.answer q .notFound .empty := by
  rw [State.nodeReinstate, h]

theorem State.nodeReinstate_of_state {n : Node} (h : s.node r = some n)
    (hn : n.state ≠ .failed ∨ (s.chains.get r.chain).pendingDisable = true) :
    s.nodeReinstate q r = s.answer q .state .empty := by
  rw [State.nodeReinstate, h]
  exact if_pos hn

theorem State.nodeReinstate_of_no_predecessor {n : Node} (h : s.node r = some n) (hn : n.state = .failed)
    (hp : (s.chains.get r.chain).pendingDisable = false) (hpred : (s.chains.get r.chain).predecessor n.position = none) :
    s.nodeReinstate q r = s.answer q .state .empty := by
  rw [State.nodeReinstate, h]
  refine (if_neg (by simp [hn, hp])).trans ?_
  rw [hpred]

theorem State.nodeReinstate_of_predecessor {n : Node} {pred : Option Nat} (h : s.node r = some n) (hn : n.state = .failed)
    (hp : (s.chains.get r.chain).pendingDisable = false)
    (hpred : (s.chains.get r.chain).predecessor n.position = some pred) :
    s.nodeReinstate q r =
      if (s.chains.get r.chain).settled then
        (s.manage r.chain (Cm.reinstate r.address pred)).answer q .ok .empty
      else s.answer q .busy .empty := by
  rw [State.nodeReinstate, h]
  refine (if_neg (by simp [hn, hp])).trans ?_
  rw [hpred]

end Reinstate

theorem Chain.predecessor_of_first {ch : Chain} {q : Nat} (h : q ≤ 1) : ch.predecessor q = some none := if_pos h

theorem Chain.predecessor_of_reachable {ch : Chain} {q a : Nat} {n : Node} (h : 1 < q)
    (hn : ch.atPosition (q - 1) = some (a, n)) (hr : n.state ≠ .failed ∧ n.state ≠ .cut) :
    ch.predecessor q = some (some a) := by
  have hreach : n.state.reachable = true := by
    cases hr' : n.state.reachable with
    | true => rfl
    | false => exact absurd ((NodeState.not_reachable_iff _).1 hr') (by tauto)
  rw [Chain.predecessor, if_neg (Nat.not_le.2 h), hn]
  exact if_pos hreach

theorem Chain.predecessor_of_unreachable {ch : Chain} {q : Nat} (h : 1 < q)
    (hn : ∀ a n, ch.atPosition (q - 1) = some (a, n) → n.state = .failed ∨ n.state = .cut) : ch.predecessor q = none := by
  rw [Chain.predecessor, if_neg (Nat.not_le.2 h)]
  cases hp : ch.atPosition (q - 1) with
  | none => rfl
  | some p =>
    obtain ⟨a, n⟩ := p
    exact if_neg (by rw [(NodeState.not_reachable_iff _).2 (hn a n hp)]; exact Bool.false_ne_true)

/-- Settles O25: the checks in their order, and the attempt that begins. -/
theorem reinstateBeginsAnAttempt : Obligations.ReinstateBeginsAnAttempt := by
  unfold Obligations.ReinstateBeginsAnAttempt
  intro q rest s r hq hr ch begun
  have hexec {t : State} (h : (s.taken rest).nodeReinstate q r = t) : exec .nodeReinstate s = .next t.ended := by
    rw [exec_nodeReinstate hq hr, h]
  refine ⟨Chain.nextEnd_of_none_waits, fun hn => hexec (State.nodeReinstate_of_absent hn), fun n hn hbad =>
    hexec (State.nodeReinstate_of_state hn hbad), fun n hn hf hp hpos hpred => ?_, fun n pred hn hf hp hpred => ?_⟩
  · exact hexec (State.nodeReinstate_of_no_predecessor (s := s.taken rest) hn hf hp
      (Chain.predecessor_of_unreachable hpos hpred))
  · have hsome : ch.predecessor n.position = some pred := by
      rcases hpred with ⟨hpos, rfl⟩ | ⟨hpos, a, m, hat, hfm, hcm, rfl⟩
      · exact Chain.predecessor_of_first hpos.le
      · exact Chain.predecessor_of_reachable hpos hat ⟨hfm, hcm⟩
    have hchecked := State.nodeReinstate_of_predecessor (q := q) (s := s.taken rest) hn hf hp hsome
    refine ⟨fun hbusy => hexec (hchecked.trans (if_neg ?_)), fun hrun hattempt hlen => ?_⟩
    · rw [Chain.settled, decide_eq_true_iff]
      tauto
    · have hreinstate : Cm.reinstate r.address pred ((s.taken rest).manager r.chain) =
          { (s.taken rest).manager r.chain with ch := begun pred } := Cm.offerEntry_of_room (by exact hlen) _
      rw [hexec (hchecked.trans (if_pos (decide_eq_true ⟨hrun, hattempt⟩))), State.manage_of_silent hreinstate]
      rfl

end Sys2Proof.Machine
end

section
/-! Chapter 4, the Segment Intake: segments that start, stall and are checked (R66 to R70), filed (R71 to R74) and stored
(R77). -/

namespace Sys2Proof.Machine

/-! ### The entry that is RECEIVING (R67) -/

theorem Intake.receiving_of_e0 {i : Intake} {h : Option SegHeader} {t : Nat} (h0 : i.e0 = .receiving h t) :
    i.receiving = some (.e0, h, t) := by rw [Intake.receiving, h0]

theorem Intake.receiving_of_e1 {i : Intake} {h : Option SegHeader} {t : Nat} (h0 : ∀ g u, i.e0 ≠ .receiving g u)
    (h1 : i.e1 = .receiving h t) : i.receiving = some (.e1, h, t) := by
  unfold Intake.receiving
  cases hx : i.e0 with
  | receiving g u => exact absurd hx (h0 g u)
  | free => rw [h1]
  | queued => rw [h1]
  | storing => rw [h1]

theorem Entry.occupied_of_ne {x : Entry} (h : x ≠ .free) : x.occupied = true := by
  cases x with
  | free => exact absurd rfl h
  | receiving => rfl
  | queued => rfl
  | storing => rfl

/-! ### SEGMENT_START (R66 to R68) -/

theorem exec_segmentStart (s : State) : exec .segmentStart s = .next s.truncate.beginSegment.ended := rfl

theorem State.truncate_of_none {s : State} (h : s.intake.receiving = none) : s.truncate = s := by
  rw [State.truncate, h]

theorem State.truncate_of_receiving {s : State} {e : EntryId} {h : Option SegHeader} {t : Nat}
    (hr : s.intake.receiving = some (e, h, t)) : s.truncate = s.discard e .badLength := by
  rw [State.truncate, hr]

theorem State.beginSegment_of_hold {s : State} (h0 : s.intake.e0 ≠ .free) (h1 : s.intake.e1 ≠ .free) :
    s.beginSegment = (s.countSeg .overrun).raise .segOverrun .intake none := by
  refine if_pos ?_
  rw [Intake.hold, Entry.occupied_of_ne h0, Entry.occupied_of_ne h1]
  rfl

theorem State.beginSegment_of_e0 {s : State} (h0 : s.intake.e0 = .free) :
    s.beginSegment = (s.setStaging .e0 (.receiving none 0)).countSeg .received := by
  unfold State.beginSegment
  rw [Intake.hold, h0]
  rfl

theorem State.beginSegment_of_e1 {s : State} (h0 : s.intake.e0 ≠ .free) (h1 : s.intake.e1 = .free) :
    s.beginSegment = (s.setStaging .e1 (.receiving none 0)).countSeg .received := by
  unfold State.beginSegment
  rw [Intake.hold, h1, Entry.occupied_of_ne h0]
  rfl

/-! ### The stall watch (R70) -/

theorem exec_segmentIntakeTick_of_tick {s : State} {n : Word16} {ticks : List Word16}
    (h : s.mail.ticks.intake = n :: ticks) :
    exec .segmentIntakeTick s = .next (s.setIntakeTicks ticks).intakeTick.ended := by
  rw [show exec .segmentIntakeTick s = execSegmentIntakeTick s from rfl, execSegmentIntakeTick, h]
  rfl

theorem State.intakeTick_of_none {s : State} (h : s.intake.receiving = none) : s.intakeTick = s := by
  rw [State.intakeTick, h]

theorem State.intakeTick_of_first {s : State} {e : EntryId} {h : Option SegHeader}
    (hr : s.intake.receiving = some (e, h, 0)) : s.intakeTick = s.setStaging e (.receiving h 1) := by
  rw [State.intakeTick, hr]
  rfl

theorem State.intakeTick_of_second {s : State} {e : EntryId} {h : Option SegHeader} {t : Nat}
    (hr : s.intake.receiving = some (e, h, t)) (ht : 1 ≤ t) : s.intakeTick = s.stall e h := by
  rw [State.intakeTick, hr]
  exact if_pos (Nat.succ_le_succ ht)

theorem exec_segmentStallExpiry_of_due {s : State} {n : Word16} {ticks : List Word16} {e : EntryId}
    {h : Option SegHeader} {t : Nat} (hticks : s.mail.ticks.intake = n :: ticks)
    (hr : s.intake.receiving = some (e, h, t)) (ht : 1 ≤ t) :
    exec .segmentStallExpiry s = .next (s.setIntakeTicks ticks).intakeTick.ended := by
  have hdue : s.intake.stallDue = true := by
    rw [Intake.stallDue, hr]
    exact decide_eq_true (Nat.succ_le_succ ht)
  rw [show exec .segmentStallExpiry s = execSegmentStallExpiry s from rfl, execSegmentStallExpiry, hticks]
  exact if_pos hdue

/-! ### SEGMENT_HEADER (R69) -/

theorem exec_segmentHeader (chain address : Byte) (frame length : Word16) (s : State) :
    exec (.segmentHeader chain address frame length) s = execSegmentHeader chain address frame length s := rfl

theorem exec_segmentEnd (payload : List Byte) (crc : Word32) (s : State) :
    exec (.segmentEnd payload crc) s = execSegmentEnd payload crc s := rfl

theorem exec_segmentHeader_of_receiving {s : State} {e : EntryId} {t : Nat} (h : s.intake.receiving = some (e, none, t))
    (chain address : Byte) (frame length : Word16) :
    exec (.segmentHeader chain address frame length) s =
      .next (s.takeHeader e t chain address frame length).ended := by
  rw [exec_segmentHeader, execSegmentHeader, h]
  rfl

theorem exec_segmentHeader_of_none {s : State} (h : s.intake.receiving = none) (chain address : Byte)
    (frame length : Word16) : exec (.segmentHeader chain address frame length) s = .next s := by
  rw [exec_segmentHeader, execSegmentHeader, h]
  rfl

theorem exec_segmentEnd_of_none {s : State} (h : s.intake.receiving = none) (payload : List Byte) (crc : Word32) :
    exec (.segmentEnd payload crc) s = .next s := by
  rw [exec_segmentEnd, execSegmentEnd, h]
  rfl

theorem exec_segmentEnd_of_header {s : State} {e : EntryId} {h : SegHeader} {t : Nat}
    (hr : s.intake.receiving = some (e, some h, t)) (payload : List Byte) (crc : Word32) :
    exec (.segmentEnd payload crc) s =
      if payload.length = h.length then .next (s.endSegment e h payload crc).ended else .next s := by
  rw [exec_segmentEnd, execSegmentEnd, hr]
  rfl

theorem State.takeHeader_of_bad_length {s : State} {length : Word16} (h : length.toNat < 1 ∨ 4096 < length.toNat)
    (e : EntryId) (t : Nat) (chain address : Byte) (frame : Word16) :
    s.takeHeader e t chain address frame length = s.discard e .badLength := if_pos h

theorem State.takeHeader_of_length {s : State} {length : Word16} (hlo : 1 ≤ length.toNat) (hhi : length.toNat ≤ 4096)
    (e : EntryId) (t : Nat) (chain address : Byte) (frame : Word16) :
    s.takeHeader e t chain address frame length =
      match chainByte? chain, isAddress address.toNat with
      | some c, true =>
          s.setStaging e (.receiving
            (some { chain := c, address := address.toNat, frame := frame, length := length.toNat }) t)
      | _, _ => s.discard e .badTarget :=
  if_neg (by omega)

theorem State.takeHeader_of_bad_target {s : State} {length : Word16} (hlo : 1 ≤ length.toNat) (hhi : length.toNat ≤ 4096)
    {chain address : Byte} (h : 3 < chain.toNat ∨ address.toNat < 1 ∨ 30 < address.toNat) (e : EntryId) (t : Nat)
    (frame : Word16) : s.takeHeader e t chain address frame length = s.discard e .badTarget := by
  rw [State.takeHeader_of_length hlo hhi]
  rcases h with h | h
  · rw [chainByte?_eq_none h]
  · have haddress : isAddress address.toNat = false := by
      rw [← Bool.not_eq_true, isAddress_iff]
      omega
    rw [haddress]
    cases chainByte? chain <;> rfl

theorem State.takeHeader_of_good {s : State} {length : Word16} (hlo : 1 ≤ length.toNat) (hhi : length.toNat ≤ 4096)
    {chain address : Byte} {c : ChainId} (hc : chain.toNat = c.val) (halo : 1 ≤ address.toNat)
    (hahi : address.toNat ≤ 30) (e : EntryId) (t : Nat) (frame : Word16) :
    s.takeHeader e t chain address frame length =
      s.setStaging e (.receiving
        (some { chain := c, address := address.toNat, frame := frame, length := length.toNat }) t) := by
  rw [State.takeHeader_of_length hlo hhi, chainByte?_of_val hc, isAddress_iff.2 ⟨halo, hahi⟩]

/-- Settles O26: the segment that starts by the entries, the tick by the stall watch, and the header by its checks. -/
theorem segmentsStartStallAndAreChecked : Obligations.SegmentsStartStallAndAreChecked := by
  unfold Obligations.SegmentsStartStallAndAreChecked
  refine ⟨⟨?begins, ?cutShort, ?cutShortOther, ?ticks⟩, ?header, ?otherLength, ?ignored⟩
  case begins =>
    intro s hr
    rw [exec_segmentStart, State.truncate_of_none hr]
    refine ⟨fun h0 h1 => ?_, fun h0 => ?_, fun h0 h1 => ?_⟩
    · rw [State.beginSegment_of_hold h0 h1]
      rfl
    · rw [State.beginSegment_of_e0 h0]
      rfl
    · rw [State.beginSegment_of_e1 h0 h1]
      rfl
  case cutShort =>
    intro s h t h0
    rw [exec_segmentStart, State.truncate_of_receiving (Intake.receiving_of_e0 h0), State.beginSegment_of_e0 (by rfl)]
    rfl
  case cutShortOther =>
    intro s h t h0 h1
    rw [exec_segmentStart, State.truncate_of_receiving (Intake.receiving_of_e1 h0 h1)]
    refine ⟨fun hne => ?_, fun hfree => ?_⟩
    · rw [State.beginSegment_of_e1 (by exact hne) (by rfl)]
      rfl
    · rw [State.beginSegment_of_e0 (by exact hfree)]
      rfl
  case ticks =>
    intro s n ticks hticks taken
    refine ⟨fun hr => ?_, fun e h hr => ?_, fun e h t hr ht => ?_⟩
    · rw [exec_segmentIntakeTick_of_tick hticks, State.intakeTick_of_none (by exact hr)]
      rfl
    · rw [exec_segmentIntakeTick_of_tick hticks, State.intakeTick_of_first (by exact hr)]
      rfl
    · have hstall : (s.setIntakeTicks ticks).intakeTick = (s.setIntakeTicks ticks).stall e h :=
        State.intakeTick_of_second (by exact hr) ht
      rw [exec_segmentIntakeTick_of_tick hticks, exec_segmentStallExpiry_of_due hticks hr ht, hstall]
      exact ⟨rfl, rfl⟩
  case header =>
    intro e t chain address frame length s hr dropped
    rw [exec_segmentHeader_of_receiving hr]
    refine ⟨fun hbad => ?_, fun hlo hhi hbad => ?_, fun c hlo hhi hc halo hahi => ?_⟩
    · rw [State.takeHeader_of_bad_length hbad]
      rfl
    · rw [State.takeHeader_of_bad_target hlo hhi hbad]
      rfl
    · rw [State.takeHeader_of_good hlo hhi hc halo hahi]
      rfl
  case otherLength =>
    intro e h t payload crc s hr hlen
    rw [exec_segmentEnd_of_header hr, if_neg hlen]
  case ignored =>
    intro chain address frame length payload crc s hr
    exact ⟨exec_segmentHeader_of_none hr _ _ _ _, exec_segmentEnd_of_none hr _ _⟩

/-! ### The filing checks (R72) -/

theorem ChainMode.carries_iff (st : ChainMode) : st.carries = true ↔ st = .running ∨ st = .extending ∨ st = .broken := by
  cases st <;> simp [ChainMode.carries]

theorem NodeState.shows_iff (st : NodeState) : st.shows = true ↔ st = .live ∨ st = .suspect := by
  cases st <;> simp [NodeState.shows]

theorem Chain.showsTile_iff {ch : Chain} {a : Nat} :
    ch.showsTile a = true ↔ ∃ n x, ch.node a = some n ∧ n.kind = .tile x ∧ (n.state = .live ∨ n.state = .suspect) := by
  unfold Chain.showsTile
  cases hn : ch.node a with
  | none => simp
  | some n =>
    dsimp only
    rw [Bool.and_eq_true, NodeState.shows_iff]
    cases hk : n.kind with
    | lamp => simp [Node.tile?_of_lamp hk, hk]
    | tile x => simp [Node.tile?_of_tile hk, hk]

theorem later_eq_false {f g : Word16} (h : (f - g).toNat = 0 ∨ 32768 ≤ (f - g).toNat) : later f g = false := by
  rw [later, frameDistance, Bool.and_eq_false_iff, decide_eq_false_iff_not, decide_eq_false_iff_not]
  omega

theorem later_eq_true {f g : Word16} (hlo : 1 ≤ (f - g).toNat) (hhi : (f - g).toNat ≤ 32767) : later f g = true := by
  rw [later, frameDistance, decide_eq_true hlo, decide_eq_true hhi]
  rfl

theorem inWindow_eq_false {f g : Word16} (h : 5 ≤ (f - g).toNat) : inWindow f g = false := by
  rw [inWindow, frameDistance, Bool.and_eq_false_iff, decide_eq_false_iff_not, decide_eq_false_iff_not]
  omega

theorem inWindow_eq_true {f g : Word16} (hlo : 1 ≤ (f - g).toNat) (hhi : (f - g).toNat ≤ 4) : inWindow f g = true := by
  rw [inWindow, frameDistance, decide_eq_true hlo, decide_eq_true hhi]
  rfl

/-! ### The memory arbiter (R76) -/

theorem Pool.grant_of_busy {p : Pool} (h : p.busy ≠ none) : p.grant = p := by
  obtain ⟨op, hop⟩ := Option.ne_none_iff_exists'.1 h
  rw [Pool.grant, hop]

theorem Pool.grant_of_read {p : Pool} {c : ChainId} {b : Nat} {rest : List (ChainId × Nat)} (hb : p.busy = none)
    (h : p.reads = (c, b) :: rest) : p.grant = { p with busy := some (.read c b), reads := rest } := by
  rw [Pool.grant, hb, h]

theorem Pool.grant_of_store {p : Pool} {e : EntryId} {rest : List EntryId} (hb : p.busy = none) (hr : p.reads = [])
    (h : p.stores = e :: rest) : p.grant = { p with busy := some (.store e), stores := rest } := by
  rw [Pool.grant, hb, hr, h]

/-- A grant changes the operation under way and what waits for the memory alone. -/
theorem Pool.grant_eq (p : Pool) :
    p.grant = { p with busy := p.grant.busy, reads := p.grant.reads, stores := p.grant.stores,
                       testWaiting := p.grant.testWaiting } := by
  unfold Pool.grant
  split
  · rfl
  · split
    · rfl
    · split
      · rfl
      · split
        · split
          · split <;> rfl
          · rfl
        · rfl

theorem Pool.grant_free (p : Pool) : p.grant.free = p.free := by rw [Pool.grant_eq]
theorem Pool.grant_pause (p : Pool) : p.grant.pause = p.pause := by rw [Pool.grant_eq]
theorem Pool.grant_flowOut (p : Pool) : p.grant.flowOut = p.flowOut := by rw [Pool.grant_eq]
theorem Pool.grant_freeCount (p : Pool) : p.grant.freeCount = p.freeCount := by
  rw [Pool.freeCount, Pool.grant_free, Pool.freeCount]

theorem State.grantMemory_of_busy {s : State} (h : s.pool.busy ≠ none) : s.grantMemory = s := by
  unfold State.grantMemory
  rw [Pool.grant_of_busy h, if_neg (by simpa using h)]

theorem State.grantMemory_of_store {s : State} {e : EntryId} {rest : List EntryId} (hb : s.pool.busy = none)
    (hr : s.pool.reads = []) (h : s.pool.stores = e :: rest) :
    s.grantMemory =
      { s with pool := { s.pool with busy := some (.store e), stores := rest },
               intake := s.intake.setEntry e (s.intake.entry e).toStoring } := by
  unfold State.grantMemory
  rw [Pool.grant_of_store hb hr h, if_pos (by rw [hb]; rfl)]
  rfl

/-! ### The pause (R78) -/

/-- A pause starts (R78): PAUSE(P) is sent and reported. -/
theorem State.checkPauseStart_of_start {s : State} (hp : s.pool.pause = false) (h : s.pool.freeCount < s.pool.threshold) :
    s.checkPauseStart =
      ({ s with pool := { s.pool with pause := true, flowOut := s.pool.flowOut ++ [.pause s.e s.pool.pauseLen] } } :
        State).report (.flow .pauseStart s.e s.pool.freeCount s.pool.quarantine.length s.pool.threshold s.pool.pauseLen) :=
  if_pos (by rw [Pool.startsPause, hp, decide_eq_true h]; rfl)

theorem State.checkPauseStart_of_no_start {s : State} (h : s.pool.pause = true ∨ s.pool.threshold ≤ s.pool.freeCount) :
    s.checkPauseStart = s := by
  refine if_neg ?_
  rw [Pool.startsPause, Bool.and_eq_true, decide_eq_true_iff]
  rintro ⟨hp, hlt⟩
  rcases h with h | h
  · rw [h] at hp
    exact Bool.false_ne_true hp
  · omega

/-- The pause evaluated changes the pause and the flow messages, and reports. -/
theorem State.checkPauseStart_spec (s : State) :
    ∃ l, s.checkPauseStart =
      { s with
        pool := { s.pool with
          pause := s.pool.pause || decide (s.pool.freeCount < s.pool.threshold),
          flowOut := s.pool.flowOut ++
            (if s.pool.pause = false ∧ s.pool.freeCount < s.pool.threshold then [.pause s.e s.pool.pauseLen] else []) },
        link := l } := by
  by_cases h : s.pool.pause = false ∧ s.pool.freeCount < s.pool.threshold
  · rw [State.checkPauseStart_of_start h.1 h.2, if_pos h, decide_eq_true h.2, Bool.or_true]
    exact ⟨_, rfl⟩
  · have hno : s.pool.pause = true ∨ s.pool.threshold ≤ s.pool.freeCount := by
      rw [not_and_or, Bool.not_eq_false] at h
      exact h.imp_right Nat.not_lt.1
    have hpause : (s.pool.pause || decide (s.pool.freeCount < s.pool.threshold)) = s.pool.pause := by
      rcases hno with hp | hle
      · rw [hp, Bool.true_or]
      · rw [decide_eq_false (Nat.not_lt.2 hle), Bool.or_false]
    rw [State.checkPauseStart_of_no_start hno, if_neg h, hpause, List.append_nil]
    exact ⟨s.link, rfl⟩

/-! ### Staging entries by number -/

@[simp] theorem Intake.entry_setEntry (i : Intake) (e : EntryId) (x : Entry) : (i.setEntry e x).entry e = x := by
  cases e <;> rfl

@[simp] theorem Intake.setEntry_setEntry (i : Intake) (e : EntryId) (x y : Entry) :
    (i.setEntry e x).setEntry e y = i.setEntry e y := by cases e <;> rfl

/-! ### SEGMENT_END (R71 to R74) -/

section File

variable {s : State} {e : EntryId} {h : SegHeader} {payload : List Byte}

theorem State.endSegment_of_check {crc : Word32} (hcrc : crc32 (h.bytes ++ payload) ≠ crc) :
    s.endSegment e h payload crc = (s.discard e .check).raise (.segCheck h.frame) .intake (some h.node) := if_neg hcrc

theorem State.endSegment_of_intact {crc : Word32} (hcrc : crc32 (h.bytes ++ payload) = crc) :
    s.endSegment e h payload crc = s.file e h payload := if_pos hcrc

theorem State.file_of_chainOff (hc : (s.chains.get h.chain).state.carries = false) :
    s.file e h payload = s.discard e .chainOff := if_pos (by rw [hc]; rfl)

theorem State.file_of_notLive (hc : (s.chains.get h.chain).state.carries = true)
    (ht : (s.chains.get h.chain).showsTile h.address = false) : s.file e h payload = s.discard e .notLive :=
  (if_neg (by rw [hc]; exact Bool.false_ne_true)).trans (if_pos (by rw [ht]; rfl))

/-- A segment for a tile that shows, by its frame. -/
theorem State.file_of_tile (hc : (s.chains.get h.chain).state.carries = true)
    (ht : (s.chains.get h.chain).showsTile h.address = true) :
    s.file e h payload =
      if !later h.frame s.e then (s.discard e .late).countLate h.chain h.address
      else if !inWindow h.frame s.e then s.discard e .early
      else
        match s.pool.firstFree with
        | some b => s.queueStore e h payload b
        | none => s.noBuffer e h :=
  (if_neg (by rw [hc]; exact Bool.false_ne_true)).trans (if_neg (by rw [ht]; exact Bool.false_ne_true))

theorem Pool.firstFree_eq_none {p : Pool} (h : ∀ f ∈ p.free, f.reservedBy ≠ none) : p.firstFree = none := by
  have hfind : p.free.find? (fun f => f.reservedBy.isNone) = none := by
    rw [List.find?_eq_none]
    exact fun f hf => by simpa using h f hf
  rw [Pool.firstFree, hfind]
  rfl

theorem Pool.firstFree_of_append {p : Pool} {before after : List FreeBuf} {b : Nat}
    (hp : p.free = before ++ { buffer := b, reservedBy := none } :: after) (h : ∀ f ∈ before, f.reservedBy ≠ none) :
    p.firstFree = some b := by
  have hfind : before.find? (fun f => f.reservedBy.isNone) = none := by
    rw [List.find?_eq_none]
    exact fun f hf => by simpa using h f hf
  rw [Pool.firstFree, hp, List.find?_append, hfind]
  rfl

theorem State.noBuffer_of_exhausted (hx : s.pool.exhausted = true) : s.noBuffer e h = s.discard e .nobuf := if_pos hx

theorem State.noBuffer_of_first (hx : s.pool.exhausted = false) :
    s.noBuffer e h =
      ({ s.discard e .nobuf with pool := { s.pool with exhausted := true } } : State).raise (.poolEmpty h.frame) .pool
        (some h.node) := if_neg (ne_true_of_eq_false hx)

end File

/-- The pool when a segment's store is requested, before the memory is granted (R72, R76, R78). -/
def Pool.storeRequested (b : Nat) (e : EntryId) (frame : Word16) (p : Pool) : Pool :=
  { p.reserve b e with
    pause := p.pause || decide ((p.reserve b e).freeCount < p.threshold),
    flowOut := p.flowOut ++
      (if p.pause = false ∧ (p.reserve b e).freeCount < p.threshold then [.pause frame p.pauseLen] else []),
    stores := p.stores ++ [e] }

theorem State.queueStore_spec (e : EntryId) (h : SegHeader) (payload : List Byte) (b : Nat) (s : State) :
    ∃ l, s.queueStore e h payload b =
      ({ s with pool := s.pool.storeRequested b e s.e, intake := s.intake.setEntry e (.queued h payload b), link := l } :
        State).grantMemory := by
  obtain ⟨l, hl⟩ := State.checkPauseStart_spec
    (({ s with pool := s.pool.reserve b e } : State).setStaging e (.queued h payload b))
  exact ⟨l, congrArg (fun t : State =>
    ({ t with pool := { t.pool with stores := t.pool.stores ++ [e] } } : State).grantMemory) hl⟩

/-- Settles O27: the segment by the first of its checks that fails, or with its buffer reserved and its store requested. -/
theorem segmentEndChecksAndFiles : Obligations.SegmentEndChecksAndFiles := by
  unfold Obligations.SegmentEndChecksAndFiles
  intro e h t payload crc s hr hlen ch node ahead dropped carries shows
  rw [exec_segmentEnd_of_header hr, if_pos hlen]
  have hcarries : ch.state.carries = true ↔ carries := ChainMode.carries_iff _
  refine ⟨fun hcrc => ?check, fun hcrc => ⟨fun hoff => ?off, fun hon hno => ?notLive, fun hon n x hshows => ?tile⟩⟩
  case check =>
    rw [State.endSegment_of_check hcrc]
    rfl
  case off =>
    rw [State.endSegment_of_intact hcrc, State.file_of_chainOff (by exact Bool.eq_false_of_not_eq_true (hoff ∘ hcarries.1))]
    rfl
  case notLive =>
    rw [State.endSegment_of_intact hcrc, State.file_of_notLive (by exact hcarries.2 hon)
      (Bool.eq_false_of_not_eq_true (hno ∘ Chain.showsTile_iff.1))]
    rfl
  case tile =>
    rw [State.endSegment_of_intact hcrc, State.file_of_tile (by exact hcarries.2 hon) (Chain.showsTile_iff.2 ⟨n, x, hshows⟩)]
    obtain ⟨hn, hk, -⟩ := hshows
    refine ⟨fun hlate => ?late, fun hlo hhi => ?early, fun hlo hhi hnone => ?noBuffer, fun hlo hhi before b after hfree
      hbefore => ?queued⟩
    case late =>
      intro late
      have hupdate : ch.updateTile h.address (fun t => { t with lateCount := bump16 t.lateCount }) =
          ch.setNode h.address (some late) := by
        rw [Chain.updateTile, hn]
        dsimp only
        rw [hk]
      rw [later_eq_false (by exact hlate), ← hupdate]
      rfl
    case early =>
      rw [later_eq_true (by exact hlo.trans' (by decide)) (by exact hhi), inWindow_eq_false (by exact hlo)]
      rfl
    case noBuffer =>
      rw [later_eq_true (by exact hlo) (by exact hhi.trans (by decide)), inWindow_eq_true (by exact hlo) (by exact hhi),
        Pool.firstFree_eq_none hnone]
      refine ⟨fun hx => ?_, fun hx => ?_⟩
      · exact ended_congr (State.noBuffer_of_exhausted hx)
      · exact ended_congr (State.noBuffer_of_first hx)
    case queued =>
      rw [later_eq_true (by exact hlo) (by exact hhi.trans (by decide)), inWindow_eq_true (by exact hlo) (by exact hhi),
        Pool.firstFree_of_append hfree hbefore]
      obtain ⟨l, hqueued⟩ := State.queueStore_spec e h payload b s
      refine ⟨_, rfl, ?_⟩
      dsimp only
      rw [if_neg (by decide), if_neg (by decide), hqueued]
      have hcount : (s.pool.storeRequested b e s.e).grant.freeCount = (s.pool.reserve b e).freeCount :=
        Pool.grant_freeCount _
      refine ⟨Pool.grant_free _, fun hb => ?busy, fun hb hreads hstores => ?idle, ?_, ?_, Pool.grant_memory _,
        rfl, rfl, rfl, rfl, rfl, rfl, rfl, rfl⟩
      case busy =>
        rw [State.grantMemory_of_busy (by exact hb)]
        exact ⟨rfl, rfl, rfl⟩
      case idle =>
        rw [State.grantMemory_of_store (rest := []) (by exact hb) (by exact hreads)
          (by exact congrArg (· ++ [e]) hstores)]
        refine ⟨?_, rfl, rfl⟩
        exact (Intake.setEntry_setEntry _ _ _ _).trans
          (congrArg (fun x : Entry => s.intake.setEntry e x.toStoring) (Intake.entry_setEntry _ _ _))
      · exact (Pool.grant_pause _).trans (congrArg (fun k => s.pool.pause || decide (k < s.pool.threshold)) hcount.symm)
      · exact (Pool.grant_flowOut _).trans (congrArg (fun k => s.pool.flowOut ++
          (if s.pool.pause = false ∧ k < s.pool.threshold then [.pause s.e s.pool.pauseLen] else [])) hcount.symm)

/-! ### STORE_COMPLETE (R77) -/

theorem exec_storeComplete_of_store {s : State} {e : EntryId} {h : SegHeader} {payload : List Byte} {b : Nat}
    {flushed : Bool} (hb : s.pool.busy = some (.store e)) (he : s.intake.entry e = .storing h payload b flushed) :
    exec .storeComplete s = .next (s.storeDone e h payload b flushed).ended := by
  rw [show exec .storeComplete s = execStoreComplete s from rfl, execStoreComplete, hb]
  dsimp only
  rw [he]
  rfl

/-- The part with the payload in its buffer, the memory free and the entry free (R77). -/
def State.payloadStored (e : EntryId) (payload : List Byte) (b : Nat) (s : State) : State :=
  ({ s with pool := { s.pool with busy := none }.stored b payload } : State).setStaging e .free

theorem State.storeDone_of_flushed (e : EntryId) (h : SegHeader) (payload : List Byte) (b : Nat) (s : State) :
    s.storeDone e h payload b true =
      ({ s.payloadStored e payload b with pool := (s.payloadStored e payload b).pool.lift b } : State).grantMemory := rfl

theorem State.storeDone_of_kept (e : EntryId) (h : SegHeader) (payload : List Byte) (b : Nat) (s : State) :
    s.storeDone e h payload b false = ((s.payloadStored e payload b).recheck h b).grantMemory := rfl

section Recheck

variable {s : State} {h : SegHeader} {b : Nat}

theorem State.recheck_of_chainOff (hc : (s.chains.get h.chain).state.carries = false) :
    s.recheck h b = s.dropStored .chainOff b := if_pos (by rw [hc]; rfl)

theorem State.recheck_of_late (hc : (s.chains.get h.chain).state.carries = true) (hl : later h.frame s.e = false) :
    s.recheck h b = (s.dropStored .late b).countLate h.chain h.address :=
  (if_neg (by rw [hc]; exact Bool.false_ne_true)).trans (if_pos (by rw [hl]; rfl))

theorem State.recheck_of_early (hc : (s.chains.get h.chain).state.carries = true) (hl : later h.frame s.e = true)
    (hw : inWindow h.frame s.e = false) : s.recheck h b = s.dropStored .early b :=
  (if_neg (by rw [hc]; exact Bool.false_ne_true)).trans
    ((if_neg (by rw [hl]; exact Bool.false_ne_true)).trans (if_pos (by rw [hw]; rfl)))

theorem State.recheck_of_window (hc : (s.chains.get h.chain).state.carries = true) (hl : later h.frame s.e = true)
    (hw : inWindow h.frame s.e = true) : s.recheck h b = s.fileBuffer h b :=
  (if_neg (by rw [hc]; exact Bool.false_ne_true)).trans
    ((if_neg (by rw [hl]; exact Bool.false_ne_true)).trans (if_neg (by rw [hw]; exact Bool.false_ne_true)))

/-- The slot a segment is filed in holds its node and its frame (R88). -/
abbrev SegHeader.fills (h : SegHeader) (x : FrameSlot) : Prop := x.address = h.address ∧ x.frame = h.frame

/-- The slot that a filed segment takes. -/
def SegHeader.slot (h : SegHeader) (b : Nat) : FrameSlot := { frame := h.frame, address := h.address, buffer := b }

/-- Filing in terms of the buffer that the slot's segment had, if one did, and of the other slots. -/
theorem State.fileBuffer_eq {o : Option FrameSlot} {others : List FrameSlot}
    (hfind : (s.asm.get h.chain).slots.find? (fun x => decide (h.fills x)) = o)
    (hfilter : (s.asm.get h.chain).slots.filter (fun x => decide (¬ h.fills x)) = others) :
    s.fileBuffer h b =
      let left : State := { s with pool := { s.pool with free := s.pool.free.filter fun f => decide (f.buffer ≠ b) } }
      (State.countSeg .filed (match (generalizing := false) o with
        | some old => (left.toFree old.buffer).countSeg .dup
        | none => left)).setAsm h.chain { s.asm.get h.chain with slots := others ++ [h.slot b] } := by
  have hfind' : (s.asm.get h.chain).slots.find? (fun x => decide (x.address = h.address ∧ x.frame = h.frame)) = o := hfind
  subst hfilter
  unfold State.fileBuffer
  dsimp only
  rw [hfind']
  cases o <;> rfl

theorem State.fileBuffer_of_new (hno : ∀ x ∈ (s.asm.get h.chain).slots, ¬ h.fills x) :
    s.fileBuffer h b =
      ((({ s with pool := { s.pool with free := s.pool.free.filter fun f => decide (f.buffer ≠ b) } } : State).countSeg
        .filed).setAsm h.chain
          { s.asm.get h.chain with slots := (s.asm.get h.chain).slots ++ [h.slot b] }) := by
  refine State.fileBuffer_eq (o := none) ?_ (List.filter_eq_self.2 fun x hx => decide_eq_true (hno x hx))
  rw [List.find?_eq_none]
  exact fun x hx hsame => hno x hx (of_decide_eq_true hsame)

theorem State.fileBuffer_of_dup {before after : List FrameSlot} {old : FrameSlot}
    (hslots : (s.asm.get h.chain).slots = before ++ old :: after) (hold : h.fills old)
    (hno : ∀ x ∈ before ++ after, ¬ h.fills x) :
    s.fileBuffer h b =
      (((({ s with
        pool := { s.pool with
          free := (s.pool.free.filter fun f => decide (f.buffer ≠ b)) ++
            [{ buffer := old.buffer, reservedBy := none }] } } : State).countSeg .dup).countSeg .filed).setAsm h.chain
          { s.asm.get h.chain with slots := before ++ after ++ [h.slot b] }) := by
  have hno_before : before.find? (fun x => decide (h.fills x)) = none := by
    rw [List.find?_eq_none]
    exact fun x hx hsame => hno x (List.mem_append_left _ hx) (of_decide_eq_true hsame)
  have hfind : (s.asm.get h.chain).slots.find? (fun x => decide (h.fills x)) = some old := by
    rw [hslots, List.find?_append, hno_before, Option.none_or]
    exact List.find?_cons_of_pos (p := fun x => decide (h.fills x)) (decide_eq_true hold)
  have hfilter : (s.asm.get h.chain).slots.filter (fun x => decide (¬ h.fills x)) = before ++ after := by
    have hkeep : ∀ x ∈ before ++ after, decide (¬ h.fills x) = true := fun x hx => decide_eq_true (hno x hx)
    rw [hslots, List.filter_append, List.filter_cons_of_neg (by simp [hold]), ← List.filter_append,
      List.filter_eq_self.2 hkeep]
  exact State.fileBuffer_eq hfind hfilter

end Recheck

/-- Settles O28: the stored segment by the checks made anew, and the bytes by what a write leaves. -/
theorem storeCompleteRechecksAndFiles : Obligations.StoreCompleteRechecksAndFiles := by
  unfold Obligations.StoreCompleteRechecksAndFiles
  refine ⟨?store, ?bytes⟩
  case store =>
    intro e h payload b flushed s hb he ch m ahead p others lifted dropped carries same new
    have hcarries : ch.state.carries = true ↔ carries := ChainMode.carries_iff _
    refine ⟨fun hf => ?flushed, fun hf hoff => ?off, fun hf hon hlate => ?late, fun hf hon hlo hhi => ?early,
      fun hf hon hlo hhi hnew => ?filed, fun hf hon hlo hhi before old after hslots hold hno => ?dup⟩
    all_goals rw [exec_storeComplete_of_store hb he, hf]
    case flushed =>
      rw [State.storeDone_of_flushed]
      rfl
    case off =>
      rw [State.storeDone_of_kept, State.recheck_of_chainOff (by exact Bool.eq_false_of_not_eq_true (hoff ∘ hcarries.1))]
      rfl
    case late =>
      rw [State.storeDone_of_kept, State.recheck_of_late (by exact hcarries.2 hon) (later_eq_false (by exact hlate))]
      rfl
    case early =>
      rw [State.storeDone_of_kept, State.recheck_of_early (by exact hcarries.2 hon)
        (later_eq_true (by exact hlo.trans' (by decide)) (by exact hhi)) (inWindow_eq_false (by exact hlo))]
      rfl
    case filed =>
      rw [State.storeDone_of_kept, State.recheck_of_window (by exact hcarries.2 hon)
        (later_eq_true (by exact hlo) (by exact hhi.trans (by decide)))
        (inWindow_eq_true (by exact hlo) (by exact hhi)), State.fileBuffer_of_new (by exact hnew)]
      rfl
    case dup =>
      rw [State.storeDone_of_kept, State.recheck_of_window (by exact hcarries.2 hon)
        (later_eq_true (by exact hlo) (by exact hhi.trans (by decide)))
        (inWindow_eq_true (by exact hlo) (by exact hhi)), State.fileBuffer_of_dup (by exact hslots) hold hno]
      rfl
  case bytes =>
    intro m payload base a hm
    split
    · next hin =>
      obtain ⟨i, rfl⟩ := Nat.exists_eq_add_of_le hin.1
      have hi : i < payload.length := by omega
      rw [Memory.read_writeBytes_inside payload hm hi, Nat.add_sub_cancel_left, List.getD_eq_getElem _ _ hi]
    · exact Memory.read_writeBytes_outside payload hm (by omega)

end Sys2Proof.Machine
end

section
/-! Chapter 4, the Buffer Pool: its tick and SEG_SET (R79, R80), the arbiter (R76), and the scrub of the quarantine (R83,
R84). -/

namespace Sys2Proof.Machine

/-! ### The pause at a tick (R79) -/

theorem exec_bufferPoolTick_of_tick {s : State} {n : Word16} {ticks : List Word16}
    (h : s.mail.ticks.pool = n :: ticks) :
    exec .bufferPoolTick s =
      .next (s.setMail { s.mail with ticks := { s.mail.ticks with pool := ticks } }).evaluatePause.ended := by
  rw [show exec .bufferPoolTick s = execBufferPoolTick s from rfl, execBufferPoolTick, h]
  rfl

theorem State.evaluatePause_of_none {s : State} (h : s.pool.pause = false) : s.evaluatePause = s :=
  if_neg (ne_true_of_eq_false h)

theorem State.evaluatePause_of_low {s : State} (hp : s.pool.pause = true) (h : s.pool.freeCount < s.pool.threshold) :
    s.evaluatePause = s.setPool { s.pool with flowOut := s.pool.flowOut ++ [.pause s.e s.pool.pauseLen] } :=
  (if_pos hp).trans (if_pos h)

/-- The pause ends (R79): RESUME is sent and reported, and the exhaustion mark cleared. -/
theorem State.evaluatePause_of_end {s : State} (hp : s.pool.pause = true) (h : s.pool.threshold ≤ s.pool.freeCount) :
    s.evaluatePause =
      (s.setPool { s.pool with pause := false, exhausted := false, flowOut := s.pool.flowOut ++ [.resume s.e] }).report
        (.flow .pauseEnd s.e s.pool.freeCount s.pool.quarantine.length s.pool.threshold s.pool.pauseLen) :=
  (if_pos hp).trans (if_neg (Nat.not_lt.2 h))

/-! ### SEG_SET (R80) -/

theorem exec_segSet_of_values {q : Request} {rest : List Request} {s : State} {x : Nat × Nat}
    (hq : Waits .segSet q rest s) (hx : segSet? q.body = some x) :
    exec .segSet s = .next (((s.taken rest).segSet x.1 x.2).replied q .ok .empty) := by
  rw [show exec .segSet s = execSegSet s from rfl, execSegSet, takeWith_some hq hx]
  rfl

/-! ### The memory arbiter (R76) -/

theorem Pool.grant_of_test {p : Pool} {sc : Scrub} {b : Nat} {rest : List Nat} (hb : p.busy = none) (hr : p.reads = [])
    (hs : p.stores = []) (ht : p.testWaiting = true) (hsc : p.scrub = some sc) (htodo : sc.todo = b :: rest) :
    p.grant = { p with busy := some (.test b), testWaiting := false } := by
  rw [Pool.grant, hb, hr, hs, if_pos ht, hsc]
  dsimp only
  rw [htodo]

theorem Pool.grant_of_idle {p : Pool} (hb : p.busy = none) (hr : p.reads = []) (hs : p.stores = [])
    (ht : p.testWaiting = false) : p.grant = p := by
  rw [Pool.grant, hb, hr, hs]
  exact if_neg (ne_true_of_eq_false ht)

/-- Settles O30: the tick and SEG_SET by the free count, and the grant by what waits. -/
theorem poolTicksSettingsAndGrants : Obligations.PoolTicksSettingsAndGrants := by
  unfold Obligations.PoolTicksSettingsAndGrants
  refine ⟨?tick, ?settings, ?flow, fun p => ⟨Pool.grant_of_busy, fun c b rest => Pool.grant_of_read, fun e rest =>
    Pool.grant_of_store, fun sc b rest => Pool.grant_of_test, Pool.grant_of_idle⟩⟩
  case tick =>
    intro n ticks s hticks taken p e
    rw [exec_bufferPoolTick_of_tick hticks]
    refine ⟨fun hp => ?_, fun hp hlow => ?_, fun hp hhigh => ?_⟩
    · rw [State.evaluatePause_of_none (by exact hp)]
    · rw [State.evaluatePause_of_low (by exact hp) (by exact hlow)]
      rfl
    · rw [State.evaluatePause_of_end (by exact hp) (by exact hhigh)]
      rfl
  case settings =>
    intro q rest s t l hq hx p e
    rw [exec_segSet_of_values hq hx]
    refine ⟨fun hno => ?_, fun hp hlow => ?_⟩
    · rw [State.segSet, State.checkPauseStart_of_no_start (by exact hno)]
      rfl
    · rw [State.segSet, State.checkPauseStart_of_start (by exact hp) (by exact hlow)]
      rfl
  case flow =>
    intro m rest s h
    rw [show exec .flowMessageEnd s = execFlowMessageEnd s from rfl, execFlowMessageEnd, h]
    rfl

/-! ### POOL_SCRUB (R83) -/

theorem exec_poolScrub (s : State) : exec .poolScrub s = execPoolScrub s := rfl

theorem State.nextTest_of_nil {sc : Scrub} (h : sc.todo = []) (s : State) :
    s.nextTest sc = (s.setPool { s.pool with scrub := none }).poolReport sc := by
  rw [State.nextTest, h]
  rfl

theorem State.nextTest_of_todo {sc : Scrub} (h : sc.todo ≠ []) (s : State) :
    s.nextTest sc = s.setPool { s.pool with scrub := some sc, testWaiting := true } := by
  unfold State.nextTest
  cases ht : sc.todo with
  | nil => exact absurd ht h
  | cons b l => rfl

section Scrub

variable {q : Request} {rest : List Request} {s : State}

theorem exec_poolScrub_of_running (hq : Waits .poolScrub q rest s) (hbody : q.body = []) (h : s.pool.scrub ≠ none) :
    exec .poolScrub s = .next ((s.taken rest).replied q .busy .empty) := by
  rw [exec_poolScrub, execPoolScrub, takeWith_some hq (hbody ▸ noFields?_nil)]
  exact ended_congr (if_pos (Option.isSome_iff_ne_none.2 h))

theorem exec_poolScrub_of_idle (hq : Waits .poolScrub q rest s) (hbody : q.body = []) (h : s.pool.scrub = none) :
    exec .poolScrub s =
      .next (((s.taken rest).nextTest { todo := s.pool.scrubList, tested := 0, returned := 0, kept := 0 }).grantMemory.replied
        q .ok .empty) := by
  rw [exec_poolScrub, execPoolScrub, takeWith_some hq (hbody ▸ noFields?_nil)]
  refine ended_congr (if_neg ?_)
  rw [show (s.taken rest).pool.scrub = none from h]
  exact Bool.false_ne_true

end Scrub

/-! ### SCRUB_TEST_COMPLETE (R84) -/

theorem exec_scrubTestComplete_of_test {s : State} {b : Nat} (h : s.pool.busy = some (.test b)) (ok : Bool) :
    exec (.scrubTestComplete ok) s = .next (s.testDone b ok).ended := by
  rw [show exec (.scrubTestComplete ok) s = execScrubTestComplete ok s from rfl, execScrubTestComplete, h]
  rfl

/-- The pool behind a scrub test: the pattern in the buffer, which goes to the free tail or stays (R84). -/
def Pool.tested (b : Nat) (ok : Bool) (p : Pool) : Pool :=
  let written := { p with busy := none, memory := Memory.writeBytes p.memory (Memory.bufferBase b) testBytes }
  if ok then written.restore b else written.failAgain b

theorem Pool.tested_scrub (b : Nat) (ok : Bool) (p : Pool) : (p.tested b ok).scrub = p.scrub := by
  cases ok <;> rfl

theorem State.testDone_of_scrub {s : State} {sc : Scrub} (h : s.pool.scrub = some sc) (b : Nat) (ok : Bool) :
    s.testDone b ok = ((s.setPool (s.pool.tested b ok)).nextTest (sc.after ok)).grantMemory := by
  have hscrub : (s.pool.tested b ok).scrub = some sc := (Pool.tested_scrub b ok s.pool).trans h
  unfold State.testDone
  unfold Pool.tested at hscrub ⊢
  dsimp only at hscrub ⊢
  rw [hscrub]
  rfl

theorem bump8_eq_min {n : Nat} (h : n ≤ 255) : bump8 n = min (n + 1) 255 := by
  unfold bump8
  split <;> omega

/-- With fail counts in range, a failed test raises the buffer's count up to 255 (R84). -/
theorem Pool.failAgain_eq {p : Pool} (h : ∀ x ∈ p.quarantine, x.2 ≤ 255) (b : Nat) :
    p.failAgain b =
      { p with quarantine := p.quarantine.map fun x => if x.1 = b then (x.1, min (x.2 + 1) 255) else x } := by
  have hmap : p.quarantine.map (fun x => if x.1 = b then (x.1, bump8 x.2) else x) =
      p.quarantine.map fun x => if x.1 = b then (x.1, min (x.2 + 1) 255) else x :=
    List.map_congr_left fun x hx => by rw [bump8_eq_min (h x hx)]
  exact congrArg (fun l => ({ p with quarantine := l } : Pool)) hmap

theorem Pool.tested_eq {p : Pool} (h : ∀ x ∈ p.quarantine, x.2 ≤ 255) (b : Nat) (ok : Bool) :
    p.tested b ok =
      let written : Pool := { p with busy := none, memory := Memory.writeBytes p.memory (4096 * b) testBytes }
      if ok then { written with quarantine := written.quarantine.filter fun x => decide (x.1 ≠ b),
                                free := written.free ++ [{ buffer := b, reservedBy := none }] }
      else { written with
        quarantine := written.quarantine.map fun x => if x.1 = b then (x.1, min (x.2 + 1) 255) else x } := by
  rw [← show Memory.bufferBase b = 4096 * b from rfl]
  unfold Pool.tested
  generalize Memory.writeBytes p.memory (Memory.bufferBase b) testBytes = m
  cases ok with
  | true => rfl
  | false => exact Pool.failAgain_eq (p := { p with busy := none, memory := m }) h b

/-- Settles O31: the request and the tests by what is left to test. -/
theorem scrubTestsTheQuarantine : Obligations.ScrubTestsTheQuarantine := by
  unfold Obligations.ScrubTestsTheQuarantine
  refine ⟨?request, ?test, by simp [testBytes, Memory.bufferSize]⟩
  case request =>
    intro q rest s hq hbody p todo
    refine ⟨exec_poolScrub_of_running hq hbody, fun hnone hnil => ?_, fun hnone htodo => ?_⟩
    · have hpool : ({ s.pool with scrub := none } : Pool) = s.pool := congrArg (fun x => ({ s.pool with scrub := x } : Pool))
        hnone.symm
      rw [exec_poolScrub_of_idle hq hbody hnone, State.nextTest_of_nil (by exact hnil), State.taken_pool, hpool]
      rfl
    · rw [exec_poolScrub_of_idle hq hbody hnone, State.nextTest_of_todo (by exact htodo)]
      rfl
  case test =>
    intro b ok sc s hbusy hscrub written p returned kept
    rw [exec_scrubTestComplete_of_test hbusy, State.testDone_of_scrub hscrub]
    refine ⟨fun hcounts hnil => ?_, fun hcounts htodo => ?_⟩
    · rw [State.nextTest_of_nil (by exact hnil), Pool.tested_eq hcounts]
      rfl
    · rw [State.nextTest_of_todo (by exact htodo), Pool.tested_eq hcounts]
      rfl

end Sys2Proof.Machine
end

section
/-! The Frame Assembler on one chain: every step of an order reads and changes the pool, the chain's share of the assembler
and the chain's record only. `State.atChain` says which three, and each step has one equation on it. -/

namespace Sys2Proof.Machine

/-! ### The three parts an assembler step works on -/

/-- The pool, a chain's share of the assembler and its record replaced. -/
def State.atChain (c : ChainId) (p : Pool) (m : AsmChain) (ch : Chain) (s : State) : State :=
  { s with pool := p, asm := s.asm.set c m, chains := s.chains.set c ch }

theorem State.atChain_same (c : ChainId) (s : State) :
    s.atChain c s.pool (s.asm.get c) (s.chains.get c) = s := by
  unfold State.atChain
  rw [Four.set_get, Four.set_get]

section AtChain
variable (c : ChainId) (p : Pool) (m : AsmChain) (ch : Chain) (s : State)

@[simp] theorem State.atChain_pool : (s.atChain c p m ch).pool = p := rfl
@[simp] theorem State.atChain_asm : (s.atChain c p m ch).asm = s.asm.set c m := rfl
@[simp] theorem State.atChain_chains : (s.atChain c p m ch).chains = s.chains.set c ch := rfl
@[simp] theorem State.atChain_ref : (s.atChain c p m ch).ref = s.ref := rfl
@[simp] theorem State.atChain_intake : (s.atChain c p m ch).intake = s.intake := rfl
@[simp] theorem State.atChain_stills : (s.atChain c p m ch).stills = s.stills := rfl
@[simp] theorem State.atChain_scene : (s.atChain c p m ch).scene = s.scene := rfl
@[simp] theorem State.atChain_tally : (s.atChain c p m ch).tally = s.tally := rfl
@[simp] theorem State.atChain_cues : (s.atChain c p m ch).cues = s.cues := rfl
@[simp] theorem State.atChain_link : (s.atChain c p m ch).link = s.link := rfl
@[simp] theorem State.atChain_mail : (s.atChain c p m ch).mail = s.mail := rfl

theorem State.atChain_asm_same : (s.atChain c p m ch).asm.get c = m := by simp
theorem State.atChain_chain_same : (s.atChain c p m ch).chains.get c = ch := by simp

@[simp] theorem State.atChain_atChain (p' : Pool) (m' : AsmChain) (ch' : Chain) :
    (s.atChain c p m ch).atChain c p' m' ch' = s.atChain c p' m' ch' := by
  simp [State.atChain]

theorem State.atChain_eq_setAsm : s.atChain c s.pool m (s.chains.get c) = s.setAsm c m := by
  simp [State.atChain, State.setAsm]

/-! ### The small steps -/

@[simp] theorem State.updAsm_atChain (f : AsmChain → AsmChain) :
    (s.atChain c p m ch).updAsm c f = s.atChain c p (f m) ch := by
  simp [State.atChain, State.updAsm]

@[simp] theorem State.updBundle_atChain (f : Bundle → Bundle) :
    (s.atChain c p m ch).updBundle c f = s.atChain c p { m with bundle := m.bundle.map f } ch := by
  simp [State.updBundle]

@[simp] theorem State.countAsm_atChain (k : AsmCtr) :
    (s.atChain c p m ch).countAsm k c = s.atChain c p { m with counters := m.counters.bump k } ch := by
  simp [State.countAsm, AsmChain.count]

@[simp] theorem State.toFree_atChain (b : Nat) :
    (s.atChain c p m ch).toFree b = s.atChain c (p.release b) m ch := by
  simp [State.toFree, State.atChain]

@[simp] theorem State.giveUp_atChain (k : AsmCtr) (b : Nat) :
    (s.atChain c p m ch).giveUp k c b = s.atChain c (p.release b) { m with counters := m.counters.bump k } ch := by
  simp [State.giveUp]

@[simp] theorem State.updTile_atChain (a : Nat) (f : TileSettings → TileSettings) :
    (s.atChain c p m ch).updTile c a f = s.atChain c p m (ch.updateTile a f) := by
  simp [State.updTile, State.atChain]

theorem State.countLate_atChain (a : Nat) :
    (s.atChain c p m ch).countLate c a =
      s.atChain c p m (ch.updateTile a fun t => { t with lateCount := bump16 t.lateCount }) := by
  simp [State.countLate]

theorem State.orderTaken_atChain (n : Word16) :
    (s.atChain c p m ch).orderTaken c n = s.atChain c p m { ch with probes := markOrdered n ch.probes } := by
  simp [State.orderTaken, State.atChain]

theorem State.bundleLeaving_atChain :
    (s.atChain c p m ch).bundleLeaving c = (m.bundle.isSome || ch.probes.any fun x => x.ordered) := by
  simp [State.bundleLeaving]

end AtChain

/-! ### Buffers given back -/

/-- Free-list entries that no segment reserves. -/
def freeTail (bs : List Nat) : List FreeBuf := bs.map fun b => { buffer := b, reservedBy := none }

/-- Buffers at the tail of the free list, in order. -/
def Pool.freed (bs : List Nat) (p : Pool) : Pool := { p with free := p.free ++ freeTail bs }

theorem mem_freeTail {b : Nat} {bs : List Nat} (h : b ∈ bs) : ({ buffer := b, reservedBy := none } : FreeBuf) ∈ freeTail bs :=
  List.mem_map_of_mem h

@[simp] theorem freeTail_nil : freeTail [] = [] := rfl
@[simp] theorem freeTail_append (xs ys : List Nat) : freeTail (xs ++ ys) = freeTail xs ++ freeTail ys := List.map_append

@[simp] theorem Pool.freed_nil (p : Pool) : p.freed [] = p :=
  congrArg (fun l => ({ p with free := l } : Pool)) (List.append_nil p.free)

@[simp] theorem Pool.freed_freed (xs ys : List Nat) (p : Pool) : (p.freed xs).freed ys = p.freed (xs ++ ys) := by
  simp [Pool.freed]

theorem Pool.release_freed (b : Nat) (bs : List Nat) (p : Pool) : (p.release b).freed bs = p.freed (b :: bs) := by
  simp [Pool.freed, Pool.release, freeTail]

section GiveBack
variable (c : ChainId) (p : Pool) (m : AsmChain) (ch : Chain) (s : State)

theorem State.foldl_giveUp_atChain (k : AsmCtr) (bs : List Nat) :
    bs.foldl (State.giveUp k c) (s.atChain c p m ch) =
      s.atChain c (p.freed bs) { m with counters := (AsmCounters.bump k)^[bs.length] m.counters } ch := by
  rw [State.foldl_giveUp]
  simp [State.atChain, State.setPool, State.setAsm, Pool.freed, freeTail]

theorem AsmCounters.bump_withdrawn_iterate (k : Nat) (x : AsmCounters) :
    (AsmCounters.bump .withdrawn)^[k] x = { x with withdrawn := bump16By k x.withdrawn } := by
  induction k generalizing x with
  | zero => rfl
  | succ k ih => rw [Function.iterate_succ_apply, ih]; rfl

/-- The buffers a chain gives back: those of its entries, then the held ones (R104, R105). -/
def AsmChain.buffersFrom (m : AsmChain) (n : Word16) : List Nat :=
  (m.slotsFrom n).map (fun x => x.buffer) ++ m.heldList.map fun x => x.2

/-- A chain's share with nothing left in it. -/
def AsmChain.emptied (n : Word16) (m : AsmChain) : AsmChain :=
  { m with slots := [], held := List.replicate 30 none,
           counters := { m.counters with returned := bump16By (m.buffersFrom n).length m.counters.returned } }

theorem State.giveBack_atChain (n : Word16) :
    (s.atChain c p m ch).giveBack c n = s.atChain c (p.freed (m.buffersFrom n)) (m.emptied n) ch := by
  rw [State.giveBack_eq]
  simp [State.atChain, State.setPool, State.setAsm, Pool.freed, freeTail, AsmChain.emptied, AsmChain.buffersFrom]

end GiveBack

/-! ### Held references -/

theorem AsmChain.heldAt_replicate {m : AsmChain} (h : m.held = List.replicate 30 none) (a : Nat) : m.heldAt a = none := by
  rw [AsmChain.heldAt, h, List.getD_eq_getElem?_getD, List.getElem?_replicate]
  split <;> rfl

theorem AsmChain.emptied_heldAt (n : Word16) (m : AsmChain) (a : Nat) : (m.emptied n).heldAt a = none :=
  AsmChain.heldAt_replicate (by exact rfl) a

theorem AsmChain.heldList_of_none {m : AsmChain} (h : ∀ a, m.heldAt a = none) : m.heldList = [] := by
  simp [AsmChain.heldList, h]

theorem AsmChain.heldList_buffers (m : AsmChain) :
    m.heldList.map (fun x => x.2) = (List.range 30).filterMap fun k => m.heldAt (k + 1) := by
  simp [AsmChain.heldList, addresses, List.map_filterMap, List.filterMap_map, Function.comp_def]

theorem AsmChain.mem_heldList {m : AsmChain} {x : Nat × Nat} (h : x ∈ m.heldList) : m.heldAt x.1 = some x.2 := by
  obtain ⟨a, -, ha⟩ := List.mem_filterMap.1 h
  obtain ⟨b, hb, rfl⟩ := Option.map_eq_some_iff.1 ha
  exact hb

theorem AsmChain.mem_heldList_of_heldAt {m : AsmChain} {a b : Nat} (hlo : 1 ≤ a) (hhi : a ≤ 30) (h : m.heldAt a = some b) :
    (a, b) ∈ m.heldList :=
  List.mem_filterMap.2 ⟨a, List.mem_map.2 ⟨a - 1, List.mem_range.2 (by omega), by omega⟩, by rw [h]; rfl⟩

/-! ### The steps of an order (R91) -/

theorem AsmChain.takePost_eq (m : AsmChain) :
    m.takePost = { m with posts := m.posts.tail, lastPost := m.posts.headD m.lastPost } := by
  obtain ⟨slots, held, posts, last, bundle, waiting, due, counters⟩ := m
  cases posts <;> rfl

section DropCut
variable {c : ChainId} {s : State}

/-- One held reference looked at: released when its record is CUT. -/
def State.dropIfCut (c : ChainId) (s : State) (x : Nat × Nat) : State :=
  match (s.chains.get c).node x.1 with
  | some n => if n.state = .cut then (s.toFree x.2).updAsm c fun m => m.setHeld x.1 none else s
  | none => s

theorem State.dropCut_eq (c : ChainId) (s : State) :
    s.dropCut c = (s.asm.get c).heldList.foldl (State.dropIfCut c) s := rfl

theorem State.dropIfCut_of_cut {p : Pool} {m : AsmChain} {ch : Chain} {x : Nat × Nat} {n : Node}
    (hn : ch.node x.1 = some n) (h : n.state = .cut) :
    (s.atChain c p m ch).dropIfCut c x = s.atChain c (p.release x.2) (m.setHeld x.1 none) ch := by
  rw [State.dropIfCut, State.atChain_chain_same, hn]
  dsimp only
  rw [if_pos h, State.toFree_atChain, State.updAsm_atChain]

theorem State.dropIfCut_of_not_cut {p : Pool} {m : AsmChain} {ch : Chain} {x : Nat × Nat}
    (h : ∀ n, ch.node x.1 = some n → n.state ≠ .cut) :
    (s.atChain c p m ch).dropIfCut c x = s.atChain c p m ch := by
  rw [State.dropIfCut, State.atChain_chain_same]
  cases hn : ch.node x.1 with
  | none => rfl
  | some n => exact if_neg (h n hn)

/-- The release of CUT records' buffers touches the free list and the held references only. -/
theorem State.dropCut_frees (p : Pool) (m : AsmChain) (ch : Chain) :
    ∃ bs held, (s.atChain c p m ch).dropCut c = s.atChain c (p.freed bs) { m with held := held } ch := by
  rw [State.dropCut_eq, State.atChain_asm_same]
  generalize m.heldList = l
  induction l generalizing p m with
  | nil => exact ⟨[], m.held, by simp⟩
  | cons x rest ih =>
      rw [List.foldl_cons]
      by_cases hcut : ∃ n, ch.node x.1 = some n ∧ n.state = .cut
      · obtain ⟨n, hn, hcut⟩ := hcut
        obtain ⟨bs, held, h⟩ := ih (p.release x.2) (m.setHeld x.1 none)
        refine ⟨x.2 :: bs, held, ?_⟩
        rw [State.dropIfCut_of_cut hn hcut, h, Pool.release_freed]
        rfl
      · rw [State.dropIfCut_of_not_cut fun n hn hc => hcut ⟨n, hn, hc⟩]
        exact ih p m

/-- No CUT record holds a buffer: nothing is released. -/
theorem State.dropCut_of_no_cut {p : Pool} {m : AsmChain} {ch : Chain}
    (h : ∀ a n, ch.node a = some n → n.state = .cut → m.heldAt a = none) :
    (s.atChain c p m ch).dropCut c = s.atChain c p m ch := by
  rw [State.dropCut_eq, State.atChain_asm_same]
  have held : ∀ x ∈ m.heldList, m.heldAt x.1 = some x.2 := fun x hx => AsmChain.mem_heldList hx
  generalize m.heldList = l at held
  induction l with
  | nil => rfl
  | cons x rest ih =>
      have kept : (s.atChain c p m ch).dropIfCut c x = s.atChain c p m ch :=
        State.dropIfCut_of_not_cut fun n hn hcut => by
          have hx := held x List.mem_cons_self
          rw [h x.1 n hn hcut] at hx
          cases hx
      rw [List.foldl_cons, kept]
      exact ih fun y hy => held y (List.mem_cons_of_mem _ hy)

theorem State.dropCut_of_no_held {p : Pool} {m : AsmChain} {ch : Chain} (h : ∀ a, m.heldAt a = none) :
    (s.atChain c p m ch).dropCut c = s.atChain c p m ch :=
  State.dropCut_of_no_cut fun a _ _ _ => h a

end DropCut

/-! ### The sweep (R93) -/

/-- The counters after entries were swept. -/
def AsmCounters.swept (k : Bool) (n : Word16) (xs : List FrameSlot) (x : AsmCounters) : AsmCounters :=
  { x with
    withdrawn := bump16By (xs.countP fun y => decide (sweepCase k n y.frame = .withdrawn)) x.withdrawn,
    expiredEarly := bump16By (xs.countP fun y => decide (sweepCase k n y.frame = .early)) x.expiredEarly,
    expiredLate := bump16By (xs.countP fun y => decide (sweepCase k n y.frame = .late)) x.expiredLate }

/-- Late entries counted at their tiles. -/
def Chain.lateAt (xs : List FrameSlot) (ch : Chain) : Chain :=
  xs.foldl (fun ch x => ch.updateTile x.address fun t => { t with lateCount := bump16 t.lateCount }) ch

/-- The entries a sweep releases. -/
def sweptOut (k : Bool) (n : Word16) (xs : List FrameSlot) : List FrameSlot :=
  xs.filter fun x => decide (sweepCase k n x.frame ≠ .kept)

/-- The entries a sweep releases as late. -/
def sweptLate (k : Bool) (n : Word16) (xs : List FrameSlot) : List FrameSlot :=
  xs.filter fun x => decide (sweepCase k n x.frame = .late)

theorem AsmCounters.swept_swept (k : Bool) (n : Word16) (xs ys : List FrameSlot) (x : AsmCounters) :
    (x.swept k n xs).swept k n ys = x.swept k n (xs ++ ys) := by
  simp [AsmCounters.swept, bump16By, List.countP_append, ← Function.iterate_add_apply, Nat.add_comm]

theorem Chain.lateAt_append (xs ys : List FrameSlot) (ch : Chain) : ch.lateAt (xs ++ ys) = (ch.lateAt xs).lateAt ys :=
  List.foldl_append

/-- One entry swept. -/
def State.sweepOne (c : ChainId) (k : Bool) (n : Word16) (s : State) (x : FrameSlot) : State :=
  match sweepCase k n x.frame with
  | .kept => s
  | .withdrawn => s.giveUp .withdrawn c x.buffer
  | .early => s.giveUp .expiredEarly c x.buffer
  | .late => (s.giveUp .expiredLate c x.buffer).countLate c x.address

theorem State.foldl_sweepOne (c : ChainId) (k : Bool) (n : Word16) (xs : List FrameSlot) (p : Pool) (m : AsmChain)
    (ch : Chain) (s : State) :
    xs.foldl (State.sweepOne c k n) (s.atChain c p m ch) =
      s.atChain c (p.freed ((sweptOut k n xs).map fun x => x.buffer))
        { m with counters := m.counters.swept k n xs } (ch.lateAt (sweptLate k n xs)) := by
  induction xs generalizing p m ch with
  | nil => simp [sweptOut, sweptLate, Chain.lateAt, AsmCounters.swept, bump16By]
  | cons x rest ih =>
      have one : (s.atChain c p m ch).sweepOne c k n x =
          s.atChain c (p.freed ((sweptOut k n [x]).map fun x => x.buffer))
            { m with counters := m.counters.swept k n [x] } (ch.lateAt (sweptLate k n [x])) := by
        rw [State.sweepOne]
        cases hx : sweepCase k n x.frame with
        | kept => simp [sweptOut, sweptLate, AsmCounters.swept, Chain.lateAt, bump16By, hx]
        | withdrawn =>
            simp [sweptOut, sweptLate, AsmCounters.swept, AsmCounters.bump, Chain.lateAt, bump16By, ← Pool.release_freed, hx]
        | early =>
            simp [sweptOut, sweptLate, AsmCounters.swept, AsmCounters.bump, Chain.lateAt, bump16By, ← Pool.release_freed, hx]
        | late =>
            simp [sweptOut, sweptLate, AsmCounters.swept, AsmCounters.bump, Chain.lateAt, bump16By, ← Pool.release_freed,
              State.countLate_atChain, hx]
      rw [List.foldl_cons, one, ih, Pool.freed_freed, ← List.map_append, ← Chain.lateAt_append, AsmCounters.swept_swept]
      simp [sweptOut, sweptLate, ← List.filter_append]

/-- A chain's share after the sweep. -/
def AsmChain.swept (k : Bool) (n : Word16) (m : AsmChain) : AsmChain :=
  { m with slots := m.slots.filter fun x => decide (sweepCase k n x.frame = .kept),
           counters := m.counters.swept k n (m.slotsFrom n) }

theorem State.sweep_eq (c : ChainId) (k : Bool) (n : Word16) (s : State) :
    s.sweep c k n =
      (((s.asm.get c).slotsFrom n).foldl (State.sweepOne c k n) s).updAsm c fun m =>
        { m with slots := m.slots.filter fun x => decide (sweepCase k n x.frame = .kept) } := rfl

theorem State.sweep_atChain (c : ChainId) (k : Bool) (n : Word16) (p : Pool) (m : AsmChain) (ch : Chain) (s : State) :
    (s.atChain c p m ch).sweep c k n =
      s.atChain c (p.freed ((sweptOut k n (m.slotsFrom n)).map fun x => x.buffer)) (m.swept k n)
        (ch.lateAt (sweptLate k n (m.slotsFrom n))) := by
  rw [State.sweep_eq, State.atChain_asm_same, State.foldl_sweepOne, State.updAsm_atChain]
  rfl

theorem AsmChain.slotsFrom_of_nil {m : AsmChain} (h : m.slots = []) (n : Word16) : m.slotsFrom n = [] := by
  rw [AsmChain.slotsFrom, h]
  rfl

theorem AsmChain.swept_of_nil {m : AsmChain} (h : m.slots = []) (k : Bool) (n : Word16) : m.swept k n = m := by
  rw [AsmChain.swept, AsmChain.slotsFrom_of_nil h, h]
  obtain ⟨slots, held, posts, last, bundle, waiting, due, counters⟩ := m
  obtain rfl : slots = [] := h
  rfl

theorem State.sweep_of_nil {c : ChainId} {p : Pool} {m : AsmChain} {ch : Chain} {s : State} (h : m.slots = []) (k : Bool)
    (n : Word16) : (s.atChain c p m ch).sweep c k n = s.atChain c p m ch := by
  rw [State.sweep_atChain, AsmChain.swept_of_nil h, AsmChain.slotsFrom_of_nil h]
  exact congrArg (fun p => s.atChain c p m ch) (Pool.freed_nil p)

end Sys2Proof.Machine
end

section
/-! The Frame Assembler on one chain, continued: blocks and bundles (R95 to R101), the share of a FLOW_CLEAR (R104), and the
order as a whole (R91). -/

namespace Sys2Proof.Machine

/-! ### Tile fields -/

theorem Chain.updateTile_of_tile {ch : Chain} {a : Nat} {n : Node} {t : TileSettings} (hn : ch.node a = some n)
    (hk : n.kind = .tile t) (f : TileSettings → TileSettings) :
    ch.updateTile a f = ch.setNode a (some { n with kind := .tile (f t) }) := by
  rw [Chain.updateTile, hn]
  dsimp only
  rw [hk]

theorem Chain.updateTile_of_lamp {ch : Chain} {a : Nat} {n : Node} (hn : ch.node a = some n) (hk : n.kind = .lamp)
    (f : TileSettings → TileSettings) : ch.updateTile a f = ch := by
  rw [Chain.updateTile, hn]
  dsimp only
  rw [hk]

theorem Chain.updateTile_of_absent {ch : Chain} {a : Nat} (hn : ch.node a = none) (f : TileSettings → TileSettings) :
    ch.updateTile a f = ch := by
  rw [Chain.updateTile, hn]

/-- A change to tile fields writes the table of nodes only. -/
theorem Chain.updateTile_nodes (ch : Chain) (a : Nat) (f : TileSettings → TileSettings) :
    ∃ nodes, nodes.length = ch.nodes.length ∧ ch.updateTile a f = { ch with nodes := nodes } := by
  cases hn : ch.node a with
  | none => exact ⟨ch.nodes, rfl, Chain.updateTile_of_absent hn f⟩
  | some n =>
      cases hk : n.kind with
      | lamp => exact ⟨ch.nodes, rfl, Chain.updateTile_of_lamp hn hk f⟩
      | tile t => exact ⟨_, List.length_set, Chain.updateTile_of_tile hn hk f⟩

theorem Chain.updateTile_probes (ch : Chain) (a : Nat) (f : TileSettings → TileSettings) :
    (ch.updateTile a f).probes = ch.probes := by
  obtain ⟨nodes, -, h⟩ := Chain.updateTile_nodes ch a f
  rw [h]

theorem Chain.lateAt_probes (xs : List FrameSlot) (ch : Chain) : (ch.lateAt xs).probes = ch.probes := by
  induction xs generalizing ch with
  | nil => rfl
  | cons x rest ih => exact (ih _).trans (Chain.updateTile_probes ch _ _)

/-! ### Reads asked for a tile's block (R97, R100, R101) -/

section Jobs
variable {c : ChainId} (p : Pool) (m : AsmChain) (ch : Chain) (s : State)

theorem State.putOut_atChain (x : Block) :
    (s.atChain c p m ch).putOut c x =
      s.atChain c p { m with bundle := m.bundle.map fun b => { b with out := b.out ++ [x] } } ch := by
  simp [State.putOut]

theorem State.askRead_atChain (t : TileTurn) (b : Nat) (why : ReadWhy) :
    (s.atChain c p m ch).askRead c t b why =
      (s.atChain c (p.requestRead c b) m ch, some (.memRead t.address t.brightness t.gap t.fallback b why)) := rfl

variable {p m ch s}

theorem State.askHeld_of_none {t : TileTurn} (h : m.heldAt t.address = none) (why : ReadWhy) :
    (s.atChain c p m ch).askHeld c t why = (s.atChain c p m ch, none) := by
  rw [State.askHeld, State.atChain_asm_same, h]

theorem State.askHeld_of_held {t : TileTurn} {b : Nat} (h : m.heldAt t.address = some b) (why : ReadWhy) :
    (s.atChain c p m ch).askHeld c t why =
      (s.atChain c (p.requestRead c b) m ch, some (.memRead t.address t.brightness t.gap t.fallback b why)) := by
  rw [State.askHeld, State.atChain_asm_same, h]
  rfl

/-- One more gap of the chain. -/
def AsmChain.gap (m : AsmChain) : AsmChain := { m with counters := { m.counters with gaps := bump16 m.counters.gaps } }

/-- One more gap of a tile (R100). -/
def Chain.gapAt (a : Nat) (ch : Chain) : Chain := ch.updateTile a fun x => { x with gapCount := bump16 x.gapCount }

theorem State.gapCounted (t : TileTurn) :
    ((s.atChain c p m ch).updTile c t.address fun x => { x with gapCount := bump16 x.gapCount }).countAsm .gaps c =
      s.atChain c p m.gap (ch.gapAt t.address) := by
  rw [State.updTile_atChain, State.countAsm_atChain]
  rfl

theorem State.fillGap_of_black {t : TileTurn} (h : t.gap = .black) :
    (s.atChain c p m ch).fillGap c t = (s.atChain c p m.gap (ch.gapAt t.address), none) := by
  rw [State.fillGap, State.gapCounted, h]

theorem State.fillGap_of_repeat {t : TileTurn} (h : t.gap = .repeatHeld) :
    (s.atChain c p m ch).fillGap c t = (s.atChain c p m.gap (ch.gapAt t.address)).askHeld c t .gapHeld := by
  rw [State.fillGap, State.gapCounted, h]

theorem State.fillGap_of_still {t : TileTurn} {page : Nat} (h : t.gap = .still) (hf : t.fallback = some page) :
    (s.atChain c p m ch).fillGap c t =
      (s.atChain c p m.gap (ch.gapAt t.address), some (.stillAsk t.address t.brightness page true)) := by
  rw [State.fillGap, State.gapCounted, h, hf]

theorem State.fillGap_of_no_still {t : TileTurn} (h : t.gap = .still) (hf : t.fallback = none) :
    (s.atChain c p m ch).fillGap c t = (s.atChain c p m.gap (ch.gapAt t.address)).askHeld c t .gapHeld := by
  rw [State.fillGap, State.gapCounted, h, hf]

/-- A chain's share with a tile's segment superseded (R98). -/
def AsmChain.superseded (a : Nat) (m : AsmChain) : AsmChain :=
  { m with counters := { m.counters with superseded := bump16 m.counters.superseded },
           bundle := m.bundle.map (Bundle.dropSegment a) }

theorem State.supersede_of_segment {b : Bundle} {a buffer : Nat} (hb : m.bundle = some b)
    (h : b.segmentOf a = some buffer) :
    (s.atChain c p m ch).supersede c a = s.atChain c (p.release buffer) (m.superseded a) ch := by
  rw [State.supersede, State.atChain_asm_same, hb, Option.bind_some, h]
  dsimp only
  rw [State.giveUp_atChain, State.updBundle_atChain]
  rfl

theorem State.supersede_of_no_segment {b : Bundle} {a : Nat} (hb : m.bundle = some b) (h : b.segmentOf a = none) :
    (s.atChain c p m ch).supersede c a = s.atChain c p m ch := by
  rw [State.supersede, State.atChain_asm_same, hb, Option.bind_some, h]

theorem State.tileTurn_of_segment {b : Bundle} {t : TileTurn} {buffer : Nat} (hb : m.bundle = some b)
    (h : b.segmentOf t.address = some buffer) :
    (s.atChain c p m ch).tileTurn c t .liveFeed =
      (s.atChain c (p.requestRead c buffer) m ch,
        some (.memRead t.address t.brightness t.gap t.fallback buffer .segment)) := by
  rw [State.tileTurn, State.atChain_asm_same, hb, Option.bind_some, h]
  rfl

theorem State.tileTurn_of_gap {b : Bundle} {t : TileTurn} (hb : m.bundle = some b) (h : b.segmentOf t.address = none) :
    (s.atChain c p m ch).tileTurn c t .liveFeed = (s.atChain c p m ch).fillGap c t := by
  rw [State.tileTurn, State.atChain_asm_same, hb, Option.bind_some, h]

variable (s)

theorem State.tileTurn_still (t : TileTurn) (page : Nat) :
    s.tileTurn c t (.still page) = (s.supersede c t.address, some (.stillAsk t.address t.brightness page false)) := rfl

theorem State.tileTurn_freeze (t : TileTurn) :
    s.tileTurn c t .freeze = (s.supersede c t.address).askHeld c t .freeze := rfl

theorem State.tileTurn_black (t : TileTurn) : s.tileTurn c t .black = (s.supersede c t.address, none) := rfl

/-! ### Blocks one behind another (R95) -/

variable {s}

theorem State.runJobs_nil :
    (s.atChain c p m ch).runJobs c [] =
      s.atChain c p { m with bundle := m.bundle.map fun b => { b with jobs := [], wait := .token } } ch := by
  rw [State.runJobs, State.updBundle_atChain]

theorem State.runJobs_fixed (x : Block) (js : List Job) :
    (s.atChain c p m ch).runJobs c (.fixed x :: js) =
      (s.atChain c p { m with bundle := m.bundle.map fun b => { b with out := b.out ++ [x] } } ch).runJobs c js := by
  rw [State.runJobs, State.putOut_atChain]

theorem State.runJobs_of_wait {a brightness : Nat} {src : TileSource} {gap : GapPolicy} {fallback : Option Nat}
    {js : List Job} {t : State} {w : BundleWait}
    (h : s.tileTurn c { address := a, brightness := brightness, gap := gap, fallback := fallback } src = (t, some w)) :
    s.runJobs c (.tile a src brightness gap fallback :: js) = t.updBundle c fun b => { b with jobs := js, wait := w } := by
  rw [State.runJobs, h]

theorem State.runJobs_of_black {a brightness : Nat} {src : TileSource} {gap : GapPolicy} {fallback : Option Nat}
    {js : List Job} {t : State}
    (h : s.tileTurn c { address := a, brightness := brightness, gap := gap, fallback := fallback } src = (t, none)) :
    s.runJobs c (.tile a src brightness gap fallback :: js) = (t.putOut c (.tileBlack brightness)).runJobs c js := by
  rw [State.runJobs, h]

/-- Blocks that wait for nothing go out in order. -/
theorem State.runJobs_fixed_append {b : Bundle} (hb : m.bundle = some b) (xs : List Block) (js : List Job) :
    (s.atChain c p m ch).runJobs c (xs.map .fixed ++ js) =
      (s.atChain c p { m with bundle := some { b with out := b.out ++ xs } } ch).runJobs c js := by
  induction xs generalizing m b with
  | nil =>
      rw [List.append_nil]
      exact congrArg (fun x => (s.atChain c p { m with bundle := x } ch).runJobs c js) hb
  | cons x rest ih =>
      rw [List.map_cons, List.cons_append, State.runJobs_fixed, hb, Option.map_some,
        ih (m := { m with bundle := _ }) rfl, List.append_assoc]
      rfl

/-! ### What blocks never touch -/

/-- A tile's turn changes its chain only, and keeps the chain's probe bundles. -/
theorem State.tileTurn_local {b : Bundle} (hb : m.bundle = some b) (t : TileTurn) (src : TileSource) :
    ∃ p' m' ch' w, (s.atChain c p m ch).tileTurn c t src = (s.atChain c p' m' ch', w) ∧ ch'.probes = ch.probes ∧
      ∃ b', m'.bundle = some b' := by
  have held : ∀ (p : Pool) (m : AsmChain) (ch : Chain) (why : ReadWhy) (b : Bundle), m.bundle = some b →
      ∃ p' m' ch' w, (s.atChain c p m ch).askHeld c t why = (s.atChain c p' m' ch', w) ∧ ch'.probes = ch.probes ∧
        ∃ b', m'.bundle = some b' := by
    intro p m ch why b hb
    cases hh : m.heldAt t.address with
    | none => exact ⟨p, m, ch, none, State.askHeld_of_none hh why, rfl, b, hb⟩
    | some x => exact ⟨_, m, ch, _, State.askHeld_of_held hh why, rfl, b, hb⟩
  have gone : ∃ p' m', (s.atChain c p m ch).supersede c t.address = s.atChain c p' m' ch ∧ ∃ b', m'.bundle = some b' := by
    cases hx : b.segmentOf t.address with
    | none => exact ⟨p, m, State.supersede_of_no_segment hb hx, b, hb⟩
    | some x =>
        exact ⟨_, _, State.supersede_of_segment hb hx, b.dropSegment t.address, congrArg (Option.map _) hb⟩
  have gapProbes : (ch.gapAt t.address).probes = ch.probes := Chain.updateTile_probes _ _ _
  cases src with
  | liveFeed =>
      cases hx : b.segmentOf t.address with
      | some x => exact ⟨_, m, ch, _, State.tileTurn_of_segment hb hx, rfl, b, hb⟩
      | none =>
          rw [State.tileTurn_of_gap hb hx]
          cases hg : t.gap with
          | black => exact ⟨p, _, _, none, State.fillGap_of_black hg, gapProbes, b, hb⟩
          | repeatHeld =>
              rw [State.fillGap_of_repeat hg, ← gapProbes]
              exact held p m.gap _ .gapHeld b hb
          | still =>
              cases hf : t.fallback with
              | some page => exact ⟨p, _, _, _, State.fillGap_of_still hg hf, gapProbes, b, hb⟩
              | none =>
                  rw [State.fillGap_of_no_still hg hf, ← gapProbes]
                  exact held p m.gap _ .gapHeld b hb
  | still page =>
      obtain ⟨p', m', h, hb'⟩ := gone
      exact ⟨p', m', ch, _, by rw [State.tileTurn_still, h], rfl, hb'⟩
  | freeze =>
      obtain ⟨p', m', h, b', hb'⟩ := gone
      rw [State.tileTurn_freeze, h]
      exact held p' m' ch .freeze b' hb'
  | black =>
      obtain ⟨p', m', h, hb'⟩ := gone
      exact ⟨p', m', ch, none, by rw [State.tileTurn_black, h], rfl, hb'⟩

/-- Blocks change their chain only, and keep its probe bundles. -/
theorem State.runJobs_local (js : List Job) {b : Bundle} (hb : m.bundle = some b) :
    ∃ p' m' ch', (s.atChain c p m ch).runJobs c js = s.atChain c p' m' ch' ∧ ch'.probes = ch.probes := by
  induction js generalizing p m ch b with
  | nil => exact ⟨p, _, ch, State.runJobs_nil, rfl⟩
  | cons j rest ih =>
      cases j with
      | fixed x =>
          rw [State.runJobs_fixed]
          exact ih (m := { m with bundle := _ }) (congrArg (Option.map _) hb)
      | tile a src brightness gap fallback =>
          obtain ⟨p', m', ch', w, h, hprobes, b', hb'⟩ :=
            State.tileTurn_local (c := c) (p := p) (ch := ch) (s := s) hb
              { address := a, brightness := brightness, gap := gap, fallback := fallback } src
          cases w with
          | some w => exact ⟨p', _, ch', (State.runJobs_of_wait h).trans (State.updBundle_atChain ..), hprobes⟩
          | none =>
              rw [State.runJobs_of_black h, State.putOut_atChain, ← hprobes]
              exact ih (m := { m' with bundle := _ }) (congrArg (Option.map _) hb')

/-- With no segment and no held buffer, blocks take nothing from the pool and leave the emitting set empty. -/
theorem State.runJobs_of_no_buffer (js : List Job) {b : Bundle} (hb : m.bundle = some b) (hempty : b.emitting = [])
    (hheld : ∀ a, m.heldAt a = none) :
    ∃ b' gaps ch', (s.atChain c p m ch).runJobs c js =
      s.atChain c p { m with bundle := some b', counters := { m.counters with gaps := gaps } } ch' ∧
        b'.emitting = [] := by
  induction js generalizing m ch b with
  | nil => exact ⟨{ b with jobs := [], wait := .token }, m.counters.gaps, ch, State.runJobs_nil.trans (by rw [hb]; rfl), hempty⟩
  | cons j rest ih =>
      cases j with
      | fixed x =>
          rw [State.runJobs_fixed, hb]
          exact ih (m := { m with bundle := some { b with out := b.out ++ [x] } }) rfl hempty hheld
      | tile a src brightness gap fallback =>
          have noSegment : b.segmentOf a = none := by rw [Bundle.segmentOf, hempty]; rfl
          have turn : ∃ gaps ch' w, (s.atChain c p m ch).tileTurn c
              { address := a, brightness := brightness, gap := gap, fallback := fallback } src =
                (s.atChain c p { m with counters := { m.counters with gaps := gaps } } ch', w) := by
            have gone := State.supersede_of_no_segment (c := c) (p := p) (ch := ch) (s := s) hb noSegment
            cases src with
            | liveFeed =>
                rw [State.tileTurn_of_gap hb noSegment]
                cases gap with
                | black => exact ⟨_, _, _, State.fillGap_of_black rfl⟩
                | repeatHeld =>
                    exact ⟨_, _, _, (State.fillGap_of_repeat rfl).trans (State.askHeld_of_none (by exact hheld a) _)⟩
                | still =>
                    cases fallback with
                    | some page => exact ⟨_, _, _, State.fillGap_of_still rfl rfl⟩
                    | none =>
                        exact ⟨_, _, _, (State.fillGap_of_no_still rfl rfl).trans (State.askHeld_of_none (by exact hheld a) _)⟩
            | still page => exact ⟨m.counters.gaps, ch, _, by rw [State.tileTurn_still, gone]⟩
            | freeze =>
                exact ⟨m.counters.gaps, ch, _, by rw [State.tileTurn_freeze, gone, State.askHeld_of_none (hheld a)]⟩
            | black => exact ⟨m.counters.gaps, ch, _, by rw [State.tileTurn_black, gone]⟩
          obtain ⟨gaps, ch', w, h⟩ := turn
          cases w with
          | some w =>
              refine ⟨{ b with jobs := rest, wait := w }, gaps, ch', (State.runJobs_of_wait h).trans ?_, hempty⟩
              rw [State.updBundle_atChain, hb]
              rfl
          | none =>
              rw [State.runJobs_of_black h, State.putOut_atChain, hb]
              exact ih (m := { m with bundle := some { b with out := b.out ++ [.tileBlack brightness] }, counters := _ }) rfl hempty hheld

end Jobs

end Sys2Proof.Machine
end

section
/-! The Frame Assembler on one chain, continued: a bundle's start (R92, R95), the share of a FLOW_CLEAR (R104) and the order
as a whole (R91). Then O29 and O32. -/

namespace Sys2Proof.Machine

/-! ### A bundle starts (R92, R95) -/

/-- The entries of an order's own frame, in the order of their addresses. -/
def AsmChain.entriesOf (m : AsmChain) (n : Word16) : List FrameSlot :=
  (m.slotsFrom n).filter fun x => decide (x.frame = n)

/-- The entries of an order's frame that join its bundle. -/
def AsmChain.joining (m : AsmChain) (ch : Chain) (info : BundleInfo) : List FrameSlot :=
  (m.entriesOf info.frame).filter fun x => ch.takesSegment info.path x.address

/-- The entries of an order's frame that are withdrawn. -/
def AsmChain.withdrawing (m : AsmChain) (ch : Chain) (info : BundleInfo) : List FrameSlot :=
  (m.entriesOf info.frame).filter fun x => !ch.takesSegment info.path x.address

/-- The bundle of an order before its first block. -/
def AsmChain.newBundle (m : AsmChain) (ch : Chain) (info : BundleInfo) (cmds : List Cmd) : Bundle :=
  { info := info, gen := m.lastPost.gen, cmds := cmds,
    emitting := (m.joining ch info).map fun x => (x.address, x.buffer),
    out := [], jobs := [], wait := .token, stopping := false }

/-- A chain's share with the bundle of an order started. -/
def AsmChain.started (m : AsmChain) (ch : Chain) (info : BundleInfo) (cmds : List Cmd) : AsmChain :=
  { m with slots := m.slots.filter fun x => decide (x.frame ≠ info.frame),
           bundle := some (m.newBundle ch info cmds),
           counters := { m.counters with
             withdrawn := bump16By (m.withdrawing ch info).length m.counters.withdrawn } }

theorem State.startBundle_eq (c : ChainId) (info : BundleInfo) (cmds : List Cmd) (s : State) :
    s.startBundle c info cmds =
      ((((((s.asm.get c).withdrawing (s.chains.get c) info).map fun x => x.buffer).foldl (State.giveUp .withdrawn c)
        s).updAsm c fun m =>
          { m with slots := m.slots.filter fun x => decide (x.frame ≠ info.frame),
                   bundle := some
                     { (s.asm.get c).newBundle (s.chains.get c) info cmds with gen := m.lastPost.gen } })).runJobs c
        (info.path.map ((s.chains.get c).job
          ((((((s.asm.get c).withdrawing (s.chains.get c) info).map fun x => x.buffer).foldl (State.giveUp .withdrawn c)
            s).updAsm c fun m =>
              { m with slots := m.slots.filter fun x => decide (x.frame ≠ info.frame),
                       bundle := some
                         { (s.asm.get c).newBundle (s.chains.get c) info cmds with
                           gen := m.lastPost.gen } }).asm.get c).lastPost)) := by
  rw [List.foldl_map]
  rfl

theorem State.startBundle_atChain (c : ChainId) (info : BundleInfo) (cmds : List Cmd) (p : Pool) (m : AsmChain)
    (ch : Chain) (s : State) :
    (s.atChain c p m ch).startBundle c info cmds =
      (s.atChain c (p.freed ((m.withdrawing ch info).map fun x => x.buffer)) (m.started ch info cmds) ch).runJobs c
        (info.path.map (ch.job m.lastPost)) := by
  rw [State.startBundle_eq, State.atChain_asm_same, State.atChain_chain_same, State.foldl_giveUp_atChain,
    State.updAsm_atChain, State.atChain_asm_same, AsmCounters.bump_withdrawn_iterate, List.length_map]
  rfl

/-- The bundle of an order that no segment joins, before its first block. -/
def Bundle.opened (info : BundleInfo) (gen : BitVec 4) (cmds : List Cmd) : Bundle :=
  { info := info, gen := gen, cmds := cmds, emitting := [], out := [], jobs := [], wait := .token, stopping := false }

theorem AsmChain.started_of_nil {m : AsmChain} (h : m.slots = []) (ch : Chain) (info : BundleInfo) (cmds : List Cmd) :
    m.started ch info cmds =
      { m with bundle := some (.opened info m.lastPost.gen cmds) } := by
  have hfrom := AsmChain.slotsFrom_of_nil h info.frame
  have hjoin : m.joining ch info = [] := by rw [AsmChain.joining, AsmChain.entriesOf, hfrom]; rfl
  have hgone : m.withdrawing ch info = [] := by rw [AsmChain.withdrawing, AsmChain.entriesOf, hfrom]; rfl
  rw [AsmChain.started, AsmChain.newBundle, hjoin, hgone, h]
  obtain ⟨slots, held, posts, last, bundle, waiting, due, counters⟩ := m
  obtain rfl : slots = [] := h
  rfl

theorem State.startBundle_of_nil {c : ChainId} {p : Pool} {m : AsmChain} {ch : Chain} {s : State} (h : m.slots = [])
    (info : BundleInfo) (cmds : List Cmd) :
    (s.atChain c p m ch).startBundle c info cmds =
      (s.atChain c p { m with bundle := some (.opened info m.lastPost.gen cmds) } ch).runJobs c
        (info.path.map (ch.job m.lastPost)) := by
  have hgone : m.withdrawing ch info = [] := by
    rw [AsmChain.withdrawing, AsmChain.entriesOf, AsmChain.slotsFrom_of_nil h]; rfl
  rw [State.startBundle_atChain, AsmChain.started_of_nil h, hgone, List.map_nil, Pool.freed_nil]

/-! ### The share of a FLOW_CLEAR (R104) -/

theorem State.clearShare_of_not_due {c : ChainId} {s : State} (h : (s.asm.get c).clearDue = false) (n : Word16) :
    s.clearShare c n = s := by
  rw [State.clearShare, h]
  exact if_neg Bool.false_ne_true

/-- A chain's share after its entries and held buffers went back for a FLOW_CLEAR. -/
def AsmChain.cleared (n : Word16) (m : AsmChain) : AsmChain := { m.emptied n with clearDue := false }

/-- The reply of a FLOW_CLEAR becomes ready. -/
def State.clearReplied (s : State) : State :=
  { s with link := s.link.undefer .flowClear, intake := { s.intake with clearWaiting := false } }

theorem State.clearShare_atChain {c : ChainId} {p : Pool} {m : AsmChain} {ch : Chain} {s : State} (h : m.clearDue = true)
    (n : Word16) :
    (s.atChain c p m ch).clearShare c n =
      if (s.atChain c (p.freed (m.buffersFrom n)) (m.cleared n) ch).clearDone then
        (s.atChain c (p.freed (m.buffersFrom n)) (m.cleared n) ch).evaluatePause.clearReplied
      else s.atChain c (p.freed (m.buffersFrom n)) (m.cleared n) ch := by
  rw [State.clearShare, State.atChain_asm_same, if_pos h, State.giveBack_atChain, State.updAsm_atChain]
  rfl

theorem State.clearDone_iff (s : State) : s.clearDone = true ↔ ∀ c, (s.asm.get c).clearDue = false := by
  unfold State.clearDone Four.toList
  rw [List.all_eq_true]
  constructor
  · intro h c
    have hc : s.asm.get c ∈ [s.asm.c0, s.asm.c1, s.asm.c2, s.asm.c3] := by fin_cases c <;> simp [Four.get]
    simpa using h _ hc
  · intro h m hm
    simp only [List.mem_cons, List.not_mem_nil, or_false] at hm
    rcases hm with rfl | rfl | rfl | rfl
    · simpa [Four.get] using h 0
    · simpa [Four.get] using h 1
    · simpa [Four.get] using h 2
    · simpa [Four.get] using h 3

theorem State.clearShare_of_others {c : ChainId} {p : Pool} {m : AsmChain} {ch : Chain} {s : State}
    (h : m.clearDue = true) (hothers : ∃ d, d ≠ c ∧ (s.asm.get d).clearDue = true) (n : Word16) :
    (s.atChain c p m ch).clearShare c n = s.atChain c (p.freed (m.buffersFrom n)) (m.cleared n) ch := by
  rw [State.clearShare_atChain h]
  obtain ⟨d, hd, hdue⟩ := hothers
  refine if_neg fun hdone => ?_
  have := (State.clearDone_iff _).1 hdone d
  rw [State.atChain_asm, Four.get_set_ne _ hd, hdue] at this
  cases this

theorem State.clearShare_of_last {c : ChainId} {p : Pool} {m : AsmChain} {ch : Chain} {s : State}
    (h : m.clearDue = true) (hothers : ∀ d, d ≠ c → (s.asm.get d).clearDue = false) (n : Word16) :
    (s.atChain c p m ch).clearShare c n =
      (s.atChain c (p.freed (m.buffersFrom n)) (m.cleared n) ch).evaluatePause.clearReplied := by
  rw [State.clearShare_atChain h]
  refine if_pos ((State.clearDone_iff _).2 fun d => ?_)
  by_cases hd : d = c
  · rw [hd, State.atChain_asm_same]
    rfl
  · rw [State.atChain_asm, Four.get_set_ne _ hd]
    exact hothers d hd

/-! ### The order (R91) -/

/-- What an order does behind the share of a FLOW_CLEAR. -/
def State.carryOut (c : ChainId) (o : FrameOrder) (s : State) : State :=
  let s := if o.kind = .disable then s.giveBack c o.frame else s
  let s := s.updAsm c AsmChain.takePost
  let s := s.dropCut c
  match o.kind with
  | .assemble info cmds => (s.sweep c true o.frame).startBundle c info cmds
  | .disable => s.sweep c false o.frame
  | .none => s.sweep c false o.frame

theorem State.takeOrder_eq (c : ChainId) (o : FrameOrder) (s : State) :
    s.takeOrder c o = ((s.orderTaken c o.frame).clearShare c o.frame).carryOut c o := rfl

section CarryOut
variable {c : ChainId} {o : FrameOrder} {p : Pool} {m : AsmChain} {ch : Chain} {s : State}

theorem State.carryOut_of_assemble {info : BundleInfo} {cmds : List Cmd} (h : o.kind = .assemble info cmds) :
    (s.atChain c p m ch).carryOut c o =
      (((s.atChain c p m.takePost ch).dropCut c).sweep c true o.frame).startBundle c info cmds := by
  rw [State.carryOut, h, ← State.updAsm_atChain]
  rfl

theorem State.carryOut_of_none (h : o.kind = .none) :
    (s.atChain c p m ch).carryOut c o = ((s.atChain c p m.takePost ch).dropCut c).sweep c false o.frame := by
  rw [State.carryOut, h, ← State.updAsm_atChain]
  rfl

theorem AsmChain.takePost_slots (m : AsmChain) : m.takePost.slots = m.slots := by rw [AsmChain.takePost_eq]
theorem AsmChain.takePost_heldAt (m : AsmChain) (a : Nat) : m.takePost.heldAt a = m.heldAt a := by
  rw [AsmChain.takePost_eq]
  rfl

theorem State.carryOut_of_disable (h : o.kind = .disable) :
    (s.atChain c p m ch).carryOut c o =
      s.atChain c (p.freed (m.buffersFrom o.frame)) (m.emptied o.frame).takePost ch := by
  have given : (s.atChain c p m ch).carryOut c o =
      ((s.atChain c (p.freed (m.buffersFrom o.frame)) (m.emptied o.frame).takePost ch).dropCut c).sweep c false o.frame := by
    rw [State.carryOut, h, ← State.updAsm_atChain, ← State.giveBack_atChain]
    rfl
  have hheld (a : Nat) : (m.emptied o.frame).takePost.heldAt a = none := by
    rw [AsmChain.takePost_heldAt, AsmChain.emptied_heldAt]
  rw [given, State.dropCut_of_no_held hheld, State.sweep_of_nil (by rw [AsmChain.takePost_slots]; rfl)]

/-- A NONE order over an empty share takes its post and does no more. -/
theorem State.carryOut_none_of_empty (h : o.kind = .none) (hslots : m.slots = []) (hheld : ∀ a, m.heldAt a = none) :
    (s.atChain c p m ch).carryOut c o = s.atChain c p m.takePost ch := by
  rw [State.carryOut_of_none h, State.dropCut_of_no_held fun a => (m.takePost_heldAt a).trans (hheld a),
    State.sweep_of_nil (m.takePost_slots.trans hslots)]

/-- An ASSEMBLE order over an empty share takes its post and starts its blocks. -/
theorem State.carryOut_assemble_of_nil {info : BundleInfo} {cmds : List Cmd} (h : o.kind = .assemble info cmds)
    (hslots : m.slots = []) (hcut : ∀ a n, ch.node a = some n → n.state = .cut → m.heldAt a = none) :
    (s.atChain c p m ch).carryOut c o =
      (s.atChain c p { m.takePost with bundle := some (.opened info m.takePost.lastPost.gen cmds) } ch).runJobs c
        (info.path.map (ch.job m.takePost.lastPost)) := by
  have hnil := m.takePost_slots.trans hslots
  rw [State.carryOut_of_assemble h,
    State.dropCut_of_no_cut fun a n hn hc => (m.takePost_heldAt a).trans (hcut a n hn hc), State.sweep_of_nil hnil,
    State.startBundle_of_nil hnil]

/-- What every order leaves as it was: the other chains, and its own chain's probe bundles. -/
theorem State.carryOut_local (c : ChainId) (o : FrameOrder) (p : Pool) (m : AsmChain) (ch : Chain) (s : State) :
    ∃ p' m' ch', (s.atChain c p m ch).carryOut c o = s.atChain c p' m' ch' ∧ ch'.probes = ch.probes := by
  cases hk : o.kind with
  | assemble info cmds =>
      obtain ⟨bs, held, hcut⟩ := State.dropCut_frees (c := c) (s := s) p m.takePost ch
      rw [State.carryOut_of_assemble hk, hcut, State.sweep_atChain, State.startBundle_atChain]
      obtain ⟨p', m', ch', h, hprobes⟩ := State.runJobs_local
        (m := (AsmChain.swept true o.frame { m.takePost with held := held }).started _ info cmds) _ rfl
      exact ⟨p', m', ch', h, hprobes.trans (Chain.lateAt_probes _ _)⟩
  | disable => exact ⟨_, _, ch, State.carryOut_of_disable hk, rfl⟩
  | none =>
      obtain ⟨bs, held, hcut⟩ := State.dropCut_frees (c := c) (s := s) p m.takePost ch
      rw [State.carryOut_of_none hk, hcut, State.sweep_atChain]
      exact ⟨_, _, _, rfl, Chain.lateAt_probes _ _⟩

end CarryOut

/-! ### FRAME_ORDER -/

section Exec
variable {c : ChainId} {o : FrameOrder} {orders : List AsmMsg} {s : State}

theorem exec_frameOrder_of_waiting (ho : s.mail.orders.get c = .order o :: orders)
    (h : (s.asm.get c).bundle ≠ none ∨ (s.asm.get c).waiting ≠ [] ∨ ∃ p ∈ (s.chains.get c).probes, p.ordered = true) :
    exec (.frameOrder c) s = .next
      ((s.setMail { s.mail with orders := s.mail.orders.set c orders }).setAsm c
        { s.asm.get c with waiting := (s.asm.get c).waiting ++ [o],
                           counters := { (s.asm.get c).counters with
                             overrun := bump16 (s.asm.get c).counters.overrun } }).ended := by
  rw [show exec (.frameOrder c) s = execFrameOrder c s from rfl, execFrameOrder, ho]
  refine (if_pos ?_).trans (ended_congr ?_)
  · rw [Bool.or_eq_true, State.bundleLeaving, Bool.or_eq_true]
    rcases h with h | h | ⟨x, hx, hordered⟩
    · exact .inl (.inl (Option.isSome_iff_ne_none.2 h))
    · exact .inr (by simpa [State.setOrders] using h)
    · exact .inl (.inr (List.any_eq_true.2 ⟨x, hx, hordered⟩))
  · simp [State.countAsm, State.updAsm, State.setOrders, State.setMail, State.setAsm, AsmChain.count, AsmCounters.bump]

theorem exec_frameOrder_of_free (ho : s.mail.orders.get c = .order o :: orders) (hb : (s.asm.get c).bundle = none)
    (hw : (s.asm.get c).waiting = []) (hp : ∀ p ∈ (s.chains.get c).probes, p.ordered = false) :
    exec (.frameOrder c) s = .next
      ((((s.setMail { s.mail with orders := s.mail.orders.set c orders }).atChain c s.pool (s.asm.get c)
        { s.chains.get c with probes := markOrdered o.frame (s.chains.get c).probes }).clearShare c o.frame).carryOut
          c o).ended := by
  have hfree : ¬ ((s.setOrders c orders).bundleLeaving c || !((s.setOrders c orders).asm.get c).waiting.isEmpty) = true := by
    rw [Bool.or_eq_true, State.bundleLeaving, Bool.or_eq_true]
    rintro ((h | h) | h)
    · exact absurd hb (Option.isSome_iff_ne_none.1 h)
    · obtain ⟨x, hx, hordered⟩ := List.any_eq_true.1 h
      exact absurd hordered (ne_true_of_eq_false (hp x hx))
    · rw [show ((s.setOrders c orders).asm.get c).waiting = [] from hw] at h
      cases h
  rw [show exec (.frameOrder c) s = execFrameOrder c s from rfl, execFrameOrder, ho]
  refine (if_neg hfree).trans (ended_congr ?_)
  rw [State.takeOrder_eq, ← State.atChain_same c (s.setOrders c orders), State.orderTaken_atChain]
  rfl

/-- An order with no share of a FLOW_CLEAR due. -/
theorem exec_frameOrder_of_taken (ho : s.mail.orders.get c = .order o :: orders) (hb : (s.asm.get c).bundle = none)
    (hw : (s.asm.get c).waiting = []) (hp : ∀ p ∈ (s.chains.get c).probes, p.ordered = false)
    (hdue : (s.asm.get c).clearDue = false) :
    exec (.frameOrder c) s = .next
      (((s.setMail { s.mail with orders := s.mail.orders.set c orders }).atChain c s.pool (s.asm.get c)
        { s.chains.get c with probes := markOrdered o.frame (s.chains.get c).probes }).carryOut c o).ended := by
  rw [exec_frameOrder_of_free ho hb hw hp, State.clearShare_of_not_due (by rw [State.atChain_asm_same]; exact hdue)]

end Exec

theorem markOrdered_of_first {n : Word16} {before later : List ProbeBundle} {p : ProbeBundle} (hp : p.info.frame = n)
    (ho : p.ordered = false) (h : ∀ x ∈ before, x.info.frame ≠ n) :
    markOrdered n (before ++ p :: later) = before ++ { p with ordered := true } :: later := by
  induction before with
  | nil => exact if_pos ⟨hp, ho⟩
  | cons x rest ih =>
      refine (if_neg fun hx => h x List.mem_cons_self hx.1).trans ?_
      exact congrArg (List.cons x) (ih fun y hy => h y (List.mem_cons_of_mem _ hy))

theorem markOrdered_of_none {n : Word16} {probes : List ProbeBundle} (h : ∀ x ∈ probes, x.info.frame ≠ n) :
    markOrdered n probes = probes := by
  induction probes with
  | nil => rfl
  | cons x rest ih =>
      refine (if_neg fun hx => h x List.mem_cons_self hx.1).trans ?_
      rw [ih fun y hy => h y (List.mem_cons_of_mem _ hy)]

/-! ### The window of an order (R93) -/

theorem frameDistance_eq_zero {f n : Word16} : (f - n).toNat = 0 ↔ f = n :=
  (BitVec.toNat_inj (x := f - n) (y := 0)).trans sub_eq_zero

theorem sweepCase_of_own {k : Bool} {n f : Word16} (h : (f - n).toNat = 0) :
    sweepCase k n f = if k then .kept else .withdrawn := if_pos (frameDistance_eq_zero.1 h)

theorem sweepCase_of_other (k : Bool) {n f : Word16} (h : (f - n).toNat ≠ 0) :
    sweepCase k n f = if inWindow f n then .kept else if later f n then .early else .late :=
  if_neg fun hf => h (frameDistance_eq_zero.2 hf)

theorem sweepCase_of_window (k : Bool) {n f : Word16} (hlo : 1 ≤ (f - n).toNat) (hhi : (f - n).toNat ≤ 4) :
    sweepCase k n f = .kept := by
  rw [sweepCase_of_other k (by omega), inWindow_eq_true hlo hhi]
  rfl

theorem sweepCase_of_early (k : Bool) {n f : Word16} (hlo : 5 ≤ (f - n).toNat) (hhi : (f - n).toNat ≤ 32767) :
    sweepCase k n f = .early := by
  rw [sweepCase_of_other k (by omega), inWindow_eq_false (by omega), later_eq_true (by omega) hhi]
  rfl

theorem sweepCase_of_late (k : Bool) {n f : Word16} (h : 32768 ≤ (f - n).toNat) : sweepCase k n f = .late := by
  rw [sweepCase_of_other k (by omega), inWindow_eq_false (by omega), later_eq_false (by omega)]
  rfl

theorem sweepCase_kept_iff {n f : Word16} : sweepCase false n f = .kept ↔ 1 ≤ (f - n).toNat ∧ (f - n).toNat ≤ 4 := by
  constructor
  · intro h
    by_contra hout
    rcases Nat.eq_zero_or_pos (f - n).toNat with h0 | hpos
    · cases (sweepCase_of_own h0).symm.trans h
    rcases Nat.lt_or_ge 32767 (f - n).toNat with hl | hl
    · cases (sweepCase_of_late false hl).symm.trans h
    · cases (sweepCase_of_early false (by omega) hl).symm.trans h
  · rintro ⟨hlo, hhi⟩
    exact sweepCase_of_window false hlo hhi

theorem mem_sweptOut {k : Bool} {n : Word16} {m : AsmChain} {x : FrameSlot} (hx : x ∈ m.slots)
    (h : sweepCase k n x.frame ≠ .kept) : x ∈ sweptOut k n (m.slotsFrom n) :=
  List.mem_filter.2 ⟨(m.slotsFrom_perm n).mem_iff.2 hx, by simpa using h⟩

/-! ### O32 -/

/-- Settles O32: an order waits, or is taken; a taken one step by step. -/
theorem frameOrdersAreTakenOrWait : Obligations.FrameOrdersAreTakenOrWait := by
  unfold Obligations.FrameOrdersAreTakenOrWait
  intro c o orders s ho m taken posted
  refine ⟨exec_frameOrder_of_waiting ho, fun hb hw hp hdue => ?_⟩
  rw [exec_frameOrder_of_taken ho hb hw hp hdue]
  refine ⟨?marked, ?unmarked, ?none, ?disable, ?assemble⟩
  case marked =>
    intro before p later hprobes hframe hbefore
    obtain ⟨p', m', ch', h, hkept⟩ := State.carryOut_local c o s.pool m
      { s.chains.get c with probes := markOrdered o.frame (s.chains.get c).probes } taken
    refine ⟨_, rfl, ?_⟩
    rw [h, State.ended_chains, State.atChain_chain_same, hkept]
    dsimp only
    rw [hprobes]
    exact markOrdered_of_first hframe (hp p (hprobes ▸ List.mem_append_right _ List.mem_cons_self)) hbefore
  case unmarked =>
    intro hother
    obtain ⟨p', m', ch', h, hkept⟩ := State.carryOut_local c o s.pool m
      { s.chains.get c with probes := markOrdered o.frame (s.chains.get c).probes } taken
    refine ⟨_, rfl, ?_⟩
    rw [h, State.ended_chains, State.atChain_chain_same, hkept]
    exact markOrdered_of_none hother
  case none =>
    intro hk
    obtain ⟨bs, held, hcut⟩ := State.dropCut_frees (c := c) (s := taken) s.pool m.takePost
      { s.chains.get c with probes := markOrdered o.frame (s.chains.get c).probes }
    have hslots : (AsmChain.swept false o.frame { m.takePost with held := held }).slots =
        m.slots.filter fun x => 1 ≤ (x.frame - o.frame).toNat ∧ (x.frame - o.frame).toNat ≤ 4 := by
      rw [AsmChain.swept, AsmChain.takePost_eq]
      exact List.filter_congr fun x _ => decide_eq_decide.2 sweepCase_kept_iff
    have hpost : m.takePost = posted := AsmChain.takePost_eq m
    rw [State.carryOut_of_none hk, hcut, State.sweep_atChain]
    refine ⟨_, rfl, ?_, ?_, ?_, ?_, ?_, ?_, ?_, rfl, rfl, rfl⟩
    · rw [State.ended_asm, State.atChain_asm_same, hslots]
    · intro x hx hout
      rw [State.ended_asm, State.atChain_asm_same, hslots, List.mem_filter] at hout
      have hgone : x ∈ sweptOut false o.frame (AsmChain.slotsFrom { m.takePost with held := held } o.frame) :=
        mem_sweptOut (by exact m.takePost_slots.symm ▸ hx) fun hkept =>
          hout ⟨hx, decide_eq_true (sweepCase_kept_iff.1 hkept)⟩
      exact List.mem_append_right _ (mem_freeTail (List.mem_map_of_mem hgone))
    · rw [State.ended_asm, State.atChain_asm_same, hpost]
      rfl
    · rw [State.ended_asm, State.atChain_asm_same, hpost]
      rfl
    · rw [State.ended_asm, State.atChain_asm_same, hpost]
      exact hb
    · intro d hd
      rw [State.ended_asm, State.ended_chains, State.atChain_asm, State.atChain_chains, Four.get_set_ne _ hd,
        Four.get_set_ne _ hd]
      exact ⟨rfl, rfl⟩
    · rfl
  case disable =>
    intro hk
    have hpost : (m.emptied o.frame).takePost =
        { m.emptied o.frame with posts := m.posts.tail, lastPost := m.posts.headD m.lastPost } := AsmChain.takePost_eq _
    rw [State.carryOut_of_disable hk, hpost]
    refine ⟨_, rfl, ?_, fun a => ?_, ?_, ?_, fun x hx => ?_, fun a b hlo hhi hab => ?_⟩
    · rw [State.ended_asm, State.atChain_asm_same]
      rfl
    · rw [State.ended_asm, State.atChain_asm_same]
      exact m.emptied_heldAt o.frame a
    · rw [State.ended_asm, State.atChain_asm_same]
    · rw [State.ended_asm, State.atChain_asm_same]
    · exact List.mem_append_right _ (mem_freeTail (List.mem_append_left _
        (List.mem_map_of_mem ((m.slotsFrom_perm o.frame).mem_iff.2 hx))))
    · exact List.mem_append_right _ (mem_freeTail (List.mem_append_right _
        (List.mem_map_of_mem (f := fun x : Nat × Nat => x.2) (AsmChain.mem_heldList_of_heldAt hlo hhi hab))))
  case assemble =>
    intro info cmds hk hpath hslots hheld hprobes
    have hsame : ({ s.chains.get c with probes := markOrdered o.frame (s.chains.get c).probes } : Chain) =
        s.chains.get c := by
      rw [hprobes]
      exact congrArg (fun l => ({ s.chains.get c with probes := l } : Chain)) hprobes.symm
    rw [hsame, State.carryOut_assemble_of_nil hk hslots fun a _ _ _ => hheld a, hpath, List.map_nil, State.runJobs_nil,
      AsmChain.takePost_eq]
    exact ended_congr (State.atChain_eq_setAsm c _ taken)

end Sys2Proof.Machine
end

section
/-! FLOW_CLEAR (R85, R104): the staged segments, and each chain's share. O29. -/

namespace Sys2Proof.Machine

/-! ### The staged segments (R85) -/

/-- An entry after a FLOW_CLEAR. -/
def Entry.flushed (x : Entry) : Entry :=
  match x with
  | .free => .free
  | .receiving _ _ => .free
  | .queued _ _ _ => .free
  | .storing h p b _ => .storing h p b true

/-- The counters after a FLOW_CLEAR came to an entry. -/
def Intake.flushCounted (x : Entry) (i : Intake) : Intake :=
  match x with
  | .free => i
  | .receiving _ _ => i.count .flushed
  | .queued _ _ _ => i.count .flushed
  | .storing _ _ _ flushed => if flushed then i else i.count .flushed

/-- The pool after a FLOW_CLEAR came to an entry: the reserved buffer of a QUEUED one joins the free tail. -/
def Pool.flushFreed (e : EntryId) (x : Entry) (p : Pool) : Pool :=
  match x with
  | .free => p
  | .receiving _ _ => p
  | .queued _ _ b =>
      { p with stores := p.stores.filter fun y => decide (y ≠ e),
               free := p.free.filter (fun y => decide (y.buffer ≠ b)) ++ [{ buffer := b, reservedBy := none }] }
  | .storing _ _ _ _ => p

theorem Intake.setEntry_same {i : Intake} {e : EntryId} {x : Entry} (h : i.entry e = x) : i.setEntry e x = i := by
  subst h
  cases e <;> rfl

theorem Intake.count_setEntry (k : IntakeCtr) (i : Intake) (e : EntryId) (x : Entry) :
    (i.setEntry e x).count k = (i.count k).setEntry e x := by cases e <;> rfl

theorem Intake.flushCounted_entry (x : Entry) (i : Intake) (e : EntryId) :
    (i.flushCounted x).entry e = i.entry e := by
  cases x with
  | free => rfl
  | receiving h t => cases e <;> rfl
  | queued h t b => cases e <;> rfl
  | storing h t b flushed => cases flushed <;> cases e <;> rfl

theorem Intake.flushCounted_setEntry (x y : Entry) (i : Intake) (e : EntryId) :
    (i.setEntry e y).flushCounted x = (i.flushCounted x).setEntry e y := by
  cases x with
  | free => rfl
  | receiving h t => exact Intake.count_setEntry _ _ _ _
  | queued h t b => exact Intake.count_setEntry _ _ _ _
  | storing h t b flushed =>
      cases flushed with
      | true => rfl
      | false => exact Intake.count_setEntry _ _ _ _

/-- One entry flushed: its phase decides all three. -/
theorem State.flushEntry_eq (e : EntryId) (s : State) :
    s.flushEntry e =
      (s.setIntake ((s.intake.setEntry e (s.intake.entry e).flushed).flushCounted (s.intake.entry e))).setPool
        (s.pool.flushFreed e (s.intake.entry e)) := by
  rw [State.flushEntry]
  cases h : s.intake.entry e with
  | free => rw [show (Entry.free).flushed = .free from rfl, Intake.setEntry_same h]; rfl
  | receiving hd t => rfl
  | queued hd t b => rfl
  | storing hd t b flushed =>
      cases flushed with
      | false => rfl
      | true => rw [show (Entry.storing hd t b true).flushed = .storing hd t b true from rfl, Intake.setEntry_same h]; rfl

/-- Both entries flushed, the first ahead of the second (log 49). -/
theorem State.flushEntries_eq (s : State) :
    (s.flushEntry .e0).flushEntry .e1 =
      (s.setIntake
        ((({ s.intake with e0 := s.intake.e0.flushed, e1 := s.intake.e1.flushed } : Intake).flushCounted
          s.intake.e0).flushCounted s.intake.e1)).setPool
        ((s.pool.flushFreed .e0 s.intake.e0).flushFreed .e1 s.intake.e1) := by
  have other : (s.flushEntry .e0).intake.entry .e1 = s.intake.e1 := by
    rw [State.flushEntry_eq]
    exact Intake.flushCounted_entry _ _ _
  rw [State.flushEntry_eq .e1, other, State.flushEntry_eq .e0]
  refine congrArg (fun i => ((s.setIntake i).setPool
    ((s.pool.flushFreed .e0 s.intake.e0).flushFreed .e1 s.intake.e1))) ?_
  exact congrArg (Intake.flushCounted s.intake.e1) (Intake.flushCounted_setEntry _ _ _ _).symm

section Request
variable {q : Request} {rest : List Request} {s : State}

theorem exec_flowClear_of_waiting (hq : Waits .flowClear q rest s) (hbody : q.body = [])
    (h : s.intake.clearWaiting = true) : exec .flowClear s = .next ((s.taken rest).replied q .busy .empty) := by
  rw [show exec .flowClear s = execFlowClear s from rfl, execFlowClear, takeWith_some hq (hbody ▸ noFields?_nil)]
  exact ended_congr (if_pos h)

theorem exec_flowClear_of_clear (hq : Waits .flowClear q rest s) (hbody : q.body = [])
    (h : s.intake.clearWaiting = false) : exec .flowClear s = .next ((s.taken rest).beginClear q).ended := by
  rw [show exec .flowClear s = execFlowClear s from rfl, execFlowClear, takeWith_some hq (hbody ▸ noFields?_nil)]
  exact ended_congr (if_neg (ne_true_of_eq_false h))

end Request

/-! ### A chain's share (R104) -/

theorem AsmChain.buffersFrom_of_empty {m : AsmChain} (hslots : m.slots = []) (hheld : ∀ a, m.heldAt a = none) (n : Word16) :
    m.buffersFrom n = [] := by
  rw [AsmChain.buffersFrom, AsmChain.slotsFrom_of_nil hslots, AsmChain.heldList_of_none hheld]
  rfl

/-- An order over an empty share takes nothing from the pool, and its bundle has an empty emitting set. -/
theorem State.carryOut_of_empty {c : ChainId} {m : AsmChain} (o : FrameOrder) (p : Pool) (ch : Chain) (s : State)
    (hslots : m.slots = []) (hheld : ∀ a, m.heldAt a = none) (hb : m.bundle = none) :
    ∃ m' ch', (s.atChain c p m ch).carryOut c o = s.atChain c p m' ch' ∧ m'.slots = [] ∧ (∀ a, m'.heldAt a = none) ∧
      m'.clearDue = m.clearDue ∧ m'.counters.returned = m.counters.returned ∧
      ∀ b, m'.bundle = some b → b.emitting = [] := by
  have hpost := m.takePost_eq
  cases hk : o.kind with
  | none =>
      refine ⟨_, ch, State.carryOut_none_of_empty hk hslots hheld, ?_⟩
      rw [hpost]
      exact ⟨hslots, hheld, rfl, rfl, fun b h => by cases hb.symm.trans h⟩
  | disable =>
      have hnil := AsmChain.buffersFrom_of_empty hslots hheld o.frame
      have given := State.carryOut_of_disable (c := c) (p := p) (m := m) (ch := ch) (s := s) hk
      rw [hnil, Pool.freed_nil, AsmChain.takePost_eq] at given
      refine ⟨_, ch, given, rfl, m.emptied_heldAt o.frame, rfl, ?_, fun b h => by cases hb.symm.trans h⟩
      show bump16By (m.buffersFrom o.frame).length m.counters.returned = _
      rw [hnil]
      rfl
  | assemble info cmds =>
      rw [State.carryOut_assemble_of_nil hk hslots fun a _ _ _ => hheld a, hpost]
      obtain ⟨b', gaps, ch', h, hempty⟩ := State.runJobs_of_no_buffer (c := c) (p := p) (ch := ch) (s := s)
        (m := { m with posts := m.posts.tail, lastPost := m.posts.headD m.lastPost,
                       bundle := some (.opened info (m.posts.headD m.lastPost).gen cmds) })
        (info.path.map (ch.job (m.posts.headD m.lastPost))) rfl rfl hheld
      refine ⟨_, ch', h, hslots, hheld, rfl, rfl, fun b hb' => ?_⟩
      obtain rfl : b' = b := Option.some.inj hb'
      exact hempty

/-- The deferred reply of a FLOW_CLEAR becomes ready. -/
theorem Link.undefer_flowClear {l : Link} {before later : List Deferred} {k tag : Byte}
    (h : l.deferred = before ++ { kind := k, tag := tag, what := .flowClear } :: later)
    (hbefore : ∀ x ∈ before, x.what ≠ .flowClear) :
    l.undefer .flowClear =
      { l with deferred := before ++ later,
               ready := l.ready ++ [{ kind := k, tag := tag, code := .ok, body := .empty, refusal := false }] } := by
  have hfind : l.deferred.find? (fun d => decide (d.what = .flowClear)) =
      some { kind := k, tag := tag, what := .flowClear } := by
    rw [h, List.find?_append, List.find?_eq_none.2 fun x hx => by simpa using hbefore x hx]
    rfl
  have hnot : ({ kind := k, tag := tag, what := .flowClear } : Deferred) ∉ before := fun hx => hbefore _ hx rfl
  rw [Link.undefer_of_find hfind, h, List.erase_append_right _ hnot, List.erase_cons_head]

/-- Settles O29: the request by its entries' phases; a share by the order that takes it and the shares left. -/
theorem flowClearEmptiesTheBuffers : Obligations.FlowClearEmptiesTheBuffers := by
  unfold Obligations.FlowClearEmptiesTheBuffers
  refine ⟨?request, ?share⟩
  case request =>
    intro q rest s hq hbody
    refine ⟨exec_flowClear_of_waiting hq hbody, fun hclear => ?_⟩
    intro kept counted freed
    refine ⟨_, exec_flowClear_of_clear hq hbody hclear, ?_⟩
    rw [State.beginClear, State.flushEntries_eq]
    refine ⟨rfl, rfl, fun c => ?_, rfl, rfl, rfl, rfl, rfl, rfl, rfl, rfl⟩
    fin_cases c <;> rfl
  case share =>
    intro c o orders entries s ho m hb hw hp hdue hperm hsorted held buffers p shared
    have hbuffers : m.buffersFrom o.frame = buffers := by
      rw [AsmChain.buffersFrom, AsmChain.heldList_buffers,
        AsmChain.slotsFrom_eq hperm (hsorted.imp fun h => FrameSlot.before_iff.2 h)]
    have hpool : s.pool.freed (m.buffersFrom o.frame) = p := congrArg (fun bs => s.pool.freed bs) hbuffers
    let taken : State := s.setMail { s.mail with orders := s.mail.orders.set c orders }
    let ch : Chain := { s.chains.get c with probes := markOrdered o.frame (s.chains.get c).probes }
    have share (t : State) (p' : Pool) (waits : Bool)
        (hexec : exec (.frameOrder c) s = .next ((t.atChain c p' (m.cleared o.frame) ch).carryOut c o).ended)
        (hasm : t.asm = s.asm) (hintake : t.intake = { s.intake with clearWaiting := waits })
        (hrest : t.ref = s.ref ∧ t.stills = s.stills ∧ t.scene = s.scene ∧ t.tally = s.tally ∧ t.cues = s.cues ∧
          t.mail = { s.mail with orders := s.mail.orders.set c orders }) : shared p' t.link waits := by
      obtain ⟨m', ch', hu, hslots, hheld, hdue', hreturned, hemitting⟩ :=
        State.carryOut_of_empty (c := c) (m := m.cleared o.frame) o p' ch t rfl (m.emptied_heldAt o.frame) hb
      obtain ⟨href, hstills, hscene, htally, hcues, hmail⟩ := hrest
      rw [hu] at hexec
      refine ⟨_, hexec, rfl, rfl, hintake, ?_⟩
      rw [State.ended_asm, State.atChain_asm_same]
      refine ⟨hslots, hheld, hdue', ?_, hemitting, fun d hd => ?_, href, hstills, hscene, htally, hcues, hmail⟩
      · rw [hreturned, ← hbuffers]
        rfl
      · rw [State.atChain_asm, Four.get_set_ne _ hd, hasm]
    have hexec := exec_frameOrder_of_free ho hb hw hp
    refine ⟨fun hothers => ?some_left, fun before k tag later hlast hdeferred hbefore => ?last⟩
    case some_left =>
      rw [State.clearShare_of_others (by exact hdue) (by exact hothers), hpool] at hexec
      exact share taken p _ hexec rfl rfl ⟨rfl, rfl, rfl, rfl, rfl, rfl⟩
    case last =>
      intro answered e
      have hundefer := Link.undefer_flowClear hdeferred hbefore
      rw [State.clearShare_of_last (by exact hdue) (by exact hlast), hpool] at hexec
      refine ⟨fun hpause => ?_, fun hpause hlow => ?_, fun hpause hhigh => ?_⟩
      · rw [State.evaluatePause_of_none (by exact hpause)] at hexec
        rw [show answered s.link = s.link.undefer .flowClear from hundefer.symm]
        exact share taken.clearReplied p false hexec rfl rfl ⟨rfl, rfl, rfl, rfl, rfl, rfl⟩
      · rw [State.evaluatePause_of_low (by exact hpause) (by exact hlow)] at hexec
        rw [show answered s.link = s.link.undefer .flowClear from hundefer.symm]
        exact share taken.clearReplied { p with flowOut := p.flowOut ++ [.pause e p.pauseLen] } false hexec rfl rfl ⟨rfl, rfl, rfl, rfl, rfl, rfl⟩
      · rw [State.evaluatePause_of_end (by exact hpause) (by exact hhigh)] at hexec
        rw [show answered (s.report _).link = (s.report _).link.undefer .flowClear from
          (Link.undefer_flowClear ((Link.offer_deferred ..).trans hdeferred) hbefore).symm]
        exact share (taken.report (.flow .pauseEnd e p.freeCount p.quarantine.length p.threshold p.pauseLen)).clearReplied
          { p with pause := false, exhausted := false, flowOut := p.flowOut ++ [.resume e] } false hexec rfl rfl ⟨rfl, rfl, rfl, rfl, rfl, rfl⟩

end Sys2Proof.Machine
end

section
/-! The blocks of a bundle by record and look (R92, R95 to R98, R100). O33. -/

namespace Sys2Proof.Machine

/-! ### The job of a place (R96) -/

section Job
variable {ch : Chain} {a : Nat} {n : Node} (post : Post) (q : Nat)

theorem Chain.job_of_no_address : ch.job post { position := q, address := none } = .fixed .empty := rfl

theorem Chain.job_of_failed (hn : ch.node a = some n) (h : n.state = .failed) :
    ch.job post { position := q, address := some a } = .fixed .empty := by
  unfold Chain.job
  dsimp only
  rw [hn]
  dsimp only
  rw [h]

theorem Chain.job_of_cut (hn : ch.node a = some n) (h : n.state = .cut) :
    ch.job post { position := q, address := some a } = .fixed .empty := by
  unfold Chain.job
  dsimp only
  rw [hn]
  dsimp only
  rw [h]

theorem Chain.job_of_absent (hn : ch.node a = none) : ch.job post { position := q, address := some a } = .fixed .empty := by
  unfold Chain.job
  dsimp only
  rw [hn]

theorem Chain.job_of_lamp (hn : ch.node a = some n) (h : n.state = .live ∨ n.state = .suspect) (hk : n.kind = .lamp) :
    ch.job post { position := q, address := some a } = .fixed (.level (post.look a).intensity (post.look a).preset) := by
  unfold Chain.job
  dsimp only
  rw [hn]
  rcases h with h | h <;> simp [h, hk]

theorem Chain.job_of_tile {t : TileSettings} (hn : ch.node a = some n) (h : n.state = .live ∨ n.state = .suspect)
    (hk : n.kind = .tile t) :
    ch.job post { position := q, address := some a } =
      .tile a (post.look a).source (post.look a).brightness t.gap t.fallback := by
  unfold Chain.job
  dsimp only
  rw [hn]
  rcases h with h | h <;> simp [h, hk]

end Job

/-! ### One block -/

section One
variable {c : ChainId} {p p' : Pool} {m m' : AsmChain} {ch ch' : Chain} {s : State} {b b' : Bundle} {a brightness : Nat}
  {src : TileSource} {gap : GapPolicy} {fallback : Option Nat} {js : List Job}

theorem State.runJobs_one_fixed (hb : m.bundle = some b) (x : Block) :
    (s.atChain c p m ch).runJobs c [.fixed x] =
      s.atChain c p { m with bundle := some { b with out := b.out ++ [x], jobs := [], wait := .token } } ch := by
  rw [State.runJobs_fixed, State.runJobs_nil, hb]
  rfl

theorem State.runJobs_turn_waits {w : BundleWait}
    (h : (s.atChain c p m ch).tileTurn c { address := a, brightness := brightness, gap := gap, fallback := fallback } src =
      (s.atChain c p' m' ch', some w)) (hb : m'.bundle = some b') :
    (s.atChain c p m ch).runJobs c (.tile a src brightness gap fallback :: js) =
      s.atChain c p' { m' with bundle := some { b' with jobs := js, wait := w } } ch' := by
  rw [State.runJobs_of_wait h, State.updBundle_atChain, hb]
  rfl

theorem State.runJobs_turn_black
    (h : (s.atChain c p m ch).tileTurn c { address := a, brightness := brightness, gap := gap, fallback := fallback } src =
      (s.atChain c p' m' ch', none)) (hb : m'.bundle = some b') :
    (s.atChain c p m ch).runJobs c (.tile a src brightness gap fallback :: js) =
      (s.atChain c p' { m' with bundle := some { b' with out := b'.out ++ [.tileBlack brightness] } } ch').runJobs c js := by
  rw [State.runJobs_of_black h, State.putOut_atChain, hb]
  rfl

theorem State.runJobs_one_black
    (h : (s.atChain c p m ch).tileTurn c { address := a, brightness := brightness, gap := gap, fallback := fallback } src =
      (s.atChain c p' m' ch', none)) (hb : m'.bundle = some b') :
    (s.atChain c p m ch).runJobs c [.tile a src brightness gap fallback] =
      s.atChain c p' { m' with bundle := some { b' with out := b'.out ++ [.tileBlack brightness],
                                                        jobs := [], wait := .token } } ch' := by
  rw [State.runJobs_turn_black h hb, State.runJobs_nil]
  rfl

end One

theorem Bundle.segmentOf_of_nil {b : Bundle} (h : b.emitting = []) (a : Nat) : b.segmentOf a = none := by
  rw [Bundle.segmentOf, h]
  rfl

theorem Bundle.segmentOf_of_one {b : Bundle} {a buffer : Nat} (h : b.emitting = [(a, buffer)]) :
    b.segmentOf a = some buffer := by
  rw [Bundle.segmentOf, h]
  simp

theorem Bundle.dropSegment_of_one {b : Bundle} {a buffer : Nat} (h : b.emitting = [(a, buffer)]) :
    b.dropSegment a = { b with emitting := [] } := by
  rw [Bundle.dropSegment, h]
  simp

theorem Chain.node_gapAt {ch : Chain} (hlen : ch.nodes.length = 30) {a : Nat} {n : Node} {t : TileSettings}
    (hn : ch.node a = some n) (hk : n.kind = .tile t) :
    (ch.gapAt a).node a = some { n with kind := .tile { t with gapCount := bump16 t.gapCount } } := by
  rw [Chain.gapAt, Chain.updateTile_of_tile hn hk, Chain.node_setNode_same hlen (Chain.isAddress_of_node hn)]

/-- A read asked for is granted at once, or waits (R76). -/
theorem Pool.requestRead_spec (c : ChainId) (b : Nat) (p : Pool) :
    (p.requestRead c b).busy = some (.read c b) ∨ (c, b) ∈ (p.requestRead c b).reads := by
  have hmem : (c, b) ∈ p.reads ++ [(c, b)] := List.mem_append_right _ (List.mem_singleton.2 rfl)
  unfold Pool.requestRead
  cases hbusy : p.busy with
  | some op =>
      rw [Pool.grant_of_busy (by exact fun h => by cases h)]
      exact .inr hmem
  | none =>
      cases hreads : p.reads with
      | nil =>
          rw [Pool.grant_of_read rfl (by exact rfl)]
          exact .inl rfl
      | cons x rest =>
          rw [Pool.grant_of_read (c := x.1) (b := x.2) (rest := rest ++ [(c, b)]) rfl (by exact rfl)]
          exact .inr (List.mem_append_right _ (List.mem_singleton.2 rfl))

/-! ### An order of one place -/

/-- An ASSEMBLE order of one place, which is the next thing its chain's assembler takes up. -/
structure SinglePlace (c : ChainId) (o : FrameOrder) (orders : List AsmMsg) (info : BundleInfo) (cmds : List Cmd)
    (pos a : Nat) (n : Node) (s : State) : Prop where
  order : s.mail.orders.get c = .order o :: orders
  kind : o.kind = .assemble info cmds
  frame : info.frame = o.frame
  path : info.path = [{ position := pos, address := some a }]
  bundle : (s.asm.get c).bundle = none
  waiting : (s.asm.get c).waiting = []
  probes : (s.chains.get c).probes = []
  due : (s.asm.get c).clearDue = false
  node : (s.chains.get c).node a = some n
  uncut : ∀ x y, (s.chains.get c).node x = some y → y.state ≠ .cut

theorem exec_frameOrder_of_no_probe {c : ChainId} {o : FrameOrder} {orders : List AsmMsg} {s : State}
    (ho : s.mail.orders.get c = .order o :: orders) (hb : (s.asm.get c).bundle = none)
    (hw : (s.asm.get c).waiting = []) (hp : (s.chains.get c).probes = []) (hdue : (s.asm.get c).clearDue = false) :
    exec (.frameOrder c) s = .next
      (((s.setMail { s.mail with orders := s.mail.orders.set c orders }).atChain c s.pool (s.asm.get c)
        (s.chains.get c)).carryOut c o).ended := by
  have hsame : ({ s.chains.get c with probes := markOrdered o.frame (s.chains.get c).probes } : Chain) =
      s.chains.get c := by
    rw [hp]
    exact congrArg (fun l => ({ s.chains.get c with probes := l } : Chain)) hp.symm
  rw [exec_frameOrder_of_taken ho hb hw (fun x hx => by rw [hp] at hx; cases hx) hdue, hsame]

/-- A chain's share as the order's post is taken and its bundle opened. -/
def AsmChain.opened (info : BundleInfo) (cmds : List Cmd) (emitting : List (Nat × Nat)) (m : AsmChain) : AsmChain :=
  { m with slots := [], posts := m.posts.tail, lastPost := m.posts.headD m.lastPost,
           bundle := some { Bundle.opened info (m.posts.headD m.lastPost).gen cmds with emitting := emitting } }

/-- A sweep that keeps every entry changes nothing. -/
theorem State.sweep_of_kept {c : ChainId} {p : Pool} {m : AsmChain} {ch : Chain} {s : State} {k : Bool} {n : Word16}
    (h : ∀ x ∈ m.slots, sweepCase k n x.frame = .kept) : (s.atChain c p m ch).sweep c k n = s.atChain c p m ch := by
  have all : ∀ x ∈ m.slotsFrom n, sweepCase k n x.frame = .kept := fun x hx =>
    h x ((m.slotsFrom_perm n).mem_iff.1 hx)
  have hout : sweptOut k n (m.slotsFrom n) = [] :=
    List.filter_eq_nil_iff.2 fun x hx => by simp [all x hx]
  have hlate : sweptLate k n (m.slotsFrom n) = [] :=
    List.filter_eq_nil_iff.2 fun x hx => by simp [all x hx]
  have hcount (w : SweepCase) (hw : w ≠ .kept) :
      (m.slotsFrom n).countP (fun y => decide (sweepCase k n y.frame = w)) = 0 :=
    List.countP_eq_zero.2 fun x hx => by simpa [all x hx] using hw.symm
  have hslots : m.slots.filter (fun x => decide (sweepCase k n x.frame = .kept)) = m.slots :=
    List.filter_eq_self.2 fun x hx => decide_eq_true (h x hx)
  have hswept : m.swept k n = m := by
    rw [AsmChain.swept, hslots, AsmCounters.swept, hcount .withdrawn (by decide), hcount .early (by decide),
      hcount .late (by decide)]
    rfl
  rw [State.sweep_atChain, hout, hlate, hswept, List.map_nil, Pool.freed_nil]
  rfl

section Single
variable {c : ChainId} {o : FrameOrder} {orders : List AsmMsg} {info : BundleInfo} {cmds : List Cmd} {pos a : Nat} {n : Node}
  {s : State}

theorem SinglePlace.exec_of_nil (h : SinglePlace c o orders info cmds pos a n s) (hslots : (s.asm.get c).slots = []) :
    exec (.frameOrder c) s = .next
      (((s.setMail { s.mail with orders := s.mail.orders.set c orders }).atChain c s.pool
        ((s.asm.get c).opened info cmds []) (s.chains.get c)).runJobs c
          [(s.chains.get c).job ((s.asm.get c).posts.headD (s.asm.get c).lastPost)
            { position := pos, address := some a }]).ended := by
  have hopened : { (s.asm.get c).takePost with bundle := some (.opened info (s.asm.get c).takePost.lastPost.gen cmds) } =
      (s.asm.get c).opened info cmds [] := by
    rw [AsmChain.takePost_eq, AsmChain.opened, hslots]
    rfl
  rw [exec_frameOrder_of_no_probe h.order h.bundle h.waiting h.probes h.due,
    State.carryOut_assemble_of_nil h.kind hslots fun x y hx hy => absurd hy (h.uncut x y hx), h.path, hopened,
    AsmChain.takePost_eq]
  rfl

theorem Chain.takesSegment_single {ch : Chain} {t : TileSettings} (hn : ch.node a = some n)
    (hs : n.state = .live ∨ n.state = .suspect) (hk : n.kind = .tile t) :
    ch.takesSegment [{ position := pos, address := some a }] a = true := by
  rw [Chain.takesSegment, hn]
  simp [Node.tile?_of_tile hk, (NodeState.shows_iff _).2 hs, hopOfAddress]

theorem SinglePlace.exec_of_segment (h : SinglePlace c o orders info cmds pos a n s) {t : TileSettings}
    (hs : n.state = .live ∨ n.state = .suspect) (hk : n.kind = .tile t) {b : Nat}
    (hslots : (s.asm.get c).slots = [{ frame := o.frame, address := a, buffer := b }]) :
    exec (.frameOrder c) s = .next
      (((s.setMail { s.mail with orders := s.mail.orders.set c orders }).atChain c s.pool
        ((s.asm.get c).opened info cmds [(a, b)]) (s.chains.get c)).runJobs c
          [(s.chains.get c).job ((s.asm.get c).posts.headD (s.asm.get c).lastPost)
            { position := pos, address := some a }]).ended := by
  have hpost := (s.asm.get c).takePost_slots.trans hslots
  have hfrom : (s.asm.get c).takePost.slotsFrom info.frame = [{ frame := o.frame, address := a, buffer := b }] := by
    rw [AsmChain.slotsFrom, hpost]
    rfl
  have htakes : (s.chains.get c).takesSegment info.path a = true := by
    rw [h.path]
    exact Chain.takesSegment_single h.node hs hk
  have hjoin : (s.asm.get c).takePost.joining (s.chains.get c) info = [{ frame := o.frame, address := a, buffer := b }] := by
    rw [AsmChain.joining, AsmChain.entriesOf, hfrom]
    simp [h.frame, htakes]
  have hgone : (s.asm.get c).takePost.withdrawing (s.chains.get c) info = [] := by
    rw [AsmChain.withdrawing, AsmChain.entriesOf, hfrom]
    simp [htakes]
  have hkept : ∀ x ∈ (s.asm.get c).takePost.slots, sweepCase true o.frame x.frame = .kept := by
    intro x hx
    rw [hpost, List.mem_singleton] at hx
    rw [hx]
    exact sweepCase_of_own (frameDistance_eq_zero.2 rfl)
  have hopened : (s.asm.get c).takePost.started (s.chains.get c) info cmds = (s.asm.get c).opened info cmds [(a, b)] := by
    rw [AsmChain.started, AsmChain.newBundle, hjoin, hgone, hpost, AsmChain.takePost_eq, h.frame]
    simp [AsmChain.opened, Bundle.opened, bump16By]
  rw [exec_frameOrder_of_no_probe h.order h.bundle h.waiting h.probes h.due, State.carryOut_of_assemble h.kind,
    State.dropCut_of_no_cut fun x y hx hy => absurd hy (h.uncut x y hx), State.sweep_of_kept hkept,
    State.startBundle_atChain, hopened, hgone, List.map_nil, Pool.freed_nil, h.path, AsmChain.takePost_eq]
  rfl

end Single

end Sys2Proof.Machine
end

section
/-! The blocks of a bundle, continued: the turn of one tile, the places of a path in order, and the entries of an order. O33. -/

namespace Sys2Proof.Machine

/-! ### The turn of the one tile of an order (R97, R98, R100) -/

theorem State.ended_atChain_asm (c : ChainId) (p : Pool) (m : AsmChain) (ch : Chain) (s : State) :
    (s.atChain c p m ch).ended.asm.get c = m := Four.get_set_same _ _ _

theorem State.ended_atChain_chain (c : ChainId) (p : Pool) (m : AsmChain) (ch : Chain) (s : State) :
    (s.atChain c p m ch).ended.chains.get c = ch := Four.get_set_same _ _ _

theorem AsmChain.opened_superseded (info : BundleInfo) (cmds : List Cmd) (a b : Nat) (m : AsmChain) :
    (m.opened info cmds [(a, b)]).superseded a =
      { m.opened info cmds [] with counters := { m.counters with superseded := bump16 m.counters.superseded } } := by
  have hdrop : ({ Bundle.opened info (m.posts.headD m.lastPost).gen cmds with emitting := [(a, b)] } : Bundle).dropSegment a =
      { Bundle.opened info (m.posts.headD m.lastPost).gen cmds with emitting := [] } := Bundle.dropSegment_of_one rfl
  exact congrArg (fun x => ({ m.opened info cmds [] with
    bundle := some x, counters := { m.counters with superseded := bump16 m.counters.superseded } } : AsmChain)) hdrop

/-- The state as an order leaves it, with the block of its one tile still open. -/
def State.oneTile (c : ChainId) (orders : List AsmMsg) (info : BundleInfo) (cmds : List Cmd) (emitting : List (Nat × Nat))
    (s : State) : State :=
  (s.setOrders c orders).atChain c s.pool
    ((s.asm.get c).opened info cmds emitting) (s.chains.get c)

/-- The same, with the tile's segment superseded (R98). -/
def State.oneTileWithout (c : ChainId) (orders : List AsmMsg) (info : BundleInfo) (cmds : List Cmd) (b : Nat) (s : State) :
    State :=
  (s.setOrders c orders).atChain c (s.pool.release b)
    { (s.asm.get c).opened info cmds [] with
      counters := { (s.asm.get c).counters with superseded := bump16 (s.asm.get c).counters.superseded } }
    (s.chains.get c)

/-- The settings of the one tile at its turn. -/
def TileTurn.of (a : Nat) (look : Look) (t : TileSettings) : TileTurn :=
  { address := a, brightness := look.brightness, gap := t.gap, fallback := t.fallback }

theorem Pool.requestRead_free (c : ChainId) (b : Nat) (p : Pool) : (p.requestRead c b).free = p.free :=
  Pool.grant_free _

section Tile
variable {c : ChainId} {o : FrameOrder} {orders : List AsmMsg} {info : BundleInfo} {cmds : List Cmd} {pos a : Nat} {n : Node}
  {s s' : State} {t : TileSettings} {look : Look} {emitting : List (Nat × Nat)} {p' : Pool} {m' : AsmChain} {ch' : Chain}
  {b' : Bundle}

theorem State.oneTile_supersede (a b : Nat) :
    (s.oneTile c orders info cmds [(a, b)]).supersede c a = s.oneTileWithout c orders info cmds b := by
  rw [State.oneTile, State.supersede_of_segment rfl (Bundle.segmentOf_of_one rfl), AsmChain.opened_superseded]
  rfl

theorem State.oneTile_supersede_nil (a : Nat) :
    (s.oneTile c orders info cmds []).supersede c a = s.oneTile c orders info cmds [] :=
  State.supersede_of_no_segment rfl (Bundle.segmentOf_of_nil rfl a)

theorem State.oneTile_turn_black (hsrc : look.source = .black) (b : Nat) :
    (s.oneTile c orders info cmds [(a, b)]).tileTurn c (.of a look t) look.source =
      (s.oneTileWithout c orders info cmds b, none) := by
  rw [hsrc, State.tileTurn_black, TileTurn.of, State.oneTile_supersede]

theorem State.oneTile_turn_black_nil (hsrc : look.source = .black) :
    (s.oneTile c orders info cmds []).tileTurn c (.of a look t) look.source = (s.oneTile c orders info cmds [], none) := by
  rw [hsrc, State.tileTurn_black, TileTurn.of, State.oneTile_supersede_nil]

theorem State.oneTile_turn_still {page : Nat} (hsrc : look.source = .still page) (b : Nat) :
    (s.oneTile c orders info cmds [(a, b)]).tileTurn c (.of a look t) look.source =
      (s.oneTileWithout c orders info cmds b, some (.stillAsk a look.brightness page false)) := by
  rw [hsrc, State.tileTurn_still, TileTurn.of, State.oneTile_supersede]

theorem State.oneTile_turn_still_nil {page : Nat} (hsrc : look.source = .still page) :
    (s.oneTile c orders info cmds []).tileTurn c (.of a look t) look.source =
      (s.oneTile c orders info cmds [], some (.stillAsk a look.brightness page false)) := by
  rw [hsrc, State.tileTurn_still, TileTurn.of, State.oneTile_supersede_nil]

theorem State.oneTile_turn_freeze (hsrc : look.source = .freeze) (b : Nat) :
    (s.oneTile c orders info cmds [(a, b)]).tileTurn c (.of a look t) look.source =
      (s.oneTileWithout c orders info cmds b).askHeld c (.of a look t) .freeze := by
  rw [hsrc, State.tileTurn_freeze, TileTurn.of, State.oneTile_supersede]

theorem State.oneTile_turn_freeze_nil (hsrc : look.source = .freeze) :
    (s.oneTile c orders info cmds []).tileTurn c (.of a look t) look.source =
      (s.oneTile c orders info cmds []).askHeld c (.of a look t) .freeze := by
  rw [hsrc, State.tileTurn_freeze, TileTurn.of, State.oneTile_supersede_nil]

theorem State.oneTile_gap (hsrc : look.source = .liveFeed) :
    (s.oneTile c orders info cmds []).tileTurn c (.of a look t) look.source =
      (s.oneTile c orders info cmds []).fillGap c (.of a look t) := by
  rw [hsrc]
  exact State.tileTurn_of_gap rfl (Bundle.segmentOf_of_nil rfl a)

theorem State.oneTile_live {b : Nat} (hsrc : look.source = .liveFeed) :
    (s.oneTile c orders info cmds [(a, b)]).tileTurn c (.of a look t) look.source =
      ((s.setOrders c orders).atChain c (s.pool.requestRead c b) ((s.asm.get c).opened info cmds [(a, b)])
        (s.chains.get c), some (.memRead a look.brightness t.gap t.fallback b .segment)) := by
  rw [hsrc]
  exact State.tileTurn_of_segment rfl (Bundle.segmentOf_of_one rfl)

/-- A tile's order ends with its turn: the block waits. -/
theorem State.oneTile_waits {w : BundleWait}
    (hexec : exec (.frameOrder c) s =
      .next ((s.oneTile c orders info cmds emitting).runJobs c
        [.tile a look.source look.brightness t.gap t.fallback]).ended)
    (hturn : (s.oneTile c orders info cmds emitting).tileTurn c (.of a look t) look.source =
      (s'.atChain c p' m' ch', some w)) (hb : m'.bundle = some b') :
    exec (.frameOrder c) s =
      .next (s'.atChain c p' { m' with bundle := some { b' with jobs := [], wait := w } } ch').ended := by
  rw [hexec, State.runJobs_of_wait hturn, State.updBundle_atChain, hb]
  rfl

/-- A tile's order ends with its turn: the block goes out BLACK. -/
theorem State.oneTile_black
    (hexec : exec (.frameOrder c) s =
      .next ((s.oneTile c orders info cmds emitting).runJobs c
        [.tile a look.source look.brightness t.gap t.fallback]).ended)
    (hturn : (s.oneTile c orders info cmds emitting).tileTurn c (.of a look t) look.source =
      (s'.atChain c p' m' ch', none)) (hb : m'.bundle = some b') :
    exec (.frameOrder c) s =
      .next (s'.atChain c p' { m' with bundle := some { b' with out := b'.out ++ [.tileBlack look.brightness],
                                                                jobs := [], wait := .token } } ch').ended := by
  rw [hexec, State.runJobs_of_black hturn, State.putOut_atChain, State.runJobs_nil, hb]
  rfl

end Tile

end Sys2Proof.Machine
end

section
/-! The blocks of a bundle, continued: the places of a path in order, and the entries an order finds. O33. -/

namespace Sys2Proof.Machine

/-! ### Places whose block waits for nothing (R95) -/

/-- A job that goes out at once: a block that is fixed, or a BLACK tile with no segment. -/
def Job.plain (j : Job) (x : Block) : Prop :=
  j = .fixed x ∨ ∃ a brightness gap fallback, j = .tile a .black brightness gap fallback ∧ x = .tileBlack brightness

/-- Jobs that wait for nothing go out in order, up to the next one. -/
theorem State.runJobs_plain {c : ChainId} {p : Pool} {m : AsmChain} {ch : Chain} {s : State} {b : Bundle}
    (hb : m.bundle = some b) (hnil : b.emitting = []) {js : List Job} {xs : List Block} (h : List.Forall₂ Job.plain js xs)
    (later : List Job) :
    (s.atChain c p m ch).runJobs c (js ++ later) =
      (s.atChain c p { m with bundle := some { b with out := b.out ++ xs } } ch).runJobs c later := by
  induction h generalizing m b with
  | nil =>
      rw [List.append_nil]
      exact congrArg (fun x => (s.atChain c p { m with bundle := x } ch).runJobs c later) hb
  | @cons j x js xs hj _ ih =>
      have rest := ih (m := { m with bundle := some { b with out := b.out ++ [x] } }) (b := { b with out := b.out ++ [x] })
        rfl hnil
      rw [List.append_assoc, List.singleton_append] at rest
      rw [List.cons_append]
      rcases hj with rfl | ⟨a, brightness, gap, fallback, rfl, rfl⟩
      · rw [State.runJobs_fixed, hb]
        exact rest
      · have hturn : (s.atChain c p m ch).tileTurn c
            { address := a, brightness := brightness, gap := gap, fallback := fallback } .black =
              (s.atChain c p m ch, none) := by
          rw [State.tileTurn_black]
          exact congrArg (·, none) (State.supersede_of_no_segment hb (Bundle.segmentOf_of_nil hnil a))
        rw [State.runJobs_turn_black hturn hb]
        exact rest

/-- A place that shows no picture has a fixed block. -/
theorem Chain.job_fixed {ch : Chain} {p : Place} (post : Post)
    (h : ∀ a n, p.address = some a → ch.node a = some n →
      ¬ (n.kindName = .tile ∧ (n.state = .live ∨ n.state = .suspect))) :
    ∃ x, ch.job post p = .fixed x := by
  obtain ⟨q, address⟩ := p
  cases address with
  | none => exact ⟨.empty, rfl⟩
  | some a =>
      cases hn : ch.node a with
      | none => exact ⟨_, Chain.job_of_absent post q hn⟩
      | some n =>
          have lamp (hs : n.state = .live ∨ n.state = .suspect) :
              ∃ x, ch.job post { position := q, address := some a } = .fixed x := by
            cases hk : n.kind with
            | lamp => exact ⟨_, Chain.job_of_lamp post q hn hs hk⟩
            | tile t => exact absurd ⟨by rw [Node.kindName, hk], hs⟩ (h a n rfl hn)
          cases hs : n.state with
          | ident => exact ⟨_, Chain.job_of_ident hn hs post q⟩
          | failed => exact ⟨_, Chain.job_of_failed post q hn hs⟩
          | cut => exact ⟨_, Chain.job_of_cut post q hn hs⟩
          | live => exact lamp (.inl hs)
          | suspect => exact lamp (.inr hs)

theorem Chain.map_job_fixed {ch : Chain} (post : Post) (path : List Place)
    (h : ∀ p ∈ path, ∀ a n, p.address = some a → ch.node a = some n →
      ¬ (n.kindName = .tile ∧ (n.state = .live ∨ n.state = .suspect))) :
    ∃ xs : List Block, path.map (ch.job post) = xs.map .fixed := by
  induction path with
  | nil => exact ⟨[], rfl⟩
  | cons p rest ih =>
      obtain ⟨x, hx⟩ := Chain.job_fixed post (h p List.mem_cons_self)
      obtain ⟨xs, hxs⟩ := ih fun q hq => h q (List.mem_cons_of_mem _ hq)
      exact ⟨x :: xs, by rw [List.map_cons, List.map_cons, hx, hxs]⟩

/-! ### Entries by their distance from the order's frame (R92, R93) -/

/-- In a list where no `q` stands ahead of a `p`, those of either kind are the `p`s and then the `q`s. -/
theorem filter_or_of_sorted {α : Type} {p q : α → Bool} {l : List α} (h : l.Pairwise fun x y => ¬ (q x ∧ p y))
    (hpq : ∀ x ∈ l, ¬ (p x ∧ q x)) : l.filter (fun x => p x || q x) = l.filter p ++ l.filter q := by
  induction l with
  | nil => rfl
  | cons x rest ih =>
      rw [List.pairwise_cons] at h
      have ih := ih h.2 fun y hy => hpq y (List.mem_cons_of_mem _ hy)
      have hx := hpq x List.mem_cons_self
      rw [List.filter_cons, List.filter_cons, List.filter_cons]
      by_cases hpx : p x = true
      · simp [hpx, ih, show q x = false from Bool.eq_false_of_not_eq_true fun hq => hx ⟨hpx, hq⟩]
      by_cases hqx : q x = true
      · have none : rest.filter p = [] := List.filter_eq_nil_iff.2 fun y hy hpy => h.1 y hy ⟨hqx, hpy⟩
        simp [hpx, hqx, ih, none]
      · simp [hpx, hqx, ih]

theorem sweepCase_true_eq (n f : Word16) :
    sweepCase true n f =
      if (f - n).toNat ≤ 4 then .kept else if (f - n).toNat ≤ 32767 then .early else .late := by
  rcases Nat.eq_zero_or_pos (f - n).toNat with h0 | hpos
  · rw [sweepCase_of_own h0, h0]
    rfl
  split
  · next h4 => exact sweepCase_of_window true hpos h4
  · next h4 =>
      split
      · next hl => exact sweepCase_of_early true (by omega) hl
      · next hl => exact sweepCase_of_late true (by omega)

theorem sweepCase_true_kept {n f : Word16} : sweepCase true n f = .kept ↔ (f - n).toNat ≤ 4 := by
  rw [sweepCase_true_eq]
  generalize (f - n).toNat = d
  split_ifs <;> simp <;> omega

theorem sweepCase_true_early {n f : Word16} :
    sweepCase true n f = .early ↔ 5 ≤ (f - n).toNat ∧ (f - n).toNat ≤ 32767 := by
  rw [sweepCase_true_eq]
  generalize (f - n).toNat = d
  split_ifs <;> simp <;> omega

theorem sweepCase_true_late {n f : Word16} : sweepCase true n f = .late ↔ 32768 ≤ (f - n).toNat := by
  rw [sweepCase_true_eq]
  generalize (f - n).toNat = d
  split_ifs <;> simp <;> omega

theorem sweepCase_true_ne_withdrawn (n f : Word16) : sweepCase true n f ≠ .withdrawn := by
  rw [sweepCase_true_eq]
  split
  · decide
  · split <;> decide

/-! ### Late counts at the tiles (R103) -/

/-- A record with `k` more late segments counted. -/
def Node.lateBy (k : Nat) (n : Node) : Node :=
  match n.kind with
  | .tile t => { n with kind := .tile { t with lateCount := bump16By k t.lateCount } }
  | .lamp => n

theorem Node.lateBy_of_tile {n : Node} {t : TileSettings} (h : n.kind = .tile t) (k : Nat) :
    n.lateBy k = { n with kind := .tile { t with lateCount := bump16By k t.lateCount } } := by
  rw [Node.lateBy, h]

theorem Node.lateBy_of_lamp {n : Node} (h : n.kind = .lamp) (k : Nat) : n.lateBy k = n := by
  rw [Node.lateBy, h]

theorem Node.lateBy_zero (n : Node) : n.lateBy 0 = n := by
  cases hk : n.kind with
  | lamp => exact Node.lateBy_of_lamp hk 0
  | tile t =>
      rw [Node.lateBy_of_tile hk]
      exact congrArg (fun x => ({ n with kind := x } : Node)) hk.symm

theorem Node.lateBy_lateBy (j k : Nat) (n : Node) : (n.lateBy k).lateBy j = n.lateBy (j + k) := by
  cases hk : n.kind with
  | lamp => rw [Node.lateBy_of_lamp hk, Node.lateBy_of_lamp hk, Node.lateBy_of_lamp hk]
  | tile t =>
      rw [Node.lateBy_of_tile hk (j + k), Node.lateBy_of_tile (n := n.lateBy k)
        (t := { t with lateCount := bump16By k t.lateCount }) (by rw [Node.lateBy_of_tile hk]), Node.lateBy_of_tile hk]
      simp [bump16By, Function.iterate_add_apply]

theorem Node.lateBy_state (k : Nat) (n : Node) : (n.lateBy k).state = n.state := by
  unfold Node.lateBy
  split <;> rfl

theorem Node.lateBy_kindName (k : Nat) (n : Node) : (n.lateBy k).kindName = n.kindName := by
  cases hk : n.kind with
  | lamp => rw [Node.lateBy_of_lamp hk]
  | tile t => rw [Node.lateBy_of_tile hk, Node.kindName, Node.kindName, hk]

theorem Chain.node_updateTile_late {ch : Chain} (hlen : ch.nodes.length = 30) (a b : Nat) :
    (ch.updateTile a fun t => { t with lateCount := bump16 t.lateCount }).node b =
      if a = b then (ch.node b).map (Node.lateBy 1) else ch.node b := by
  cases hn : ch.node a with
  | none =>
      rw [Chain.updateTile_of_absent hn]
      split
      · next h => rw [← h, hn]; rfl
      · rfl
  | some n =>
      cases hk : n.kind with
      | lamp =>
          rw [Chain.updateTile_of_lamp hn hk]
          split
          · next h => rw [← h, hn, Option.map_some, Node.lateBy_of_lamp hk]
          · rfl
      | tile t =>
          have haddr := Chain.isAddress_of_node hn
          rw [Chain.updateTile_of_tile hn hk]
          split
          · next h =>
              subst h
              rw [Chain.node_setNode_same hlen haddr, hn, Option.map_some, Node.lateBy_of_tile hk]
              rfl
          · next h => exact Chain.node_setNode_ne haddr (fun e => h e.symm) _

theorem Chain.lateAt_nodes_length (xs : List FrameSlot) (ch : Chain) : (ch.lateAt xs).nodes.length = ch.nodes.length := by
  induction xs generalizing ch with
  | nil => rfl
  | cons x rest ih =>
      obtain ⟨nodes, hlen, h⟩ := Chain.updateTile_nodes ch x.address fun t => { t with lateCount := bump16 t.lateCount }
      exact (ih _).trans ((congrArg (fun c => c.nodes.length) h).trans hlen)

/-- Late entries are counted at their tiles, one for each. -/
theorem Chain.node_lateAt {ch : Chain} (hlen : ch.nodes.length = 30) (xs : List FrameSlot) (a : Nat) :
    (ch.lateAt xs).node a = (ch.node a).map (Node.lateBy (xs.countP fun x => decide (x.address = a))) := by
  induction xs generalizing ch with
  | nil => simp [Chain.lateAt, show (Node.lateBy 0) = id from funext Node.lateBy_zero]
  | cons x rest ih =>
      have hstep := Chain.node_updateTile_late hlen x.address a
      obtain ⟨nodes, hl, h⟩ := Chain.updateTile_nodes ch x.address fun t => { t with lateCount := bump16 t.lateCount }
      have rest' := ih (ch := ch.updateTile x.address fun t => { t with lateCount := bump16 t.lateCount })
        (by rw [h]; exact hl.trans hlen)
      rw [show ch.lateAt (x :: rest) =
        (ch.updateTile x.address fun t => { t with lateCount := bump16 t.lateCount }).lateAt rest from rfl, rest', hstep,
        List.countP_cons]
      by_cases ha : x.address = a
      · rw [if_pos ha, if_pos (decide_eq_true ha), Option.map_map]
        exact congrArg (fun f => Option.map f (ch.node a)) (funext fun n => Node.lateBy_lateBy _ 1 n)
      · rw [if_neg ha, if_neg (by simpa using ha)]
        rfl

/-! ### Entries that join a bundle (R92) -/

/-- An enrolled tile that takes content blocks. -/
def Node.takesContent (n : Node) : Bool := decide (n.kindName = .tile ∧ (n.state = .live ∨ n.state = .suspect))

theorem Chain.takesSegment_eq (ch : Chain) (path : List Place) (a : Nat) :
    ch.takesSegment path a = ((ch.node a).any Node.takesContent && path.any fun p => decide (p.address = some a)) := by
  have hshows (n : Node) : (n.tile?.isSome && n.state.shows) = n.takesContent := by
    rw [Bool.eq_iff_iff, Bool.and_eq_true, Node.tile?_isSome, Node.takesContent, decide_eq_true_iff, decide_eq_true_iff,
      NodeState.shows_iff]
  unfold Chain.takesSegment
  cases ch.node a with
  | none => rfl
  | some n =>
      dsimp only
      rw [hshows, hopOfAddress, Option.isSome_map, List.findIdx?_isSome]
      rfl

theorem Chain.lateAt_takesSegment {ch : Chain} (hlen : ch.nodes.length = 30) (xs : List FrameSlot) (path : List Place)
    (a : Nat) : (ch.lateAt xs).takesSegment path a = ch.takesSegment path a := by
  rw [Chain.takesSegment_eq, Chain.takesSegment_eq, Chain.node_lateAt hlen]
  cases ch.node a with
  | none => rfl
  | some n =>
      simp only [Option.map_some, Option.any_some, Node.takesContent, Node.lateBy_kindName, Node.lateBy_state]

end Sys2Proof.Machine
end

section
/-! The blocks of a bundle, continued: an order over its entries, and O33. -/

namespace Sys2Proof.Machine

/-- The entries of the order's frame that join its bundle. -/
def entriesJoining (ch : Chain) (path : List Place) (n : Word16) (entries : List FrameSlot) : List FrameSlot :=
  entries.filter fun x => decide ((x.frame - n).toNat = 0) && ch.takesSegment path x.address

/-- The entries of the order's frame that are withdrawn. -/
def entriesWithdrawn (ch : Chain) (path : List Place) (n : Word16) (entries : List FrameSlot) : List FrameSlot :=
  entries.filter fun x => decide ((x.frame - n).toNat = 0) && !ch.takesSegment path x.address

/-- The entries too early for the window. -/
def entriesEarly (n : Word16) (entries : List FrameSlot) : List FrameSlot :=
  entries.filter fun x => decide (5 ≤ (x.frame - n).toNat ∧ (x.frame - n).toNat ≤ 32767)

/-- The entries too late for the window. -/
def entriesLate (n : Word16) (entries : List FrameSlot) : List FrameSlot :=
  entries.filter fun x => decide (32768 ≤ (x.frame - n).toNat)

/-- A chain's share as its order has taken its post, swept its entries and opened its bundle. -/
def AsmChain.entered (info : BundleInfo) (cmds : List Cmd) (ch : Chain) (n : Word16) (entries : List FrameSlot)
    (m : AsmChain) : AsmChain :=
  { m with
    slots := m.slots.filter fun x => decide (1 ≤ (x.frame - n).toNat ∧ (x.frame - n).toNat ≤ 4),
    posts := m.posts.tail, lastPost := m.posts.headD m.lastPost,
    bundle := some { Bundle.opened info (m.posts.headD m.lastPost).gen cmds with
      emitting := (entriesJoining ch info.path n entries).map fun x => (x.address, x.buffer) },
    counters := { m.counters with
      withdrawn := bump16By (entriesWithdrawn ch info.path n entries).length m.counters.withdrawn,
      expiredEarly := bump16By (entriesEarly n entries).length m.counters.expiredEarly,
      expiredLate := bump16By (entriesLate n entries).length m.counters.expiredLate } }

section Entries
variable {n : Word16} {entries : List FrameSlot}

theorem sweptLate_true (n : Word16) (entries : List FrameSlot) : sweptLate true n entries = entriesLate n entries :=
  List.filter_congr fun _ _ => decide_eq_decide.2 sweepCase_true_late

/-- The sweep of an ASSEMBLE order releases the early entries and then the late ones (log 34). -/
theorem sweptOut_true (h : entries.Pairwise fun x y => x.before n y = true) :
    sweptOut true n entries = entriesEarly n entries ++ entriesLate n entries := by
  have hout : sweptOut true n entries = entries.filter fun x =>
      decide (5 ≤ (x.frame - n).toNat ∧ (x.frame - n).toNat ≤ 32767) || decide (32768 ≤ (x.frame - n).toNat) := by
    refine List.filter_congr fun x _ => ?_
    rw [← Bool.decide_or]
    refine decide_eq_decide.2 ((not_congr sweepCase_true_kept).trans ?_)
    generalize (x.frame - n).toNat = d
    omega
  rw [hout]
  refine filter_or_of_sorted (h.imp fun {x y} hxy => ?_) fun x _ => ?_
  · rw [decide_eq_true_iff, decide_eq_true_iff]
    rintro ⟨hx, -, hy⟩
    rcases FrameSlot.before_iff.1 hxy with hlt | ⟨heq, -⟩
    · exact absurd (hx.trans hlt.le) (Nat.not_le.2 (Nat.lt_succ_of_le hy))
    · exact absurd (heq ▸ hx) (Nat.not_le.2 (Nat.lt_succ_of_le hy))
  · rw [decide_eq_true_iff, decide_eq_true_iff]
    rintro ⟨⟨-, hx⟩, hx'⟩
    exact absurd hx' (Nat.not_le.2 (Nat.lt_succ_of_le hx))

theorem AsmCounters.swept_true (n : Word16) (entries : List FrameSlot) (x : AsmCounters) :
    x.swept true n entries =
      { x with expiredEarly := bump16By (entriesEarly n entries).length x.expiredEarly,
               expiredLate := bump16By (entriesLate n entries).length x.expiredLate } := by
  have hw : entries.countP (fun y => decide (sweepCase true n y.frame = .withdrawn)) = 0 :=
    List.countP_eq_zero.2 fun y _ => by simpa using sweepCase_true_ne_withdrawn n y.frame
  have he : entries.countP (fun y => decide (sweepCase true n y.frame = .early)) = (entriesEarly n entries).length := by
    rw [List.countP_eq_length_filter]
    exact congrArg List.length (List.filter_congr fun _ _ => decide_eq_decide.2 sweepCase_true_early)
  have hl : entries.countP (fun y => decide (sweepCase true n y.frame = .late)) = (entriesLate n entries).length := by
    rw [List.countP_eq_length_filter]
    exact congrArg List.length (sweptLate_true n entries)
  rw [AsmCounters.swept, hw, he, hl]
  rfl

/-- Of the entries a sweep keeps, those of the order's frame. -/
theorem filter_kept_own (q : FrameSlot → Bool) (entries : List FrameSlot) :
    ((entries.filter fun x => decide (sweepCase true n x.frame = .kept)).filter fun x => decide (x.frame = n)).filter q =
      entries.filter fun x => decide ((x.frame - n).toNat = 0) && q x := by
  rw [List.filter_filter, List.filter_filter]
  refine List.filter_congr fun x _ => ?_
  rw [Bool.eq_iff_iff]
  simp only [Bool.and_eq_true, decide_eq_true_iff, frameDistance_eq_zero]
  constructor
  · rintro ⟨⟨hq, hn⟩, -⟩
    exact ⟨hn, hq⟩
  · rintro ⟨hn, hq⟩
    exact ⟨⟨hq, hn⟩, sweepCase_true_kept.2 (by rw [frameDistance_eq_zero.2 hn]; exact Nat.zero_le 4)⟩

theorem filter_kept_other (n : Word16) (entries : List FrameSlot) :
    (entries.filter fun x => decide (sweepCase true n x.frame = .kept)).filter (fun x => decide (x.frame ≠ n)) =
      entries.filter fun x => decide (1 ≤ (x.frame - n).toNat ∧ (x.frame - n).toNat ≤ 4) := by
  rw [List.filter_filter]
  refine List.filter_congr fun x _ => ?_
  rw [Bool.eq_iff_iff]
  simp only [Bool.and_eq_true, decide_eq_true_iff, sweepCase_true_kept, ne_eq, ← frameDistance_eq_zero (f := x.frame)]
  generalize (x.frame - n).toNat = d
  omega

/-- An ASSEMBLE order over its entries, up to the first block. -/
theorem State.carryOut_of_entries {c : ChainId} {o : FrameOrder} {p : Pool} {m : AsmChain} {ch : Chain} {s : State}
    {info : BundleInfo} {cmds : List Cmd} (hkind : o.kind = .assemble info cmds) (hframe : info.frame = o.frame)
    (hcut : ∀ a n, ch.node a = some n → n.state = .cut → m.heldAt a = none) (hlen : ch.nodes.length = 30)
    (hperm : entries.Perm m.slots) (hsorted : entries.Pairwise fun x y => x.before o.frame y = true) :
    (s.atChain c p m ch).carryOut c o =
      (s.atChain c
        (p.freed ((entriesEarly o.frame entries ++ entriesLate o.frame entries ++
          entriesWithdrawn ch info.path o.frame entries).map fun x => x.buffer))
        (m.entered info cmds ch o.frame entries) (ch.lateAt (entriesLate o.frame entries))).runJobs c
          (info.path.map ((ch.lateAt (entriesLate o.frame entries)).job (m.posts.headD m.lastPost))) := by
  have hfrom : m.takePost.slotsFrom o.frame = entries :=
    AsmChain.slotsFrom_eq (by rw [AsmChain.takePost_slots]; exact hperm) hsorted
  have hslots : (m.takePost.swept true o.frame).slots =
      m.slots.filter fun x => decide (sweepCase true o.frame x.frame = .kept) := by
    rw [AsmChain.swept, AsmChain.takePost_slots]
  have hfrom' : (m.takePost.swept true o.frame).slotsFrom o.frame =
      entries.filter fun x => decide (sweepCase true o.frame x.frame = .kept) :=
    AsmChain.slotsFrom_eq (hslots ▸ hperm.filter _) (hsorted.filter _)
  have htakes (x : FrameSlot) :
      (ch.lateAt (entriesLate o.frame entries)).takesSegment info.path x.address = ch.takesSegment info.path x.address :=
    Chain.lateAt_takesSegment hlen _ _ _
  have hjoin : (m.takePost.swept true o.frame).joining (ch.lateAt (entriesLate o.frame entries)) info =
      entriesJoining ch info.path o.frame entries := by
    rw [AsmChain.joining, AsmChain.entriesOf, hframe, hfrom', filter_kept_own, entriesJoining]
    simp only [htakes]
  have hgone : (m.takePost.swept true o.frame).withdrawing (ch.lateAt (entriesLate o.frame entries)) info =
      entriesWithdrawn ch info.path o.frame entries := by
    rw [AsmChain.withdrawing, AsmChain.entriesOf, hframe, hfrom', filter_kept_own, entriesWithdrawn]
    simp only [htakes]
  have hentered : (m.takePost.swept true o.frame).started (ch.lateAt (entriesLate o.frame entries)) info cmds =
      m.entered info cmds ch o.frame entries := by
    rw [AsmChain.started, AsmChain.newBundle, hjoin, hgone, hslots, hframe, filter_kept_other, AsmChain.swept, hfrom,
      AsmCounters.swept_true, AsmChain.takePost_eq]
    rfl
  rw [State.carryOut_of_assemble hkind,
    State.dropCut_of_no_cut fun a n hn hc => (m.takePost_heldAt a).trans (hcut a n hn hc), State.sweep_atChain, hfrom,
    sweptLate_true, sweptOut_true hsorted, State.startBundle_atChain, hentered, hgone, Pool.freed_freed, ← List.map_append,
    AsmChain.swept, AsmChain.takePost_eq]

end Entries

theorem State.tileTurn_still_of_no_segment {c : ChainId} {p : Pool} {m : AsmChain} {ch : Chain} {s : State} {b : Bundle}
    {t : TileTurn} {page : Nat} (hb : m.bundle = some b) (h : b.segmentOf t.address = none) :
    (s.atChain c p m ch).tileTurn c t (.still page) =
      (s.atChain c p m ch, some (.stillAsk t.address t.brightness page false)) := by
  rw [State.tileTurn_still, State.supersede_of_no_segment hb h]

theorem Bundle.segmentOf_of_mem {b : Bundle} {a buffer : Nat} (hmem : (a, buffer) ∈ b.emitting)
    (hone : ∀ y ∈ b.emitting, y.1 = a → y.2 = buffer) : b.segmentOf a = some buffer := by
  rw [Bundle.segmentOf]
  cases hfind : b.emitting.find? fun x => decide (x.1 = a) with
  | none => exact absurd (decide_eq_true (show (a, buffer).1 = a from rfl)) (List.find?_eq_none.1 hfind _ hmem)
  | some y =>
      exact congrArg some (hone y (List.mem_of_find?_eq_some hfind) (by simpa using List.find?_some hfind))

/-- An entry of the order's frame is the only one of its address. -/
theorem entry_unique {n : Word16} {entries : List FrameSlot} (h : entries.Pairwise fun x y => x.before n y = true)
    {x y : FrameSlot} (hx : x ∈ entries) (hy : y ∈ entries) (hf : x.frame = y.frame) (ha : x.address = y.address) :
    x = y := by
  by_contra hne
  have : Std.Symm fun x y : FrameSlot => x.before n y = true ∨ y.before n x = true := ⟨fun _ _ => Or.symm⟩
  have comparable : entries.Pairwise fun x y => x.before n y = true ∨ y.before n x = true := h.imp fun hab => .inl hab
  have either : x.before n y = true ∨ y.before n x = true := comparable.forall hx hy hne
  have irrefl {x y : FrameSlot} (hf : x.frame = y.frame) (ha : x.address = y.address) : ¬ x.before n y = true := by
    rw [FrameSlot.before_iff, hf, ha]
    rintro (h | ⟨-, h⟩) <;> exact absurd h (Nat.lt_irrefl _)
  exact either.elim (irrefl hf ha) (irrefl hf.symm ha.symm)

/-- Settles O33: one place by its record and look, the places in order, and the entries an order finds. -/
theorem blocksFollowTheRecordAndTheLook : Obligations.BlocksFollowTheRecordAndTheLook := by
  unfold Obligations.BlocksFollowTheRecordAndTheLook
  refine ⟨?single, ?several, ?entries⟩
  case single =>
    intro c o orders info cmds pos a n s ho hkind hframe hpath hlo hhi m ch post look hb hw hp hdue hheld hnodes hn hcut
      bundle segment sent gapCounted superseded
    have h : SinglePlace c o orders info cmds pos a n s := ⟨ho, hkind, hframe, hpath, hb, hw, hp, hdue, hn, hcut⟩
    refine ⟨fun hslots => ?fixed, fun t hk hs => ?tile⟩
    case fixed =>
      have out (x : Block) (hjob : ch.job post { position := pos, address := some a } = .fixed x) : sent x := by
        have hexec := h.exec_of_nil hslots
        rw [hjob, State.runJobs_one_fixed (by exact rfl)] at hexec
        refine ⟨_, hexec, ?_, ?_⟩
        · rw [State.ended_asm, State.atChain_asm_same]
          rfl
        · rw [State.ended_asm, State.atChain_asm_same]
          rfl
      exact ⟨fun hst => out _ (Chain.job_of_ident hn hst post pos), fun hst => out _ (Chain.job_of_failed post pos hn hst),
        fun hk hst => out _ (Chain.job_of_lamp post pos hn hst hk)⟩
    case tile =>
      have hjob := Chain.job_of_tile post pos hn hs hk
      have nil (hslots : m.slots = []) : exec (.frameOrder c) s =
          .next ((s.oneTile c orders info cmds []).runJobs c
            [.tile a look.source look.brightness t.gap t.fallback]).ended := by
        rw [h.exec_of_nil hslots, hjob]
        rfl
      have seg {b : Nat} (hslots : m.slots = [segment b]) : exec (.frameOrder c) s =
          .next ((s.oneTile c orders info cmds [(a, b)]).runJobs c
            [.tile a look.source look.brightness t.gap t.fallback]).ended := by
        rw [h.exec_of_segment hs hk hslots, hjob]
        rfl
      have counted := Chain.node_gapAt hnodes hn hk
      have gapCounts {u : State} (hm : (u.asm.get c).counters = ((s.asm.get c).opened info cmds []).gap.counters)
          (hch : u.chains.get c = ch.gapAt a) : gapCounted u t :=
        ⟨hm, (congrArg (fun x => Chain.node x a) hch).trans counted⟩
      have gapBlack
          (hturn : (s.oneTile c orders info cmds []).tileTurn c (.of a look t) look.source =
            ((s.setOrders c orders).atChain c s.pool
              ((s.asm.get c).opened info cmds []).gap (ch.gapAt a), none)) (hslots : m.slots = []) :
          sent (.tileBlack look.brightness) ∧ ∃ u, exec (.frameOrder c) s = .next u ∧ gapCounted u t := by
        have hexec := State.oneTile_black (nil hslots) hturn rfl
        exact ⟨⟨_, hexec, congrArg AsmChain.bundle (State.ended_atChain_asm ..), congrArg AsmChain.slots (State.ended_atChain_asm ..)⟩, _, hexec,
          gapCounts ((congrArg AsmChain.counters (State.ended_atChain_asm ..)).trans rfl) (State.ended_atChain_chain ..)⟩
      have gapWaits {w : BundleWait} {p' : Pool}
          (hturn : (s.oneTile c orders info cmds []).tileTurn c (.of a look t) look.source =
            ((s.setOrders c orders).atChain c p'
              ((s.asm.get c).opened info cmds []).gap (ch.gapAt a), some w)) (hslots : m.slots = []) :
          ∃ u, exec (.frameOrder c) s = .next u ∧ (u.asm.get c).bundle = some { bundle with wait := w } ∧
            gapCounted u t := by
        have hexec := State.oneTile_waits (nil hslots) hturn rfl
        exact ⟨_, hexec, congrArg AsmChain.bundle (State.ended_atChain_asm ..),
          gapCounts ((congrArg AsmChain.counters (State.ended_atChain_asm ..)).trans rfl) (State.ended_atChain_chain ..)⟩
      have freed (b : Nat) : ({ buffer := b, reservedBy := none } : FreeBuf) ∈ (s.pool.release b).free :=
        List.mem_append_right _ (List.mem_singleton.2 rfl)
      have freedHeld (old b : Nat) :
          ({ buffer := b, reservedBy := none } : FreeBuf) ∈ ((s.pool.release b).requestRead c old).free :=
        (Pool.requestRead_free c old _).symm ▸ freed b
      refine ⟨?live, ?gapBlack, ?gapRepeat, ?gapRepeatNone, ?gapStill, ?gapNoStill, ?black, ?blackNil, ?still, ?freeze, ?stillNil,
        ?freezeNil⟩
      case live =>
        intro hsrc b hslots
        exact ⟨_, State.oneTile_waits (seg hslots) (State.oneTile_live hsrc) rfl, congrArg AsmChain.slots (State.ended_atChain_asm ..),
          congrArg AsmChain.bundle (State.ended_atChain_asm ..), Pool.requestRead_spec ..⟩
      case gapBlack =>
        intro hsrc hslots hgap
        exact gapBlack ((State.oneTile_gap hsrc).trans (State.fillGap_of_black (by exact hgap))) hslots
      case gapRepeat =>
        intro hsrc hslots hgap b hheldb
        exact gapWaits (((State.oneTile_gap hsrc).trans (State.fillGap_of_repeat (by exact hgap))).trans
          (State.askHeld_of_held (by exact hheldb) _)) hslots
      case gapRepeatNone =>
        intro hsrc hslots hgap hnone
        exact gapBlack (((State.oneTile_gap hsrc).trans (State.fillGap_of_repeat (by exact hgap))).trans
          (State.askHeld_of_none (by exact hnone) _)) hslots
      case gapStill =>
        intro hsrc hslots hgap page hpage
        exact gapWaits ((State.oneTile_gap hsrc).trans (State.fillGap_of_still (by exact hgap) (by exact hpage))) hslots
      case gapNoStill =>
        intro hsrc hslots hgap hpage
        have hfill := (State.oneTile_gap (c := c) (orders := orders) (info := info) (cmds := cmds) (a := a) (s := s) (t := t)
          hsrc).trans (State.fillGap_of_no_still (by exact hgap) (by exact hpage))
        exact ⟨fun hnone => gapBlack (hfill.trans (State.askHeld_of_none (by exact hnone) _)) hslots,
          fun b hheldb => gapWaits (hfill.trans (State.askHeld_of_held (by exact hheldb) _)) hslots⟩
      case black =>
        intro hsrc b hslots
        have hexec := State.oneTile_black (seg hslots) (State.oneTile_turn_black hsrc b) rfl
        exact ⟨⟨_, hexec, congrArg AsmChain.bundle (State.ended_atChain_asm ..),
          congrArg AsmChain.slots (State.ended_atChain_asm ..)⟩, _, hexec,
          congrArg AsmChain.counters (State.ended_atChain_asm ..), freed b⟩
      case blackNil =>
        intro hsrc hslots
        exact ⟨_, State.oneTile_black (nil hslots) (State.oneTile_turn_black_nil hsrc) rfl,
          congrArg AsmChain.bundle (State.ended_atChain_asm ..), congrArg AsmChain.slots (State.ended_atChain_asm ..)⟩
      case still =>
        intro page b hsrc hslots
        exact ⟨_, State.oneTile_waits (seg hslots) (State.oneTile_turn_still hsrc b) rfl,
          congrArg AsmChain.slots (State.ended_atChain_asm ..),
          ⟨congrArg AsmChain.counters (State.ended_atChain_asm ..), freed b⟩,
          congrArg AsmChain.bundle (State.ended_atChain_asm ..)⟩
      case freeze =>
        intro b hsrc hslots
        have hturn := State.oneTile_turn_freeze (c := c) (orders := orders) (info := info) (cmds := cmds) (a := a) (s := s)
          (t := t) hsrc b
        refine ⟨fun hnone => ?_, fun old hold => ?_⟩
        · have hexec := State.oneTile_black (seg hslots) (hturn.trans (State.askHeld_of_none (by exact hnone) _)) rfl
          exact ⟨⟨_, hexec, congrArg AsmChain.bundle (State.ended_atChain_asm ..),
            congrArg AsmChain.slots (State.ended_atChain_asm ..)⟩, _, hexec,
            congrArg AsmChain.counters (State.ended_atChain_asm ..), freed b⟩
        · exact ⟨_, State.oneTile_waits (seg hslots) (hturn.trans (State.askHeld_of_held (by exact hold) _)) rfl,
            congrArg AsmChain.slots (State.ended_atChain_asm ..),
            ⟨congrArg AsmChain.counters (State.ended_atChain_asm ..), freedHeld old b⟩,
            congrArg AsmChain.bundle (State.ended_atChain_asm ..)⟩
      case stillNil =>
        intro page hsrc hslots
        exact ⟨_, State.oneTile_waits (nil hslots) (State.oneTile_turn_still_nil hsrc) rfl,
          congrArg AsmChain.bundle (State.ended_atChain_asm ..)⟩
      case freezeNil =>
        intro hsrc hslots
        have hturn := State.oneTile_turn_freeze_nil (c := c) (orders := orders) (info := info) (cmds := cmds) (a := a) (s := s)
          (t := t) hsrc
        refine ⟨fun hnone => ?_, fun b hheldb => ?_⟩
        · exact ⟨_, State.oneTile_black (nil hslots) (hturn.trans (State.askHeld_of_none (by exact hnone) _)) rfl,
            congrArg AsmChain.bundle (State.ended_atChain_asm ..), congrArg AsmChain.slots (State.ended_atChain_asm ..)⟩
        · exact ⟨_, State.oneTile_waits (nil hslots) (hturn.trans (State.askHeld_of_held (by exact hheldb) _)) rfl,
            congrArg AsmChain.bundle (State.ended_atChain_asm ..)⟩
  case several =>
    intro c o orders info cmds first behind blocks s ho hkind hframe hpath m ch post hb hw hp hdue hslots hnodes hcut goesOut
      hforall bundle
    have hplain : List.Forall₂ Job.plain (first.map (ch.job post)) blocks := by
      refine List.forall₂_map_left_iff.2 (hforall.imp fun p x h => ?_)
      obtain ⟨q, address⟩ := p
      rcases h with ⟨rfl, rfl⟩ | ⟨a, n, rfl, -, -, hn, ⟨hs, rfl⟩ | ⟨hs, rfl⟩ | ⟨hs, ⟨hk, rfl⟩ | ⟨t, hk, hsrc, rfl⟩⟩⟩
      · exact .inl rfl
      · exact .inl (Chain.job_of_ident hn hs post q)
      · exact .inl (Chain.job_of_failed post q hn hs)
      · exact .inl (Chain.job_of_lamp post q hn hs hk)
      · exact .inr ⟨a, _, t.gap, t.fallback, (Chain.job_of_tile post q hn hs hk).trans (by rw [hsrc]), rfl⟩
    have hexec : exec (.frameOrder c) s = .next
        (((s.setOrders c orders).atChain c s.pool { m.opened info cmds [] with bundle := some { bundle with out := blocks } }
          ch).runJobs c (behind.map (ch.job post))).ended := by
      rw [exec_frameOrder_of_no_probe ho hb hw hp hdue,
        State.carryOut_assemble_of_nil hkind hslots fun a n hn hc => absurd hc (hcut a n hn), hpath, List.map_append,
        AsmChain.takePost_eq, State.runJobs_plain rfl rfl hplain, AsmChain.opened]
      refine ended_congr (congrArg (fun l => State.runJobs c _ (State.atChain c s.pool { m.opened info cmds [] with
        slots := l, bundle := some { bundle with out := blocks } } ch (s.setOrders c orders))) hslots)
    refine ⟨fun hnil => ?_, fun p later a n t page hbehind hpa hlo hhi hn hs hk hsrc => ?_⟩
    · rw [hnil, List.map_nil, State.runJobs_nil] at hexec
      exact ⟨_, hexec, congrArg AsmChain.bundle (State.ended_atChain_asm ..)⟩
    · obtain ⟨q, address⟩ := p
      obtain rfl : address = some a := hpa
      rw [hbehind, List.map_cons, Chain.job_of_tile post q hn hs hk, hsrc] at hexec
      exact ⟨_, hexec.trans (ended_congr (State.runJobs_turn_waits
        (State.tileTurn_still_of_no_segment rfl (Bundle.segmentOf_of_nil rfl a)) rfl)),
        congrArg AsmChain.bundle (State.ended_atChain_asm ..)⟩
  case entries =>
    intro c o orders info cmds entries s ho hkind hframe m ch post hb hw hp hdue hnodes hcut ahead hperm hsorted shows joins
      withdrawn early late result
    have hbefore : entries.Pairwise fun x y => x.before o.frame y = true := hsorted.imp fun h => FrameSlot.before_iff.2 h
    have hexec := exec_frameOrder_of_taken ho hb hw hp hdue
    rw [State.carryOut_of_entries hkind hframe (by exact hcut) (by exact hnodes) hperm hbefore] at hexec
    have hjoin (x : FrameSlot) : (decide (ahead x = 0) && ch.takesSegment info.path x.address) = joins x := by
      rw [Chain.takesSegment_eq, ← Bool.and_assoc]
      rfl
    have hjoining : entriesJoining ch info.path o.frame entries = entries.filter joins :=
      List.filter_congr fun x _ => hjoin x
    have hwithdrawn : entriesWithdrawn ch info.path o.frame entries = withdrawn :=
      List.filter_congr fun x _ => by
        rw [← hjoin x]
        cases decide (ahead x = 0) <;> rfl
    let counted : Chain := Chain.lateAt (entriesLate o.frame entries) { ch with probes := markOrdered o.frame ch.probes }
    have hnode (a : Nat) : counted.node a =
          (ch.node a).map (Node.lateBy (late.countP fun x => decide (x.address = a))) :=
      Chain.node_lateAt (by exact hnodes) _ a
    have build {p' : Pool} {b : Bundle} {w : BundleWait}
        (hu : exec (.frameOrder c) s = .next ((s.setOrders c orders).atChain c p'
          { m.entered info cmds ch o.frame entries with bundle := some b } counted).ended)
        (hfree : p'.free = s.pool.free ++ freeTail ((early ++ late ++ withdrawn).map fun x => x.buffer))
        (hemitting : b.emitting = (entriesJoining ch info.path o.frame entries).map fun x => (x.address, x.buffer))
        (hwait : b.wait = w) : result w := by
      refine ⟨_, b, hu, congrArg AsmChain.bundle (State.ended_atChain_asm ..), hwait, ?_, ?_, ?_, ?_, ?_, ?_⟩
      · rw [hemitting, hjoining]
      · exact (congrArg AsmChain.slots (State.ended_atChain_asm ..)).trans rfl
      · refine hfree.trans ?_
        rw [freeTail, List.map_map]
        rfl
      · refine (congrArg AsmChain.counters (State.ended_atChain_asm ..)).trans ?_
        show (m.entered info cmds ch o.frame entries).counters = _
        rw [AsmChain.entered, hwithdrawn]
        rfl
      · intro a n hn
        refine (congrArg (fun x => Chain.node x a) (State.ended_atChain_chain ..)).trans ((hnode a).trans ?_)
        rw [hn]
        rfl
      · exact (congrArg AsmChain.held (State.ended_atChain_asm ..)).trans rfl
    have hfreed : (s.pool.freed ((entriesEarly o.frame entries ++ entriesLate o.frame entries ++
        entriesWithdrawn ch info.path o.frame entries).map fun x => x.buffer)).free =
          s.pool.free ++ freeTail ((early ++ late ++ withdrawn).map fun x => x.buffer) := by
      rw [hwithdrawn]
      rfl
    refine ⟨fun hnone => ?_, fun p later a n t b hpath hpa hn hs hk hsrc hmem => ?_⟩
    · obtain ⟨xs, hxs⟩ := Chain.map_job_fixed (ch := counted) post info.path
        fun p hp a n hpa hn => by
          rw [hnode, Option.map_eq_some_iff] at hn
          obtain ⟨n₀, hn₀, rfl⟩ := hn
          rw [Node.lateBy_kindName, Node.lateBy_state]
          exact of_decide_eq_false (hnone p hp a n₀ hpa hn₀)
      rw [show info.path.map (Chain.job _ _) = _ from hxs, ← List.append_nil (xs.map Job.fixed),
        State.runJobs_fixed_append rfl, State.runJobs_nil] at hexec
      exact build hexec hfreed rfl rfl
    · obtain ⟨q, address⟩ := p
      obtain rfl : address = some a := hpa
      have hx : ({ frame := o.frame, address := a, buffer := b } : FrameSlot) ∈ entries.filter joins := by
        refine List.mem_filter.2 ⟨hperm.mem_iff.2 hmem, ?_⟩
        rw [← hjoin, Chain.takesSegment_eq]
        have hcontent : n.takesContent = true := decide_eq_true ⟨by rw [Node.kindName, hk], hs⟩
        rw [Bool.and_eq_true, Bool.and_eq_true]
        refine ⟨decide_eq_true (frameDistance_eq_zero.2 rfl), ?_, ?_⟩
        · rw [show ch.node _ = some n from hn]
          exact hcontent
        · rw [hpath]
          exact List.any_eq_true.2 ⟨_, List.mem_cons_self, decide_eq_true rfl⟩
      have hseg : ({ Bundle.opened info post.gen cmds with
          emitting := (entriesJoining ch info.path o.frame entries).map fun x => (x.address, x.buffer) } : Bundle).segmentOf a =
            some b := by
        refine Bundle.segmentOf_of_mem (by rw [hjoining]; exact List.mem_map.2 ⟨_, hx, rfl⟩) fun y hy hya => ?_
        rw [hjoining] at hy
        obtain ⟨z, hz, rfl⟩ := List.mem_map.1 hy
        obtain ⟨hz, hzj⟩ := List.mem_filter.1 hz
        have hzf : z.frame = o.frame := by
          rw [← hjoin, Bool.and_eq_true, decide_eq_true_iff] at hzj
          exact frameDistance_eq_zero.1 hzj.1
        exact congrArg FrameSlot.buffer (entry_unique hbefore hz (List.mem_filter.1 hx).1 hzf hya)
      have hn' := (hnode a).trans (congrArg (Option.map _) hn)
      have hjobs : info.path.map (counted.job post) =
          .tile a .liveFeed (post.look a).brightness t.gap t.fallback :: later.map (counted.job post) := by
        rw [hpath, List.map_cons, Chain.job_of_tile (t := { t with lateCount := _ }) post q hn'
          (by rw [Node.lateBy_state]; exact hs) (by rw [Node.lateBy_of_tile hk]), hsrc]
      rw [show info.path.map (Chain.job _ _) = _ from hjobs,
        State.runJobs_turn_waits (State.tileTurn_of_segment rfl hseg) rfl] at hexec
      exact build hexec ((Pool.requestRead_free ..).trans hfreed) rfl rfl

end Sys2Proof.Machine
end

section
/-! Completed reads of segment memory (R99, R102). O34. -/

namespace Sys2Proof.Machine

/-! ### What waits for a read (R76) -/

/-- A granted read that is asked for stays asked for. -/
theorem Pool.grant_keeps_read {p : Pool} {c : ChainId} {b : Nat}
    (h : p.busy = some (.read c b) ∨ (c, b) ∈ p.reads) : p.grant.busy = some (.read c b) ∨ (c, b) ∈ p.grant.reads := by
  cases hbusy : p.busy with
  | some op => rwa [Pool.grant_of_busy (by rw [hbusy]; exact Option.some_ne_none op)]
  | none =>
      have hmem : (c, b) ∈ p.reads := h.resolve_left (by rw [hbusy]; exact nofun)
      cases hreads : p.reads with
      | nil => rw [hreads] at hmem; cases hmem
      | cons x rest =>
          rw [Pool.grant_of_read (c := x.1) (b := x.2) hbusy hreads]
          rw [hreads] at hmem
          rcases List.mem_cons.1 hmem with rfl | hmem
          · exact .inl rfl
          · exact .inr hmem

theorem Pool.grant_quarantine (p : Pool) : p.grant.quarantine = p.quarantine := by rw [Pool.grant_eq]
theorem Pool.grant_info (p : Pool) : p.grant.info = p.info := by rw [Pool.grant_eq]

theorem Pool.requestRead_quarantine (c : ChainId) (b : Nat) (p : Pool) : (p.requestRead c b).quarantine = p.quarantine :=
  Pool.grant_quarantine _

theorem Pool.grant_contents (p : Pool) (b : Nat) : p.grant.contents b = p.contents b := by
  unfold Pool.contents
  rw [Pool.grant_info, Pool.grant_memory]

/-! ### The command -/

/-- The state that a completed read finds: the memory free, or granted anew (log 7). -/
def State.readBase (first : Bool) (s : State) : State :=
  if first then s.setPool { s.pool with busy := none } else (s.setPool { s.pool with busy := none }).grantMemory

/-- The grant behind a completed read, when the bundle's next read came first (log 7). -/
def State.readEnd (first : Bool) (s : State) : State := if first then s.grantMemory else s

section Ends
variable (first : Bool) (s : State)

@[simp] theorem State.readBase_asm : (s.readBase first).asm = s.asm := by cases first <;> rfl
@[simp] theorem State.readBase_chains : (s.readBase first).chains = s.chains := by cases first <;> rfl
@[simp] theorem State.readBase_link : (s.readBase first).link = s.link := by cases first <;> rfl
@[simp] theorem State.readBase_free : (s.readBase first).pool.free = s.pool.free := by
  cases first with
  | true => rfl
  | false => exact Pool.grant_free _
@[simp] theorem State.readBase_quarantine : (s.readBase first).pool.quarantine = s.pool.quarantine := by
  cases first with
  | true => rfl
  | false => exact Pool.grant_quarantine _
@[simp] theorem State.readBase_contents (b : Nat) : (s.readBase first).pool.contents b = s.pool.contents b := by
  cases first with
  | true => rfl
  | false => exact Pool.grant_contents _ b
@[simp] theorem State.readEnd_asm : (s.readEnd first).asm = s.asm := by cases first <;> rfl
@[simp] theorem State.readEnd_chains : (s.readEnd first).chains = s.chains := by cases first <;> rfl
@[simp] theorem State.readEnd_link : (s.readEnd first).link = s.link := by cases first <;> rfl
@[simp] theorem State.readEnd_free : (s.readEnd first).pool.free = s.pool.free := by
  cases first with
  | true => exact Pool.grant_free _
  | false => rfl
@[simp] theorem State.readEnd_quarantine : (s.readEnd first).pool.quarantine = s.pool.quarantine := by
  cases first with
  | true => exact Pool.grant_quarantine _
  | false => rfl

variable {s}

theorem State.readEnd_keeps_read {c : ChainId} {b : Nat} (h : s.pool.busy = some (.read c b) ∨ (c, b) ∈ s.pool.reads) :
    (s.readEnd first).pool.busy = some (.read c b) ∨ (c, b) ∈ (s.readEnd first).pool.reads := by
  cases first with
  | true => exact Pool.grant_keeps_read h
  | false => exact h

end Ends

section Exec
variable {c : ChainId} {b a brightness : Nat} {gap : GapPolicy} {fallback : Option Nat} {why : ReadWhy} {bundle : Bundle}
  {s : State}

theorem State.finishRead_of_wait {x : Nat} (hb : (s.asm.get c).bundle = some bundle) (hs : bundle.stopping = false)
    (hw : bundle.wait = .memRead a brightness gap fallback x why) (ok : Bool) :
    s.finishRead c b ok =
      s.readDone c bundle.info.frame { address := a, brightness := brightness, gap := gap, fallback := fallback } b why
        ok := by
  rw [State.finishRead, hb]
  dsimp only
  rw [hs, if_neg Bool.false_ne_true, hw]

theorem exec_emissionReadComplete_of_read (hbusy : s.pool.busy = some (.read c b)) (ok first : Bool) :
    exec (.emissionReadComplete ok first) s = .next (((s.readBase first).finishRead c b ok).readEnd first).ended := by
  rw [show exec (.emissionReadComplete ok first) s = execEmissionReadComplete ok first s from rfl,
    execEmissionReadComplete, hbusy]
  cases first <;> rfl

theorem exec_emissionReadComplete_of_wait (hbusy : s.pool.busy = some (.read c b))
    (hb : (s.asm.get c).bundle = some bundle) (hs : bundle.stopping = false)
    (hw : bundle.wait = .memRead a brightness gap fallback b why) (ok first : Bool) :
    exec (.emissionReadComplete ok first) s = .next
      (((s.readBase first).readDone c bundle.info.frame
        { address := a, brightness := brightness, gap := gap, fallback := fallback } b why ok).readEnd first).ended := by
  rw [exec_emissionReadComplete_of_read hbusy, State.finishRead_of_wait (by rw [State.readBase_asm]; exact hb) hs hw]

theorem exec_emissionReadComplete_of_idle (h : ∀ k x, s.pool.busy ≠ some (.read k x)) (ok first : Bool) :
    exec (.emissionReadComplete ok first) s = .next s := by
  rw [show exec (.emissionReadComplete ok first) s = execEmissionReadComplete ok first s from rfl,
    execEmissionReadComplete]
  cases hbusy : s.pool.busy with
  | none => rfl
  | some op =>
      cases op with
      | read k x => exact absurd hbusy (h k x)
      | store e => rfl
      | test x => rfl

end Exec

/-! ### The block that waited (R99, R102) -/

section Done
variable {c : ChainId} {p : Pool} {m : AsmChain} {ch : Chain} {s : State} {bundle : Bundle}

theorem State.sendImage_atChain (hb : m.bundle = some bundle) (brightness : Nat) (image : List Byte) :
    (s.atChain c p m ch).sendImage c brightness image =
      (s.atChain c p { m with bundle := some { bundle with out := bundle.out ++ [.tileImage brightness image] } }
        ch).runJobs c bundle.jobs := by
  rw [State.sendImage, State.putOut_atChain, State.atChain_asm_same, hb]
  rfl

theorem State.fallBack_waits (hb : m.bundle = some bundle) (brightness : Nat) (w : BundleWait) :
    State.fallBack c brightness (s.atChain c p m ch, some w) =
      s.atChain c p { m with bundle := some { bundle with wait := w } } ch := by
  rw [State.fallBack]
  dsimp only
  rw [State.updBundle_atChain, hb]
  rfl

theorem State.fallBack_black (hb : m.bundle = some bundle) (brightness : Nat) :
    State.fallBack c brightness (s.atChain c p m ch, none) =
      (s.atChain c p { m with bundle := some { bundle with out := bundle.out ++ [.tileBlack brightness] } } ch).runJobs c
        bundle.jobs := by
  rw [State.fallBack]
  dsimp only
  rw [State.putOut_atChain, State.atChain_asm_same, hb]
  rfl

/-- A chain's share when a segment was sent (R99). -/
def AsmChain.holding (a b : Nat) (m : AsmChain) : AsmChain :=
  { m with held := m.held.set (a - 1) (some b), bundle := m.bundle.map (Bundle.dropSegment a),
           counters := { m.counters with sent := bump16 m.counters.sent } }

theorem State.holdSegment_atChain (a b : Nat) :
    (s.atChain c p m ch).holdSegment c a b =
      s.atChain c (p.freed (m.heldAt a).toList) (m.holding a b) ch := by
  rw [State.holdSegment, State.atChain_asm_same, State.updBundle_atChain, State.updAsm_atChain]
  cases m.heldAt a with
  | none =>
      rw [State.countAsm_atChain, Option.toList_none, Pool.freed_nil]
      rfl
  | some old =>
      dsimp only
      rw [State.toFree_atChain, State.countAsm_atChain]
      rfl

/-- A chain's share when a read failed its check (R102). -/
def AsmChain.damaged (a b : Nat) (m : AsmChain) : AsmChain :=
  { m with held := if m.heldAt a = some b then m.held.set (a - 1) none else m.held,
           bundle := m.bundle.map fun x => { x with emitting := x.emitting.filter fun y => decide (y.2 ≠ b) },
           counters := { m.counters with memCheck := bump16 m.counters.memCheck } }

theorem State.memCheck_atChain (a b : Nat) (frame : Word16) :
    (s.atChain c p m ch).memCheck c a b frame =
      (s.raise (.memCheck b frame) .assembler (some { chain := c, address := a })).atChain c (p.quarantineBuf b)
        (m.damaged a b) ch := by
  have dropped : (if m.heldAt a = some b then m.setHeld a none else m) =
      { m with held := if m.heldAt a = some b then m.held.set (a - 1) none else m.held } := by
    split <;> rfl
  rw [State.memCheck, State.updAsm_atChain, dropped, State.updBundle_atChain]
  simp [State.atChain, State.raise, State.countAsm, State.updAsm, AsmChain.count, AsmCounters.bump, AsmChain.damaged,
    State.e]

variable {a brightness b : Nat} {gap : GapPolicy} {fallback : Option Nat} {why : ReadWhy} {frame : Word16}

/-- A read of a held or frozen buffer that matched: its image goes out. -/
theorem State.readDone_of_held (hb : m.bundle = some bundle) (hw : why ≠ .segment) (t : TileTurn) :
    (s.atChain c p m ch).readDone c frame t b why true =
      (s.atChain c p
        { m with bundle := some { bundle with out := bundle.out ++ [.tileImage t.brightness (p.contents b)] } }
          ch).runJobs c bundle.jobs := by
  cases why with
  | segment => exact absurd rfl hw
  | gapHeld => exact State.sendImage_atChain hb _ _
  | freeze => exact State.sendImage_atChain hb _ _

/-- A read of a segment that matched: it becomes the held buffer, and its image goes out. -/
theorem State.readDone_of_segment (hb : m.bundle = some bundle) (t : TileTurn) :
    (s.atChain c p m ch).readDone c frame t b .segment true =
      (s.atChain c (p.freed (m.heldAt t.address).toList)
        { m.holding t.address b with
          bundle := some { bundle.dropSegment t.address with
            out := bundle.out ++ [.tileImage t.brightness (p.contents b)] } } ch).runJobs c bundle.jobs := by
  rw [State.readDone, if_pos rfl]
  dsimp only
  rw [State.holdSegment_atChain, State.sendImage_atChain (bundle := bundle.dropSegment t.address)
    (by exact congrArg (Option.map _) hb)]
  rfl

/-- A read of a held or frozen buffer that failed its check: BLACK goes out (R102). -/
theorem State.readDone_of_held_damaged (hb : m.bundle = some bundle) (hw : why ≠ .segment) (t : TileTurn) :
    (s.atChain c p m ch).readDone c frame t b why false =
      ((s.raise (.memCheck b frame) .assembler (some { chain := c, address := t.address })).atChain c (p.quarantineBuf b)
        { m.damaged t.address b with
          bundle := some { bundle with emitting := bundle.emitting.filter (fun y => decide (y.2 ≠ b)),
                                       out := bundle.out ++ [.tileBlack t.brightness] } } ch).runJobs c bundle.jobs := by
  have black := State.fallBack_black (c := c) (p := p.quarantineBuf b) (m := m.damaged t.address b) (ch := ch)
    (s := s.raise (.memCheck b frame) .assembler (some { chain := c, address := t.address }))
    (by exact congrArg (Option.map _) hb) t.brightness
  cases why with
  | segment => exact absurd rfl hw
  | gapHeld =>
      rw [State.readDone, if_neg Bool.false_ne_true]
      dsimp only
      rw [State.memCheck_atChain]
      exact black
  | freeze =>
      rw [State.readDone, if_neg Bool.false_ne_true]
      dsimp only
      rw [State.memCheck_atChain]
      exact black

/-- A read of a segment that failed its check: the block is a gap (R100, R102). -/
theorem State.readDone_of_segment_damaged (t : TileTurn) :
    (s.atChain c p m ch).readDone c frame t b .segment false =
      State.fallBack c t.brightness
        (((s.raise (.memCheck b frame) .assembler (some { chain := c, address := t.address })).atChain c
          (p.quarantineBuf b) (m.damaged t.address b) ch).fillGap c t) := by
  rw [State.readDone, if_neg Bool.false_ne_true]
  dsimp only
  rw [State.memCheck_atChain]

end Done

theorem AsmChain.heldAt_damaged {m : AsmChain} (hlen : m.held.length = 30) {a : Nat} (hlo : 1 ≤ a) (hhi : a ≤ 30) (b : Nat) :
    (m.damaged a b).heldAt a = if m.heldAt a = some b then none else m.heldAt a := by
  unfold AsmChain.damaged
  split
  · rw [AsmChain.heldAt, List.getD_eq_getElem?_getD, List.getElem?_set_self (by omega)]
    rfl
  · rfl

theorem State.fillGap_of_held {c : ChainId} {p : Pool} {m : AsmChain} {ch : Chain} {s : State} {t : TileTurn}
    (h : t.gap = .repeatHeld ∨ (t.gap = .still ∧ t.fallback = none)) :
    (s.atChain c p m ch).fillGap c t = (s.atChain c p m.gap (ch.gapAt t.address)).askHeld c t .gapHeld :=
  h.elim State.fillGap_of_repeat fun h => State.fillGap_of_no_still h.1 h.2

section Result
variable {c : ChainId} {s t : State} {first : Bool} {p : Pool} {m : AsmChain} {ch : Chain}

theorem State.readBase_eq (first : Bool) (c : ChainId) (s : State) :
    s.readBase first = (s.readBase first).atChain c (s.readBase first).pool (s.asm.get c) (s.chains.get c) := by
  have h := (State.atChain_same c (s.readBase first)).symm
  rwa [State.readBase_asm, State.readBase_chains] at h

/-- What a completed read leaves, read off its parts. -/
theorem exists_read_result {i : Instr} (hu : exec i s = .next ((t.atChain c p m ch).readEnd first).ended)
    (hasm : t.asm = s.asm) (hchains : t.chains = s.chains) :
    ∃ u, exec i s = .next u ∧ u.asm = s.asm.set c m ∧ u.pool.free = p.free ∧ u.pool.quarantine = p.quarantine ∧
      u.chains = s.chains.set c ch ∧ u.link = t.link.pump ∧
      ∀ b, (p.busy = some (.read c b) ∨ (c, b) ∈ p.reads) → u.pool.busy = some (.read c b) ∨ (c, b) ∈ u.pool.reads := by
  refine ⟨_, hu, ?_, ?_, ?_, ?_, ?_, fun b h => ?_⟩
  · simp [hasm]
  · simp
  · simp
  · simp [hchains]
  · simp
  · exact State.readEnd_keeps_read first h

end Result

theorem State.raise_link_faultCount (s : State) (f : PartFault) (src : FaultSource) (n : Option NodeRef) :
    (s.raise f src n).link.pump.faultCount = bump16 s.link.faultCount := by
  rw [Link.pump_faultCount, State.raise_faultCount]

/-- Settles O34: the block by its read's check, and the blocks behind it. -/
theorem emissionReadsSendTheImage : Obligations.EmissionReadsSendTheImage := by
  unfold Obligations.EmissionReadsSendTheImage
  refine ⟨?last, ?more⟩
  case last =>
    intro c b a brightness gap fallback why bundle first s hbusy hb hs hjobs hwait hheld hlo hhi m image sent black
    obtain ⟨info, gen, cmds, emitting, out, jobs, wait, stopping⟩ := bundle
    obtain rfl : jobs = [] := hjobs
    have hsame : s.chains.set c (s.chains.get c) = s.chains := Four.set_get _ _
    have hexec (ok : Bool) := exec_emissionReadComplete_of_wait hbusy hb hs hwait ok first
    refine ⟨fun hwhy => ?held, fun hwhy => ?segment, fun hwhy => ?heldDamaged, fun hwhy hgap => ?black, fun hwhy => ?fills,
      fun ok s h => exec_emissionReadComplete_of_idle h ok first⟩
    case held =>
      have hu := hexec true
      rw [State.readBase_eq, State.readDone_of_held hb hwhy, State.runJobs_nil, State.readBase_contents] at hu
      obtain ⟨u, hu, hasm, hfree, hquarantine, hch, hlink, -⟩ := exists_read_result hu (by simp) (by simp)
      exact ⟨u, hu, hasm, hfree.trans (State.readBase_free first s), hquarantine.trans (State.readBase_quarantine first s), hch.trans hsame, hlink.trans (congrArg Link.pump (State.readBase_link first s))⟩
    case segment =>
      obtain rfl := hwhy
      have hu := hexec true
      rw [State.readBase_eq, State.readDone_of_segment hb, State.runJobs_nil, State.readBase_contents] at hu
      obtain ⟨u, hu, hasm, hfree, hquarantine, hch, -, -⟩ := exists_read_result hu (by simp) (by simp)
      exact ⟨u, hu, hasm, hfree.trans (congrArg (· ++ _) (State.readBase_free first s)), hquarantine.trans (State.readBase_quarantine first s),
        hch.trans hsame⟩
    case heldDamaged =>
      have hu := hexec false
      rw [State.readBase_eq, State.readDone_of_held_damaged hb hwhy, State.runJobs_nil] at hu
      obtain ⟨u, hu, hasm, hfree, hquarantine, hch, hlink, -⟩ := exists_read_result hu (by simp) (by simp)
      refine ⟨u, hu, hasm, hquarantine.trans ?_, hfree.trans (State.readBase_free first s), hch.trans hsame, ?_⟩
      · exact congrArg (· ++ _) (State.readBase_quarantine first s)
      · rw [hlink, State.raise_link_faultCount, State.readBase_link]
    case black =>
      obtain rfl := hwhy
      have hu := hexec false
      rw [State.readBase_eq, State.readDone_of_segment_damaged, State.fillGap_of_black (by exact hgap),
        State.fallBack_black (by exact congrArg (Option.map _) hb), State.runJobs_nil] at hu
      obtain ⟨u, hu, hasm, hfree, hquarantine, hch, hlink, -⟩ := exists_read_result hu (by simp) (by simp)
      refine ⟨u, hu, hasm, hquarantine.trans ?_, hfree.trans (State.readBase_free first s), hch, ?_⟩
      · exact congrArg (· ++ _) (State.readBase_quarantine first s)
      · rw [hlink, State.raise_link_faultCount, State.readBase_link]
    case fills =>
      obtain rfl := hwhy
      intro held counted fills waits
      have hu := hexec false
      rw [State.readBase_eq, State.readDone_of_segment_damaged] at hu
      refine ⟨fun hgap => ⟨fun hnone => ?_, fun old hold hne => ?_⟩, fun page hgap hpage => ?_⟩
      · have hheldAt : (m.damaged a b).heldAt a = none := by
          rw [AsmChain.heldAt_damaged hheld hlo hhi]
          rcases hnone with h | h <;> rw [h] <;> simp
        rw [State.fillGap_of_held (by exact hgap), State.askHeld_of_none (by exact hheldAt),
          State.fallBack_black (by exact congrArg (Option.map _) hb), State.runJobs_nil] at hu
        obtain ⟨u, hu, hasm, hfree, hquarantine, hch, hlink, -⟩ := exists_read_result hu (by simp) (by simp)
        refine ⟨u, hu, hasm, hquarantine.trans ?_, hfree.trans (State.readBase_free first s), hch, ?_⟩
        · exact congrArg (· ++ _) (State.readBase_quarantine first s)
        · rw [hlink, State.raise_link_faultCount, State.readBase_link]
      · have hheldAt : (m.damaged a b).heldAt a = some old := by
          rw [AsmChain.heldAt_damaged hheld hlo hhi, hold, if_neg fun h => hne (Option.some.inj h)]
        rw [State.fillGap_of_held (by exact hgap), State.askHeld_of_held (by exact hheldAt),
          State.fallBack_waits (by exact congrArg (Option.map _) hb)] at hu
        obtain ⟨u, hu, hasm, hfree, hquarantine, hch, hlink, hreads⟩ := exists_read_result hu (by simp) (by simp)
        refine ⟨u, ⟨hu, hasm, hquarantine.trans ?_, hfree.trans ?_, hch, ?_⟩, hreads old (Pool.requestRead_spec ..)⟩
        · exact (Pool.requestRead_quarantine ..).trans (congrArg (· ++ _) (State.readBase_quarantine first s))
        · exact (Pool.requestRead_free ..).trans (State.readBase_free first s)
        · rw [hlink, State.raise_link_faultCount, State.readBase_link]
      · rw [State.fillGap_of_still (by exact hgap) (by exact hpage),
          State.fallBack_waits (by exact congrArg (Option.map _) hb)] at hu
        obtain ⟨u, hu, hasm, hfree, hquarantine, hch, hlink, -⟩ := exists_read_result hu (by simp) (by simp)
        refine ⟨u, hu, hasm, hquarantine.trans ?_, hfree.trans (State.readBase_free first s), hch, ?_⟩
        · exact congrArg (· ++ _) (State.readBase_quarantine first s)
        · rw [hlink, State.raise_link_faultCount, State.readBase_link]
  case more =>
    intro c b a brightness gap fallback why bundle first xs jobs s hbusy hb hs hwait hwhy hjobs out
    have hu := exec_emissionReadComplete_of_wait hbusy hb hs hwait true first
    rw [State.readBase_eq, State.readDone_of_held hb hwhy, hjobs, State.readBase_contents,
      State.runJobs_fixed_append rfl, List.append_assoc] at hu
    refine ⟨fun hnil => ?_, fun a₂ page brightness₂ gap₂ fallback₂ later hlater hseg => ?_,
      fun a₂ b₂ brightness₂ gap₂ fallback₂ later hlater hseg => ?_⟩
    · rw [hnil, State.runJobs_nil] at hu
      obtain ⟨u, hu, hasm, -⟩ := exists_read_result hu (by simp) (by simp)
      exact ⟨u, hu, by rw [hasm, Four.get_set_same]; rfl⟩
    · rw [hlater, State.runJobs_turn_waits (State.tileTurn_still_of_no_segment rfl (by exact hseg)) rfl] at hu
      obtain ⟨u, hu, hasm, -⟩ := exists_read_result hu (by simp) (by simp)
      exact ⟨u, hu, by rw [hasm, Four.get_set_same]; rfl⟩
    · rw [hlater, State.runJobs_turn_waits (State.tileTurn_of_segment rfl (by exact hseg)) rfl] at hu
      obtain ⟨u, hu, hasm, -, -, -, -, hreads⟩ := exists_read_result hu (by simp) (by simp)
      exact ⟨u, hu, by rw [hasm, Four.get_set_same]; rfl, hreads b₂ (Pool.requestRead_spec ..)⟩

end Sys2Proof.Machine
end

section
/-! Reads of the Stills Store for a bundle (R97, R100, R112). O35. -/

namespace Sys2Proof.Machine

section Request
variable {c : ChainId} {bundle : Bundle} {a brightness page : Nat} {gapFill : Bool} {s : State}

theorem exec_stillReadRequest_of_ask (hb : (s.asm.get c).bundle = some bundle)
    (hw : bundle.wait = .stillAsk a brightness page gapFill) :
    exec (.stillReadRequest c) s = .next (s.takeStillRead c a brightness page gapFill).ended := by
  rw [show exec (.stillReadRequest c) s = execStillReadRequest c s from rfl, execStillReadRequest, hb]
  dsimp only
  rw [hw]
  rfl

theorem State.takeStillRead_of_ready {data : List Byte} {mark : Bool} (hb : (s.asm.get c).bundle = some bundle)
    (h : s.stills.slot { page := page, chain := c, address := a } = .ready data mark) :
    s.takeStillRead c a brightness page gapFill =
      ({ s with stills := { slots := s.stills.slots.set (StillRef.index { page := page, chain := c, address := a })
                              (.ready data true),
                            reads := s.stills.reads ++ [{ page := page, chain := c, address := a }] } } : State).setAsm c
        { s.asm.get c with bundle := some { bundle with wait := .stillRead a brightness page } } := by
  rw [State.takeStillRead]
  dsimp only
  rw [h]
  show State.setAsm c { s.asm.get c with bundle := (s.asm.get c).bundle.map _ } _ = _
  rw [hb]
  rfl

/-- A slot that is not READY gives a gap's fall-back, or a STILL source's BLACK (R100, R112). -/
theorem State.takeStillRead_of_not_ready
    (h : ∀ data mark, s.stills.slot { page := page, chain := c, address := a } ≠ .ready data mark) :
    s.takeStillRead c a brightness page gapFill =
      if gapFill then
        State.fallBack c brightness
          (s.askHeld c { address := a, brightness := brightness, gap := .still, fallback := none } .gapHeld)
      else State.fallBack c brightness (s.countAsm .stillEmpty c, none) := by
  rw [State.takeStillRead]
  dsimp only
  cases hslot : s.stills.slot { page := page, chain := c, address := a } with
  | ready data mark => exact absurd hslot (h data mark)
  | empty => rfl
  | filling total data => rfl

end Request

section Complete
variable {r : StillRef} {reads : List StillRef} {s : State}

/-- A read served: its mark is removed (R112). -/
theorem State.endStillRead_of_ready {data : List Byte} {mark : Bool} (h : s.stills.slot r = .ready data mark) :
    s.endStillRead r reads =
      { s with stills := { slots := s.stills.slots.set r.index (.ready data false), reads := reads } } := by
  rw [State.endStillRead]
  dsimp only
  rw [h]
  rfl

theorem exec_stillReadComplete_of_nil (h : s.stills.reads = []) : exec .stillReadComplete s = .next s := by
  rw [show exec .stillReadComplete s = execStillReadComplete s from rfl, execStillReadComplete, h]
  rfl

theorem exec_stillReadComplete_of_wait {bundle : Bundle} {a brightness page : Nat} (h : s.stills.reads = r :: reads)
    (hb : ((s.endStillRead r reads).asm.get r.chain).bundle = some bundle) (hs : bundle.stopping = false)
    (hw : bundle.wait = .stillRead a brightness page) :
    exec .stillReadComplete s =
      .next ((s.endStillRead r reads).sendImage r.chain brightness (s.stills.slot r).data).ended := by
  rw [show exec .stillReadComplete s = execStillReadComplete s from rfl, execStillReadComplete, h]
  dsimp only
  rw [hb]
  dsimp only
  rw [hs, if_neg Bool.false_ne_true, hw]
  rfl

end Complete

/-- Settles O35: the request by its slot's state, and the completion. -/
theorem stillReadsSendTheStill : Obligations.StillReadsSendTheStill := by
  unfold Obligations.StillReadsSendTheStill
  refine ⟨?request, ?complete, fun s => exec_stillReadComplete_of_nil⟩
  case request =>
    intro c bundle a brightness page gapFill s hb hw hjobs m r black
    obtain ⟨info, gen, cmds, emitting, out, jobs, wait, stopping⟩ := bundle
    obtain rfl : jobs = [] := hjobs
    rw [exec_stillReadRequest_of_ask hb hw]
    refine ⟨fun data mark hready => ?ready, fun hnot hfill => ?empty, fun hnot hfill hnone => ?gapBlack,
      fun hnot hfill old hold => ?gapHeld⟩
    case ready => exact ended_congr (State.takeStillRead_of_ready hb hready)
    case empty =>
      subst hfill
      rw [State.takeStillRead_of_not_ready hnot, if_neg Bool.false_ne_true]
      refine ended_congr (.trans ?_ (State.atChain_eq_setAsm c _ s))
      conv_lhs => rw [← State.atChain_same c s]
      rw [State.countAsm_atChain, State.fallBack_black (by exact hb), State.runJobs_nil]
      rfl
    case gapBlack =>
      subst hfill
      rw [State.takeStillRead_of_not_ready hnot, if_pos rfl]
      refine ended_congr (.trans ?_ (State.atChain_eq_setAsm c _ s))
      conv_lhs => rw [← State.atChain_same c s]
      rw [State.askHeld_of_none (by exact hnone), State.fallBack_black (by exact hb), State.runJobs_nil]
      rfl
    case gapHeld =>
      subst hfill
      rw [State.takeStillRead_of_not_ready hnot, if_pos rfl]
      refine ended_congr (.trans ?_ (congrArg (State.setPool _) (State.atChain_eq_setAsm c _ s)))
      conv_lhs => rw [← State.atChain_same c s]
      rw [State.askHeld_of_held (by exact hold), State.fallBack_waits (by exact hb)]
      rfl
  case complete =>
    intro r reads bundle brightness data mark s hreads hready hb hs hjobs hw
    obtain ⟨info, gen, cmds, emitting, out, jobs, wait, stopping⟩ := bundle
    obtain rfl : jobs = [] := hjobs
    have hend := State.endStillRead_of_ready (reads := reads) hready
    rw [exec_stillReadComplete_of_wait hreads (by rw [hend]; exact hb) hs hw, hend, hready]
    refine ended_congr (.trans ?_ (State.atChain_eq_setAsm r.chain _
      { s with stills := { slots := s.stills.slots.set r.index (.ready data false), reads := reads } }))
    conv_lhs => rw [← State.atChain_same r.chain { s with stills := _ }]
    rw [State.sendImage_atChain (by exact hb), State.runJobs_nil]
    rfl

end Sys2Proof.Machine
end

section
/-! A deadline neither reads nor changes the probe bundles of its chain (R41): each step of it commutes with putting other
probe bundles in their place. -/

namespace Sys2Proof.Machine

/-- A Chain Manager with other probe bundles on their way. -/
def Cm.withProbes (l : List ProbeBundle) (m : Cm) : Cm := m.modify fun ch => { ch with probes := l }

section WithProbes
variable (l : List ProbeBundle) (m : Cm)

@[simp] theorem Cm.withProbes_id : (m.withProbes l).id = m.id := rfl
@[simp] theorem Cm.withProbes_out : (m.withProbes l).out = m.out := rfl
@[simp] theorem Cm.withProbes_state : (m.withProbes l).ch.state = m.ch.state := rfl
@[simp] theorem Cm.withProbes_endHop : (m.withProbes l).ch.endHop = m.ch.endHop := rfl
@[simp] theorem Cm.withProbes_probeHop : (m.withProbes l).ch.probeHop = m.ch.probeHop := rfl
@[simp] theorem Cm.withProbes_breakCount : (m.withProbes l).ch.breakCount = m.ch.breakCount := rfl
@[simp] theorem Cm.withProbes_breakLimit : (m.withProbes l).ch.breakLimit = m.ch.breakLimit := rfl
@[simp] theorem Cm.withProbes_attempt : (m.withProbes l).ch.attempt = m.ch.attempt := rfl
@[simp] theorem Cm.withProbes_brokenFrom : (m.withProbes l).ch.brokenFrom = m.ch.brokenFrom := rfl
@[simp] theorem Cm.withProbes_queue : (m.withProbes l).ch.queue = m.ch.queue := rfl
@[simp] theorem Cm.withProbes_lastPath : (m.withProbes l).ch.lastPath = m.ch.lastPath := rfl
@[simp] theorem Cm.withProbes_collect : (m.withProbes l).ch.collect = m.ch.collect := rfl
@[simp] theorem Cm.withProbes_lostHeld : (m.withProbes l).ch.lostHeld = m.ch.lostHeld := rfl
@[simp] theorem Cm.withProbes_node : (m.withProbes l).ch.node = m.ch.node := rfl
@[simp] theorem Cm.withProbes_deciding : (m.withProbes l).ch.deciding = m.ch.deciding := rfl
@[simp] theorem Cm.withProbes_comingEnd : (m.withProbes l).ch.comingEnd = m.ch.comingEnd := rfl
@[simp] theorem Cm.withProbes_positionOf : (m.withProbes l).ch.positionOf = m.ch.positionOf := rfl
@[simp] theorem Cm.withProbes_routeOf : (m.withProbes l).ch.routeOf = m.ch.routeOf := rfl
@[simp] theorem Cm.withProbes_besideFailed : (m.withProbes l).ch.besideFailed = m.ch.besideFailed := rfl
@[simp] theorem Cm.withProbes_beyond : (m.withProbes l).ch.beyond = m.ch.beyond := rfl

/-! ### What a waiting ROUTE does to the path -/

theorem Chain.takeRoute_withProbes (ch : Chain) (cmd : Cmd) :
    ({ ch with probes := l } : Chain).takeRoute cmd = { ch.takeRoute cmd with probes := l } := by
  cases cmd with
  | route a r =>
      have hdead : ({ ch with probes := l } : Chain).isDead (.route a r) = ch.isDead (.route a r) := rfl
      simp only [Chain.takeRoute, hdead]
      split
      · rfl
      · cases a with
        | none => rfl
        | some a =>
            have hnode : ({ ch with probes := l } : Chain).node a = ch.node a := rfl
            simp only [Chain.depart, Chain.updateNode, hnode]
            cases ch.node a <;> rfl
  | setEnd h on => rfl
  | configure a t x => rfl
  | enable a => rfl

theorem Chain.foldl_takeRoute_withProbes (q : List QEntry) (ch : Chain) :
    q.foldl (fun ch x => ch.takeRoute x.cmd) { ch with probes := l } =
      { q.foldl (fun ch x => ch.takeRoute x.cmd) ch with probes := l } := by
  induction q generalizing ch with
  | nil => rfl
  | cons x rest ih => rw [List.foldl_cons, List.foldl_cons, Chain.takeRoute_withProbes, ih]

theorem Chain.pathFrom_withProbes (ch : Chain) (fuel q : Nat) :
    ({ ch with probes := l } : Chain).pathFrom fuel q = ch.pathFrom fuel q := by
  induction fuel generalizing q with
  | zero => rfl
  | succ fuel ih =>
      have hat : ({ ch with probes := l } : Chain).atPosition q = ch.atPosition q := rfl
      simp only [Chain.pathFrom, hat, ih]

@[simp] theorem Cm.withProbes_nextEnd : (m.withProbes l).ch.nextEnd = m.ch.nextEnd := by
  have hpath : (m.withProbes l).ch.comingPath = m.ch.comingPath := by
    unfold Chain.comingPath
    rw [show (m.withProbes l).ch = { m.ch with probes := l } from rfl, Chain.foldl_takeRoute_withProbes]
    exact congrArg Prod.fst (Chain.pathFrom_withProbes l _ _ _)
  unfold Chain.nextEnd
  rw [hpath]
  rfl

/-! ### The steps of a deadline -/

theorem Cm.modify_withProbes {f : Chain → Chain} (h : ∀ ch, f { ch with probes := l } = { f ch with probes := l }) :
    (m.withProbes l).modify f = (m.modify f).withProbes l := congrArg (fun ch => { m with ch := ch }) (h m.ch)

theorem Cm.foldl_withProbes {α : Type} {f : Cm → α → Cm} (h : ∀ m a, f (m.withProbes l) a = (f m a).withProbes l)
    (xs : List α) : xs.foldl f (m.withProbes l) = (xs.foldl f m).withProbes l := by
  induction xs generalizing m with
  | nil => rfl
  | cons x rest ih => rw [List.foldl_cons, List.foldl_cons, h, ih]

theorem Cm.makeRoom_withProbes : (m.withProbes l).makeRoom = m.makeRoom.withProbes l := by
  by_cases hroom : m.ch.queue.length < queueSize
  · exact (if_pos hroom).trans (congrArg (Cm.withProbes l) (if_pos hroom).symm)
  · refine (if_neg hroom).trans (.trans ?_ (congrArg (Cm.withProbes l) (if_neg hroom).symm))
    rw [Cm.withProbes_queue]
    cases evictFrom m.ch.queue with
    | none => rfl
    | some x =>
        obtain ⟨x, q⟩ := x
        dsimp only
        cases x.issuer <;> rfl

theorem Cm.offerEntry_withProbes (x : QEntry) : (m.withProbes l).offerEntry x = (m.offerEntry x).withProbes l := by
  unfold Cm.offerEntry
  rw [Cm.makeRoom_withProbes]
  rfl

theorem Cm.offerRepair_withProbes (cmd : Cmd) : (m.withProbes l).offerRepair cmd = (m.offerRepair cmd).withProbes l :=
  Cm.offerEntry_withProbes l m _

theorem Cm.lose_withProbes (a : Nat) : (m.withProbes l).lose a = (m.lose a).withProbes l := by
  unfold Cm.lose
  simp only [Cm.withProbes_node]
  cases m.ch.node a <;> rfl

theorem Cm.endAtCut_withProbes (h : Nat) : (m.withProbes l).endAtCut h = (m.endAtCut h).withProbes l := by
  unfold Cm.endAtCut
  simp only [Cm.withProbes_comingEnd, Cm.withProbes_endHop, Cm.offerRepair_withProbes]
  split
  · cases m.ch.comingEnd <;> rfl
  · split <;> rfl

/-- What a cut does behind its change of END (R59, step 3). -/
def Cm.afterCut (h target : Nat) (lost : List Nat) (m : Cm) : Cm :=
  let broken := decide (m.ch.state = .broken)
  let m := m.modify fun ch => { ch.endAttempt with breakCount := 0, brokenFrom := none, state := .running }
  let m := if broken then m.chainReport .cut else m
  let m := m.fault (.chainCut h) (some target)
  lost.foldl (fun m a => m.nodeReport .cut a) m

theorem Cm.cut_eq (q h target : Nat) (m : Cm) :
    m.cut q h target =
      ((((m.ch.beyond q).foldl (fun m a => m.lose a) m).modify (Chain.updateAll (Node.cutBeyond q))).endAtCut h).afterCut h
        target (m.ch.beyond q) := rfl

theorem Cm.afterCut_withProbes (h target : Nat) (lost : List Nat) :
    (m.withProbes l).afterCut h target lost = (m.afterCut h target lost).withProbes l := by
  have reports (x : Cm) : lost.foldl (fun m a => m.nodeReport .cut a) (x.withProbes l) =
      (lost.foldl (fun m a => m.nodeReport .cut a) x).withProbes l := Cm.foldl_withProbes l x (fun _ _ => rfl) lost
  unfold Cm.afterCut
  rw [Cm.withProbes_state, ← reports]
  cases decide (m.ch.state = .broken) <;> rfl

theorem Cm.cut_withProbes (q h target : Nat) : (m.withProbes l).cut q h target = (m.cut q h target).withProbes l := by
  rw [Cm.cut_eq, Cm.cut_eq, Cm.withProbes_beyond, Cm.foldl_withProbes l m fun m a => Cm.lose_withProbes l m a,
    Cm.modify_withProbes l _ (f := Chain.updateAll (Node.cutBeyond q)) fun _ => rfl, Cm.endAtCut_withProbes,
    Cm.afterCut_withProbes]

theorem Cm.endBeforeFailed_withProbes (pred : Option Nat) (h : Nat) :
    (m.withProbes l).endBeforeFailed pred h = (m.endBeforeFailed pred h).withProbes l := by
  unfold Cm.endBeforeFailed
  simp only [Cm.withProbes_node, Cm.offerRepair_withProbes]
  split
  · split <;> rfl
  · rfl

theorem Cm.beginBypass_withProbes (target : Nat) (pred : Option Nat) (h : Nat) :
    (m.withProbes l).beginBypass target pred h = (m.beginBypass target pred h).withProbes l := by
  unfold Cm.beginBypass
  simp only [Cm.withProbes_besideFailed, Cm.withProbes_positionOf, Cm.withProbes_routeOf, Cm.withProbes_state,
    Cm.withProbes_brokenFrom, Cm.withProbes_nextEnd]
  by_cases hcut : m.ch.besideFailed (m.ch.positionOf (some target)) = true ∨ m.ch.routeOf pred ≠ .normal
  · rw [if_pos hcut, if_pos hcut, Cm.cut_withProbes, Cm.endBeforeFailed_withProbes]
  · rw [if_neg hcut, if_neg hcut]
    exact Cm.offerEntry_withProbes l (m.modify fun ch =>
      { ch with attempt := some { kind := .bypass, target := target, pred := pred, phase := .routing,
                                  trialEnd := (if m.ch.state = .broken then m.ch.brokenFrom else m.ch.nextEnd).getD 0 - 1,
                                  bundled := false, evicted := false, lapsed := false } }) _

theorem Cm.bypassFails_withProbes (t : Attempt) (path : List Place) :
    (m.withProbes l).bypassFails t path = (m.bypassFails t path).withProbes l := by
  unfold Cm.bypassFails
  rw [Cm.offerRepair_withProbes, Cm.withProbes_positionOf, Cm.cut_withProbes]

theorem Cm.reinstateFails_withProbes (t : Attempt) (path : List Place) :
    (m.withProbes l).reinstateFails t path = (m.reinstateFails t path).withProbes l := by
  unfold Cm.reinstateFails
  simp only [Cm.offerRepair_withProbes]
  split <;> rfl

theorem Cm.failEvicted_withProbes : (m.withProbes l).failEvicted = m.failEvicted.withProbes l := by
  unfold Cm.failEvicted
  simp only [Cm.withProbes_attempt, Cm.withProbes_positionOf, Cm.withProbes_lastPath, Cm.cut_withProbes]
  split
  · split
    · split <;> rfl
    · rfl
  · rfl

theorem Cm.failLapsed_withProbes : (m.withProbes l).failLapsed = m.failLapsed.withProbes l := by
  unfold Cm.failLapsed
  simp only [Cm.withProbes_attempt, Cm.withProbes_lastPath, Cm.bypassFails_withProbes, Cm.reinstateFails_withProbes]
  split
  · split
    · split <;> rfl
    · rfl
  · rfl

theorem Cm.endWalk_withProbes : (m.withProbes l).endWalk = m.endWalk.withProbes l := by
  unfold Cm.endWalk
  simp only [Cm.withProbes_probeHop]
  rw [Cm.modify_withProbes l m (f := fun ch => { ch with probeHop := none }) fun _ => rfl]
  cases m.ch.probeHop with
  | none => rfl
  | some p =>
      simp only [Cm.offerSetBack, Cm.offerWalkEnd, Cm.offerRepair_withProbes, Cm.offerEntry_withProbes]
      split <;> rfl

theorem Cm.probeBack_withProbes (info : BundleInfo) : (m.withProbes l).probeBack info = (m.probeBack info).withProbes l := by
  unfold Cm.probeBack
  simp only [Cm.withProbes_endHop, Cm.offerRepair_withProbes, Cm.beginBypass_withProbes]
  split
  · rfl
  · split
    · rfl
    · split <;> rfl

theorem Cm.countBreak_withProbes (info : BundleInfo) :
    (m.withProbes l).countBreak info = (m.countBreak info).withProbes l := by
  by_cases h : m.ch.breakCount < bump15 m.ch.breakCount ∧ m.ch.breakLimit ≤ bump15 m.ch.breakCount ∧ m.ch.attempt = none
  · refine (if_pos h).trans (.trans ?_ (congrArg (Cm.withProbes l) (if_pos h).symm))
    exact Cm.probeBack_withProbes l
      ((((m.modify fun ch => { ch with breakCount := bump15 ch.breakCount }).modify fun ch =>
        { ch with state := .broken, brokenFrom := ch.endHop }).fault (.chainBroken m.ch.endHop) none).chainReport .broken) info
  · refine (if_neg h).trans (.trans ?_ (congrArg (Cm.withProbes l) (if_neg h).symm))
    rfl

theorem Cm.missing_withProbes : (m.withProbes l).missing = m.missing.withProbes l := by
  unfold Cm.missing
  simp only [Cm.withProbes_collect]
  cases m.ch.collect with
  | none => rfl
  | some k =>
      dsimp only
      rw [Cm.modify_withProbes l m (f := fun ch =>
        { ch with collect := none, counters := { ch.counters with missing := bump16 ch.counters.missing } }) fun _ => rfl]
      simp only [Cm.withProbes_state, Cm.withProbes_deciding, Cm.withProbes_attempt, Cm.endWalk_withProbes,
        Cm.bypassFails_withProbes, Cm.reinstateFails_withProbes, Cm.countBreak_withProbes, Cm.probeBack_withProbes]
      split
      · rfl
      · rfl
      · split
        · split <;> rfl
        · rfl
      · split
        · rfl
        · split
          · split <;> rfl
          · rfl
      · rfl
      · rfl

/-- A deadline leaves the probe bundles as they are, and takes nothing from them. -/
theorem Cm.deadline_withProbes : (m.withProbes l).deadline = m.deadline.withProbes l := by
  unfold Cm.deadline
  rw [Cm.missing_withProbes, Cm.failEvicted_withProbes, Cm.failLapsed_withProbes]

end WithProbes

end Sys2Proof.Machine
end

section
/-! Bundles that leave and bundles that are stopped (R41, R95, R105). O36. -/

namespace Sys2Proof.Machine

/-! ### The collection of a return begins (R41) -/

/-- The chain record when a bundle has left: its return is collected if END is designated; a deciding bundle without END marks
its attempt (log 16). -/
def Chain.collecting (info : BundleInfo) (ch : Chain) : Chain :=
  match ch.endHop, ch.attempt with
  | some _, _ => { ch with collect := some { info := info, stopped := false, bytes := [], blocks := [] } }
  | none, some t => if info.deciding ∧ t.bundled then { ch with attempt := some { t with lapsed := true } } else ch
  | none, none => ch

theorem Cm.beginCollect_eq (info : BundleInfo) (m : Cm) : m.beginCollect info = m.modify (Chain.collecting info) := by
  have keep (h : m.ch.collecting info = m.ch) : m = m.modify (Chain.collecting info) := by rw [Cm.modify, h]
  unfold Cm.beginCollect
  cases hend : m.ch.endHop with
  | some k => exact (if_pos rfl).trans (by rw [Cm.modify, Cm.modify, Chain.collecting, hend])
  | none =>
      refine (if_neg Bool.false_ne_true).trans ?_
      unfold Chain.deciding
      cases hat : m.ch.attempt with
      | none =>
          rw [show (if info.deciding then (none : Option Attempt).filter (fun t => t.bundled) else none) = none by
            split <;> rfl]
          exact keep (by rw [Chain.collecting, hend, hat])
      | some t =>
          by_cases hd : info.deciding ∧ t.bundled
          · rw [if_pos hd.1, Option.filter_some, if_pos hd.2]
            dsimp only
            rw [Cm.modify, Cm.modify, Chain.collecting, hend, hat]
            dsimp only
            rw [if_pos hd]
          · have hkeep := keep (by
              rw [Chain.collecting, hend, hat]
              exact if_neg hd)
            by_cases hi : info.deciding = true
            · rw [if_pos hi, Option.filter_some, if_neg fun hb => hd ⟨hi, hb⟩]
              exact hkeep
            · rw [if_neg hi]
              exact hkeep

theorem Cm.token_of_none {m : Cm} (h : m.ch.collect = none) (info : BundleInfo) :
    m.token info = m.modify (Chain.collecting info) := by
  rw [Cm.token, h]
  exact (if_neg Bool.false_ne_true).trans (Cm.beginCollect_eq info m)

theorem Cm.token_of_collect {m : Cm} (h : m.ch.collect ≠ none) (info : BundleInfo) :
    m.token info = m.deadline.flushLost.modify (Chain.collecting info) := by
  rw [Cm.token, if_pos (Option.isSome_iff_ne_none.2 h), Cm.beginCollect_eq]

/-! ### The Chain Manager's event beside the assembler's -/

theorem State.deliverCm_asm (c : ChainId) (s : State) (o : CmOut) : (s.deliverCm c o).asm = s.asm := by
  cases o <;> rfl

theorem State.deliverCm_setAsm (c d : ChainId) (a : AsmChain) (s : State) (o : CmOut) :
    (s.setAsm d a).deliverCm c o = (s.deliverCm c o).setAsm d a := by
  cases o <;> rfl

theorem State.deliverCm_setChain (c d : ChainId) (ch : Chain) (s : State) (o : CmOut) :
    (s.setChain d ch).deliverCm c o = (s.deliverCm c o).setChain d ch := by
  cases o <;> rfl

section Deliver
variable (c d : ChainId) (l : List CmOut) (s : State)

theorem State.deliverAll_asm : (l.foldl (State.deliverCm c) s).asm = s.asm := by
  induction l generalizing s with
  | nil => rfl
  | cons o l ih => exact (ih _).trans (State.deliverCm_asm c s o)

theorem State.deliverAll_setAsm (a : AsmChain) :
    l.foldl (State.deliverCm c) (s.setAsm d a) = (l.foldl (State.deliverCm c) s).setAsm d a := by
  induction l generalizing s with
  | nil => rfl
  | cons o l ih => rw [List.foldl_cons, State.deliverCm_setAsm, ih]; rfl

theorem State.deliverAll_setChain (ch : Chain) :
    l.foldl (State.deliverCm c) (s.setChain d ch) = (l.foldl (State.deliverCm c) s).setChain d ch := by
  induction l generalizing s with
  | nil => rfl
  | cons o l ih => rw [List.foldl_cons, State.deliverCm_setChain, ih]; rfl

end Deliver

theorem State.manage_asm (c : ChainId) (f : Cm → Cm) (s : State) : (s.manage c f).asm = s.asm := by
  rw [State.manage_eq, State.deliverAll_asm]
  rfl

/-- What a lost node's notice tells the Runners (R49). -/
def LostNode.message (x : LostNode) : RunnerMsg := .lost x.address x.kind x.reachable x.since

theorem State.deliver_lost (c : ChainId) (xs : List LostNode) (s : State) :
    (xs.map LostNode.notice).foldl (State.deliverCm c) s =
      s.setMail { s.mail with notices := s.mail.notices.set c (s.mail.notices.get c ++ xs.map LostNode.message) } := by
  induction xs generalizing s with
  | nil =>
      rw [List.map_nil, List.map_nil, List.append_nil, Four.set_get]
      rfl
  | cons x rest ih =>
      rw [List.map_cons, List.foldl_cons, ih]
      simp [State.deliverCm, LostNode.notice, LostNode.message, State.setMail]

theorem Link.pump_pump (l : Link) : l.pump.pump = l.pump := by
  unfold Link.pump
  cases htx : l.tx with
  | some x => simp [htx]
  | none =>
      cases hrate : l.rate with
      | none => simp [htx, hrate]
      | some r =>
          cases hready : l.ready with
          | cons x rest => simp
          | nil =>
              cases hreset : l.resetting with
              | true => simp [htx, hrate, hready, hreset]
              | false =>
                  cases hreports : l.reports with
                  | nil => simp [htx, hrate, hready, hreset, hreports]
                  | cons x rest => simp

theorem State.manage_setAsm (c : ChainId) (f : Cm → Cm) (left : AsmChain) (s : State) :
    (s.setAsm c left).manage c f = (s.manage c f).setAsm c left := by
  rw [State.manage_eq, State.manage_eq, ← State.deliverAll_setAsm]
  rfl

/-- A chain's event that goes on behind its deadline: what the deadline hands on, then the notices of the nodes it lost. -/
theorem State.manage_deadline {c : ChainId} {f : Cm → Cm} {g : Chain → Chain} {s : State}
    (hch : (f (s.manager c)).ch = g { (s.manager c).deadline.ch with lostHeld := [] })
    (hout : (f (s.manager c)).out =
      (s.manager c).deadline.out ++ (s.manager c).deadline.ch.lostHeld.map LostNode.notice) :
    (s.manage c f).ended =
      (((s.manage c Cm.deadline).ended.setChain c
        (g { (s.manage c Cm.deadline).ended.chains.get c with lostHeld := [] })).setMail
          { (s.manage c Cm.deadline).ended.mail with
            notices := (s.manage c Cm.deadline).ended.mail.notices.set c
              ((s.manage c Cm.deadline).ended.mail.notices.get c ++
                ((s.manage c Cm.deadline).ended.chains.get c).lostHeld.map LostNode.message) }).ended := by
  have hdeadline : (s.manage c Cm.deadline).ended.chains.get c = (s.manager c).deadline.ch := State.manage_chain c _ s
  have hmanage : s.manage c f =
      ((s.manage c Cm.deadline).setChain c (g { (s.manager c).deadline.ch with lostHeld := [] })).setMail
        { (s.manage c Cm.deadline).mail with
          notices := (s.manage c Cm.deadline).mail.notices.set c
            ((s.manage c Cm.deadline).mail.notices.get c ++
              (s.manager c).deadline.ch.lostHeld.map LostNode.message) } := by
    rw [State.manage_eq, hch, hout, List.foldl_append, State.deliver_lost, State.deliverAll_setChain,
      State.manage_eq c Cm.deadline, State.deliverAll_setChain]
    simp [State.setChain, State.setMail]
  rw [hdeadline, hmanage]
  simp [State.ended, State.setMail, State.setChain, Link.pump_pump]

end Sys2Proof.Machine
end

section
/-! Bundles that leave and bundles that are stopped, continued (R41, R95, R105). O36. -/

namespace Sys2Proof.Machine

/-! ### RETURN_TOKEN_SENT -/

theorem State.resumeOrders_of_nil {c : ChainId} {s : State} (h : (s.asm.get c).waiting = []) : s.resumeOrders c = s := by
  have hsame : ({ s.asm.get c with waiting := [] } : AsmChain) = s.asm.get c :=
    congrArg (fun l => ({ s.asm.get c with waiting := l } : AsmChain)) h.symm
  rw [State.resumeOrders, h, State.takeWaiting, State.updAsm, hsame, Four.set_get]

/-- A chain's share when its bundle has left. -/
def AsmChain.bundleLeft (m : AsmChain) : AsmChain :=
  { m with bundle := none, counters := { m.counters with bundles := bump16 m.counters.bundles } }

section Token
variable {c : ChainId} {s : State}

theorem exec_returnTokenSent_of_bundle {b : Bundle} (hb : (s.asm.get c).bundle = some b) (hw : b.wait = .token)
    (hs : b.stopping = false) (hnil : (s.asm.get c).waiting = []) :
    exec (.returnTokenSent c) s = .next ((s.setAsm c (s.asm.get c).bundleLeft).manage c (Cm.token b.info)).ended := by
  have hleft : (s.updAsm c fun m => { m with bundle := none }).countAsm .bundles c = s.setAsm c (s.asm.get c).bundleLeft := by
    simp [State.updAsm, State.countAsm, State.setAsm, AsmChain.bundleLeft, AsmChain.count, AsmCounters.bump]
  rw [show exec (.returnTokenSent c) s = execReturnTokenSent c s from rfl, execReturnTokenSent, hb]
  refine (if_pos ⟨hw, hs⟩).trans (ended_congr ?_)
  rw [hleft]
  refine State.resumeOrders_of_nil ?_
  rw [State.manage_asm, State.setAsm, Four.get_set_same]
  exact hnil

theorem exec_returnTokenSent_of_probe {p : ProbeBundle} {probes : List ProbeBundle} (hb : (s.asm.get c).bundle = none)
    (hp : (s.chains.get c).probes = p :: probes) (hnil : (s.asm.get c).waiting = []) :
    exec (.returnTokenSent c) s = .next (s.manage c fun m => (m.withProbes probes).token p.info).ended := by
  rw [show exec (.returnTokenSent c) s = execReturnTokenSent c s from rfl, execReturnTokenSent, hb]
  dsimp only
  rw [hp]
  refine ended_congr (State.resumeOrders_of_nil ?_)
  rw [State.manage_asm]
  exact hnil

end Token

/-! ### The orders of a FAULTED chain (R105) -/

section Stop
variable {c : ChainId}

/-- Orders that waited, taken as NONE orders over an empty share, take a post each and do no more. -/
theorem State.takeWaiting_asNone (os : List FrameOrder) {p : Pool} {m : AsmChain} {ch : Chain} {s : State}
    (hslots : m.slots = []) (hheld : ∀ a, m.heldAt a = none) (hb : m.bundle = none)
    (h : os = [] ∨ (m.clearDue = false ∧ ch.probes = [])) :
    ∃ last, (s.atChain c p m ch).takeWaiting c (os.map FrameOrder.asNone) =
      s.atChain c p { m with posts := m.posts.drop os.length, lastPost := last, waiting := [] } ch := by
  induction os generalizing m with
  | nil => exact ⟨m.lastPost, State.updAsm_atChain ..⟩
  | cons o rest ih =>
      obtain ⟨hdue, hprobes⟩ := h.resolve_left (List.cons_ne_nil o rest)
      have hfree : (s.atChain c p m ch).bundleLeaving c = false := by
        rw [State.bundleLeaving_atChain, hb, hprobes]
        rfl
      have hch : ({ ch with probes := markOrdered o.asNone.frame ch.probes } : Chain) = ch := by
        rw [hprobes]
        exact congrArg (fun l => ({ ch with probes := l } : Chain)) hprobes.symm
      have htaken : (s.atChain c p m ch).takeOrder c o.asNone = s.atChain c p m.takePost ch := by
        rw [State.takeOrder_eq, State.orderTaken_atChain, hch,
          State.clearShare_of_not_due (by rw [State.atChain_asm_same]; exact hdue),
          State.carryOut_none_of_empty rfl hslots hheld]
      obtain ⟨last, hlast⟩ := ih (m := m.takePost) (m.takePost_slots.trans hslots)
        (fun a => (m.takePost_heldAt a).trans (hheld a)) (by rw [AsmChain.takePost_eq]; exact hb)
        (.inr (by rw [AsmChain.takePost_eq]; exact ⟨hdue, hprobes⟩))
      refine ⟨last, ?_⟩
      rw [List.map_cons, State.takeWaiting, hfree, if_neg Bool.false_ne_true, htaken, hlast, AsmChain.takePost_eq,
        List.length_cons]
      simp

/-- The buffers of a bundle's emitting set, in path order (R105). -/
def Bundle.segments (b : Bundle) : List Nat := b.info.path.filterMap fun p => p.address.bind b.segmentOf

/-- The buffers that a chain's bundle holds. -/
def AsmChain.segments (m : AsmChain) : List Nat := (m.bundle.map Bundle.segments).getD []

theorem AsmCounters.bump_returned_length (bs : List Nat) (x : AsmCounters) :
    (AsmCounters.bump .returned)^[bs.length] x = { x with returned := bump16By bs.length x.returned } :=
  AsmCounters.bump_returned_iterate _ _

/-- A chain's share with its bundle's emitting set given back. -/
def AsmChain.withoutBundle (m : AsmChain) : AsmChain :=
  { m with bundle := none,
           counters := { m.counters with returned := bump16By m.segments.length m.counters.returned } }

theorem State.finishStop_eq (c : ChainId) (s : State) :
    s.finishStop c =
      let t := (s.asm.get c).segments.foldl (State.giveUp .returned c) s
      let u := (t.updAsm c fun m => { m with bundle := none }).giveBack c t.e
      u.takeWaiting c ((u.asm.get c).waiting.map FrameOrder.asNone) := by
  unfold State.finishStop AsmChain.segments
  cases (s.asm.get c).bundle <;> rfl

/-- Everything a FAULTED chain holds goes back, and its orders are taken as NONE orders (R105). -/
theorem State.finishStop_atChain {p : Pool} {m : AsmChain} {ch : Chain} {s : State}
    (h : m.waiting = [] ∨ (m.clearDue = false ∧ ch.probes = [])) :
    ∃ last counters, (s.atChain c p m ch).finishStop c =
      s.atChain c (p.freed (m.segments ++ m.buffersFrom s.e))
        { m with slots := [], held := List.replicate 30 none, bundle := none, posts := m.posts.drop m.waiting.length,
                 lastPost := last, waiting := [], counters := counters } ch := by
  have hgiven : (s.atChain c p m ch).finishStop c =
      (s.atChain c ((p.freed m.segments).freed (m.buffersFrom s.e)) (m.withoutBundle.emptied s.e) ch).takeWaiting c
        (m.waiting.map FrameOrder.asNone) := by
    rw [State.finishStop_eq, State.atChain_asm_same]
    dsimp only
    rw [State.foldl_giveUp_atChain, State.updAsm_atChain, AsmCounters.bump_returned_iterate, State.giveBack_atChain,
      State.atChain_asm_same]
    rfl
  obtain ⟨last, hlast⟩ := State.takeWaiting_asNone (c := c) (p := (p.freed m.segments).freed (m.buffersFrom s.e)) (ch := ch)
    (s := s) (m := m.withoutBundle.emptied s.e) m.waiting rfl (AsmChain.emptied_heldAt _ _) rfl h
  exact ⟨last, _, hgiven.trans (hlast.trans (by rw [Pool.freed_freed]; rfl))⟩

/-! ### FAULTED_NOTICE (R105) -/

/-- What a stopped bundle leaves of its chain: everything given back. -/
structure Stopped (c : ChainId) (s u : State) (freed : List Nat) : Prop where
  bundle : (u.asm.get c).bundle = none
  slots : (u.asm.get c).slots = []
  held : ∀ a, (u.asm.get c).heldAt a = none
  waiting : (u.asm.get c).waiting = []
  posts : (u.asm.get c).posts = (s.asm.get c).posts.drop (s.asm.get c).waiting.length
  free : u.pool.free = s.pool.free ++ freeTail freed
  others : ∀ d, d ≠ c → u.asm.get d = s.asm.get d
  chains : u.chains = s.chains

/-- The end of a stop, for a state that differs from `s` outside the assembler and the chains only. -/
theorem State.finishStop_stopped {s t : State} (hasm : t.asm = s.asm) (hch : t.chains = s.chains)
    (hfree : t.pool.free = s.pool.free) (he : t.e = s.e)
    (h : (s.asm.get c).waiting = [] ∨ ((s.asm.get c).clearDue = false ∧ (s.chains.get c).probes = [])) :
    ∃ m, t.finishStop c =
        t.atChain c (t.pool.freed ((s.asm.get c).segments ++ (s.asm.get c).buffersFrom s.e)) m (s.chains.get c) ∧
      Stopped c s (t.finishStop c) ((s.asm.get c).segments ++ (s.asm.get c).buffersFrom s.e) := by
  obtain ⟨last, counters, hstop⟩ := State.finishStop_atChain (c := c) (p := t.pool) (s := t) h
  rw [← hasm, ← hch, State.atChain_same, hasm, hch, he] at hstop
  refine ⟨_, hstop, ?_⟩
  rw [hstop]
  constructor
  case held =>
    intro a
    rw [State.atChain_asm_same]
    exact AsmChain.heldAt_replicate rfl a
  case free => exact congrArg (· ++ _) hfree
  case others =>
    intro d hd
    rw [State.atChain_asm, Four.get_set_ne _ hd, hasm]
  case chains => rw [State.atChain_chains, hch, Four.set_get]
  all_goals rw [State.atChain_asm_same]

section Exec
variable {orders : List AsmMsg} {s : State}

theorem exec_faultedNotice_of_none (ho : s.mail.orders.get c = .faulted :: orders) (hb : (s.asm.get c).bundle = none) :
    exec (.faultedNotice c) s = .next ((s.setOrders c orders).finishStop c).ended := by
  rw [show exec (.faultedNotice c) s = execFaultedNotice c s from rfl, execFaultedNotice, ho]
  dsimp only
  rw [show ((s.setOrders c orders).asm.get c).bundle = none from hb]
  rfl

theorem exec_faultedNotice_of_bundle {b : Bundle} (ho : s.mail.orders.get c = .faulted :: orders)
    (hb : (s.asm.get c).bundle = some b) :
    exec (.faultedNotice c) s = .next ((s.setOrders c orders).stopBundle c b).ended := by
  rw [show exec (.faultedNotice c) s = execFaultedNotice c s from rfl, execFaultedNotice, ho]
  dsimp only
  rw [show ((s.setOrders c orders).asm.get c).bundle = some b from hb]
  rfl

end Exec

section StopBundle
variable {s : State} {b : Bundle}

theorem State.stopBundle_of_token (h : b.wait = .token) : s.stopBundle c b = s.finishStop c := by
  rw [State.stopBundle, h]

theorem State.stopBundle_of_ask {a x p : Nat} {g : Bool} (h : b.wait = .stillAsk a x p g) :
    s.stopBundle c b = s.finishStop c := by
  rw [State.stopBundle, h]

theorem Pool.readingFor_of_read {p : Pool} {y : Nat} (h : p.busy = some (.read c y)) : p.readingFor c = true := by
  rw [Pool.readingFor, h]
  exact decide_eq_true rfl

theorem Pool.readingFor_of_none {p : Pool} (h : ∀ y, p.busy ≠ some (.read c y)) : p.readingFor c = false := by
  rw [Pool.readingFor]
  cases hbusy : p.busy with
  | none => rfl
  | some op =>
      cases op with
      | read k y => exact decide_eq_false fun hk => h y (hk ▸ hbusy)
      | store e => rfl
      | test y => rfl

section MemRead
variable {a x buffer : Nat} {gap : GapPolicy} {fallback : Option Nat} {why : ReadWhy}

theorem State.stopBundle_of_reading (h : b.wait = .memRead a x gap fallback buffer why) {y : Nat}
    (hr : s.pool.busy = some (.read c y)) : s.stopBundle c b = s.updBundle c fun b => { b with stopping := true } := by
  rw [State.stopBundle, h]
  exact if_pos (Pool.readingFor_of_read hr)

theorem State.stopBundle_of_waiting_read (h : b.wait = .memRead a x gap fallback buffer why)
    (hr : ∀ y, s.pool.busy ≠ some (.read c y)) :
    s.stopBundle c b =
      (s.setPool { s.pool with reads := s.pool.reads.filter fun r => decide (r.1 ≠ c) }).finishStop c := by
  rw [State.stopBundle, h]
  exact if_neg (ne_true_of_eq_false (Pool.readingFor_of_none hr))

end MemRead

section StillRead
variable {a x p : Nat}

theorem State.stopBundle_of_serving (h : b.wait = .stillRead a x p)
    (hr : s.stills.reads.head? = some { page := p, chain := c, address := a }) :
    s.stopBundle c b = s.updBundle c fun b => { b with stopping := true } := by
  rw [State.stopBundle, h]
  exact if_pos hr

theorem State.stopBundle_of_waiting_still (h : b.wait = .stillRead a x p)
    (hr : s.stills.reads.head? ≠ some { page := p, chain := c, address := a }) :
    s.stopBundle c b =
      ({ s with stills := s.stills.withdraw { page := p, chain := c, address := a } } : State).finishStop c := by
  rw [State.stopBundle, h]
  exact if_neg hr

theorem Stills.withdraw_of_ready {st : Stills} {r : StillRef} {data : List Byte} {mark : Bool}
    (h : st.slot r = .ready data mark) :
    st.withdraw r = { slots := st.slots.set r.index (.ready data false), reads := st.reads.erase r } := by
  rw [Stills.withdraw]
  rw [show Stills.slot { st with reads := st.reads.erase r } r = .ready data mark from h]
  rfl

end StillRead

/-- A stopped bundle marked, and nothing more. -/
theorem State.updBundle_stopping (hb : (s.asm.get c).bundle = some b) :
    (s.updBundle c fun b => { b with stopping := true }) =
      s.setAsm c { s.asm.get c with bundle := some { b with stopping := true } } := by
  rw [State.updBundle, State.updAsm, hb]
  rfl

end StopBundle

end Stop

/-! ### A stopped bundle's read completes (R105) -/

theorem State.finishRead_of_stopping {c : ChainId} {b : Nat} {bundle : Bundle} {s : State}
    (hb : (s.asm.get c).bundle = some bundle) (hs : bundle.stopping = true) (ok : Bool) :
    s.finishRead c b ok = s.finishStop c := by
  rw [State.finishRead, hb]
  exact if_pos hs

theorem exec_stillReadComplete_of_stopping {r : StillRef} {reads : List StillRef} {bundle : Bundle} {s : State}
    (h : s.stills.reads = r :: reads) (hb : (s.asm.get r.chain).bundle = some bundle) (hs : bundle.stopping = true) :
    exec .stillReadComplete s = .next ((s.endStillRead r reads).finishStop r.chain).ended := by
  rw [show exec .stillReadComplete s = execStillReadComplete s from rfl, execStillReadComplete, h]
  dsimp only
  rw [show ((s.endStillRead r reads).asm.get r.chain).bundle = some bundle from hb]
  exact if_pos hs

/-- Settles O36: the token by what is still collected, the notice by what the bundle waits for. -/
theorem bundlesLeaveOrAreStopped : Obligations.BundlesLeaveOrAreStopped := by
  unfold Obligations.BundlesLeaveOrAreStopped
  refine ⟨?token, ?faulted, ?waiting, ?stopping⟩
  case token =>
    intro c s hnil m ch collects left lost
    refine ⟨fun hnone => ⟨fun b hb hw hs => ?_, fun p probes hb hp => ?_⟩, fun hsome hpending hticks => ?_,
      fun k hk hrun hat hlost hle hfew => ?_⟩
    · rw [exec_returnTokenSent_of_bundle hb hw hs hnil]
      exact ended_congr (State.manage_of_silent (Cm.token_of_none (by exact hnone) _))
    · rw [exec_returnTokenSent_of_probe hb hp hnil]
      exact ended_congr (State.manage_of_silent (Cm.token_of_none (by exact hnone) _))
    · obtain ⟨k, hk⟩ := Option.ne_none_iff_exists'.1 hsome
      refine ⟨_, exec_returnDeadline_of_due hk hpending hticks, ?_⟩
      intro notices
      refine ⟨fun b hb hw hs => ?_, fun p probes hb hp => ?_⟩
      · rw [exec_returnTokenSent_of_bundle hb hw hs hnil]
        have htoken := Cm.token_of_collect (m := (s.setAsm c left).manager c) (by exact hsome) b.info
        rw [Cm.flushLost_eq] at htoken
        refine congrArg Host.Outcome.next ((State.manage_deadline (s := s.setAsm c left) (g := Chain.collecting b.info)
          (congrArg Cm.ch htoken) (congrArg Cm.out htoken)).trans ?_)
        rw [State.manage_setAsm]
        rfl
      · rw [exec_returnTokenSent_of_probe hb hp hnil]
        have htoken := Cm.token_of_collect (m := (s.manager c).withProbes probes) (by exact hsome) p.info
        rw [Cm.deadline_withProbes, Cm.flushLost_eq] at htoken
        exact congrArg Host.Outcome.next (State.manage_deadline
          (g := fun ch => Chain.collecting p.info { ch with probes := probes })
          (congrArg Cm.ch htoken) (congrArg Cm.out htoken))
    · intro missed
      have hmissed (l : List ProbeBundle) (info : BundleInfo) :
          Cm.token info ((s.manager c).withProbes l) =
            { s.manager c with ch := collects info { missed with probes := l } } := by
        have hdeadline : ((s.manager c).withProbes l).deadline =
            (((s.manager c).withProbes l).modify Chain.withMissing).modify Chain.breakCounted :=
          Cm.deadline_of_missing ((Cm.missing_of_running (by exact hk) (by exact hrun) (by exact hat)).trans
            (Cm.countBreak_of_few (by exact hfew) (by exact hle) k.info)) fun t ht => by cases hat.symm.trans ht
        rw [Cm.token_of_collect (by exact fun h => by cases hk.symm.trans h), hdeadline,
          Cm.flushLost_of_nil (by exact hlost)]
        have hbump : bump15 ch.breakCount = min (ch.breakCount + 1) 15 := bump15_eq_min hle
        exact congrArg (fun n => ({ s.manager c with
          ch := collects info { missed with probes := l, breakCount := n } } : Cm)) hbump
      refine ⟨fun b hb hw hs => ?_, fun p probes hb hp => ?_⟩
      · rw [exec_returnTokenSent_of_bundle hb hw hs hnil]
        exact ended_congr (State.manage_of_silent (hmissed ch.probes b.info))
      · rw [exec_returnTokenSent_of_probe hb hp hnil]
        exact ended_congr (State.manage_of_silent (hmissed probes p.info))
  case faulted =>
    intro c orders s ho m hwait given stopped emitting marked
    have stop (t : State) (first : List Nat) (hexec : exec (.faultedNotice c) s = .next (t.finishStop c).ended)
        (hsegments : m.segments = first) (hasm : t.asm = s.asm) (hch : t.chains = s.chains)
        (hpool : t.pool = { s.pool with reads := t.pool.reads }) (he : t.e = s.e)
        (hmail : t.mail = { s.mail with orders := s.mail.orders.set c orders }) : stopped first t.pool.reads t.stills := by
      obtain ⟨m', hstop, h⟩ := State.finishStop_stopped hasm hch (by rw [hpool]) he hwait
      refine ⟨_, hexec, h.bundle, h.slots, h.held, h.waiting, h.posts, h.free.trans ?_, ?_, ?_, ?_, h.others, h.chains, ?_, ?_⟩
      · rw [show given first = freeTail _ from rfl, List.append_assoc, ← hsegments]
        rfl
      · rw [State.ended_pool, hstop]
        rfl
      · rw [State.ended_pool, hstop, hpool]
        rfl
      · rw [State.ended_pool, hstop, hpool]
        rfl
      · rw [State.ended_stills, hstop]
        rfl
      · rw [State.ended_mail, hstop, State.atChain_mail, hmail]
        exact Four.get_set_same _ _ _
    refine ⟨fun hb => ?_, fun b hb => ?_⟩
    · have hnone : m.segments = [] := by rw [AsmChain.segments, hb]; rfl
      exact stop (s.setOrders c orders) [] (exec_faultedNotice_of_none ho hb) hnone rfl rfl rfl rfl rfl
    · have hsome : m.segments = emitting b := by rw [AsmChain.segments, hb]; rfl
      have hexec := exec_faultedNotice_of_bundle ho hb
      have hmarked : (s.setOrders c orders).updBundle c (fun b => { b with stopping := true }) =
          (s.setOrders c orders).setAsm c { m with bundle := some { b with stopping := true } } :=
        State.updBundle_stopping (by exact hb)
      refine ⟨?_, fun a x gap fallback buffer why hw => ⟨fun hr => ?_, fun y hr => ?_⟩, fun a x p hw => ?_⟩
      · rintro (hw | ⟨a, x, p, g, hw⟩)
        · rw [State.stopBundle_of_token hw] at hexec
          exact stop (s.setOrders c orders) _ hexec hsome rfl rfl rfl rfl rfl
        · rw [State.stopBundle_of_ask hw] at hexec
          exact stop (s.setOrders c orders) _ hexec hsome rfl rfl rfl rfl rfl
      · rw [State.stopBundle_of_waiting_read hw (by exact hr)] at hexec
        exact stop ((s.setOrders c orders).setPool _) _ hexec hsome rfl rfl rfl rfl rfl
      · rw [State.stopBundle_of_reading hw (by exact hr), hmarked] at hexec
        exact hexec
      · intro r
        refine ⟨fun hr => ?_, fun data mark hr hready => ?_⟩
        · rw [State.stopBundle_of_serving hw (by exact hr), hmarked] at hexec
          exact hexec
        · rw [State.stopBundle_of_waiting_still hw (by exact hr), Stills.withdraw_of_ready (by exact hready)] at hexec
          exact stop { s.setOrders c orders with stills := _ } _ hexec hsome rfl rfl rfl rfl rfl
  case waiting =>
    intro c orders s ho m hb hdue hprobes
    have hnone : m.segments = [] := by rw [AsmChain.segments, hb]; rfl
    obtain ⟨m', hstop, h⟩ := State.finishStop_stopped (c := c) (s := s) (t := s.setOrders c orders) rfl rfl rfl rfl
      (.inr ⟨hdue, hprobes⟩)
    refine ⟨_, exec_faultedNotice_of_none ho hb, h.waiting, h.bundle, h.slots, h.held, h.posts, h.chains, h.free.trans ?_, ?_⟩
    · rw [show (s.asm.get c).segments = [] from hnone, List.nil_append]
      rfl
    · rw [State.ended_mail, hstop]
      exact Four.get_set_same _ _ _
  case stopping =>
    intro c b s hb hs m hwait freed ends
    have hsome : m.segments = b.segments := by rw [AsmChain.segments, hb]; rfl
    have hfreed : m.segments ++ m.buffersFrom s.e = freed := by
      rw [hsome]
      exact (List.append_assoc _ _ _).symm
    refine ⟨fun y ok first hbusy => ?_, fun r reads hreads hr => ?_⟩
    · have hexec := exec_emissionReadComplete_of_read hbusy ok first
      rw [State.finishRead_of_stopping (by rw [State.readBase_asm]; exact hb) hs] at hexec
      obtain ⟨m', hstop, h⟩ := State.finishStop_stopped (c := c) (s := s) (t := s.readBase first) (by simp) (by simp)
        (by simp) (by cases first <;> rfl) hwait
      refine ⟨_, hexec, ?_⟩
      rw [State.ended_asm, State.ended_pool, State.ended_chains, State.readEnd_asm, State.readEnd_chains,
        State.readEnd_free, State.readEnd_quarantine]
      refine ⟨h.bundle, h.slots, h.held, h.waiting, h.posts, h.free.trans ?_, ?_, h.chains, h.others⟩
      · rw [← hfreed]
        rfl
      · rw [hstop]
        exact State.readBase_quarantine first s
    · subst hr
      have hexec := exec_stillReadComplete_of_stopping hreads hb hs
      obtain ⟨m', hstop, h⟩ := State.finishStop_stopped (c := r.chain) (s := s) (t := s.endStillRead r reads) rfl rfl rfl rfl
        hwait
      refine ⟨_, hexec, h.bundle, h.slots, h.held, h.waiting, h.posts, h.free.trans ?_, ?_, h.chains, h.others⟩
      · rw [← hfreed]
        rfl
      · rw [State.ended_pool, hstop]
        rfl

end Sys2Proof.Machine
end

section
/-! The Scene Table: the entries after a list of updates, the entries a selector names, writes and notices (R116 to R126,
R131, R132). O39, O40. -/

namespace Sys2Proof.Machine

/-! ### Entries -/

theorem NodeRef.index_lt {r : NodeRef} (hr : r.address ≤ 30) : r.index < 120 := by
  have := r.chain.isLt
  unfold NodeRef.index
  omega

theorem NodeRef.index_inj {r t : NodeRef} (hr : 1 ≤ r.address ∧ r.address ≤ 30) (ht : 1 ≤ t.address ∧ t.address ≤ 30)
    (h : r.index = t.index) : r = t := by
  obtain ⟨c, a⟩ := r
  obtain ⟨d, b⟩ := t
  have hcd : c.val = d.val ∧ a = b := by
    unfold NodeRef.index at h
    dsimp only at h hr ht
    omega
  rw [Fin.ext hcd.1, hcd.2]

theorem Scene.entry_update_same {sc : Scene} {r : NodeRef} (hlen : sc.entries.length = 120) (hr : r.address ≤ 30)
    (f : SceneEntry → SceneEntry) : (sc.update r f).entry r = f (sc.entry r) := by
  have hi : r.index < sc.entries.length := hlen ▸ NodeRef.index_lt hr
  rw [Scene.entry, Scene.update, Scene.setEntry, List.getD_eq_getElem?_getD, List.getElem?_set_self hi, Option.getD_some]

theorem Scene.entry_update_ne {sc : Scene} {r t : NodeRef} (hr : 1 ≤ r.address ∧ r.address ≤ 30)
    (ht : 1 ≤ t.address ∧ t.address ≤ 30) (hne : t ≠ r) (f : SceneEntry → SceneEntry) :
    (sc.update r f).entry t = sc.entry t := by
  have hi : r.index ≠ t.index := fun h => hne (NodeRef.index_inj hr ht h).symm
  rw [Scene.entry, Scene.update, Scene.setEntry, List.getD_eq_getElem?_getD, List.getElem?_set_ne hi,
    ← List.getD_eq_getElem?_getD, Scene.entry]

/-- A list of updates, each to the entry its item names. -/
def Scene.updates {α : Type} (ref : α → NodeRef) (f : α → SceneEntry → SceneEntry) (l : List α) (sc : Scene) : Scene :=
  l.foldl (fun sc x => sc.update (ref x) (f x)) sc

/-- What one item changes of its entry, when taking it twice changes nothing more and no other item of the entry touches it. -/
theorem Scene.updates_view {α β : Type} (view : SceneEntry → β) {ref : α → NodeRef} {f : α → SceneEntry → SceneEntry}
    {x : α} {F : β → β} (hx : ∀ e, view (f x e) = F (view e)) (hF : ∀ b, F (F b) = F b)
    (hother : ∀ y, y ≠ x → ref y = ref x → ∀ e, view (f y e) = view e)
    (hxr : 1 ≤ (ref x).address ∧ (ref x).address ≤ 30) {l : List α}
    (hl : ∀ y ∈ l, 1 ≤ (ref y).address ∧ (ref y).address ≤ 30) {sc : Scene} (hlen : sc.entries.length = 120) :
    (x ∈ l → view ((sc.updates ref f l).entry (ref x)) = F (view (sc.entry (ref x)))) ∧
    (x ∉ l → view ((sc.updates ref f l).entry (ref x)) = view (sc.entry (ref x))) := by
  induction l generalizing sc with
  | nil => exact ⟨fun h => absurd h List.not_mem_nil, fun _ => rfl⟩
  | cons y l ih =>
      have hlen' : (sc.update (ref y) (f y)).entries.length = 120 := by
        rw [Scene.update, Scene.setEntry, List.length_set, hlen]
      have hy := hl y List.mem_cons_self
      obtain ⟨ih_mem, ih_not⟩ := ih (fun z hz => hl z (List.mem_cons_of_mem _ hz)) hlen'
      by_cases hyx : y = x
      · subst hyx
        have first : view ((sc.update (ref y) (f y)).entry (ref y)) = F (view (sc.entry (ref y))) := by
          rw [Scene.entry_update_same hlen hy.2, hx]
        refine ⟨fun _ => ?_, fun h => absurd List.mem_cons_self h⟩
        by_cases hmem : y ∈ l
        · exact (ih_mem hmem).trans ((congrArg F first).trans (hF _))
        · exact (ih_not hmem).trans first
      · have first : view ((sc.update (ref y) (f y)).entry (ref x)) = view (sc.entry (ref x)) := by
          by_cases href : ref y = ref x
          · rw [← href, Scene.entry_update_same hlen hy.2, hother y hyx href]
          · rw [Scene.entry_update_ne hy hxr fun h => href h.symm]
        refine ⟨fun h => ?_, fun h => ?_⟩
        · have hmem : x ∈ l := (List.mem_cons.1 h).resolve_left fun e => hyx e.symm
          exact (ih_mem hmem).trans (congrArg F first)
        · exact (ih_not fun hmem => h (List.mem_cons_of_mem _ hmem)).trans first

theorem Scene.updates_eq {α : Type} (ref : α → NodeRef) (f : α → SceneEntry → SceneEntry) (l : List α) (sc : Scene) :
    sc.updates ref f l = { sc with entries := (sc.updates ref f l).entries } := by
  induction l generalizing sc with
  | nil => rfl
  | cons x l ih => exact ih (sc.update (ref x) (f x))

/-! ### Notices (R122, R126) -/

theorem exec_haltNotice_of_mail {s : State} {r : RunnerId} {msgs : List SceneMsg} (h : s.mail.toScene = .halt r :: msgs) :
    exec .haltNotice s = .next
      ({ s.setSceneMail msgs with
          scene := { s.scene with entries := s.scene.entries.map (SceneEntry.halt r) } } : State).ended := by
  rw [show exec .haltNotice s = execHaltNotice s from rfl, execHaltNotice, h]
  rfl

theorem exec_clampNotice_of_mail {s : State} {c : ChainId} {m : ClampMsg} {msgs : List ClampMsg}
    (h : s.mail.clamps.get c = m :: msgs) :
    exec (.clampNotice c) s = .next ({ s with mail := { s.mail with clamps := s.mail.clamps.set c msgs },
                                              scene := s.scene.clampNotice c m } : State).ended := by
  rw [show exec (.clampNotice c) s = execClampNotice c s from rfl, execClampNotice, h]
  rfl

/-- Settles O40: each notice is one equation of the model, and the entry it changes is the one it names. -/
theorem haltAndClampNoticesReachTheEntries : Obligations.HaltAndClampNoticesReachTheEntries := by
  unfold Obligations.HaltAndClampNoticesReachTheEntries
  refine ⟨?halt, ?clamp⟩
  case halt =>
    intro r msgs s h halted
    exact exec_haltNotice_of_mail h
  case clamp =>
    intro c m msgs s h taken
    refine ⟨?enrolled, ?health, ?clamp, ?absent⟩
    case enrolled =>
      rintro a k hot rfl
      exact exec_clampNotice_of_mail h
    case health =>
      rintro a hot rfl
      exact exec_clampNotice_of_mail h
    case clamp =>
      rintro a k rfl
      exact exec_clampNotice_of_mail h
    case absent =>
      rintro a rfl
      exact exec_clampNotice_of_mail h

/-! ### Selectors (R119) -/

theorem KindFilter.passes_iff (s : State) (f : KindFilter) (r : NodeRef) :
    f.passes (s.entryKind r) = true ↔
      (f = .any ∨ (f = .tile ∧ ∀ n, s.node r = some n → n.kindName = .tile) ∨
        (f = .lamp ∧ ∀ n, s.node r = some n → n.kindName = .lamp)) := by
  have kinds (k : KindName) : (k ≠ .lamp ↔ k = .tile) ∧ (k ≠ .tile ↔ k = .lamp) := by cases k <;> simp
  unfold State.entryKind
  cases f with
  | any => simp [KindFilter.passes]
  | tile => cases s.node r <;> simp [KindFilter.passes, kinds]
  | lamp => cases s.node r <;> simp [KindFilter.passes, kinds]

theorem State.canTake_iff (s : State) (k : KindName) (r : NodeRef) :
    s.canTake k r = true ↔ ∀ n, s.node r = some n → n.kindName = k := by
  unfold State.canTake State.entryKind
  cases s.node r <;> simp

theorem State.mem_writable {s : State} {v : LookValue} {r : NodeRef} {sel : Selector} :
    r ∈ s.writable sel v ↔ r ∈ s.select sel ∧ ∀ n, s.node r = some n → n.kindName = v.kind := by
  rw [State.writable, List.mem_filter, State.canTake_iff]

theorem mem_addresses {a : Nat} : a ∈ addresses ↔ 1 ≤ a ∧ a ≤ 30 :=
  mem_addresses_iff.trans (by simp [isAddress])

theorem mem_allChains (c : ChainId) : c ∈ allChains := by fin_cases c <;> decide

theorem State.mem_selectChain {s : State} {address : Option Nat} {f : KindFilter} {c : ChainId} {r : NodeRef} :
    r ∈ s.selectChain address f c ↔
      r.chain = c ∧ (∀ a, address = some a → r.address = a) ∧ (address = none → (s.node r).isSome = true) ∧
        f.passes (s.entryKind r) = true := by
  obtain ⟨d, b⟩ := r
  cases address with
  | some a =>
      simp only [State.selectChain, List.mem_filter, List.mem_singleton, NodeRef.mk.injEq, Option.some.injEq]
      grind
  | none =>
      have named (h : (s.node ⟨d, b⟩).isSome = true) : b ∈ addresses := by
        rw [mem_addresses_iff]
        by_contra hb
        rw [State.node, Chain.node, if_neg hb] at h
        exact Bool.false_ne_true h
      simp only [State.selectChain, List.mem_filter, List.mem_map, NodeRef.mk.injEq, Bool.and_eq_true]
      grind

theorem State.mem_select_nodes {s : State} {chain : Option ChainId} {address : Option Nat} {f : KindFilter} {r : NodeRef} :
    r ∈ s.select (.nodes chain address f) ↔
      (∀ c, chain = some c → r.chain = c) ∧ (∀ a, address = some a → r.address = a) ∧
        (address = none → (s.node r).isSome = true) ∧ f.passes (s.entryKind r) = true := by
  cases chain with
  | some c =>
      rw [show s.select (.nodes (some c) address f) = s.selectChain address f c from rfl, State.mem_selectChain]
      simp
  | none =>
      rw [show s.select (.nodes none address f) = allChains.flatMap (s.selectChain address f) from rfl, List.mem_flatMap]
      simp [State.mem_selectChain, mem_allChains]

/-- The order of a selection: by chain, then by address. -/
def NodeRef.before (x y : NodeRef) : Prop := x.chain < y.chain ∨ (x.chain = y.chain ∧ x.address < y.address)

theorem addresses_ascending : addresses.Pairwise (· < ·) := by decide

theorem allChains_ascending : allChains.Pairwise (· < ·) := by decide

theorem State.selectChain_ascending (s : State) (address : Option Nat) (f : KindFilter) (c : ChainId) :
    (s.selectChain address f c).Pairwise NodeRef.before := by
  cases address with
  | some a => exact List.Pairwise.filter (R := NodeRef.before) _ (List.pairwise_singleton _ _)
  | none =>
      have hall : (addresses.map (NodeRef.mk c)).Pairwise NodeRef.before :=
        List.pairwise_map.2 (addresses_ascending.imp fun h => Or.inr ⟨rfl, h⟩)
      rw [State.selectChain]
      exact hall.filter _

theorem State.select_ascending (s : State) (chain : Option ChainId) (address : Option Nat) (f : KindFilter) :
    (s.select (.nodes chain address f)).Pairwise NodeRef.before := by
  cases chain with
  | some c => exact s.selectChain_ascending address f c
  | none =>
      refine List.pairwise_flatMap.2 ⟨fun c _ => s.selectChain_ascending address f c, ?_⟩
      refine allChains_ascending.imp fun {c d} hcd x hx y hy => Or.inl ?_
      rw [(State.mem_selectChain.1 hx).1, (State.mem_selectChain.1 hy).1]
      exact hcd

/-! ### Writes (R120 to R122) -/

theorem SceneEntry.write_write (v : LookValue) (fade : Option Nat) (w : Writer) (e : SceneEntry) :
    (e.write v fade w).write v fade w = e.write v fade w := by
  have level (x : Nat) (p : LevelParam) : (p.write x fade w).write x fade w = p.write x fade w := by cases fade <;> rfl
  cases v with
  | source x => rfl
  | brightness x => exact congrArg (fun p => { e with brightness := p }) (level x e.brightness)
  | intensity x => exact congrArg (fun p => { e with intensity := p }) (level x e.intensity)
  | preset x => rfl

theorem State.write_eq (sel : Selector) (v : LookValue) (fade : Option Nat) (w : Writer) (s : State) :
    s.write sel v fade w =
      { s with scene := s.scene.updates id (fun _ => SceneEntry.write v fade w) (s.writable sel v) } := rfl

/-- A write changes the entries that it reaches, and no other. -/
theorem State.write_entry {sel : Selector} {v : LookValue} {fade : Option Nat} {w : Writer} {s : State}
    (hlen : s.scene.entries.length = 120) (hsel : ∀ x ∈ s.writable sel v, 1 ≤ x.address ∧ x.address ≤ 30) {r : NodeRef}
    (hr : 1 ≤ r.address ∧ r.address ≤ 30) :
    (r ∈ s.writable sel v → (s.write sel v fade w).scene.entry r = (s.scene.entry r).write v fade w) ∧
    (r ∉ s.writable sel v → (s.write sel v fade w).scene.entry r = s.scene.entry r) :=
  Scene.updates_view (view := id) (ref := id) (f := fun _ => SceneEntry.write v fade w) (x := r)
    (F := SceneEntry.write v fade w) (fun _ => rfl) (SceneEntry.write_write v fade w) (fun _ hne h => absurd h hne) hr hsel hlen

theorem State.write_keeps (sel : Selector) (v : LookValue) (fade : Option Nat) (w : Writer) (s : State) :
    (s.write sel v fade w).scene.groups = s.scene.groups ∧ (s.write sel v fade w).scene.claims = s.scene.claims ∧
      (s.write sel v fade w).scene.previous = s.scene.previous := by
  have hscene := Scene.updates_eq id (fun _ => SceneEntry.write v fade w) (s.writable sel v) s.scene
  have hgroups := congrArg Scene.groups hscene
  have hclaims := congrArg Scene.claims hscene
  have hprevious := congrArg Scene.previous hscene
  exact ⟨hgroups, hclaims, hprevious⟩

theorem exec_lookSet_of_args {q : Request} {rest : List Request} {s : State} (hq : Waits .lookSet q rest s)
    {sel : Selector} {v : LookValue} {fade : Option Nat} (hx : lookSet? q.body = some (sel, v, fade)) :
    exec .lookSet s = .next (((s.taken rest).write sel v fade .control).replied q .ok
      (.look (s.writable sel v).length ((s.select sel).length - (s.writable sel v).length))) := by
  rw [show exec .lookSet s = execLookSet s from rfl, execLookSet, takeWith_some hq hx]
  rfl

theorem exec_sceneWrite_of_mail {s : State} {sel : Selector} {v : LookValue} {fade : Option Nat} {r : RunnerId}
    {msgs : List SceneMsg} (h : s.mail.toScene = .write sel v fade r :: msgs) :
    exec .sceneWrite s = .next ((s.setSceneMail msgs).write sel v fade (.runner r)).ended := by
  rw [show exec .sceneWrite s = execSceneWrite s from rfl, execSceneWrite, h]
  rfl

/-! ### Groups (R132) -/

theorem mem_keepFirst {x : NodeRef} {l : List NodeRef} : ∀ {seen : List NodeRef},
    x ∈ keepFirst seen l ↔ x ∈ l ∧ x ∉ seen := by
  induction l with
  | nil => simp [keepFirst]
  | cons y l ih =>
      intro seen
      rw [keepFirst]
      split <;> grind

theorem nodup_keepFirst {l : List NodeRef} : ∀ {seen : List NodeRef}, (keepFirst seen l).Nodup := by
  induction l with
  | nil => exact List.nodup_nil
  | cons y l ih =>
      intro seen
      rw [keepFirst]
      split
      · exact ih
      · exact List.nodup_cons.2 ⟨fun h => (mem_keepFirst.1 h).2 List.mem_cons_self, ih⟩

theorem keepFirst_sublist {l : List NodeRef} : ∀ {seen : List NodeRef}, (keepFirst seen l).Sublist l := by
  induction l with
  | nil => exact List.nil_sublist _
  | cons y l ih =>
      intro seen
      rw [keepFirst]
      split
      · exact ih.cons y
      · exact ih.cons_cons y

theorem exec_groupSet_of_args {q : Request} {rest : List Request} {s : State} (hq : Waits .groupSet q rest s)
    {g : Nat} {refs : List NodeRef} (hx : groupSet? q.body = some (g, refs)) :
    exec .groupSet s = .next
      (({ s.taken rest with scene := { s.scene with groups := s.scene.groups.set g (keepFirst [] refs) } } : State).replied q
        .ok (.group (keepFirst [] refs).length)) := by
  rw [show exec .groupSet s = execGroupSet s from rfl, execGroupSet, takeWith_some hq hx]
  rfl

/-- Settles O39: a write is a list of updates whose repetition changes nothing, over the entries that the selector names. -/
theorem writesReachTheSelectedEntries : Obligations.WritesReachTheSelectedEntries := by
  unfold Obligations.WritesReachTheSelectedEntries
  refine ⟨?written, ?values, ?writable, ?single, ?selection, ?group⟩
  case written =>
    intro sel v fade w s hlen hsel written
    refine ⟨?lookSet, ?sceneWrite⟩
    case lookSet =>
      rintro q rest hq hx rfl
      obtain ⟨hgroups, hclaims, hprevious⟩ := (s.taken rest).write_keeps sel v fade .control
      exact ⟨_, exec_lookSet_of_args hq hx, fun r h1 h30 => State.write_entry (s := s.taken rest) hlen hsel ⟨h1, h30⟩,
        hgroups, hclaims, hprevious, rfl⟩
    case sceneWrite =>
      rintro r msgs h rfl
      obtain ⟨hgroups, hclaims, hprevious⟩ := (s.setSceneMail msgs).write_keeps sel v fade (.runner r)
      exact ⟨_, exec_sceneWrite_of_mail h,
        fun x h1 h30 => State.write_entry (s := s.setSceneMail msgs) hlen hsel ⟨h1, h30⟩,
        hgroups, hclaims, hprevious, rfl⟩
  case values =>
    intro e w x src n
    exact ⟨rfl, rfl, rfl, rfl, rfl, rfl⟩
  case writable =>
    intro s v r sel
    exact State.mem_writable
  case single =>
    intro s r
    refine ⟨fun f => ?_, ?_, fun g => rfl⟩
    · rw [State.mem_select_nodes, ← KindFilter.passes_iff]
      simp
    · rw [State.mem_select_nodes]
      simp [KindFilter.passes]
  case selection =>
    intro s chain address f passes
    refine ⟨fun r => ?_, s.select_ascending chain address f⟩
    rw [State.mem_select_nodes, KindFilter.passes_iff]
  case group =>
    intro q rest g refs s hq hx kept
    have hkept : keepFirst [] refs = kept := keepFirst_eq_foldl refs
    refine ⟨hkept ▸ exec_groupSet_of_args hq hx, hkept ▸ keepFirst_sublist, hkept ▸ nodup_keepFirst, fun x => ?_⟩
    rw [← hkept, mem_keepFirst]
    simp

end Sys2Proof.Machine
end

section
/-! Scene Table ticks: fades and glides advance, then each chain's post is formed and handed on (R118, R123 to R125, R128 to
R130). O38. -/

namespace Sys2Proof.Machine

/-! ### Posts (R129, R130) -/

/-- What a post of a chain writes: the previous post, the Frame Assembler's posts and the Chain Manager's generation. -/
def State.postSide (c : ChainId) (s : State) : Post × AsmChain × Chain :=
  (s.scene.previous.get c, s.asm.get c, s.chains.get c)

/-- The same after the post `p`. -/
def postSideAfter (p : Post) (x : Post × AsmChain × Chain) : Post × AsmChain × Chain :=
  (p, { x.2.1 with posts := x.2.1.posts ++ [p] }, { x.2.2 with lookGen := p.gen })

theorem State.post_postSide_same (c : ChainId) (s : State) :
    (s.post c).postSide c = postSideAfter (s.formPost c) (s.postSide c) := by
  simp [State.postSide, State.post, postSideAfter]

theorem State.post_postSide_ne {c d : ChainId} (h : d ≠ c) (s : State) : (s.post c).postSide d = s.postSide d := by
  simp [State.postSide, State.post, h]

theorem State.post_node (c : ChainId) (r : NodeRef) (s : State) : (s.post c).node r = s.node r := by
  by_cases h : r.chain = c
  · rw [State.node, State.post, h, Four.get_set_same]
    exact h ▸ rfl
  · rw [State.node, State.post, Four.get_set_ne _ h, State.node]

theorem State.post_looks (c d : ChainId) (s : State) : (s.post c).looks d = s.looks d := by
  unfold State.looks State.entryKind
  simp only [State.post_node]
  rfl

theorem State.post_formPost_ne {c d : ChainId} (h : d ≠ c) (s : State) : (s.post c).formPost d = s.formPost d := by
  have hprevious : (s.post c).scene.previous.get d = s.scene.previous.get d := congrArg Prod.fst (State.post_postSide_ne h s)
  simp only [State.formPost, State.post_looks, hprevious]

/-- The posts of a list of chains. -/
def State.posts (l : List ChainId) (s : State) : State := l.foldl (fun s c => s.post c) s

theorem State.posts_looks (l : List ChainId) (d : ChainId) (s : State) : (s.posts l).looks d = s.looks d := by
  induction l generalizing s with
  | nil => rfl
  | cons c l ih => exact (ih (s.post c)).trans (s.post_looks c d)

theorem State.posts_postSide_of_not_mem {l : List ChainId} {d : ChainId} (h : d ∉ l) (s : State) :
    (s.posts l).postSide d = s.postSide d := by
  induction l generalizing s with
  | nil => rfl
  | cons c l ih =>
      obtain ⟨hc, hl⟩ := List.ne_and_not_mem_of_not_mem_cons h
      exact (ih hl (s.post c)).trans (State.post_postSide_ne hc s)

theorem State.posts_postSide_of_mem {l : List ChainId} (hl : l.Nodup) {d : ChainId} (h : d ∈ l) (s : State) :
    (s.posts l).postSide d = postSideAfter (s.formPost d) (s.postSide d) := by
  induction l generalizing s with
  | nil => exact absurd h List.not_mem_nil
  | cons c l ih =>
      obtain ⟨hc, hnodup⟩ := List.nodup_cons.1 hl
      by_cases hd : d = c
      · subst hd
        exact (State.posts_postSide_of_not_mem hc (s.post d)).trans (s.post_postSide_same d)
      · have hmem : d ∈ l := (List.mem_cons.1 h).resolve_left hd
        refine (ih hnodup hmem (s.post c)).trans ?_
        rw [State.post_formPost_ne hd, State.post_postSide_ne hd]

theorem allChains_nodup : allChains.Nodup := by decide

/-- The entries after a tick's advance (R128). -/
def State.advanced (s : State) : State :=
  { s with scene := { s.scene with entries := s.scene.entries.map SceneEntry.advance } }

theorem State.sceneTick_eq (s : State) : s.sceneTick = s.advanced.posts allChains := rfl

theorem State.sceneTick_looks (c : ChainId) (s : State) : s.sceneTick.looks c = s.advanced.looks c :=
  s.advanced.posts_looks allChains c

theorem State.sceneTick_postSide (c : ChainId) (s : State) :
    s.sceneTick.postSide c = postSideAfter (s.advanced.formPost c) (s.advanced.postSide c) :=
  State.posts_postSide_of_mem allChains_nodup (mem_allChains c) s.advanced

/-! ### The tick's commands (R128) -/

theorem exec_sceneTableTick_of_tick {s : State} {n : Word16} {ticks : List Word16} (h : s.mail.ticks.scene = n :: ticks) :
    exec .sceneTableTick s = .next (s.setSceneTicks ticks).sceneTick.ended := by
  rw [show exec .sceneTableTick s = execSceneTableTick s from rfl, execSceneTableTick, h]
  rfl

theorem isAddress_of {a : Nat} (h1 : 1 ≤ a) (h30 : a ≤ 30) : isAddress a = true := by simp [isAddress, h1, h30]

theorem exec_fadeComplete_of_due {s : State} {n : Word16} {ticks : List Word16} (h : s.mail.ticks.scene = n :: ticks)
    {c : ChainId} {a : Nat} {p : LevelName} (h1 : 1 ≤ a) (h30 : a ≤ 30) {f : Fade}
    (hf : ((s.scene.entry { chain := c, address := a }).level p).fade = some f) (hdue : f.length ≤ f.elapsed + 1) :
    exec (.fadeComplete c a p) s = .next (s.setSceneTicks ticks).sceneTick.ended := by
  rw [show exec (.fadeComplete c a p) s = execFadeComplete c a p s from rfl, execFadeComplete, h]
  exact if_pos (by rw [isAddress_of h1 h30, LevelParam.fadeDue, hf]; exact decide_eq_true hdue)

theorem exec_glideEnd_of_due {s : State} {n : Word16} {ticks : List Word16} (h : s.mail.ticks.scene = n :: ticks)
    {c : ChainId} {a : Nat} {p : LevelName} (h1 : 1 ≤ a) (h30 : a ≤ 30) {g : Glide}
    (hg : ((s.scene.entry { chain := c, address := a }).level p).glide = some g) (hdue : g.length ≤ g.elapsed + 1) :
    exec (.glideEnd c a p) s = .next (s.setSceneTicks ticks).sceneTick.ended := by
  rw [show exec (.glideEnd c a p) s = execGlideEnd c a p s from rfl, execGlideEnd, h]
  exact if_pos (by rw [isAddress_of h1 h30, LevelParam.glideDue, hg]; exact decide_eq_true hdue)

/-! ### Fades, glides and outputs (R118, R124, R125) -/

theorem LevelParam.advanceFade_of_none {p : LevelParam} (h : p.fade = none) : p.advanceFade = p := by
  rw [LevelParam.advanceFade, h]

theorem LevelParam.advanceFade_of_end {p : LevelParam} {f : Fade} (h : p.fade = some f) (hend : f.length ≤ f.elapsed + 1) :
    p.advanceFade = { p with base := f.target, fade := none } := by
  rw [LevelParam.advanceFade, h]
  exact if_pos hend

theorem LevelParam.advanceFade_of_within {p : LevelParam} {f : Fade} (h : p.fade = some f) (hin : f.elapsed + 1 < f.length) :
    p.advanceFade = { p with base := interpolate f.start f.target (f.elapsed + 1) f.length,
                             fade := some { f with elapsed := f.elapsed + 1 } } := by
  rw [LevelParam.advanceFade, h]
  exact if_neg (Nat.not_le.2 hin)

theorem LevelParam.advanceGlide_of_none {p : LevelParam} (h : p.glide = none) : p.advanceGlide = p := by
  rw [LevelParam.advanceGlide, h]

theorem LevelParam.advanceGlide_of_end {p : LevelParam} {g : Glide} (h : p.glide = some g)
    (hend : g.length ≤ g.elapsed + 1) : p.advanceGlide = { p with glide := none } := by
  rw [LevelParam.advanceGlide, h]
  exact if_pos hend

theorem LevelParam.advanceGlide_of_within {p : LevelParam} {g : Glide} (h : p.glide = some g)
    (hin : g.elapsed + 1 < g.length) : p.advanceGlide = { p with glide := some { g with elapsed := g.elapsed + 1 } } := by
  rw [LevelParam.advanceGlide, h]
  exact if_neg (Nat.not_le.2 hin)

theorem interpolate_of_rising {s t : Nat} (h : s ≤ t) (k l : Nat) : interpolate s t k l = s + (t - s) * k / l := by
  have hdiv : ((t : Int) - s) * k = (((t - s) * k : Nat) : Int) := by push_cast [h]; rfl
  rw [interpolate, hdiv, ← Int.ofNat_tdiv]
  generalize (t - s) * k / l = q
  omega

theorem interpolate_of_falling {s t : Nat} (h : t ≤ s) (k l : Nat) : interpolate s t k l = s - (s - t) * k / l := by
  have hdiv : ((t : Int) - s) * k = -(((s - t) * k : Nat) : Int) := by push_cast [h]; ring
  rw [interpolate, hdiv, Int.neg_tdiv, ← Int.ofNat_tdiv]
  generalize (s - t) * k / l = q
  omega

theorem LevelParam.unclamped_of_attack {p : LevelParam} {g : Glide} {d : Drive} (hg : p.glide = some g)
    (hk : g.kind = .attack) (hd : p.drive = some d) : p.unclamped = interpolate g.start d.value g.elapsed g.length := by
  simp only [LevelParam.unclamped, hg, hd, hk]

theorem LevelParam.unclamped_of_release {p : LevelParam} {g : Glide} (hg : p.glide = some g) (hk : g.kind = .release) :
    p.unclamped = interpolate g.start p.base g.elapsed g.length := by
  simp only [LevelParam.unclamped, hg, hk]

theorem LevelParam.unclamped_of_drive {p : LevelParam} {d : Drive} (hg : p.glide = none) (hd : p.drive = some d) :
    p.unclamped = d.value := by
  simp only [LevelParam.unclamped, hg, hd]

theorem LevelParam.unclamped_of_base {p : LevelParam} (hg : p.glide = none) (hd : p.drive = none) :
    p.unclamped = p.base := by
  simp only [LevelParam.unclamped, hg, hd]

theorem PresetParam.output_of_drive {p : PresetParam} {d : Drive} (h : p.drive = some d) : p.output = d.value := by
  rw [PresetParam.output, h]

theorem PresetParam.output_of_none {p : PresetParam} (h : p.drive = none) : p.output = p.base := by
  rw [PresetParam.output, h]

theorem State.sceneTick_post (c : ChainId) (s : State) :
    let old := s.scene.previous.get c
    let u := s.sceneTick
    let p := u.scene.previous.get c
    p.looks = u.looks c ∧ (p.looks = old.looks → p.gen = old.gen) ∧ (p.looks ≠ old.looks → p.gen = old.gen + 1) ∧
      u.asm.get c = { s.asm.get c with posts := (s.asm.get c).posts ++ [p] } ∧
      u.chains.get c = { s.chains.get c with lookGen := p.gen } := by
  intro old u p
  have hside : u.postSide c = postSideAfter (s.advanced.formPost c) (s.postSide c) := s.sceneTick_postSide c
  have hp : p = s.advanced.formPost c := congrArg (fun x => x.1) hside
  have hasm := congrArg (fun x => x.2.1) hside
  have hchain := congrArg (fun x => x.2.2) hside
  have hlooks : p.looks = u.looks c := by
    rw [hp, State.sceneTick_looks]
    rfl
  have hgen : p.gen = if p.looks = old.looks then old.gen else old.gen + 1 := by
    rw [hp]
    rfl
  exact ⟨hlooks, fun h => hgen.trans (if_pos h), fun h => hgen.trans (if_neg h), hp ▸ hasm, hp ▸ hchain⟩

/-- Settles O38: a tick is the advance of the entries and one post for each chain; the rows of a fade's and a glide's end take
the same tick. -/
theorem sceneTicksAdvanceAndPost : Obligations.SceneTicksAdvanceAndPost := by
  unfold Obligations.SceneTicksAdvanceAndPost
  refine ⟨?tick, ?fade, ?glide, ?none, ?entry, ?interpolate, ?unclamped, ?look⟩
  case tick =>
    intro n ticks s h
    refine ⟨_, exec_sceneTableTick_of_tick h, rfl, rfl, rfl, fun c => (s.setSceneTicks ticks).sceneTick_post c, rfl, rfl, rfl,
      rfl, rfl, rfl, rfl, rfl, ?_, ?_⟩
    · intro c a p f h1 h30 hf hdue
      exact exec_fadeComplete_of_due h h1 h30 hf hdue
    · intro c a p g h1 h30 hg hdue
      exact exec_glideEnd_of_due h h1 h30 hg hdue
  case fade =>
    intro p f h
    exact ⟨LevelParam.advanceFade_of_end h, LevelParam.advanceFade_of_within h⟩
  case glide =>
    intro p g h
    exact ⟨LevelParam.advanceGlide_of_end h, LevelParam.advanceGlide_of_within h⟩
  case none =>
    intro p
    exact ⟨LevelParam.advanceFade_of_none, LevelParam.advanceGlide_of_none⟩
  case entry =>
    intro e
    rfl
  case interpolate =>
    intro s t k l _ _
    split
    · next h => exact interpolate_of_rising h k l
    · next h => exact interpolate_of_falling (Nat.le_of_not_le h) k l
  case unclamped =>
    intro p
    exact ⟨fun g d hg hk hd => LevelParam.unclamped_of_attack hg hk hd, fun g hg hk => LevelParam.unclamped_of_release hg hk,
      fun d hg hd => LevelParam.unclamped_of_drive hg hd, LevelParam.unclamped_of_base⟩
  case look =>
    intro e k
    exact ⟨rfl, rfl, rfl, fun d hd => PresetParam.output_of_drive hd, PresetParam.output_of_none⟩

end Sys2Proof.Machine
end

section
/-! Batches of claims (R138 to R143): the claim records, the rule that drives a parameter, and what a batch does to each
parameter that it touches. O41. -/

namespace Sys2Proof.Machine

/-! ### Driving rules (R140) -/

theorem ClaimRecord.targets_iff {x : ClaimRecord} {r : NodeRef} {p : OverParam} :
    x.targets r p = true ↔ x.param = p ∧ r ∈ x.entries := by
  simp [ClaimRecord.targets]

/-- The driving rule counted from `n`: the first record that targets the parameter. -/
theorem driverOf_eq_some {claims : List (Option ClaimRecord)} {r : NodeRef} {p : OverParam} {n k : Nat} {x : ClaimRecord} :
    driverOf claims r p n = some (k, x) ↔
      ∃ i, k = n + i ∧ claims[i]? = some (some x) ∧ x.targets r p = true ∧
        ∀ j y, j < i → claims[j]? = some (some y) → ¬ y.targets r p = true := by
  induction claims generalizing n with
  | nil => simp [driverOf]
  | cons o claims ih =>
      have later (ho : ∀ y, o = some y → ¬ y.targets r p = true) :
          driverOf claims r p (n + 1) = some (k, x) ↔
            ∃ i, k = n + i ∧ (o :: claims)[i]? = some (some x) ∧ x.targets r p = true ∧
              ∀ j y, j < i → (o :: claims)[j]? = some (some y) → ¬ y.targets r p = true := by
        rw [ih]
        constructor
        · rintro ⟨i, rfl, hi, hx, hfirst⟩
          refine ⟨i + 1, by omega, hi, hx, fun j y hj hy => ?_⟩
          cases j with
          | zero => exact ho y (Option.some.inj hy)
          | succ j => exact hfirst j y (Nat.lt_of_succ_lt_succ hj) hy
        · rintro ⟨i, rfl, hi, hx, hfirst⟩
          cases i with
          | zero => exact absurd hx (ho x (Option.some.inj hi))
          | succ i => exact ⟨i, by omega, hi, hx, fun j y hj hy => hfirst (j + 1) y (Nat.succ_lt_succ hj) hy⟩
      cases o with
      | none => exact later fun y h => nomatch h
      | some y =>
          rw [driverOf]
          by_cases hy : y.targets r p = true
          · rw [if_pos hy]
            constructor
            · rintro ⟨⟩
              exact ⟨0, rfl, rfl, hy, fun j y hj => absurd hj (Nat.not_lt_zero j)⟩
            · rintro ⟨i, rfl, hi, hx, hfirst⟩
              cases i with
              | zero => exact congrArg (fun z => some (n, z)) (Option.some.inj (Option.some.inj hi))
              | succ i => exact absurd hy (hfirst 0 y (Nat.succ_pos i) rfl)
          · rw [if_neg hy]
            exact later fun z h => Option.some.inj h ▸ hy

theorem driverOf_zero_eq_some {claims : List (Option ClaimRecord)} {r : NodeRef} {p : OverParam} {k : Nat} {x : ClaimRecord} :
    driverOf claims r p 0 = some (k, x) ↔
      claims[k]? = some (some x) ∧ x.param = p ∧ r ∈ x.entries ∧
        ∀ j y, j < k → claims[j]? = some (some y) → ¬ (y.param = p ∧ r ∈ y.entries) := by
  simp only [driverOf_eq_some, Nat.zero_add, ClaimRecord.targets_iff, exists_eq_left', and_assoc]

theorem driverOf_of_no_claims (n : Nat) (r : NodeRef) (p : OverParam) (k : Nat) :
    driverOf (List.replicate n none) r p k = none := by
  induction n generalizing k with
  | zero => rfl
  | succ n ih => exact ih (k + 1)

theorem driverOf_of_one_claim {k n : Nat} (hk : k < n) {x : ClaimRecord} {r : NodeRef} (hr : r ∈ x.entries) :
    driverOf ((List.replicate n none).set k (some x)) r x.param 0 = some (k, x) := by
  refine driverOf_zero_eq_some.2 ⟨List.getElem?_set_self (by simpa using hk), rfl, hr, fun j y hj hy => ?_⟩
  rw [List.getElem?_set_ne (Nat.ne_of_gt hj), List.getElem?_replicate, if_pos (hj.trans hk)] at hy
  exact nomatch hy

/-! ### Claim records (R139) -/

theorem nodup_eraseDups : ∀ l : List NodeRef, l.eraseDups.Nodup
  | [] => List.nodup_nil
  | r :: l => by
      rw [List.eraseDups_cons, List.nodup_cons]
      exact ⟨fun h => by simpa using List.mem_eraseDups.1 h, nodup_eraseDups _⟩
  termination_by l => l.length
  decreasing_by exact Nat.lt_succ_of_le (List.length_filter_le _ _)

theorem State.mem_claimRecord {s : State} {target : Selector} {param : OverParam} {value attack release : Nat} {r : NodeRef} :
    r ∈ (s.claimRecord target param value attack release).entries ↔
      r ∈ s.select target ∧ ∀ n, s.node r = some n → n.kindName = param.kind := by
  rw [State.claimRecord, List.mem_eraseDups, List.mem_filter, State.canTake_iff]

theorem State.claimRecord_of_entry {s : State} {r : NodeRef} {x : ClaimRecord} (hx : x.entries = [r])
    (hk : ∀ n, s.node r = some n → n.kindName = x.param.kind) :
    s.claimRecord (.nodes (some r.chain) (some r.address) .any) x.param x.value x.attack x.release = x := by
  have htake : s.canTake x.param.kind r = true := (s.canTake_iff _ r).2 hk
  rw [State.claimRecord, show s.select (.nodes (some r.chain) (some r.address) .any) = [r] from rfl,
    List.filter_cons_of_pos htake, List.filter_nil, show [r].eraseDups = [r] from rfl, ← hx]

theorem releaseOf_of_record {claims : List (Option ClaimRecord)} {d : Drive} {y : ClaimRecord}
    (h : claims.getD d.rule none = some y) : releaseOf claims (some d) = y.release := by
  rw [releaseOf, h]
  rfl

/-! ### Parameters driven anew (R141 to R143) -/

theorem LevelParam.redrive_of_none {p : LevelParam} (h : p.drive = none) (len : Nat) : p.redrive none len = p := by
  unfold LevelParam.redrive
  rw [h]

theorem LevelParam.redrive_of_release {p : LevelParam} {d : Drive} (h : p.drive = some d) (len : Nat) :
    p.redrive none len = { p with drive := none, glide := p.startGlide .release len } := by
  unfold LevelParam.redrive
  rw [h]

/-- A parameter driven by a rule, its glide begun anew. -/
def LevelParam.driven (j : Nat) (y : ClaimRecord) (p : LevelParam) : LevelParam :=
  { p with drive := some { rule := j, value := y.value }, glide := p.startGlide .attack y.attack }

theorem LevelParam.redrive_of_first {p : LevelParam} (h : p.drive = none) (j : Nat) (y : ClaimRecord) (len : Nat) :
    p.redrive (some (j, y)) len = p.driven j y := by
  unfold LevelParam.redrive
  rw [h]
  rfl

theorem LevelParam.redrive_of_other {p : LevelParam} {d : Drive} (h : p.drive = some d) {j : Nat} (hj : j ≠ d.rule)
    (y : ClaimRecord) (len : Nat) : p.redrive (some (j, y)) len = p.driven j y := by
  unfold LevelParam.redrive
  rw [h]
  exact if_pos hj

theorem LevelParam.redrive_of_same {p : LevelParam} {d : Drive} (h : p.drive = some d) {j : Nat} (hj : j = d.rule)
    {y : ClaimRecord} (hy : y.value = d.value) (len : Nat) : p.redrive (some (j, y)) len = p := by
  unfold LevelParam.redrive
  rw [h]
  exact (if_neg fun q => q hj).trans (if_pos hy)

theorem LevelParam.redrive_of_gliding {p : LevelParam} {d : Drive} (h : p.drive = some d) {j : Nat} (hj : j = d.rule)
    {y : ClaimRecord} (hy : y.value ≠ d.value) (hg : p.glide ≠ none) (len : Nat) :
    p.redrive (some (j, y)) len = { p with drive := some { rule := j, value := y.value } } := by
  unfold LevelParam.redrive
  rw [h]
  refine (if_neg fun q => q hj).trans ((if_neg hy).trans ?_)
  rw [if_pos (Option.isSome_iff_ne_none.2 hg)]

theorem LevelParam.redrive_of_value {p : LevelParam} {d : Drive} (h : p.drive = some d) {j : Nat} (hj : j = d.rule)
    {y : ClaimRecord} (hy : y.value ≠ d.value) (hg : p.glide = none) (len : Nat) :
    p.redrive (some (j, y)) len = p.driven j y := by
  unfold LevelParam.redrive
  rw [h]
  refine (if_neg fun q => q hj).trans ((if_neg hy).trans ?_)
  rw [hg]
  rfl

/-- What a driver leaves is what it finds when it comes again. -/
theorem LevelParam.redrive_redrive (after : Option (Nat × ClaimRecord)) (len len' : Nat) (p : LevelParam) :
    (p.redrive after len).redrive after len' = p.redrive after len := by
  cases after with
  | none => exact LevelParam.redrive_of_none (by cases hd : p.drive <;> simp [LevelParam.redrive, hd]) len'
  | some x =>
      obtain ⟨j, y⟩ := x
      have again {q : LevelParam} (hq : q.drive = some { rule := j, value := y.value }) :
          q.redrive (some (j, y)) len' = q := LevelParam.redrive_of_same hq rfl rfl len'
      cases hd : p.drive with
      | none =>
          rw [LevelParam.redrive_of_first hd]
          exact again rfl
      | some d =>
          by_cases hj : j = d.rule
          · by_cases hy : y.value = d.value
            · rw [LevelParam.redrive_of_same hd hj hy, LevelParam.redrive_of_same hd hj hy]
            · by_cases hg : p.glide = none
              · rw [LevelParam.redrive_of_value hd hj hy hg]
                exact again rfl
              · rw [LevelParam.redrive_of_gliding hd hj hy hg]
                exact again rfl
          · rw [LevelParam.redrive_of_other hd hj]
            exact again rfl

/-! ### Batches (R138, R140) -/

/-- A record that the batch made or removed lists the parameter of the entry. -/
def Listed (before after : List (Option ClaimRecord)) (rules : List Nat) (r : NodeRef) (p : OverParam) : Prop :=
  ∃ k ∈ rules, ∃ x, (before.getD k none = some x ∨ after.getD k none = some x) ∧ x.param = p ∧ r ∈ x.entries

/-- The parameters that a record lists. -/
def ClaimRecord.listed (o : Option ClaimRecord) : List (NodeRef × OverParam) :=
  match o with
  | some x => x.entries.map fun r => (r, x.param)
  | none => []

theorem ClaimRecord.mem_listed {o : Option ClaimRecord} {r : NodeRef} {p : OverParam} :
    (r, p) ∈ ClaimRecord.listed o ↔ ∃ x, o = some x ∧ x.param = p ∧ r ∈ x.entries := by
  cases o <;> simp [ClaimRecord.listed, and_comm]

theorem touched_eq (before after : List (Option ClaimRecord)) (rules : List Nat) :
    touched before after rules =
      rules.flatMap fun k => [before.getD k none, after.getD k none].flatMap ClaimRecord.listed := rfl

theorem mem_touched {before after : List (Option ClaimRecord)} {rules : List Nat} {r : NodeRef} {p : OverParam} :
    (r, p) ∈ touched before after rules ↔ Listed before after rules r p := by
  simp only [touched_eq, Listed, List.mem_flatMap, List.mem_cons, List.not_mem_nil, or_false,
    exists_eq_left, ClaimRecord.mem_listed, or_and_right, exists_or]

theorem exec_tallyBatch_of_mail {s : State} {batch : List TallyClaim} {batches : List (List TallyClaim)}
    (h : s.mail.batches = batch :: batches) :
    exec .tallyBatch s = .next (({ s with mail := { s.mail with batches := batches } } : State).takeBatch batch).ended := by
  rw [show exec .tallyBatch s = execTallyBatch s from rfl, execTallyBatch, h]
  rfl

/-- The scene after a batch: the touched parameters driven anew, and the batch's claim records. -/
theorem State.takeBatch_eq (batch : List TallyClaim) (s : State) :
    let before := s.scene.claims
    let after := batch.foldl s.takeClaim before
    s.takeBatch batch =
      { s with scene :=
          { s.scene.updates (fun x : NodeRef × OverParam => x.1) (fun x => SceneEntry.redrive before after x.1 x.2)
              (touched before after (batch.map TallyClaim.rule)) with claims := after } } := rfl

/-- A batch that touches one parameter of one entry. -/
theorem State.takeBatch_of_one {batch : List TallyClaim} {s : State} {after : List (Option ClaimRecord)}
    (hafter : batch.foldl s.takeClaim s.scene.claims = after) {r : NodeRef} {p : OverParam}
    (hone : touched s.scene.claims after (batch.map TallyClaim.rule) = [(r, p)]) :
    s.takeBatch batch =
      { s with scene := { s.scene with
          entries := s.scene.entries.set r.index (SceneEntry.redrive s.scene.claims after r p (s.scene.entry r))
          claims := after } } := by
  rw [State.takeBatch_eq, hafter, hone]
  rfl

section
variable {batch : List TallyClaim} {s : State} {after : List (Option ClaimRecord)} {r : NodeRef}

/-- The parameter of an entry that a batch lists is driven anew once, whatever the number of records that list it. -/
theorem State.takeBatch_view {β : Type} (view : SceneEntry → β) (F : β → β) (p : OverParam)
    (hlen : s.scene.entries.length = 120) (hafter : batch.foldl s.takeClaim s.scene.claims = after)
    (hlisted : ∀ r p, Listed s.scene.claims after (batch.map TallyClaim.rule) r p → 1 ≤ r.address ∧ r.address ≤ 30)
    (hr : 1 ≤ r.address ∧ r.address ≤ 30)
    (hx : ∀ e, view (SceneEntry.redrive s.scene.claims after r p e) = F (view e)) (hF : ∀ b, F (F b) = F b)
    (hother : ∀ p', p' ≠ p → ∀ e, view (SceneEntry.redrive s.scene.claims after r p' e) = view e) :
    (Listed s.scene.claims after (batch.map TallyClaim.rule) r p →
      view ((s.takeBatch batch).scene.entry r) = F (view (s.scene.entry r))) ∧
    (¬ Listed s.scene.claims after (batch.map TallyClaim.rule) r p →
      view ((s.takeBatch batch).scene.entry r) = view (s.scene.entry r)) := by
  rw [← mem_touched, State.takeBatch_eq, hafter]
  refine Scene.updates_view (x := (r, p)) view hx hF ?_ hr (fun y hy => hlisted y.1 y.2 (mem_touched.1 hy)) hlen
  rintro ⟨r', p'⟩ hne rfl
  exact hother p' fun h => hne (congrArg (Prod.mk r') h)

end

theorem touched_of_one {before after : List (Option ClaimRecord)} {k : Nat} {x : ClaimRecord} {r : NodeRef}
    (hx : x.entries = [r]) (h : before.getD k none = none ∧ after.getD k none = some x ∨
      before.getD k none = some x ∧ after.getD k none = none) : touched before after [k] = [(r, x.param)] := by
  have hlist : ClaimRecord.listed (some x) = [(r, x.param)] := by rw [ClaimRecord.listed, hx]; rfl
  rw [touched_eq]
  rcases h with ⟨hb, ha⟩ | ⟨hb, ha⟩
  · rw [List.flatMap_singleton, hb, ha, List.flatMap_cons, List.flatMap_singleton, hlist]
    rfl
  · rw [List.flatMap_singleton, hb, ha, List.flatMap_cons, List.flatMap_singleton, hlist]
    rfl

/-- The batch of one ACTIVATE claim for one entry, no other rule being active. -/
theorem State.takeBatch_of_activation {s : State} {k : Nat} {r : NodeRef} {x : ClaimRecord} (hk : k < 16)
    (hclaims : s.scene.claims = List.replicate 16 none) (hx : x.entries = [r])
    (hkind : ∀ n, s.node r = some n → n.kindName = x.param.kind) :
    s.takeBatch [.activate k (.nodes (some r.chain) (some r.address) .any) x.param x.value x.attack x.release] =
      { s with scene := { s.scene with
          entries := s.scene.entries.set r.index
            (SceneEntry.redrive s.scene.claims (s.scene.claims.set k (some x)) r x.param (s.scene.entry r))
          claims := s.scene.claims.set k (some x) } } := by
  refine State.takeBatch_of_one ?_ (touched_of_one (k := k) hx (.inl ⟨?_, ?_⟩))
  · exact congrArg (fun y => s.scene.claims.set k (some y)) (State.claimRecord_of_entry hx hkind)
  · rw [hclaims, List.getD_eq_getElem?_getD, List.getElem?_replicate, if_pos hk]
    rfl
  · rw [hclaims, List.getD_eq_getElem?_getD, List.getElem?_set_self (by simpa using hk)]
    rfl

theorem claims_set_of_removed {k : Nat} {x : ClaimRecord} :
    ((List.replicate 16 (none : Option ClaimRecord)).set k (some x)).set k none = List.replicate 16 none := by
  rw [List.set_set, List.set_replicate_self]

/-- The batch of one DEACTIVATE claim for the only active rule. -/
theorem State.takeBatch_of_deactivation {s : State} {k : Nat} {r : NodeRef} {x : ClaimRecord} (hk : k < 16)
    (hclaims : s.scene.claims = (List.replicate 16 none).set k (some x)) (hx : x.entries = [r]) :
    s.takeBatch [.deactivate k] =
      { s with scene := { s.scene with
          entries := s.scene.entries.set r.index
            (SceneEntry.redrive s.scene.claims (List.replicate 16 none) r x.param (s.scene.entry r))
          claims := List.replicate 16 none } } := by
  refine State.takeBatch_of_one ?_ (touched_of_one (k := k) hx (.inr ⟨?_, ?_⟩))
  · rw [hclaims]
    exact claims_set_of_removed
  · rw [hclaims, List.getD_eq_getElem?_getD, List.getElem?_set_self (by simpa using hk)]
    rfl
  · rw [List.getD_eq_getElem?_getD, List.getElem?_replicate, if_pos hk]
    rfl

section
variable (before after : List (Option ClaimRecord)) (r : NodeRef) (e : SceneEntry)

theorem SceneEntry.redrive_brightness : SceneEntry.redrive before after r .brightness e =
    { e with brightness :=
        e.brightness.redrive (driverOf after r .brightness 0) (releaseOf before e.brightness.drive) } := rfl

theorem SceneEntry.redrive_intensity : SceneEntry.redrive before after r .intensity e =
    { e with intensity :=
        e.intensity.redrive (driverOf after r .intensity 0) (releaseOf before e.intensity.drive) } := rfl

theorem SceneEntry.redrive_preset : SceneEntry.redrive before after r .preset e =
    { e with preset := e.preset.redrive (driverOf after r .preset 0) } := rfl

end

/-- Settles O41: a batch is a list of updates to the listed parameters, and driving a parameter anew twice is driving it once. -/
theorem batchesDriveTheParameters : Obligations.BatchesDriveTheParameters := by
  unfold Obligations.BatchesDriveTheParameters
  refine ⟨?activate, ?deactivate, ?batch, ?records, ?drivers, ?driven, ?redriven, ?preset⟩
  case activate =>
    intro k r x batches s hmail hk hclaims hx hkind h1 h30 e drive attack after
    have hstep := State.takeBatch_of_activation (s := { s with mail := { s.mail with batches := batches } }) hk hclaims hx hkind
    have hexec (e' : SceneEntry) (he : SceneEntry.redrive s.scene.claims (s.scene.claims.set k (some x)) r x.param e = e') :
        exec .tallyBatch s = .next (after e').ended :=
      (exec_tallyBatch_of_mail hmail).trans (ended_congr (hstep.trans (congrArg after he)))
    have hdriver : driverOf (s.scene.claims.set k (some x)) r x.param 0 = some (k, x) := by
      rw [hclaims]
      exact driverOf_of_one_claim hk (hx ▸ List.mem_singleton_self r)
    refine ⟨fun hp hd => hexec _ ?_, fun hp hd => hexec _ ?_, fun hp _ => hexec _ ?_⟩
    · rw [hp] at hdriver ⊢
      rw [SceneEntry.redrive_brightness, hdriver, LevelParam.redrive_of_first hd]
      rfl
    · rw [hp] at hdriver ⊢
      rw [SceneEntry.redrive_intensity, hdriver, LevelParam.redrive_of_first hd]
      rfl
    · rw [hp] at hdriver ⊢
      rw [SceneEntry.redrive_preset, hdriver]
      rfl
  case deactivate =>
    intro k r x d batches s hmail hk hclaims hx hrule e release after
    have hstep := State.takeBatch_of_deactivation (s := { s with mail := { s.mail with batches := batches } }) hk hclaims hx
    have hexec (e' : SceneEntry) (he : SceneEntry.redrive s.scene.claims (List.replicate 16 none) r x.param e = e') :
        exec .tallyBatch s = .next (after e').ended :=
      (exec_tallyBatch_of_mail hmail).trans (ended_congr (hstep.trans (congrArg after he)))
    have hrelease : releaseOf s.scene.claims (some d) = x.release := by
      refine releaseOf_of_record ?_
      rw [hclaims, hrule, List.getD_eq_getElem?_getD, List.getElem?_set_self (by simpa using hk)]
      rfl
    refine ⟨fun hp hd => hexec _ ?_, fun hp hd => hexec _ ?_, fun hp _ => hexec _ ?_⟩
    · rw [hp, SceneEntry.redrive_brightness, driverOf_of_no_claims, LevelParam.redrive_of_release hd, hd, hrelease]
      rfl
    · rw [hp, SceneEntry.redrive_intensity, driverOf_of_no_claims, LevelParam.redrive_of_release hd, hd, hrelease]
      rfl
    · rw [hp, SceneEntry.redrive_preset, driverOf_of_no_claims]
      rfl
  case batch =>
    intro batch batches s before after listed hmail hlen hlisted
    have hiff (r : NodeRef) (p : OverParam) : listed r p ↔ Listed before after (batch.map TallyClaim.rule) r p := by
      simp only [listed, Listed, List.mem_map, exists_exists_and_eq_and]
    simp only [hiff] at hlisted ⊢
    refine ⟨_, exec_tallyBatch_of_mail hmail, rfl, fun r h1 h30 => ?_, ?_⟩
    · have hview {β : Type} (view : SceneEntry → β) (F : β → β) (p : OverParam) := State.takeBatch_view
        (s := { s with mail := { s.mail with batches := batches } }) (r := r) view F p hlen rfl hlisted ⟨h1, h30⟩
      have hkeep {β : Type} (view : SceneEntry → β)
          (h : ∀ p e, view (SceneEntry.redrive before after r p e) = view e) :
          view ((State.takeBatch batch { s with mail := { s.mail with batches := batches } }).scene.entry r) =
            view (s.scene.entry r) := by
        obtain ⟨hlist, hnot⟩ := hview view id .preset (h .preset) (fun _ => rfl) (fun p' _ => h p')
        by_cases hl : Listed before after (batch.map TallyClaim.rule) r .preset
        · exact hlist hl
        · exact hnot hl
      obtain ⟨hb, hb'⟩ := hview (·.brightness)
        (fun b => b.redrive (driverOf after r .brightness 0) (releaseOf before b.drive)) .brightness (fun _ => rfl)
        (fun b => LevelParam.redrive_redrive _ _ _ b) (fun p hp e => by cases p <;> trivial)
      obtain ⟨hi, hi'⟩ := hview (·.intensity)
        (fun b => b.redrive (driverOf after r .intensity 0) (releaseOf before b.drive)) .intensity (fun _ => rfl)
        (fun b => LevelParam.redrive_redrive _ _ _ b) (fun p hp e => by cases p <;> trivial)
      obtain ⟨hp, hp'⟩ := hview (·.preset) (fun b => b.redrive (driverOf after r .preset 0)) .preset (fun _ => rfl)
        (fun b => rfl) (fun p hp e => by cases p <;> trivial)
      exact ⟨hkeep (·.source) fun p e => by cases p <;> rfl, hkeep (·.clamp) fun p e => by cases p <;> rfl,
        hkeep (·.overheat) fun p e => by cases p <;> rfl, hb, hb', hi, hi', hp, hp'⟩
    · have hscene := Scene.updates_eq (fun x : NodeRef × OverParam => x.1) (fun x => SceneEntry.redrive before after x.1 x.2)
        (touched before after (batch.map TallyClaim.rule)) s.scene
      exact congrArg (fun sc : Scene => ({ (s.setMail { s.mail with batches := batches }).ended with
        scene := { sc with claims := after } } : State)) hscene
  case records =>
    intro s claims k target param value attack release x
    exact ⟨rfl, rfl, rfl, rfl, rfl, rfl, nodup_eraseDups _, fun r => State.mem_claimRecord,
      fun d y h => releaseOf_of_record h⟩
  case drivers =>
    intro claims r p k x
    exact driverOf_zero_eq_some
  case driven =>
    intro p d j y len hd
    refine ⟨fun hj hy => LevelParam.redrive_of_same hd hj hy len, fun hj hy hg => LevelParam.redrive_of_gliding hd hj hy hg len,
      fun hj hy => ?_⟩
    rw [LevelParam.redrive_of_other hd hj, LevelParam.driven, LevelParam.startGlide, if_neg hy]
  case redriven =>
    intro p j y len driven
    refine ⟨fun hd => ⟨LevelParam.redrive_of_none hd len, LevelParam.redrive_of_first hd j y len⟩, fun d hd =>
      ⟨fun hj => LevelParam.redrive_of_other hd hj y len, fun hj hy hg => LevelParam.redrive_of_value hd hj hy hg len,
        LevelParam.redrive_of_release hd len⟩⟩
  case preset =>
    intro p j y
    exact ⟨rfl, rfl⟩

end Sys2Proof.Machine
end

section
/-! Still writes and clears (R107 to R111, R113). O37. -/

namespace Sys2Proof.Machine

/-! ### STILL_WRITE (R109 to R111) -/

theorem chainOf?_val (c : ChainId) : chainOf? c.val = some c := dif_pos c.isLt

theorem StillWriteArgs.slot?_of {x : StillWriteArgs} {c : ChainId} (hp : x.page ≤ 3) (hc : x.chain = c.val)
    (h1 : 1 ≤ x.address) (h30 : x.address ≤ 30) :
    x.slot? = some { page := x.page, chain := c, address := x.address } := by
  rw [StillWriteArgs.slot?, hc, chainOf?_val]
  exact if_pos ⟨hp, isAddress_of h1 h30⟩

theorem StillWriteArgs.fits_of {x : StillWriteArgs} (ho : x.offset ≤ 4095) (ht1 : 1 ≤ x.total) (ht : x.total ≤ 4096)
    (hl1 : 1 ≤ x.chunk.length) (hl : x.chunk.length ≤ 1024) (hin : x.offset + x.chunk.length ≤ x.total)
    (hlast : x.offset + x.chunk.length = x.total ↔ x.crc.isSome = true) : x.fits = true := by
  have hcrc : (x.last == x.crc.isSome) = true := by
    rw [beq_iff_eq, StillWriteArgs.last, Bool.eq_iff_iff, decide_eq_true_iff]
    exact hlast
  simp [StillWriteArgs.fits, ho, ht1, ht, hl1, hl, hin, hcrc]

section
variable {q : Request} {rest : List Request} {s : State} {x : StillWriteArgs} {r : StillRef}

theorem exec_stillWriteBegin_of_args (hq : Waits .stillWriteBegin q rest s) (hx : stillWrite? q.body = some x)
    (hslot : x.slot? = some r) (hfits : x.fits = true) :
    exec .stillWriteBegin s = .next ((s.taken rest).beginFill q r x).ended := by
  rw [show exec .stillWriteBegin s = execStillWriteBegin s from rfl, execStillWriteBegin, takeWith_some hq hx]
  refine ended_congr ?_
  rw [State.stillWrite, hslot]
  exact if_pos hfits

theorem exec_stillWriteContinue_of_args (hq : Waits .stillWriteContinue q rest s) (hx : stillWrite? q.body = some x)
    (hslot : x.slot? = some r) (hfits : x.fits = true) :
    exec .stillWriteContinue s = .next ((s.taken rest).continueFill q r x).ended := by
  rw [show exec .stillWriteContinue s = execStillWriteContinue s from rfl, execStillWriteContinue, takeWith_some hq hx]
  refine ended_congr ?_
  rw [State.stillWrite, hslot]
  exact if_pos hfits

end

section
variable (q : Request) (r : StillRef) (total : Nat) {data : List Byte} (s : State)

theorem State.fill_of_none :
    s.fill q r total data none = (s.setStill r (.filling total data)).stillReply q .ok (some r) := rfl

theorem State.fill_of_match :
    s.fill q r total data (some (crc32 data)) = (s.setStill r (.ready data false)).stillReply q .ok (some r) := if_pos rfl

theorem State.fill_of_mismatch {w : Word32} (h : w ≠ crc32 data) :
    s.fill q r total data (some w) = (s.setStill r .empty).stillReply q .check (some r) := if_neg fun e => h e.symm

end

section
variable {q : Request} {r : StillRef} {x : StillWriteArgs} {s : State}

theorem StillSlot.marked_iff {y : StillSlot} : y.marked = true ↔ ∃ data, y = .ready data true := by
  cases y <;> simp [StillSlot.marked]

theorem State.beginFill_of_marked (h : (s.stills.slot r).marked = true) :
    s.beginFill q r x = s.stillReply q .busy (some r) := if_pos h

theorem State.beginFill_of_full (h : ¬ (s.stills.slot r).marked = true)
    (hfull : s.stills.unreserved + (s.stills.slot r).reserved < x.total) :
    s.beginFill q r x = s.stillReply q .full (some r) := (if_neg h).trans (if_pos hfull)

theorem State.beginFill_of_room (h : ¬ (s.stills.slot r).marked = true)
    (hroom : x.total ≤ s.stills.unreserved + (s.stills.slot r).reserved) :
    s.beginFill q r x = s.fill q r x.total x.chunk x.crc := (if_neg h).trans (if_neg (Nat.not_lt.2 hroom))

theorem State.continueFill_of_not_filling (h : ∀ total data, s.stills.slot r ≠ .filling total data) :
    s.continueFill q r x = s.stillReply q .sequence (some r) := by
  unfold State.continueFill
  cases hslot : s.stills.slot r with
  | filling total data => exact absurd hslot (h total data)
  | empty => rfl
  | ready data mark => rfl

theorem State.continueFill_of_next {total : Nat} {data : List Byte} (h : s.stills.slot r = .filling total data)
    (hnext : x.offset = data.length ∧ x.total = total) :
    s.continueFill q r x = s.fill q r total (data ++ x.chunk) x.crc := by
  rw [State.continueFill, h]
  exact if_pos hnext

theorem State.continueFill_of_gap {total : Nat} {data : List Byte} (h : s.stills.slot r = .filling total data)
    (hgap : ¬ (x.offset = data.length ∧ x.total = total)) :
    s.continueFill q r x = (s.setStill r .empty).stillReply q .sequence (some r) := by
  rw [State.continueFill, h]
  exact if_neg hgap

end

/-! ### STILL_CLEAR (R113) -/

theorem chainSlots_index (page : Nat) (c : ChainId) :
    (addresses.map fun a => StillRef.index { page := page, chain := c, address := a }) =
      List.range' (page * 120 + c.val * 30) 30 := by
  rw [addresses, List.map_map, ← Nat.add_zero (page * 120 + c.val * 30), ← List.map_add_range', ← List.range_eq_range']
  rfl

/-- The indices of a page's slots are its 120 places in order. -/
theorem pageSlots_index (page : Nat) : (pageSlots page).map StillRef.index = List.range' (page * 120) 120 := by
  have hchains : (pageSlots page).map StillRef.index =
      allChains.flatMap fun c => List.range' (page * 120 + c.val * 30) 30 := by
    simp only [pageSlots, List.map_flatMap, List.map_map, ← chainSlots_index]
    rfl
  have hsplit : List.range' (page * 120) 120 = List.range' (page * 120) 30 ++ (List.range' (page * 120 + 30) 30 ++
      (List.range' (page * 120 + 60) 30 ++ List.range' (page * 120 + 90) 30)) := by
    simp only [List.range'_append_1]
  rw [hchains, hsplit]
  rfl

theorem mem_pageSlots {page : Nat} {r : StillRef} :
    r ∈ pageSlots page ↔ r.page = page ∧ 1 ≤ r.address ∧ r.address ≤ 30 := by
  obtain ⟨p, c, a⟩ := r
  simp only [pageSlots, List.mem_flatMap, List.mem_map, mem_addresses, StillRef.mk.injEq]
  constructor
  · rintro ⟨d, _, b, hb, rfl, rfl, rfl⟩
    exact ⟨rfl, hb⟩
  · rintro ⟨rfl, ha⟩
    exact ⟨c, mem_allChains c, a, ha, rfl, rfl, rfl⟩

/-- A list with one value written at each of some places. -/
def writeAll {α : Type} (v : α) (is : List Nat) (l : List α) : List α := is.foldl (fun l i => l.set i v) l

theorem length_writeAll {α : Type} (v : α) (is : List Nat) (l : List α) : (writeAll v is l).length = l.length := by
  induction is generalizing l with
  | nil => rfl
  | cons i is ih => exact (ih (l.set i v)).trans List.length_set

theorem getElem?_writeAll {α : Type} (v : α) (is : List Nat) {l : List α} {k : Nat} (hk : k < l.length) :
    (writeAll v is l)[k]? = if k ∈ is then some v else l[k]? := by
  induction is generalizing l with
  | nil => rfl
  | cons i is ih =>
      refine (ih (l := l.set i v) (by simpa using hk)).trans ?_
      by_cases hmem : k ∈ is
      · rw [if_pos hmem, if_pos (List.mem_cons_of_mem i hmem)]
      · by_cases hi : k = i
        · subst hi
          rw [if_neg hmem, if_pos List.mem_cons_self, List.getElem?_set_self hk]
        · rw [if_neg hmem, if_neg (by simp [hi, hmem]), List.getElem?_set_ne fun h => hi h.symm]

theorem writeAll_range' {α : Type} (v : α) {l : List α} {a n : Nat} (h : a + n ≤ l.length) :
    writeAll v (List.range' a n) l = l.take a ++ List.replicate n v ++ l.drop (a + n) := by
  refine List.ext_getElem? fun k => ?_
  by_cases hk : k < l.length
  · rw [getElem?_writeAll v _ hk]
    simp only [List.mem_range'_1]
    grind
  · rw [List.getElem?_eq_none (by rw [length_writeAll]; omega), List.getElem?_eq_none (by grind)]

theorem map_getD_range' {α : Type} (d : α) {l : List α} {a n : Nat} (h : a + n ≤ l.length) :
    (List.range' a n).map (fun i => l.getD i d) = (l.drop a).take n := by
  refine List.ext_getElem? fun k => ?_
  grind

theorem State.clearing_eq (rs : List StillRef) (s : State) :
    rs.foldl (fun s r => s.setStill r .empty) s =
      { s with stills := { s.stills with slots := writeAll .empty (rs.map StillRef.index) s.stills.slots } } := by
  induction rs generalizing s with
  | nil => rfl
  | cons r rs ih => exact ih (s.setStill r .empty)

theorem Stills.map_slot (st : Stills) (rs : List StillRef) :
    rs.map st.slot = (rs.map StillRef.index).map fun i => st.slots.getD i .empty := by
  rw [List.map_map]
  rfl

theorem StillSlot.not_isEmpty (x : StillSlot) : (!x.isEmpty) = decide (x ≠ .empty) := by
  cases x <;> rfl

/-- The slots of a clear that holds something. -/
theorem Stills.emptied_eq (st : Stills) (rs : List StillRef) :
    (rs.filter fun r => !(st.slot r).isEmpty).length = (rs.map st.slot).countP fun x => decide (x ≠ .empty) := by
  simp only [StillSlot.not_isEmpty]
  rw [List.countP_map, List.countP_eq_length_filter]
  rfl

theorem State.clearStills_of_marked {q : Request} {rs : List StillRef} {s : State}
    (h : ∃ r ∈ rs, (s.stills.slot r).marked = true) : s.clearStills q rs = s.answer q .busy .empty :=
  if_pos (List.any_eq_true.2 h)

theorem State.clearStills_of_unmarked {q : Request} {rs : List StillRef} {s : State}
    (h : ∀ r ∈ rs, ¬ (s.stills.slot r).marked = true) {slots : List StillSlot}
    (hslots : writeAll .empty (rs.map StillRef.index) s.stills.slots = slots) {emptied : Nat}
    (hemptied : ((rs.map s.stills.slot).countP fun x => decide (x ≠ .empty)) = emptied) :
    s.clearStills q rs = State.answer q .ok (.stillClear emptied (Stills.unreserved { s.stills with slots := slots }))
      { s with stills := { s.stills with slots := slots } } := by
  have hany : ¬ (rs.any fun r => (s.stills.slot r).marked) = true := by
    rw [List.any_eq_true]
    rintro ⟨r, hr, hm⟩
    exact h r hr hm
  refine (if_neg hany).trans ?_
  dsimp only
  rw [State.clearing_eq, Stills.emptied_eq, hemptied, hslots]

theorem exec_stillClearSlot_of_args {q : Request} {rest : List Request} {s : State} {r : StillRef}
    (hq : Waits .stillClearSlot q rest s) (hx : stillClearSlot? q.body = some r) :
    exec .stillClearSlot s = .next ((s.taken rest).clearStills q [r]).ended := by
  rw [show exec .stillClearSlot s = execStillClearSlot s from rfl, execStillClearSlot, takeWith_some hq hx]

theorem exec_stillClearPage_of_args {q : Request} {rest : List Request} {s : State} {page : Nat}
    (hq : Waits .stillClearPage q rest s) (hx : stillClearPage? q.body = some page) :
    exec .stillClearPage s = .next ((s.taken rest).clearStills q (pageSlots page)).ended := by
  rw [show exec .stillClearPage s = execStillClearPage s from rfl, execStillClearPage, takeWith_some hq hx]

theorem stillClearPage?_le {body : List Byte} {page : Nat} (h : stillClearPage? body = some page) : page ≤ 3 := by
  unfold stillClearPage? at h
  split at h
  · simp only [inRange, check, Option.bind_eq_bind] at h
    grind
  · exact nomatch h

/-- Settles O37: a STILL_WRITE begins or continues a fill, and the last chunk's CRC-32 decides it; a STILL_CLEAR writes EMPTY
over the places of its slots. -/
theorem stillsAreWrittenAndCleared : Obligations.StillsAreWrittenAndCleared := by
  unfold Obligations.StillsAreWrittenAndCleared
  refine ⟨?write, ?clearSlot, ?clearPage⟩
  case write =>
    intro q rest s x c hx hp hc h1 h30 ho ht1 ht hl1 hl hin hlast r reply kept filled
    have hslot : x.slot? = some r := StillWriteArgs.slot?_of hp hc h1 h30
    have hfits := StillWriteArgs.fits_of ho ht1 ht hl1 hl hin hlast
    have hfilled (total : Nat) (htotal : x.total = total) (data : List Byte) :
        filled data (.next ((s.taken rest).fill q r total data x.crc).ended) := by
      subst htotal
      refine ⟨fun h => ?_, fun h => ?_, fun w h hw => ?_⟩
      · rw [h, State.fill_of_none]
        rfl
      · rw [h, State.fill_of_match]
        rfl
      · rw [h, State.fill_of_mismatch q r x.total _ hw]
        rfl
    refine ⟨fun hq => ?first, fun hq => ?next⟩
    case first =>
      have hexec := exec_stillWriteBegin_of_args hq hx hslot hfits
      refine ⟨fun data hmark => ?_, fun hmark => ?_⟩
      · exact hexec.trans (ended_congr (State.beginFill_of_marked (StillSlot.marked_iff.2 ⟨data, hmark⟩)))
      · have hfree : ¬ ((s.taken rest).stills.slot r).marked = true := fun h =>
          (StillSlot.marked_iff.1 h).elim hmark
        refine ⟨fun hfull => hexec.trans (ended_congr (State.beginFill_of_full hfree hfull)), fun hroom => ?_⟩
        rw [hexec, State.beginFill_of_room hfree hroom]
        exact hfilled _ rfl x.chunk
    case next =>
      have hexec := exec_stillWriteContinue_of_args hq hx hslot hfits
      refine ⟨fun hnot => hexec.trans (ended_congr (State.continueFill_of_not_filling hnot)), fun total data hfill => ?_⟩
      refine ⟨fun hoff htotal => ?_, fun hgap => ?_⟩
      · rw [hexec, State.continueFill_of_next (s := s.taken rest) hfill ⟨hoff, htotal⟩]
        exact hfilled total htotal _
      · have hnext : ¬ (x.offset = data.length ∧ x.total = total) := not_and_or.2 hgap
        exact hexec.trans (ended_congr (State.continueFill_of_gap hfill hnext))
  case clearSlot =>
    intro q rest s r hq hx
    have hexec := exec_stillClearSlot_of_args hq hx
    refine ⟨fun data hmark => ?_, fun hmark => ?_⟩
    · exact hexec.trans (ended_congr (State.clearStills_of_marked
        ⟨r, List.mem_singleton_self r, StillSlot.marked_iff.2 ⟨data, hmark⟩⟩))
    · intro t
      refine hexec.trans (ended_congr (State.clearStills_of_unmarked ?_ rfl ?_))
      · intro r' hr' h
        rw [List.mem_singleton.1 hr'] at h
        exact (StillSlot.marked_iff.1 h).elim hmark
      · by_cases hempty : s.stills.slot r = .empty <;> simp [hempty]
  case clearPage =>
    intro q rest s page hq hx hlen
    have hexec := exec_stillClearPage_of_args hq hx
    have hpage := stillClearPage?_le hx
    have hin : page * 120 + 120 ≤ s.stills.slots.length := by omega
    refine ⟨?_, fun hmark => ?_⟩
    · rintro ⟨c, a, data, h1, h30, hslot⟩
      exact hexec.trans (ended_congr (State.clearStills_of_marked
        ⟨{ page := page, chain := c, address := a }, mem_pageSlots.2 ⟨rfl, h1, h30⟩, StillSlot.marked_iff.2 ⟨data, hslot⟩⟩))
    · intro t
      refine hexec.trans (ended_congr (State.clearStills_of_unmarked ?_ ?_ ?_))
      · rintro ⟨p, c, a⟩ hr h
        obtain ⟨rfl, h1, h30⟩ := mem_pageSlots.1 hr
        obtain ⟨data, hdata⟩ := StillSlot.marked_iff.1 h
        exact hmark c a data h1 h30 hdata
      · rw [pageSlots_index]
        exact writeAll_range' _ hin
      · rw [Stills.map_slot, pageSlots_index, map_getD_range' _ (by exact hin)]
        rfl

end Sys2Proof.Machine
end

section
/-! The tally mask and the tally rules (R135 to R138). O43. -/

namespace Sys2Proof.Machine

/-! ### The mask (R135) -/

/-- The lines that enter the mask read off, every other line is kept. -/
def maskedOff (mask old lines : BitVec 8) : BitVec 8 := lines &&& ~~~(mask &&& ~~~old)

theorem maskedOff_getLsbD (mask old lines : BitVec 8) {k : Nat} (hk : k < 8) :
    (maskedOff mask old lines).getLsbD k = (lines.getLsbD k && !(mask.getLsbD k && !old.getLsbD k)) := by
  simp only [maskedOff, BitVec.getLsbD_and, BitVec.getLsbD_not, hk, decide_true, Bool.true_and]

theorem maskedOff_of_entering {mask old : BitVec 8} {k : Nat} (hk : k < 8) (hm : mask.getLsbD k = true)
    (ho : old.getLsbD k = false) (lines : BitVec 8) : (maskedOff mask old lines).getLsbD k = false := by
  rw [maskedOff_getLsbD mask old lines hk, hm, ho]
  exact Bool.and_false _

theorem maskedOff_of_not_entering {mask old : BitVec 8} {k : Nat} (hk : k < 8)
    (h : ¬ (mask.getLsbD k = true ∧ old.getLsbD k = false)) (lines : BitVec 8) :
    (maskedOff mask old lines).getLsbD k = lines.getLsbD k := by
  have hno : (mask.getLsbD k && !old.getLsbD k) = false := by
    simpa using h
  rw [maskedOff_getLsbD mask old lines hk, hno]
  exact Bool.and_true _

/-- The unit with a new mask. -/
def Tally.masked (mask : BitVec 8) (t : Tally) : Tally :=
  { t with mask := mask, sample := maskedOff mask t.mask t.sample, latched := maskedOff mask t.mask t.latched }

theorem exec_tallyMask_of_body {q : Request} {rest : List Request} {mask : BitVec 8} {s : State}
    (hq : Waits .tallyMask q rest s) (hbody : q.body = [mask]) :
    let batch := changeClaims s.tally.latched (s.tally.masked mask).latched 0 s.tally.rules
    exec .tallyMask s = .next
      (({ s.taken rest with
          tally := s.tally.masked mask,
          mail := { s.mail with batches := s.mail.batches ++ if batch = [] then [] else [batch] } } : State).replied q
            .ok .empty) := by
  intro batch
  have hx : tallyMask? q.body = some mask := by rw [hbody]; rfl
  rw [show exec .tallyMask s = execTallyMask s from rfl, execTallyMask, takeWith_some hq hx, State.setMask,
    State.handBatch_eq]
  rfl

/-! ### Rules (R136 to R138) -/

theorem TallyRule.active_iff {latched : BitVec 8} {x : TallyRule} :
    x.active latched = true ↔
      x.enabled = true ∧ ((x.sense = .on ∧ latched.getLsbD x.line = true) ∨
        (x.sense = .off ∧ latched.getLsbD x.line = false)) := by
  unfold TallyRule.active
  cases x.sense <;> simp

section
variable {old new : BitVec 8} {x : TallyRule}

theorem changeClaims_of_same (h : x.active old = x.active new) (k : Nat) (rest : List TallyRule) :
    changeClaims old new k (x :: rest) = changeClaims old new (k + 1) rest := by
  rw [changeClaims, if_pos h, List.nil_append]

theorem changeClaims_of_entering (ho : x.active old = false) (hn : x.active new = true) (k : Nat) (rest : List TallyRule) :
    changeClaims old new k (x :: rest) = x.claim k :: changeClaims old new (k + 1) rest := by
  rw [changeClaims, ho, hn, if_neg Bool.false_ne_true, if_pos rfl, List.singleton_append]

theorem changeClaims_of_leaving (ho : x.active old = true) (hn : x.active new = false) (k : Nat) (rest : List TallyRule) :
    changeClaims old new k (x :: rest) = .deactivate k :: changeClaims old new (k + 1) rest := by
  rw [changeClaims, ho, hn, if_neg fun h => Bool.false_ne_true h.symm, if_neg Bool.false_ne_true, List.singleton_append]

end

theorem exec_tallyRuleSet_of_rule {q : Request} {rest : List Request} {k : Nat} {x : TallyRule} {s : State}
    (hq : Waits .tallyRuleSet q rest s) (hx : tallyRule? q.body = some (k, x)) :
    let claims := ruleClaims s.tally.latched k (s.tally.rules.getD k .reset) x
    exec .tallyRuleSet s = .next
      (({ s.taken rest with
          tally := { s.tally with rules := s.tally.rules.set k x },
          mail := { s.mail with batches := s.mail.batches ++ if claims = [] then [] else [claims] } } : State).replied q
            .ok (.ruleActive (x.active s.tally.latched))) := by
  intro claims
  rw [show exec .tallyRuleSet s = execTallyRuleSet s from rfl, execTallyRuleSet, takeWith_some hq hx]
  simp only [State.handBatch_eq]
  rfl

/-- Settles O43: the mask taken is one equation, read line by line; a rule set anew is one equation. -/
theorem tallyMaskAndRulesChangeTheActiveSet : Obligations.TallyMaskAndRulesChangeTheActiveSet := by
  unfold Obligations.TallyMaskAndRulesChangeTheActiveSet
  refine ⟨?mask, ?rule, ?active, ?changes⟩
  case mask =>
    intro q rest mask s hq hbody
    refine ⟨s.tally.masked mask, rfl, rfl, fun k hk => ⟨fun hm ho => ?_, fun h => ?_⟩, exec_tallyMask_of_body hq hbody⟩
    · exact ⟨maskedOff_of_entering hk hm ho _, maskedOff_of_entering hk hm ho _⟩
    · exact ⟨maskedOff_of_not_entering hk h _, maskedOff_of_not_entering hk h _⟩
  case rule =>
    intro q rest k x s hq hx _ old leaves enters claims
    exact exec_tallyRuleSet_of_rule hq hx
  case active =>
    intro latched x
    exact TallyRule.active_iff
  case changes =>
    intro old new k x rest
    exact ⟨fun h => changeClaims_of_same h k rest, fun ho hn => changeClaims_of_entering ho hn k rest,
      fun ho hn => changeClaims_of_leaving ho hn k rest, rfl⟩

end Sys2Proof.Machine
end

section
/-! The runners' records, aborts, and the requests on runners (R150 to R155, R169). O45. -/

namespace Sys2Proof.Machine

/-! ### Records -/

@[simp] theorem State.runner_updRunner_same (r : RunnerId) (f : Runner → Runner) (s : State) :
    (s.updRunner r f).runner r = f (s.runner r) := by
  fin_cases r <;> rfl

theorem RunState.holdsSlot_iff {x : RunState} : x.holdsSlot = true ↔ x = .armed ∨ ∃ w, x = .waiting w := by
  cases x <;> simp [RunState.holdsSlot]

theorem State.clearMarks_of_steps {s : State} {slot : Nat} {l : List SlotStep} (h : s.steps slot = some l) :
    s.clearMarks slot =
      { s with cues := { s.cues with slots := s.cues.slots.set slot (some (l.map fun x => { x with mark := none })) } } := by
  rw [State.clearMarks, State.updSteps, h]
  rfl

/-! ### Aborts (R155) -/

/-- The runner ABORTED and its CUE report made. -/
def State.gone (r : RunnerId) (reason : AbortReason) (evicted : Option Evicted) (u : Runner) (s : State) : State :=
  State.report (.cue (.aborted reason evicted) r u.slot u.step s.e)
    { s with cues := { s.cues with runners := s.cues.runners.set r { u with state := .aborted reason } } }

theorem State.abortReport_eq (r : RunnerId) (reason : AbortReason) (evicted : Option Evicted) (s : State) :
    (s.setRun r (.aborted reason)).cueReport (.aborted reason evicted) r = s.gone r reason evicted (s.runner r) := by
  rw [State.cueReport, State.setRun, State.runner_updRunner_same]
  rfl

theorem State.abort_of_not_room {s : State} {r : RunnerId} (reason : AbortReason) (evicted : Option Evicted)
    (h : ∀ c cmd refs, (s.runner r).state ≠ .waiting (.room c cmd refs)) :
    s.abort r reason evicted = s.gone r reason evicted (s.runner r) := by
  rw [← State.abortReport_eq]
  unfold State.abort
  cases hst : (s.runner r).state with
  | waiting w => cases w with
      | room c cmd refs => exact absurd hst (h c cmd refs)
      | ticks k => rfl
      | frame f => rfl
      | go => rfl
      | check l f g k => rfl
      | confirm b k => rfl
  | idle => rfl
  | armed => rfl
  | parked => rfl
  | aborted k => rfl

theorem State.abort_of_room {s : State} {r : RunnerId} (reason : AbortReason) (evicted : Option Evicted) {c : ChainId}
    {cmd : ConfigCmd} {refs : List NodeRef} (h : (s.runner r).state = .waiting (.room c cmd refs)) :
    s.abort r reason evicted =
      (s.setChain c ((s.chains.get c).withdrawClaim r)).gone r reason evicted (s.runner r) := by
  refine .trans ?_ (State.abortReport_eq r reason evicted (s.setChain c ((s.chains.get c).withdrawClaim r)))
  unfold State.abort
  rw [h]
  rfl

/-! ### Requests on runners (R151 to R154, R169) -/

section
variable {q : Request} {rest : List Request} {s : State} {r : RunnerId}

theorem exec_runnerArm_of_busy {slot : Nat} (hq : Waits .runnerArm q rest s) (hx : runnerArm? q.body = some (r, slot))
    (h : (s.runner r).state.holdsSlot = true) :
    exec .runnerArm s = .next ((s.taken rest).replied q .state .empty) := by
  rw [show exec .runnerArm s = execRunnerArm s from rfl, execRunnerArm, takeWith_some hq hx]
  exact ended_congr (if_pos h)

theorem exec_runnerArm_of_empty {slot : Nat} (hq : Waits .runnerArm q rest s) (hx : runnerArm? q.body = some (r, slot))
    (h : ¬ (s.runner r).state.holdsSlot = true) (hl : s.steps slot = none) :
    exec .runnerArm s = .next ((s.taken rest).replied q .notFound .empty) := by
  rw [show exec .runnerArm s = execRunnerArm s from rfl, execRunnerArm, takeWith_some hq hx]
  exact ended_congr ((if_neg h).trans (if_pos (Option.isNone_iff_eq_none.2 hl)))

theorem exec_runnerArm_of_steps {slot : Nat} {l : List SlotStep} (hq : Waits .runnerArm q rest s)
    (hx : runnerArm? q.body = some (r, slot)) (h : ¬ (s.runner r).state.holdsSlot = true) (hl : s.steps slot = some l) :
    exec .runnerArm s = .next
      (({ s.taken rest with
          cues := { slots := s.cues.slots.set slot (some (l.map fun x => { x with mark := none })),
                    runners := s.cues.runners.set r { state := .armed, slot := some slot, step := none } } } : State).replied
        q .ok .empty) := by
  have hsome : ¬ (s.steps slot).isNone = true := by
    rw [hl]
    exact Bool.false_ne_true
  rw [show exec .runnerArm s = execRunnerArm s from rfl, execRunnerArm, takeWith_some hq hx]
  refine ended_congr ((if_neg h).trans ((if_neg hsome).trans ?_))
  rw [State.clearMarks_of_steps (s := (s.taken rest).updRunner r _) hl]
  rfl

theorem exec_runnerGo_of_armed (hq : Waits .runnerGo q rest s) (hx : runner? q.body = some r)
    (h : (s.runner r).state = .armed) :
    exec .runnerGo s = .next (((s.taken rest).release r 0).replied q .ok .empty) := by
  rw [show exec .runnerGo s = execRunnerGo s from rfl, execRunnerGo, takeWith_some hq hx]
  rw [show (s.taken rest).runner r = s.runner r from rfl, h]
  rfl

theorem exec_runnerGo_of_waiting (hq : Waits .runnerGo q rest s) (hx : runner? q.body = some r)
    (h : (s.runner r).state = .waiting .go) :
    exec .runnerGo s = .next (((s.taken rest).completeWait r .done).replied q .ok .empty) := by
  rw [show exec .runnerGo s = execRunnerGo s from rfl, execRunnerGo, takeWith_some hq hx]
  rw [show (s.taken rest).runner r = s.runner r from rfl, h]
  rfl

theorem exec_runnerGo_of_other (hq : Waits .runnerGo q rest s) (hx : runner? q.body = some r)
    (harmed : (s.runner r).state ≠ .armed) (hgo : (s.runner r).state ≠ .waiting .go) :
    exec .runnerGo s = .next ((s.taken rest).replied q .state .empty) := by
  rw [show exec .runnerGo s = execRunnerGo s from rfl, execRunnerGo, takeWith_some hq hx]
  rw [show (s.taken rest).runner r = s.runner r from rfl]
  cases hst : (s.runner r).state with
  | waiting w => cases w with
      | go => exact absurd hst hgo
      | room c cmd refs => rfl
      | ticks k => rfl
      | frame f => rfl
      | check l f g k => rfl
      | confirm b k => rfl
  | armed => exact absurd hst harmed
  | idle => rfl
  | parked => rfl
  | aborted k => rfl

theorem exec_runnerConfirm_of_waiting (hq : Waits .runnerConfirm q rest s) (hx : runner? q.body = some r) {second : Bool}
    {left : Nat} (h : (s.runner r).state = .waiting (.confirm second left)) :
    exec .runnerConfirm s = .next (((s.taken rest).completeWait r .done).replied q .ok .empty) := by
  rw [show exec .runnerConfirm s = execRunnerConfirm s from rfl, execRunnerConfirm, takeWith_some hq hx]
  rw [show (s.taken rest).runner r = s.runner r from rfl, h]
  rfl

theorem exec_runnerConfirm_of_other (hq : Waits .runnerConfirm q rest s) (hx : runner? q.body = some r)
    (h : ∀ second left, (s.runner r).state ≠ .waiting (.confirm second left)) :
    exec .runnerConfirm s = .next ((s.taken rest).replied q .state .empty) := by
  rw [show exec .runnerConfirm s = execRunnerConfirm s from rfl, execRunnerConfirm, takeWith_some hq hx]
  rw [show (s.taken rest).runner r = s.runner r from rfl]
  cases hst : (s.runner r).state with
  | waiting w => cases w with
      | confirm b k => exact absurd hst (h b k)
      | go => rfl
      | room c cmd refs => rfl
      | ticks k => rfl
      | frame f => rfl
      | check l f g k => rfl
  | armed => rfl
  | idle => rfl
  | parked => rfl
  | aborted k => rfl

theorem exec_runnerResume_of_parked (hq : Waits .runnerResume q rest s) (hx : runner? q.body = some r) {slot : Nat}
    {l : List SlotStep} (h : (s.runner r).state = .parked) (hslot : (s.runner r).slot = some slot)
    (hl : s.steps slot = some l) :
    exec .runnerResume s = .next
      ((State.release r 0 { s.taken rest with
          cues := { s.cues with slots := s.cues.slots.set slot (some (l.map fun x => { x with mark := none })) } }).replied
        q .ok .empty) := by
  rw [show exec .runnerResume s = execRunnerResume s from rfl, execRunnerResume, takeWith_some hq hx]
  rw [show (s.taken rest).runner r = s.runner r from rfl, h, hslot]
  dsimp only [Option.getD_some]
  rw [State.clearMarks_of_steps (s := s.taken rest) hl]
  rfl

theorem exec_runnerResume_of_other (hq : Waits .runnerResume q rest s) (hx : runner? q.body = some r)
    (h : (s.runner r).state ≠ .parked) :
    exec .runnerResume s = .next ((s.taken rest).replied q .state .empty) := by
  rw [show exec .runnerResume s = execRunnerResume s from rfl, execRunnerResume, takeWith_some hq hx]
  rw [show (s.taken rest).runner r = s.runner r from rfl]
  cases hst : (s.runner r).state with
  | parked => exact absurd hst h
  | waiting w => rfl
  | armed => rfl
  | idle => rfl
  | aborted k => rfl

theorem exec_runnerClear_of_aborted (hq : Waits .runnerClear q rest s) (hx : runner? q.body = some r) {reason : AbortReason}
    (h : (s.runner r).state = .aborted reason) :
    exec .runnerClear s = .next (((s.taken rest).setRun r .idle).replied q .ok .empty) := by
  rw [show exec .runnerClear s = execRunnerClear s from rfl, execRunnerClear, takeWith_some hq hx]
  rw [show (s.taken rest).runner r = s.runner r from rfl, h]
  rfl

theorem exec_runnerClear_of_other (hq : Waits .runnerClear q rest s) (hx : runner? q.body = some r)
    (h : ∀ reason, (s.runner r).state ≠ .aborted reason) :
    exec .runnerClear s = .next ((s.taken rest).replied q .state .empty) := by
  rw [show exec .runnerClear s = execRunnerClear s from rfl, execRunnerClear, takeWith_some hq hx]
  rw [show (s.taken rest).runner r = s.runner r from rfl]
  cases hst : (s.runner r).state with
  | aborted k => exact absurd hst (h k)
  | waiting w => rfl
  | armed => rfl
  | idle => rfl
  | parked => rfl

theorem exec_runnerHalt_of_idle (hq : Waits .runnerHalt q rest s) (hx : runner? q.body = some r)
    (h : (s.runner r).state = .idle) :
    exec .runnerHalt s = .next ((s.taken rest).replied q .state .empty) := by
  rw [show exec .runnerHalt s = execRunnerHalt s from rfl, execRunnerHalt, takeWith_some hq hx]
  rw [show (s.taken rest).runner r = s.runner r from rfl, h]
  rfl

theorem exec_runnerHalt_of_other (hq : Waits .runnerHalt q rest s) (hx : runner? q.body = some r)
    (h : (s.runner r).state ≠ .idle) {t : State} (ht : (s.taken rest).abort r .halted none = t) :
    exec .runnerHalt s = .next
      ((t.setMail { t.mail with toScene := t.mail.toScene ++ [.halt r] }).replied q .ok .empty) := by
  subst ht
  rw [show exec .runnerHalt s = execRunnerHalt s from rfl, execRunnerHalt, takeWith_some hq hx]
  rw [show (s.taken rest).runner r = s.runner r from rfl]
  cases hst : (s.runner r).state with
  | idle => exact absurd hst h
  | waiting w => rfl
  | armed => rfl
  | parked => rfl
  | aborted k => rfl

end

/-- Settles O45: each request by the state of its runner. -/
theorem runnerRequestsFollowTheState : Obligations.RunnerRequestsFollowTheState := by
  unfold Obligations.RunnerRequestsFollowTheState
  refine ⟨?arm, ?others⟩
  case arm =>
    intro q rest r slot s hq hx busy
    refine ⟨fun h => exec_runnerArm_of_busy hq hx (RunState.holdsSlot_iff.2 h), fun h hl => ?_, fun h l hl => ?_⟩
    · exact exec_runnerArm_of_empty hq hx (fun hb => h (RunState.holdsSlot_iff.1 hb)) hl
    · exact exec_runnerArm_of_steps hq hx (fun hb => h (RunState.holdsSlot_iff.1 hb)) hl
  case others =>
    intro q rest r s hx u t
    refine ⟨fun hq => ?go, fun hq => ?confirm, fun hq => ?resume, fun hq => ?clear, fun hq => ?halt⟩
    case go =>
      exact ⟨exec_runnerGo_of_armed hq hx, exec_runnerGo_of_waiting hq hx, exec_runnerGo_of_other hq hx⟩
    case confirm =>
      refine ⟨?_, fun h => exec_runnerConfirm_of_other hq hx fun second left hst => h ⟨second, left, hst⟩⟩
      rintro ⟨second, left, hst⟩
      exact exec_runnerConfirm_of_waiting hq hx hst
    case resume =>
      refine ⟨?_, exec_runnerResume_of_other hq hx⟩
      intro slot l hst hslot hl cleared
      exact exec_runnerResume_of_parked hq hx hst hslot hl
    case clear =>
      exact ⟨fun reason hst => exec_runnerClear_of_aborted hq hx hst, exec_runnerClear_of_other hq hx⟩
    case halt =>
      intro halted
      refine ⟨exec_runnerHalt_of_idle hq hx, fun hidle hroom => ?_, ?_⟩
      · exact exec_runnerHalt_of_other hq hx hidle (State.abort_of_not_room (s := s.taken rest) .halted none hroom)
      · intro c cmd refs hst ch
        have hidle : (s.runner r).state ≠ .idle := fun h => nomatch h.symm.trans hst
        exact exec_runnerHalt_of_other hq hx hidle (State.abort_of_room (s := s.taken rest) .halted none hst)

end Sys2Proof.Machine
end

section
/-! Steps taken one by one by a released runner (R156 to R160, R163, R168, R171). O46. -/

namespace Sys2Proof.Machine

/-! ### What a step leaves of its runner -/

/-- The runner at its step `k`. -/
def State.atStep (r : RunnerId) (k : Nat) (s : State) : State := s.updRunner r fun u => { u with step := some k }

@[simp] theorem State.runner_atStep (r : RunnerId) (k : Nat) (s : State) :
    (s.atStep r k).runner r = { s.runner r with step := some k } := State.runner_updRunner_same r _ s

theorem State.stepAt_atStep (r : RunnerId) (k j : Nat) (s : State) : (s.atStep r k).stepAt r j = s.stepAt r j := by
  unfold State.stepAt State.list
  rw [State.runner_atStep]
  rfl

@[simp] theorem State.runner_mark (r d : RunnerId) (k : Nat) (o : MarkOutcome) (s : State) :
    (s.mark r k o).runner d = s.runner d := by
  unfold State.mark
  cases (s.runner r).slot <;> rfl

@[simp] theorem State.e_mark (r : RunnerId) (k : Nat) (o : MarkOutcome) (s : State) : (s.mark r k o).e = s.e := by
  unfold State.mark
  cases (s.runner r).slot <;> rfl

theorem markStep_of_step {k : Nat} {l : List SlotStep} {x : SlotStep} (hx : l[k]? = some x) (m : Mark) :
    markStep k m l = l.set k { x with mark := some m } := by
  refine List.ext_getElem? fun j => ?_
  rw [markStep]
  grind

theorem State.mark_of_step {s : State} {r : RunnerId} {slot k : Nat} {l : List SlotStep} {x : SlotStep}
    (hslot : (s.runner r).slot = some slot) (hl : s.steps slot = some l) (hx : l[k]? = some x) (o : MarkOutcome) :
    s.mark r k o = { s with
      cues := { s.cues with
        slots := s.cues.slots.set slot
          (some (l.set k { x with mark := some { runner := r, frame := s.e, outcome := o } })) } } := by
  rw [State.mark, hslot]
  dsimp only
  rw [State.updSteps, hl, Option.map_some, markStep_of_step hx]

/-! ### The run (R156) -/

/-- A step taken, and the run that follows it. -/
def State.runStep (r : RunnerId) (fuel k : Nat) (st : Option CueStep) (s : State) : State :=
  match st with
  | none => s
  | some st => if (s.takeStep r k st).2 then (s.takeStep r k st).1.runFrom r fuel (k + 1) else (s.takeStep r k st).1

theorem State.runFrom_succ (r : RunnerId) (fuel k : Nat) (s : State) :
    s.runFrom r (fuel + 1) k = (s.atStep r k).runStep r fuel k (s.stepAt r k) := by
  rw [← State.stepAt_atStep r k k]
  rfl

section
variable {r : RunnerId} {fuel k : Nat} {s t : State}

theorem State.runFrom_of_none (h : s.stepAt r k = none) : s.runFrom r (fuel + 1) k = s.atStep r k := by
  rw [State.runFrom_succ, h]
  rfl

theorem State.runFrom_of_done {st : CueStep} (h : s.stepAt r k = some st)
    (hstep : (s.atStep r k).takeStep r k st = (t, true)) : s.runFrom r (fuel + 1) k = t.runFrom r fuel (k + 1) := by
  rw [State.runFrom_succ, h, State.runStep, hstep]
  rfl

theorem State.runFrom_of_wait {st : CueStep} (h : s.stepAt r k = some st)
    (hstep : (s.atStep r k).takeStep r k st = (t, false)) : s.runFrom r (fuel + 1) k = t := by
  rw [State.runFrom_succ, h, State.runStep, hstep]
  rfl

end

/-! ### Offers (R160) -/

section
variable {r : RunnerId} {cmd : ConfigCmd} {x : NodeRef} {rest : List NodeRef} {t : State}

theorem State.offerAll_of_absent (h : t.node x = none) : t.offerAll r cmd (x :: rest) = t.offerAll r cmd rest := by
  rw [State.offerAll]
  exact if_neg (by rw [h]; exact Bool.false_ne_true)

theorem State.offerAll_of_room {n : Node} (h : t.node x = some n) (hroom : (t.chains.get x.chain).takesConfig = true) :
    t.offerAll r cmd (x :: rest) =
      (t.setChain x.chain ((t.chains.get x.chain).enqueue (cmd.readdress x.address) (.runner r))).offerAll r cmd rest := by
  rw [State.offerAll]
  refine (if_pos (by rw [h]; rfl)).trans ((if_pos hroom).trans ?_)
  exact congrArg (fun ch => (t.setChain x.chain ch).offerAll r cmd rest) (if_pos hroom)

theorem State.offerAll_of_no_room {n : Node} (h : t.node x = some n) (hroom : ¬ (t.chains.get x.chain).takesConfig = true) :
    t.offerAll r cmd (x :: rest) =
      ((t.setChain x.chain { t.chains.get x.chain with
          claims := (t.chains.get x.chain).claims ++ [{ runner := r, cmd := cmd.readdress x.address }] }).setRun r
        (.waiting (.room x.chain (cmd.readdress x.address) rest)), false) := by
  rw [State.offerAll]
  refine (if_pos (by rw [h]; rfl)).trans ((if_neg hroom).trans ?_)
  exact congrArg (fun ch => ((t.setChain x.chain ch).setRun r
    (.waiting (.room x.chain (cmd.readdress x.address) rest)), false)) (if_neg hroom)

end

/-! ### Losses passed by (R166) -/

theorem State.passNotices_chain (r : RunnerId) (s : State) (c : ChainId) :
    (s.passNotices r).chains.get c = (s.chains.get c).passLost r := by
  fin_cases c <;> rfl

theorem State.passNotices_notices (r : RunnerId) (s : State) (c : ChainId) :
    (s.passNotices r).mail.notices.get c = (s.mail.notices.get c).map (RunnerMsg.passed r) := by
  fin_cases c <;> rfl

/-- Settles O46: each kind of step by what it does at once; the run then goes on or stands. -/
theorem stepsAreTakenOneByOne : Obligations.StepsAreTakenOneByOne := by
  unfold Obligations.StepsAreTakenOneByOne
  intro r fuel k s at_ run waits onward hands report
  have hreport (c : CueCause) {t : State} {x : RunState} (hu : t.runner r = ⟨x, (s.runner r).slot, some k⟩)
      (he : t.e = s.e) : t.cueReport c r = report c t := by
    rw [State.cueReport, hu, he]
    rfl
  have hat : at_.runner r = ⟨(s.runner r).state, (s.runner r).slot, some k⟩ := State.runner_atStep r k s
  have hmark (o : MarkOutcome) : (at_.mark r k o).runner r = ⟨(s.runner r).state, (s.runner r).slot, some k⟩ := by
    rw [State.runner_mark, hat]
  have hmarkE (o : MarkOutcome) : (at_.mark r k o).e = s.e := State.e_mark r k o at_
  have hended (x : RunState) : ((at_.mark r k .done).setRun r x).runner r = ⟨x, (s.runner r).slot, some k⟩ := by
    rw [State.setRun, State.runner_updRunner_same, hmark]
  refine ⟨?none, ?look, ?fadeB, ?fadeI, ?wait, ?sync, ?go, ?configure, ?enable, ?offers, ?release, ?passed, ?expect, ?confirm,
    ?finish, ?stop, ?mark⟩
  case none => exact State.runFrom_of_none
  case look =>
    intro sel v h
    exact State.runFrom_of_done h rfl
  case fadeB =>
    intro sel v n h
    exact State.runFrom_of_done h rfl
  case fadeI =>
    intro sel v n h
    exact State.runFrom_of_done h rfl
  case wait =>
    intro n h
    exact State.runFrom_of_wait h rfl
  case sync =>
    intro f h
    have hdone (hlater : later f s.e = false) : run = onward (at_.syncDone r k f s.e) :=
      State.runFrom_of_done h (if_neg (ne_true_of_eq_false hlater))
    refine ⟨fun hf => ?_, fun h1 h2 => ?_, fun hold => ?_⟩
    · rw [hdone (later_eq_false (.inl (by rw [hf]; exact congrArg BitVec.toNat (BitVec.sub_self _)))), State.syncDone,
        if_pos (show s.e = f from hf.symm)]
    · exact State.runFrom_of_wait h (if_pos (later_eq_true h1 h2))
    · have hne : s.e ≠ f := fun he => by
        rw [← he, State.e, BitVec.sub_self] at hold
        exact absurd hold (by decide)
      rw [hdone (later_eq_false (.inr hold)), State.syncDone, if_neg hne,
        hreport _ (hmark .late) (hmarkE .late)]
      rfl
  case go =>
    intro h
    exact State.runFrom_of_wait h rfl
  case configure =>
    intro sel tag x h offered
    refine ⟨fun hall => State.runFrom_of_done h ?_, fun hall => State.runFrom_of_wait h ?_⟩
    · exact if_pos hall
    · exact (if_neg (ne_true_of_eq_false hall)).trans (Prod.ext rfl hall)
  case enable =>
    intro sel h offered
    refine ⟨fun hall => State.runFrom_of_done h ?_, fun hall => State.runFrom_of_wait h ?_⟩
    · exact if_pos hall
    · exact (if_neg (ne_true_of_eq_false hall)).trans (Prod.ext rfl hall)
  case offers =>
    intro t cmd
    refine ⟨rfl, ?_⟩
    intro x rest ch mine
    have hmine : cmd.readdress x.address = mine := by cases cmd <;> rfl
    refine ⟨State.offerAll_of_absent, fun n hn => ⟨fun hlen hclaims => ?_, fun hfull => ?_⟩⟩
    · rw [State.offerAll_of_room hn (Chain.takesConfig_iff.2 ⟨hlen, hclaims⟩), hmine]
      rfl
    · have hroom : ¬ ch.takesConfig = true := by
        rw [Chain.takesConfig_iff, not_and_or, Nat.not_lt]
        exact hfull
      rw [State.offerAll_of_no_room hn hroom, hmine]
      rfl
  case release =>
    intro t
    refine ⟨rfl, fun o j hj => ?_⟩
    rw [State.completeWait, State.stepIndex, hj]
    rfl
  case passed =>
    intro c
    refine ⟨State.passNotices_chain r s c, ?_⟩
    rw [State.passNotices_notices]
    exact List.map_congr_left fun m _ => by cases m <;> rfl
  case expect =>
    intro sel cond window strict h
    refine ⟨fun hnone => State.runFrom_of_done h ?_, fun hsome => State.runFrom_of_wait h ?_⟩
    · exact if_pos (List.isEmpty_iff.2 hnone)
    · exact if_neg fun he => hsome (List.isEmpty_iff.1 he)
  case confirm =>
    intro window fallback h
    rw [← hreport _ hat rfl]
    exact State.runFrom_of_wait h rfl
  case finish =>
    intro h
    refine State.runFrom_of_wait h (congrArg (·, false) ?_)
    exact hreport _ (hended .parked) (hmarkE .done)
  case stop =>
    intro h
    refine State.runFrom_of_wait h (congrArg (·, false) ?_)
    exact hreport _ (hended .idle) (hmarkE .done)
  case mark =>
    intro slot l x o hslot _ hl hx m
    exact State.mark_of_step hslot hl hx o

end Sys2Proof.Machine
end

section
/-! Ticks of the runners, the expiries of their waits, and aborts (R156, R158, R159, R165, R167, R168, R170, R172). O48. -/

namespace Sys2Proof.Machine

/-! ### What a runner's work leaves of the ticks -/

section
variable (r : RunnerId) (k : Nat) (s : State)

@[simp] theorem State.mail_mark (o : MarkOutcome) : (s.mark r k o).mail = s.mail := by
  unfold State.mark
  cases (s.runner r).slot <;> rfl

@[simp] theorem State.mail_abort (reason : AbortReason) (e : Option Evicted) : (s.abort r reason e).mail = s.mail := by
  by_cases h : ∃ c cmd refs, (s.runner r).state = .waiting (.room c cmd refs)
  · obtain ⟨c, cmd, refs, hst⟩ := h
    rw [State.abort_of_room reason e hst]
    rfl
  · rw [State.abort_of_not_room reason e fun c cmd refs hst => h ⟨c, cmd, refs, hst⟩]
    rfl

theorem State.mail_offerAll (cmd : ConfigCmd) (refs : List NodeRef) : (s.offerAll r cmd refs).1.mail = s.mail := by
  induction refs generalizing s with
  | nil => rfl
  | cons x rest ih =>
      cases hn : s.node x with
      | none => rw [State.offerAll_of_absent hn, ih]
      | some n =>
          by_cases hroom : (s.chains.get x.chain).takesConfig = true
          · rw [State.offerAll_of_room hn hroom, ih]
            rfl
          · rw [State.offerAll_of_no_room hn hroom]
            rfl

theorem State.mail_syncDone (f e : Word16) : (s.syncDone r k f e).mail = s.mail := by
  unfold State.syncDone
  split
  · exact State.mail_mark r k s .done
  · exact State.mail_mark r k s .late

theorem State.mail_offerStep (cmd : ConfigCmd) (refs : List NodeRef) : (s.offerStep r k cmd refs).1.mail = s.mail := by
  have hoffer := s.mail_offerAll r cmd refs
  unfold State.offerStep
  dsimp only
  split
  · exact (State.mail_mark r k _ .done).trans hoffer
  · exact hoffer

theorem State.ticks_takeStep (st : CueStep) : (s.takeStep r k st).1.mail.ticks = s.mail.ticks := by
  cases st with
  | look sel v =>
      have hmark := congrArg Mail.ticks (State.mail_mark r k (s.handWrite sel v none r) .done)
      exact hmark
  | fade sel p target frames =>
      have hmark := congrArg Mail.ticks (State.mail_mark r k (s.handWrite sel (levelValue p target) (some frames) r) .done)
      exact hmark
  | wait frames => rfl
  | syncFrame f =>
      unfold State.takeStep
      dsimp only
      split
      · rfl
      · exact congrArg Mail.ticks (s.mail_syncDone r k f s.e)
  | syncGo => rfl
  | configure sel tag x => exact congrArg Mail.ticks (s.mail_offerStep r k (.configure 31 tag x) (s.targets sel))
  | enable sel => exact congrArg Mail.ticks (s.mail_offerStep r k (.enable 31) (s.targets sel))
  | expect sel cond window strict =>
      unfold State.takeStep State.reachExpect
      dsimp only
      split
      · exact congrArg Mail.ticks (State.mail_mark r k s .done)
      · rfl
  | confirm window fallback => rfl
  | finish => exact congrArg Mail.ticks (State.mail_mark r k s .done)
  | stop => exact congrArg Mail.ticks (State.mail_mark r k s .done)

theorem State.ticks_runFrom (fuel : Nat) : (s.runFrom r fuel k).mail.ticks = s.mail.ticks := by
  induction fuel generalizing k s with
  | zero => rfl
  | succ fuel ih =>
      rw [State.runFrom_succ]
      cases s.stepAt r k with
      | none => rfl
      | some st =>
          have hstep := (s.atStep r k).ticks_takeStep r k st
          rw [State.runStep]
          split
          · exact (ih _ _).trans hstep
          · exact hstep

theorem State.ticks_release : (s.release r k).mail.ticks = s.mail.ticks := s.ticks_runFrom r k slotSize

theorem State.ticks_completeWait (o : MarkOutcome) : (s.completeWait r o).mail.ticks = s.mail.ticks :=
  (State.ticks_release r _ _).trans (congrArg Mail.ticks (State.mail_mark r _ s o))

end

/-! ### Waits (R158, R159, R165, R168, R170) -/

section
variable {r : RunnerId} {n : Word16} {s : State}

theorem State.tickRunner_of_waiting {w : Wait} (h : (s.runner r).state = .waiting w) : s.tickRunner r n = s.tickWait r n w := by
  rw [State.tickRunner, h]

theorem State.tickRunner_of_not_waiting (h : ∀ w, (s.runner r).state ≠ .waiting w) : s.tickRunner r n = s := by
  unfold State.tickRunner
  cases hst : (s.runner r).state with
  | waiting w => exact absurd hst (h w)
  | idle => rfl
  | armed => rfl
  | parked => rfl
  | aborted k => rfl

theorem State.tickWait_of_last_tick {left : Nat} (h : left ≤ 1) : s.tickWait r n (.ticks left) = s.completeWait r .done :=
  if_pos h

theorem State.tickWait_of_tick {left : Nat} (h : ¬ left ≤ 1) :
    s.tickWait r n (.ticks left) = s.setRun r (.waiting (.ticks (left - 1))) := if_neg h

theorem State.tickWait_of_frame_to_come {f : Word16} (h : later f n = true) : s.tickWait r n (.frame f) = s := if_pos h

theorem State.tickWait_of_frame_due {f : Word16} (h : later f n = false) :
    s.tickWait r n (.frame f) = (s.syncDone r (s.stepIndex r) f n).release r (s.stepIndex r + 1) :=
  if_neg (ne_true_of_eq_false h)

theorem State.tickWait_of_check {l : List NodeRef} {f : Option KindFilter} {g : List (ChainId × BitVec 4)} {left : Nat}
    (h : ¬ left ≤ 1) : s.tickWait r n (.check l f g left) = s.setRun r (.waiting (.check l f g (left - 1))) := if_neg h

theorem State.tickWait_of_window {second : Bool} {left : Nat} (h : ¬ left ≤ 1) :
    s.tickWait r n (.confirm second left) = s.setRun r (.waiting (.confirm second (left - 1))) := if_neg h

theorem State.expecting_of_step {sel : Selector} {cond : Condition} {window : Nat} {strict : Bool}
    (h : s.stepAt r (s.stepIndex r) = some (.expect sel cond window strict)) : s.expecting r = some (cond, strict) := by
  rw [State.expecting, h]

theorem State.expecting_of_other
    (h : ∀ sel cond window strict, s.stepAt r (s.stepIndex r) ≠ some (.expect sel cond window strict)) :
    s.expecting r = none := by
  unfold State.expecting
  split
  · exact absurd ‹_› (h _ _ _ _)
  · rfl

theorem State.confirming_of_step {window : Nat} {fallback : Option Nat}
    (h : s.stepAt r (s.stepIndex r) = some (.confirm window fallback)) : s.confirming r = some (window, fallback) := by
  rw [State.confirming, h]

theorem State.confirming_of_other (h : ∀ window fallback, s.stepAt r (s.stepIndex r) ≠ some (.confirm window fallback)) :
    s.confirming r = none := by
  unfold State.confirming
  split
  · exact absurd ‹_› (h _ _)
  · rfl

theorem State.expectFails_of_strict {cond : Condition} (h : s.expecting r = some (cond, true)) (cause : ExpectFail) :
    s.expectFails r cause =
      (s.raise (.expectFailed r (s.stepIndex r) cond cause) .runners cause.node).abort r .expectFailed none := by
  rw [State.expectFails, h]

theorem State.expectFails_of_lax {cond : Condition} (h : s.expecting r = some (cond, false)) (cause : ExpectFail) :
    s.expectFails r cause =
      ((s.mark r (s.stepIndex r) .missed).cueReport (.expectMissed cond cause) r).release r (s.stepIndex r + 1) := by
  rw [State.expectFails, h]

theorem State.tickWait_of_last_check {l : List NodeRef} {f : Option KindFilter} {g : List (ChainId × BitVec 4)} {left : Nat}
    (hleft : left ≤ 1) {cond : Condition} {strict : Bool} (h : s.expecting r = some (cond, strict)) :
    s.tickWait r n (.check l f g left) = s.expectFails r (.expired (s.firstUnsatisfied cond g (s.considered l f))) := by
  rw [State.tickWait, if_pos hleft, h]

theorem State.tickWait_of_last_check_elsewhere {l : List NodeRef} {f : Option KindFilter} {g : List (ChainId × BitVec 4)}
    {left : Nat} (hleft : left ≤ 1) (h : s.expecting r = none) : s.tickWait r n (.check l f g left) = s := by
  rw [State.tickWait, if_pos hleft, h]

theorem State.tickWait_of_first_window {left window : Nat} {fallback : Option Nat} (hleft : left ≤ 1)
    (h : s.confirming r = some (window, fallback)) : s.tickWait r n (.confirm false left) = s.firstExpiry r window := by
  rw [State.tickWait, if_pos hleft, h]
  rfl

theorem State.tickWait_of_second_window {left window : Nat} {fallback : Option Nat} (hleft : left ≤ 1)
    (h : s.confirming r = some (window, fallback)) : s.tickWait r n (.confirm true left) = s.secondExpiry r fallback := by
  rw [State.tickWait, if_pos hleft, h]
  rfl

theorem State.tickWait_of_window_elsewhere {left : Nat} {second : Bool} (hleft : left ≤ 1) (h : s.confirming r = none) :
    s.tickWait r n (.confirm second left) = s := by
  rw [State.tickWait, if_pos hleft, h]

end

/-! ### The tick taken (R156, R172) -/

theorem State.ticks_expectFails (r : RunnerId) (cause : ExpectFail) (s : State) :
    (s.expectFails r cause).mail.ticks = s.mail.ticks := by
  cases h : s.expecting r with
  | none => rw [State.expectFails, h]
  | some x =>
      obtain ⟨cond, strict⟩ := x
      cases strict with
      | true =>
          rw [State.expectFails_of_strict h, State.mail_abort]
          rfl
      | false =>
          rw [State.expectFails_of_lax h, State.ticks_release]
          exact congrArg Mail.ticks (State.mail_mark r _ s .missed)

theorem State.ticks_tickWait (r : RunnerId) (n : Word16) (w : Wait) (s : State) :
    (s.tickWait r n w).mail.ticks = s.mail.ticks := by
  cases w with
  | ticks left =>
      by_cases h : left ≤ 1
      · rw [State.tickWait_of_last_tick h, State.ticks_completeWait]
      · rw [State.tickWait_of_tick h]
        rfl
  | frame f =>
      cases h : later f n with
      | true => rw [State.tickWait_of_frame_to_come h]
      | false => rw [State.tickWait_of_frame_due h, State.ticks_release, State.mail_syncDone]
  | go => rfl
  | room c cmd refs => rfl
  | check l f g left =>
      by_cases h : left ≤ 1
      · cases hx : s.expecting r with
        | none => rw [State.tickWait_of_last_check_elsewhere h hx]
        | some x => rw [State.tickWait_of_last_check h hx, State.ticks_expectFails]
      · rw [State.tickWait_of_check h]
        rfl
  | confirm second left =>
      by_cases h : left ≤ 1
      · cases hx : s.confirming r with
        | none => rw [State.tickWait_of_window_elsewhere h hx]
        | some x =>
            obtain ⟨window, fallback⟩ := x
            cases second with
            | false =>
                rw [State.tickWait_of_first_window h hx]
                rfl
            | true =>
                rw [State.tickWait_of_second_window h hx]
                cases fallback with
                | none => exact congrArg Mail.ticks (State.mail_abort r s .unconfirmed none)
                | some b =>
                    refine (State.ticks_release r b _).trans ?_
                    exact congrArg Mail.ticks (State.mail_mark r _ (s.raise _ .runners none) .fellBack)
      · rw [State.tickWait_of_window h]
        rfl

theorem State.ticks_tickRunner (r : RunnerId) (n : Word16) (s : State) :
    (s.tickRunner r n).mail.ticks = s.mail.ticks := by
  by_cases h : ∃ w, (s.runner r).state = .waiting w
  · obtain ⟨w, hw⟩ := h
    rw [State.tickRunner_of_waiting hw, State.ticks_tickWait]
  · rw [State.tickRunner_of_not_waiting fun w hw => h ⟨w, hw⟩]

/-- A runner takes the one tick that waits for it. -/
def State.takeTick (n : Word16) (s : State) (r : RunnerId) : State := (s.setRunnerTicks r []).tickRunner r n

theorem State.takeOldest_of_tick {s : State} {r : RunnerId} {n : Word16} (h : s.mail.ticks.runners.get r = [n]) :
    s.takeOldest 1 r = s.takeTick n r := by
  rw [State.takeOldest, h]
  exact if_pos (Nat.le_refl 1)

theorem State.takeOldest_of_none {s : State} {r : RunnerId} (h : s.mail.ticks.runners.get r = []) (backlog : Nat) :
    s.takeOldest backlog r = s := by
  rw [State.takeOldest, h]

theorem State.takeTick_ticks (n : Word16) (s : State) (r : RunnerId) :
    (s.takeTick n r).mail.ticks.runners = s.mail.ticks.runners.set r [] :=
  congrArg Ticks.runners (State.ticks_tickRunner r n (s.setRunnerTicks r []))

theorem State.foldl_takeOldest {l : List RunnerId} (hl : l.Nodup) {s : State} {n : Word16}
    (h : ∀ d ∈ l, s.mail.ticks.runners.get d = [n]) : l.foldl (State.takeOldest 1) s = l.foldl (State.takeTick n) s := by
  induction l generalizing s with
  | nil => rfl
  | cons r l ih =>
      obtain ⟨hr, hl⟩ := List.nodup_cons.1 hl
      rw [List.foldl_cons, List.foldl_cons, State.takeOldest_of_tick (h r List.mem_cons_self)]
      refine ih hl fun d hd => ?_
      rw [State.takeTick_ticks, Three.get_set_ne _ fun e : d = r => hr (e ▸ hd)]
      exact h d (List.mem_cons_of_mem r hd)

theorem runnerOrder_nodup (o : RunnerOrder) : o.toList.Nodup := by cases o <;> decide

theorem mem_runnerOrder (o : RunnerOrder) (r : RunnerId) : r ∈ o.toList := by
  cases o <;> fin_cases r <;> decide

theorem State.runnerBacklog_of_all {s : State} {n : Word16} (h : s.mail.ticks.runners = .all [n]) : s.runnerBacklog = 1 := by
  rw [State.runnerBacklog, h]
  rfl

theorem exec_runnersTick_of_all {s : State} {n : Word16} (h : s.mail.ticks.runners = .all [n]) (order : RunnerOrder) :
    exec (.runnersTick order) s = .next (order.toList.foldl (State.takeTick n) s).ended := by
  rw [show exec (.runnersTick order) s = execRunnersTick order s from rfl, execRunnersTick, State.runnerBacklog_of_all h,
    if_neg Nat.one_ne_zero]
  refine ended_congr (State.foldl_takeOldest (runnerOrder_nodup order) fun d _ => ?_)
  rw [h, Three.get_all]

/-! ### A tick that no runner, or one runner, has a wait for -/

theorem State.runner_updRunner_ne {r d : RunnerId} (h : d ≠ r) (f : Runner → Runner) (s : State) :
    (s.updRunner r f).runner d = s.runner d := Three.get_set_ne _ h _

theorem State.updRunner_of_same {s : State} {r : RunnerId} {f : Runner → Runner} (h : f (s.runner r) = s.runner r) :
    s.updRunner r f = s := by
  have hset : s.cues.runners.set r (s.runner r) = s.cues.runners := Three.set_get _ r
  rw [State.updRunner, show f (s.cues.runners.get r) = s.runner r from h, hset]

/-- The ticks of a list of runners taken with nothing else done. -/
def State.dropTicks (l : List RunnerId) (s : State) : State := l.foldl (fun s r => s.setRunnerTicks r []) s

theorem State.dropTicks_order (order : RunnerOrder) (s : State) :
    s.dropTicks order.toList = s.setMail { s.mail with ticks := { s.mail.ticks with runners := .all [] } } := by
  cases order <;> rfl

theorem State.dropTicks_updRunner (l : List RunnerId) (r : RunnerId) (f : Runner → Runner) (s : State) :
    (s.updRunner r f).dropTicks l = (s.dropTicks l).updRunner r f := by
  induction l generalizing s with
  | nil => rfl
  | cons d l ih => exact ih (s.setRunnerTicks d [])

theorem State.foldl_takeTick_of_none {n : Word16} {l : List RunnerId} {s : State}
    (h : ∀ d ∈ l, ∀ w, (s.runner d).state ≠ .waiting w) : l.foldl (State.takeTick n) s = s.dropTicks l := by
  induction l generalizing s with
  | nil => rfl
  | cons r l ih =>
      have hr : s.takeTick n r = s.setRunnerTicks r [] :=
        State.tickRunner_of_not_waiting (s := s.setRunnerTicks r []) (h r List.mem_cons_self)
      rw [List.foldl_cons, hr]
      exact ih fun d hd => h d (List.mem_cons_of_mem r hd)

/-- A tick that only the runner `r` has a wait for, whose record it changes by `f`. -/
theorem State.foldl_takeTick_of_one {n : Word16} {l : List RunnerId} (hl : l.Nodup) {s : State} {r : RunnerId} (hr : r ∈ l)
    (hothers : ∀ d ∈ l, d ≠ r → ∀ w, (s.runner d).state ≠ .waiting w) {f : Runner → Runner}
    (hstep : ∀ t : State, t.runner r = s.runner r → t.tickRunner r n = t.updRunner r f) :
    l.foldl (State.takeTick n) s = (s.dropTicks l).updRunner r f := by
  induction l generalizing s with
  | nil => exact absurd hr List.not_mem_nil
  | cons d l ih =>
      obtain ⟨hd, hl⟩ := List.nodup_cons.1 hl
      rw [List.foldl_cons]
      by_cases hdr : d = r
      · subst hdr
        have htake : s.takeTick n d = (s.setRunnerTicks d []).updRunner d f := hstep (s.setRunnerTicks d []) rfl
        rw [htake, State.foldl_takeTick_of_none, State.dropTicks_updRunner]
        · rfl
        · intro x hx
          have hne : x ≠ d := fun e => hd (e ▸ hx)
          rw [State.runner_updRunner_ne hne]
          exact hothers x (List.mem_cons_of_mem d hx) hne
      · have htake : s.takeTick n d = s.setRunnerTicks d [] :=
          State.tickRunner_of_not_waiting (s := s.setRunnerTicks d []) (hothers d List.mem_cons_self hdr)
        rw [htake]
        exact ih hl ((List.mem_cons.1 hr).resolve_left fun e => hdr e.symm)
          (fun x hx => hothers x (List.mem_cons_of_mem d hx)) hstep

/-! ### A tick that one runner alone takes -/

theorem State.foldl_takeOldest_of_one {n : Word16} {l : List RunnerId} (hl : l.Nodup) {s : State} {r : RunnerId} (hr : r ∈ l)
    (hn : s.mail.ticks.runners.get r = [n]) (hothers : ∀ d ∈ l, d ≠ r → s.mail.ticks.runners.get d = []) :
    l.foldl (State.takeOldest 1) s = s.takeTick n r := by
  induction l with
  | nil => exact absurd hr List.not_mem_nil
  | cons d l ih =>
      obtain ⟨hd, hl⟩ := List.nodup_cons.1 hl
      rw [List.foldl_cons]
      by_cases hdr : d = r
      · subst hdr
        have hrest : ∀ (k : List RunnerId) (t : State), (∀ x ∈ k, t.mail.ticks.runners.get x = []) →
            k.foldl (State.takeOldest 1) t = t := by
          intro k
          induction k with
          | nil => exact fun t _ => rfl
          | cons x k ih =>
              intro t h
              rw [List.foldl_cons, State.takeOldest_of_none (h x List.mem_cons_self)]
              exact ih t fun y hy => h y (List.mem_cons_of_mem x hy)
        rw [State.takeOldest_of_tick hn]
        refine hrest l _ fun x hx => ?_
        have hne : x ≠ d := fun e => hd (e ▸ hx)
        rw [State.takeTick_ticks, Three.get_set_ne _ hne]
        exact hothers x (List.mem_cons_of_mem d hx) hne
      · rw [State.takeOldest_of_none (hothers d List.mem_cons_self hdr)]
        exact ih hl ((List.mem_cons.1 hr).resolve_left fun e => hdr e.symm) fun x hx =>
          hothers x (List.mem_cons_of_mem d hx)

theorem State.runnerBacklog_of_one {s : State} {r : RunnerId} {n : Word16} (hn : s.mail.ticks.runners.get r = [n])
    (hothers : ∀ d, d ≠ r → s.mail.ticks.runners.get d = []) : s.runnerBacklog = 1 := by
  have hlen (d : RunnerId) : (s.mail.ticks.runners.get d).length = if d = r then 1 else 0 := by
    by_cases h : d = r
    · rw [h, hn, if_pos rfl]
      rfl
    · rw [hothers d h, if_neg h]
      rfl
  have h0 : s.mail.ticks.runners.r0.length = _ := hlen 0
  have h1 : s.mail.ticks.runners.r1.length = _ := hlen 1
  have h2 : s.mail.ticks.runners.r2.length = _ := hlen 2
  rw [State.runnerBacklog, h0, h1, h2]
  fin_cases r <;> rfl

theorem exec_runnersTick_of_one {s : State} {r : RunnerId} {n : Word16} (hn : s.mail.ticks.runners.get r = [n])
    (hothers : ∀ d, d ≠ r → s.mail.ticks.runners.get d = []) (order : RunnerOrder) :
    exec (.runnersTick order) s = .next (s.takeTick n r).ended := by
  rw [show exec (.runnersTick order) s = execRunnersTick order s from rfl, execRunnersTick,
    State.runnerBacklog_of_one hn hothers, if_neg Nat.one_ne_zero]
  exact ended_congr
    (State.foldl_takeOldest_of_one (runnerOrder_nodup order) (mem_runnerOrder order r) hn fun d _ hd => hothers d hd)

theorem State.expiry_of_due {s : State} {r : RunnerId} {n : Word16} {ticks : List Word16} {due : Wait → Bool} {w : Wait}
    (hn : s.mail.ticks.runners.get r = n :: ticks) (hw : (s.runner r).state = .waiting w) (hdue : due w = true) :
    s.expiry r due = .next ((s.setRunnerTicks r ticks).tickWait r n w).ended := by
  rw [State.expiry, hn, hw]
  exact if_pos hdue

/-- Settles O48: the tick as one fold over the order, each runner by its wait; an expiry is the tick of one runner. -/
theorem ticksEndTheWaits : Obligations.TicksEndTheWaits := by
  unfold Obligations.TicksEndTheWaits
  refine ⟨?all, ?each, ?expiries, ?aborts⟩
  case all =>
    intro order n s hn taken
    refine ⟨fun hnone => ?_, fun r w w' hw hothers hwait => ?_⟩
    · rw [exec_runnersTick_of_all hn, State.foldl_takeTick_of_none fun d _ => hnone d, State.dropTicks_order]
    · rw [exec_runnersTick_of_all hn, State.foldl_takeTick_of_one (f := fun u => { u with state := .waiting w' })
        (runnerOrder_nodup order) (mem_runnerOrder order r) fun d _ hd => hothers d hd, State.dropTicks_order]
      intro t ht
      have htw : (t.runner r).state = .waiting w := by rw [ht, hw]
      have hsame (h : w' = w) : t = t.updRunner r fun u => { u with state := .waiting w' } :=
        (State.updRunner_of_same (by rw [h, ← htw])).symm
      rw [State.tickRunner_of_waiting htw]
      rcases hwait with ⟨k, rfl, hk, rfl⟩ | ⟨f, rfl, h1, h2, h⟩ | ⟨rfl, h⟩ | ⟨c, cmd, refs, rfl, h⟩ | ⟨l, f, g, k, rfl, hk, rfl⟩ |
        ⟨b, k, rfl, hk, rfl⟩
      · exact State.tickWait_of_tick (Nat.not_le.2 hk)
      · exact (State.tickWait_of_frame_to_come (later_eq_true h1 h2)).trans (hsame h)
      · exact hsame h
      · exact hsame h
      · exact State.tickWait_of_check (Nat.not_le.2 hk)
      · exact State.tickWait_of_window (Nat.not_le.2 hk)
  case each =>
    intro order n s hn takes
    have htakes (t : State) (r : RunnerId) : takes t r = t.takeTick n r := by
      simp only [takes]
      rw [show t.setMail { t.mail with ticks := { t.mail.ticks with runners := t.mail.ticks.runners.set r [] } } =
        t.setRunnerTicks r [] from rfl, State.takeTick]
      generalize t.setRunnerTicks r [] = v
      cases hst : (v.runner r).state with
      | idle => exact (State.tickRunner_of_not_waiting fun w h => nomatch hst.symm.trans h).symm
      | armed => exact (State.tickRunner_of_not_waiting fun w h => nomatch hst.symm.trans h).symm
      | parked => exact (State.tickRunner_of_not_waiting fun w h => nomatch hst.symm.trans h).symm
      | aborted reason => exact (State.tickRunner_of_not_waiting fun w h => nomatch hst.symm.trans h).symm
      | waiting w =>
          rw [State.tickRunner_of_waiting hst]
          cases w with
          | go => rfl
          | room c cmd refs => rfl
          | ticks left =>
              by_cases hleft : left ≤ 1
              · rw [State.tickWait_of_last_tick hleft]
                exact if_neg (Nat.not_le.2 (Nat.lt_succ_of_le hleft))
              · rw [State.tickWait_of_tick hleft]
                exact if_pos (Nat.not_le.1 hleft)
          | frame f =>
              by_cases hf : f = n
              · subst hf
                rw [State.tickWait_of_frame_due (later_eq_false (.inl (by rw [BitVec.sub_self]; rfl))), State.syncDone,
                  if_pos rfl]
                exact if_pos rfl
              · by_cases hold : 32768 ≤ (f - n).toNat
                · rw [State.tickWait_of_frame_due (later_eq_false (.inr hold)), State.syncDone, if_neg fun e => hf e.symm]
                  exact (if_neg hf).trans ((if_pos hold).trans (by rw [State.cueReport, State.runner_mark, State.e_mark]; rfl))
                · rw [State.tickWait_of_frame_to_come (later_eq_true (by bv_omega) (by omega))]
                  exact (if_neg hf).trans (if_neg hold)
          | check l f g left =>
              by_cases hleft : left ≤ 1
              · refine (if_neg (Nat.not_le.2 (Nat.lt_succ_of_le hleft))).trans ?_
                have helse (h : v.expecting r = none) := State.tickWait_of_last_check_elsewhere (n := n) (l := l) (f := f)
                  (g := g) hleft h
                cases hstep : v.stepAt r ((v.runner r).step.getD 0) with
                | none => exact (helse (State.expecting_of_other fun _ _ _ _ h => nomatch hstep.symm.trans h)).symm
                | some st =>
                    cases st with
                    | expect sel cond window strict =>
                        have hexpect : v.expecting r = some (cond, strict) := State.expecting_of_step hstep
                        rw [State.tickWait_of_last_check hleft hexpect]
                        cases strict with
                        | true => exact (State.expectFails_of_strict hexpect _).symm
                        | false =>
                            rw [State.expectFails_of_lax hexpect, State.cueReport, State.runner_mark, State.e_mark]
                            rfl
                    | _ => exact (helse (State.expecting_of_other fun _ _ _ _ h => nomatch hstep.symm.trans h)).symm
              · rw [State.tickWait_of_check hleft]
                exact if_pos (Nat.not_le.1 hleft)
          | confirm second left =>
              by_cases hleft : left ≤ 1
              · refine (if_neg (Nat.not_le.2 (Nat.lt_succ_of_le hleft))).trans ?_
                have helse (h : v.confirming r = none) := State.tickWait_of_window_elsewhere (n := n) (second := second) hleft h
                cases hstep : v.stepAt r ((v.runner r).step.getD 0) with
                | none => exact (helse (State.confirming_of_other fun _ _ h => nomatch hstep.symm.trans h)).symm
                | some st =>
                    cases st with
                    | confirm window fallback =>
                        have hconfirm : v.confirming r = some (window, fallback) := State.confirming_of_step hstep
                        cases second with
                        | false =>
                            rw [State.tickWait_of_first_window hleft hconfirm]
                            rfl
                        | true =>
                            rw [State.tickWait_of_second_window hleft hconfirm]
                            cases fallback <;> rfl
                    | _ => exact (helse (State.confirming_of_other fun _ _ h => nomatch hstep.symm.trans h)).symm
              · rw [State.tickWait_of_window hleft]
                exact if_pos (Nat.not_le.1 hleft)
    rw [exec_runnersTick_of_all hn, show takes = State.takeTick n from funext fun t => funext fun r => htakes t r]
  case expiries =>
    intro r n ticks s hn taken k
    refine ⟨?tick, ?check, ?confirm, ?frame⟩
    case tick =>
      intro left hw hleft
      refine (State.expiry_of_due hn hw (decide_eq_true hleft)).trans ?_
      rw [State.tickWait_of_last_tick hleft]
      rfl
    case check =>
      intro l f g left sel cond window hw hleft cause
      have hexec : exec (.expectExpiry r) s = _ := State.expiry_of_due hn hw (decide_eq_true hleft)
      have hexpect (strict : Bool) (hstep : s.stepAt r k = some (.expect sel cond window strict)) :
          taken.expecting r = some (cond, strict) := State.expecting_of_step (s := taken) hstep
      refine ⟨fun hstep => ?_, fun hstep => ?_⟩
      · refine hexec.trans (ended_congr ?_)
        exact (State.tickWait_of_last_check hleft (hexpect true hstep)).trans
          (State.expectFails_of_strict (hexpect true hstep) cause)
      · refine hexec.trans (ended_congr ?_)
        exact (State.tickWait_of_last_check hleft (hexpect false hstep)).trans
          (State.expectFails_of_lax (hexpect false hstep) cause)
    case confirm =>
      intro left window fallback hstep hleft
      have hconfirm : taken.confirming r = some (window, fallback) := State.confirming_of_step (s := taken) hstep
      refine ⟨fun hw => ?_, fun hw => ?_⟩
      · refine (State.expiry_of_due hn hw (decide_eq_true ⟨rfl, hleft⟩)).trans (ended_congr ?_)
        exact State.tickWait_of_first_window hleft hconfirm
      · have hexec := (State.expiry_of_due hn hw (due := Wait.lastConfirm true) (decide_eq_true ⟨rfl, hleft⟩)).trans
          (ended_congr (State.tickWait_of_second_window hleft hconfirm))
        refine ⟨?_, ?_⟩
        · rintro b rfl
          exact hexec
        · rintro rfl
          exact hexec
    case frame =>
      intro order f hw hnil hothers
      subst hnil
      have hexec := exec_runnersTick_of_one hn hothers order
      rw [State.takeTick, State.tickRunner_of_waiting (s := s.setRunnerTicks r []) hw] at hexec
      refine ⟨fun hf => ?_, fun hold => ?_⟩
      · subst hf
        rw [State.tickWait_of_frame_due (later_eq_false (.inl (by rw [BitVec.sub_self]; rfl))), State.syncDone,
          if_pos rfl] at hexec
        exact hexec
      · have hne : n ≠ f := fun e => by
          rw [e, BitVec.sub_self] at hold
          exact absurd hold (by decide)
        rw [State.tickWait_of_frame_due (later_eq_false (.inr hold)), State.syncDone, if_neg hne] at hexec
        exact hexec
  case aborts =>
    intro s r reason e u gone
    exact ⟨State.abort_of_not_room reason e, fun c cmd refs h => State.abort_of_room reason e h⟩

end Sys2Proof.Machine
end

section
/-! Notices to the runners (R161, R162, R165, R166, R172). O49. -/

namespace Sys2Proof.Machine

/-! ### What a runner's work leaves of the other runners -/

section
variable {r d : RunnerId} (h : d ≠ r) (k : Nat) (s : State)

include h

theorem State.runner_setRun_ne (x : RunState) : (s.setRun r x).runner d = s.runner d := State.runner_updRunner_ne h _ s

theorem State.runner_offerAll_ne (cmd : ConfigCmd) (refs : List NodeRef) :
    (s.offerAll r cmd refs).1.runner d = s.runner d := by
  induction refs generalizing s with
  | nil => rfl
  | cons x rest ih =>
      cases hn : s.node x with
      | none => rw [State.offerAll_of_absent hn, ih]
      | some n =>
          by_cases hroom : (s.chains.get x.chain).takesConfig = true
          · rw [State.offerAll_of_room hn hroom, ih]
            rfl
          · rw [State.offerAll_of_no_room hn hroom]
            exact State.runner_setRun_ne h _ _

omit h in
theorem State.runner_syncDone (f e : Word16) : (s.syncDone r k f e).runner d = s.runner d := by
  unfold State.syncDone
  split
  · exact State.runner_mark r d k .done s
  · exact State.runner_mark r d k .late s

theorem State.runner_offerStep_ne (cmd : ConfigCmd) (refs : List NodeRef) :
    (s.offerStep r k cmd refs).1.runner d = s.runner d := by
  have hoffer := State.runner_offerAll_ne h s cmd refs
  unfold State.offerStep
  dsimp only
  split
  · exact (State.runner_mark r d k .done _).trans hoffer
  · exact hoffer

theorem State.runner_takeStep_ne (st : CueStep) : (s.takeStep r k st).1.runner d = s.runner d := by
  cases st with
  | look sel v => exact State.runner_mark r d k .done (s.handWrite sel v none r)
  | fade sel p target frames => exact State.runner_mark r d k .done (s.handWrite sel (levelValue p target) (some frames) r)
  | wait frames => exact State.runner_setRun_ne h s _
  | syncFrame f =>
      unfold State.takeStep
      dsimp only
      split
      · exact State.runner_setRun_ne h s _
      · exact State.runner_syncDone k s f s.e
  | syncGo => exact State.runner_setRun_ne h s _
  | configure sel tag x => exact State.runner_offerStep_ne h k s (.configure 31 tag x) (s.targets sel)
  | enable sel => exact State.runner_offerStep_ne h k s (.enable 31) (s.targets sel)
  | expect sel cond window strict =>
      unfold State.takeStep State.reachExpect
      dsimp only
      split
      · exact State.runner_mark r d k .done s
      · exact State.runner_setRun_ne h (s.passNotices r) _
  | confirm window fallback => exact State.runner_setRun_ne h (s.cueReport (.confirmWanted window) r) _
  | finish => exact (State.runner_setRun_ne h (s.mark r k .done) _).trans (State.runner_mark r d k .done s)
  | stop => exact (State.runner_setRun_ne h (s.mark r k .done) _).trans (State.runner_mark r d k .done s)

theorem State.runner_runFrom_ne (fuel : Nat) : (s.runFrom r fuel k).runner d = s.runner d := by
  induction fuel generalizing k s with
  | zero => rfl
  | succ fuel ih =>
      have hat : (s.atStep r k).runner d = s.runner d := State.runner_updRunner_ne h _ s
      rw [State.runFrom_succ]
      cases s.stepAt r k with
      | none => exact hat
      | some st =>
          have hstep := (State.runner_takeStep_ne h k (s.atStep r k) st).trans hat
          rw [State.runStep]
          split
          · exact (ih _ _).trans hstep
          · exact hstep

theorem State.runner_release_ne : (s.release r k).runner d = s.runner d := State.runner_runFrom_ne h k s slotSize

theorem State.runner_completeWait_ne (o : MarkOutcome) : (s.completeWait r o).runner d = s.runner d :=
  (State.runner_release_ne h _ _).trans (State.runner_mark r d _ o s)

theorem State.runner_abort_ne (reason : AbortReason) (e : Option Evicted) : (s.abort r reason e).runner d = s.runner d := by
  by_cases hroom : ∃ c cmd refs, (s.runner r).state = .waiting (.room c cmd refs)
  · obtain ⟨c, cmd, refs, hst⟩ := hroom
    rw [State.abort_of_room reason e hst]
    exact Three.get_set_ne _ h _
  · rw [State.abort_of_not_room reason e fun c cmd refs hst => hroom ⟨c, cmd, refs, hst⟩]
    exact Three.get_set_ne _ h _

end

/-! ### One event taken by the runners in an order -/

theorem foldl_of_fixed {f : State → RunnerId → State} {l : List RunnerId} {s : State} (h : ∀ d ∈ l, f s d = s) :
    l.foldl f s = s := by
  induction l with
  | nil => rfl
  | cons d l ih =>
      rw [List.foldl_cons, h d List.mem_cons_self]
      exact ih fun x hx => h x (List.mem_cons_of_mem d hx)

/-- An event that only the runner `r` takes. -/
theorem foldl_of_one {f : State → RunnerId → State} {l : List RunnerId} (hl : l.Nodup) {s t : State} {r : RunnerId}
    (hr : r ∈ l) (hothers : ∀ d ∈ l, d ≠ r → f s d = s) (hstep : f s r = t) (hafter : ∀ d ∈ l, d ≠ r → f t d = t) :
    l.foldl f s = t := by
  induction l with
  | nil => exact absurd hr List.not_mem_nil
  | cons d l ih =>
      obtain ⟨hd, hl⟩ := List.nodup_cons.1 hl
      rw [List.foldl_cons]
      by_cases hdr : d = r
      · subst hdr
        rw [hstep]
        exact foldl_of_fixed fun x hx => hafter x (List.mem_cons_of_mem d hx) fun e => hd (e ▸ hx)
      · rw [hothers d List.mem_cons_self hdr]
        exact ih hl ((List.mem_cons.1 hr).resolve_left fun e => hdr e.symm)
          (fun x hx => hothers x (List.mem_cons_of_mem d hx)) fun x hx => hafter x (List.mem_cons_of_mem d hx)

/-- The runner stands at an EXPECT's check. -/
def Runner.checks (u : Runner) : Prop := ∃ l f g left, u.state = .waiting (.check l f g left)

/-! ### Complete returns (R165) -/

section
variable {c : ChainId} {r : RunnerId} {s : State}

theorem State.takeComplete_of_other (h : ¬ (s.runner r).checks) : s.takeComplete c r = s := by
  unfold State.takeComplete
  cases hst : (s.runner r).state with
  | waiting w => cases w with
      | check l f g left => exact absurd ⟨l, f, g, left, hst⟩ h
      | go => rfl
      | room c cmd refs => rfl
      | ticks k => rfl
      | frame f => rfl
      | confirm b k => rfl
  | armed => rfl
  | idle => rfl
  | parked => rfl
  | aborted k => rfl

variable {l : List NodeRef} {f : Option KindFilter} {g : List (ChainId × BitVec 4)} {left : Nat}

theorem State.takeComplete_of_elsewhere (h : (s.runner r).state = .waiting (.check l f g left)) (hx : s.expecting r = none) :
    s.takeComplete c r = s := by
  rw [State.takeComplete, h]
  dsimp only
  rw [hx]
  exact ite_self _

/-- A complete return of chain `c` releases the EXPECT when the chain is one of its own and its condition holds throughout. -/
theorem State.takeComplete_of_check (h : (s.runner r).state = .waiting (.check l f g left)) {cond : Condition} {strict : Bool}
    (hx : s.expecting r = some (cond, strict)) :
    ((∃ x ∈ g, x.1 = c) ∧ (∀ x ∈ s.considered l f, s.satisfied cond g x = true) →
      s.takeComplete c r = s.completeWait r .done) ∧
    (¬ ((∃ x ∈ g, x.1 = c) ∧ ∀ x ∈ s.considered l f, s.satisfied cond g x = true) → s.takeComplete c r = s) := by
  have hany : (g.any fun x => decide (x.1 = c)) = true ↔ ∃ x ∈ g, x.1 = c := by simp
  have hall : (s.considered l f).all (s.satisfied cond g) = true ↔ ∀ x ∈ s.considered l f, s.satisfied cond g x = true := by
    simp
  rw [← hany, ← hall]
  have heq : s.takeComplete c r =
      if (g.any fun x => decide (x.1 = c)) = true then
        if (s.considered l f).all (s.satisfied cond g) = true then s.completeWait r .done else s
      else s := by
    rw [State.takeComplete, h]
    dsimp only
    rw [hx]
  rw [heq]
  refine ⟨fun hyes => (if_pos hyes.1).trans (if_pos hyes.2), fun hno => ?_⟩
  by_cases h1 : (g.any fun x => decide (x.1 = c)) = true
  · exact (if_pos h1).trans (if_neg fun h2 => hno ⟨h1, h2⟩)
  · exact if_neg h1

end

theorem exec_completeReturnNotice_of_mail {c : ChainId} {notices : List RunnerMsg} {s : State}
    (h : s.mail.notices.get c = .complete :: notices) (order : RunnerOrder) :
    exec (.completeReturnNotice c order) s =
      .next (order.toList.foldl (State.takeComplete c) (s.setNotices c notices)).ended := by
  rw [show exec (.completeReturnNotice c order) s = execCompleteReturnNotice c order s from rfl, execCompleteReturnNotice, h]
  rfl

/-! ### Losses (R166) -/

section
variable {x : NodeRef} {kind : KindName} {reachable : Bool} {since : Three Bool} {r : RunnerId} {s : State}

theorem State.takeLost_of_other (h : ¬ (s.runner r).checks) : s.takeLost x kind reachable since r = s := by
  unfold State.takeLost
  cases hst : (s.runner r).state with
  | waiting w => cases w with
      | check l f g left => exact absurd ⟨l, f, g, left, hst⟩ h
      | go => rfl
      | room c cmd refs => rfl
      | ticks k => rfl
      | frame f => rfl
      | confirm b k => rfl
  | armed => rfl
  | idle => rfl
  | parked => rfl
  | aborted k => rfl

variable {l : List NodeRef} {f : Option KindFilter} {g : List (ChainId × BitVec 4)} {left : Nat}

theorem State.takeLost_of_check (h : (s.runner r).state = .waiting (.check l f g left)) :
    (x ∈ l ∧ reachable = true ∧ since.get r = false ∧ (f.getD .any).takes kind = true →
      s.takeLost x kind reachable since r = s.expectFails r (.nodeLost x)) ∧
    (¬ (x ∈ l ∧ reachable = true ∧ since.get r = false ∧ (f.getD .any).takes kind = true) →
      s.takeLost x kind reachable since r = s) := by
  have hiff : (l.contains x && reachable && !since.get r && (f.getD .any).takes kind) = true ↔
      (x ∈ l ∧ reachable = true ∧ since.get r = false ∧ (f.getD .any).takes kind = true) := by
    simp [and_assoc]
  rw [State.takeLost, h, ← hiff]
  exact ⟨fun hyes => if_pos hyes, fun hno => if_neg hno⟩

end

theorem exec_nodeLostNotice_of_mail {c : ChainId} {a : Nat} {kind : KindName} {reachable : Bool} {since : Three Bool}
    {notices : List RunnerMsg} {s : State} (h : s.mail.notices.get c = .lost a kind reachable since :: notices)
    (order : RunnerOrder) :
    exec (.nodeLostNotice c order) s =
      .next (order.toList.foldl (State.takeLost { chain := c, address := a } kind reachable since)
        (s.setNotices c notices)).ended := by
  rw [show exec (.nodeLostNotice c order) s = execNodeLostNotice c order s from rfl, execNodeLostNotice, h]
  rfl

/-! ### Room (R161) -/

section
variable {c : ChainId} {r : RunnerId} {s : State}

theorem State.takeRoom_of_other (h : ∀ d cmd refs, (s.runner r).state ≠ .waiting (.room d cmd refs)) :
    s.takeRoom c r = s := by
  unfold State.takeRoom
  cases hst : (s.runner r).state with
  | waiting w => cases w with
      | room d cmd refs => exact absurd hst (h d cmd refs)
      | check l f g left => rfl
      | go => rfl
      | ticks k => rfl
      | frame f => rfl
      | confirm b k => rfl
  | armed => rfl
  | idle => rfl
  | parked => rfl
  | aborted k => rfl

variable {d : ChainId} {cmd : ConfigCmd} {refs : List NodeRef}

/-- A runner with room goes on with its references. -/
def State.goOn (r : RunnerId) (cmd : ConfigCmd) (refs : List NodeRef) (s : State) : State :=
  if (s.offerAll r cmd refs).2 = true then (s.offerAll r cmd refs).1.completeWait r .done else (s.offerAll r cmd refs).1

theorem State.takeRoom_of_room (h : (s.runner r).state = .waiting (.room d cmd refs)) :
    (d = c ∧ (∀ k ∈ (s.chains.get c).claims, k.runner ≠ r) → s.takeRoom c r = s.goOn r cmd refs) ∧
    (¬ (d = c ∧ ∀ k ∈ (s.chains.get c).claims, k.runner ≠ r) → s.takeRoom c r = s) := by
  have hiff : ((s.chains.get c).claims.all fun x => decide (x.runner ≠ r)) = true ↔
      ∀ k ∈ (s.chains.get c).claims, k.runner ≠ r := by simp
  rw [State.takeRoom, h, ← hiff]
  exact ⟨fun hyes => if_pos hyes, fun hno => if_neg hno⟩

end

theorem exec_roomNotice_of_mail {c : ChainId} {l : List RunnerId} {notices : List RunnerMsg} {s : State}
    (h : s.mail.notices.get c = .room l :: notices) (order : RunnerOrder) :
    exec (.roomNotice { chain := c, order := order }) s =
      .next ((order.toList.filter fun r => decide (r ∈ l)).foldl (State.takeRoom c) (s.setNotices c notices)).ended := by
  have hfilter : order.toList.filter l.contains = order.toList.filter fun r => decide (r ∈ l) :=
    List.filter_congr fun r _ => by simp
  rw [show exec (.roomNotice { chain := c, order := order }) s = execRoomNotice { chain := c, order := order } s from rfl,
    execRoomNotice, h, ← hfilter]
  rfl

theorem filter_runnerOrder (order : RunnerOrder) (r : RunnerId) :
    (order.toList.filter fun d => decide (d ∈ [r])) = [r] := by
  cases order <;> fin_cases r <;> decide

/-! ### Evictions (R162) -/

section
variable {c : ChainId} {r : RunnerId} {cmd : Cmd} {notices : List RunnerMsg} {s : State}

theorem exec_evictionNotice_of_mail (h : s.mail.notices.get c = .evicted r cmd :: notices) :
    exec (.evictionNotice c) s = .next ((s.setNotices c notices).takeEviction c r cmd).ended := by
  rw [show exec (.evictionNotice c) s = execEvictionNotice c s from rfl, execEvictionNotice, h]
  rfl

theorem State.takeEviction_of_aborted {reason : AbortReason} (h : (s.runner r).state = .aborted reason) :
    s.takeEviction c r cmd = s.cueReport (.aborted .queueEvicted (some { chain := c, cmd := cmd })) r := by
  rw [State.takeEviction, h]

theorem State.takeEviction_of_other (h : ∀ reason, (s.runner r).state ≠ .aborted reason) :
    s.takeEviction c r cmd = s.abort r .queueEvicted (some { chain := c, cmd := cmd }) := by
  unfold State.takeEviction
  cases hst : (s.runner r).state with
  | aborted reason => exact absurd hst (h reason)
  | waiting w => rfl
  | armed => rfl
  | idle => rfl
  | parked => rfl

end

theorem State.expectFails_of_elsewhere {s : State} {r : RunnerId} (h : s.expecting r = none) (cause : ExpectFail) :
    s.expectFails r cause = s := by
  rw [State.expectFails, h]

/-- Settles O49: each notice as one fold over the order, each runner by its wait. -/
theorem noticesReleaseTheRunners : Obligations.NoticesReleaseTheRunners := by
  unfold Obligations.NoticesReleaseTheRunners
  intro c order notices m s hm taken checks
  refine ⟨?complete, ?lost, ?room, ?evicted⟩
  case complete =>
    rintro rfl
    have hexec : exec (.completeReturnNotice c order) s = .next (order.toList.foldl (State.takeComplete c) taken).ended :=
      exec_completeReturnNotice_of_mail hm order
    refine ⟨fun hnone => ?none, ?one, ?each⟩
    case none => exact hexec.trans (ended_congr (foldl_of_fixed fun d _ => State.takeComplete_of_other (s := taken) (hnone d)))
    case one =>
      intro r l f g left sel cond window strict hw hothers hstep
      have hx : taken.expecting r = some (cond, strict) := State.expecting_of_step (s := taken) hstep
      obtain ⟨hyes, hno⟩ := State.takeComplete_of_check (c := c) (s := taken) hw hx
      have hfixed (d : RunnerId) (hd : d ≠ r) : taken.takeComplete c d = taken :=
        State.takeComplete_of_other (s := taken) (hothers d hd)
      refine ⟨fun hsel hall => hexec.trans (ended_congr ?_), fun hfail => hexec.trans (ended_congr ?_)⟩
      · refine foldl_of_one (runnerOrder_nodup order) (mem_runnerOrder order r) (fun d _ => hfixed d) (hyes ⟨hsel, hall⟩)
          fun d _ hd => State.takeComplete_of_other ?_
        rw [State.runner_completeWait_ne hd]
        exact hothers d hd
      · refine foldl_of_fixed fun d _ => ?_
        by_cases hd : d = r
        · subst hd
          refine hno ?_
          rintro ⟨⟨x, hx, hc⟩, hall⟩
          rcases hfail with hfail | ⟨y, hy, hy'⟩
          · exact hfail x hx hc
          · exact Bool.false_ne_true (hy'.symm.trans (hall y hy))
        · exact hfixed d hd
    case each =>
      intro takes
      have htakes (t : State) (r : RunnerId) : takes t r = t.takeComplete c r := by
        simp only [takes]
        cases hst : (t.runner r).state with
        | waiting w => cases w with
            | check l f g left =>
                cases hstep : t.stepAt r (t.stepIndex r) with
                | none =>
                    exact (State.takeComplete_of_elsewhere hst (State.expecting_of_other fun _ _ _ _ h =>
                      nomatch hstep.symm.trans h)).symm
                | some st =>
                    cases st with
                    | expect sel cond window strict =>
                        obtain ⟨hyes, hno⟩ := State.takeComplete_of_check (c := c) hst (State.expecting_of_step hstep)
                        by_cases hall : (∃ x ∈ g, x.1 = c) ∧ ∀ x ∈ t.considered l f, t.satisfied cond g x = true
                        · exact (if_pos hall).trans (hyes hall).symm
                        · exact (if_neg hall).trans (hno hall).symm
                    | _ =>
                        exact (State.takeComplete_of_elsewhere hst (State.expecting_of_other fun _ _ _ _ h =>
                          nomatch hstep.symm.trans h)).symm
            | _ => exact (State.takeComplete_of_other fun ⟨_, _, _, _, h⟩ => nomatch hst.symm.trans h).symm
        | _ => exact (State.takeComplete_of_other fun ⟨_, _, _, _, h⟩ => nomatch hst.symm.trans h).symm
      rw [hexec, show takes = State.takeComplete c from funext fun t => funext fun r => htakes t r]
  case lost =>
    rintro a kind reachable since rfl x
    have hexec : exec (.nodeLostNotice c order) s =
        .next (order.toList.foldl (State.takeLost x kind reachable since) taken).ended := exec_nodeLostNotice_of_mail hm order
    refine ⟨fun hnone => ?none, ?one, ?each⟩
    case none => exact hexec.trans (ended_congr (foldl_of_fixed fun d _ => State.takeLost_of_other (s := taken) (hnone d)))
    case one =>
      intro r l f g left sel cond window strict hw hothers hstep considered
      have hx : taken.expecting r = some (cond, strict) := State.expecting_of_step (s := taken) hstep
      obtain ⟨hyes, hno⟩ := State.takeLost_of_check (x := x) (kind := kind) (reachable := reachable) (since := since)
        (s := taken) hw
      have hfixed (d : RunnerId) (hd : d ≠ r) : taken.takeLost x kind reachable since d = taken :=
        State.takeLost_of_other (s := taken) (hothers d hd)
      have hone {t : State} (ht : taken.takeLost x kind reachable since r = t)
          (hafter : ∀ d, d ≠ r → t.runner d = taken.runner d) : exec (.nodeLostNotice c order) s = .next t.ended := by
        refine hexec.trans (ended_congr (foldl_of_one (runnerOrder_nodup order) (mem_runnerOrder order r)
          (fun d _ => hfixed d) ht fun d _ hd => State.takeLost_of_other ?_))
        rw [hafter d hd]
        exact hothers d hd
      refine ⟨fun hfar => hone (hno hfar) fun d _ => rfl, ?_, ?_⟩
      · rintro hnear rfl
        refine hone ((hyes hnear).trans (State.expectFails_of_strict hx (.nodeLost x))) fun d hd => ?_
        exact State.runner_abort_ne hd _ _ _
      · rintro hnear rfl
        refine hone ((hyes hnear).trans (State.expectFails_of_lax hx (.nodeLost x))) fun d hd => ?_
        exact (State.runner_release_ne hd _ _).trans (State.runner_mark r d _ _ taken)
    case each =>
      intro takes
      have htakes (t : State) (r : RunnerId) : takes t r = t.takeLost x kind reachable since r := by
        simp only [takes]
        cases hst : (t.runner r).state with
        | waiting w => cases w with
            | check l f g left =>
                have hcheck := State.takeLost_of_check (x := x) (kind := kind) (reachable := reachable) (since := since) hst
                obtain ⟨hyes, hno⟩ := hcheck
                by_cases hnear : x ∈ l ∧ reachable = true ∧ since.get r = false ∧ (f.getD .any).takes kind = true
                · rw [hyes hnear]
                  cases hstep : t.stepAt r (t.stepIndex r) with
                  | none =>
                      exact (State.expectFails_of_elsewhere (State.expecting_of_other fun _ _ _ _ h =>
                        nomatch hstep.symm.trans h) _).symm
                  | some st =>
                      cases st with
                      | expect sel cond window strict =>
                          have hx : t.expecting r = some (cond, strict) := State.expecting_of_step hstep
                          cases strict with
                          | true => exact (if_pos hnear).trans (State.expectFails_of_strict hx (.nodeLost x)).symm
                          | false => exact (if_pos hnear).trans (State.expectFails_of_lax hx (.nodeLost x)).symm
                      | _ =>
                          exact (State.expectFails_of_elsewhere (State.expecting_of_other fun _ _ _ _ h =>
                            nomatch hstep.symm.trans h) _).symm
                · rw [hno hnear]
                  cases t.stepAt r (t.stepIndex r) with
                  | none => rfl
                  | some st =>
                      cases st with
                      | expect sel cond window strict => exact if_neg hnear
                      | _ => rfl
            | _ => exact (State.takeLost_of_other fun ⟨_, _, _, _, h⟩ => nomatch hst.symm.trans h).symm
        | _ => exact (State.takeLost_of_other fun ⟨_, _, _, _, h⟩ => nomatch hst.symm.trans h).symm
      rw [hexec, show takes = State.takeLost x kind reachable since from funext fun t => funext fun r => htakes t r]
  case room =>
    rintro l rfl room takes
    have htakes (t : State) (r : RunnerId) : takes t r = t.takeRoom c r := by
      simp only [takes]
      cases hst : (t.runner r).state with
      | waiting w => cases w with
          | room d cmd refs =>
              obtain ⟨hyes, hno⟩ := State.takeRoom_of_room (c := c) hst
              by_cases hroom : d = c ∧ ∀ k ∈ (t.chains.get c).claims, k.runner ≠ r
              · exact (if_pos hroom).trans (hyes hroom).symm
              · exact (if_neg hroom).trans (hno hroom).symm
          | _ => exact (State.takeRoom_of_other fun _ _ _ h => nomatch hst.symm.trans h).symm
      | _ => exact (State.takeRoom_of_other fun _ _ _ h => nomatch hst.symm.trans h).symm
    have hexec : exec room s = .next ((order.toList.filter fun r => decide (r ∈ l)).foldl takes taken).ended := by
      rw [show takes = State.takeRoom c from funext fun t => funext fun r => htakes t r]
      exact exec_roomNotice_of_mail hm order
    refine ⟨hexec, ?one, ?two⟩
    case one =>
      rintro r rfl
      rw [filter_runnerOrder, List.foldl_cons, List.foldl_nil, htakes] at hexec
      refine ⟨fun hno => ?_, fun cmd refs hw => ?_⟩
      · by_cases hroom : ∃ d cmd refs, (s.runner r).state = .waiting (.room d cmd refs)
        · obtain ⟨d, cmd, refs, hst⟩ := hroom
          have hne : d ≠ c := fun e => hno cmd refs (e ▸ hst)
          exact hexec.trans (ended_congr ((State.takeRoom_of_room (s := taken) hst).2 fun h => hne h.1))
        · exact hexec.trans (ended_congr (State.takeRoom_of_other (s := taken) fun d cmd refs hst =>
            hroom ⟨d, cmd, refs, hst⟩))
      · obtain ⟨hyes, hstill⟩ := State.takeRoom_of_room (c := c) (s := taken) hw
        refine ⟨?_, fun hclaims => ?_⟩
        · rintro ⟨k, hk, hkr⟩
          exact hexec.trans (ended_congr (hstill fun h => h.2 k hk hkr))
        · rw [hyes ⟨rfl, hclaims⟩] at hexec
          refine ⟨?_, fun hall => hexec.trans (ended_congr (if_pos hall)), fun hnot =>
            hexec.trans (ended_congr (if_neg (ne_true_of_eq_false hnot)))⟩
          rintro rfl
          exact hexec
    case two =>
      rintro r d _ rfl hfilter
      rw [hexec, hfilter]
      rfl
  case evicted =>
    rintro r cmd rfl detail
    have hexec : exec (.evictionNotice c) s = .next (taken.takeEviction c r cmd).ended := exec_evictionNotice_of_mail hm
    exact ⟨fun reason h => hexec.trans (ended_congr (State.takeEviction_of_aborted (s := taken) h)),
      fun h => hexec.trans (ended_congr (State.takeEviction_of_other (s := taken) h))⟩

end Sys2Proof.Machine
end

section
/-! What steps name: targets, selections, considered sets, conditions and the first node that fails one (R160, R163, R164,
R167). O47. -/

namespace Sys2Proof.Machine

/-! ### Kinds and references (R160, R163) -/

theorem KindFilter.takes_iff {f : KindFilter} {n : Node} :
    f.takes n.kindName = true ↔
      f = .any ∨ (f = .tile ∧ n.kindName = .tile) ∨ (f = .lamp ∧ n.kindName = .lamp) := by
  cases f <;> simp [KindFilter.takes]

theorem State.enrolledAs_iff {s : State} {f : KindFilter} {x : NodeRef} :
    s.enrolledAs f x = true ↔ ∃ n, s.node x = some n ∧ f.takes n.kindName = true := by
  unfold State.enrolledAs
  cases s.node x <;> simp

theorem State.enrolledAs_any (s : State) (x : NodeRef) : s.enrolledAs .any x = (s.node x).isSome := by
  unfold State.enrolledAs
  cases s.node x <;> rfl

/-- The references of a chain at an address, or at every address. -/
def refsAt (a : Option Nat) (c : ChainId) : List NodeRef :=
  match a with
  | some x => [NodeRef.mk c x]
  | none => addresses.map (NodeRef.mk c)

theorem State.named_nodes (s : State) (chain : Option ChainId) (a : Option Nat) (f : KindFilter) :
    s.named (.nodes chain a f) = (chain.elim allChains fun c => [c]).flatMap (refsAt a) := by
  have hrefs (c : ChainId) : refsAt a c = List.map (NodeRef.mk c) (match a with | some x => [x] | none => addresses) := by
    cases a <;> rfl
  cases chain with
  | some c => exact (hrefs c).symm.trans (List.append_nil _).symm
  | none => exact congrArg (List.flatMap · allChains) (funext fun c => (hrefs c).symm)

theorem mem_refsAt {a : Option Nat} {c : ChainId} {x : NodeRef} :
    x ∈ refsAt a c ↔ x.chain = c ∧ (∀ b, a = some b → x.address = b) ∧
      (a = none → 1 ≤ x.address ∧ x.address ≤ 30) := by
  obtain ⟨d, b⟩ := x
  cases a with
  | some y => simp [refsAt]
  | none =>
      simp only [refsAt, List.mem_map, NodeRef.mk.injEq, ← mem_addresses]
      grind

theorem State.mem_named_nodes {s : State} {chain : Option ChainId} {a : Option Nat} {f : KindFilter} {x : NodeRef} :
    x ∈ s.named (.nodes chain a f) ↔
      (∀ c, chain = some c → x.chain = c) ∧ (∀ b, a = some b → x.address = b) ∧
        (a = none → 1 ≤ x.address ∧ x.address ≤ 30) := by
  rw [State.named_nodes, List.mem_flatMap]
  cases chain <;> simp [mem_refsAt, mem_allChains]

theorem refsAt_ascending (a : Option Nat) (c : ChainId) : (refsAt a c).Pairwise NodeRef.before := by
  cases a with
  | some x => exact List.pairwise_singleton _ _
  | none => exact List.pairwise_map.2 (addresses_ascending.imp fun h => Or.inr ⟨rfl, h⟩)

theorem State.named_nodes_ascending (s : State) (chain : Option ChainId) (a : Option Nat) (f : KindFilter) :
    (s.named (.nodes chain a f)).Pairwise NodeRef.before := by
  rw [State.named_nodes]
  refine List.pairwise_flatMap.2 ⟨fun c _ => refsAt_ascending a c, ?_⟩
  have hchains : (chain.elim allChains fun c => [c]).Pairwise (· < ·) := by
    cases chain with
    | some c => exact List.pairwise_singleton _ _
    | none => exact allChains_ascending
  refine hchains.imp fun {c d} hcd x hx y hy => Or.inl ?_
  rw [(mem_refsAt.1 hx).1, (mem_refsAt.1 hy).1]
  exact hcd

/-! ### Groups -/

theorem filter_byChain (l : List NodeRef) (c : ChainId) :
    (byChain l).filter (fun x => decide (x.chain = c)) = l.filter fun x => decide (x.chain = c) := by
  have hpart (d : ChainId) : (l.filter fun x => decide (x.chain = d)).filter (fun x => decide (x.chain = c)) =
      if d = c then l.filter fun x => decide (x.chain = c) else [] := by
    by_cases h : d = c
    · subst h
      rw [if_pos rfl, List.filter_filter]
      simp
    · rw [if_neg h, List.filter_filter, List.filter_eq_nil_iff]
      intro x _ hx
      simp only [Bool.and_eq_true, decide_eq_true_eq] at hx
      exact h (hx.2.symm.trans hx.1)
  rw [byChain, List.filter_flatMap]
  simp only [hpart]
  fin_cases c <;> simp [allChains]

theorem byChain_ordered (l : List NodeRef) : (byChain l).Pairwise fun y z => y.chain ≤ z.chain := by
  have hmem {c : ChainId} {x : NodeRef} (h : x ∈ l.filter fun x => decide (x.chain = c)) : x.chain = c :=
    of_decide_eq_true (List.mem_filter.1 h).2
  refine List.pairwise_flatMap.2 ⟨fun c _ => ?_, ?_⟩
  · exact List.pairwise_of_forall_mem_list fun x hx y hy => le_of_eq ((hmem hx).trans (hmem hy).symm)
  · refine allChains_ascending.imp fun {c d} hcd x hx y hy => ?_
    rw [hmem hx, hmem hy]
    exact le_of_lt hcd

/-! ### Conditions (R164) -/

theorem keptGen_of_first {before later : List (ChainId × BitVec 4)} {c : ChainId} {g : BitVec 4}
    (h : ∀ y ∈ before, y.1 ≠ c) : keptGen (before ++ (c, g) :: later) c = g := by
  have hbefore : before.find? (fun x => decide (x.1 = c)) = none :=
    List.find?_eq_none.2 fun x hx => by simpa using h x hx
  rw [keptGen, List.find?_append, hbefore, Option.none_or, List.find?_cons_of_pos (by simp)]
  rfl

theorem Node.satisfies_applied {n : Node} {g0 : BitVec 4} :
    n.satisfies .applied g0 = true ↔ ∃ g, n.gen = some g ∧ (g - g0).toNat ≤ 7 := by
  unfold Node.satisfies
  cases n.gen <;> simp

theorem State.satisfied_of_node {s : State} {x : NodeRef} {n : Node} (h : s.node x = some n) (cond : Condition)
    (kept : List (ChainId × BitVec 4)) : s.satisfied cond kept x = n.satisfies cond (keptGen kept x.chain) := by
  rw [State.satisfied, h]

/-! ### Positions (R167) -/

theorem Chain.atPosition_eq_some {ch : Chain} {q a : Nat} {n : Node} (h : ch.atPosition q = some (a, n)) :
    ch.node a = some n ∧ n.position = q := by
  have hmem := List.mem_of_find?_eq_some h
  have hpos := List.find?_some h
  obtain ⟨b, _, hb⟩ := List.mem_filterMap.1 hmem
  obtain ⟨m, hm, hpair⟩ := Option.map_eq_some_iff.1 hb
  obtain ⟨rfl, rfl⟩ := Prod.mk.inj hpair
  exact ⟨hm, of_decide_eq_true hpos⟩

/-- The enrolled references by chain and then by position. -/
def State.places (s : State) : List NodeRef :=
  allChains.flatMap fun c => (s.chains.get c).inOrder.map fun p => NodeRef.mk c p.1

/-- An address stands at a position of a chain. -/
def State.stands (s : State) (c : ChainId) (q a : Nat) : Prop :=
  1 ≤ q ∧ q ≤ 30 ∧ ∃ n, (s.chains.get c).atPosition q = some (a, n)

/-- The position of a reference's record. -/
def State.placeOf (s : State) (x : NodeRef) : Nat := ((s.node x).map Node.position).getD 0

theorem State.placeOf_of_stands {s : State} {c : ChainId} {q a : Nat} (h : s.stands c q a) :
    s.placeOf { chain := c, address := a } = q := by
  obtain ⟨_, _, n, hn⟩ := h
  obtain ⟨hnode, hpos⟩ := Chain.atPosition_eq_some hn
  rw [State.placeOf, State.node, hnode, ← hpos]
  rfl

theorem State.mem_inOrder {s : State} {c : ChainId} {p : Nat × Node} :
    p ∈ (s.chains.get c).inOrder ↔ ∃ q, 1 ≤ q ∧ q ≤ 30 ∧ (s.chains.get c).atPosition q = some p := by
  simp only [Chain.inOrder, List.mem_filterMap, mem_addresses, and_assoc]

theorem State.mem_places {s : State} {x : NodeRef} : x ∈ s.places ↔ ∃ q, s.stands x.chain q x.address := by
  obtain ⟨c, a⟩ := x
  simp only [State.places, List.mem_flatMap, List.mem_map, State.mem_inOrder, NodeRef.mk.injEq, State.stands]
  constructor
  · rintro ⟨d, _, ⟨b, n⟩, ⟨q, h1, h30, hq⟩, rfl, rfl⟩
    exact ⟨q, h1, h30, n, hq⟩
  · rintro ⟨q, h1, h30, n, hq⟩
    exact ⟨c, mem_allChains c, (a, n), ⟨q, h1, h30, hq⟩, rfl, rfl⟩

/-- The order of the first-unsatisfied search: by chain, then by position. -/
def State.earlier (s : State) (x y : NodeRef) : Prop :=
  x.chain < y.chain ∨ (x.chain = y.chain ∧ s.placeOf x < s.placeOf y)

theorem State.places_ordered (s : State) : s.places.Pairwise s.earlier := by
  refine List.pairwise_flatMap.2 ⟨fun c _ => List.pairwise_map.2 (List.pairwise_filterMap.2 ?_), ?_⟩
  · refine (addresses_ascending.imp_of_mem fun {q p} hq hp hlt x hx y hy => Or.inr ⟨rfl, ?_⟩)
    have hxs : s.stands c q x.1 := ⟨(mem_addresses.1 hq).1, (mem_addresses.1 hq).2, x.2, hx⟩
    have hys : s.stands c p y.1 := ⟨(mem_addresses.1 hp).1, (mem_addresses.1 hp).2, y.2, hy⟩
    rw [State.placeOf_of_stands hxs, State.placeOf_of_stands hys]
    exact hlt
  · refine allChains_ascending.imp fun {c d} hcd x hx y hy => Or.inl ?_
    obtain ⟨_, _, rfl⟩ := List.mem_map.1 hx
    obtain ⟨_, _, rfl⟩ := List.mem_map.1 hy
    exact hcd

theorem State.firstUnsatisfied_eq (s : State) (cond : Condition) (kept : List (ChainId × BitVec 4)) (l : List NodeRef) :
    s.firstUnsatisfied cond kept l = s.places.find? fun x => l.contains x && !s.satisfied cond kept x := rfl

theorem State.firstUnsatisfied_eq_none {s : State} {cond : Condition} {kept : List (ChainId × BitVec 4)} {l : List NodeRef} :
    s.firstUnsatisfied cond kept l = none ↔ ∀ x ∈ s.places, ¬ (x ∈ l ∧ s.satisfied cond kept x = false) := by
  rw [State.firstUnsatisfied_eq, List.find?_eq_none]
  simp

/-- The first place that fails: every place before it in the order does not. -/
theorem State.firstUnsatisfied_first {s : State} {cond : Condition} {kept : List (ChainId × BitVec 4)} {l : List NodeRef}
    {x : NodeRef} (h : s.firstUnsatisfied cond kept l = some x) :
    (x ∈ l ∧ s.satisfied cond kept x = false) ∧ x ∈ s.places ∧
      ∀ y ∈ s.places, s.earlier y x → ¬ (y ∈ l ∧ s.satisfied cond kept y = false) := by
  have hx := List.find?_some h
  obtain ⟨_, as, bs, hsplit, hbefore⟩ := List.find?_eq_some_iff_append.1 h
  have hordered : (as ++ x :: bs).Pairwise s.earlier := hsplit ▸ s.places_ordered
  have hsplit' : s.places = as ++ x :: bs := hsplit
  have hirrefl (y : NodeRef) : ¬ s.earlier y y := by
    rintro (h | ⟨_, h⟩)
    · exact lt_irrefl _ h
    · exact lt_irrefl _ h
  have hasymm {y z : NodeRef} (hyz : s.earlier y z) : ¬ s.earlier z y := by
    rintro (h | ⟨he, h⟩)
    · rcases hyz with h' | ⟨he', _⟩
      · exact lt_asymm h h'
      · exact lt_irrefl _ (he' ▸ h)
    · rcases hyz with h' | ⟨_, h'⟩
      · exact lt_irrefl _ (he ▸ h')
      · exact lt_asymm h h'
  refine ⟨by simpa using hx, hsplit' ▸ List.mem_append_right as List.mem_cons_self, fun y hy hlt hfails => ?_⟩
  rw [hsplit', List.mem_append, List.mem_cons] at hy
  rcases hy with hy | rfl | hy
  · simpa [hfails] using hbefore y hy
  · exact hirrefl y hlt
  · have hlater : s.earlier x y := (List.pairwise_cons.1 (List.pairwise_append.1 hordered).2.1).1 y hy
    exact hasymm hlt hlater

/-- Settles O47: selections as filters of ordered lists of references, and the first failure as a search in the ordered list of
the enrolled places. -/
theorem selectionsAndConditionsAreResolved : Obligations.SelectionsAndConditionsAreResolved := by
  unfold Obligations.SelectionsAndConditionsAreResolved
  intro s takes names group
  refine ⟨?nodes, ?group, ?considered, ?gens, ?conditions, ?first, ?places⟩
  case nodes =>
    intro chain address f x
    refine ⟨?_, ?_, ?_, ?_⟩
    · rw [State.targets, List.mem_filter, State.mem_named_nodes, State.enrolledAs_iff]
      simp only [Selector.filter?, Option.getD_some, KindFilter.takes_iff]
      rfl
    · rintro a rfl
      exact State.mem_named_nodes
    · rintro rfl
      rfl
    · exact (s.named_nodes_ascending chain address f).filter _
  case group =>
    intro g c
    have hnamed : s.named (.group g) = byChain (group g) := rfl
    have htargets : s.targets (.group g) = (byChain (group g)).filter fun x => (s.node x).isSome :=
      List.filter_congr fun x _ => s.enrolledAs_any x
    refine ⟨?_, ?_, filter_byChain _ c, byChain_ordered _⟩
    · rw [htargets, List.filter_comm, filter_byChain, List.filter_filter]
      exact List.filter_congr fun x _ => Bool.and_comm _ _
    · rw [htargets]
      exact (byChain_ordered _).filter _
  case considered =>
    intro l f x
    rw [State.considered, List.mem_filter, State.considers]
    cases s.node x with
    | none => simp
    | some n => simp [NodeState.reachable_iff, KindFilter.takes_iff, takes]
  case gens =>
    intro l c g
    simp only [State.gens, List.mem_map, List.mem_filter, mem_allChains, true_and, Prod.mk.injEq, List.any_eq_true,
      decide_eq_true_eq]
    grind
  case conditions =>
    intro x n hn
    refine ⟨fun kept => ⟨?_, fun t => ?_⟩, fun before g0 later hbefore => ?_⟩
    · rw [State.satisfied_of_node hn]
      exact decide_eq_true_iff
    · rw [State.satisfied_of_node hn]
      exact decide_eq_true_iff
    · rw [State.satisfied_of_node hn, keptGen_of_first hbefore]
      exact Node.satisfies_applied
  case first =>
    intro cond kept l fails stands
    refine ⟨?_, fun x hx => ?_⟩
    · rw [State.firstUnsatisfied_eq_none]
      refine ⟨fun h c q a hstands => h _ (State.mem_places.2 ⟨q, hstands⟩), fun h x hx => ?_⟩
      obtain ⟨q, hq⟩ := State.mem_places.1 hx
      exact h x.chain q x.address hq
    · obtain ⟨hfails, hplace, hbefore⟩ := State.firstUnsatisfied_first hx
      obtain ⟨q, hq⟩ := State.mem_places.1 hplace
      refine ⟨hfails, q, hq, fun c p a hstands hlt => hbefore _ (State.mem_places.2 ⟨p, hstands⟩) ?_⟩
      refine hlt.imp_right fun ⟨hc, hp⟩ => ⟨hc, ?_⟩
      rw [State.placeOf_of_stands hstands, State.placeOf_of_stands hq]
      exact hp
  case places =>
    intro c q a n h
    exact Chain.atPosition_eq_some h

end Sys2Proof.Machine
end

section
/-! Cue steps read from their bytes, and CUE_LOAD and CUE_READ (R147 to R149, R194). O44. -/

namespace Sys2Proof.Machine

/-! ### Fields -/

theorem ite_some_bind {α β : Type} (p : Prop) [Decidable p] (v : α) (f : α → Option β) :
    (if p then some v else none).bind f = if p then f v else none := by
  split <;> rfl

theorem inRange_bind {α : Type} (lo hi n : Nat) (f : Nat → Option α) :
    (inRange lo hi n).bind f = if lo ≤ n ∧ n ≤ hi then f n else none := ite_some_bind _ n f

theorem inRange_map {α : Type} (lo hi n : Nat) (f : Nat → α) :
    (inRange lo hi n).map f = if lo ≤ n ∧ n ≤ hi then some (f n) else none := by
  unfold inRange
  split <;> rfl

theorem check_bind {α : Type} (b : Bool) (f : Unit → Option α) : (check b).bind f = if b = true then f () else none :=
  ite_some_bind _ () f

theorem settings?_eq (colour gamma rotation dimming fan : Byte) :
    settings? colour gamma rotation dimming fan =
      if colour.toNat ≤ 15 ∧ gamma.toNat ≤ 3 ∧ rotation.toNat ≤ 3 ∧ dimming.toNat ≤ 3 ∧ fan.toNat ≤ 2 then
        some { colour := colour.toNat, gamma := gamma.toNat, rotation := rotation.toNat, dimming := dimming.toNat,
               fan := fan.toNat }
      else none := by
  simp only [settings?, Option.bind_eq_bind, inRange_bind, Nat.zero_le, true_and, ← ite_and]

/-! ### Steps (R147, R194) -/

section
variable (f x a k : Byte) (more : List Byte)

theorem cueStep?_look_source (v : Byte) :
    cueStep? ([0, f, x, a, k, 0, v] ++ more) =
      .step ((selector? f x a k).bind fun sel => (tileSource? v.toNat).map fun s => .look sel (.source s)) more := by
  cases h : selector? f x a k <;> cases hs : tileSource? v.toNat <;>
    simp [cueStep?, lookStep?, lookValue?, byteValue?, h, hs]

theorem cueStep?_look_brightness (h l : Byte) :
    cueStep? ([0, f, x, a, k, 1, h, l] ++ more) =
      .step ((selector? f x a k).bind fun sel =>
        if (h ++ l : Word16).toNat ≤ 1000 then some (.look sel (.brightness (h ++ l : Word16).toNat)) else none) more := by
  simp [cueStep?, lookStep?, lookValue?, levelValue?, inRange_map, get16, ite_some_bind]

theorem cueStep?_look_intensity (h l : Byte) :
    cueStep? ([0, f, x, a, k, 2, h, l] ++ more) =
      .step ((selector? f x a k).bind fun sel =>
        if (h ++ l : Word16).toNat ≤ 1000 then some (.look sel (.intensity (h ++ l : Word16).toNat)) else none) more := by
  simp [cueStep?, lookStep?, lookValue?, levelValue?, inRange_map, get16, ite_some_bind]

theorem cueStep?_look_preset (v : Byte) :
    cueStep? ([0, f, x, a, k, 3, v] ++ more) =
      .step ((selector? f x a k).bind fun sel =>
        if v.toNat ≤ 15 then some (.look sel (.preset v.toNat)) else none) more := by
  simp [cueStep?, lookStep?, lookValue?, byteValue?, inRange_map, ite_some_bind]

theorem cueStep?_fade_brightness (th tl nh nl : Byte) :
    cueStep? ([1, f, x, a, k, 0, th, tl, nh, nl] ++ more) =
      .step ((selector? f x a k).bind fun sel =>
        if (th ++ tl : Word16).toNat ≤ 1000 ∧ 1 ≤ (nh ++ nl : Word16).toNat ∧ (nh ++ nl : Word16).toNat ≤ 1000 then
          some (.fade sel .brightness (th ++ tl : Word16).toNat (nh ++ nl : Word16).toNat) else none) more := by
  simp [cueStep?, fadeStep?, inRange_bind, get16, ite_and]

theorem cueStep?_fade_intensity (th tl nh nl : Byte) :
    cueStep? ([1, f, x, a, k, 1, th, tl, nh, nl] ++ more) =
      .step ((selector? f x a k).bind fun sel =>
        if (th ++ tl : Word16).toNat ≤ 1000 ∧ 1 ≤ (nh ++ nl : Word16).toNat ∧ (nh ++ nl : Word16).toNat ≤ 1000 then
          some (.fade sel .intensity (th ++ tl : Word16).toNat (nh ++ nl : Word16).toNat) else none) more := by
  simp [cueStep?, fadeStep?, inRange_bind, get16, ite_and]

theorem cueStep?_fade_of_no_parameter {p : Byte} (h0 : p ≠ 0) (h1 : p ≠ 1) (th tl nh nl : Byte) :
    cueStep? ([1, f, x, a, k, p, th, tl, nh, nl] ++ more) = .step none more := by
  refine congrArg (StepBytes.step · more) ?_
  simp only [if_neg h0, if_neg h1]
  cases selector? f x a k <;> rfl

theorem cueStep?_fade_of_no_selector (hsel : selector? f x a k = none) (p th tl nh nl : Byte) :
    cueStep? ([1, f, x, a, k, p, th, tl, nh, nl] ++ more) = .step none more := by
  simp [cueStep?, fadeStep?, hsel]

theorem cueStep?_wait (h l : Byte) :
    cueStep? ([2, h, l] ++ more) =
      .step (if 1 ≤ (h ++ l : Word16).toNat ∧ (h ++ l : Word16).toNat ≤ 30000 then some (.wait (h ++ l : Word16).toNat)
        else none) more := by
  simp [cueStep?, waitStep?, inRange_map, get16]

theorem cueStep?_configure (tag colour gamma rotation dimming fan : Byte) :
    cueStep? ([4, f, x, a, k, tag, colour, gamma, rotation, dimming, fan] ++ more) =
      .step ((selector? f x a k).bind fun sel =>
        if tag ≠ 0 ∧ colour.toNat ≤ 15 ∧ gamma.toNat ≤ 3 ∧ rotation.toNat ≤ 3 ∧ dimming.toNat ≤ 3 ∧ fan.toNat ≤ 2 then
          some (.configure sel tag { colour := colour.toNat, gamma := gamma.toNat, rotation := rotation.toNat,
                                     dimming := dimming.toNat, fan := fan.toNat }) else none) more := by
  refine congrArg (StepBytes.step · more) (congrArg (selector? f x a k).bind (funext fun sel => ?_))
  simp only [Option.bind_eq_bind, settings?_eq, check_bind, ite_some_bind, ← ite_and, decide_eq_true_eq]

theorem cueStep?_enable :
    cueStep? ([5, f, x, a, k] ++ more) = .step ((selector? f x a k).map .enable) more := rfl

/-- An EXPECT's window and check, once its selector and condition are read. -/
theorem expectTail?_eq (sel : Option Selector) (cond : Condition) (most : Nat) (w ck : Byte) :
    expectTail? sel cond most (w :: ck :: more) =
      .step (sel.bind fun sel =>
        if 1 ≤ w.toNat ∧ w.toNat ≤ most ∧ ck.toNat ≤ 1 then some (.expect sel cond w.toNat (decide (ck = 0))) else none)
        more := by
  have hck : (if ck = 0 then some true else if ck = 1 then some false else none) =
      if ck.toNat ≤ 1 then some (decide (ck = 0)) else none := by
    by_cases h0 : ck = 0
    · simp [h0]
    · by_cases h1 : ck = 1
      · simp [h1]
      · rw [if_neg h0, if_neg h1, if_neg (by bv_omega)]
  simp only [expectTail?, Option.bind_eq_bind, inRange_bind, hck, ite_some_bind, ← ite_and, and_assoc]

theorem cueStep?_expect_live (w ck : Byte) :
    cueStep? ([6, f, x, a, k, 0, w, ck] ++ more) = expectTail? (selector? f x a k) .modeLive 250 (w :: ck :: more) := rfl

theorem cueStep?_expect_tag (tag w ck : Byte) :
    cueStep? ([6, f, x, a, k, 1, tag, w, ck] ++ more) =
      expectTail? (selector? f x a k) (.configTag tag) 250 (w :: ck :: more) := rfl

theorem cueStep?_expect_applied (w ck : Byte) :
    cueStep? ([6, f, x, a, k, 2, w, ck] ++ more) = expectTail? (selector? f x a k) .applied 8 (w :: ck :: more) := rfl

theorem cueStep?_confirm (h l : Byte) :
    cueStep? ([7, h, l, 0] ++ more) =
      .step (if 1 ≤ (h ++ l : Word16).toNat ∧ (h ++ l : Word16).toNat ≤ 1000 then
        some (.confirm (h ++ l : Word16).toNat none) else none) more := by
  simp [cueStep?, confirmStep?, inRange_map, get16]

theorem cueStep?_confirm_fallback (h l v : Byte) :
    cueStep? ([7, h, l, 1, v] ++ more) =
      .step (if 1 ≤ (h ++ l : Word16).toNat ∧ (h ++ l : Word16).toNat ≤ 1000 then
        some (.confirm (h ++ l : Word16).toNat (some v.toNat)) else none) more := by
  simp [cueStep?, confirmStep?, inRange_map, get16]

/-! ### Bytes that name nothing (log 10) -/

theorem cueStep?_of_no_kind {p : Byte} (h : 9 < p.toNat) : cueStep? (p :: more) = .stuck := by
  obtain ⟨n, hn⟩ : ∃ n, p.toNat = n + 10 := ⟨p.toNat - 10, by omega⟩
  rw [cueStep?, hn]
  rfl

theorem cueStep?_look_of_no_parameter {p : Byte} (h : 3 < p.toNat) : cueStep? ([0, f, x, a, k, p] ++ more) = .stuck :=
  if_pos h

theorem ne_of_toNat_gt {p : Byte} {n : Nat} (h : n < p.toNat) {q : Byte} (hq : q.toNat ≤ n) : p ≠ q := by
  rintro rfl
  omega

theorem cueStep?_sync_of_no_form {p : Byte} (h : 1 < p.toNat) : cueStep? ([3, p] ++ more) = .stuck :=
  (if_neg (ne_of_toNat_gt h (by decide))).trans (if_neg (ne_of_toNat_gt h (by decide)))

theorem cueStep?_expect_of_no_condition {p : Byte} (h : 2 < p.toNat) : cueStep? ([6, f, x, a, k, p] ++ more) = .stuck :=
  (if_neg (ne_of_toNat_gt h (by decide))).trans
    ((if_neg (ne_of_toNat_gt h (by decide))).trans (if_neg (ne_of_toNat_gt h (by decide))))

theorem cueStep?_confirm_of_no_presence (h l : Byte) {p : Byte} (hp : 1 < p.toNat) :
    cueStep? ([7, h, l, p] ++ more) = .stuck :=
  (if_neg (ne_of_toNat_gt hp (by decide))).trans (if_neg (ne_of_toNat_gt hp (by decide)))

end

theorem cueSteps?_of_step {bytes more : List Byte} {st : Option CueStep} (h : cueStep? bytes = .step st more) (n : Nat) :
    cueSteps? (n + 1) bytes = (cueSteps? n more).map (st :: ·) := by
  rw [cueSteps?, h]

theorem cueSteps?_of_stuck {bytes : List Byte} (h : cueStep? bytes = .stuck) (n : Nat) :
    cueSteps? (n + 1) bytes = some [none] := by
  rw [cueSteps?, h]

/-! ### Selectors (R194) -/

theorem chainOrAll?_eq_none {b : Byte} : chainOrAll? b = none ↔ 3 < b.toNat ∧ b ≠ 0xFF := by
  by_cases hall : b = 0xFF
  · simp [chainOrAll?, hall]
  · rw [chainOrAll?, if_neg hall, Option.map_eq_none_iff, and_iff_left hall, chainByte?, chainOf?]
    split <;> simp <;> omega

theorem addressOrAll?_eq_none {b : Byte} : addressOrAll? b = none ↔ (b.toNat < 1 ∨ 30 < b.toNat) ∧ b ≠ 0xFF := by
  by_cases hall : b = 0xFF
  · simp [addressOrAll?, hall]
  · rw [addressOrAll?, if_neg hall, Option.map_eq_none_iff, and_iff_left hall, address?, inRange_eq_none]

theorem filter?_eq_none {b : Byte} : filter? b = none ↔ 2 < b.toNat := by
  unfold filter?
  split
  all_goals simp_all
  omega

theorem selector?_nodes (x a k : Byte) :
    selector? 0 x a k = none ↔
      (3 < x.toNat ∧ x ≠ 0xFF) ∨ ((a.toNat < 1 ∨ 30 < a.toNat) ∧ a ≠ 0xFF) ∨ 2 < k.toNat := by
  rw [← chainOrAll?_eq_none, ← addressOrAll?_eq_none, ← filter?_eq_none]
  change ((chainOrAll? x).bind fun c => (addressOrAll? a).bind fun ad => (filter? k).bind fun k =>
    some (Selector.nodes c ad k)) = none ↔ _
  cases chainOrAll? x <;> cases addressOrAll? a <;> cases filter? k <;> simp

theorem selector?_group (x a k : Byte) :
    selector? 1 x a k = none ↔ 15 < x.toNat ∨ a ≠ 0 ∨ k ≠ 0 := by
  change ((inRange 0 15 x.toNat).bind fun g => (check (a = 0 && k = 0)).bind fun _ => some (Selector.group g)) = none ↔ _
  rw [inRange_bind, check_bind]
  grind

theorem selector?_of_no_form {f : Byte} (h : 1 < f.toNat) (x a k : Byte) : selector? f x a k = none :=
  (if_neg (ne_of_toNat_gt h (by decide))).trans (if_neg (ne_of_toNat_gt h (by decide)))

theorem selector?_eq_none (f x a k : Byte) : selector? f x a k = none ↔
    (f = 0 ∧ ((3 < x.toNat ∧ x ≠ 0xFF) ∨ ((a.toNat < 1 ∨ 30 < a.toNat) ∧ a ≠ 0xFF) ∨ 2 < k.toNat)) ∨
      (f = 1 ∧ (15 < x.toNat ∨ a ≠ 0 ∨ k ≠ 0)) ∨ 1 < f.toNat := by
  by_cases h0 : f = 0
  · subst h0
    rw [selector?_nodes]
    simp
  · by_cases h1 : f = 1
    · subst h1
      rw [selector?_group]
      simp
    · have hform : 1 < f.toNat := by bv_omega
      simp [selector?_of_no_form hform, hform]

/-! ### CUE_LOAD (R148) -/

/-- A step that CUE_LOAD takes in a list of `n`. -/
theorem stepFits_iff {n : Nat} {st : Option CueStep} :
    stepFits n st = true ↔ ∃ y, st = some y ∧ ∀ w k, y = .confirm w (some k) → k < n := by
  unfold stepFits
  split
  · simp
  · simp
  · next y hy =>
      simp only [Option.some.injEq, exists_eq_left', true_iff]
      rintro w k rfl
      exact absurd rfl (hy w k)

theorem CueStep.ends_iff {x : CueStep} : x.ends = true ↔ x = .finish ∨ x = .stop := by
  cases x <;> simp [CueStep.ends]

theorem checkSteps_of_bad {n : Nat} {before after : List (Option CueStep)} {st : Option CueStep}
    (hbefore : ∀ y ∈ before, stepFits n y = true) (hst : ¬ stepFits n st = true) :
    checkSteps n (before ++ st :: after) = .error before.length := by
  have hfind : (before ++ st :: after).findIdx? (fun x => !stepFits n x) = some before.length := by
    have hnone : before.findIdx? (fun x => !stepFits n x) = none := List.findIdx?_eq_none_iff.2 fun y hy => by
      simp [hbefore y hy]
    rw [List.findIdx?_append, hnone, List.findIdx?_cons]
    simp [hst]
  rw [checkSteps, hfind]

theorem checkSteps_of_fit {n : Nat} {l : List CueStep} {last : CueStep}
    (hfit : ∀ y ∈ (l ++ [last]).map some, stepFits n y = true) :
    checkSteps n ((l ++ [last]).map some) = if last.ends then .ok (l ++ [last]) else .error (n - 1) := by
  have hfind : ((l ++ [last]).map some).findIdx? (fun x => !stepFits n x) = none :=
    List.findIdx?_eq_none_iff.2 fun y hy => by simp [hfit y hy]
  have hsteps : ((l ++ [last]).map some).filterMap id = l ++ [last] := by
    rw [List.filterMap_map]
    exact List.filterMap_some
  rw [checkSteps, hfind]
  dsimp only
  rw [hsteps, List.getLast?_append]
  rfl

theorem State.slotHeld_iff {s : State} {slot : Nat} :
    s.slotHeld slot = true ↔
      ∃ r, (s.runner r).slot = some slot ∧ ((s.runner r).state = .armed ∨ ∃ w, (s.runner r).state = .waiting w) := by
  have hany (p : Runner → Bool) : s.cues.runners.toList.any p = true ↔ ∃ r, p (s.runner r) = true := by
    refine List.any_eq_true.trans ⟨?_, ?_⟩
    · rintro ⟨u, hu, hp⟩
      have hmem : u = s.cues.runners.r0 ∨ u = s.cues.runners.r1 ∨ u = s.cues.runners.r2 := by simpa [Three.toList] using hu
      rcases hmem with rfl | rfl | rfl
      · exact ⟨0, hp⟩
      · exact ⟨1, hp⟩
      · exact ⟨2, hp⟩
    · rintro ⟨r, hp⟩
      refine ⟨s.runner r, ?_, hp⟩
      fin_cases r <;> simp [Three.toList, State.runner, Three.get]
  rw [State.slotHeld, hany]
  simp [← RunState.holdsSlot_iff, and_comm]

section
variable {q : Request} {rest : List Request} {x : CueLoadArgs} {s : State}

theorem exec_cueLoad_of_range (hq : Waits .cueLoad q rest s) (hx : cueLoad? q.body = some x)
    (h : 7 < x.slot ∨ x.count < 1 ∨ 32 < x.count) :
    exec .cueLoad s = .next ((s.taken rest).replied q .badArg .empty) := by
  rw [show exec .cueLoad s = execCueLoad s from rfl, execCueLoad, takeWith_some hq hx]
  exact ended_congr (if_pos h)

theorem exec_cueLoad_of_held (hq : Waits .cueLoad q rest s) (hx : cueLoad? q.body = some x)
    (h : ¬ (7 < x.slot ∨ x.count < 1 ∨ 32 < x.count)) (hheld : s.slotHeld x.slot = true) :
    exec .cueLoad s = .next ((s.taken rest).replied q .busy .empty) := by
  rw [show exec .cueLoad s = execCueLoad s from rfl, execCueLoad, takeWith_some hq hx]
  exact ended_congr ((if_neg h).trans (if_pos hheld))

theorem exec_cueLoad_of_bad (hq : Waits .cueLoad q rest s) (hx : cueLoad? q.body = some x)
    (h : ¬ (7 < x.slot ∨ x.count < 1 ∨ 32 < x.count)) (hheld : ¬ s.slotHeld x.slot = true) {k : Nat}
    (hsteps : checkSteps x.count x.steps = .error k) :
    exec .cueLoad s = .next ((s.taken rest).replied q .badArg (.cueBadStep k)) := by
  rw [show exec .cueLoad s = execCueLoad s from rfl, execCueLoad, takeWith_some hq hx]
  refine ended_congr ((if_neg h).trans ((if_neg hheld).trans ?_))
  rw [hsteps]

theorem exec_cueLoad_of_steps (hq : Waits .cueLoad q rest s) (hx : cueLoad? q.body = some x)
    (h : ¬ (7 < x.slot ∨ x.count < 1 ∨ 32 < x.count)) (hheld : ¬ s.slotHeld x.slot = true) {l : List CueStep}
    (hsteps : checkSteps x.count x.steps = .ok l) :
    exec .cueLoad s = .next (((s.taken rest).loadSlot x.slot l).replied q .ok (.cueLoad l.length)) := by
  rw [show exec .cueLoad s = execCueLoad s from rfl, execCueLoad, takeWith_some hq hx]
  refine ended_congr ((if_neg h).trans ((if_neg hheld).trans ?_))
  rw [hsteps]

end

/-! ### CUE_READ (R149) -/

theorem exec_cueRead_of_range {q : Request} {rest : List Request} {b : Byte} {s : State} (hq : Waits .cueRead q rest s)
    (hbody : q.body = [b]) (h : 7 < b.toNat) :
    exec .cueRead s = .next ((s.taken rest).replied q .badArg .empty) := by
  have hx : cueSlot? q.body = none := by
    rw [hbody]
    exact inRange_eq_none.2 (.inr h)
  rw [show exec .cueRead s = execCueRead s from rfl, execCueRead, takeWith_none hq hx]

theorem exec_cueRead_of_slot {q : Request} {rest : List Request} {b : Byte} {s : State} (hq : Waits .cueRead q rest s)
    (hbody : q.body = [b]) (h : b.toNat ≤ 7) :
    exec .cueRead s = .next ((s.taken rest).replied q .ok
      (.cueRead (s.steps b.toNat) (allRunners.filterMap fun r =>
        if (s.runner r).slot = some b.toNat then some (r, (s.runner r).state) else none))) := by
  have hx : cueSlot? q.body = some b.toNat := by
    rw [hbody]
    exact if_pos ⟨Nat.zero_le _, h⟩
  have hrunners : ((allRunners.filter fun r => decide ((s.runner r).slot = some b.toNat)).map fun r => (r, (s.runner r).state)) =
      allRunners.filterMap fun r => if (s.runner r).slot = some b.toNat then some (r, (s.runner r).state) else none := by
    rw [← List.filterMap_eq_map, List.filterMap_filter]
    simp
  rw [show exec .cueRead s = execCueRead s from rfl, execCueRead, takeWith_some hq hx, ← hrunners]
  rfl

/-! ### Steps as the statement gives them -/

/-- The bytes give the step when it fits, and a step that does not fit otherwise. -/
theorem gives_of_eq {bytes more : List Byte} {fits : Prop} [Decidable fits] {y : CueStep}
    (h : cueStep? bytes = .step (if fits then some y else none) more) :
    (fits → cueStep? bytes = .step (some y) more) ∧ (¬ fits → cueStep? bytes = .step none more) :=
  ⟨fun hf => by rw [h, if_pos hf], fun hf => by rw [h, if_neg hf]⟩

theorem gives_of_step {bytes more : List Byte} {y : CueStep} (h : cueStep? bytes = .step (some y) more) :
    (True → cueStep? bytes = .step (some y) more) ∧ (¬ True → cueStep? bytes = .step none more) :=
  ⟨fun _ => h, fun hf => absurd trivial hf⟩

theorem tileSource?_of_still {n page : Nat} (hn : n = page + 1) (hp : page ≤ 3) :
    tileSource? n = some (.still page) := by
  subst hn
  exact (if_neg (Nat.succ_ne_zero page)).trans (if_pos (by omega))

theorem tileSource?_of_none {n : Nat} (h : 6 < n) : tileSource? n = none :=
  (if_neg (by omega)).trans ((if_neg (by omega)).trans ((if_neg (by omega)).trans (if_neg (by omega))))

/-- Settles O44: the requests by their checks, and each kind of step as one equation over its selector and its fields. -/
theorem cueSlotsAreLoadedAndRead : Obligations.CueSlotsAreLoadedAndRead := by
  unfold Obligations.CueSlotsAreLoadedAndRead
  refine ⟨?load, ?read, selector?_eq_none, fun _ _ _ => rfl, ?steps, ?given, ?unnamed, ?stuck⟩
  case load =>
    intro q rest x s hq hx held fits loaded
    refine ⟨exec_cueLoad_of_range hq hx, fun hslot h1 h32 => ?_⟩
    have hrange : ¬ (7 < x.slot ∨ x.count < 1 ∨ 32 < x.count) := by omega
    refine ⟨fun hheld => exec_cueLoad_of_held hq hx hrange (State.slotHeld_iff.2 hheld), fun hheld => ⟨?bad, ?fit⟩⟩
    all_goals have hfree : ¬ s.slotHeld x.slot = true := fun h => hheld (State.slotHeld_iff.1 h)
    case bad =>
      intro before st after hsteps hbefore hst
      refine exec_cueLoad_of_bad hq hx hrange hfree ?_
      rw [hsteps]
      exact checkSteps_of_bad (fun y hy => stepFits_iff.2 (hbefore y hy)) fun h => hst (stepFits_iff.1 h)
    case fit =>
      intro l last hsteps hfit
      have hcheck : checkSteps x.count x.steps = if last.ends then .ok (l ++ [last]) else .error (x.count - 1) := by
        rw [hsteps] at hfit ⊢
        exact checkSteps_of_fit fun y hy => stepFits_iff.2 (hfit y hy)
      refine ⟨fun hfinish hstop => ?_, fun hend => ?_⟩
      · have hends : ¬ last.ends = true := fun h => (CueStep.ends_iff.1 h).elim hfinish hstop
        exact exec_cueLoad_of_bad hq hx hrange hfree (hcheck.trans (if_neg hends))
      · have hexec := exec_cueLoad_of_steps hq hx hrange hfree (hcheck.trans (if_pos (CueStep.ends_iff.2 hend)))
        rw [List.length_append] at hexec
        exact hexec
  case read =>
    intro q rest b s hq hbody
    exact ⟨exec_cueRead_of_range hq hbody, exec_cueRead_of_slot hq hbody⟩
  case steps =>
    intro n bytes
    exact ⟨fun st more h => cueSteps?_of_step h n, fun h => cueSteps?_of_stuck h n⟩
  case given =>
    intro sel f x a k more hsel gives word
    refine ⟨fun v page => ⟨?_, ?_, ?_, ?_, ?_⟩, fun h l => ⟨?_, ?_⟩, fun v => ?_, fun th tl nh nl => ⟨?_, ?_, ?_⟩,
      fun h l => gives_of_eq (cueStep?_wait more h l), fun h l => gives_of_step rfl, gives_of_step rfl,
      fun tag colour gamma rotation dimming fan => ?_, ?_, fun w ck tag => ⟨?_, ?_, ?_⟩,
      fun h l => ⟨gives_of_eq (cueStep?_confirm more h l), fun v => gives_of_eq (cueStep?_confirm_fallback more h l v)⟩,
      gives_of_step rfl, gives_of_step rfl⟩
    · rintro rfl
      exact gives_of_step (by rw [cueStep?_look_source, hsel]; rfl)
    · intro hv hp
      exact gives_of_step (by rw [cueStep?_look_source, hsel, tileSource?_of_still hv hp]; rfl)
    · rintro rfl
      exact gives_of_step (by rw [cueStep?_look_source, hsel]; rfl)
    · rintro rfl
      exact gives_of_step (by rw [cueStep?_look_source, hsel]; rfl)
    · intro hv
      rw [cueStep?_look_source, hsel, tileSource?_of_none hv]
      rfl
    · exact gives_of_eq (by rw [cueStep?_look_brightness, hsel]; rfl)
    · exact gives_of_eq (by rw [cueStep?_look_intensity, hsel]; rfl)
    · exact gives_of_eq (by rw [cueStep?_look_preset, hsel]; rfl)
    · exact gives_of_eq (by rw [cueStep?_fade_brightness, hsel]; rfl)
    · exact gives_of_eq (by rw [cueStep?_fade_intensity, hsel]; rfl)
    · exact fun p h0 h1 => cueStep?_fade_of_no_parameter f x a k more h0 h1 th tl nh nl
    · exact gives_of_eq (by rw [cueStep?_configure, hsel]; rfl)
    · exact gives_of_step (by rw [cueStep?_enable, hsel]; rfl)
    · exact gives_of_eq (by rw [cueStep?_expect_live, hsel, expectTail?_eq]; rfl)
    · exact gives_of_eq (by rw [cueStep?_expect_tag, hsel, expectTail?_eq]; rfl)
    · exact gives_of_eq (by rw [cueStep?_expect_applied, hsel, expectTail?_eq]; rfl)
  case unnamed =>
    intro f x a k more hsel
    refine ⟨fun v => ⟨?_, ?_⟩, fun p h l hp => ?_, cueStep?_fade_of_no_selector f x a k more hsel,
      fun tag colour gamma rotation dimming fan => ?_, ?_, fun w ck tag => ⟨?_, ?_, ?_⟩⟩
    · rw [cueStep?_look_source, hsel]
      rfl
    · rw [cueStep?_look_preset, hsel]
      rfl
    · rcases hp with rfl | rfl
      · rw [cueStep?_look_brightness, hsel]
        rfl
      · rw [cueStep?_look_intensity, hsel]
        rfl
    · rw [cueStep?_configure, hsel]
      rfl
    · rw [cueStep?_enable, hsel]
      rfl
    · rw [cueStep?_expect_live, hsel, expectTail?_eq]
      rfl
    · rw [cueStep?_expect_tag, hsel, expectTail?_eq]
      rfl
    · rw [cueStep?_expect_applied, hsel, expectTail?_eq]
      rfl
  case stuck =>
    intro f x a k p more
    exact ⟨cueStep?_of_no_kind more, cueStep?_look_of_no_parameter f x a k more, cueStep?_sync_of_no_form more,
      cueStep?_expect_of_no_condition f x a k more, fun h l => cueStep?_confirm_of_no_presence more h l⟩

end Sys2Proof.Machine
end

section
/-! The receiver of the Control Link: bytes, frames and the requests they carry (R175 to R178, R193). O50. -/

namespace Sys2Proof.Machine

/-! ### Bytes (R175, R177) -/

section
variable {b : Byte} {rate : Nat} {s : State}

theorem exec_incomingByte_of_no_rate (h : s.link.rate = none) :
    exec (.incomingByte b rate) s = .next (s.learnRate b rate).ended := by
  rw [show exec (.incomingByte b rate) s = execIncomingByte b rate s from rfl, execIncomingByte, h]
  rfl

theorem exec_incomingByte_of_rate (h : s.link.rate ≠ none) : exec (.incomingByte b rate) s = .next (s.takeByte b).ended := by
  obtain ⟨r, hr⟩ := Option.ne_none_iff_exists'.1 h
  rw [show exec (.incomingByte b rate) s = execIncomingByte b rate s from rfl, execIncomingByte, hr]
  rfl

theorem State.takeByte_of_sync (h : s.link.receiver = .hunting) (hb : b = 0xA7) :
    s.takeByte b = s.setReceiver (.receiving [] 0) := by
  rw [State.takeByte, h]
  exact if_pos hb

theorem State.takeByte_of_hunted (h : s.link.receiver = .hunting) (hb : b ≠ 0xA7) :
    s.takeByte b = s.countLink fun c => { c with hunted := bump16 c.hunted } := by
  rw [State.takeByte, h]
  exact if_neg hb

theorem State.takeByte_of_receiving {bytes : List Byte} {t : Nat} (h : s.link.receiver = .receiving bytes t) :
    s.takeByte b = s.joinFrame (bytes ++ [b]) t := by
  rw [State.takeByte, h]

end

section
variable {h l : Byte} {more : List Byte} {t : Nat} {s : State}

theorem State.joinFrame_of_bad_length (hn : (h ++ l : Word16).toNat < 2 ∨ 1102 < (h ++ l : Word16).toNat) :
    s.joinFrame (h :: l :: more) t = s.discardFrame .length := if_pos hn

theorem frameComplete_iff : frameComplete (h :: l :: more) = true ↔ more.length = (h ++ l : Word16).toNat + 2 := by
  refine decide_eq_true_iff.trans ?_
  change more.length + 1 + 1 = (h ++ l : Word16).toNat + 4 ↔ _
  omega

theorem State.joinFrame_of_incomplete (hlo : 2 ≤ (h ++ l : Word16).toNat) (hhi : (h ++ l : Word16).toNat ≤ 1102)
    (hlen : more.length ≠ (h ++ l : Word16).toNat + 2) :
    s.joinFrame (h :: l :: more) t = s.setReceiver (.receiving (h :: l :: more) t) :=
  (if_neg (show ¬ ((h ++ l : Word16).toNat < 2 ∨ 1102 < (h ++ l : Word16).toNat) by omega)).trans
    (if_neg fun hc => hlen (frameComplete_iff.1 hc))

theorem State.joinFrame_of_complete (hlo : 2 ≤ (h ++ l : Word16).toNat) (hhi : (h ++ l : Word16).toNat ≤ 1102)
    (hlen : more.length = (h ++ l : Word16).toNat + 2) :
    s.joinFrame (h :: l :: more) t = s.completeFrame (h :: l :: more) :=
  (if_neg (show ¬ ((h ++ l : Word16).toNat < 2 ∨ 1102 < (h ++ l : Word16).toNat) by omega)).trans
    (if_pos (frameComplete_iff.2 hlen))

end

/-! ### Frames (R176, R178, R190) -/

/-- A frame with its CRC-16 in its last two bytes. -/
theorem State.completeFrame_eq (h l kind tag c0 c1 : Byte) (body : List Byte) (s : State) :
    s.completeFrame (h :: l :: kind :: tag :: (body ++ [c0, c1])) =
      if crc16 (h :: l :: kind :: tag :: body) = (c0 ++ c1 : Word16) then
        ((s.setReceiver .hunting).countLink fun c => { c with received := bump16 c.received }).placeRequest
          { kind := kind, tag := tag, body := body }
      else s.discardFrame .check := by
  have hlen : (h :: l :: kind :: tag :: (body ++ [c0, c1])).length - 2 = (h :: l :: kind :: tag :: body).length := by
    simp
  have hdrop : (h :: l :: kind :: tag :: (body ++ [c0, c1])).drop (h :: l :: kind :: tag :: body).length = [c0, c1] :=
    List.drop_left (l₁ := h :: l :: kind :: tag :: body)
  have htake : (h :: l :: kind :: tag :: (body ++ [c0, c1])).take (h :: l :: kind :: tag :: body).length =
      h :: l :: kind :: tag :: body := List.take_left (l₁ := h :: l :: kind :: tag :: body)
  have hbody : (body ++ [c0, c1]).take ((body ++ [c0, c1]).length - 2) = body := by simp
  unfold State.completeFrame
  dsimp only
  rw [hlen, hdrop, htake]
  dsimp only
  rw [hbody]
  rfl

section
variable {q : Request} {s : State}

theorem State.placeRequest_of_place (h : s.link.resetting = false) (hp : s.link.placesHeld < 4) :
    s.placeRequest q = s.setLink { s.link with waiting := s.link.waiting ++ [q] } :=
  (if_neg (ne_true_of_eq_false h)).trans (if_pos hp)

theorem State.placeRequest_of_refusal (h : s.link.resetting = false) (hp : 4 ≤ s.link.placesHeld)
    (hr : s.link.refusalHeld = false) :
    s.placeRequest q = (s.setLink { s.link with ready := s.link.ready ++ [q.refusal] }).countLink fun c =>
      { c with refusedFull := bump16 c.refusedFull } :=
  (if_neg (ne_true_of_eq_false h)).trans
    ((if_neg (Nat.not_lt.2 hp)).trans (if_neg (ne_true_of_eq_false hr)))

theorem State.placeRequest_of_dropped (h : s.link.resetting = false) (hp : 4 ≤ s.link.placesHeld)
    (hr : s.link.refusalHeld = true) :
    s.placeRequest q = s.countLink fun c => { c with dropped := bump16 c.dropped } :=
  (if_neg (ne_true_of_eq_false h)).trans ((if_neg (Nat.not_lt.2 hp)).trans (if_pos hr))

end

theorem exec_controlFrame_of_complete {h l c1 : Byte} {more : List Byte} {t : Nat} {s : State}
    (hrec : s.link.receiver = .receiving (h :: l :: more) t) (hlo : 2 ≤ (h ++ l : Word16).toNat)
    (hhi : (h ++ l : Word16).toNat ≤ 1102) (hlen : (more ++ [c1]).length = (h ++ l : Word16).toNat + 2) :
    exec (.controlFrame c1) s = .next (s.completeFrame (h :: l :: (more ++ [c1]))).ended := by
  rw [show exec (.controlFrame c1) s = execControlFrame c1 s from rfl, execControlFrame, hrec]
  exact (if_pos (frameComplete_iff.2 hlen)).trans (ended_congr (State.joinFrame_of_complete hlo hhi hlen))

/-- Settles O50: a byte by the receiver's state and by the length field; the last byte by the CRC-16 and the places held. -/
theorem receivedBytesBecomeRequests : Obligations.ReceivedBytesBecomeRequests := by
  unfold Obligations.ReceivedBytesBecomeRequests
  refine ⟨?bytes, ?frames⟩
  case bytes =>
    intro b rate s l
    refine ⟨fun hr hb => ?_, fun hr hb => ?_, fun hr hrec => ⟨fun hb => ?_, fun hb => ?_⟩, fun t hr hrec => ?_,
      fun t h hr hrec => ⟨fun hlo hhi => ?_, fun hbad => ?_⟩, fun t h lo more hr hrec hlo hhi hlen => ?_⟩
    · exact (exec_incomingByte_of_no_rate hr).trans (ended_congr (if_neg hb))
    · exact (exec_incomingByte_of_no_rate hr).trans (ended_congr (if_pos hb))
    · exact (exec_incomingByte_of_rate hr).trans (ended_congr (State.takeByte_of_sync hrec hb))
    · exact (exec_incomingByte_of_rate hr).trans (ended_congr (State.takeByte_of_hunted hrec hb))
    · exact (exec_incomingByte_of_rate hr).trans (ended_congr (State.takeByte_of_receiving hrec))
    · refine (exec_incomingByte_of_rate hr).trans (ended_congr ((State.takeByte_of_receiving hrec).trans ?_))
      exact State.joinFrame_of_incomplete hlo hhi (by simp)
    · refine (exec_incomingByte_of_rate hr).trans (ended_congr ((State.takeByte_of_receiving hrec).trans ?_))
      exact State.joinFrame_of_bad_length hbad
    · refine (exec_incomingByte_of_rate hr).trans (ended_congr ((State.takeByte_of_receiving hrec).trans ?_))
      exact State.joinFrame_of_incomplete hlo hhi (by simpa using hlen)
  case frames =>
    intro s t h lo kind tag c0 c1 body l hrec hn hbody q heard ok
    have hexec : exec (.controlFrame c1) s =
        .next (s.completeFrame (h :: lo :: kind :: tag :: (body ++ [c0, c1]))).ended := by
      have hlist : kind :: tag :: body ++ [c0] ++ [c1] = kind :: tag :: (body ++ [c0, c1]) := by simp
      refine (exec_controlFrame_of_complete (more := kind :: tag :: body ++ [c0]) hrec (by omega) (by omega) ?_).trans
        (by rw [hlist])
      simp
      omega
    have hok (hc : ok) : exec (.controlFrame c1) s = .next ((s.setLink heard).placeRequest q).ended :=
      hexec.trans (ended_congr ((State.completeFrame_eq h lo kind tag c0 c1 body s).trans (if_pos hc)))
    refine ⟨fun hc => ?_, fun hc hr => ?_, fun hc hr hp => ?_, fun hc hr hp hf => ?_, fun hc hr hp hf => ?_⟩
    · exact hexec.trans (ended_congr ((State.completeFrame_eq h lo kind tag c0 c1 body s).trans (if_neg hc)))
    · exact (hok hc).trans (ended_congr (State.placeRequest_of_resetting (s := s.setLink heard) hr q))
    · exact (hok hc).trans (ended_congr (State.placeRequest_of_place hr hp))
    · exact (hok hc).trans (ended_congr (State.placeRequest_of_refusal hr hp hf))
    · exact (hok hc).trans (ended_congr (State.placeRequest_of_dropped hr hp hf))

end Sys2Proof.Machine
end

section
/-! The Control Link's ticks, reports and faults (R176, R182 to R184, R186, R187). O53, O54. -/

namespace Sys2Proof.Machine

/-! ### Reports offered (R182) -/

section
variable {e : Word16} {b : ReportBody} {l : Link}

theorem Link.offer_of_room (h : l.admits b = true) (hlen : l.reports.length < 32) :
    l.offer e b = { l with seq := l.seq + 1, reports := l.reports ++ [{ seq := l.seq, frame := e, body := b }] } :=
  (if_pos h).trans (if_pos hlen)

theorem Link.offer_of_full (h : l.admits b = true) (hlen : 32 ≤ l.reports.length) :
    l.offer e b = { l with seq := l.seq + 1, lost := bump16 l.lost } :=
  (if_pos h).trans (if_neg (Nat.not_lt.2 hlen))

theorem Link.offer_of_masked (h : l.admits b = false) : l.offer e b = l := if_neg (ne_true_of_eq_false h)

end

theorem bump16_eq_min (n : Nat) : bump16 n = min (n + 1) (max n 65535) := by
  unfold bump16
  split <;> omega

/-! ### Faults taken (R186, R187) -/

theorem Link.takeFault_of_first (f : FaultRecord) {l : Link} (h : l.faultCount = 0) :
    l.takeFault f = ({ l with captured := some f, faultCount := 1 } : Link).offer f.frame (.fault f 1 true) := by
  rw [Link.takeFault, h]
  rfl

theorem Link.takeFault_of_later (f : FaultRecord) {l : Link} (h : 0 < l.faultCount) :
    l.takeFault f =
      ({ l with faultCount := bump16 l.faultCount } : Link).offer f.frame (.fault f (bump16 l.faultCount) false) := by
  have hne : decide (l.faultCount = 0) = false := decide_eq_false (Nat.pos_iff_ne_zero.1 h)
  rw [Link.takeFault, hne]
  rfl

theorem bump16_of_lt {n : Nat} (h : n < 65535) : bump16 n = n + 1 := by
  rw [bump16_eq_min]
  omega

theorem bump16_max : bump16 65535 = 65535 := by
  rw [bump16_eq_min]
  rfl

/-! ### REPORT_SET (R183) -/

theorem exec_reportSet_of_period {q : Request} {rest : List Request} {mask p : Byte} {s : State}
    (hq : Waits .reportSet q rest s) (hbody : q.body = [mask, p]) (hp : p.toNat ≤ 250) :
    exec .reportSet s = .next
      ((s.setLink { s.link with waiting := rest, mask := mask, period := p.toNat, tickCount := 0 }).replied q .ok
        .empty) := by
  have hx : reportSet? q.body = some (mask, p.toNat) := by
    rw [hbody]
    change (inRange 0 250 p.toNat).bind (fun n => some (mask, n)) = _
    rw [inRange_bind, if_pos ⟨Nat.zero_le _, hp⟩]
  rw [show exec .reportSet s = execReportSet s from rfl, execReportSet, takeWith_some hq hx]
  rfl

theorem exec_reportSet_of_range {q : Request} {rest : List Request} {mask p : Byte} {s : State}
    (hq : Waits .reportSet q rest s) (hbody : q.body = [mask, p]) (hp : 250 < p.toNat) :
    exec .reportSet s = .next ((s.taken rest).replied q .badArg .empty) := by
  have hx : reportSet? q.body = none := by
    rw [hbody]
    change (inRange 0 250 p.toNat).bind (fun n => some (mask, n)) = _
    rw [inRange_eq_none.2 (.inr hp)]
    rfl
  rw [show exec .reportSet s = execReportSet s from rfl, execReportSet, takeWith_none hq hx]

/-- Settles O54: a report by the mask and the queue, a fault by the fault count, REPORT_SET by its period. -/
theorem reportsAndFaultsAreTaken : Obligations.ReportsAndFaultsAreTaken := by
  unfold Obligations.ReportsAndFaultsAreTaken
  refine ⟨?reports, ?mask, ?faults, ?reportSet⟩
  case reports =>
    intro e b l
    refine ⟨Link.offer_of_room, fun h hlen => ?_, Link.offer_of_masked, ?_⟩
    · rw [Link.offer_of_full h hlen, bump16_eq_min]
    · rintro cause rate rfl
      rfl
  case mask =>
    intro l e src a q x y p c i cause m f sa sb nc ch br cc st h sc fc cu r fr
    exact ⟨rfl, rfl, rfl, rfl, rfl, rfl, rfl, rfl⟩
  case faults =>
    intro f l
    refine ⟨Link.takeFault_of_first f, fun h hlt => ?_, fun hmax => ?_⟩
    · rw [Link.takeFault_of_later f h, bump16_of_lt hlt]
    · rw [Link.takeFault_of_later f (by omega), hmax, bump16_max]
      exact congrArg (fun n => ({ l with faultCount := n } : Link).offer f.frame (.fault f 65535 false)) hmax.symm
  case reportSet =>
    intro q rest mask p s hq hbody
    exact ⟨exec_reportSet_of_period hq hbody, exec_reportSet_of_range hq hbody⟩

/-! ### FRAME reports (R184) -/

/-- The body of the FRAME report. -/
def State.frameBody (t : State) : ReportBody :=
  .frame t.ref.counter t.ref.source t.pool.freeCount t.pool.quarantine.length t.pool.pause
    ⟨(t.chains.get 0).state, (t.chains.get 1).state, (t.chains.get 2).state, (t.chains.get 3).state⟩ t.intake.since
    t.link.lost t.link.faultCount

theorem State.frameReport_eq (t : State) :
    t.frameReport =
      if (t.link.admits t.frameBody && decide (t.link.reports.length < 32)) = true then
        { t.report t.frameBody with link := { (t.report t.frameBody).link with lost := 0 },
                                    intake := { t.intake with since := .zero } }
      else t.report t.frameBody := rfl

section
variable {t : State}

theorem State.frameReport_of_room (hm : t.link.mask.getLsbD 0 = true) (hlen : t.link.reports.length < 32) :
    t.frameReport = (t.setIntake { t.intake with since := .zero }).setLink
      { t.link with seq := t.link.seq + 1, lost := 0,
                    reports := t.link.reports ++ [{ seq := t.link.seq, frame := t.ref.counter, body := t.frameBody }] } := by
  have hadmits : t.link.admits t.frameBody = true := hm
  rw [State.frameReport_eq, hadmits, decide_eq_true hlen, State.report, Link.offer_of_room hadmits hlen]
  rfl

theorem State.frameReport_of_full (hm : t.link.mask.getLsbD 0 = true) (hlen : 32 ≤ t.link.reports.length) :
    t.frameReport = t.setLink { t.link with seq := t.link.seq + 1, lost := bump16 t.link.lost } := by
  have hadmits : t.link.admits t.frameBody = true := hm
  rw [State.frameReport_eq, decide_eq_false (Nat.not_lt.2 hlen), Bool.and_false, State.report,
    Link.offer_of_full hadmits hlen]
  rfl

theorem State.frameReport_of_masked (hm : t.link.mask.getLsbD 0 = false) : t.frameReport = t := by
  have hadmits : t.link.admits t.frameBody = false := hm
  rw [State.frameReport_eq, hadmits, Bool.false_and, State.report, Link.offer_of_masked hadmits]
  rfl

theorem State.countFrameTick_of_zero (h : t.link.period = 0) : t.countFrameTick = t := if_pos h

theorem State.countFrameTick_of_within (h : t.link.tickCount + 1 < t.link.period) :
    t.countFrameTick = t.setLink { t.link with tickCount := t.link.tickCount + 1 } :=
  (if_neg (show t.link.period ≠ 0 by omega)).trans (if_neg (Nat.not_le.2 h))

theorem State.countFrameTick_of_due (h0 : t.link.period ≠ 0) (h : t.link.period ≤ t.link.tickCount + 1) :
    t.countFrameTick = (t.setLink { t.link with tickCount := 0 }).frameReport :=
  (if_neg h0).trans (if_pos h)

/-! ### The stall watch (R176) -/

theorem State.watchFrame_of_hunting (h : t.link.receiver = .hunting) : t.watchFrame = t := by
  rw [State.watchFrame, h]

theorem State.watchFrame_of_first {bytes : List Byte} (h : t.link.receiver = .receiving bytes 0) :
    t.watchFrame = t.setReceiver (.receiving bytes 1) := by
  rw [State.watchFrame, h]
  rfl

theorem State.watchFrame_of_second {bytes : List Byte} {k : Nat} (h : t.link.receiver = .receiving bytes k) (hk : 1 ≤ k) :
    t.watchFrame = t.discardFrame .stall := by
  rw [State.watchFrame, h]
  exact if_pos (Nat.succ_le_succ hk)

end

theorem Link.offer_period (e : Word16) (b : ReportBody) (l : Link) : (l.offer e b).period = l.period := by
  rcases l.offer_cases e b with ⟨-, h⟩ | ⟨-, -, h⟩ | ⟨-, -, h⟩ <;> rw [h]

theorem State.discardFrame_period (d : LinkCheck) (s : State) : (s.discardFrame d).link.period = s.link.period :=
  Link.offer_period _ _ _

/-! ### The tick's commands -/

section
variable {n : Word16} {ticks : List Word16} {s : State}

theorem exec_controlLinkTick_of_tick (h : s.mail.ticks.link = n :: ticks) :
    exec .controlLinkTick s = .next (s.setLinkTicks ticks).countFrameTick.watchFrame.ended := by
  rw [show exec .controlLinkTick s = execControlLinkTick s from rfl, execControlLinkTick, h]
  rfl

theorem exec_frameReportDue_of_due (h : s.mail.ticks.link = n :: ticks) (h0 : s.link.period ≠ 0)
    (hdue : s.link.period ≤ s.link.tickCount + 1) :
    exec .frameReportDue s = .next (s.setLinkTicks ticks).countFrameTick.watchFrame.ended := by
  rw [show exec .frameReportDue s = execFrameReportDue s from rfl, execFrameReportDue, h]
  exact if_pos ⟨h0, hdue⟩

theorem exec_linkStallExpiry_of_due (h : s.mail.ticks.link = n :: ticks) {bytes : List Byte} {t : Nat}
    (hrec : s.link.receiver = .receiving bytes t) (ht : 1 ≤ t) :
    exec .linkStallExpiry s = .next (s.setLinkTicks ticks).watchFrame.countFrameTick.ended := by
  have hdue : s.link.stallDue = true := by
    rw [Link.stallDue, hrec]
    exact decide_eq_true (Nat.succ_le_succ ht)
  rw [show exec .linkStallExpiry s = execLinkStallExpiry s from rfl, execLinkStallExpiry, h]
  exact if_pos hdue

end

/-- Settles O53: the tick as the FRAME tick count and the stall watch one after the other, each by its cases. -/
theorem linkTicksReportAndWatch : Obligations.LinkTicksReportAndWatch := by
  unfold Obligations.LinkTicksReportAndWatch
  intro n ticks s hticks l taken body report
  have htick : exec .controlLinkTick s = .next taken.countFrameTick.watchFrame.ended := exec_controlLinkTick_of_tick hticks
  have hreport (h0 : l.period ≠ 0) (hdue : l.period ≤ l.tickCount + 1) :
      exec .frameReportDue s = .next taken.countFrameTick.watchFrame.ended := exec_frameReportDue_of_due hticks h0 hdue
  have hstall {bytes : List Byte} {t : Nat} (hrec : l.receiver = .receiving bytes t) (ht : 1 ≤ t) :
      exec .linkStallExpiry s = .next taken.watchFrame.countFrameTick.ended := exec_linkStallExpiry_of_due hticks hrec ht
  refine ⟨?hunting, ?first, ?second, ?general⟩
  case hunting =>
    intro hrec
    have both (h0 : l.period ≠ 0) (hdue : l.period ≤ l.tickCount + 1) {t : State} (ht : taken.countFrameTick = t)
        (hunting : t.link.receiver = .hunting) :
        exec .controlLinkTick s = .next t.ended ∧ exec .frameReportDue s = .next t.ended := by
      have hwatch : taken.countFrameTick.watchFrame = t := by rw [ht, State.watchFrame_of_hunting hunting]
      exact ⟨htick.trans (ended_congr hwatch), (hreport h0 hdue).trans (ended_congr hwatch)⟩
    refine ⟨fun h0 => ?_, fun hin => ?_, fun h0 hdue => ⟨fun hm hlen => ?_, fun hm hlen => ?_, fun hm => ?_⟩⟩
    · rw [htick, State.countFrameTick_of_zero (t := taken) h0, State.watchFrame_of_hunting (t := taken) hrec]
    · rw [htick, State.countFrameTick_of_within (t := taken) hin]
      exact ended_congr (State.watchFrame_of_hunting hrec)
    · exact both h0 hdue ((State.countFrameTick_of_due (t := taken) h0 hdue).trans (State.frameReport_of_room hm hlen)) hrec
    · exact both h0 hdue ((State.countFrameTick_of_due (t := taken) h0 hdue).trans (State.frameReport_of_full hm hlen)) hrec
    · exact both h0 hdue ((State.countFrameTick_of_due (t := taken) h0 hdue).trans (State.frameReport_of_masked hm)) hrec
  case first =>
    intro bytes hrec h0
    rw [htick, State.countFrameTick_of_zero (t := taken) h0, State.watchFrame_of_first (t := taken) hrec]
    rfl
  case second =>
    intro bytes t hrec ht h0 stalled
    have hwatch : taken.watchFrame = stalled := State.watchFrame_of_second (t := taken) hrec ht
    refine ⟨?_, ?_⟩
    · rw [htick, State.countFrameTick_of_zero (t := taken) h0, hwatch]
    · rw [hstall hrec ht, hwatch]
      exact ended_congr (State.countFrameTick_of_zero ((taken.discardFrame_period .stall).trans h0))
  case general =>
    intro framed watched
    have hframed (t : State) : framed t = t.countFrameTick := by
      simp only [framed]
      by_cases h0 : t.link.period = 0
      · exact (if_pos h0).trans (State.countFrameTick_of_zero h0).symm
      · refine (if_neg h0).trans ?_
        by_cases hin : t.link.tickCount + 1 < t.link.period
        · exact (if_pos hin).trans (State.countFrameTick_of_within hin).symm
        · refine (if_neg hin).trans ?_
          rw [State.countFrameTick_of_due h0 (Nat.not_lt.1 hin)]
          cases hm : t.link.mask.getLsbD 0 with
          | false =>
              exact (if_pos rfl).trans (State.frameReport_of_masked (t := t.setLink { t.link with tickCount := 0 }) hm).symm
          | true =>
              refine (if_neg (Ne.symm Bool.false_ne_true)).trans ?_
              by_cases hlen : t.link.reports.length < 32
              · exact (if_pos hlen).trans
                  (State.frameReport_of_room (t := t.setLink { t.link with tickCount := 0 }) hm hlen).symm
              · exact (if_neg hlen).trans
                  (State.frameReport_of_full (t := t.setLink { t.link with tickCount := 0 }) hm (Nat.not_lt.1 hlen)).symm
    have hwatched (t : State) : watched t = t.watchFrame := by
      simp only [watched]
      cases hrec : t.link.receiver with
      | hunting => exact (State.watchFrame_of_hunting hrec).symm
      | receiving bytes k =>
          by_cases hk : k = 0
          · subst hk
            exact (if_pos rfl).trans (State.watchFrame_of_first hrec).symm
          · exact (if_neg hk).trans (State.watchFrame_of_second hrec (Nat.pos_of_ne_zero hk)).symm
    rw [hwatched, hframed, hwatched, hframed]
    exact ⟨htick, hreport, fun bytes t hrec ht => hstall hrec ht⟩

end Sys2Proof.Machine
end

section
/-! Requests answered and frames sent: unknown requests, bodies of a wrong length, and the transmitter (R177, R179, R182,
R190). O51. -/

namespace Sys2Proof.Machine

/-! ### Bodies whose length is not that of their fields (R179) -/

/-- A request whose body gives no operands is refused BAD_ARG. -/
theorem exec_refused {α : Type} {row : ReqRow} {parse : List Byte → Option α} {take : Request → α → State → State} {i : Instr}
    {q : Request} {rest : List Request} {s : State} (hq : Waits row q rest s) (hp : parse q.body = none)
    (hi : exec i s = s.takeWith row parse take) : exec i s = .next ((s.taken rest).replied q .badArg .empty) :=
  hi.trans (takeWith_none hq hp take)

/-- The operands are read from bodies of one length only. -/
def ReadsLength {α : Type} (n : Nat) (parse : List Byte → Option α) : Prop := ∀ body, body.length ≠ n → parse body = none

theorem statusSection?_length (k : Nat) : ReadsLength 1 (statusSection? k) := fun body h => by
  unfold statusSection?
  split
  · exact absurd rfl h
  · rfl

theorem chainSection?_length : ReadsLength 2 chainSection? := fun body h => by
  unfold chainSection?
  split
  · exact absurd rfl h
  · rfl

theorem refSet?_length : ReadsLength 2 refSet? := fun body h => by
  unfold refSet?
  split
  · exact absurd rfl h
  · rfl

theorem frameSet?_length : ReadsLength 2 frameSet? := fun body h => by
  unfold frameSet?
  split
  · exact absurd rfl h
  · rfl

theorem chainSet?_length (action : Byte) : ReadsLength 4 (chainSet? action) := fun body h => by
  unfold chainSet?
  split
  · exact absurd rfl h
  · rfl

theorem chain?_length : ReadsLength 1 chain? := fun body h => by
  unfold chain?
  split
  · exact absurd rfl h
  · rfl

theorem nodeRef?_length : ReadsLength 2 nodeRef? := fun body h => by
  unfold nodeRef?
  split
  · exact absurd rfl h
  · rfl

theorem configure?_length : ReadsLength 9 configure? := fun body h => by
  unfold configure?
  split
  · exact absurd rfl h
  · rfl

theorem enable?_length : ReadsLength 3 enable? := fun body h => by
  unfold enable?
  split
  · exact absurd rfl h
  · rfl

theorem segSet?_length : ReadsLength 3 segSet? := fun body h => by
  unfold segSet?
  split
  · exact absurd rfl h
  · rfl

theorem noFields?_length : ReadsLength 0 noFields? := fun body h => by
  unfold noFields?
  split
  · exact absurd rfl h
  · rfl

theorem tallyMask?_length : ReadsLength 1 tallyMask? := fun body h => by
  unfold tallyMask?
  split
  · exact absurd rfl h
  · rfl

theorem cueSlot?_length : ReadsLength 1 cueSlot? := fun body h => by
  unfold cueSlot?
  split
  · exact absurd rfl h
  · rfl

theorem runnerArm?_length : ReadsLength 2 runnerArm? := fun body h => by
  unfold runnerArm?
  split
  · exact absurd rfl h
  · rfl

theorem runner?_length : ReadsLength 1 runner? := fun body h => by
  unfold runner?
  split
  · exact absurd rfl h
  · rfl

theorem reportSet?_length : ReadsLength 2 reportSet? := fun body h => by
  unfold reportSet?
  split
  · exact absurd rfl h
  · rfl

theorem exec_refused_of_length {α : Type} {n : Nat} {row : ReqRow} {parse : List Byte → Option α}
    {take : Request → α → State → State} {i : Instr} {q : Request} {rest : List Request} {s : State}
    (hparse : ReadsLength n parse) (hi : exec i s = s.takeWith row parse take) (hq : Waits row q rest s)
    (hlen : q.body.length ≠ n) : exec i s = .next ((s.taken rest).replied q .badArg .empty) :=
  exec_refused hq (hparse q.body hlen) hi

/-! ### Unknown requests -/

theorem Request.row_of_unknown {q : Request} (h : q.kind.toNat = 0 ∨ 0x1E < q.kind.toNat) : q.row = .unknown := by
  rcases h with h | h
  · rw [Request.row, h]
    rfl
  · obtain ⟨n, hn⟩ : ∃ n, q.kind.toNat = n + 31 := ⟨q.kind.toNat - 31, by omega⟩
    rw [Request.row, hn]
    rfl

theorem exec_unknownRequest_of_waits {q : Request} {rest : List Request} {s : State} (hq : Waits .unknown q rest s) :
    exec .unknownRequest s = .next ((s.taken rest).replied q .unknown .empty) := takeRequest_of hq _

/-! ### The transmitter (R177, R182, R190) -/

section
variable {m : Nat} {s : State}

theorem exec_transmitDone_of_none (h : s.link.tx = none) : exec (.transmitDone m) s = .next s := by
  rw [show exec (.transmitDone m) s = execTransmitDone m s from rfl, execTransmitDone, h]
  rfl

theorem exec_transmitDone_of_report {r : Report} (h : s.link.tx = some (.report r)) :
    exec (.transmitDone m) s = .next (s.setLink { s.link with tx := none }).ended := by
  rw [show exec (.transmitDone m) s = execTransmitDone m s from rfl, execTransmitDone, h]
  rfl

theorem Reply.startsReset_iff {r : Reply} :
    r.startsReset = true ↔ r.kind = 0x1E ∧ r.code = .ok ∧ r.refusal = false := by
  simp [Reply.startsReset, and_assoc]

theorem exec_transmitDone_of_reply {r : Reply} (h : s.link.tx = some (.reply r))
    (hr : ¬ (r.kind = 0x1E ∧ r.code = .ok ∧ r.refusal = false)) :
    exec (.transmitDone m) s = .next (s.setLink { s.link with tx := none }).ended := by
  rw [show exec (.transmitDone m) s = execTransmitDone m s from rfl, execTransmitDone, h]
  exact if_neg fun hs => hr (Reply.startsReset_iff.1 hs)

end

theorem State.ended_of_pump {s : State} (h : s.link.pump = s.link) : s.ended = s := by
  rw [State.ended, h]

theorem Link.pump_of_nothing {l : Link} (hready : l.ready = []) (hreports : l.reports = []) : l.pump = l := by
  rcases l.pump_cases with h | ⟨-, r, rest, h, -⟩ | ⟨-, -, r, rest, h, -⟩
  · exact h
  · exact nomatch hready.symm.trans h
  · exact nomatch hreports.symm.trans h

/-- Once RESET has been taken, the reports are held back. -/
theorem Link.pump_reports_of_resetting {l : Link} (h : l.resetting = true) : l.pump.reports = l.reports := by
  rcases l.pump_cases with he | ⟨-, r, rest, -, he⟩ | ⟨-, hready, -⟩
  · rw [he]
  · rw [he]
  · rw [Link.pump_of_resetting h hready]

/-- Settles O51: each request by the one length its operands are read from; the transmitter by what it can send. -/
theorem requestsAreAnsweredAndSent : Obligations.RequestsAreAnsweredAndSent := by
  unfold Obligations.RequestsAreAnsweredAndSent
  refine ⟨?unknown, ?lengths, ?transmit, ?pump, ?resetting⟩
  case unknown =>
    intro q rest s hw hr hk
    exact exec_unknownRequest_of_waits ⟨hw, hr, Request.row_of_unknown hk⟩
  case lengths =>
    intro q rest s refused
    exact ⟨exec_refused_of_length (statusSection?_length 0) (show execStatusReference s = _ from rfl),
      exec_refused_of_length chainSection?_length (show execStatusChain s = _ from rfl),
      exec_refused_of_length (statusSection?_length 2) (show execStatusIntake s = _ from rfl),
      exec_refused_of_length (statusSection?_length 3) (show execStatusPool s = _ from rfl),
      exec_refused_of_length (statusSection?_length 4) (show execStatusStills s = _ from rfl),
      exec_refused_of_length (statusSection?_length 5) (show execStatusScene s = _ from rfl),
      exec_refused_of_length (statusSection?_length 6) (show execStatusGroups s = _ from rfl),
      exec_refused_of_length (statusSection?_length 7) (show execStatusTally s = _ from rfl),
      exec_refused_of_length (statusSection?_length 8) (show execStatusRunners s = _ from rfl),
      exec_refused_of_length (statusSection?_length 9) (show execStatusLink s = _ from rfl),
      fun hq hlen m => exec_refused_of_length refSet?_length (show execRefSet m s = _ from rfl) hq hlen,
      exec_refused_of_length frameSet?_length (show execFrameSet s = _ from rfl),
      exec_refused_of_length (chainSet?_length 0) (show execChainSetEnable s = _ from rfl),
      exec_refused_of_length (chainSet?_length 1) (show execChainSetDisable s = _ from rfl),
      exec_refused_of_length chain?_length (show execChainRewalk s = _ from rfl),
      exec_refused_of_length nodeRef?_length (show execNodeGet s = _ from rfl),
      exec_refused_of_length configure?_length (show execNodeCommandConfigure s = _ from rfl),
      exec_refused_of_length enable?_length (show execNodeCommandEnable s = _ from rfl),
      exec_refused_of_length nodeRef?_length (show execNodeReinstate s = _ from rfl),
      exec_refused_of_length segSet?_length (show execSegSet s = _ from rfl),
      exec_refused_of_length noFields?_length (show execFlowClear s = _ from rfl),
      exec_refused_of_length noFields?_length (show execPoolScrub s = _ from rfl),
      exec_refused_of_length tallyMask?_length (show execTallyMask s = _ from rfl),
      exec_refused_of_length cueSlot?_length (show execCueRead s = _ from rfl),
      exec_refused_of_length runnerArm?_length (show execRunnerArm s = _ from rfl),
      exec_refused_of_length runner?_length (show execRunnerGo s = _ from rfl),
      exec_refused_of_length runner?_length (show execRunnerHalt s = _ from rfl),
      exec_refused_of_length runner?_length (show execRunnerConfirm s = _ from rfl),
      exec_refused_of_length runner?_length (show execRunnerResume s = _ from rfl),
      exec_refused_of_length runner?_length (show execRunnerClear s = _ from rfl),
      exec_refused_of_length reportSet?_length (show execReportSet s = _ from rfl),
      exec_refused_of_length noFields?_length (show execFaultGet s = _ from rfl),
      exec_refused_of_length noFields?_length (show execReset s = _ from rfl)⟩
  case transmit =>
    intro m s
    exact ⟨exec_transmitDone_of_none, fun r h => exec_transmitDone_of_report h, fun r h hr => exec_transmitDone_of_reply h hr⟩
  case pump =>
    intro l
    refine ⟨fun h => ?_, Link.pump_norate, fun r rest ht hrate hready => ?_, fun r rest ht hrate hready hreset hreports => ?_,
      Link.pump_of_nothing, fun h => ⟨Link.pump_reports_of_resetting h, Link.pump_of_resetting h⟩⟩
    · obtain ⟨x, hx⟩ := Option.ne_none_iff_exists'.1 h
      exact Link.pump_busy hx
    · obtain ⟨n, hn⟩ := Option.ne_none_iff_exists'.1 hrate
      exact Link.pump_reply ht hn hready
    · obtain ⟨n, hn⟩ := Option.ne_none_iff_exists'.1 hrate
      exact Link.pump_report ht hn hready hreset hreports
  case resetting =>
    intro m s hreset hready
    have hended : (s.setLink { s.link with tx := none }).ended = s.setLink { s.link with tx := none } :=
      State.ended_of_pump (Link.pump_of_resetting hreset hready)
    refine ⟨fun r h => ?_, fun r h hr => ?_⟩
    · rw [exec_transmitDone_of_report h, hended]
    · rw [exec_transmitDone_of_reply h hr, hended]

end Sys2Proof.Machine
end

section
/-! Bodies that give no operands: fields out of range and optional fields of a wrong length (R179). -/

namespace Sys2Proof.Machine

/-! ### Single fields -/

theorem refMode?_eq_none {b : Byte} (h : 4 < b.toNat) : refMode? b = none := by
  obtain ⟨n, hn⟩ : ∃ n, b.toNat = n + 5 := ⟨b.toNat - 5, by omega⟩
  rw [refMode?, hn]
  rfl

theorem frameRate?_eq_none {b : Byte} (h : 3 < b.toNat) : frameRate? b = none := by
  obtain ⟨n, hn⟩ : ∃ n, b.toNat = n + 4 := ⟨b.toNat - 4, by omega⟩
  rw [frameRate?, hn]
  rfl

theorem gapPolicy?_eq_none {b : Byte} (h : 2 < b.toNat) : gapPolicy? b = none := by
  obtain ⟨n, hn⟩ : ∃ n, b.toNat = n + 3 := ⟨b.toNat - 3, by omega⟩
  rw [gapPolicy?, hn]
  rfl

theorem check_eq_none {b : Bool} (h : b = false) : check b = none := if_neg (ne_true_of_eq_false h)

theorem check_ne {a b : Byte} (h : a ≠ b) : check (decide (a = b)) = none := check_eq_none (decide_eq_false h)

theorem settings?_eq_none {colour gamma rotation dimming fan : Byte}
    (h : 15 < colour.toNat ∨ 3 < gamma.toNat ∨ 3 < rotation.toNat ∨ 3 < dimming.toNat ∨ 2 < fan.toNat) :
    settings? colour gamma rotation dimming fan = none := by
  rw [settings?_eq, if_neg]
  omega

theorem inRange_none {lo hi n : Nat} (h : n < lo ∨ hi < n) : inRange lo hi n = none := inRange_eq_none.2 h

theorem runnerOf?_eq_none {n : Nat} (h : 2 < n) : runnerOf? n = none := dif_neg (by omega)

/-! ### Bodies of a fixed length -/

theorem refSet?_eq_none {m r : Byte} (h : 4 < m.toNat ∨ 3 < r.toNat) : refSet? [m, r] = none := by
  rcases h with h | h
  · simp [refSet?, refMode?_eq_none h]
  · simp [refSet?, frameRate?_eq_none h]

theorem chainSet?_eq_none {action c a sl bl : Byte} (h : 3 < c.toNat ∨ a ≠ action ∨ 15 < sl.toNat ∨ 15 < bl.toNat) :
    chainSet? action [c, a, sl, bl] = none := by
  rcases h with h | h | h | h
  · simp [chainSet?, chainByte?_eq_none h]
  · simp [chainSet?, check_ne h]
  · simp [chainSet?, inRange_none (.inr h)]
  · simp [chainSet?, inRange_none (.inr h)]

theorem configure?_eq_none {c a k t colour gamma rotation dimming fan : Byte}
    (h : 3 < c.toNat ∨ a.toNat < 1 ∨ 31 < a.toNat ∨ k ≠ 0 ∨ t = 0 ∨ 15 < colour.toNat ∨ 3 < gamma.toNat ∨
      3 < rotation.toNat ∨ 3 < dimming.toNat ∨ 2 < fan.toNat) :
    configure? [c, a, k, t, colour, gamma, rotation, dimming, fan] = none := by
  rcases h with h | h | h | h | h | h
  · simp [configure?, chainByte?_eq_none h]
  · simp [configure?, inRange_none (.inl h)]
  · simp [configure?, inRange_none (.inr h)]
  · simp [configure?, check, show k ≠ 0#8 from h]
  · simp [configure?, h, check]
  · simp [configure?, settings?_eq_none h]

theorem enable?_eq_none {c a k : Byte} (h : 3 < c.toNat ∨ a.toNat < 1 ∨ 31 < a.toNat) : enable? [c, a, k] = none := by
  rcases h with h | h | h
  · simp [enable?, chainByte?_eq_none h]
  · simp [enable?, inRange_none (.inl h)]
  · simp [enable?, inRange_none (.inr h)]

theorem segSet?_eq_none {h l p : Byte}
    (hbad : ((h ++ l : Word16).toNat ≠ 0 ∧ ((h ++ l : Word16).toNat < 8 ∨ 256 < (h ++ l : Word16).toNat)) ∨ 15 < p.toNat) :
    segSet? [h, l, p] = none := by
  rcases hbad with ⟨h0, hrange⟩ | hp
  · have hcheck : check (decide ((get16 h l).toNat = 0) || decide (8 ≤ (get16 h l).toNat) && decide ((get16 h l).toNat ≤ 256)) =
        none := by
      refine check_eq_none (Bool.eq_false_iff.2 fun hc => ?_)
      rw [Bool.or_eq_true, Bool.and_eq_true] at hc
      rcases hc with hc | ⟨h8, h256⟩
      · exact h0 (of_decide_eq_true hc)
      · have hlo : 8 ≤ (h ++ l : Word16).toNat := of_decide_eq_true h8
        have hhi : (h ++ l : Word16).toNat ≤ 256 := of_decide_eq_true h256
        omega
    simp only [segSet?, hcheck]
    rfl
  · simp [segSet?, inRange_none (.inr hp)]

theorem stillClearSlot?_eq_none {p k c a : Byte}
    (h : 3 < p.toNat ∨ k ≠ 0 ∨ 3 < c.toNat ∨ a.toNat < 1 ∨ 30 < a.toNat) : stillClearSlot? [p, k, c, a] = none := by
  rcases h with h | h | h | h
  · simp [stillClearSlot?, inRange_none (.inr h)]
  · simp [stillClearSlot?, check, show k ≠ 0#8 from h]
  · simp [stillClearSlot?, chainByte?_eq_none h]
  · simp [stillClearSlot?, address?_eq_none h]

theorem stillClearPage?_eq_none {p k : Byte} (h : 3 < p.toNat) : stillClearPage? [p, k] = none := by
  simp [stillClearPage?, inRange_none (.inr h)]

theorem runnerArm?_eq_none {r k : Byte} (h : 2 < r.toNat ∨ 7 < k.toNat) : runnerArm? [r, k] = none := by
  rcases h with h | h
  · simp [runnerArm?, runnerOf?_eq_none h]
  · simp [runnerArm?, inRange_none (.inr h)]

/-! ### Optional fields (R194) -/

theorem opt8_of_presence {p : Byte} (h : 1 < p.toNat) (more : List Byte) : opt8 (p :: more) = none :=
  (if_neg (ne_of_toNat_gt h (by decide))).trans (if_neg (ne_of_toNat_gt h (by decide)))

theorem opt16_of_presence {p : Byte} (h : 1 < p.toNat) (more : List Byte) : opt16 (p :: more) = none :=
  (if_neg (ne_of_toNat_gt h (by decide))).trans (if_neg (ne_of_toNat_gt h (by decide)))

theorem opt32_of_presence {p : Byte} (h : 1 < p.toNat) (more : List Byte) : opt32 (p :: more) = none :=
  (if_neg (ne_of_toNat_gt h (by decide))).trans (if_neg (ne_of_toNat_gt h (by decide)))

theorem opt8_field {field : List Byte} (h : field = [0] ∨ ∃ v, field = [1, v]) (more : List Byte) :
    ∃ x, opt8 (field ++ more) = some (x, more) := by
  rcases h with rfl | ⟨v, rfl⟩
  · exact ⟨none, rfl⟩
  · exact ⟨some v, rfl⟩

theorem opt16_field {field : List Byte} (h : field = [0] ∨ ∃ u v, field = [1, u, v]) (more : List Byte) :
    ∃ x, opt16 (field ++ more) = some (x, more) := by
  rcases h with rfl | ⟨u, v, rfl⟩
  · exact ⟨none, rfl⟩
  · exact ⟨some (get16 u v), rfl⟩

theorem opt8_length {bytes more : List Byte} {x : Option Byte} (h : opt8 bytes = some (x, more)) :
    more.length + 1 ≤ bytes.length := by
  unfold opt8 at h
  grind

theorem opt16_length {bytes more : List Byte} {x : Option Word16} (h : opt16 bytes = some (x, more)) :
    more.length + 1 ≤ bytes.length := by
  unfold opt16 at h
  grind

end Sys2Proof.Machine
end

section
/-! Bodies of variable length that give no operands (R179). -/

namespace Sys2Proof.Machine

/-! ### NODE_SET (R38) -/

section
variable {c a : Byte} {bytes : List Byte}

theorem nodeSet?_of_bad_node (h : 3 < c.toNat ∨ a.toNat < 1 ∨ 30 < a.toNat) : nodeSet? (c :: a :: bytes) = none := by
  rcases h with h | h
  · simp [nodeSet?, chainByte?_eq_none h]
  · simp [nodeSet?, address?_eq_none h]

theorem nodeSet?_of_gap_unread (h : opt8 bytes = none) : nodeSet? (c :: a :: bytes) = none := by
  simp [nodeSet?, h]

variable {gap : Option Byte} {more : List Byte}

theorem nodeSet?_of_gap_range {g : Byte} (h : opt8 bytes = some (some g, more)) (hg : 2 < g.toNat) :
    nodeSet? (c :: a :: bytes) = none := by
  simp [nodeSet?, h, optCheck, gapPolicy?_eq_none hg]

theorem nodeSet?_of_page_unread (hgap : opt8 bytes = some (gap, more)) (h : opt8 more = none) :
    nodeSet? (c :: a :: bytes) = none := by
  simp [nodeSet?, hgap, h]

variable {page : Option Byte} {later : List Byte}

theorem nodeSet?_of_page_range (hgap : opt8 bytes = some (gap, more)) {p : Byte} (h : opt8 more = some (some p, later))
    (hp : 4 < p.toNat) : nodeSet? (c :: a :: bytes) = none := by
  have hpage : (if p.toNat ≤ 3 then some (some p.toNat) else if p = 4 then some none else none : Option (Option Nat)) = none :=
    (if_neg (by omega)).trans (if_neg (ne_of_toNat_gt hp (by decide)))
  simp only [nodeSet?, Option.bind_eq_bind, hgap, h, Option.bind_some, optCheck, hpage, Option.map_none]
  simp

theorem nodeSet?_of_clamp_unread (hgap : opt8 bytes = some (gap, more)) (hpage : opt8 more = some (page, later))
    (h : opt16 later = none) : nodeSet? (c :: a :: bytes) = none := by
  simp [nodeSet?, hgap, hpage, h]

variable {clamp : Option Word16} {last : List Byte}

theorem nodeSet?_of_clamp_range (hgap : opt8 bytes = some (gap, more)) (hpage : opt8 more = some (page, later)) {w : Word16}
    (h : opt16 later = some (some w, last)) (hw : 1000 < w.toNat) : nodeSet? (c :: a :: bytes) = none := by
  simp [nodeSet?, hgap, hpage, h, optCheck, inRange_none (.inr hw)]

theorem nodeSet?_of_end_length (hgap : opt8 bytes = some (gap, more)) (hpage : opt8 more = some (page, later))
    (hclamp : opt16 later = some (clamp, last)) (h : last.length ≠ 1) : nodeSet? (c :: a :: bytes) = none := by
  match last, h with
  | [], _ => simp [nodeSet?, hgap, hpage, hclamp]
  | _ :: _ :: _, _ => simp [nodeSet?, hgap, hpage, hclamp]

theorem nodeSet?_of_clear_presence (hgap : opt8 bytes = some (gap, more)) (hpage : opt8 more = some (page, later)) {p : Byte}
    (hclamp : opt16 later = some (clamp, [p])) (h : 1 < p.toNat) : nodeSet? (c :: a :: bytes) = none := by
  have hclear : (if p = 0 then some false else if p = 1 then some true else none : Option Bool) = none :=
    (if_neg (ne_of_toNat_gt h (by decide))).trans (if_neg (ne_of_toNat_gt h (by decide)))
  simp only [nodeSet?, hgap, hpage, hclamp, Option.bind_eq_bind, Option.bind_some, hclear]
  simp

end

theorem nodeSet?_length {body : List Byte} (h : body.length < 6) : nodeSet? body = none := by
  match body, h with
  | [], _ => rfl
  | [_], _ => rfl
  | c :: a :: bytes, h =>
      cases hgap : opt8 bytes with
      | none => exact nodeSet?_of_gap_unread hgap
      | some x =>
          obtain ⟨gap, more⟩ := x
          cases hpage : opt8 more with
          | none => exact nodeSet?_of_page_unread hgap hpage
          | some x =>
              obtain ⟨page, later⟩ := x
              cases hclamp : opt16 later with
              | none => exact nodeSet?_of_clamp_unread hgap hpage hclamp
              | some x =>
                  obtain ⟨clamp, last⟩ := x
                  refine nodeSet?_of_end_length hgap hpage hclamp ?_
                  have h1 := opt8_length hgap
                  have h2 := opt8_length hpage
                  have h3 := opt16_length hclamp
                  simp only [List.length_cons] at h
                  omega

/-- A NODE_SET that sets nothing. -/
theorem nodeSet?_of_nothing (c a : Byte) : nodeSet? [c, a, 0, 0, 0, 0] = none := by
  simp [nodeSet?, opt8, opt16, optCheck, check]

/-! ### STILL_WRITE (R109) -/

section
variable {p c a oh ol th tl nh nl : Byte} {more : List Byte}

theorem stillWrite?_of_short (h : more.length ≤ (nh ++ nl : Word16).toNat) :
    stillWrite? (p :: c :: a :: oh :: ol :: th :: tl :: nh :: nl :: more) = none := by
  by_cases hlt : (get16 nh nl).toNat ≤ more.length
  · have hdrop : more.drop (get16 nh nl).toNat = [] := List.drop_eq_nil_of_le h
    simp [stillWrite?, hdrop, opt32]
  · simp [stillWrite?, check, hlt]

theorem stillWrite?_of_tail {b : Byte} {tail : List Byte} (hdrop : more.drop (nh ++ nl : Word16).toNat = b :: tail)
    (h : 1 < b.toNat ∨ (b = 0 ∧ tail ≠ []) ∨ (b = 1 ∧ tail.length ≠ 4)) :
    stillWrite? (p :: c :: a :: oh :: ol :: th :: tl :: nh :: nl :: more) = none := by
  have hdrop' : more.drop (get16 nh nl).toNat = b :: tail := hdrop
  rcases h with h | ⟨rfl, h⟩ | ⟨rfl, h⟩
  · simp [stillWrite?, hdrop', opt32_of_presence h]
  · simp [stillWrite?, hdrop', opt32, check, h]
  · match tail, h with
    | [], _ => simp [stillWrite?, hdrop', opt32]
    | [_], _ => simp [stillWrite?, hdrop', opt32]
    | [_, _], _ => simp [stillWrite?, hdrop', opt32]
    | [_, _, _], _ => simp [stillWrite?, hdrop', opt32]
    | _ :: _ :: _ :: _ :: _ :: _, _ => simp [stillWrite?, hdrop', opt32, check]

end

theorem stillWrite?_length {body : List Byte} (h : body.length < 10) : stillWrite? body = none := by
  match body with
  | p :: c :: a :: oh :: ol :: th :: tl :: nh :: nl :: more =>
      refine stillWrite?_of_short ?_
      simp only [List.length_cons] at h
      omega
  | [] | [_] | [_, _] | [_, _, _] | [_, _, _, _] | [_, _, _, _, _] | [_, _, _, _, _, _] | [_, _, _, _, _, _, _]
  | [_, _, _, _, _, _, _, _] => rfl

theorem inRange_eq_some {lo hi n m : Nat} : inRange lo hi n = some m ↔ (lo ≤ n ∧ n ≤ hi) ∧ n = m := by
  rw [inRange]
  split_ifs with h <;> simp [h]

theorem check_eq_some {b : Bool} {u : Unit} : check b = some u ↔ b = true := by
  cases b <;> simp [check]

/-! ### LOOK_SET (R121) -/

theorem levelValue?_eq_some {α : Type} {value : Nat → α} {bytes more : List Byte} {v : Option α}
    (h : levelValue? value bytes = some (v, more)) :
    ∃ vh vl, bytes = vh :: vl :: more ∧ v = (inRange 0 1000 (vh ++ vl : Word16).toNat).map value := by
  match bytes, h with
  | vh :: vl :: _, h =>
      obtain ⟨rfl, rfl⟩ := Prod.mk.inj (Option.some.inj h)
      exact ⟨vh, vl, rfl, rfl⟩

theorem byteValue?_eq_some {α : Type} {value? : Nat → Option α} {bytes more : List Byte} {v : Option α}
    (h : byteValue? value? bytes = some (v, more)) : ∃ b, bytes = b :: more ∧ v = value? b.toNat := by
  match bytes, h with
  | b :: _, h =>
      obtain ⟨rfl, rfl⟩ := Prod.mk.inj (Option.some.inj h)
      exact ⟨b, rfl, rfl⟩

/-- A parameter's value read in range: a byte of a SOURCE or a PRESET, or the two bytes of a level. -/
theorem lookValue?_eq_some {p : Byte} {bytes more : List Byte} {v : LookValue} (h : lookValue? (p :: bytes) = some (some v, more)) :
    (p = 0 ∧ ∃ b s, bytes = b :: more ∧ b.toNat ≤ 6 ∧ v = .source s) ∨
      (p = 3 ∧ ∃ b n, bytes = b :: more ∧ b.toNat ≤ 15 ∧ v = .preset n) ∨
      ((p = 1 ∨ p = 2) ∧ ∃ vh vl, bytes = vh :: vl :: more ∧ (vh ++ vl : Word16).toNat ≤ 1000) := by
  rw [lookValue?] at h
  split_ifs at h with h0 h1 h2 h3
  · obtain ⟨b, hb, hv⟩ := byteValue?_eq_some h
    obtain ⟨s, hs, rfl⟩ := Option.map_eq_some_iff.1 hv.symm
    refine .inl ⟨h0, b, s, hb, Nat.le_of_not_lt fun hlt => ?_, rfl⟩
    exact nomatch (tileSource?_of_none hlt).symm.trans hs
  · obtain ⟨vh, vl, hb, hv⟩ := levelValue?_eq_some h
    obtain ⟨n, hn, -⟩ := Option.map_eq_some_iff.1 hv.symm
    exact .inr (.inr ⟨.inl h1, vh, vl, hb, (inRange_eq_some.1 hn).1.2⟩)
  · obtain ⟨vh, vl, hb, hv⟩ := levelValue?_eq_some h
    obtain ⟨n, hn, -⟩ := Option.map_eq_some_iff.1 hv.symm
    exact .inr (.inr ⟨.inr h2, vh, vl, hb, (inRange_eq_some.1 hn).1.2⟩)
  · obtain ⟨b, hb, hv⟩ := byteValue?_eq_some h
    obtain ⟨n, hn, rfl⟩ := Option.map_eq_some_iff.1 hv.symm
    exact .inr (.inl ⟨h3, b, n, hb, (inRange_eq_some.1 hn).1.2, rfl⟩)

/-- The fade of a LOOK_SET whose operands can be read: at most 1000 frames, and none for a SOURCE or a PRESET. -/
def FadeFits (v : LookValue) (n : Nat) : Prop :=
  n ≤ 1000 ∧ ((∃ s, v = .source s) ∨ (∃ x, v = .preset x) → n = 0)

/-- The bytes of a LOOK_SET whose operands can be read: a selector, a value in range, and the fade's two bytes. -/
theorem lookSet?_reads {f x a k : Byte} {more : List Byte} (h : lookSet? (f :: x :: a :: k :: more) ≠ none) :
    selector? f x a k ≠ none ∧ ∃ v h l, lookValue? more = some (some v, [h, l]) ∧ FadeFits v (h ++ l : Word16).toNat := by
  obtain ⟨r, hr⟩ := Option.ne_none_iff_exists'.1 h
  simp only [lookSet?, Option.bind_eq_bind, Option.bind_eq_some_iff] at hr
  obtain ⟨sel, hsel, ⟨v?, rest⟩, hv, v, rfl, hfade⟩ := hr
  refine ⟨Option.ne_none_iff_exists'.2 ⟨sel, hsel⟩, ?_⟩
  match rest, hv, hfade with
  | [h, l], hv, hfade =>
      obtain ⟨n, hn, hfade⟩ := Option.bind_eq_some_iff.1 hfade
      obtain ⟨u, hcheck, -⟩ := Option.bind_eq_some_iff.1 hfade
      obtain ⟨⟨-, hle⟩, rfl⟩ := inRange_eq_some.1 hn
      refine ⟨v, h, l, hv, hle, fun hstep => ?_⟩
      rcases hstep with ⟨_, rfl⟩ | ⟨_, rfl⟩
      all_goals
        have hzero : (get16 h l).toNat = 0 := by simpa using check_eq_some.1 hcheck
        exact hzero
  | [], _, hfade => exact nomatch hfade
  | [_], _, hfade => exact nomatch hfade
  | _ :: _ :: _ :: _, _, hfade => exact nomatch hfade

/-- No operands: a selector out of range, or no value in range followed by a fade that fits it. -/
theorem lookSet?_eq_none {f x a k : Byte} {more : List Byte}
    (h : selector? f x a k = none ∨
      ∀ v h l, lookValue? more = some (some v, [h, l]) → ¬ FadeFits v (h ++ l : Word16).toNat) :
    lookSet? (f :: x :: a :: k :: more) = none := by
  by_contra hsome
  obtain ⟨hsel, v, u, w, hv, hfade⟩ := lookSet?_reads hsome
  exact h.elim hsel fun hnot => hnot v u w hv hfade

theorem lookSet?_length {body : List Byte} (h : body.length < 8) : lookSet? body = none := by
  match body with
  | [] | [_] | [_, _] | [_, _, _] => rfl
  | f :: x :: a :: k :: more =>
      refine lookSet?_eq_none (.inr fun v u w hv => ?_)
      match more with
      | [] => exact nomatch hv
      | p :: bytes =>
          simp only [List.length_cons] at h
          rcases lookValue?_eq_some hv with ⟨-, b, s, rfl, -⟩ | ⟨-, b, n, rfl, -⟩ | ⟨-, vh, vl, rfl, -⟩
          all_goals simp at h

theorem lookSet?_of_field {f x a k p : Byte} {more : List Byte}
    (h : ((f = 0 ∧ ((3 < x.toNat ∧ x ≠ 0xFF) ∨ ((a.toNat < 1 ∨ 30 < a.toNat) ∧ a ≠ 0xFF) ∨ 2 < k.toNat)) ∨
        (f = 1 ∧ (15 < x.toNat ∨ a ≠ 0 ∨ k ≠ 0)) ∨ 1 < f.toNat) ∨
      3 < p.toNat ∨ ((p = 0 ∨ p = 3) ∧ more.length ≠ 3) ∨ ((p = 1 ∨ p = 2) ∧ more.length ≠ 4)) :
    lookSet? (f :: x :: a :: k :: p :: more) = none := by
  refine lookSet?_eq_none (h.imp (selector?_eq_none f x a k).2 fun h v u w hv => ?_)
  rcases lookValue?_eq_some hv with ⟨rfl, b, s, rfl, -⟩ | ⟨rfl, b, n, rfl, -⟩ | ⟨rfl | rfl, vh, vl, rfl, -⟩
  all_goals simp at h

theorem lookSet?_of_byte {f x a k p v h l : Byte} (hr : (p = 0 ∧ 6 < v.toNat) ∨ (p = 3 ∧ 15 < v.toNat) ∨ (h ++ l : Word16) ≠ 0) :
    lookSet? [f, x, a, k, p, v, h, l] = none := by
  refine lookSet?_eq_none (.inr fun y u w hv hfade => ?_)
  rcases lookValue?_eq_some hv with ⟨rfl, b, s, hb, hle, rfl⟩ | ⟨rfl, b, n, hb, hle, rfl⟩ | ⟨-, vh, vl, hb, -⟩
  · obtain ⟨rfl, rfl, rfl⟩ : v = b ∧ h = u ∧ l = w := by simpa using hb
    have hzero := hfade.2 (.inl ⟨s, rfl⟩)
    rcases hr with ⟨-, hlt⟩ | ⟨h3, -⟩ | hne
    · omega
    · exact absurd h3 (by decide)
    · exact hne (BitVec.eq_of_toNat_eq hzero)
  · obtain ⟨rfl, rfl, rfl⟩ : v = b ∧ h = u ∧ l = w := by simpa using hb
    have hzero := hfade.2 (.inr ⟨n, rfl⟩)
    rcases hr with ⟨h0, -⟩ | ⟨-, hlt⟩ | hne
    · exact absurd h0 (by decide)
    · omega
    · exact hne (BitVec.eq_of_toNat_eq hzero)
  · simp at hb

theorem lookSet?_of_level {f x a k p vh vl h l : Byte} (hr : 1000 < (vh ++ vl : Word16).toNat ∨ 1000 < (h ++ l : Word16).toNat) :
    lookSet? [f, x, a, k, p, vh, vl, h, l] = none := by
  refine lookSet?_eq_none (.inr fun y u w hv hfade => ?_)
  rcases lookValue?_eq_some hv with ⟨-, b, s, hb, -⟩ | ⟨-, b, n, hb, -⟩ | ⟨-, uh, ul, hb, hle⟩
  · simp at hb
  · simp at hb
  · obtain ⟨rfl, rfl, rfl, rfl⟩ : vh = uh ∧ vl = ul ∧ h = u ∧ l = w := by simpa using hb
    have hfit := hfade.1
    omega

end Sys2Proof.Machine
end

section
/-! Groups, tally rules, cues and faults whose bodies give no operands (R179). -/

namespace Sys2Proof.Machine

/-! ### GROUP_SET (R132) -/

/-- The members of a GROUP_SET in pairs: one bad pair spoils the list. -/
theorem refList?_of_bad_node {c a : Byte} (hbad : 3 < c.toNat ∨ a.toNat < 1 ∨ 30 < a.toNat) (later : List Byte) :
    ∀ before : List Byte, before.length % 2 = 0 → refList? (before ++ c :: a :: later) = none
  | [], _ => by
      rcases hbad with h | h
      · simp [refList?, chainByte?_eq_none h]
      · simp [refList?, address?_eq_none h]
  | [_], h => absurd h Nat.one_ne_zero
  | _ :: _ :: before, h => by
      have hrest := refList?_of_bad_node hbad later before (by simpa [Nat.add_assoc] using h)
      simp [refList?, hrest]

theorem groupSet?_of_members {g n : Byte} {more : List Byte} (h : refList? more = none) : groupSet? (g :: n :: more) = none := by
  simp [groupSet?, h]

theorem groupSet?_of_field {g n : Byte} {more : List Byte} (h : 15 < g.toNat ∨ 32 < n.toNat ∨ more.length ≠ 2 * n.toNat) :
    groupSet? (g :: n :: more) = none := by
  by_contra hsome
  obtain ⟨r, hr⟩ := Option.ne_none_iff_exists'.1 hsome
  simp only [groupSet?, Option.bind_eq_bind, Option.bind_eq_some_iff, inRange_eq_some, check_eq_some, decide_eq_true_eq] at hr
  obtain ⟨_, ⟨⟨-, hg⟩, rfl⟩, _, ⟨⟨-, hn⟩, rfl⟩, _, hlen, -⟩ := hr
  omega

theorem groupSet?_length {body : List Byte} (h : body.length < 2) : groupSet? body = none := by
  match body with
  | [] | [_] => rfl

/-! ### TALLY_RULE_SET (R137) -/

/-- A rule's parameter and value read in range: a preset's byte, or the two bytes of a level. -/
theorem overValue?_eq_some {p : Byte} {bytes more : List Byte} {x : OverParam × Nat}
    (h : overValue? (p :: bytes) = some (some x, more)) :
    (p = 2 ∧ ∃ b, bytes = b :: more ∧ b.toNat ≤ 15) ∨
      ((p = 0 ∨ p = 1) ∧ ∃ vh vl, bytes = vh :: vl :: more ∧ (vh ++ vl : Word16).toNat ≤ 1000) := by
  rw [overValue?] at h
  split_ifs at h with h0 h1 h2
  · obtain ⟨vh, vl, hb, hv⟩ := levelValue?_eq_some h
    obtain ⟨n, hn, -⟩ := Option.map_eq_some_iff.1 hv.symm
    exact .inr ⟨.inl h0, vh, vl, hb, (inRange_eq_some.1 hn).1.2⟩
  · obtain ⟨vh, vl, hb, hv⟩ := levelValue?_eq_some h
    obtain ⟨n, hn, -⟩ := Option.map_eq_some_iff.1 hv.symm
    exact .inr ⟨.inr h1, vh, vl, hb, (inRange_eq_some.1 hn).1.2⟩
  · obtain ⟨b, hb, hv⟩ := byteValue?_eq_some h
    obtain ⟨_, hm, -⟩ := Option.map_eq_some_iff.1 hv.symm
    exact .inl ⟨h2, b, hb, (inRange_eq_some.1 hm).1.2⟩

/-- The bytes of a TALLY_RULE_SET whose operands can be read. -/
structure RuleReads (n en line sense f x a k : Byte) (more : List Byte) : Prop where
  number : n.toNat ≤ 15
  enabled : en.toNat ≤ 1
  line : line.toNat ≤ 7
  sense : sense.toNat ≤ 1
  target : selector? f x a k ≠ none
  value : ∃ v at_ re, overValue? more = some (some v, [at_, re]) ∧ at_.toNat ≤ 250 ∧ re.toNat ≤ 250

/-- A flag's byte, 0 or 1. -/
theorem flag_le {α : Type} {b : Byte} {u v w : α} (h : (if b = 0 then some u else if b = 1 then some v else none) = some w) :
    b.toNat ≤ 1 := by
  split_ifs at h with h0 h1
  · exact h0 ▸ Nat.zero_le 1
  · exact h1 ▸ Nat.le_refl 1

theorem tallyRule?_reads {n en line sense f x a k : Byte} {more : List Byte}
    (h : tallyRule? (n :: en :: line :: sense :: f :: x :: a :: k :: more) ≠ none) :
    RuleReads n en line sense f x a k more := by
  obtain ⟨r, hr⟩ := Option.ne_none_iff_exists'.1 h
  simp only [tallyRule?, Option.bind_eq_bind, Option.bind_eq_some_iff, inRange_eq_some] at hr
  obtain ⟨_, ⟨⟨-, hn⟩, rfl⟩, _, hen, _, ⟨⟨-, hline⟩, rfl⟩, _, hsense, sel, hsel, ⟨v?, rest⟩, hv, v, rfl, hends⟩ := hr
  refine ⟨hn, flag_le hen, hline, flag_le hsense, Option.ne_none_iff_exists'.2 ⟨sel, hsel⟩, ?_⟩
  match rest, hv, hends with
  | [u, w], hv, hends =>
      obtain ⟨_, hu, hends⟩ := Option.bind_eq_some_iff.1 hends
      obtain ⟨_, hw, -⟩ := Option.bind_eq_some_iff.1 hends
      exact ⟨v, u, w, hv, (inRange_eq_some.1 hu).1.2, (inRange_eq_some.1 hw).1.2⟩
  | [], _, hends => exact nomatch hends
  | [_], _, hends => exact nomatch hends
  | _ :: _ :: _ :: _, _, hends => exact nomatch hends

theorem tallyRule?_eq_none {n en line sense f x a k : Byte} {more : List Byte} (h : ¬ RuleReads n en line sense f x a k more) :
    tallyRule? (n :: en :: line :: sense :: f :: x :: a :: k :: more) = none :=
  by_contra fun hsome => h (tallyRule?_reads hsome)

theorem tallyRule?_length {body : List Byte} (h : body.length < 12) : tallyRule? body = none := by
  match body with
  | [] | [_] | [_, _] | [_, _, _] | [_, _, _, _] | [_, _, _, _, _] | [_, _, _, _, _, _] | [_, _, _, _, _, _, _] => rfl
  | n :: en :: line :: sense :: f :: x :: a :: k :: more =>
      refine tallyRule?_eq_none fun hr => ?_
      obtain ⟨v, u, w, hv, -⟩ := hr.value
      match more with
      | [] => exact nomatch hv
      | p :: bytes =>
          simp only [List.length_cons] at h
          rcases overValue?_eq_some hv with ⟨-, b, rfl, -⟩ | ⟨-, vh, vl, rfl, -⟩
          all_goals simp at h

theorem tallyRule?_of_field {n en line sense f x a k p : Byte} {more : List Byte}
    (h : 15 < n.toNat ∨ 1 < en.toNat ∨ 7 < line.toNat ∨ 1 < sense.toNat ∨
      ((f = 0 ∧ ((3 < x.toNat ∧ x ≠ 0xFF) ∨ ((a.toNat < 1 ∨ 30 < a.toNat) ∧ a ≠ 0xFF) ∨ 2 < k.toNat)) ∨
        (f = 1 ∧ (15 < x.toNat ∨ a ≠ 0 ∨ k ≠ 0)) ∨ 1 < f.toNat) ∨
      2 < p.toNat ∨ ((p = 0 ∨ p = 1) ∧ more.length ≠ 4) ∨ (p = 2 ∧ more.length ≠ 3)) :
    tallyRule? (n :: en :: line :: sense :: f :: x :: a :: k :: p :: more) = none := by
  refine tallyRule?_eq_none fun hr => ?_
  obtain ⟨v, u, w, hv, -⟩ := hr.value
  rcases h with h | h | h | h | h | h
  · exact absurd hr.number (Nat.not_le.2 h)
  · exact absurd hr.enabled (Nat.not_le.2 h)
  · exact absurd hr.line (Nat.not_le.2 h)
  · exact absurd hr.sense (Nat.not_le.2 h)
  · exact hr.target ((selector?_eq_none f x a k).2 h)
  · rcases overValue?_eq_some hv with ⟨rfl, b, rfl, -⟩ | ⟨rfl | rfl, vh, vl, rfl, -⟩
    all_goals simp at h

theorem tallyRule?_of_byte {n en line sense f x a k p v u w : Byte} (h : 15 < v.toNat ∨ 250 < u.toNat ∨ 250 < w.toNat) :
    tallyRule? [n, en, line, sense, f, x, a, k, p, v, u, w] = none := by
  refine tallyRule?_eq_none fun hr => ?_
  obtain ⟨y, u', w', hv, hu, hw⟩ := hr.value
  rcases overValue?_eq_some hv with ⟨-, b, hb, hle⟩ | ⟨-, vh, vl, hb, -⟩
  · obtain ⟨rfl, rfl, rfl⟩ : v = b ∧ u = u' ∧ w = w' := by simpa using hb
    omega
  · simp at hb

theorem tallyRule?_of_level {n en line sense f x a k p vh vl u w : Byte}
    (h : 1000 < (vh ++ vl : Word16).toNat ∨ 250 < u.toNat ∨ 250 < w.toNat) :
    tallyRule? [n, en, line, sense, f, x, a, k, p, vh, vl, u, w] = none := by
  refine tallyRule?_eq_none fun hr => ?_
  obtain ⟨y, u', w', hv, hu, hw⟩ := hr.value
  rcases overValue?_eq_some hv with ⟨-, b, hb, -⟩ | ⟨-, bh, bl, hb, hle⟩
  · simp at hb
  · obtain ⟨rfl, rfl, rfl, rfl⟩ : vh = bh ∧ vl = bl ∧ u = u' ∧ w = w' := by simpa using hb
    omega

/-! ### CUE_LOAD (R147) -/

theorem cueLoad?_of_steps {k n : Byte} {more : List Byte} (h : cueSteps? n.toNat more = none) : cueLoad? (k :: n :: more) = none := by
  rw [cueLoad?, h]
  rfl

theorem cueLoad?_length {body : List Byte} (h : body.length < 2) : cueLoad? body = none := by
  match body with
  | [] | [_] => rfl

theorem cueSteps?_of_extra {more : List Byte} (h : more ≠ []) : cueSteps? 0 more = none :=
  if_neg (by simpa using h)

theorem cueSteps?_of_short {n : Nat} {more : List Byte} (h : cueStep? more = .short) : cueSteps? (n + 1) more = none := by
  rw [cueSteps?, h]

theorem cueSteps?_of_later {n : Nat} {more later : List Byte} {x : Option CueStep} (h : cueStep? more = .step x later)
    (hlater : cueSteps? n later = none) : cueSteps? (n + 1) more = none :=
  (cueSteps?_of_step h n).trans (congrArg (Option.map (x :: ·)) hlater)

/-! ### FAULT_CLEAR (R189) -/

theorem faultClear?_of_tail {p : Byte} {more : List Byte}
    (h : 1 < p.toNat ∨ (p = 0 ∧ more ≠ []) ∨ (p = 1 ∧ more.length ≠ 2)) : faultClear? (p :: more) = none := by
  rcases h with h | ⟨rfl, h⟩ | ⟨rfl, h⟩
  · simp [faultClear?, opt16_of_presence h]
  · simp [faultClear?, opt16, check, h]
  · match more, h with
    | [], _ => simp [faultClear?, opt16]
    | [_], _ => simp [faultClear?, opt16]
    | _ :: _ :: _ :: _, _ => simp [faultClear?, opt16, check]

/-! ### A STILL_WRITE that can be read (R109, R111) -/

section
variable {q : Request} {x : StillWriteArgs} {take : StillRef → State → State} {s : State}

theorem StillWriteArgs.slot?_eq_none (h : 3 < x.page ∨ 3 < x.chain ∨ x.address < 1 ∨ 30 < x.address) : x.slot? = none := by
  rw [StillWriteArgs.slot?]
  split
  case h_1 c hc =>
    have hchain : x.chain ≤ 3 := Nat.le_of_lt_succ (of_not_not fun hlt => nomatch (dif_neg hlt).symm.trans hc)
    refine if_neg fun hin => ?_
    obtain ⟨hpage, haddr⟩ := hin
    obtain ⟨h1, h30⟩ := isAddress_iff.1 haddr
    omega
  case h_2 => rfl

theorem StillWriteArgs.fits_eq_false
    (h : 4095 < x.offset ∨ x.total < 1 ∨ 4096 < x.total ∨ x.chunk.length < 1 ∨ 1024 < x.chunk.length ∨
      x.total < x.offset + x.chunk.length ∨ ¬ (x.offset + x.chunk.length = x.total ↔ x.crc.isSome = true)) :
    ¬ x.fits = true := by
  intro hfits
  simp only [StillWriteArgs.fits, StillWriteArgs.last, Bool.and_eq_true, decide_eq_true_eq, beq_iff_eq] at hfits
  obtain ⟨⟨⟨⟨⟨⟨ho, ht1⟩, ht⟩, hl1⟩, hl⟩, hin⟩, hlast⟩ := hfits
  have hiff : x.offset + x.chunk.length = x.total ↔ x.crc.isSome = true := by rw [← hlast, decide_eq_true_iff]
  rcases h with h | h | h | h | h | h | h
  case inr.inr.inr.inr.inr.inr => exact h hiff
  all_goals omega

theorem State.stillWrite_of_no_slot (h : x.slot? = none) : s.stillWrite q x take = s.stillReply q .badArg none := by
  rw [State.stillWrite, h]

theorem State.stillWrite_of_misfit {r : StillRef} (h : x.slot? = some r) (hfits : ¬ x.fits = true) :
    s.stillWrite q x take = s.stillReply q .badArg (some r) := by
  rw [State.stillWrite, h]
  exact if_neg hfits

end

/-- Either row of a STILL_WRITE puts the same argument checks to its operands. -/
theorem exec_stillWrite {i : Instr} {q : Request} {rest : List Request} {s : State}
    (h : (i = .stillWriteBegin ∧ Waits .stillWriteBegin q rest s) ∨
      (i = .stillWriteContinue ∧ Waits .stillWriteContinue q rest s)) :
    ∃ (row : ReqRow) (take : Request → StillWriteArgs → StillRef → State → State), Waits row q rest s ∧
      exec i s = s.takeWith row stillWrite? fun q x s => s.stillWrite q x (take q x) := by
  rcases h with ⟨rfl, hq⟩ | ⟨rfl, hq⟩
  · exact ⟨_, fun q x r s => s.beginFill q r x, hq, rfl⟩
  · exact ⟨_, fun q x r s => s.continueFill q r x, hq, rfl⟩

end Sys2Proof.Machine
end

section
/-! Fields out of range are refused (R179). -/

namespace Sys2Proof.Machine

theorem stillClearSlot?_length : ReadsLength 4 stillClearSlot? := fun body h => by
  unfold stillClearSlot?
  split
  · exact absurd rfl h
  · rfl

theorem stillClearPage?_length : ReadsLength 2 stillClearPage? := fun body h => by
  unfold stillClearPage?
  split
  · exact absurd rfl h
  · rfl

/-- Settles O52: each request is refused as its parser reads no operands. -/
theorem fieldsOutOfRangeAreRefused : Obligations.FieldsOutOfRangeAreRefused := by
  unfold Obligations.FieldsOutOfRangeAreRefused
  intro q rest s refused badSelector badNode
  refine ⟨?refSet, ?chainEnable, ?chainDisable, ?rewalk, ?reinstate, ?nodeSet, ?configure, ?enable, ?segSet, ?stillWrite,
    ?clearSlot, ?clearPage, ?lookSet, ?groupSet, ?tallyRule, ?cueLoad, ?cueSteps, ?arm, ?runner, ?faultClear⟩
  case refSet =>
    intro hq m r hb h at_
    exact exec_refused hq (hb ▸ refSet?_eq_none h) (show exec (.refSet at_) s = execRefSet at_ s from rfl)
  case chainEnable =>
    intro hq c a sl bl hb h
    have hnone : chainSet? 0 [c, a, sl, bl] = none := by
      rcases h with h | h | h
      · exact chainSet?_eq_none (.inl h)
      · exact chainSet?_eq_none (.inr (.inl (ne_of_toNat_gt h (by decide))))
      · exact chainSet?_eq_none (.inr (.inr h))
    exact exec_refused hq (hb ▸ hnone) (show exec .chainSetEnable s = execChainSetEnable s from rfl)
  case chainDisable =>
    intro hq c a sl bl hb h
    have hnone : chainSet? 1 [c, a, sl, bl] = none := chainSet?_eq_none (h.imp id .inr)
    exact exec_refused hq (hb ▸ hnone) (show exec .chainSetDisable s = execChainSetDisable s from rfl)
  case rewalk =>
    intro hq c hb h
    exact exec_refused hq (parse := chain?) (hb ▸ show chain? [c] = none from chainByte?_eq_none h) (show exec .chainRewalk s = execChainRewalk s from rfl)
  case reinstate =>
    intro hq c a hb h
    exact exec_refused hq (hb ▸ nodeRef?_eq_none h) (show exec .nodeReinstate s = execNodeReinstate s from rfl)
  case nodeSet =>
    intro hq
    have hrefused (body : List Byte) (hb : q.body = body) (hnone : nodeSet? body = none) : exec .nodeSet s = .next refused :=
      exec_refused hq (hb ▸ hnone) (show exec .nodeSet s = execNodeSet s from rfl)
    refine ⟨fun h => hrefused _ rfl (nodeSet?_length h), fun c a more hb h => hrefused _ hb (nodeSet?_of_bad_node h),
      fun c a p more hb h => hrefused _ hb (nodeSet?_of_gap_unread (opt8_of_presence h _)),
      fun c a g more hb h => hrefused _ hb (nodeSet?_of_gap_range rfl h), fun c a hb => hrefused _ hb (nodeSet?_of_nothing c a),
      ?_⟩
    intro c a gap more hgap hb
    obtain ⟨g, hg⟩ := opt8_field hgap more
    refine ⟨fun h => hrefused _ hb (nodeSet?_of_page_unread hg ?_), fun p later hm h => ?_, fun p later hm h => ?_, ?_⟩
    · rcases h with rfl | rfl <;> rfl
    · exact hrefused _ hb (nodeSet?_of_page_unread hg (hm ▸ opt8_of_presence h later))
    · exact hrefused _ hb (nodeSet?_of_page_range (later := later) hg (by rw [hm]; rfl) h)
    intro page later hpage hm
    obtain ⟨p, hp⟩ := opt8_field hpage later
    rw [← hm] at hp
    refine ⟨fun h => hrefused _ hb (nodeSet?_of_clamp_unread hg hp ?_), fun p last hl h => ?_, fun u w last hl h => ?_, ?_⟩
    · rcases h with rfl | rfl | ⟨u, rfl⟩ <;> rfl
    · exact hrefused _ hb (nodeSet?_of_clamp_unread hg hp (hl ▸ opt16_of_presence h last))
    · exact hrefused _ hb (nodeSet?_of_clamp_range (last := last) hg hp (by rw [hl]; rfl) h)
    intro clamp last hclamp hl
    obtain ⟨w, hw⟩ := opt16_field hclamp last
    rw [← hl] at hw
    exact ⟨fun h => hrefused _ hb (nodeSet?_of_end_length hg hp hw h),
      fun x hx h => hrefused _ hb (nodeSet?_of_clear_presence hg hp (hx ▸ hw) h)⟩
  case configure =>
    intro hq c a k t colour gamma rotation dimming fan hb h
    exact exec_refused hq (hb ▸ configure?_eq_none h) (show exec .nodeCommandConfigure s = execNodeCommandConfigure s from rfl)
  case enable =>
    intro hq c a k hb h
    exact exec_refused hq (hb ▸ enable?_eq_none h) (show exec .nodeCommandEnable s = execNodeCommandEnable s from rfl)
  case segSet =>
    intro hq u w p hb h
    exact exec_refused hq (hb ▸ segSet?_eq_none h) (show exec .segSet s = execSegSet s from rfl)
  case stillWrite =>
    intro i hi
    obtain ⟨row, take, hq, hexec⟩ := exec_stillWrite hi
    have hrefused (body : List Byte) (hb : q.body = body) (hnone : stillWrite? body = none) : exec i s = .next refused :=
      exec_refused hq (hb ▸ hnone) hexec
    refine ⟨fun h => hrefused _ rfl (stillWrite?_length h), ?unread, ?args⟩
    case unread =>
      intro p c a oh ol th tl nh nl more hb chunk
      exact ⟨fun h => hrefused _ hb (stillWrite?_of_short h), fun b tail ht h => hrefused _ hb (stillWrite?_of_tail ht h)⟩
    case args =>
      intro x hx
      rw [hexec, takeWith_some hq hx]
      refine ⟨fun h => ended_congr (State.stillWrite_of_no_slot (StillWriteArgs.slot?_eq_none h)), ?_⟩
      intro c hp hc h1 h30 h r
      exact ended_congr (State.stillWrite_of_misfit (StillWriteArgs.slot?_of hp hc h1 h30) (StillWriteArgs.fits_eq_false h))
  case clearSlot =>
    intro hq
    have hi : exec .stillClearSlot s = execStillClearSlot s := rfl
    exact ⟨fun h => exec_refused_of_length stillClearSlot?_length hi hq h,
      fun p k c a hb h => exec_refused hq (hb ▸ stillClearSlot?_eq_none h) hi⟩
  case clearPage =>
    intro hq
    have hi : exec .stillClearPage s = execStillClearPage s := rfl
    exact ⟨fun h => exec_refused_of_length stillClearPage?_length hi hq h,
      fun p k hb h => exec_refused hq (hb ▸ stillClearPage?_eq_none h) hi⟩
  case lookSet =>
    intro hq
    have hrefused (body : List Byte) (hb : q.body = body) (hnone : lookSet? body = none) : exec .lookSet s = .next refused :=
      exec_refused hq (hb ▸ hnone) (show exec .lookSet s = execLookSet s from rfl)
    refine ⟨fun h => hrefused _ rfl (lookSet?_length h), fun f x a k p more hb => ?_⟩
    refine ⟨fun h => hrefused _ hb (lookSet?_of_field h), fun v u w hm h => ?_, fun vh vl u w hm h => ?_⟩
    · exact hrefused _ (hm ▸ hb) (lookSet?_of_byte h)
    · exact hrefused _ (hm ▸ hb) (lookSet?_of_level h)
  case groupSet =>
    intro hq
    have hrefused (body : List Byte) (hb : q.body = body) (hnone : groupSet? body = none) : exec .groupSet s = .next refused :=
      exec_refused hq (hb ▸ hnone) (show exec .groupSet s = execGroupSet s from rfl)
    refine ⟨fun h => hrefused _ rfl (groupSet?_length h), fun g n more hb => ?_⟩
    exact ⟨fun h => hrefused _ hb (groupSet?_of_field h), fun before c a later hm heven h =>
      hrefused _ (hm ▸ hb) (groupSet?_of_members (refList?_of_bad_node h later before heven))⟩
  case tallyRule =>
    intro hq
    have hrefused (body : List Byte) (hb : q.body = body) (hnone : tallyRule? body = none) :
        exec .tallyRuleSet s = .next refused :=
      exec_refused hq (hb ▸ hnone) (show exec .tallyRuleSet s = execTallyRuleSet s from rfl)
    refine ⟨fun h => hrefused _ rfl (tallyRule?_length h), fun n en line sense f x a k p more hb => ?_⟩
    exact ⟨fun h => hrefused _ hb (tallyRule?_of_field h), fun v u w hm h => hrefused _ (hm ▸ hb) (tallyRule?_of_byte h),
      fun vh vl u w hm h => hrefused _ (hm ▸ hb) (tallyRule?_of_level h)⟩
  case cueLoad =>
    intro hq
    have hrefused (body : List Byte) (hb : q.body = body) (hnone : cueLoad? body = none) : exec .cueLoad s = .next refused :=
      exec_refused hq (hb ▸ hnone) (show exec .cueLoad s = execCueLoad s from rfl)
    exact ⟨fun h => hrefused _ rfl (cueLoad?_length h), fun k n more hb h => hrefused _ hb (cueLoad?_of_steps h)⟩
  case cueSteps =>
    exact ⟨fun _ => cueSteps?_of_extra, fun _ => cueSteps?_of_short rfl, fun _ _ => cueSteps?_of_short,
      fun _ _ _ _ => cueSteps?_of_later⟩
  case arm =>
    intro hq r k hb h
    exact exec_refused hq (hb ▸ runnerArm?_eq_none h) (show exec .runnerArm s = execRunnerArm s from rfl)
  case runner =>
    intro r hb h
    have hnone : runner? q.body = none := hb ▸ runnerOf?_eq_none h
    exact ⟨fun hq => exec_refused hq hnone (show exec .runnerGo s = execRunnerGo s from rfl),
      fun hq => exec_refused hq hnone (show exec .runnerHalt s = execRunnerHalt s from rfl),
      fun hq => exec_refused hq hnone (show exec .runnerConfirm s = execRunnerConfirm s from rfl),
      fun hq => exec_refused hq hnone (show exec .runnerResume s = execRunnerResume s from rfl),
      fun hq => exec_refused hq hnone (show exec .runnerClear s = execRunnerClear s from rfl)⟩
  case faultClear =>
    intro hq
    have hrefused (body : List Byte) (hb : q.body = body) (hnone : faultClear? body = none) :
        exec .faultClear s = .next refused :=
      exec_refused hq (hb ▸ hnone) (show exec .faultClear s = execFaultClear s from rfl)
    exact ⟨fun hb => hrefused _ hb rfl, fun p more hb h => hrefused _ hb (faultClear?_of_tail h)⟩

end Sys2Proof.Machine
end

section
/-! STATUS reads every section (R181). -/

namespace Sys2Proof.Machine

section
variable {q : Request} {rest : List Request} {s : State}

theorem statusSection?_of {k : Nat} {body : List Byte} {b : Byte} (hb : body = [b]) (hk : b.toNat = k) :
    statusSection? k body = some () := by
  subst hb hk
  exact if_pos (decide_eq_true rfl)

theorem statusSection?_of_other {k : Nat} {b : Byte} (h : b.toNat ≠ k) : statusSection? k [b] = none :=
  check_eq_none (decide_eq_false h)

theorem chainSection?_of (c : ChainId) : chainSection? [1, BitVec.ofNat 8 c.val] = some c := by
  revert c
  decide

/-- A section that takes no chain answers OK with what it reads. -/
theorem exec_section {i : Instr} {row : ReqRow} {k : Nat} {b : Byte} {read : State → ReplyBody} (hq : Waits row q rest s)
    (hb : q.body = [b]) (hk : b.toNat = k)
    (hi : exec i s = s.takeWith row (statusSection? k) fun q _ s => s.answer q .ok (read s)) :
    exec i s = .next ((s.taken rest).replied q .ok (read (s.taken rest))) :=
  hi.trans (takeWith_some hq (statusSection?_of hb hk) _)

/-- The place of the request that is taken counts among the places held. -/
theorem Waits.placesHeld {row : ReqRow} (h : Waits row q rest s) : (s.taken rest).link.placesHeld + 1 = s.link.placesHeld := by
  obtain ⟨hwaiting, -, -⟩ := h
  simp only [Link.placesHeld, hwaiting, State.taken, List.length_cons]
  omega

end

/-! ### Counts (R27, R88, R108, R117) -/

theorem countP_addresses (p : Nat → Bool) : addresses.countP p = (List.range 30).countP fun k => p (k + 1) :=
  List.countP_map

theorem Chain.length_enrolled (ch : Chain) : ch.enrolled.length = (List.range 30).countP fun k => (ch.node (k + 1)).isSome := by
  rw [Chain.enrolled, List.length_filterMap_eq_countP, countP_addresses]
  simp

theorem Chain.countIn_eq (ch : Chain) (st : NodeState) :
    ch.countIn st = (List.range 30).countP fun k => (ch.node (k + 1)).any fun n => decide (n.state = st) := by
  rw [Chain.countIn, Chain.enrolled, List.filter_filterMap, List.length_filterMap_eq_countP, countP_addresses]
  refine List.countP_congr fun k _ => ?_
  cases ch.node (k + 1) <;> simp

/-- A table of nonzero counts: each key once, with its number. -/
def CountsBy (n : Word16 → Nat) (l : List (Word16 × Nat)) : Prop :=
  (l.map fun x => x.1).Nodup ∧ ∀ f k, (f, k) ∈ l ↔ k = n f ∧ k ≠ 0

theorem countsBy_nil {n : Word16 → Nat} : CountsBy n [] ↔ ∀ f, n f = 0 := by
  simp [CountsBy]

theorem countsBy_cons {n : Word16 → Nat} {f : Word16} {k : Nat} {l : List (Word16 × Nat)} :
    CountsBy n ((f, k) :: l) ↔ k = n f ∧ k ≠ 0 ∧ CountsBy (Function.update n f 0) l := by
  have hother {g : Word16} (hg : g ≠ f) (m : Nat) : (g, m) ∈ (f, k) :: l ↔ (g, m) ∈ l := by simp [hg]
  constructor
  · rintro ⟨hnodup, hmem⟩
    obtain ⟨hk, hne⟩ := (hmem f k).1 List.mem_cons_self
    obtain ⟨hf, hkeys⟩ := List.nodup_cons.1 hnodup
    refine ⟨hk, hne, hkeys, fun g m => ?_⟩
    by_cases hg : g = f
    · subst hg
      rw [Function.update_self]
      exact iff_of_false (fun h => hf (List.mem_map.2 ⟨_, h, rfl⟩)) fun ⟨h0, hm⟩ => hm h0
    · rw [Function.update_of_ne hg, ← hmem, hother hg]
  · rintro ⟨rfl, hne, hkeys, hmem⟩
    have hf : f ∉ l.map fun x => x.1 := fun h => by
      obtain ⟨⟨_, m⟩, hm, rfl⟩ := List.mem_map.1 h
      obtain ⟨h0, hpos⟩ := (hmem _ m).1 hm
      exact hpos (h0.trans (Function.update_self ..))
    refine ⟨List.nodup_cons.2 ⟨hf, hkeys⟩, fun g m => ?_⟩
    by_cases hg : g = f
    · subst hg
      have hrest : (g, m) ∉ l := fun h => hf (List.mem_map.2 ⟨_, h, rfl⟩)
      simp only [List.mem_cons, Prod.mk.injEq, true_and, hrest, or_false]
      exact ⟨fun h => ⟨h, h ▸ hne⟩, And.left⟩
    · rw [hother hg, hmem, Function.update_of_ne hg]

theorem countsBy_tallyFrame {f : Word16} {l : List (Word16 × Nat)} :
    ∀ {n : Word16 → Nat}, CountsBy n l → CountsBy (Function.update n f (n f + 1)) (tallyFrame f l) := by
  induction l with
  | nil =>
      intro n h
      have hz := countsBy_nil.1 h
      refine countsBy_cons.2 ⟨by simp [hz], Nat.one_ne_zero, countsBy_nil.2 fun g => ?_⟩
      simp [Function.update_apply, hz]
  | cons x l ih =>
      obtain ⟨g, k⟩ := x
      intro n h
      obtain ⟨rfl, hk, hl⟩ := countsBy_cons.1 h
      rw [tallyFrame]
      split_ifs with hg
      · subst hg
        exact countsBy_cons.2 ⟨by simp, Nat.succ_ne_zero _, by simpa using hl⟩
      · refine countsBy_cons.2 ⟨by simp [hg], hk, ?_⟩
        have hrest := ih hl
        rwa [Function.update_of_ne (Ne.symm hg), Function.update_comm hg] at hrest

theorem countsBy_foldl (slots : List FrameSlot) : ∀ {n : Word16 → Nat} {l : List (Word16 × Nat)}, CountsBy n l →
    CountsBy (fun f => n f + slots.countP fun x => decide (x.frame = f)) (slots.foldl (fun l x => tallyFrame x.frame l) l) := by
  induction slots with
  | nil => exact fun h => h
  | cons x slots ih =>
      intro n l h
      have hrest := ih (countsBy_tallyFrame (f := x.frame) h)
      have hcounts : (fun f => Function.update n x.frame (n x.frame + 1) f + slots.countP fun y => decide (y.frame = f)) =
          fun f => n f + (x :: slots).countP fun y => decide (y.frame = f) := by
        funext f
        by_cases hf : x.frame = f
        · subst hf
          rw [Function.update_self, List.countP_cons_of_pos (by simp), Nat.add_right_comm, Nat.add_assoc]
        · rw [Function.update_of_ne (Ne.symm hf), List.countP_cons_of_neg (by simpa using hf)]
      exact hcounts ▸ hrest

theorem AsmChain.slotCounts_countsBy (m : AsmChain) :
    CountsBy (fun f => m.slots.countP fun x => decide (x.frame = f)) m.slotCounts := by
  have h := countsBy_foldl m.slots (n := fun _ => 0) (l := []) (countsBy_nil.2 fun _ => rfl)
  simp only [Nat.zero_add] at h
  exact h

theorem Scene.ownerCounts_eq (sc : Scene) (c : ChainId) (w : Writer) :
    (((sc.entries.drop (c.val * 30)).take 30).flatMap SceneEntry.owners).count w =
      (((sc.entries.drop (c.val * 30)).take 30).map fun e =>
        [e.source.owner, e.brightness.owner, e.intensity.owner, e.preset.owner].count w).sum :=
  List.count_flatMap

/-- Settles O56: each section is its own request's reply, and each count is the model's own with its list unfolded. -/
theorem statusReadsEverySection : Obligations.StatusReadsEverySection := by
  unfold Obligations.StatusReadsEverySection
  refine ⟨?sections, ?states, ?slots, ?pages, ?owners⟩
  case sections =>
    intro q rest s reads phase
    refine ⟨?reference, ?chain, ?intake, ?pool, ?stills, ?scene, ?groups, ?tally, ?runners, ?link⟩
    case reference =>
      intro hq
      have hi : exec .statusReference s = execStatusReference s := rfl
      refine ⟨fun hb => (exec_section hq hb rfl hi).trans rfl, fun k hb hk => ?_⟩
      exact exec_refused hq (hb ▸ statusSection?_of_other (by omega)) hi
    case chain =>
      intro hq
      have hi : exec .statusChain s = execStatusChain s := rfl
      refine ⟨?_, fun c hb hc => exec_refused hq (parse := chainSection?) (hb ▸ chainByte?_eq_none hc) hi⟩
      intro c hb ch
      rw [hi, execStatusChain, takeWith_some hq (hb ▸ chainSection?_of c)]
      rfl
    case intake =>
      intro hq hb
      exact (exec_section hq hb rfl (show exec .statusIntake s = execStatusIntake s from rfl)).trans rfl
    case pool =>
      intro hq hb
      exact (exec_section hq hb rfl (show exec .statusPool s = execStatusPool s from rfl)).trans rfl
    case stills =>
      intro hq hb
      exact (exec_section hq hb rfl (show exec .statusStills s = execStatusStills s from rfl)).trans rfl
    case scene =>
      intro hq hb
      exact (exec_section hq hb rfl (show exec .statusScene s = execStatusScene s from rfl)).trans rfl
    case groups =>
      intro hq hb
      exact (exec_section hq hb rfl (show exec .statusGroups s = execStatusGroups s from rfl)).trans rfl
    case tally =>
      intro hq hb
      exact (exec_section hq hb rfl (show exec .statusTally s = execStatusTally s from rfl)).trans rfl
    case runners =>
      intro hq hb
      exact (exec_section hq hb rfl (show exec .statusRunners s = execStatusRunners s from rfl)).trans rfl
    case link =>
      intro hq hb
      refine (exec_section hq hb rfl (show exec .statusLink s = execStatusLink s from rfl)).trans ?_
      rw [State.statusLink, hq.placesHeld]
      rfl
  case states =>
    intro ch number
    refine ⟨?_, ch.length_enrolled⟩
    rw [Chain.stateCounts, ch.countIn_eq, ch.countIn_eq, ch.countIn_eq, ch.countIn_eq, ch.countIn_eq]
  case slots =>
    exact AsmChain.slotCounts_countsBy
  case pages =>
    intro st page l
    refine ⟨?_, ?_, ?_⟩
    all_goals
      refine List.countP_congr fun x _ => ?_
      cases x <;> simp
  case owners =>
    intro sc c number
    rw [Scene.ownerCounts]
    simp only [Scene.ownerCounts_eq]
    rfl

end Sys2Proof.Machine
end

section
/-! The blocks of a return (R43, R199, R200) and what each does to its node (R44 to R48). -/

namespace Sys2Proof.Machine

/-! ### Blocks in range (R199, R200) -/

/-- A status block whose fields are in range (R200, step 4). -/
structure StatusBlock.InRange (b : StatusBlock) : Prop where
  hop : 1 ≤ b.hop.toNat ∧ b.hop.toNat ≤ 31
  address : 1 ≤ b.address.toNat ∧ b.address.toNat ≤ 30
  kind : b.kind.toNat ≤ 1
  mode : b.mode.toNat ≤ 1
  gen : b.gen = 0xFF ∨ b.gen.toNat ≤ 15
  health : b.health.toNat ≤ 15

/-- What a status block in range says. -/
def StatusBlock.read (b : StatusBlock) : Answer :=
  { hop := b.hop.toNat, address := b.address.toNat, kind := if b.kind = 0 then .tile else .lamp,
    mode := if b.mode = 0 then .ident else .live, tag := b.tag, gen := if b.gen = 0xFF then none else some (b.gen.setWidth 4),
    health := b.health.setWidth 4, identity := b.identity }

/-- A byte of two codes. -/
theorem twoCodes {α : Type} {b : Byte} (h : b.toNat ≤ 1) (u v : α) :
    (if b = 0 then some u else if b = 1 then some v else none) = some (if b = 0 then u else v) := by
  have hb : b = 0 ∨ b = 1 := by
    rcases Nat.le_one_iff_eq_zero_or_eq_one.1 h with h | h
    · exact .inl (BitVec.eq_of_toNat_eq h)
    · exact .inr (BitVec.eq_of_toNat_eq h)
  rcases hb with rfl | rfl <;> rfl

theorem genByte?_of {b : Byte} (h : b = 0xFF ∨ b.toNat ≤ 15) :
    genByte? b = some (if b = 0xFF then none else some (b.setWidth 4)) := by
  by_cases hb : b = 0xFF
  · rw [if_pos hb]
    exact if_pos hb
  · rw [if_neg hb]
    exact (if_neg hb).trans (if_pos (h.resolve_left hb))

theorem StatusBlock.InRange.answer? {b : StatusBlock} (h : b.InRange) : b.answer? = some b.read := by
  have hkind : kindByte? b.kind = some (if b.kind = 0 then .tile else .lamp) := twoCodes h.kind _ _
  have hmode : modeByte? b.mode = some (if b.mode = 0 then .ident else .live) := twoCodes h.mode _ _
  unfold StatusBlock.answer?
  rw [inRange, if_pos h.hop, inRange, if_pos h.address, hkind, hmode, genByte?_of h.gen, check,
    if_pos (decide_eq_true h.health)]
  rfl

theorem filterMap_answer? {blocks : List StatusBlock} (h : ∀ b ∈ blocks, b.InRange) :
    blocks.filterMap StatusBlock.answer? = blocks.map StatusBlock.read := by
  rw [← List.filterMap_eq_map]
  exact List.filterMap_congr fun b hb => (h b hb).answer?

/-- Blocks of different hops are all the first of their hop. -/
theorem firstPerHop_of_nodup {xs : List Answer} : ∀ {seen : List Nat}, (xs.map Answer.hop).Nodup →
    (∀ x ∈ xs, x.hop ∉ seen) → firstPerHop seen xs = xs := by
  induction xs with
  | nil => exact fun _ _ => rfl
  | cons x xs ih =>
      intro seen hnodup hseen
      obtain ⟨hx, hxs⟩ := List.nodup_cons.1 hnodup
      rw [firstPerHop, if_neg (hseen x List.mem_cons_self), ih hxs fun y hy => ?_]
      intro hin
      rcases List.mem_cons.1 hin with hsame | hin
      · exact hx (hsame ▸ List.mem_map_of_mem hy)
      · exact hseen y (List.mem_cons_of_mem _ hy) hin

theorem answersOf_of_inRange {blocks : List StatusBlock} (h : ∀ b ∈ blocks, b.InRange)
    (hhops : (blocks.map StatusBlock.hop).Nodup) : answersOf blocks = blocks.map StatusBlock.read := by
  rw [answersOf, filterMap_answer? h]
  refine firstPerHop_of_nodup ?_ fun _ _ => List.not_mem_nil
  have hnats := hhops.map (f := BitVec.toNat) fun _ _ h => BitVec.eq_of_toNat_eq h
  rw [List.map_map] at hnats ⊢
  exact hnats

theorem Chain.withComplete_of_inRange {blocks : List StatusBlock} (h : ∀ b ∈ blocks, b.InRange) (ch : Chain) :
    ch.withComplete blocks =
      { ch with collect := none, counters := { ch.counters with complete := bump16 ch.counters.complete } } := by
  rw [Chain.withComplete, filterMap_answer? h, List.length_map, Nat.sub_self]
  rfl

/-! ### The table under the hops (R21) -/

/-- Hops depend on the states and positions of the records alone. -/
theorem Chain.hop_congr {ch ch' : Chain} {n n' : Node}
    (h : ∀ a, (ch.node a).map (fun n => (n.state, n.position)) = (ch'.node a).map fun n => (n.state, n.position))
    (hstate : n.state = n'.state) (hpos : n.position = n'.position) : ch.hop n = ch'.hop n' := by
  have hbelow (q : Nat) : (ch.enrolled.filter fun p => decide (p.2.state = .failed ∧ p.2.position < q)).length =
      (ch'.enrolled.filter fun p => decide (p.2.state = .failed ∧ p.2.position < q)).length := by
    unfold Chain.enrolled
    rw [List.filter_filterMap, List.filter_filterMap, List.length_filterMap_eq_countP, List.length_filterMap_eq_countP]
    refine List.countP_congr fun a _ => ?_
    have ha := h a
    cases hn : ch.node a with
    | none =>
        rw [hn] at ha
        rw [Option.map_eq_none_iff.1 ha.symm]
    | some x =>
        rw [hn] at ha
        obtain ⟨y, hy, hxy⟩ := Option.map_eq_some_iff.1 ha.symm
        obtain ⟨hs, hp⟩ := Prod.mk.inj hxy
        rw [hy]
        simp [Option.filter, hs, hp]
  rw [Chain.hop, Chain.hop, hstate, hpos, hbelow]

theorem Chain.setNode_setNode (ch : Chain) (a : Nat) (o o' : Option Node) : (ch.setNode a o).setNode a o' = ch.setNode a o' :=
  congrArg (fun l => { ch with nodes := l }) (List.set_set _)

theorem Chain.setNode_same {ch : Chain} {a : Nat} {n : Node} (h : ch.node a = some n) : ch.setNode a (some n) = ch := by
  have ha := ch.isAddress_of_node h
  rw [Chain.node, if_pos ha, List.getD_eq_getElem?_getD] at h
  have hn : ch.nodes[a - 1]? = some (some n) := by
    cases hget : ch.nodes[a - 1]? with
    | none => exact nomatch hget ▸ h
    | some o => exact congrArg some (by rwa [hget] at h)
  obtain ⟨hlt, hget⟩ := List.getElem?_eq_some_iff.1 hn
  refine congrArg (fun l => ({ ch with nodes := l } : Chain)) ?_
  rw [← hget]
  exact List.set_getElem_self hlt

theorem Chain.updateNode_setNode {ch : Chain} (hlen : ch.nodes.length = 30) {a : Nat} (ha : isAddress a = true) (n : Node)
    (f : Node → Node) : (ch.setNode a (some n)).updateNode a f = ch.setNode a (some (f n)) := by
  rw [Chain.updateNode_of_node (Chain.node_setNode_same hlen ha _), Chain.setNode_setNode]

/-- Two records of one state and position leave every hop the same. -/
theorem Chain.hop_setNode_congr {ch : Chain} (hlen : ch.nodes.length = 30) {a : Nat} (ha : isAddress a = true) {n n' : Node}
    (hstate : n.state = n'.state) (hpos : n.position = n'.position) :
    (ch.setNode a (some n)).hop n = (ch.setNode a (some n')).hop n' := by
  refine Chain.hop_congr (fun b => ?_) hstate hpos
  by_cases hb : b = a
  · rw [hb, Chain.node_setNode_same hlen ha, Chain.node_setNode_same hlen ha, Option.map_some, Option.map_some, hstate, hpos]
  · rw [Chain.node_setNode_ne ha hb, Chain.node_setNode_ne ha hb]

end Sys2Proof.Machine
end

section
/-! A return of a RUNNING chain, place by place (R43 to R48). -/

namespace Sys2Proof.Machine

/-! ### Matched blocks (R43) -/

theorem Chain.matches_iff {ch : Chain} {info : BundleInfo} {x : Answer} :
    ch.matches info x = true ↔ ∃ p n, placeAt info.path x.hop = some p ∧ ch.node x.address = some n ∧
      p.address = some x.address ∧ n.kindName = x.kind := by
  unfold Chain.matches
  cases placeAt info.path x.hop <;> cases ch.node x.address <;> simp

theorem Chain.clashes_eq_false {ch : Chain} {info : BundleInfo} {x : Answer}
    (h : ∀ n, ch.node x.address = some n → ∃ p, placeAt info.path x.hop = some p ∧ p.position = n.position) :
    ch.clashes info x = false := by
  unfold Chain.clashes
  cases hn : ch.node x.address with
  | none => rfl
  | some n =>
      obtain ⟨p, hp, hpos⟩ := h n hn
      rw [hp]
      exact decide_eq_false (not_not_intro hpos)

/-- The kinds of the records that a table holds. -/
def Chain.kindAt (ch : Chain) (a : Nat) : Option KindName := (ch.node a).map Node.kindName

theorem Chain.matches_congr {ch ch' : Chain} (h : ch.kindAt = ch'.kindAt) (info : BundleInfo) : ch.matches info = ch'.matches info := by
  funext x
  have hx : (ch.node x.address).map Node.kindName = (ch'.node x.address).map Node.kindName := congrFun h x.address
  rw [Bool.eq_iff_iff, Chain.matches_iff, Chain.matches_iff]
  constructor
  · rintro ⟨p, n, hp, hn, ha, hk⟩
    rw [hn] at hx
    obtain ⟨n', hn', hk'⟩ := Option.map_eq_some_iff.1 hx.symm
    exact ⟨p, n', hp, hn', ha, hk'.trans hk⟩
  · rintro ⟨p, n, hp, hn, ha, hk⟩
    rw [hn] at hx
    obtain ⟨n', hn', hk'⟩ := Option.map_eq_some_iff.1 hx
    exact ⟨p, n', hp, hn', ha, hk'.trans hk⟩

theorem Chain.kindAt_setNode {ch : Chain} (hlen : ch.nodes.length = 30) {a : Nat} {n n' : Node} (hn : ch.node a = some n)
    (hk : n'.kindName = n.kindName) : (ch.setNode a (some n')).kindAt = ch.kindAt := by
  have ha := ch.isAddress_of_node hn
  funext b
  by_cases hb : b = a
  · rw [Chain.kindAt, Chain.kindAt, hb, Chain.node_setNode_same hlen ha, hn, Option.map_some, Option.map_some, hk]
  · rw [Chain.kindAt, Chain.kindAt, Chain.node_setNode_ne ha hb]

/-! ### The node at a place (R44, step 4) -/

section Place
variable {m : Cm} {info : BundleInfo} {answers : List Answer} {p : Place} {i a : Nat} {n : Node}

theorem Cm.takePlace_of_node (ha : p.address = some a) (hn : m.ch.node a = some n) (hcut : n.state ≠ .cut) :
    m.takePlace info answers (p, i) =
      match answers.find? (fun x => decide (x.hop = i + 1) && m.ch.matches info x) with
      | some x => m.takeAnswer a n x
      | none => if n.state.reachable && m.ch.inReturn (i + 1) then m.takeSilence info.path (i + 1) a n else m := by
  unfold Cm.takePlace
  dsimp only
  rw [ha]
  dsimp only
  rw [hn]
  exact if_neg hcut

theorem Cm.takePlace_of_answer {x : Answer} (ha : p.address = some a) (hn : m.ch.node a = some n) (hcut : n.state ≠ .cut)
    (hx : answers.find? (fun x => decide (x.hop = i + 1) && m.ch.matches info x) = some x) :
    m.takePlace info answers (p, i) = m.takeAnswer a n x := by
  rw [Cm.takePlace_of_node ha hn hcut, hx]

theorem Cm.takePlace_of_inside {e : Nat} (ha : p.address = some a) (hn : m.ch.node a = some n)
    (hreach : n.state.reachable = true) (hend : m.ch.endHop = some e) (hi : i + 1 ≤ e)
    (hx : answers.find? (fun x => decide (x.hop = i + 1) && m.ch.matches info x) = none) :
    m.takePlace info answers (p, i) = m.takeSilence info.path (i + 1) a n := by
  have hin : m.ch.inReturn (i + 1) = true := by
    rw [Chain.inReturn, hend]
    exact decide_eq_true hi
  rw [Cm.takePlace_of_node ha hn (fun hc => nomatch hc ▸ hreach), hx]
  exact if_pos (by rw [hreach, hin]; rfl)

theorem Cm.takePlace_of_outside {e : Nat} (ha : p.address = some a) (hn : m.ch.node a = some n) (hcut : n.state ≠ .cut)
    (hend : m.ch.endHop = some e) (hi : e < i + 1)
    (hx : answers.find? (fun x => decide (x.hop = i + 1) && m.ch.matches info x) = none) :
    m.takePlace info answers (p, i) = m := by
  have hin : m.ch.inReturn (i + 1) = false := by
    rw [Chain.inReturn, hend]
    exact decide_eq_false (Nat.not_le.2 hi)
  rw [Cm.takePlace_of_node ha hn hcut, hx]
  exact if_neg (by rw [hin, Bool.and_false]; exact Bool.false_ne_true)

end Place

/-! ### A node that gave no block (R46) -/

theorem bump15_of_lt {n : Nat} (h : n < 15) : bump15 n = n + 1 := if_pos h

/-- The record of a node that gave no block, below the top of its silent count. -/
theorem Node.unanswered_of_lt {n : Node} (h : n.silent < 15) :
    n.unanswered = { n with state := if n.state = .live then .suspect else n.state, silent := n.silent + 1,
                            mismatch := false } := by
  rw [Node.unanswered, bump15_of_lt h]

section Silence
variable {m : Cm} {a : Nat} {n : Node} {path : List Place} {hop : Nat}

theorem Cm.takeSilence_of_few (h : n.silent < 15) (hfew : n.silent + 1 < m.ch.silentLimit) :
    m.takeSilence path hop a n = m.modify fun ch => ch.setNode a (some n.unanswered) := by
  refine if_neg fun hlimit => ?_
  have hle : m.ch.silentLimit ≤ bump15 n.silent := hlimit.2.1
  rw [bump15_of_lt h] at hle
  omega

theorem Cm.takeSilence_of_limit (h : n.silent < 15) (hlimit : m.ch.silentLimit ≤ n.silent + 1) (hstate : m.ch.state = .running)
    (ha : m.ch.attempt = none) :
    m.takeSilence path hop a n =
      (m.modify fun ch => ch.setNode a (some n.unanswered)).beginBypass a ((placeAt path (hop - 1)).bind fun p => p.address)
        (hop - 1) := by
  have hsilent : n.unanswered.silent = n.silent + 1 := bump15_of_lt h
  exact if_pos ⟨by rw [hsilent]; exact Nat.lt_succ_self _, by rw [hsilent]; exact hlimit, hstate, ha⟩

end Silence

/-! ### A node that gave its block (R45, R47, R48) -/

/-- A matched block with a health set: the record takes it (R45, R47). -/
def Node.heard (x : Answer) (n : Node) : Node := { n.answered x with health := x.health }

/-- A reported identity put to the record (R45). -/
def Cm.compareIdentity (a : Nat) (n : Node) (x : Answer) (m : Cm) : Cm :=
  match n.replacedBy x with
  | some new => m.nodeReport (.replaced new) a
  | none => m

/-- A reported health set put to the record (R47). -/
def Cm.compareHealth (a : Nat) (n : Node) (x : Answer) (m : Cm) : Cm :=
  if n.health ≠ x.health then
    ((m.modify fun ch => ch.updateNode a fun n => { n with health := x.health }).emit
      (.clamp (.health a (overheat x.health)))).nodeReport .health a
  else m

theorem Cm.takeAnswer_eq (a : Nat) (n : Node) (x : Answer) (m : Cm) :
    m.takeAnswer a n x =
      (((m.modify fun ch => ch.setNode a (some (n.answered x))).compareIdentity a n x).compareHealth a n x).compareMode a
        (n.answered x) := rfl

section Answer
variable {m : Cm} {a : Nat} {n : Node} {x : Answer}

theorem Node.replacedBy_eq_none (h : n.identity = none ∨ x.identity = none ∨ n.identity = x.identity) : n.replacedBy x = none := by
  unfold Node.replacedBy
  split
  case h_1 old new hold hnew =>
    rw [hold, hnew] at h
    exact if_pos (Option.some.inj ((h.resolve_left nofun).resolve_left nofun))
  case h_2 => rfl

theorem Node.replacedBy_eq_some {old new : Identity} (hold : n.identity = some old) (hnew : x.identity = some new) (h : old ≠ new) :
    n.replacedBy x = some new := by
  rw [Node.replacedBy, hold, hnew]
  exact if_neg h

theorem Cm.compareIdentity_of_same (h : n.identity = none ∨ x.identity = none ∨ n.identity = x.identity) :
    m.compareIdentity a n x = m := by
  rw [Cm.compareIdentity, Node.replacedBy_eq_none h]

theorem Cm.compareIdentity_of_other {old new : Identity} (hold : n.identity = some old) (hnew : x.identity = some new)
    (h : old ≠ new) : m.compareIdentity a n x = m.nodeReport (.replaced new) a := by
  rw [Cm.compareIdentity, Node.replacedBy_eq_some hold hnew h]

theorem Cm.compareHealth_of_same (h : n.health = x.health) : m.compareHealth a n x = m := if_neg (not_not_intro h)

theorem Cm.compareHealth_of_other (h : n.health ≠ x.health) :
    m.compareHealth a n x =
      ((m.modify fun ch => ch.updateNode a fun n => { n with health := x.health }).emit
        (.clamp (.health a (overheat x.health)))).nodeReport .health a := if_pos h

/-- The mode of a node's block is the one its state expects (R48). -/
theorem consistent_answered (h : (x.mode = .live ∧ (n.state = .live ∨ n.state = .suspect)) ∨ (x.mode = .ident ∧ n.state = .ident)) :
    consistent (n.answered x).state (n.answered x).mode = true := by
  rcases h with ⟨hm, hs | hs⟩ | ⟨hm, hs⟩
  all_goals simp [consistent, Node.answered, hm, hs]

theorem not_consistent_answered
    (h : ¬ ((x.mode = .live ∧ (n.state = .live ∨ n.state = .suspect)) ∨ (x.mode = .ident ∧ n.state = .ident)))
    (hcut : n.state ≠ .cut) (hfailed : n.state ≠ .failed) :
    consistent (n.answered x).state (n.answered x).mode = false := by
  cases hm : x.mode <;> cases hs : n.state <;> simp [consistent, Node.answered, hm, hs] at h hcut hfailed ⊢

theorem Cm.compareMode_of_failed (h : n.state = .failed) : m.compareMode a n = m := if_pos h

theorem Cm.compareMode_of_consistent (hf : n.state ≠ .failed) (h : consistent n.state n.mode = true) :
    m.compareMode a n = m.modify fun ch => ch.updateNode a fun n => { n with mismatch := false } :=
  (if_neg hf).trans (if_pos h)

theorem Cm.compareMode_of_first (hf : n.state ≠ .failed) (h : consistent n.state n.mode = false) (hm : n.mismatch = false) :
    m.compareMode a n = m.modify fun ch => ch.updateNode a fun n => { n with mismatch := true } :=
  (if_neg hf).trans ((if_neg (ne_true_of_eq_false h)).trans (if_neg (ne_true_of_eq_false hm)))

theorem Cm.compareMode_of_second (hf : n.state ≠ .failed) (h : consistent n.state n.mode = false) (hm : n.mismatch = true) :
    m.compareMode a n =
      ((m.fault (.modeMismatch n.state n.mode) (some a)).modify fun ch =>
        ch.updateNode a fun n => { n with state := n.mode.state, mismatch := false }).nodeReport .mismatch a :=
  (if_neg hf).trans ((if_neg (ne_true_of_eq_false h)).trans (if_pos hm))

end Answer

/-! ### Strangers (R43) and END restated (R44) -/

/-- A stranger block put to the memory (R43). -/
def Cm.stranger (m : Cm) (x : Answer) : Cm :=
  let key : Byte × Byte := (BitVec.ofNat 8 x.hop, BitVec.ofNat 8 x.address)
  if m.ch.stranger = some key then m
  else (m.modify fun ch => { ch with stranger := some key }).nodeReport (.stranger key.1 (if x.kind = .tile then 0 else 1)) x.address

theorem Cm.strangers_of_some {xs : List Answer} (h : xs ≠ []) (m : Cm) : m.strangers xs = xs.foldl Cm.stranger m := by
  cases xs with
  | nil => exact absurd rfl h
  | cons x xs => rfl

theorem Cm.foldl_stranger_ch (xs : List Answer) (m : Cm) :
    ∃ key out, xs.foldl Cm.stranger m = { m with ch := { m.ch with stranger := key }, out := out } := by
  induction xs generalizing m with
  | nil => exact ⟨_, _, rfl⟩
  | cons x xs ih =>
      obtain ⟨key, out, hrest⟩ := ih (m.stranger x)
      have hfirst : ∃ key out, m.stranger x = { m with ch := { m.ch with stranger := key }, out := out } := by
        unfold Cm.stranger
        dsimp only
        split
        · exact ⟨_, _, rfl⟩
        · exact ⟨_, _, rfl⟩
      obtain ⟨key', out', hfirst⟩ := hfirst
      refine ⟨key, out, hrest.trans ?_⟩
      rw [hfirst]

/-- Whatever strangers a return holds, the memory and the reports alone change. -/
theorem Cm.strangers_ch (xs : List Answer) (m : Cm) :
    ∃ key out, m.strangers xs = { m with ch := { m.ch with stranger := key }, out := out } := by
  by_cases h : xs = []
  · subst h
    exact ⟨none, _, rfl⟩
  · rw [Cm.strangers_of_some h]
    exact Cm.foldl_stranger_ch xs m

theorem Cm.strangers_state (xs : List Answer) (m : Cm) : (m.strangers xs).ch.state = m.ch.state := by
  obtain ⟨key, out, h⟩ := Cm.strangers_ch xs m
  rw [h]

theorem Cm.strangers_attempt (xs : List Answer) (m : Cm) : (m.strangers xs).ch.attempt = m.ch.attempt := by
  obtain ⟨key, out, h⟩ := Cm.strangers_ch xs m
  rw [h]

theorem Cm.strangers_of_known {m : Cm} {x : Answer} (h : m.ch.stranger = some (BitVec.ofNat 8 x.hop, BitVec.ofNat 8 x.address)) :
    m.strangers [x] = m := if_pos h

theorem Cm.strangers_of_new {m : Cm} {x : Answer} (h : m.ch.stranger ≠ some (BitVec.ofNat 8 x.hop, BitVec.ofNat 8 x.address)) :
    m.strangers [x] =
      (m.modify fun ch => { ch with stranger := some (BitVec.ofNat 8 x.hop, BitVec.ofNat 8 x.address) }).nodeReport
        (.stranger (BitVec.ofNat 8 x.hop) (if x.kind = .tile then 0 else 1)) x.address := if_neg h

/-- The queue with END restated: on at the hop that comes, and off at the trailer's (R44, log 52). -/
def Chain.restatedQueue (trailer : Nat) (ch : Chain) : List QEntry :=
  let coming := match ch.comingEnd with
    | some h => insertRepair ch.queue (Cmd.setEnd h true).repairEntry
    | none => ch.queue
  if ch.endHop = some trailer then ch.queue
  else if ch.comingEnd = some trailer then coming
  else insertRepair coming (Cmd.setEnd trailer false).repairEntry

theorem Cm.restate_of_end {m : Cm} {e : Nat} (hend : m.ch.endHop = some e) (hq : m.ch.queue.length ≤ 14) (trailer : Nat) :
    m.restate trailer = m.modify fun ch => { ch with queue := m.ch.restatedQueue trailer } := by
  unfold Cm.restate Chain.restatedQueue
  by_cases hsame : m.ch.endHop = some trailer
  · rw [if_pos (.inr hsame), if_pos hsame]
    rfl
  · rw [if_neg (by rw [hend] at hsame ⊢; simpa using hsame), if_neg hsame]
    cases hc : m.ch.comingEnd with
    | none =>
        dsimp only
        rw [if_neg nofun, if_neg nofun, Cm.offerRepair_of_room (Nat.lt_of_le_of_lt hq (by decide))]
        rfl
    | some h =>
        dsimp only
        rw [Cm.offerRepair_eq (Nat.lt_of_le_of_lt hq (by decide))]
        split_ifs with htrailer
        · rfl
        · rw [Cm.offerRepair_eq (by rw [Cm.modify_ch, Chain.offered_length]; omega)]
          rfl

theorem Cm.stateEffect_of_running {m : Cm} (ha : m.ch.attempt = none) (hs : m.ch.state = .running) (info : BundleInfo)
    (answers : List Answer) : m.stateEffect info answers = m := by
  rw [Cm.stateEffect, ha, hs]

/-- The handling of a return on a RUNNING chain with no attempt (R44). -/
theorem Cm.handleReturn_of_running {m : Cm} {info : BundleInfo} (hstate : m.ch.state = .running) (hattempt : m.ch.attempt = none)
    (hprobe : info.probe = none) (answers : List Answer) (trailer : Nat) :
    m.handleReturn info answers trailer =
      info.path.zipIdx.foldl (Cm.takePlace info answers)
        (((m.strangers (answers.filter fun x => !m.ch.matches info x)).modify Chain.unbroken).restate trailer) := by
  have hplain : (fun x : Answer => !info.atProbe x && !m.ch.matches info x) = fun x => !m.ch.matches info x := by
    funext x
    rw [BundleInfo.atProbe, hprobe]
    simp
  have hstate' (xs : List Answer) : (m.strangers xs).ch.state = .running := (Cm.strangers_state xs m).trans hstate
  have hattempt' (xs : List Answer) : (m.strangers xs).ch.attempt = none := (Cm.strangers_attempt xs m).trans hattempt
  have hsettled (xs : List Answer) : ((m.strangers xs).modify Chain.unbroken).ch.settled = true :=
    decide_eq_true ⟨hstate' xs, hattempt' xs⟩
  rw [Cm.handleReturn_eq, hplain]
  dsimp only
  rw [Cm.stateEffect_of_running (hattempt' _) (hstate' _), if_pos (hsettled _)]

/-- A return without a clash, and without a probe place, on a RUNNING chain with no attempt (R44). -/
theorem Cm.arrival_of_running {m : Cm} {info : BundleInfo} {blocks : List StatusBlock} (hstate : m.ch.state = .running)
    (hattempt : m.ch.attempt = none) (hprobe : info.probe = none)
    (hclash : ∀ x ∈ answersOf blocks, m.ch.clashes info x = false) (trailer : Nat) :
    m.arrival info blocks trailer =
      (info.path.zipIdx.foldl (Cm.takePlace info (answersOf blocks))
        ((((m.modify (Chain.withComplete blocks)).strangers ((answersOf blocks).filter fun x => !m.ch.matches info x)).modify
          Chain.unbroken).restate trailer)).endHandling := by
  rw [Cm.arrival_of_no_clash (fun x hx => .inr (hclash x hx))
    (Chain.probeClash_of_no_walk (Chain.walksOn_of_no_probe hprobe _) _),
    Cm.handleReturn_of_running (by exact hstate) (by exact hattempt) hprobe]
  rfl

theorem Cm.endHandling_of_none {m : Cm} (h : m.ch.lostHeld = []) : m.endHandling = m.emit (.notice .complete) := by
  rw [Cm.endHandling, Cm.flushLost_of_nil h]

end Sys2Proof.Machine
end

section
/-! A complete return of one node (R43 to R49). -/

namespace Sys2Proof.Machine

/-! ### What a block does to the record of its node (R45, R47, R48) -/

/-- A record as reports show it (R49). -/
def Chain.brief (ch : Chain) (n : Node) : NodeBrief :=
  { state := n.state, position := n.position, hop := ch.hop n, mode := n.mode, tag := n.tag, health := n.health }

theorem Cm.nodeReport_of_node {m : Cm} {a : Nat} {n : Node} (h : m.ch.node a = some n) (why : NodeCause) :
    m.nodeReport why a = m.emit (.report (.node why m.id a (some (m.ch.brief n)))) := by
  rw [Cm.nodeReport, h]
  rfl

theorem Cm.nodeReport_of_absent {m : Cm} {a : Nat} (h : m.ch.node a = none) (why : NodeCause) :
    m.nodeReport why a = m.emit (.report (.node why m.id a none)) := by
  rw [Cm.nodeReport, h]
  rfl

/-- A report shows nothing of a record's mismatch mark and counts. -/
theorem Chain.brief_setNode_congr {ch : Chain} (hlen : ch.nodes.length = 30) {a : Nat} (ha : isAddress a = true) {n n' : Node}
    (hstate : n.state = n'.state) (hpos : n.position = n'.position) (hmode : n.mode = n'.mode) (htag : n.tag = n'.tag)
    (hhealth : n.health = n'.health) : (ch.setNode a (some n)).brief n = (ch.setNode a (some n')).brief n' := by
  rw [Chain.brief, Chain.brief, Chain.hop_setNode_congr hlen ha hstate hpos, hstate, hpos, hmode, htag, hhealth]

/-- A Chain Manager with the record of a node replaced. -/
def Cm.put (a : Nat) (n : Node) (m : Cm) : Cm := m.modify fun ch => ch.setNode a (some n)

section Put
variable {m : Cm} {a : Nat}

@[simp] theorem Cm.put_ch (n : Node) : (m.put a n).ch = m.ch.setNode a (some n) := rfl

theorem Cm.put_node (hlen : m.ch.nodes.length = 30) (ha : isAddress a = true) (n : Node) : (m.put a n).ch.node a = some n :=
  Chain.node_setNode_same hlen ha _

theorem Cm.put_put (n n' : Node) : (m.put a n).put a n' = m.put a n' :=
  congrArg (fun ch => ({ m with ch := ch } : Cm)) (m.ch.setNode_setNode a _ _)

theorem Cm.updateNode_put (hlen : m.ch.nodes.length = 30) (ha : isAddress a = true) (n : Node) (f : Node → Node) :
    ((m.put a n).modify fun ch => ch.updateNode a f) = m.put a (f n) :=
  congrArg (fun ch => ({ m with ch := ch } : Cm)) (Chain.updateNode_setNode hlen ha n f)

theorem Cm.nodeReport_put (hlen : m.ch.nodes.length = 30) (ha : isAddress a = true) (n : Node) (why : NodeCause) :
    (m.put a n).nodeReport why a = (m.put a n).emit (.report (.node why m.id a (some ((m.ch.setNode a (some n)).brief n)))) :=
  Cm.nodeReport_of_node (Cm.put_node hlen ha n) why

theorem Cm.nodeReport_emit_put (hlen : m.ch.nodes.length = 30) (ha : isAddress a = true) (n : Node) (o : CmOut) (why : NodeCause) :
    ((m.put a n).emit o).nodeReport why a =
      ((m.put a n).emit o).emit (.report (.node why m.id a (some ((m.ch.setNode a (some n)).brief n)))) :=
  Cm.nodeReport_of_node (m := (m.put a n).emit o) (Cm.put_node hlen ha n) why

end Put

theorem Cm.modify_emit (f : Chain → Chain) (o : CmOut) (m : Cm) : (m.emit o).modify f = (m.modify f).emit o := rfl

/-- The reported mode agrees with a record's state (R48). -/
def Answer.Agrees (x : Answer) (n : Node) : Prop :=
  (x.mode = .live ∧ (n.state = .live ∨ n.state = .suspect)) ∨ (x.mode = .ident ∧ n.state = .ident)

/-- The reported identity is the recorded one, as far as both are known (R45). -/
def Answer.SameIdentity (x : Answer) (n : Node) : Prop := n.identity = none ∨ x.identity = none ∨ n.identity = x.identity

theorem Answer.Agrees.not_failed {x : Answer} {n : Node} (h : x.Agrees n) : (n.answered x).state ≠ .failed := by
  rcases h with ⟨-, hs | hs⟩ | ⟨-, hs⟩ <;> simp [Node.answered, hs]

section Answer
variable {m : Cm} {a : Nat} {n : Node} {x : Answer}

/-- A block that says what the record has. -/
theorem Cm.takeAnswer_of_same (hlen : m.ch.nodes.length = 30) (ha : isAddress a = true) (hagrees : x.Agrees n)
    (hhealth : n.health = x.health) (hid : x.SameIdentity n) :
    m.takeAnswer a n x = m.put a { n.answered x with mismatch := false } := by
  rw [Cm.takeAnswer_eq, Cm.compareIdentity_of_same hid, Cm.compareHealth_of_same hhealth,
    Cm.compareMode_of_consistent hagrees.not_failed (consistent_answered hagrees)]
  exact Cm.updateNode_put hlen ha _ _

/-- The block of a FAILED node: its state and counts stay. -/
theorem Cm.takeAnswer_of_failed (hfailed : n.state = .failed) (hhealth : n.health = x.health) (hid : x.SameIdentity n) :
    m.takeAnswer a n x = m.put a (n.answered x) := by
  rw [Cm.takeAnswer_eq, Cm.compareIdentity_of_same hid, Cm.compareHealth_of_same hhealth,
    Cm.compareMode_of_failed (by simp [Node.answered, hfailed])]
  rfl

/-- Another health set goes to the Scene Table and is reported (R47). -/
theorem Cm.takeAnswer_of_health (hlen : m.ch.nodes.length = 30) (ha : isAddress a = true) (hagrees : x.Agrees n)
    (hhealth : n.health ≠ x.health) (hid : x.SameIdentity n) :
    m.takeAnswer a n x =
      ((m.put a { n.heard x with mismatch := false }).emit (.clamp (.health a (overheat x.health)))).emit
        (.report (.node .health m.id a (some ((m.ch.setNode a (some { n.heard x with mismatch := false })).brief
          { n.heard x with mismatch := false })))) := by
  have hbrief := Chain.brief_setNode_congr hlen ha (n := n.heard x) (n' := { n.heard x with mismatch := false }) rfl rfl rfl rfl rfl
  rw [Cm.takeAnswer_eq, Cm.compareIdentity_of_same hid, Cm.compareHealth_of_other hhealth,
    Cm.compareMode_of_consistent hagrees.not_failed (consistent_answered hagrees),
    show (m.modify fun ch => ch.setNode a (some (n.answered x))) = m.put a (n.answered x) from rfl,
    Cm.updateNode_put hlen ha, show { n.answered x with health := x.health } = n.heard x from rfl,
    Cm.nodeReport_emit_put hlen ha, hbrief, Cm.modify_emit, Cm.modify_emit, Cm.updateNode_put hlen ha]

/-- Another identity is reported (R45). -/
theorem Cm.takeAnswer_of_identity (hlen : m.ch.nodes.length = 30) (ha : isAddress a = true) (hagrees : x.Agrees n)
    (hhealth : n.health = x.health) {old new : Identity} (hold : n.identity = some old) (hnew : x.identity = some new)
    (hne : old ≠ new) :
    m.takeAnswer a n x =
      (m.put a { n.answered x with mismatch := false }).emit
        (.report (.node (.replaced new) m.id a (some ((m.ch.setNode a (some { n.answered x with mismatch := false })).brief
          { n.answered x with mismatch := false })))) := by
  have hbrief := Chain.brief_setNode_congr hlen ha (n := n.answered x) (n' := { n.answered x with mismatch := false }) rfl rfl
    rfl rfl rfl
  rw [Cm.takeAnswer_eq, Cm.compareIdentity_of_other hold hnew hne, Cm.compareHealth_of_same hhealth,
    Cm.compareMode_of_consistent hagrees.not_failed (consistent_answered hagrees),
    show (m.modify fun ch => ch.setNode a (some (n.answered x))) = m.put a (n.answered x) from rfl,
    Cm.nodeReport_put hlen ha, hbrief, Cm.modify_emit, Cm.updateNode_put hlen ha]

/-- The first mode in a row that differs from the table is noted (R48). -/
theorem Cm.takeAnswer_of_first (hlen : m.ch.nodes.length = 30) (ha : isAddress a = true) (hagrees : ¬ x.Agrees n)
    (hfailed : n.state ≠ .failed) (hcut : n.state ≠ .cut) (hhealth : n.health = x.health) (hid : x.SameIdentity n)
    (hmis : n.mismatch = false) :
    m.takeAnswer a n x = m.put a { n.answered x with mismatch := true } := by
  have hf : (n.answered x).state ≠ .failed := by
    simp only [Node.answered]
    split
    · nofun
    · exact hfailed
  rw [Cm.takeAnswer_eq, Cm.compareIdentity_of_same hid, Cm.compareHealth_of_same hhealth,
    Cm.compareMode_of_first hf (not_consistent_answered hagrees hcut hfailed) hmis]
  exact Cm.updateNode_put hlen ha _ _

/-- The second one is a fault, and the table takes it (R48). -/
theorem Cm.takeAnswer_of_second (hlen : m.ch.nodes.length = 30) (ha : isAddress a = true) (hagrees : ¬ x.Agrees n)
    (hfailed : n.state ≠ .failed) (hcut : n.state ≠ .cut) (hhealth : n.health = x.health) (hid : x.SameIdentity n)
    (hmis : n.mismatch = true) :
    m.takeAnswer a n x =
      ((m.put a { n.answered x with state := x.mode.state, mismatch := false }).fault
          (.modeMismatch (n.answered x).state x.mode) (some a)).emit
        (.report (.node .mismatch m.id a (some
          ((m.ch.setNode a (some { n.answered x with state := x.mode.state, mismatch := false })).brief
            { n.answered x with state := x.mode.state, mismatch := false })))) := by
  have hf : (n.answered x).state ≠ .failed := by
    simp only [Node.answered]
    split
    · nofun
    · exact hfailed
  rw [Cm.takeAnswer_eq, Cm.compareIdentity_of_same hid, Cm.compareHealth_of_same hhealth,
    Cm.compareMode_of_second hf (not_consistent_answered hagrees hcut hfailed) hmis]
  have hset := Cm.updateNode_put (m := m) hlen ha (n.answered x) fun n => { n with state := n.mode.state, mismatch := false }
  have hput := congrArg (fun m : Cm => m.fault (.modeMismatch (n.answered x).state x.mode) (some a)) hset
  exact (congrArg (Cm.nodeReport .mismatch a) hput).trans (Cm.nodeReport_emit_put hlen ha _ _ _)

end Answer

end Sys2Proof.Machine
end

section
/-! A complete return of a chain with one node on its path (R43 to R49, R58). -/

namespace Sys2Proof.Machine

/-- The chain record with its return counted, no stranger and the break count 0 (R41, R43, R44). -/
def Chain.received (ch : Chain) : Chain :=
  { ch with collect := none, stranger := none, breakCount := 0,
            counters := { ch.counters with complete := bump16 ch.counters.complete } }

theorem Cm.restate_of_same {m : Cm} {trailer : Nat} (h : m.ch.endHop = some trailer) : m.restate trailer = m := if_pos (.inr h)

theorem answersOf_one {b : StatusBlock} (h : b.InRange) : answersOf [b] = [b.read] :=
  answersOf_of_inRange (fun _ hx => List.mem_singleton.1 hx ▸ h) (List.nodup_singleton _)

section One
variable {m : Cm} {info : BundleInfo} {a p : Nat} {n : Node}

/-- A return without strangers whose trailer names END. -/
theorem Cm.arrival_of_plain {blocks : List StatusBlock} {trailer : Nat} (hstate : m.ch.state = .running) (hattempt : m.ch.attempt = none)
    (hprobe : info.probe = none) (hend : m.ch.endHop = some trailer) (hblocks : ∀ b ∈ blocks, b.InRange)
    (hclash : ∀ x ∈ answersOf blocks, m.ch.clashes info x = false) (hmatch : ∀ x ∈ answersOf blocks, m.ch.matches info x = true) :
    m.arrival info blocks trailer =
      (info.path.zipIdx.foldl (Cm.takePlace info (answersOf blocks)) (m.modify Chain.received)).endHandling := by
  have hfilter : (answersOf blocks).filter (fun x => !m.ch.matches info x) = [] :=
    List.filter_eq_nil_iff.2 fun x hx => by rw [hmatch x hx]; exact Bool.false_ne_true
  have hcomplete : m.modify (Chain.withComplete blocks) =
      { m with ch := { m.ch with collect := none,
                                 counters := { m.ch.counters with complete := bump16 m.ch.counters.complete } } } := by
    rw [Cm.modify, Chain.withComplete_of_inRange hblocks]
  rw [Cm.arrival_of_running hstate hattempt hprobe hclash, hfilter, Cm.strangers_of_none, Cm.restate_of_same (by exact hend),
    hcomplete]
  rfl

theorem Cm.arrival_of_one_block {b : StatusBlock} (hstate : m.ch.state = .running) (hattempt : m.ch.attempt = none)
    (hprobe : info.probe = none) (hend : m.ch.endHop = some 1) (hpath : info.path = [{ position := p, address := some a }])
    (hn : m.ch.node a = some n) (hpos : n.position = p) (hcut : n.state ≠ .cut) (hb : b.InRange) (hhop : b.hop = 1)
    (haddr : b.address.toNat = a) (hkind : n.kindName = b.read.kind) :
    m.arrival info [b] 1 = ((m.modify Chain.received).takeAnswer a n b.read).endHandling := by
  have hplace : placeAt info.path b.read.hop = some { position := p, address := some a } := by
    rw [hpath, show b.read.hop = 1 from congrArg BitVec.toNat hhop]
    rfl
  have hnode : m.ch.node b.read.address = some n := by rw [show b.read.address = a from haddr, hn]
  have hmatch : m.ch.matches info b.read = true :=
    Chain.matches_iff.2 ⟨_, n, hplace, hnode, congrArg some haddr.symm, hkind⟩
  have hclash : m.ch.clashes info b.read = false := Chain.clashes_eq_false fun n' hn' => by
    obtain rfl := Option.some.inj (hnode.symm.trans hn')
    exact ⟨_, hplace, hpos.symm⟩
  have hfind : [b.read].find? (fun x => decide (x.hop = 0 + 1) && (m.modify Chain.received).ch.matches info x) = some b.read := by
    have hpred : (decide (b.read.hop = 0 + 1) && (m.modify Chain.received).ch.matches info b.read) = true := by
      rw [show (m.modify Chain.received).ch.matches = m.ch.matches from rfl, hmatch, Bool.and_true]
      exact decide_eq_true (congrArg BitVec.toNat hhop)
    rw [List.find?_cons, hpred]
  rw [Cm.arrival_of_plain hstate hattempt hprobe hend (fun x hx => List.mem_singleton.1 hx ▸ hb), answersOf_one hb, hpath]
  · exact congrArg Cm.endHandling (Cm.takePlace_of_answer (p := { position := p, address := some a }) rfl (by exact hn) hcut hfind)
  · rw [answersOf_one hb]
    exact fun x hx => List.mem_singleton.1 hx ▸ hclash
  · rw [answersOf_one hb]
    exact fun x hx => List.mem_singleton.1 hx ▸ hmatch

theorem Cm.arrival_of_one_silent (hstate : m.ch.state = .running) (hattempt : m.ch.attempt = none)
    (hprobe : info.probe = none) (hend : m.ch.endHop = some 1) (hpath : info.path = [{ position := p, address := some a }])
    (hn : m.ch.node a = some n) (hreach : n.state.reachable = true) :
    m.arrival info [] 1 = ((m.modify Chain.received).takeSilence info.path 1 a n).endHandling := by
  rw [Cm.arrival_of_plain hstate hattempt hprobe hend (fun _ h => absurd h List.not_mem_nil) (fun _ h => absurd h List.not_mem_nil)
    fun _ h => absurd h List.not_mem_nil]
  refine congrArg Cm.endHandling ((congrArg (List.foldl _ _ ·) (congrArg List.zipIdx hpath)).trans ?_)
  exact Cm.takePlace_of_inside (p := { position := p, address := some a }) rfl (by exact hn) hreach (by exact hend)
    (Nat.le_refl 1) List.find?_nil

end One

/-! ### The record of a node that was heard -/

/-- The record of a node that gave its block, but for its health and its mismatch count, where it is not FAILED (R45). -/
theorem Node.answered_of_not_failed {n : Node} (h : n.state ≠ .failed) (x : Answer) :
    n.answered x = { n with silent := 0, state := if n.state = .suspect then .live else n.state, mode := x.mode, tag := x.tag,
                            gen := x.gen.or n.gen, identity := x.identity.or n.identity } := by
  rw [Node.answered, if_neg h]

theorem Node.answered_of_failed {n : Node} (h : n.state = .failed) (x : Answer) :
    n.answered x = { n with state := if n.state = .suspect then .live else n.state, mode := x.mode, tag := x.tag,
                            gen := x.gen.or n.gen, identity := x.identity.or n.identity } := by
  rw [Node.answered, if_pos h]

/-- The block of a node at hop 1 with a look generation. -/
def nodeBlock (a : Nat) (kb : Byte) (mode : NodeMode) (tag : Byte) (gen : BitVec 4) (f : Byte) (identity : Option Identity) :
    StatusBlock :=
  { hop := 1, address := BitVec.ofNat 8 a, kind := kb, mode := if mode = .ident then 0 else 1, tag := tag,
    gen := gen.setWidth 8, health := f, identity := identity }

theorem toNat_setWidth_le (gen : BitVec 4) : (gen.setWidth 8).toNat ≤ 15 := by
  have := gen.isLt
  rw [BitVec.toNat_setWidth]
  omega

section Block
variable {a : Nat} {kb tag f : Byte} {mode : NodeMode} {gen : BitVec 4} {identity : Option Identity}

theorem nodeBlock_address (ha : a ≤ 30) : (nodeBlock a kb mode tag gen f identity).address.toNat = a := by
  rw [nodeBlock, BitVec.toNat_ofNat]
  omega

theorem nodeBlock_inRange (h1 : 1 ≤ a) (h30 : a ≤ 30) (hk : kb = 0 ∨ kb = 1) (hf : f.toNat ≤ 15) :
    (nodeBlock a kb mode tag gen f identity).InRange where
  hop := ⟨Nat.le_refl 1, Nat.le_add_left 1 30⟩
  address := by
    rw [nodeBlock_address h30]
    exact ⟨h1, h30⟩
  kind := by rcases hk with rfl | rfl <;> exact Nat.le_of_ble_eq_true rfl
  mode := by cases mode <;> exact Nat.le_of_ble_eq_true rfl
  gen := .inr (toNat_setWidth_le gen)
  health := hf

theorem nodeBlock_read (h30 : a ≤ 30) {kd : KindName} (hk : (kb = 0 ∧ kd = .tile) ∨ (kb = 1 ∧ kd = .lamp)) :
    (nodeBlock a kb mode tag gen f identity).read =
      { hop := 1, address := a, kind := kd, mode := mode, tag := tag, gen := some gen, health := f.setWidth 4,
        identity := identity } := by
  have hkind : (if kb = 0 then KindName.tile else .lamp) = kd := by rcases hk with ⟨rfl, rfl⟩ | ⟨rfl, rfl⟩ <;> rfl
  have hmode : (if (if mode = .ident then (0 : Byte) else 1) = 0 then NodeMode.ident else .live) = mode := by cases mode <;> rfl
  have hgen : gen.setWidth 8 ≠ (0xFF : Byte) := fun h => by
    have hle := toNat_setWidth_le gen
    rw [h] at hle
    exact absurd hle (by decide)
  have hback : (gen.setWidth 8).setWidth 4 = gen := by
    refine BitVec.eq_of_toNat_eq ?_
    have := gen.isLt
    rw [BitVec.toNat_setWidth, BitVec.toNat_setWidth]
    omega
  have haddr : (nodeBlock a kb mode tag gen f identity).address.toNat = a := nodeBlock_address h30
  have hfields : (nodeBlock a kb mode tag gen f identity).read =
      { hop := 1, address := (nodeBlock a kb mode tag gen f identity).address.toNat, kind := if kb = 0 then .tile else .lamp,
        mode := if (if mode = .ident then (0 : Byte) else 1) = 0 then .ident else .live, tag := tag,
        gen := if gen.setWidth 8 = (0xFF : Byte) then none else some ((gen.setWidth 8).setWidth 4), health := f.setWidth 4,
        identity := identity } := rfl
  rw [hfields, haddr, hkind, hmode, if_neg hgen, hback]

end Block

end Sys2Proof.Machine
end

section
/-! A return of any number of nodes, each of which says what its record has or is silent below its limit (R44 to R46). -/

namespace Sys2Proof.Machine

/-- A place of the path with its node: the address, the record, the block that the node gave, and the number of the places
before it. -/
abbrev Visit : Type := (Nat × Node × Option StatusBlock) × Nat

/-- The record of a visited node behind the return (R45, R46). -/
def recordAfter (e : Nat) (v : Visit) : Node :=
  match v.1.2.2 with
  | some b => { v.1.2.1.answered b.read with mismatch := false }
  | none => if v.2 + 1 ≤ e then v.1.2.1.unanswered else v.1.2.1

theorem recordAfter_of_block {e i a : Nat} {n : Node} {b : StatusBlock} :
    recordAfter e ((a, n, some b), i) = { n.answered b.read with mismatch := false } := rfl

theorem recordAfter_of_inside {e i a : Nat} {n : Node} (h : i + 1 ≤ e) : recordAfter e ((a, n, none), i) = n.unanswered := if_pos h

theorem recordAfter_of_outside {e i a : Nat} {n : Node} (h : e < i + 1) : recordAfter e ((a, n, none), i) = n :=
  if_neg (Nat.not_le.2 h)

theorem recordAfter_kindName (e : Nat) (v : Visit) : (recordAfter e v).kindName = v.1.2.1.kindName := by
  obtain ⟨⟨a, n, o⟩, i⟩ := v
  cases o with
  | some b => rfl
  | none =>
      rw [recordAfter]
      dsimp only
      split <;> rfl

/-- The answer that belongs to a place: of its hop, and matched (R43). -/
def Chain.answerAt (ch : Chain) (info : BundleInfo) (answers : List Answer) (i : Nat) : Option Answer :=
  answers.find? fun x => decide (x.hop = i + 1) && ch.matches info x

/-- A visited node does nothing that is reported: its block says what its record has, or it is silent below its limit. -/
structure Quiet (info : BundleInfo) (answers : List Answer) (ch : Chain) (e : Nat) (v : Visit) : Prop where
  node : ch.node v.1.1 = some v.1.2.1
  reachable : v.1.2.1.state.reachable = true
  heard : ∀ b, v.1.2.2 = some b → ch.answerAt info answers v.2 = some b.read ∧ b.read.Agrees v.1.2.1 ∧
    v.1.2.1.health = b.read.health ∧ b.read.SameIdentity v.1.2.1
  silent : v.1.2.2 = none → ch.answerAt info answers v.2 = none ∧
    (v.2 + 1 ≤ e → v.1.2.1.silent < 15 ∧ v.1.2.1.silent + 1 < ch.silentLimit)

/-- The place of a visited node. -/
def Visit.place (v : Visit) : Place × Nat := ({ position := v.1.2.1.position, address := some v.1.1 }, v.2)

section
variable {info : BundleInfo} {answers : List Answer} {ch : Chain} {e : Nat}

theorem Cm.takePlace_of_quiet {m : Cm} {v : Visit} (hv : Quiet info answers ch e v) (hlen : m.ch.nodes.length = 30)
    (hkinds : m.ch.kindAt = ch.kindAt) (hlimit : m.ch.silentLimit = ch.silentLimit) (hend : m.ch.endHop = some e)
    (hn : m.ch.node v.1.1 = some v.1.2.1) : m.takePlace info answers v.place = m.put v.1.1 (recordAfter e v) := by
  obtain ⟨⟨a, n, o⟩, i⟩ := v
  have ha := Chain.isAddress_of_node hn
  have hcut : n.state ≠ .cut := fun hc => nomatch hc ▸ hv.reachable
  have hanswer : answers.find? (fun x => decide (x.hop = i + 1) && m.ch.matches info x) = ch.answerAt info answers i := by
    rw [Chain.matches_congr hkinds]
    rfl
  cases o with
  | some b =>
      obtain ⟨hx, hagrees, hhealth, hid⟩ := hv.heard b rfl
      rw [Visit.place, Cm.takePlace_of_answer rfl hn hcut (hanswer.trans hx), Cm.takeAnswer_of_same hlen ha hagrees hhealth hid]
      rfl
  | none =>
      obtain ⟨hx, hfew⟩ := hv.silent rfl
      by_cases hi : i + 1 ≤ e
      · obtain ⟨h15, hfew⟩ := hfew hi
        rw [Visit.place, Cm.takePlace_of_inside rfl hn hv.reachable hend hi (hanswer.trans hx),
          Cm.takeSilence_of_few h15 (hlimit ▸ hfew), recordAfter_of_inside hi]
        rfl
      · have hi' := Nat.not_le.1 hi
        rw [Visit.place, Cm.takePlace_of_outside rfl hn hcut hend hi' (hanswer.trans hx), recordAfter_of_outside hi', Cm.put,
          Cm.modify, Chain.setNode_same hn]

/-- The table with the record of every visited node replaced. -/
def Chain.putAll (e : Nat) (l : List Visit) (ch : Chain) : Chain :=
  l.foldl (fun ch v => ch.setNode v.1.1 (some (recordAfter e v))) ch

theorem Cm.foldl_takePlace_of_quiet {l : List Visit} (hquiet : ∀ v ∈ l, Quiet info answers ch e v)
    (hnodup : (l.map fun v => v.1.1).Nodup) : ∀ {m : Cm}, m.ch.nodes.length = 30 → m.ch.kindAt = ch.kindAt →
      m.ch.silentLimit = ch.silentLimit → m.ch.endHop = some e → (∀ v ∈ l, m.ch.node v.1.1 = some v.1.2.1) →
      (l.map Visit.place).foldl (Cm.takePlace info answers) m = m.modify (Chain.putAll e l) := by
  induction l with
  | nil => exact fun _ _ _ _ _ => rfl
  | cons v l ih =>
      intro m hlen hkinds hlimit hend hnodes
      obtain ⟨hv, hl⟩ := List.nodup_cons.1 hnodup
      have hn := hnodes v List.mem_cons_self
      have ha := Chain.isAddress_of_node hn
      rw [List.map_cons, List.foldl_cons,
        Cm.takePlace_of_quiet (hquiet v List.mem_cons_self) hlen hkinds hlimit hend hn]
      refine ih (fun w hw => hquiet w (List.mem_cons_of_mem _ hw)) hl ?_ ?_ hlimit hend fun w hw => ?_
      · exact (List.length_set ..).trans hlen
      · exact (Chain.kindAt_setNode hlen hn (recordAfter_kindName e v)).trans hkinds
      · have hne : w.1.1 ≠ v.1.1 := fun h => hv (List.mem_map.2 ⟨w, hw, h⟩)
        exact (Chain.node_setNode_ne ha hne _).trans (hnodes w (List.mem_cons_of_mem _ hw))

end

/-! ### The table behind the return -/

theorem Chain.putAll_eq (e : Nat) (l : List Visit) (ch : Chain) : ch.putAll e l = { ch with nodes := (ch.putAll e l).nodes } := by
  induction l generalizing ch with
  | nil => rfl
  | cons v l ih => exact ih _

theorem Chain.putAll_length (e : Nat) (l : List Visit) (ch : Chain) : (ch.putAll e l).nodes.length = ch.nodes.length := by
  induction l generalizing ch with
  | nil => rfl
  | cons v l ih => exact (ih _).trans (List.length_set ..)

/-- The record of an address behind the return: its visit's, if it was visited. -/
theorem Chain.node_putAll {ch : Chain} {e : Nat} {l : List Visit} (hlen : ch.nodes.length = 30)
    (haddr : ∀ v ∈ l, isAddress v.1.1 = true) (hnodup : (l.map fun v => v.1.1).Nodup) (a : Nat) :
    (ch.putAll e l).node a = ((l.find? fun v => decide (v.1.1 = a)).map (recordAfter e)).or (ch.node a) := by
  induction l generalizing ch with
  | nil => rfl
  | cons v l ih =>
      obtain ⟨hv, hl⟩ := List.nodup_cons.1 hnodup
      have ha := haddr v List.mem_cons_self
      have hrest := ih (ch := ch.setNode v.1.1 (some (recordAfter e v))) ((List.length_set ..).trans hlen)
        (fun w hw => haddr w (List.mem_cons_of_mem _ hw)) hl
      refine hrest.trans ?_
      by_cases h : v.1.1 = a
      · have hnone : l.find? (fun w => decide (w.1.1 = a)) = none := List.find?_eq_none.2 fun w hw hwa =>
          hv (List.mem_map.2 ⟨w, hw, (of_decide_eq_true hwa).trans h.symm⟩)
        rw [hnone, List.find?_cons_of_pos (p := fun w : Visit => decide (w.1.1 = a)) (decide_eq_true h)]
        exact h ▸ Chain.node_setNode_same hlen ha _
      · rw [List.find?_cons_of_neg (p := fun w : Visit => decide (w.1.1 = a)) (by simpa using h),
          Chain.node_setNode_ne ha (Ne.symm h)]

/-- A table of thirty records, address by address. -/
theorem Chain.nodes_eq {ch : Chain} (hlen : ch.nodes.length = 30) : ch.nodes = (List.range 30).map fun j => ch.node (j + 1) := by
  refine List.ext_getElem (by simp [hlen]) fun j hj hj' => ?_
  have hj30 : j < 30 := hlen ▸ hj
  rw [List.getElem_map, List.getElem_range, Chain.node, if_pos (isAddress_of (Nat.le_add_left 1 j) hj30), Nat.add_sub_cancel,
    List.getD_eq_getElem?_getD, List.getElem?_eq_getElem hj]
  rfl

end Sys2Proof.Machine
end

section
/-! The blocks of a return that any number of nodes and perhaps a stranger gave (R43). -/

namespace Sys2Proof.Machine

/-- The kind byte of a node's own block (R199). -/
def Node.kindByte (n : Node) : Byte := if n.kindName = .tile then 0 else 1

theorem Node.kindByte_le (n : Node) : n.kindByte.toNat ≤ 1 := by
  rw [Node.kindByte]
  split
  · exact Nat.zero_le 1
  · exact Nat.le_refl 1

/-- A kind byte in range names a node's kind when it is its own. -/
theorem kindByte_eq_iff {b : StatusBlock} (hb : b.kind.toNat ≤ 1) (n : Node) : n.kindName = b.read.kind ↔ b.kind = n.kindByte := by
  have hkind : b.kind = 0 ∨ b.kind = 1 :=
    (Nat.le_one_iff_eq_zero_or_eq_one.1 hb).imp (fun h => BitVec.eq_of_toNat_eq h) fun h => BitVec.eq_of_toNat_eq h
  rw [show b.read.kind = if b.kind = 0 then .tile else .lamp from rfl, Node.kindByte]
  rcases hkind with h | h <;> cases n.kindName <;> simp [h]

/-- An element that a search finds because no other satisfies its condition. -/
theorem find?_eq_of_unique {α : Type} {l : List α} {p : α → Bool} {y : α} (hy : y ∈ l) (hp : p y = true)
    (h : ∀ z ∈ l, p z = true → z = y) : l.find? p = some y := by
  obtain ⟨z, hz⟩ := Option.isSome_iff_exists.1 (List.find?_isSome.2 ⟨y, hy, hp⟩)
  rw [hz, h z (List.mem_of_find?_eq_some hz) (List.find?_some hz)]

/-- The nodes on a path with the blocks that they gave, and perhaps a stranger's: what the blocks of a return are. -/
structure ManyNodes (ch : Chain) (info : BundleInfo) (blocks : List StatusBlock) (xs : List (Nat × Node × Option StatusBlock))
    (strange : Option StatusBlock) (e : Nat) : Prop where
  short : xs.length ≤ 30
  path : info.path = xs.map fun x => { position := x.2.1.position, address := some x.1 }
  nodup : (xs.map fun x => x.1).Nodup
  nodes : ∀ x ∈ xs, 1 ≤ x.1 ∧ x.1 ≤ 30 ∧ ch.node x.1 = some x.2.1 ∧
    (x.2.1.state = .ident ∨ x.2.1.state = .live ∨ x.2.1.state = .suspect)
  perm : blocks.Perm (xs.filterMap (fun x => x.2.2) ++ strange.toList)
  heard : ∀ x i b, (x, i) ∈ xs.zipIdx → x.2.2 = some b →
    b.hop.toNat = i + 1 ∧ b.address.toNat = x.1 ∧ b.kind = x.2.1.kindByte ∧
    b.mode = (if x.2.1.state = .ident then 0 else 1) ∧ (b.gen = 0xFF ∨ b.gen.toNat ≤ 15) ∧
    b.health = x.2.1.health.setWidth 8 ∧ (x.2.1.identity = none ∨ b.identity = none ∨ x.2.1.identity = b.identity)
  silent : ∀ x i, (x, i) ∈ xs.zipIdx → x.2.2 = none → i + 1 ≤ e → x.2.1.silent < 15 ∧ x.2.1.silent + 1 < ch.silentLimit
  stranger : ∀ b, strange = some b →
    1 ≤ b.hop.toNat ∧ b.hop.toNat ≤ 31 ∧ 1 ≤ b.address.toNat ∧ b.address.toNat ≤ 30 ∧ b.kind.toNat ≤ 1 ∧
    b.mode.toNat ≤ 1 ∧ (b.gen = 0xFF ∨ b.gen.toNat ≤ 15) ∧ b.health.toNat ≤ 15 ∧
    (∀ x i, (x, i) ∈ xs.zipIdx → i + 1 = b.hop.toNat → x.2.2 = none) ∧
    (ch.node b.address.toNat = none ∨
      ∃ x i, (x, i) ∈ xs.zipIdx ∧ i + 1 = b.hop.toNat ∧ x.1 = b.address.toNat ∧ b.kind ≠ x.2.1.kindByte)

section
variable {ch : Chain} {info : BundleInfo} {blocks : List StatusBlock} {xs : List (Nat × Node × Option StatusBlock)}
  {strange : Option StatusBlock} {e : Nat}

theorem ManyNodes.node (h : ManyNodes ch info blocks xs strange e) {v : Visit} (hv : v ∈ xs.zipIdx) :
    isAddress v.1.1 = true ∧ ch.node v.1.1 = some v.1.2.1 ∧ v.1.2.1.state.reachable = true := by
  obtain ⟨h1, h30, hn, hstate⟩ := h.nodes v.1 (List.fst_mem_of_mem_zipIdx hv)
  exact ⟨isAddress_of h1 h30, hn, v.1.2.1.state.reachable_iff.2 hstate⟩

theorem ManyNodes.place (h : ManyNodes ch info blocks xs strange e) {v : Visit} (hv : v ∈ xs.zipIdx) :
    placeAt info.path (v.2 + 1) = some v.place.1 := by
  have hget := List.mem_zipIdx_iff_getElem?.1 hv
  rw [h.path, placeAt, if_neg (Nat.succ_ne_zero _), Nat.add_sub_cancel, List.getElem?_map, hget]
  rfl

/-- Two visits of one hop are one. -/
theorem visit_unique {v w : Visit} (hv : v ∈ xs.zipIdx) (hw : w ∈ xs.zipIdx) (h : v.2 = w.2) : v = w := by
  have hv' := List.mem_zipIdx_iff_getElem?.1 hv
  have hw' := List.mem_zipIdx_iff_getElem?.1 hw
  exact Prod.ext (Option.some.inj (hv'.symm.trans (h ▸ hw'))) h

theorem ManyNodes.mem_blocks (h : ManyNodes ch info blocks xs strange e) {b : StatusBlock} :
    b ∈ blocks ↔ (∃ v ∈ xs.zipIdx, v.1.2.2 = some b) ∨ strange = some b := by
  rw [h.perm.mem_iff, List.mem_append, List.mem_filterMap, Option.mem_toList]
  refine or_congr ⟨fun ⟨x, hx, hb⟩ => ?_, fun ⟨v, hv, hb⟩ => ⟨v.1, List.fst_mem_of_mem_zipIdx hv, hb⟩⟩ Iff.rfl
  obtain ⟨i, hi⟩ := List.mem_iff_getElem?.1 hx
  exact ⟨(x, i), List.mem_zipIdx_iff_getElem?.2 hi, hb⟩

/-- A node's own block. -/
theorem ManyNodes.heard_inRange (h : ManyNodes ch info blocks xs strange e) {v : Visit} (hv : v ∈ xs.zipIdx) {b : StatusBlock}
    (hb : v.1.2.2 = some b) : b.InRange := by
  obtain ⟨h1, h30, -⟩ := h.nodes v.1 (List.fst_mem_of_mem_zipIdx hv)
  obtain ⟨hhop, haddr, hkind, hmode, hgen, hhealth, -⟩ := h.heard v.1 v.2 b hv hb
  have hlt : v.2 < xs.length := (List.getElem?_eq_some_iff.1 (List.mem_zipIdx_iff_getElem?.1 hv)).1
  have hshort := h.short
  refine ⟨by omega, by omega, hkind ▸ v.1.2.1.kindByte_le, ?_, hgen, hhealth ▸ toNat_setWidth_le _⟩
  rw [hmode]
  split
  · exact Nat.zero_le 1
  · exact Nat.le_refl 1

theorem ManyNodes.inRange (h : ManyNodes ch info blocks xs strange e) {b : StatusBlock} (hb : b ∈ blocks) : b.InRange := by
  rcases h.mem_blocks.1 hb with ⟨v, hv, hvb⟩ | hs
  · exact h.heard_inRange hv hvb
  · obtain ⟨hlo, hhi, halo, hahi, hkind, hmode, hgen, hhealth, -⟩ := h.stranger b hs
    exact ⟨⟨hlo, hhi⟩, ⟨halo, hahi⟩, hkind, hmode, hgen, hhealth⟩

theorem ManyNodes.hops_nodup (h : ManyNodes ch info blocks xs strange e) : (blocks.map StatusBlock.hop).Nodup := by
  have hzip : xs.filterMap (fun x => x.2.2) = xs.zipIdx.filterMap fun v => v.1.2.2 := by
    conv_lhs => rw [← List.zipIdx_map_fst 0 xs, List.filterMap_map]
    rfl
  have hindex : xs.zipIdx.Pairwise fun v w => v.2 ≠ w.2 := by
    have hnodup : (xs.zipIdx.map Prod.snd).Nodup := by
      rw [List.zipIdx_map_snd]
      exact List.nodup_range'
    exact List.pairwise_map.1 hnodup
  have hheard : ((xs.filterMap fun x => x.2.2).map StatusBlock.hop).Nodup := by
    rw [hzip]
    refine List.pairwise_map.2 (List.pairwise_filterMap.2 (hindex.imp_of_mem fun {v w} hv hw hne b hb b' hb' heq => hne ?_))
    have hb1 := (h.heard v.1 v.2 b hv hb).1
    have hb2 := (h.heard w.1 w.2 b' hw hb').1
    rw [heq] at hb1
    omega
  rw [(h.perm.map StatusBlock.hop).nodup_iff, List.map_append, List.nodup_append]
  refine ⟨hheard, ?_, fun k hk k' hk' heq => ?_⟩
  · cases strange with
    | none => exact List.nodup_nil
    | some b => exact List.nodup_singleton _
  · subst heq
    obtain ⟨b, hb, rfl⟩ := List.mem_map.1 hk
    obtain ⟨b', hb', hhop⟩ := List.mem_map.1 hk'
    rw [hzip] at hb
    obtain ⟨v, hv, hvb⟩ := List.mem_filterMap.1 hb
    obtain ⟨-, -, -, -, -, -, -, -, hfree, -⟩ := h.stranger b' (Option.mem_toList.1 hb')
    have hnone := hfree v.1 v.2 hv (by rw [hhop]; exact (h.heard v.1 v.2 b hv hvb).1.symm)
    exact nomatch hnone.symm.trans hvb

theorem ManyNodes.answers (h : ManyNodes ch info blocks xs strange e) : answersOf blocks = blocks.map StatusBlock.read :=
  answersOf_of_inRange (fun _ => h.inRange) h.hops_nodup

theorem ManyNodes.heard_matches (h : ManyNodes ch info blocks xs strange e) {v : Visit} (hv : v ∈ xs.zipIdx) {b : StatusBlock}
    (hb : v.1.2.2 = some b) : ch.matches info b.read = true := by
  obtain ⟨hhop, haddr, hkind, -⟩ := h.heard v.1 v.2 b hv hb
  refine Chain.matches_iff.2 ⟨v.place.1, v.1.2.1, ?_, ?_, congrArg some haddr.symm, ?_⟩
  · rw [show b.read.hop = v.2 + 1 from hhop]
    exact h.place hv
  · rw [show b.read.address = v.1.1 from haddr]
    exact (h.node hv).2.1
  · exact (kindByte_eq_iff (h.heard_inRange hv hb).kind _).2 hkind

theorem ManyNodes.stranger_not_matches (h : ManyNodes ch info blocks xs strange e) {b : StatusBlock} (hb : strange = some b) :
    ch.matches info b.read = false := by
  obtain ⟨-, -, -, -, hkind, -, -, -, -, hnone | ⟨x, i, hx, hi, hxa, hne⟩⟩ := h.stranger b hb
  · refine Bool.eq_false_iff.2 fun hm => ?_
    obtain ⟨p, n, -, hn, -⟩ := Chain.matches_iff.1 hm
    exact nomatch hnone.symm.trans hn
  · refine Bool.eq_false_iff.2 fun hm => ?_
    obtain ⟨p, n, -, hn, -, hk⟩ := Chain.matches_iff.1 hm
    have hn' : ch.node b.address.toNat = some x.2.1 := hxa ▸ (h.node hx).2.1
    obtain rfl := Option.some.inj (hn.symm.trans hn')
    exact hne ((kindByte_eq_iff hkind _).1 hk)

theorem ManyNodes.not_clashes (h : ManyNodes ch info blocks xs strange e) {b : StatusBlock} (hb : b ∈ blocks) :
    ch.clashes info b.read = false := by
  refine Chain.clashes_eq_false fun n hn => ?_
  have hplaced {v : Visit} (hv : v ∈ xs.zipIdx) (hhop : b.hop.toNat = v.2 + 1) (haddr : b.address.toNat = v.1.1) :
      ∃ p, placeAt info.path b.read.hop = some p ∧ p.position = n.position := by
    have hn' : ch.node b.address.toNat = some v.1.2.1 := haddr ▸ (h.node hv).2.1
    obtain rfl := Option.some.inj (hn.symm.trans hn')
    exact ⟨v.place.1, by rw [show b.read.hop = v.2 + 1 from hhop, h.place hv], rfl⟩
  rcases h.mem_blocks.1 hb with ⟨v, hv, hvb⟩ | hs
  · obtain ⟨hhop, haddr, -⟩ := h.heard v.1 v.2 b hv hvb
    exact hplaced hv hhop haddr
  · obtain ⟨-, -, -, -, -, -, -, -, -, hnone | ⟨x, i, hx, hi, hxa, -⟩⟩ := h.stranger b hs
    · exact nomatch hnone.symm.trans hn
    · exact hplaced hx hi.symm hxa.symm

/-- The strangers of the return: its stranger block alone. -/
theorem ManyNodes.strangers (h : ManyNodes ch info blocks xs strange e) :
    (answersOf blocks).filter (fun x => !ch.matches info x) = strange.toList.map StatusBlock.read := by
  have hperm := (h.perm.map StatusBlock.read).filter fun x => !ch.matches info x
  have hheard : ((xs.filterMap fun x => x.2.2).map StatusBlock.read).filter (fun x => !ch.matches info x) = [] := by
    refine List.filter_eq_nil_iff.2 fun y hy => ?_
    obtain ⟨b, hb, rfl⟩ := List.mem_map.1 hy
    obtain ⟨x, hx, hxb⟩ := List.mem_filterMap.1 hb
    obtain ⟨i, hi⟩ := List.mem_iff_getElem?.1 hx
    rw [h.heard_matches (v := (x, i)) (List.mem_zipIdx_iff_getElem?.2 hi) hxb]
    exact Bool.false_ne_true
  have hstrange : (strange.toList.map StatusBlock.read).filter (fun x => !ch.matches info x) = strange.toList.map StatusBlock.read := by
    refine List.filter_eq_self.2 fun y hy => ?_
    obtain ⟨b, hb, rfl⟩ := List.mem_map.1 hy
    rw [h.stranger_not_matches (Option.mem_toList.1 hb)]
    rfl
  rw [List.map_append, List.filter_append, hheard, hstrange, List.nil_append] at hperm
  rw [h.answers]
  cases strange with
  | none => exact hperm.eq_nil
  | some b => exact List.perm_singleton.1 hperm

/-- The block at a hop is the one that its node gave. -/
theorem ManyNodes.block_unique (h : ManyNodes ch info blocks xs strange e) {v : Visit} (hv : v ∈ xs.zipIdx) {b : StatusBlock}
    (hb : b ∈ blocks) (hhop : b.hop.toNat = v.2 + 1) (hmatch : ch.matches info b.read = true) : v.1.2.2 = some b := by
  rcases h.mem_blocks.1 hb with ⟨w, hw, hwb⟩ | hs
  · have hindex : w.2 = v.2 := Nat.succ.inj ((h.heard w.1 w.2 b hw hwb).1.symm.trans hhop)
    rw [← visit_unique hw hv hindex]
    exact hwb
  · exact nomatch (h.stranger_not_matches hs).symm.trans hmatch

theorem ManyNodes.answerAt_of_heard (h : ManyNodes ch info blocks xs strange e) {v : Visit} (hv : v ∈ xs.zipIdx)
    {b : StatusBlock} (hb : v.1.2.2 = some b) : ch.answerAt info (answersOf blocks) v.2 = some b.read := by
  rw [h.answers]
  refine find?_eq_of_unique (List.mem_map_of_mem (h.mem_blocks.2 (.inl ⟨v, hv, hb⟩))) ?_ fun y hy hp => ?_
  · rw [h.heard_matches hv hb, Bool.and_true]
    exact decide_eq_true (h.heard v.1 v.2 b hv hb).1
  · obtain ⟨b', hb', rfl⟩ := List.mem_map.1 hy
    obtain ⟨hhop, hmatch⟩ := (Bool.and_eq_true _ _).mp hp
    have hsame := h.block_unique hv hb' (of_decide_eq_true hhop) hmatch
    rw [Option.some.inj (hsame.symm.trans hb)]

theorem ManyNodes.answerAt_of_silent (h : ManyNodes ch info blocks xs strange e) {v : Visit} (hv : v ∈ xs.zipIdx)
    (hnone : v.1.2.2 = none) : ch.answerAt info (answersOf blocks) v.2 = none := by
  rw [h.answers]
  refine List.find?_eq_none.2 fun y hy hp => ?_
  obtain ⟨b', hb', rfl⟩ := List.mem_map.1 hy
  obtain ⟨hhop, hmatch⟩ := (Bool.and_eq_true _ _).mp hp
  exact nomatch hnone.symm.trans (h.block_unique hv hb' (of_decide_eq_true hhop) hmatch)

theorem ManyNodes.quiet (h : ManyNodes ch info blocks xs strange e) {v : Visit} (hv : v ∈ xs.zipIdx) :
    Quiet info (answersOf blocks) ch e v := by
  obtain ⟨-, hn, hreach⟩ := h.node hv
  refine ⟨hn, hreach, fun b hb => ?_, fun hnone => ⟨h.answerAt_of_silent hv hnone, h.silent v.1 v.2 hv hnone⟩⟩
  obtain ⟨-, -, -, hmode, -, hhealth, hid⟩ := h.heard v.1 v.2 b hv hb
  refine ⟨h.answerAt_of_heard hv hb, ?agrees, ?health, hid⟩
  case agrees =>
    have hread : b.read.mode = if b.mode = 0 then .ident else .live := rfl
    rcases v.1.2.1.state.reachable_iff.1 hreach with hs | hs | hs
    · exact .inr ⟨by rw [hread, hmode, hs]; rfl, hs⟩
    · exact .inl ⟨by rw [hread, hmode, hs]; rfl, .inl hs⟩
    · exact .inl ⟨by rw [hread, hmode, hs]; rfl, .inr hs⟩
  case health =>
    rw [show b.read.health = b.health.setWidth 4 from rfl, hhealth, BitVec.setWidth_setWidth_of_le _ (by decide), BitVec.setWidth_eq]

end

end Sys2Proof.Machine
end

section
/-! A complete return of any number of nodes (R43 to R46). -/

namespace Sys2Proof.Machine

/-- The stranger memory behind a return (R43). -/
def strangerKey (strange : Option StatusBlock) : Option (Byte × Byte) := strange.map fun b => (b.hop, b.address)

/-- The reports of a return's stranger: none while the memory names it (R43). -/
def Chain.strangerReports (c : ChainId) (strange : Option StatusBlock) (ch : Chain) : List CmOut :=
  match strange with
  | none => []
  | some b =>
      if ch.stranger = some (b.hop, b.address) then []
      else [.report (.node (.stranger b.hop b.kind) c b.address.toNat ((ch.node b.address.toNat).map ch.brief))]

theorem Chain.strangerReports_of_known {c : ChainId} {strange : Option StatusBlock} {ch : Chain}
    (h : ∀ b, strange = some b → ch.stranger = some (b.hop, b.address)) : ch.strangerReports c strange = [] := by
  cases strange with
  | none => rfl
  | some b => exact if_pos (h b rfl)

theorem Chain.strangerReports_of_new {c : ChainId} {b : StatusBlock} {ch : Chain} (h : ch.stranger ≠ some (b.hop, b.address)) :
    ch.strangerReports c (some b) =
      [.report (.node (.stranger b.hop b.kind) c b.address.toNat ((ch.node b.address.toNat).map ch.brief))] := if_neg h

theorem ofNat_toNat_byte (b : Byte) : BitVec.ofNat 8 b.toNat = b := (BitVec.ofNat_toNat 8 b).trans (BitVec.setWidth_eq b)

theorem Cm.strangers_eq {m : Cm} {strange : Option StatusBlock} (hkind : ∀ b, strange = some b → b.kind.toNat ≤ 1) :
    m.strangers (strange.toList.map StatusBlock.read) =
      { m with ch := { m.ch with stranger := strangerKey strange }, out := m.out ++ m.ch.strangerReports m.id strange } := by
  cases strange with
  | none => exact congrArg (fun o => ({ m with ch := { m.ch with stranger := none }, out := o } : Cm)) (List.append_nil _).symm
  | some b =>
      have hkey : ((BitVec.ofNat 8 b.read.hop, BitVec.ofNat 8 b.read.address) : Byte × Byte) = (b.hop, b.address) :=
        Prod.ext (ofNat_toNat_byte b.hop) (ofNat_toNat_byte b.address)
      by_cases hknown : m.ch.stranger = some (b.hop, b.address)
      · have hkeep : ({ m.ch with stranger := some (b.hop, b.address) } : Chain) = m.ch := by rw [← hknown]
        rw [show (some b).toList.map StatusBlock.read = [b.read] from rfl, Cm.strangers_of_known (hkey ▸ hknown),
          Chain.strangerReports_of_known (by rintro _ ⟨⟩; exact hknown), List.append_nil,
          show strangerKey (some b) = some (b.hop, b.address) from rfl, hkeep]
      · have hcode : (if b.read.kind = .tile then (0 : Byte) else 1) = b.kind := by
          rcases Nat.le_one_iff_eq_zero_or_eq_one.1 (hkind b rfl) with h | h
          · have hb : b.kind = 0 := BitVec.eq_of_toNat_eq h
            rw [show b.read.kind = if b.kind = 0 then .tile else .lamp from rfl, hb]
            rfl
          · have hb : b.kind = 1 := BitVec.eq_of_toNat_eq h
            rw [show b.read.kind = if b.kind = 0 then .tile else .lamp from rfl, hb]
            rfl
        rw [show (some b).toList.map StatusBlock.read = [b.read] from rfl, Cm.strangers_of_new (hkey ▸ hknown), hcode,
          Chain.strangerReports_of_new hknown]
        rw [show BitVec.ofNat 8 b.read.hop = b.hop from ofNat_toNat_byte b.hop,
          show BitVec.ofNat 8 b.read.address = b.address from ofNat_toNat_byte b.address]
        rfl

section
variable {info : BundleInfo} {blocks : List StatusBlock} {xs : List (Nat × Node × Option StatusBlock)}
  {strange : Option StatusBlock} {e : Nat}

/-- The chain record behind the return (R41, R43 to R46). -/
def Chain.manyReceived (e trailer : Nat) (xs : List (Nat × Node × Option StatusBlock)) (strange : Option StatusBlock) (ch : Chain) :
    Chain :=
  { ch with nodes := (ch.putAll e xs.zipIdx).nodes, collect := none, stranger := strangerKey strange, breakCount := 0,
            counters := { ch.counters with complete := bump16 ch.counters.complete }, queue := ch.restatedQueue trailer }

theorem zipIdx_map_place (xs : List (Nat × Node × Option StatusBlock)) :
    (xs.map fun x => ({ position := x.2.1.position, address := some x.1 } : Place)).zipIdx = xs.zipIdx.map Visit.place :=
  List.zipIdx_map ..

theorem zipIdx_map_address (xs : List (Nat × Node × Option StatusBlock)) :
    (xs.zipIdx.map fun v => v.1.1) = xs.map fun x => x.1 :=
  (List.map_map (f := Prod.fst) (g := fun x : Nat × Node × Option StatusBlock => x.1)).symm.trans
    (congrArg _ (List.zipIdx_map_fst 0 xs))

/-- The chain record ahead of the places of its path. -/
def Chain.beforePlaces (trailer : Nat) (strange : Option StatusBlock) (ch : Chain) : Chain :=
  { ch with collect := none, stranger := strangerKey strange, breakCount := 0,
            counters := { ch.counters with complete := bump16 ch.counters.complete }, queue := ch.restatedQueue trailer }

theorem Chain.putAll_nodes (e : Nat) (l : List Visit) (ch : Chain) :
    (ch.putAll e l).nodes = l.foldl (fun nodes v => nodes.set (v.1.1 - 1) (some (recordAfter e v))) ch.nodes := by
  induction l generalizing ch with
  | nil => rfl
  | cons v l ih => exact ih _

theorem Chain.putAll_beforePlaces (e trailer : Nat) (xs : List (Nat × Node × Option StatusBlock)) (strange : Option StatusBlock)
    (ch : Chain) : (ch.beforePlaces trailer strange).putAll e xs.zipIdx = ch.manyReceived e trailer xs strange := by
  rw [Chain.putAll_eq, Chain.putAll_nodes, Chain.manyReceived, Chain.putAll_nodes]
  rfl

theorem Cm.arrival_of_many {m : Cm} (h : ManyNodes m.ch info blocks xs strange e) (hlen : m.ch.nodes.length = 30)
    (hstate : m.ch.state = .running) (hattempt : m.ch.attempt = none) (hprobe : info.probe = none) (hend : m.ch.endHop = some e)
    (hq : m.ch.queue.length ≤ 14) (hlost : m.ch.lostHeld = []) (trailer : Nat) :
    m.arrival info blocks trailer =
      { m with ch := m.ch.manyReceived e trailer xs strange,
               out := m.out ++ m.ch.strangerReports m.id strange ++ [.notice .complete] } := by
  have hclash : ∀ x ∈ answersOf blocks, m.ch.clashes info x = false := by
    rw [h.answers]
    intro x hx
    obtain ⟨b, hb, rfl⟩ := List.mem_map.1 hx
    exact h.not_clashes hb
  have hkind (b : StatusBlock) (hb : strange = some b) : b.kind.toNat ≤ 1 := (h.inRange (h.mem_blocks.2 (.inr hb))).kind
  have hstrange : (m.modify (Chain.withComplete blocks)).strangers (strange.toList.map StatusBlock.read) = _ :=
    Cm.strangers_eq hkind
  have hcomplete : m.modify (Chain.withComplete blocks) =
      { m with ch := { m.ch with collect := none,
                                 counters := { m.ch.counters with complete := bump16 m.ch.counters.complete } } } := by
    rw [Cm.modify, Chain.withComplete_of_inRange fun b hb => h.inRange hb]
  have hready : (((m.modify (Chain.withComplete blocks)).strangers (strange.toList.map StatusBlock.read)).modify
      Chain.unbroken).restate trailer =
        { m with ch := m.ch.beforePlaces trailer strange, out := m.out ++ m.ch.strangerReports m.id strange } := by
    rw [hstrange, Cm.restate_of_end (by exact hend) (by exact hq), hcomplete]
    rfl
  have hplaces := Cm.foldl_takePlace_of_quiet (e := e) (fun v hv => h.quiet hv) (zipIdx_map_address xs ▸ h.nodup)
    (m := { m with ch := m.ch.beforePlaces trailer strange, out := m.out ++ m.ch.strangerReports m.id strange }) hlen rfl rfl
    hend fun v hv => (h.node hv).2.1
  rw [Cm.arrival_of_running hstate hattempt hprobe hclash, h.strangers, hready, h.path, zipIdx_map_place, hplaces, Cm.modify,
    Chain.putAll_beforePlaces, Cm.endHandling_of_none (by exact hlost)]
  rfl

end

end Sys2Proof.Machine
end

section
/-! A chain cut (R59). -/

namespace Sys2Proof.Machine

/-- A CHAIN or NODE report, which reaches the Control Link alone. -/
def CmOut.isReport (o : CmOut) : Prop := ∃ b, o = .report b

theorem Cm.foldl_nodeReport (why : NodeCause) (l : List Nat) (m : Cm) :
    ∃ r, (∀ o ∈ r, o.isReport) ∧ l.foldl (fun m a => m.nodeReport why a) m = { m with out := m.out ++ r } := by
  induction l generalizing m with
  | nil => exact ⟨[], fun _ h => absurd h List.not_mem_nil, congrArg (fun o => ({ m with out := o } : Cm)) (List.append_nil _).symm⟩
  | cons a l ih =>
      obtain ⟨r, hr, heq⟩ := ih (m.nodeReport why a)
      obtain ⟨b, hb⟩ : ∃ b, m.nodeReport why a = m.emit (.report b) := ⟨_, rfl⟩
      refine ⟨.report b :: r, List.forall_mem_cons.2 ⟨⟨b, rfl⟩, hr⟩, heq.trans ?_⟩
      rw [hb]
      exact congrArg (fun o => ({ m with out := o } : Cm)) (List.append_assoc m.out [.report b] r)

theorem Cm.foldl_lose (l : List Nat) (m : Cm) :
    ∃ held, l.foldl (fun m a => m.lose a) m = m.modify fun ch => { ch with lostHeld := held } := by
  induction l generalizing m with
  | nil => exact ⟨m.ch.lostHeld, rfl⟩
  | cons a l ih =>
      have hfirst : ∃ held, m.lose a = m.modify fun ch => { ch with lostHeld := held } := by
        unfold Cm.lose
        split
        · exact ⟨_, rfl⟩
        · exact ⟨m.ch.lostHeld, rfl⟩
      obtain ⟨held, hfirst⟩ := hfirst
      obtain ⟨held', hrest⟩ := ih (m.lose a)
      exact ⟨held', hrest.trans (by rw [hfirst]; rfl)⟩

/-- An entry of the queue that belongs to no attempt any more. -/
def QEntry.settled (x : QEntry) : QEntry := { x with ofAttempt := false }

/-- The queue with END brought to hop `h` by a cut (R59, step 2). -/
def Chain.endAtCutQueue (h : Nat) (ch : Chain) : List QEntry :=
  if h = 0 then
    match ch.comingEnd with
    | some k => insertRepair ch.queue (Cmd.setEnd k false).repairEntry
    | none => ch.queue
  else if ch.endHop ≠ some h ∨ ch.comingEnd ≠ some h then insertRepair ch.queue (Cmd.setEnd h true).repairEntry
  else ch.queue

theorem Cm.endAtCut_of_room {m : Cm} (hq : m.ch.queue.length < 16) (h : Nat) :
    m.endAtCut h = m.modify fun ch => { ch with queue := m.ch.endAtCutQueue h } := by
  unfold Cm.endAtCut Chain.endAtCutQueue
  split_ifs with h0 hend
  · cases m.ch.comingEnd with
    | some k => exact Cm.offerRepair_of_room hq _
    | none => rfl
  · exact Cm.offerRepair_of_room hq _
  · rfl

theorem Cm.afterCut_eq (h target : Nat) (lost : List Nat) (m : Cm) :
    ∃ r r', (∀ o ∈ r ++ r', o.isReport) ∧ m.afterCut h target lost =
      { m with ch := { m.ch.endAttempt with breakCount := 0, brokenFrom := none, state := .running },
               out := m.out ++ (r ++ .fault (.chainCut h) (some (m.ref target)) :: r') } := by
  let settled := m.modify fun ch => { ch.endAttempt with breakCount := 0, brokenFrom := none, state := .running }
  have hbroken : ∃ r, (∀ o ∈ r, o.isReport) ∧
      (if decide (m.ch.state = .broken) = true then settled.chainReport .cut else settled) = { settled with out := m.out ++ r } := by
    split
    · obtain ⟨b, hb⟩ : ∃ b, settled.chainReport .cut = settled.emit (.report b) := ⟨_, rfl⟩
      exact ⟨[.report b], fun o ho => ⟨b, List.mem_singleton.1 ho⟩, hb⟩
    · exact ⟨[], fun _ h => absurd h List.not_mem_nil, congrArg (fun o => ({ settled with out := o } : Cm)) (List.append_nil _).symm⟩
  obtain ⟨r, hr, hreport⟩ := hbroken
  obtain ⟨r', hr', hreports⟩ := Cm.foldl_nodeReport .cut lost (Cm.fault (.chainCut h) (some target) { settled with out := m.out ++ r })
  refine ⟨r, r', fun o ho => (List.mem_append.1 ho).elim (hr o) (hr' o), ?_⟩
  have hcut : m.afterCut h target lost = lost.foldl (fun m a => m.nodeReport .cut a)
      (Cm.fault (.chainCut h) (some target) (if decide (m.ch.state = .broken) = true then settled.chainReport .cut else settled)) := rfl
  rw [hcut, hreport, hreports]
  refine congrArg (fun o => ({ settled with out := o } : Cm)) ?_
  exact (congrArg (· ++ r') (List.append_assoc m.out r _)).trans ((List.append_assoc ..).trans (congrArg (m.out ++ ·) (List.append_assoc ..)))

/-- The chain record behind a cut at position `q` and hop `h` whose END command is offered with room (R59). -/
def Chain.cutAt (q h : Nat) (held : List LostNode) (ch : Chain) : Chain :=
  { ch.updateAll (Node.cutBeyond q) with
    lostHeld := held, queue := (ch.endAtCutQueue h).map QEntry.settled, attempt := none, breakCount := 0, brokenFrom := none,
    state := .running }

theorem Cm.cut_of_room {m : Cm} (hq : m.ch.queue.length < 16) (q h target : Nat) :
    ∃ held r r', (∀ o ∈ r ++ r', o.isReport) ∧ m.cut q h target =
      { m with ch := m.ch.cutAt q h held, out := m.out ++ (r ++ .fault (.chainCut h) (some (m.ref target)) :: r') } := by
  obtain ⟨held, hlose⟩ := Cm.foldl_lose (m.ch.beyond q) m
  obtain ⟨r, r', hr, hafter⟩ := Cm.afterCut_eq h target (m.ch.beyond q)
    ((((m.ch.beyond q).foldl (fun m a => m.lose a) m).modify (Chain.updateAll (Node.cutBeyond q))).endAtCut h)
  refine ⟨held, r, r', hr, (Cm.cut_eq q h target m).trans (hafter.trans ?_)⟩
  rw [hlose, Cm.endAtCut_of_room (by exact hq)]
  rfl

theorem Chain.node_cutAt (q h : Nat) (held : List LostNode) (ch : Chain) (a : Nat) :
    (ch.cutAt q h held).node a = (ch.node a).map (Node.cutBeyond q) := Chain.node_updateAll ch a _

theorem Node.cutBeyond_of_beyond {q : Nat} {n : Node} (hr : n.state.reachable = true) (hq : q < n.position) :
    n.cutBeyond q = { n with state := .cut } := if_pos ((Bool.and_eq_true _ _).mpr ⟨hr, decide_eq_true hq⟩)

theorem Node.cutBeyond_of_kept {q : Nat} {n : Node} (h : ¬ (n.state.reachable = true ∧ q < n.position)) : n.cutBeyond q = n :=
  if_neg fun hb => h (((Bool.and_eq_true _ _).mp hb).imp id of_decide_eq_true)

/-! ### A bypass that is not possible (R58) -/

theorem Cm.beginBypass_of_cut {m : Cm} {target : Nat} {pred : Option Nat}
    (h : m.ch.besideFailed (m.ch.positionOf (some target)) = true ∨ m.ch.routeOf pred ≠ .normal) (hop : Nat) :
    m.beginBypass target pred hop = (m.cut (m.ch.positionOf pred) hop target).endBeforeFailed pred hop := if_pos h

theorem Cm.endBeforeFailed_of_first {h : Nat} (hh : h ≤ 1) (pred : Option Nat) (m : Cm) : m.endBeforeFailed pred h = m := by
  unfold Cm.endBeforeFailed
  split
  · exact if_neg fun hlt => absurd hlt.2 (Nat.not_lt.2 hh)
  · rfl

end Sys2Proof.Machine
end

section
/-! Complete returns (R41 to R49), and the node cut off at the silent limit (R58, R59). -/

namespace Sys2Proof.Machine

theorem Answer.Agrees.record_not_failed {x : Answer} {n : Node} (h : x.Agrees n) : n.state ≠ .failed := by
  rcases h with ⟨-, hs | hs⟩ | ⟨-, hs⟩ <;> simp [hs]

theorem Answer.Agrees.record_not_cut {x : Answer} {n : Node} (h : x.Agrees n) : n.state ≠ .cut := by
  rcases h with ⟨-, hs | hs⟩ | ⟨-, hs⟩ <;> simp [hs]

theorem Node.unanswered_not_failed {n : Node} (h : n.state.reachable = true) : n.unanswered.state ≠ .failed := by
  rcases n.state.reachable_iff.1 h with hs | hs | hs <;> simp [Node.unanswered, hs]

/-- A record that is not FAILED, put at its address, leaves what stands beside its position. -/
theorem Chain.besideFailed_put {ch : Chain} (hlen : ch.nodes.length = 30) {a : Nat} (ha : isAddress a = true) {n : Node}
    (hn : n.state ≠ .failed)
    (h : ∀ b m, ch.node b = some m → m.state = .failed → m.position + 1 ≠ n.position ∧ n.position + 1 ≠ m.position) :
    (ch.setNode a (some n)).besideFailed ((ch.setNode a (some n)).positionOf (some a)) = false := by
  rw [Chain.positionOf_of_node (Chain.node_setNode_same hlen ha _)]
  refine Chain.besideFailed_eq_false fun b m hm hfailed => ?_
  by_cases hb : b = a
  · rw [hb, Chain.node_setNode_same hlen ha] at hm
    exact absurd hfailed (Option.some.inj hm ▸ hn)
  · rw [Chain.node_setNode_ne ha hb] at hm
    exact h b m hm hfailed

theorem recordAfter_of_heard {e i a : Nat} {n : Node} {b : StatusBlock} (h : n.state.reachable = true) :
    recordAfter e ((a, n, some b), i) =
      { n with state := if n.state = .suspect then .live else n.state, mode := if b.mode = 0 then .ident else .live,
               tag := b.tag, gen := if b.gen = 0xFF then n.gen else some (b.gen.setWidth 4), silent := 0,
               mismatch := false, identity := b.identity.or n.identity } := by
  have hgen : b.read.gen.or n.gen = if b.gen = 0xFF then n.gen else some (b.gen.setWidth 4) := by
    rw [show b.read.gen = if b.gen = 0xFF then none else some (b.gen.setWidth 4) from rfl]
    split <;> rfl
  rw [recordAfter_of_block, Node.answered_of_not_failed (fun hf => nomatch hf ▸ h), hgen]
  rfl

theorem recordAfter_of_silent {e i a : Nat} {n : Node} (h : i + 1 ≤ e → n.silent < 15) :
    recordAfter e ((a, n, none), i) =
      if i + 1 ≤ e then { n with state := if n.state = .live then .suspect else n.state, silent := n.silent + 1,
                                 mismatch := false }
      else n := by
  by_cases hi : i + 1 ≤ e
  · rw [recordAfter_of_inside hi, if_pos hi, Node.unanswered_of_lt (h hi)]
  · rw [recordAfter_of_outside (Nat.not_le.1 hi), if_neg hi]

/-! ### A node cut off at the silent limit (R46, R58, R59) -/

theorem answersOf_single {b : StatusBlock} {x : Answer} (h : b.answer? = some x) : answersOf [b] = [x] := by
  rw [answersOf, List.filterMap_cons_some h]
  rfl

/-- Whatever a matched block says, the record of its node keeps its position and route, and no other record changes. -/
theorem Cm.takeAnswer_revises {m : Cm} {a : Nat} (hlen : m.ch.nodes.length = 30) (ha : isAddress a = true) (n : Node) (x : Answer) :
    ∃ n' out, m.takeAnswer a n x = { m.put a n' with out := out } ∧ n'.position = n.position ∧ n'.route = n.route := by
  have hupdate (n : Node) (f : Node → Node) (out : List CmOut) :
      ({ m.put a n with out := out } : Cm).modify (fun ch => ch.updateNode a f) = { m.put a (f n) with out := out } :=
    congrArg (fun ch => ({ m with ch := ch, out := out } : Cm)) (Chain.updateNode_setNode hlen ha n f)
  have hidentity : ∃ out, (m.modify fun ch => ch.setNode a (some (n.answered x))).compareIdentity a n x =
      { m.put a (n.answered x) with out := out } := by
    unfold Cm.compareIdentity
    split <;> exact ⟨_, rfl⟩
  obtain ⟨out, hidentity⟩ := hidentity
  have hhealth : ∃ n' out', ({ m.put a (n.answered x) with out := out } : Cm).compareHealth a n x = { m.put a n' with out := out' } ∧
      n'.position = n.position ∧ n'.route = n.route := by
    unfold Cm.compareHealth
    split
    · rw [hupdate]
      exact ⟨_, _, rfl, rfl, rfl⟩
    · exact ⟨_, _, rfl, rfl, rfl⟩
  obtain ⟨n', out', hhealth, hpos, hroute⟩ := hhealth
  rw [Cm.takeAnswer_eq, hidentity, hhealth]
  unfold Cm.compareMode
  split_ifs
  · exact ⟨n', out', rfl, hpos, hroute⟩
  · rw [hupdate]
    exact ⟨_, _, rfl, hpos, hroute⟩
  · have hfault := hupdate n' (fun n => { n with state := n.mode.state, mismatch := false })
      (out' ++ [.fault (.modeMismatch (n.answered x).state (n.answered x).mode) (some (m.ref a))])
    have hreport := congrArg (Cm.nodeReport .mismatch a) hfault
    exact ⟨_, _, hreport, hpos, hroute⟩
  · rw [hupdate]
    exact ⟨_, _, rfl, hpos, hroute⟩

theorem Chain.restatedQueue_length (trailer : Nat) (ch : Chain) : (ch.restatedQueue trailer).length ≤ ch.queue.length + 2 := by
  unfold Chain.restatedQueue
  cases ch.comingEnd <;> dsimp only <;> split_ifs <;> simp [insertRepair_length]

/-- The second node of a path, silent at its limit behind a node that skips: the chain is cut there (R46, R58, R59). -/
theorem Cm.takePlace_of_cut {m : Cm} {info : BundleInfo} {x : Answer} {a1 a2 q1 q2 : Nat} {n1 n2 : Node}
    (hne : a1 ≠ a2) (hn1 : m.ch.node a1 = some n1) (hpos : n1.position = q1)
    (hroute : n1.route ≠ .normal) (hn2 : m.ch.node a2 = some n2) (hs2 : n2.state = .live) (h15 : n2.silent < 15)
    (hlimit : m.ch.silentLimit ≤ n2.silent + 1) (hstate : m.ch.state = .running) (hattempt : m.ch.attempt = none)
    (hend : m.ch.endHop = some 2) (hq : m.ch.queue.length < 16)
    (hpred : (placeAt info.path 1).bind (fun p => p.address) = some a1) (hx : x.hop = 1) :
    ∃ held, (m.takePlace info [x] ({ position := q2, address := some a2 }, 1)).ch =
      (m.ch.setNode a2 (some n2.unanswered)).cutAt q1 1 held := by
  have ha2 := Chain.isAddress_of_node hn2
  have hnone : [x].find? (fun x => decide (x.hop = 1 + 1) && m.ch.matches info x) = none := by
    rw [List.find?_singleton, hx]
    rfl
  have hn1' : (m.put a2 n2.unanswered).ch.node a1 = some n1 := (Chain.node_setNode_ne ha2 hne _).trans hn1
  have hskip : (m.put a2 n2.unanswered).ch.routeOf (some a1) ≠ .normal := by rwa [Chain.routeOf_of_node hn1']
  obtain ⟨held, r, r', -, hcut⟩ := Cm.cut_of_room (m := m.put a2 n2.unanswered) hq q1 1 a2
  have hbypass : (m.put a2 n2.unanswered).beginBypass a2 (some a1) 1 = (m.put a2 n2.unanswered).cut q1 1 a2 := by
    rw [Cm.beginBypass_of_cut (.inr hskip), Cm.endBeforeFailed_of_first (Nat.le_refl 1), Chain.positionOf_of_node hn1', hpos]
  refine ⟨held, ?_⟩
  rw [Cm.takePlace_of_inside rfl hn2 (hs2 ▸ rfl) hend (Nat.le_refl 2) hnone, Cm.takeSilence_of_limit h15 hlimit hstate hattempt]
  have hpred' : (placeAt info.path (1 + 1 - 1)).bind (fun p => p.address) = some a1 := hpred
  rw [hpred']
  exact congrArg Cm.ch (hbypass.trans hcut)

/-- A path of two nodes: the first gives its block, and the second is cut off behind it. -/
theorem Cm.foldl_takePlace_of_cut {m : Cm} {info : BundleInfo} {x : Answer} {a1 a2 q1 q2 : Nat} {n1 n2 : Node}
    (hpath : info.path = [{ position := q1, address := some a1 }, { position := q2, address := some a2 }])
    (hlen : m.ch.nodes.length = 30) (hne : a1 ≠ a2) (hn1 : m.ch.node a1 = some n1) (hpos : n1.position = q1)
    (hcut : n1.state ≠ .cut) (hroute : n1.route ≠ .normal) (hn2 : m.ch.node a2 = some n2) (hs2 : n2.state = .live)
    (h15 : n2.silent < 15) (hlimit : m.ch.silentLimit ≤ n2.silent + 1) (hstate : m.ch.state = .running)
    (hattempt : m.ch.attempt = none) (hend : m.ch.endHop = some 2) (hq : m.ch.queue.length < 16) (hx : x.hop = 1)
    (hmatch : m.ch.matches info x = true) :
    ∃ n1' held, (info.path.zipIdx.foldl (Cm.takePlace info [x]) m).ch =
      ((m.ch.setNode a1 (some n1')).setNode a2 (some n2.unanswered)).cutAt q1 1 held := by
  have ha1 := Chain.isAddress_of_node hn1
  obtain ⟨n1', out, htake, hpos', hroute'⟩ := Cm.takeAnswer_revises hlen ha1 n1 x
  have hfind : [x].find? (fun x => decide (x.hop = 0 + 1) && m.ch.matches info x) = some x := by
    rw [List.find?_singleton, hx, hmatch]
    rfl
  have hfirst : m.takePlace info [x] ({ position := q1, address := some a1 }, 0) = { m.put a1 n1' with out := out } :=
    (Cm.takePlace_of_answer rfl hn1 hcut hfind).trans htake
  have hpred : (placeAt info.path 1).bind (fun p => p.address) = some a1 := by
    rw [hpath]
    rfl
  obtain ⟨held, hsecond⟩ := Cm.takePlace_of_cut (m := { m.put a1 n1' with out := out }) (q2 := q2) hne
    (Chain.node_setNode_same hlen ha1 _) (hpos'.trans hpos) (hroute' ▸ hroute)
    ((Chain.node_setNode_ne ha1 (Ne.symm hne) _).trans hn2) hs2 h15 hlimit hstate hattempt hend hq hpred hx
  refine ⟨n1', held, Eq.trans ?_ hsecond⟩
  rw [hpath, List.zipIdx_cons, List.zipIdx_cons, List.zipIdx_nil, List.foldl_cons, List.foldl_cons, List.foldl_nil, hfirst]

/-- The chain record with its return counted, without a stranger, and END restated (R41, R43, R44). -/
def Chain.restated (blocks : List StatusBlock) (trailer : Nat) (ch : Chain) : Chain :=
  { (ch.withComplete blocks).noStranger.unbroken with queue := ch.restatedQueue trailer }

section
variable (blocks : List StatusBlock) (trailer : Nat) (ch : Chain)

theorem Chain.restated_state : (ch.restated blocks trailer).state = ch.state := rfl
theorem Chain.restated_attempt : (ch.restated blocks trailer).attempt = ch.attempt := rfl
theorem Chain.restated_endHop : (ch.restated blocks trailer).endHop = ch.endHop := rfl
theorem Chain.restated_silentLimit : (ch.restated blocks trailer).silentLimit = ch.silentLimit := rfl
theorem Chain.restated_nodes : (ch.restated blocks trailer).nodes = ch.nodes := rfl
theorem Chain.restated_node : (ch.restated blocks trailer).node = ch.node := rfl
theorem Chain.restated_matches : (ch.restated blocks trailer).matches = ch.matches := rfl
theorem Chain.restated_queue : (ch.restated blocks trailer).queue = ch.restatedQueue trailer := rfl

end

/-- The chain record behind a node that was missed at its limit and cut off. -/
theorem Chain.cut_fields {ch : Chain} {a1 a2 q h : Nat} {n1 n2 : Node} {held : List LostNode} (hlen : ch.nodes.length = 30)
    (hn2 : ch.node a2 = some n2) (hs2 : n2.state = .live) (hlt : q < n2.position)
    (h15 : n2.silent < 15) :
    let cut := ((ch.setNode a1 (some n1)).setNode a2 (some n2.unanswered)).cutAt q h held
    cut.node a2 = some { n2 with state := .cut, silent := n2.silent + 1, mismatch := false } ∧
      cut.queue = (ch.endAtCutQueue h).map QEntry.settled ∧ cut.endHop = ch.endHop ∧ cut.state = .running ∧
      cut.attempt = none ∧ cut.collect = ch.collect := by
  have ha2 := Chain.isAddress_of_node hn2
  refine ⟨?_, rfl, rfl, rfl, rfl, rfl⟩
  have hlen' : (ch.setNode a1 (some n1)).nodes.length = 30 := (List.length_set ..).trans hlen
  have hreach : n2.unanswered.state.reachable = true := by
    rw [Node.unanswered, hs2]
    rfl
  rw [Chain.node_cutAt, Chain.node_setNode_same hlen' ha2, Option.map_some, Node.cutBeyond_of_beyond hreach hlt,
    Node.unanswered_of_lt h15]

/-- Settles O19: one node by what its block says or by its silence, many nodes place by place, and the cut behind a node that
skips. -/
theorem completeReturnUpdatesTheNode : Obligations.CompleteReturnUpdatesTheNode := by
  unfold Obligations.CompleteReturnUpdatesTheNode
  refine ⟨?one, ?many, ?cut⟩
  case one =>
    intro c k s a p n kb tag f hi lo mode gen identity ch echo hcollect hstop hlen hstate hattempt hend hlost hprobe hpath h1 h30
      hn hpos hkind hf hcrc block heard missed table after said agrees sameHealth sameIdentity item
    have ha : isAddress a = true := isAddress_of h1 h30
    have hexec : exec item s = .next (s.manage c (Cm.arrival k.info k.blocks 1)).ended :=
      exec_returnItemReceived_of_arrival hcollect hstop hcrc (by decide) (by decide) rfl
    refine ⟨fun hblocks => ?answered, fun hblocks hreach hsilent => ?silent⟩
    case answered =>
      have hkb : kb = 0 ∨ kb = 1 := hkind.imp And.left And.left
      let x : Answer :=
        { hop := 1, address := a, kind := n.kindName, mode := mode, tag := tag, gen := some gen, health := f.setWidth 4,
          identity := identity }
      have hread : block.read = x := nodeBlock_read h30 hkind
      have harrival (hcut : n.state ≠ .cut) := Cm.arrival_of_one_block (m := s.manager c) (b := block) hstate hattempt hprobe hend
        hpath hn hpos hcut (nodeBlock_inRange h1 h30 hkb hf) rfl (nodeBlock_address h30) (by rw [hread])
      rw [hread] at harrival
      rw [hexec, hblocks]
      refine ⟨fun hagrees hhealth hid => ?_, fun hfailed hhealth hid => ?_, ?_, ?_, ?_⟩
      · have hnode := Node.answered_of_not_failed (Answer.Agrees.record_not_failed (x := x) hagrees) x
        have harr := harrival (Answer.Agrees.record_not_cut (x := x) hagrees)
        rw [Cm.takeAnswer_of_same (m := (s.manager c).modify Chain.received) (x := x) hlen ha hagrees hhealth hid,
          Cm.endHandling_of_none (by exact hlost), hnode] at harr
        rw [State.manage_of_outs harr]
        rfl
      · have harr := harrival (by rw [hfailed]; nofun)
        rw [Cm.takeAnswer_of_failed (x := x) hfailed hhealth hid, Cm.endHandling_of_none (by exact hlost),
          Node.answered_of_failed hfailed] at harr
        rw [State.manage_of_outs harr]
        rfl
      · intro hagrees hhealth hid y
        have hnode := Node.answered_of_not_failed (Answer.Agrees.record_not_failed (x := x) hagrees) x
        have harr := harrival (Answer.Agrees.record_not_cut (x := x) hagrees)
        rw [Cm.takeAnswer_of_health (m := (s.manager c).modify Chain.received) (x := x) hlen ha hagrees hhealth hid,
          Cm.endHandling_of_none (by exact hlost), Node.heard, hnode] at harr
        rw [State.manage_of_outs harr]
        rfl
      · intro hagrees hhealth old new hold hnew hne y
        have hnode := Node.answered_of_not_failed (Answer.Agrees.record_not_failed (x := x) hagrees) x
        have harr := harrival (Answer.Agrees.record_not_cut (x := x) hagrees)
        rw [Cm.takeAnswer_of_identity (m := (s.manager c).modify Chain.received) (x := x) hlen ha hagrees hhealth hold hnew hne,
          Cm.endHandling_of_none (by exact hlost), hnode] at harr
        rw [State.manage_of_outs harr]
        rfl
      · intro hagrees hfailed hcut hhealth hid
        have hnode := Node.answered_of_not_failed hfailed x
        have harr := harrival hcut
        refine ⟨fun hmis => ?_, ?_⟩
        · rw [Cm.takeAnswer_of_first (m := (s.manager c).modify Chain.received) (x := x) hlen ha hagrees
            hfailed hcut hhealth hid hmis, Cm.endHandling_of_none (by exact hlost), hnode] at harr
          rw [State.manage_of_outs harr]
          rfl
        · intro hmis y
          rw [Cm.takeAnswer_of_second (m := (s.manager c).modify Chain.received) (x := x) hlen ha hagrees
              hfailed hcut hhealth hid hmis,
            Cm.endHandling_of_none (by exact hlost), hnode] at harr
          rw [State.manage_of_outs harr]
          have hmode : mode.state = if mode = .ident then .ident else .live := by cases mode <;> rfl
          rw [show x.mode = mode from rfl, hmode]
          rfl
    case silent =>
      have hreach' : n.state.reachable = true := n.state.reachable_iff.2 hreach
      have harrival := Cm.arrival_of_one_silent (m := s.manager c) hstate hattempt hprobe hend hpath hn hreach'
      rw [hexec, hblocks]
      refine ⟨fun hfew => ?_, fun hlimit hroute hq hbeside => ?_⟩
      · rw [Cm.takeSilence_of_few hsilent (by exact hfew), Cm.endHandling_of_none (by exact hlost),
          Node.unanswered_of_lt hsilent] at harrival
        rw [State.manage_of_outs harrival]
        rfl
      · have hclear := Chain.besideFailed_put (ch := ch.received) hlen ha (Node.unanswered_not_failed hreach') hbeside
        have hroute' : (ch.received.setNode a (some n.unanswered)).routeOf none = .normal := hroute
        have hbypass := Cm.beginBypass_of_clear (m := ((s.manager c).modify Chain.received).put a n.unanswered) hclear hroute'
          (by exact hq) 0
        rw [Cm.takeSilence_of_limit hsilent (by exact hlimit) (by exact hstate) (by exact hattempt)] at harrival
        replace harrival := harrival.trans (congrArg Cm.endHandling hbypass)
        rw [Cm.endHandling_of_none (by exact hlost), Cm.put, Node.unanswered_of_lt hsilent] at harrival
        rw [State.manage_of_outs harrival]
        have hend' : (table missed).bypassEnd = (table missed).nextEnd := if_neg (by exact hstate ▸ nofun)
        rw [← hend']
        rfl
  case many =>
    intro c k s xs strange e hop hi lo ch echo kindByte hcollect hstop hlen hstate hattempt hend hlost hq hprobe hshort hpath hnodup
      hnodes hperm hheard hsilent hstrange h1 h31 hcrc heard missed record end_ coming after item
    have hmany : ManyNodes ch k.info k.blocks xs strange e :=
      ⟨hshort, hpath, hnodup, hnodes, hperm, hheard, hsilent, hstrange⟩
    have hexec : exec item s = .next (s.manage c (Cm.arrival k.info k.blocks hop.toNat)).ended :=
      exec_returnItemReceived_of_arrival hcollect hstop hcrc h1 h31 rfl
    have harrival := Cm.arrival_of_many (m := s.manager c) hmany hlen hstate hattempt hprobe hend hq hlost hop.toNat
    have hrecord (a : Nat) : (ch.putAll e xs.zipIdx).node a = record a := by
      rw [Chain.node_putAll hlen (fun v hv => (hmany.node hv).1) (zipIdx_map_address xs ▸ hnodup)]
      simp only [record]
      cases hfind : xs.zipIdx.find? fun v => decide (v.1.1 = a) with
      | none => rfl
      | some v =>
          have hv := List.mem_of_find?_eq_some hfind
          obtain ⟨⟨a', n, o⟩, i⟩ := v
          cases o with
          | some b => exact congrArg some (recordAfter_of_heard (hmany.node hv).2.2)
          | none => exact congrArg some (recordAfter_of_silent fun hi => (hsilent _ i hv rfl hi).1)
    have hnodes' : (ch.putAll e xs.zipIdx).nodes = (List.range 30).map fun j => record (j + 1) := by
      rw [Chain.nodes_eq ((Chain.putAll_length e _ ch).trans hlen)]
      exact List.map_congr_left fun j _ => hrecord (j + 1)
    have hqueue : ch.restatedQueue hop.toNat =
        if hop.toNat = e then ch.queue
        else if ch.comingEnd = some hop.toNat then coming
        else insertRepair coming (end_ hop.toNat false) := by
      by_cases hsame : hop.toNat = e
      · rw [if_pos hsame, Chain.restatedQueue, if_pos (hsame ▸ hend)]
      · rw [if_neg hsame, Chain.restatedQueue, if_neg fun h => hsame (Option.some.inj (h.symm.trans hend))]
        rfl
    rw [Chain.manyReceived] at harrival
    replace harrival := harrival.trans (congrArg₂ (fun l q => ({ s.manager c with
      ch := { ch with nodes := l, collect := none, stranger := strangerKey strange, breakCount := 0,
                      counters := { ch.counters with complete := bump16 ch.counters.complete }, queue := q },
      out := ch.strangerReports c strange ++ [.notice .complete] } : Cm)) hnodes' hqueue)
    refine ⟨fun hnone => ?_, fun hknown => ?_, fun b hb hnew => ?_⟩
    · exact (Chain.comingEnd_of_none_waits hnone).trans hend
    · rw [hexec, State.manage_of_outs harrival, Chain.strangerReports_of_known hknown]
      rfl
    · subst hb
      rw [hexec, State.manage_of_outs harrival, Chain.strangerReports_of_new hnew]
      rfl
  case cut =>
    intro c k s a1 a2 q1 q2 n1 n2 b x hop hi lo ch echo hcollect hstop hlen hstate hattempt hend hq hprobe hpath hne hn1 hq1 hs1 hr1
      hn2 hq2 hs2 hlt h15 hlimit hblocks hanswer hxhop hxa hxk h1 h31 hcrc end_ coming restated
    have ha1 := Chain.isAddress_of_node hn1
    have ha2 := Chain.isAddress_of_node hn2
    have hanswers : answersOf k.blocks = [x] := hblocks ▸ answersOf_single hanswer
    have hplace : placeAt k.info.path x.hop = some { position := q1, address := some a1 } := by
      rw [hxhop, hpath]
      rfl
    have hnx : ch.node x.address = some n1 := hxa ▸ hn1
    have hmatch : ch.matches k.info x = true :=
      Chain.matches_iff.2 ⟨_, n1, hplace, hnx, congrArg some hxa.symm, hxk.symm⟩
    have hclash : ch.clashes k.info x = false := Chain.clashes_eq_false fun n hn => by
      obtain rfl := Option.some.inj (hnx.symm.trans hn)
      exact ⟨_, hplace, hq1.symm⟩
    have hfilter : (answersOf k.blocks).filter (fun x => !(s.manager c).ch.matches k.info x) = [] := by
      rw [hanswers, List.filter_singleton, State.manager_ch, hmatch]
      rfl
    let ready := ch.restated k.blocks hop.toNat
    have hready : ((((s.manager c).modify (Chain.withComplete k.blocks)).modify Chain.noStranger).modify Chain.unbroken).restate
        hop.toNat = { s.manager c with ch := ready } :=
      Cm.restate_of_end (by exact hend) (by exact Nat.le_succ_of_le hq) hop.toNat
    have hroom : (ch.restatedQueue hop.toNat).length < 16 := by
      have hle := Chain.restatedQueue_length hop.toNat ch
      omega
    have hlen' : ready.nodes.length = 30 := by rwa [Chain.restated_nodes]
    have hlimit' : ready.silentLimit ≤ n2.silent + 1 := by rwa [Chain.restated_silentLimit]
    obtain ⟨n1', held, hplaces⟩ := Cm.foldl_takePlace_of_cut (m := { s.manager c with ch := ready }) hpath hlen' hne
      ((congrFun (ch.restated_node _ _) a1).trans hn1) hq1 (by rw [hs1]; nofun) (by rw [hr1]; nofun)
      ((congrFun (ch.restated_node _ _) a2).trans hn2) hs2 h15 hlimit' ((ch.restated_state _ _).trans hstate)
      ((ch.restated_attempt _ _).trans hattempt) ((ch.restated_endHop _ _).trans hend) hroom hxhop
      ((congrFun (congrFun (ch.restated_matches _ _) k.info) x).trans hmatch)
    have harrival := Cm.arrival_of_running (m := s.manager c) (info := k.info) (blocks := k.blocks) hstate hattempt hprobe
      (by rw [hanswers]; exact fun y hy => List.mem_singleton.1 hy ▸ hclash) hop.toNat
    let cut : Chain := ((ready.setNode a1 (some n1')).setNode a2 (some n2.unanswered)).cutAt q1 1 held
    have hdone : (Cm.arrival k.info k.blocks hop.toNat (s.manager c)).ch = { cut with lostHeld := [] } := by
      rw [harrival, hfilter, Cm.strangers_of_none, hready, hanswers, Cm.endHandling_ch, hplaces]
    refine ⟨_, exec_returnItemReceived_of_arrival hcollect hstop hcrc h1 h31 rfl, ?_⟩
    rw [State.ended_chains, State.manage_chain, hdone]
    obtain ⟨hnode, hqueue, hend', hstate', hattempt', hcollect'⟩ :=
      Chain.cut_fields (ch := ready) (held := held) (n1 := n1') (q := q1) hlen'
        ((congrFun (ch.restated_node _ _) a2).trans hn2) hs2 (hq2.symm ▸ hlt) h15
    have hsame : (ch.restated k.blocks hop.toNat).endAtCutQueue 1 = insertRepair (ch.restatedQueue hop.toNat) (end_ 1 true) := by
      rw [Chain.endAtCutQueue, if_neg Nat.one_ne_zero, Chain.restated_endHop]
      exact if_pos (.inl (by rw [hend]; decide))
    have hrestated : ch.restatedQueue hop.toNat = restated := by
      by_cases htrailer : hop.toNat = 2
      · rw [Chain.restatedQueue, if_pos (htrailer ▸ hend)]
        exact (if_pos htrailer).symm
      · rw [Chain.restatedQueue, if_neg fun h => htrailer (Option.some.inj (h.symm.trans hend))]
        exact (if_neg htrailer).symm
    rw [hsame, hrestated] at hqueue
    refine ⟨hnode, hqueue, hend'.trans ((ch.restated_endHop _ _).trans hend), hstate', hattempt', hcollect'⟩

end Sys2Proof.Machine
end

section
/-! Walks that end (R53) and the bundles that carry their commands (R31, R42, R50, R54). -/

namespace Sys2Proof.Machine

/-! ### A walk that ends (R53) -/

/-- A SET_END of a walk's set-back; the last one carries the WALK_DONE. -/
def setBack (h : Nat) (on last : Bool) : QEntry := { cmd := .setEnd h on, issuer := .manager, ofAttempt := false, endsWalk := last }

/-- The chain record when the walk at probe hop `p` has ended (R53). -/
def Chain.walkEnded (p : Nat) (ch : Chain) : Chain :=
  { ch with probeHop := none, state := .running,
            queue := if 1 < p then insertRepair (insertRepair ch.queue (setBack (p - 1) true false)) (setBack p false true)
                     else insertRepair ch.queue (setBack 1 false true) }

theorem Cm.endWalk_of_first {m : Cm} (hp : m.ch.probeHop = some 1) (hq : m.ch.queue.length < 16) :
    m.endWalk = m.modify (Chain.walkEnded 1) := by
  unfold Cm.endWalk
  rw [hp]
  dsimp only
  rw [Cm.offerSetBack, if_neg (Nat.lt_irrefl 1), Cm.offerWalkEnd, Cm.offerEntry_of_room (by exact hq)]
  rfl

theorem Cm.endWalk_of_probe {m : Cm} {p : Nat} (hp : m.ch.probeHop = some p) (hq : m.ch.queue.length ≤ 14) :
    m.endWalk = m.modify (Chain.walkEnded p) := by
  unfold Cm.endWalk Chain.walkEnded
  rw [hp]
  dsimp only
  rw [Cm.offerSetBack]
  by_cases h : 1 < p
  · rw [if_pos h, Cm.offerRepair_of_room (by exact Nat.lt_of_le_of_lt hq (by decide)), Cm.offerWalkEnd, Cm.offerEntry_of_room]
    · simp only [if_pos h]
      rfl
    · exact Nat.lt_of_le_of_lt (insertRepair_length ..).le (Nat.succ_lt_succ (Nat.lt_of_le_of_lt hq (by decide)))
  · rw [if_neg h, Cm.offerWalkEnd, Cm.offerEntry_of_room (by exact Nat.lt_of_le_of_lt hq (by decide))]
    simp only [if_neg h]
    rfl

theorem Cm.missing_of_walk {m : Cm} {k : Collection} (hk : m.ch.collect = some k)
    (hs : m.ch.state = .walking ∨ m.ch.state = .extending) : m.missing = (m.modify Chain.withMissing).endWalk := by
  rcases hs with hs | hs <;> simp only [Cm.missing, hk, Cm.modify, Chain.withMissing, hs]

/-! ### SET_ENDs that leave (R31, R33) -/

/-- A SET_END of no attempt. -/
def QEntry.isEnd (x : QEntry) : Prop := (∃ h on, x.cmd = .setEnd h on) ∧ x.ofAttempt = false

/-- The chain record when the SET_ENDs at the head of its queue have left. -/
def Chain.leaveFront (l rest : List QEntry) (ch : Chain) : Chain :=
  { ch with queue := rest, endHop := (l.map QEntry.cmd).foldl Cmd.endAfter ch.endHop,
            counters := { ch.counters with sent := bump16By l.length ch.counters.sent },
            walkDoneDue := ch.walkDoneDue + (l.map QEntry.walksEnded).sum }

theorem Chain.leave_of_end {x : QEntry} (hx : x.isEnd) (rest : List QEntry) (ch : Chain) :
    ch.leave x rest = ch.leaveFront [x] rest := by
  obtain ⟨⟨h, on, hcmd⟩, hattempt⟩ := hx
  unfold Chain.leave
  rw [hcmd, Chain.depart_setEnd, hattempt, if_neg Bool.false_ne_true]
  simp only [Chain.leaveFront, List.map_cons, List.map_nil, List.foldl_cons, List.foldl_nil, hcmd, List.sum_cons, List.sum_nil,
    Nat.add_zero, List.length_singleton]
  rfl

theorem Chain.leaveFront_cons (x : QEntry) (l rest : List QEntry) (ch : Chain) :
    (ch.leaveFront [x] (l ++ rest)).leaveFront l rest = ch.leaveFront (x :: l) rest := by
  simp only [Chain.leaveFront, List.map_cons, List.map_nil, List.foldl_cons, List.foldl_nil, List.sum_cons, List.sum_nil,
    Nat.add_zero, Nat.add_assoc]
  rfl

/-- SET_ENDs at the head of the queue leave in their order. -/
theorem Cm.fillCommands_of_front (l rest : List QEntry) (hends : ∀ x ∈ l, x.isEnd) (fuel left : Nat) :
    ∀ (carried : List Cmd) (m : Cm), m.ch.queue = l ++ rest → m.ch.claims = [] →
      m.fillCommands (fuel + l.length) (left + l.length) carried =
        (m.modify (Chain.leaveFront l rest)).fillCommands fuel left (carried ++ l.map QEntry.cmd) := by
  induction l with
  | nil =>
      intro carried m hq _
      have hkeep : m.ch.leaveFront [] rest = m.ch := congrArg (fun q => ({ m.ch with queue := q } : Chain)) hq.symm
      rw [Cm.modify, hkeep, List.map_nil, List.append_nil]
      rfl
  | cons x l ih =>
      intro carried m hq hclaims
      obtain ⟨hx, hl⟩ := List.forall_mem_cons.1 hends
      have hleave : m.modify (Chain.leave x (l ++ rest)) = m.modify (Chain.leaveFront [x] (l ++ rest)) :=
        congrArg (fun ch => ({ m with ch := ch } : Cm)) (Chain.leave_of_end hx _ _)
      obtain ⟨⟨h, on, hcmd⟩, -⟩ := hx
      have hdead : m.ch.isDead x.cmd = false := by
        rw [hcmd]
        rfl
      have hcarried : x.cmd.carried = true := by
        rw [hcmd]
        rfl
      rw [List.length_cons, ← Nat.add_assoc, ← Nat.add_assoc, Cm.fillCommands_of_alive (rest := l ++ rest) hq hdead,
        Cm.fillPlaces_of_no_claims (by rw [Cm.modify_ch, Chain.leave_claims, hclaims]), if_pos hcarried, hleave,
        ih hl _ (m.modify (Chain.leaveFront [x] (l ++ rest))) rfl hclaims, List.map_cons, List.append_assoc]
      exact congrArg (fun ch => ({ m with ch := ch } : Cm).fillCommands fuel left _) (Chain.leaveFront_cons x l rest m.ch)

/-- Up to four SET_ENDs leave, and no more: the queue is empty behind them, or they are four. -/
theorem Cm.departures_of_front {m : Cm} {l rest : List QEntry} (hends : ∀ x ∈ l, x.isEnd) (hq : m.ch.queue = l ++ rest)
    (hclaims : m.ch.claims = []) (hlen : l.length ≤ 4) (hrest : rest = [] ∨ l.length = 4) :
    m.departures = (m.modify (Chain.leaveFront l rest), l.map QEntry.cmd) := by
  obtain ⟨left, hleft⟩ := Nat.exists_eq_add_of_le' hlen
  have hfuel : queueSize + 4 = 16 + left + l.length := by
    rw [Nat.add_assoc, ← hleft]
    rfl
  have hfill := Cm.fillCommands_of_front l rest hends (16 + left) left [] m hq hclaims
  rw [Cm.departures, hfuel]
  refine (congrArg (fun n => m.fillCommands (16 + left + l.length) n []) hleft).trans (hfill.trans ?_)
  rcases hrest with hrest | hfour
  · exact Cm.fillCommands_of_nil hrest _ _ _
  · obtain rfl : left = 0 := by omega
    rfl

theorem Cm.reportWalkDone_of_one {m : Cm} (h : m.ch.walkDoneDue = 1) :
    m.reportWalkDone = (m.modify fun ch => { ch with walkDoneDue := 0 }).chainReport .walkDone := by
  rw [Cm.reportWalkDone, h]
  rfl

end Sys2Proof.Machine
end

section
/-! The ticks whose bundles carry a walk's commands (R50, R53, R54). -/

namespace Sys2Proof.Machine

/-! ### WALK_DONE (R53) -/

/-- An entry on the path that its bundle takes (R42). -/
def Chain.rerouteEntry (ch : Chain) (x : QEntry) : QEntry := { x with cmd := ch.onNewPath x.cmd }

theorem Chain.onNewPath_setEnd (ch : Chain) (h : Nat) (on : Bool) : ∃ h' on', ch.onNewPath (.setEnd h on) = .setEnd h' on' := by
  unfold Chain.onNewPath Cmd.onPath
  cases on with
  | false => exact ⟨_, _, rfl⟩
  | true =>
      dsimp only
      unfold endOnPath
      split
      · exact ⟨_, _, rfl⟩
      · exact ⟨_, _, rfl⟩

theorem Chain.rerouteEntry_isEnd {ch : Chain} {x : QEntry} (hx : x.isEnd) : (ch.rerouteEntry x).isEnd := by
  obtain ⟨⟨h, on, hcmd⟩, hattempt⟩ := hx
  refine ⟨?_, hattempt⟩
  rw [Chain.rerouteEntry, hcmd]
  exact ch.onNewPath_setEnd h on

theorem Chain.decidesNext_of_none {ch : Chain} (h : ch.attempt = none) : ch.decidesNext = false := by
  rw [Chain.decidesNext, h]

/-- The chain record behind a bundle that carried the SET_ENDs at the head of the queue, one of them a walk's last (R53). -/
def Chain.walkDoneSent (l rest : List QEntry) (ch : Chain) : Chain :=
  { ch.rerouted.leaveFront (l.map ch.rerouteEntry) (rest.map ch.rerouteEntry) with walkDoneDue := 0 }

theorem Cm.prepareBundle_of_walkDone {m : Cm} {l rest : List QEntry} (hstate : m.ch.state = .running) (hattempt : m.ch.attempt = none)
    (hq : m.ch.queue = l ++ rest) (hclaims : m.ch.claims = []) (hends : ∀ x ∈ l, x.isEnd) (hlen : l.length ≤ 4)
    (hrest : rest = [] ∨ l.length = 4) (hdue : m.ch.walkDoneDue + (l.map QEntry.walksEnded).sum = 1) (n : Word16) :
    m.prepareBundle n = ((m.modify (Chain.walkDoneSent l rest)).chainReport .walkDone).emit
      (.order { frame := n, kind := .assemble (m.ch.bundleInfo n) (l.map fun x => m.ch.onNewPath x.cmd) }) := by
  obtain ⟨hprobes, hext⟩ := ChainMode.not_probes (.inl hstate)
  have hqueue : (m.modify Chain.rerouted).ch.queue = l.map m.ch.rerouteEntry ++ rest.map m.ch.rerouteEntry := by
    rw [← List.map_append, ← hq]
    rfl
  have hends' : ∀ x ∈ l.map m.ch.rerouteEntry, x.isEnd := by
    intro y hy
    obtain ⟨x, hx, rfl⟩ := List.mem_map.1 hy
    exact Chain.rerouteEntry_isEnd (hends x hx)
  have hwalks : (l.map m.ch.rerouteEntry).map QEntry.walksEnded = l.map QEntry.walksEnded := by
    rw [List.map_map]
    rfl
  have hcmds : (l.map m.ch.rerouteEntry).map QEntry.cmd = l.map fun x => m.ch.onNewPath x.cmd := by
    rw [List.map_map]
    rfl
  have hdue' : ((m.modify Chain.rerouted).modify (Chain.leaveFront (l.map m.ch.rerouteEntry)
      (rest.map m.ch.rerouteEntry))).ch.walkDoneDue = 1 := by
    refine (congrArg (m.ch.walkDoneDue + ·) (congrArg List.sum hwalks)).trans hdue
  rw [Cm.prepareBundle_of_plain hprobes hext (Chain.decidesNext_of_none hattempt), Cm.orderBundle,
    Cm.departures_of_front hends' hqueue hclaims (by rwa [List.length_map]) (by
      rw [List.map_eq_nil_iff, List.length_map]
      exact hrest)]
  dsimp only
  rw [Cm.reportWalkDone_of_one hdue', hcmds]
  rfl

theorem exec_chainManagerTick_of_walkDone {c : ChainId} {n : Word16} {ticks : List Word16} {s : State} {l rest : List QEntry}
    (hticks : s.mail.ticks.chains.get c = n :: ticks) (hstate : (s.chains.get c).state = .running)
    (hp : (s.chains.get c).pendingDisable = false) (hcollect : (s.chains.get c).collect = none)
    (hattempt : (s.chains.get c).attempt = none) (hlost : (s.chains.get c).lostHeld = []) (hclaims : (s.chains.get c).claims = [])
    (hq : (s.chains.get c).queue = l ++ rest) (hends : ∀ x ∈ l, x.isEnd) (hlen : l.length ≤ 4) (hrest : rest = [] ∨ l.length = 4)
    (hdue : (s.chains.get c).walkDoneDue + (l.map QEntry.walksEnded).sum = 1) :
    exec (.chainManagerTick c) s = .next
      (((s.setChain c ((s.chains.get c).walkDoneSent l rest)).setMail ((s.mail.chainTicks c ticks).giveOrder c
        { frame := n, kind := .assemble ((s.chains.get c).bundleInfo n) (l.map fun x => (s.chains.get c).onNewPath x.cmd) })).report
          (.chain .walkDone c .running ((s.chains.get c).walkDoneSent l rest).endHop (s.chains.get c).stateCounts)).ended := by
  have hsend := (Cm.send_of_bundle (m := s.manager c) (.inl hstate) n).trans
    (Cm.prepareBundle_of_walkDone hstate hattempt hq hclaims hends hlen hrest hdue n)
  have htick := Cm.tick_of_send hp (Cm.deadline_of_none hcollect hattempt) hsend hlost
  have hreport : (s.chains.get c).state = .running := hstate
  rw [exec_chainManagerTick_of_tick hticks, State.manage_of_outs (s := s.setChainTicks c ticks) htick, ← hreport]
  rfl

/-! ### The bundle of an EXTENDING chain (R54) -/

/-- The SET_ENDs that move END to probe hop `p` (R50, R54). -/
def probeEnds (p : Nat) : List (Nat × Bool) := (p, true) :: if 1 < p then [(p - 1, false)] else []

theorem probeEnds_length (p : Nat) : (probeEnds p).length ≤ 2 := by
  unfold probeEnds
  split <;> simp

theorem Cm.offerProbe_of_empty {m : Cm} {p : Nat} (hp : m.ch.probeHop = some p) (hq : m.ch.queue = []) :
    m.offerProbe = m.modify (Chain.withEnds (probeEnds p)) := by
  have hfirst : m.offerRepair (.setEnd p true) = m.modify (Chain.withEnds [(p, true)]) :=
    Cm.offerRepair_of_ends (l := []) hq (Nat.zero_lt_succ _) p true
  rw [Cm.offerProbe, hp]
  dsimp only
  rw [hfirst]
  unfold probeEnds
  split
  · exact Cm.offerRepair_of_ends (m := m.modify (Chain.withEnds [(p, true)])) (l := [(p, true)]) rfl (Nat.succ_lt_succ (Nat.zero_lt_succ _))
      (p - 1) false
  · rfl

/-- END stands at the probe hop behind the two commands. -/
theorem foldl_endAfter_probeEnds (p : Nat) (e : Option Nat) :
    ((probeEnds p).map fun x => Cmd.setEnd x.1 x.2).foldl (fun e cmd => cmd.endAfter e) e = some p := by
  unfold probeEnds
  split
  · refine if_neg fun h => ?_
    have hp := Option.some.inj h
    omega
  · rfl

/-- The path of a bundle with its probe place (R42). -/
def Chain.probePath (ch : Chain) : List Place := ch.path.1 ++ [{ position := ch.path.2, address := none }]

/-- The chain record behind the bundle of an EXTENDING chain whose queue is empty (R54). -/
def Chain.extended (ch : Chain) : Chain :=
  { ch with endHop := some (ch.path.1.length + 1), probeHop := some (ch.path.1.length + 1), lastPath := ch.probePath,
            counters := { ch.counters with sent := bump16By (probeEnds (ch.path.1.length + 1)).length ch.counters.sent } }

theorem Cm.prepareBundle_of_extending {m : Cm} {p : Nat} (hstate : m.ch.state = .extending) (hattempt : m.ch.attempt = none)
    (hdue : m.ch.walkDoneDue = 0) (hq : m.ch.queue = []) (hclaims : m.ch.claims = []) (hp : m.ch.probeHop = some p) (n : Word16) :
    m.prepareBundle n = (m.modify Chain.extended).emit (.order
      { frame := n,
        kind := .assemble { frame := n, path := m.ch.probePath, probe := some (m.ch.path.1.length + 1), stop := m.ch.path.2,
                            deciding := false }
          ((probeEnds (m.ch.path.1.length + 1)).map fun x => .setEnd x.1 x.2) }) := by
  have hlen : m.ch.probePath.length = m.ch.path.1.length + 1 := List.length_append
  have hcomputed : m.computePath n false =
      (m.modify fun ch =>
        { ch with endHop := renumberEnd m.ch.lastPath m.ch.probePath m.ch.endHop, lastPath := m.ch.probePath,
                  probeHop := some (m.ch.path.1.length + 1), queue := [] },
       { frame := n, path := m.ch.probePath, probe := some (m.ch.path.1.length + 1), stop := m.ch.path.2, deciding := false }) := by
    rw [Cm.computePath_of_probe (hstate ▸ rfl), hp, ← hlen]
    refine Prod.ext (congrArg (fun ch => ({ m with ch := ch } : Cm)) ?_) rfl
    dsimp only
    rw [hq]
    rfl
  rw [Cm.prepareBundle_eq, Chain.decidesNext_of_none hattempt, hcomputed]
  dsimp only
  rw [if_neg Bool.false_ne_true, if_pos (by exact hstate), Cm.offerProbe_of_empty (p := m.ch.path.1.length + 1) rfl rfl,
    Cm.orderBundle_of_ends (probeEnds (m.ch.path.1.length + 1)) rfl (by exact hclaims)
      ((probeEnds_length _).trans (by decide)) (by exact hdue)]
  refine congrArg (fun ch => Cm.emit _ ({ m with ch := ch } : Cm)) ?_
  simp only [Cm.modify, Chain.leaveEnds, Chain.withEnds, foldl_endAfter_probeEnds, List.length_map, Chain.extended]
  rw [← hq]

end Sys2Proof.Machine
end

section
/-! A walk finds a node at its probe place, or none (R51, R53). -/

namespace Sys2Proof.Machine

/-! ### What the Scene Table and the reports are told of a found node (R47, R51) -/

section Put
variable {m : Cm} {a : Nat}

theorem Cm.handClamp_put (hlen : m.ch.nodes.length = 30) (ha : isAddress a = true) (n : Node) :
    (m.put a n).handClamp a = (m.put a n).emit (.clamp (.enrolled a n.clamp (overheat n.health))) := by
  rw [Cm.handClamp, Cm.put_node hlen ha]

/-- What is told of a record found or enrolled: its clamp and health set, then the report. -/
def Cm.tellFound (why : NodeCause) (a : Nat) (n : Node) (m : Cm) : Cm :=
  ((m.put a n).emit (.clamp (.enrolled a n.clamp (overheat n.health)))).emit
    (.report (.node why m.id a (some ((m.ch.setNode a (some n)).brief n))))

theorem Cm.handClamp_nodeReport_put (hlen : m.ch.nodes.length = 30) (ha : isAddress a = true) (n : Node) (why : NodeCause) :
    ((m.put a n).handClamp a).nodeReport why a = m.tellFound why a n := by
  rw [Cm.handClamp_put hlen ha, Cm.nodeReport_emit_put hlen ha]
  rfl

end Put

section Found
variable {m : Cm} {q : Nat} {x : Answer}

/-- A node enrolled at a position that no CUT record holds (R51). -/
theorem Cm.foundProbe_of_free (hlen : m.ch.nodes.length = 30) (ha : isAddress x.address = true) (hn : m.ch.node x.address = none)
    (hfree : ∀ b n, m.ch.node b = some n → n.state = .cut → n.position ≠ q) :
    m.foundProbe q x = m.tellFound .joined x.address (x.enrol q) := by
  have hleave : m.leavePosition q = m := by
    rw [Cm.leavePosition]
    split
    case h_1 b n hat =>
      obtain ⟨hb, hpos⟩ := Chain.atPosition_eq_some hat
      exact if_neg fun hcut => hfree b n hb hcut hpos
    case h_2 => rfl
  rw [Cm.foundProbe, hn]
  dsimp only
  rw [hleave]
  exact Cm.handClamp_nodeReport_put hlen ha _ _

/-- The CUT record that held the position leaves ahead of the node that joins (R51, log 37). -/
def Cm.left (b : Nat) (n : Node) (m : Cm) : Cm :=
  { m with ch := { m.ch.setNode b none with
             lostHeld := insertLost { address := b, position := n.position, kind := n.kindName, reachable := false,
                                      since := .all false } m.ch.lostHeld },
           out := m.out ++ [.clamp (.absent b), .report (.node .left m.id b none)] }

theorem Cm.leavePosition_of_cut {b : Nat} {n : Node} (hat : m.ch.atPosition q = some (b, n)) (hcut : n.state = .cut) :
    m.leavePosition q = m.left b n := by
  obtain ⟨hb, -⟩ := Chain.atPosition_eq_some hat
  have hreach : n.state.reachable = false := by rw [hcut]; rfl
  have hgone : (m.ch.setNode b none).node b = none := Chain.node_setNode_none (.inl rfl)
  rw [Cm.leavePosition, hat]
  dsimp only
  rw [if_pos hcut, Cm.lose, hb]
  dsimp only
  rw [hreach]
  refine (Cm.nodeReport_of_absent (by exact hgone) .left).trans ?_
  exact congrArg (fun o => ({ m.left b n with out := o } : Cm)) (List.append_assoc m.out [_] [_])

theorem Cm.foundProbe_of_cut {b : Nat} {n : Node} (hlen : m.ch.nodes.length = 30) (ha : isAddress x.address = true)
    (hn : m.ch.node x.address = none) (hat : m.ch.atPosition q = some (b, n)) (hcut : n.state = .cut) :
    m.foundProbe q x = (m.left b n).tellFound .joined x.address (x.enrol q) := by
  rw [Cm.foundProbe, hn]
  dsimp only
  rw [Cm.leavePosition_of_cut hat hcut]
  exact Cm.handClamp_nodeReport_put (m := m.left b n) ((List.length_set ..).trans hlen) ha _ _

/-- A record found again (R51). -/
theorem Cm.foundProbe_of_node {n : Node} (hlen : m.ch.nodes.length = 30) (hn : m.ch.node x.address = some n) :
    m.foundProbe q x = m.tellFound .found x.address (n.foundAgain x) := by
  rw [Cm.foundProbe, hn]
  dsimp only
  have hput : (m.modify fun ch => ch.updateNode x.address (Node.foundAgain x)) = m.put x.address (n.foundAgain x) :=
    congrArg (fun ch => ({ m with ch := ch } : Cm)) (Chain.updateNode_of_node hn _)
  rw [hput]
  exact Cm.handClamp_nodeReport_put hlen (Chain.isAddress_of_node hn) _ _

end Found

/-! ### The return of a walk (R43, R44, R51, R53) -/

section Walk
variable {m : Cm} {info : BundleInfo} {blocks : List StatusBlock}

/-- A chain walks, its probe at hop 1, and the return is of a bundle with that probe place alone. -/
structure WalksAtFirst (ch : Chain) (info : BundleInfo) : Prop where
  state : ch.state = .walking ∨ ch.state = .extending
  attempt : ch.attempt = none
  probeHop : ch.probeHop = some 1
  probe : info.probe = some 1
  path : info.path = [{ position := info.stop, address := none }]

theorem WalksAtFirst.walksOn {ch : Chain} (h : WalksAtFirst ch info) : ch.walksOn info = true := by
  rw [Chain.walksOn, h.probeHop, h.probe]
  rcases h.state with hs | hs <;> rw [hs] <;> rfl

theorem WalksAtFirst.not_settled {ch : Chain} (h : ch.state = .walking ∨ ch.state = .extending) : ch.settled = false := by
  refine decide_eq_false fun hand => ?_
  rcases h with hs | hs <;> exact nomatch hs.symm.trans hand.1

theorem Cm.stateEffect_of_walk (h : WalksAtFirst m.ch info) (answers : List Answer) :
    m.stateEffect info answers = m.readProbe info answers := by
  rw [Cm.stateEffect, h.attempt]
  rcases h.state with hs | hs <;> rw [hs]

/-- The probe place itself does nothing in step 4 (R44). -/
theorem Cm.foldl_takePlace_of_probe (h : info.path = [{ position := info.stop, address := none }]) (answers : List Answer)
    (m : Cm) : info.path.zipIdx.foldl (Cm.takePlace info answers) m = m := by
  rw [h]
  rfl

theorem WalksAtFirst.atProbe {ch : Chain} (h : WalksAtFirst ch info) {x : Answer} (hx : x.hop = 1) : info.atProbe x = true :=
  decide_eq_true (by rw [h.probe, hx])

/-- A walk whose probe place gave the return's one block, no clash (R51). -/
theorem Cm.arrival_of_found {M : Cm} {x : Answer} (h : WalksAtFirst m.ch info) (hanswers : answersOf blocks = [x]) (hx : x.hop = 1)
    (hclash : m.ch.probeClash info [x] = none)
    (hfound : ((m.modify (Chain.withComplete blocks)).modify Chain.noStranger).foundProbe info.stop x = M)
    (hstate : M.ch.state = .walking ∨ M.ch.state = .extending) (trailer : Nat) :
    m.arrival info blocks trailer =
      ((M.modify fun ch => { ch with probeHop := ch.probeHop.map (· + 1) }).modify Chain.unbroken).endHandling := by
  have hfilter (ch : Chain) : [x].filter (fun x => !info.atProbe x && !ch.matches info x) = [] := by
    rw [List.filter_singleton, h.atProbe hx]
    rfl
  have hread : ((m.modify (Chain.withComplete blocks)).modify Chain.noStranger).readProbe info [x] =
      M.modify fun ch => { ch with probeHop := ch.probeHop.map (· + 1) } := by
    rw [Cm.readProbe, if_pos (by exact h.walksOn), List.find?_singleton, h.atProbe hx, if_pos rfl]
    dsimp only
    rw [hfound]
  rw [Cm.arrival_of_no_clash (by rw [hanswers]; exact fun y hy => .inl (List.mem_singleton.1 hy ▸ h.atProbe hx))
    (by rw [hanswers]; exact hclash), hanswers, Cm.handleReturn_eq, hfilter, Cm.strangers_of_none]
  dsimp only
  rw [Cm.stateEffect_of_walk (by exact ⟨h.state, h.attempt, h.probeHop, h.probe, h.path⟩), hread,
    if_neg (ne_true_of_eq_false (WalksAtFirst.not_settled (by exact hstate))), Cm.foldl_takePlace_of_probe h.path]

/-- A walk whose probe place gave no block ends (R53). -/
theorem Cm.arrival_of_not_found (h : WalksAtFirst m.ch info) (hend : m.ch.endHop = none ∨ m.ch.endHop = some 1)
    (hq : m.ch.queue.length < 16) :
    m.arrival info [] 1 =
      ((((m.modify (Chain.withComplete [])).modify Chain.noStranger).modify (Chain.walkEnded 1)).modify
        Chain.unbroken).endHandling := by
  have hread : ((m.modify (Chain.withComplete [])).modify Chain.noStranger).readProbe info [] =
      ((m.modify (Chain.withComplete [])).modify Chain.noStranger).modify (Chain.walkEnded 1) := by
    rw [Cm.readProbe, if_pos (by exact h.walksOn), List.find?_nil]
    exact Cm.endWalk_of_first h.probeHop hq
  have hprobe : m.ch.probeClash info [] = none := by
    rw [Chain.probeClash, if_pos h.walksOn, List.find?_nil]
  rw [Cm.arrival_of_no_clash (fun y hy => absurd hy List.not_mem_nil) hprobe, Cm.handleReturn_eq,
    show answersOf [] = [] from rfl, List.filter_nil, Cm.strangers_of_none]
  dsimp only
  rw [Cm.stateEffect_of_walk (by exact ⟨h.state, h.attempt, h.probeHop, h.probe, h.path⟩), hread,
    Cm.foldl_takePlace_of_probe h.path]
  refine congrArg Cm.endHandling ?_
  split
  · exact if_pos hend
  · rfl

end Walk

end Sys2Proof.Machine
end

section
/-! The node at a walk's probe place told, and a walk that found none (R51, R53). -/

namespace Sys2Proof.Machine

/-- The set-backs of two walks: END stands where the second took it. -/
theorem foldl_endAfter_twoWalks {p k : Nat} (h : p ≠ k) (e : Option Nat) :
    [Cmd.setEnd p true, .setEnd (p + 1) false, .setEnd k true, .setEnd p false].foldl Cmd.endAfter e = some k := by
  simp [Cmd.endAfter, Ne.symm h]

/-- A walk's block whose position is on the chain and which its own record, if it has one, holds, is no clash (R51). -/
theorem WalksAtFirst.probeClash_of_fit {ch : Chain} {info : BundleInfo} (h : WalksAtFirst ch info) {x : Answer} (hx : x.hop = 1)
    (hq : info.stop ≤ 30) (hn : ∀ n, ch.node x.address = some n → n.position = info.stop) : ch.probeClash info [x] = none := by
  rw [Chain.probeClash, if_pos h.walksOn, List.find?_singleton, h.atProbe hx, if_pos rfl]
  dsimp only
  cases hnode : ch.node x.address with
  | none => exact if_neg (Nat.not_lt.2 hq)
  | some n => exact if_neg (not_or.2 ⟨Nat.not_lt.2 hq, not_not_intro (hn n hnode)⟩)

/-- The chain record once the return of a walk is counted, and it held no stranger. -/
def Chain.returned (ch : Chain) : Chain :=
  { ch with collect := none, stranger := none, counters := { ch.counters with complete := bump16 ch.counters.complete } }

section Returned
variable {ch : Chain}

theorem Chain.returned_state : ch.returned.state = ch.state := rfl
theorem Chain.returned_nodes : ch.returned.nodes = ch.nodes := rfl
theorem Chain.returned_node : ch.returned.node = ch.node := rfl
theorem Chain.returned_atPosition : ch.returned.atPosition = ch.atPosition := rfl
theorem Chain.returned_probeHop : ch.returned.probeHop = ch.probeHop := rfl
theorem Chain.returned_lostHeld : ch.returned.lostHeld = ch.lostHeld := rfl

end Returned

/-- The chain record when a walk's return has enrolled a node at its probe place, the first hop. -/
def Chain.walkedOn (nodes : List (Option Node)) (ch : Chain) : Chain :=
  { ch.returned with nodes := nodes, probeHop := some 2, breakCount := 0, lostHeld := [] }

theorem Chain.walkedOn_of_none_lost {ch : Chain} (h : ch.lostHeld = []) (nodes : List (Option Node)) :
    ch.walkedOn nodes =
      { ch with collect := none, stranger := none, breakCount := 0, probeHop := some 2, nodes := nodes,
                counters := { ch.counters with complete := bump16 ch.counters.complete } } := by
  unfold Chain.walkedOn
  rw [← h]
  rfl

/-- The return of a walk is handled once its found node is told. -/
theorem Cm.tellFound_ended {M : Cm} (hprobe : M.ch.probeHop = some 1) (why : NodeCause) (a : Nat) (n : Node) :
    (((M.tellFound why a n).modify fun ch => { ch with probeHop := ch.probeHop.map (· + 1) }).modify Chain.unbroken).endHandling =
      { M with
        ch := { M.ch.setNode a (some n) with probeHop := some 2, breakCount := 0, lostHeld := [] },
        out := M.out ++ (.clamp (.enrolled a n.clamp (overheat n.health)) ::
          .report (.node why M.id a (some ((M.ch.setNode a (some n)).brief n))) ::
          (M.ch.lostHeld.map LostNode.notice ++ [.notice .complete])) } := by
  have hnext : M.ch.probeHop.map (· + 1) = some 2 := by rw [hprobe]; rfl
  rw [Cm.endHandling, Cm.flushLost_eq]
  simp only [Cm.emit, Cm.modify, Cm.tellFound, Cm.put, Chain.unbroken, Chain.setNode, hnext, List.append_assoc, List.cons_append,
    List.nil_append]

/-- A walk's return with the block of a node that its probe found (R51): what the found node changed ahead of its own record is
`M`. -/
theorem Cm.arrival_of_told {m M : Cm} {info : BundleInfo} {blocks : List StatusBlock} {x : Answer} {why : NodeCause} {n : Node}
    (h : WalksAtFirst m.ch info) (hcount : m.ch.withComplete blocks =
      { m.ch with collect := none, counters := { m.ch.counters with complete := bump16 m.ch.counters.complete } })
    (hanswers : answersOf blocks = [x]) (hx : x.hop = 1) (hclash : m.ch.probeClash info [x] = none)
    (hfound : (m.modify Chain.returned).foundProbe info.stop x = M.tellFound why x.address n)
    (hstate : M.ch.state = m.ch.state) (hprobe : M.ch.probeHop = m.ch.probeHop) (trailer : Nat) :
    m.arrival info blocks trailer =
      { M with
        ch := { M.ch.setNode x.address (some n) with probeHop := some 2, breakCount := 0, lostHeld := [] },
        out := M.out ++ (.clamp (.enrolled x.address n.clamp (overheat n.health)) ::
          .report (.node why M.id x.address (some ((M.ch.setNode x.address (some n)).brief n))) ::
          (M.ch.lostHeld.map LostNode.notice ++ [.notice .complete])) } := by
  have hreturned : (m.modify (Chain.withComplete blocks)).modify Chain.noStranger = m.modify Chain.returned := by
    rw [Cm.modify, Cm.modify, hcount]
    rfl
  have hwalking : (M.tellFound why x.address n).ch.state = .walking ∨ (M.tellFound why x.address n).ch.state = .extending := by
    rw [show (M.tellFound why x.address n).ch.state = m.ch.state from hstate]
    exact h.state
  rw [Cm.arrival_of_found h hanswers hx hclash (hreturned ▸ hfound) hwalking, Cm.tellFound_ended (hprobe.trans h.probeHop)]

/-- A walk whose probe at hop 1 found no node is over (R53). -/
theorem Chain.walkEnded_returned (ch : Chain) :
    (((ch.withComplete []).noStranger).walkEnded 1).unbroken =
      { ch with
        collect := none, stranger := none, breakCount := 0, probeHop := none, state := .running,
        counters := { ch.counters with complete := bump16 ch.counters.complete },
        queue := insertRepair ch.queue { cmd := .setEnd 1 false, issuer := .manager, ofAttempt := false, endsWalk := true } } := by
  rw [Chain.withComplete_of_inRange fun b hb => absurd hb List.not_mem_nil]
  rfl

/-- A notice alone is delivered, and no clamp message. -/
theorem State.deliver_notice (c : ChainId) (l : RunnerMsg) (s : State) :
    [.notice l].foldl (State.deliverCm c) s =
      s.setMail { s.mail with clamps := s.mail.clamps.set c (s.mail.clamps.get c ++ []),
                              notices := s.mail.notices.set c (s.mail.notices.get c ++ [l]) } := by
  rw [List.append_nil, Four.set_get]
  rfl

/-- What is delivered of a node found where a CUT record stood: the record's absence and its lost notice with it. -/
theorem State.deliver_left (c : ChainId) (k k' : ClampMsg) (r r' : ReportBody) (l l' : RunnerMsg) (s : State) :
    [.clamp k, .report r, .clamp k', .report r', .notice l, .notice l'].foldl (State.deliverCm c) s =
      ((s.setMail { s.mail with clamps := s.mail.clamps.set c (s.mail.clamps.get c ++ [k, k']),
                                notices := s.mail.notices.set c (s.mail.notices.get c ++ [l, l']) }).report r).report r' := by
  simp only [List.foldl_cons, List.foldl_nil, State.deliverCm, State.report, State.setMail, Four.get_set_same, Four.set_set,
    List.append_assoc, List.cons_append, List.nil_append]
  rfl

end Sys2Proof.Machine
end

section
/-! A clash (R52): the chain FAULTED, every record gone, and what is told of it. -/

namespace Sys2Proof.Machine

/-! ### The queue emptied behind an output that is no notice (R29, R161) -/

/-- What a Chain Manager handed on is `o`, then messages alone, the clamp messages `clamps` among them. -/
structure Cm.Tells (o : CmOut) (clamps : List ClampMsg) (m : Cm) : Prop where
  first : ∃ l, m.out = o :: l ∧ (∀ x ∈ l, x.isMessage) ∧ ∀ k ∈ clamps, .clamp k ∈ l

theorem Cm.Tells.giveRoom {o : CmOut} {clamps : List ClampMsg} {m : Cm} (h : m.Tells o clamps)
    (ho : ∀ r, o ≠ .notice (.room r)) (r : RunnerId) : (m.giveRoom r).Tells o clamps := by
  obtain ⟨l, hout, hl, hclamps⟩ := h.first
  refine ⟨?_⟩
  have hmessages (l' : List CmOut) (rs : List RunnerId) (h' : ∀ x ∈ l', x.isMessage) :
      ∀ x ∈ l' ++ [.notice (.room rs)], x.isMessage := fun x hx =>
    (List.mem_append.1 hx).elim (h' x) fun hx => List.mem_singleton.1 hx ▸ trivial
  unfold Cm.giveRoom
  split
  case h_1 rs hlast =>
    rw [hout] at hlast
    cases l with
    | nil => exact absurd (Option.some.inj hlast) (ho rs)
    | cons y l =>
        have hend : (y :: l).getLast? = some (.notice (.room rs)) := by rwa [List.getLast?_cons_cons] at hlast
        refine ⟨(y :: l).dropLast ++ [.notice (.room (rs ++ [r]))], ?_,
          hmessages _ _ fun x hx => hl x (List.dropLast_subset _ hx), fun k hk => ?_⟩
        · rw [hout]
          rfl
        · have hkept := hclamps k hk
          rw [← List.dropLast_append_getLast? _ hend] at hkept
          refine List.mem_append.2 (.inl ((List.mem_append.1 hkept).resolve_right fun h => ?_))
          exact nomatch List.mem_singleton.1 h
  case h_2 =>
    exact ⟨l ++ [.notice (.room [r])], by rw [Cm.emit, hout]; rfl, hmessages _ _ hl,
      fun k hk => List.mem_append.2 (.inl (hclamps k hk))⟩

theorem Cm.Tells.foldl_giveRoom {o : CmOut} {clamps : List ClampMsg} (ho : ∀ r, o ≠ .notice (.room r)) (rs : List RunnerId)
    {m : Cm} (h : m.Tells o clamps) :
    ∃ out, rs.foldl (fun m r => m.giveRoom r) m = { m with out := out } ∧ ({ m with out := out } : Cm).Tells o clamps := by
  induction rs generalizing m with
  | nil => exact ⟨m.out, rfl, h⟩
  | cons r rs ih =>
      obtain ⟨out, heq, hout⟩ := ih (h.giveRoom ho r)
      refine ⟨out, ?_, ⟨hout.first⟩⟩
      rw [List.foldl_cons, heq, Cm.giveRoom_eq]

/-- The chain record with its queue emptied, every command discarded (R29). -/
def Chain.emptied (ch : Chain) : Chain :=
  { ch with queue := [], claims := [],
            counters := { ch.counters with
              discarded := bump16By (ch.queue.length + ch.claims.length) ch.counters.discarded } }

theorem Cm.Tells.emptyQueue {o : CmOut} {clamps : List ClampMsg} {m : Cm} (h : m.Tells o clamps)
    (ho : ∀ r, o ≠ .notice (.room r)) :
    ∃ l, m.emptyQueue = { m with ch := m.ch.emptied, out := o :: l } ∧ (∀ x ∈ l, x.isMessage) ∧ ∀ k ∈ clamps, .clamp k ∈ l := by
  obtain ⟨out, heq, htells⟩ := Cm.Tells.foldl_giveRoom ho (m.ch.claims.map fun k => k.runner)
    (m := m.modify Chain.emptied) ⟨h.first⟩
  obtain ⟨l, hout, hl⟩ := htells.first
  exact ⟨l, heq.trans (by rw [show out = o :: l from hout]; rfl), hl⟩

/-! ### The records of a chain lost and gone (R47, R49) -/

theorem Cm.lose_eq (a : Nat) (m : Cm) : ∃ held, m.lose a = m.modify fun ch => { ch with lostHeld := held } := by
  unfold Cm.lose
  split
  · exact ⟨_, rfl⟩
  · exact ⟨m.ch.lostHeld, rfl⟩

theorem Cm.foldl_lose_makeAbsent (l : List Nat) (m : Cm) :
    ∃ held, l.foldl (fun m a => (m.lose a).makeAbsent a) m =
      { m with ch := { m.ch.without l with lostHeld := held }, out := m.out ++ l.map fun a => .clamp (.absent a) } := by
  induction l generalizing m with
  | nil => exact ⟨m.ch.lostHeld, by rw [List.map_nil, List.append_nil]; rfl⟩
  | cons a l ih =>
      obtain ⟨held, hlose⟩ := m.lose_eq a
      obtain ⟨held', hrest⟩ := ih ((m.lose a).makeAbsent a)
      refine ⟨held', ?_⟩
      rw [List.foldl_cons, hrest, hlose, List.map_cons, List.append_cons]
      rfl

/-! ### The clash -/

/-- The fields that a clash sets behind the queue (R52). -/
def Chain.faulted (ch : Chain) : Chain :=
  { ch with endHop := none, probeHop := none, brokenFrom := none, attempt := none, stranger := none, breakCount := 0,
            state := .faulted, lastPath := [], probes := [], walkDoneDue := 0 }

/-- The chain record that a clash leaves (R52). -/
def Chain.clashed (ch : Chain) : Chain :=
  { (ch.without (ch.enrolled.map fun p => p.1)).emptied.faulted with lostHeld := [] }

theorem Chain.node_clashed (ch : Chain) (a : Nat) : ch.clashed.node a = none := ch.node_without_enrolled a

/-- A clash behind its fault: every record lost and gone, then the queue. -/
def Cm.allGone (m : Cm) : Cm := (m.ch.enrolled.map fun p => p.1).foldl (fun m a => (m.lose a).makeAbsent a) m

theorem Cm.clash_eq (info : BundleInfo) (x : Answer) (m : Cm) :
    ∃ (f : PartFault) (node : Option NodeRef), m.clash info x =
      (((m.emit (.fault f node)).allGone.emptyQueue.modify Chain.faulted).chainReport .faulted).emit .faulted := ⟨_, _, rfl⟩

theorem Cm.allGone_eq (m : Cm) :
    ∃ held, m.allGone =
      { m with ch := { m.ch.without (m.ch.enrolled.map fun p => p.1) with lostHeld := held },
               out := m.out ++ (m.ch.enrolled.map fun p => p.1).map fun a => .clamp (.absent a) } :=
  Cm.foldl_lose_makeAbsent _ m

/-- The records of a chain are gone, and the Scene Table told of each (R47). -/
theorem Cm.tells_allGone {o : CmOut} {m : Cm} (hout : m.out = [o]) :
    m.allGone.Tells o ((m.ch.enrolled.map fun p => p.1).map .absent) := by
  obtain ⟨held, hgone⟩ := m.allGone_eq
  rw [hgone]
  refine ⟨_, by rw [hout]; rfl, fun y hy => ?_, fun k hk => ?_⟩
  · obtain ⟨a, -, rfl⟩ := List.mem_map.1 hy
    trivial
  · obtain ⟨a, ha, rfl⟩ := List.mem_map.1 hk
    exact List.mem_map.2 ⟨a, ha, rfl⟩

theorem LostNode.notice_isMessage {l : List LostNode} {o : CmOut} (h : o ∈ l.map LostNode.notice ++ [.notice .complete]) :
    o.isMessage := by
  rcases List.mem_append.1 h with h | h
  · obtain ⟨y, -, rfl⟩ := List.mem_map.1 h
    trivial
  · exact List.mem_singleton.1 h ▸ trivial

/-- What a handled clash hands on (R52): its fault first, then messages, every record's absence among them, the report with the
Frame Assembler's order, and messages again. -/
structure Clashed (m : Cm) (out : List CmOut) : Prop where
  told : ∃ (f : PartFault) (node : Option NodeRef) (r : ReportBody) (before after : List CmOut),
    out = .fault f node :: (before ++ .report r :: .faulted :: after) ∧ (∀ o ∈ before, o.isMessage) ∧
      (∀ o ∈ after, o.isMessage) ∧ ∀ d n, m.ch.node d = some n → .clamp (.absent d) ∈ before

theorem Cm.clash_ended {m : Cm} (hout : m.out = []) (info : BundleInfo) (x : Answer) :
    ∃ out, (m.clash info x).endHandling = { m with ch := m.ch.clashed, out := out } ∧ Clashed m out := by
  obtain ⟨f, node, hclash⟩ := m.clash_eq info x
  obtain ⟨held, hgone⟩ := (m.emit (.fault f node)).allGone_eq
  obtain ⟨before, hempty, hbefore, hclamps⟩ :=
    (Cm.tells_allGone (m := m.emit (.fault f node)) (by rw [Cm.emit, hout]; rfl)).emptyQueue fun _ => CmOut.noConfusion
  let r : ReportBody := .chain .faulted m.id .faulted none m.ch.clashed.stateCounts
  refine ⟨.fault f node :: (before ++ .report r :: .faulted :: (held.map LostNode.notice ++ [.notice .complete])), ?_,
    ⟨f, node, r, before, _, rfl, hbefore, fun o ho => LostNode.notice_isMessage ho, fun d n hd => hclamps _ ?_⟩⟩
  · rw [hclash, hempty, hgone, Cm.endHandling, Cm.flushLost_eq]
    simp only [Cm.emit, Cm.modify, Cm.chainReport, List.append_assoc, List.cons_append, List.nil_append]
    rfl
  · exact List.mem_map.2 ⟨d, List.mem_map.2 ⟨(d, n), Chain.mem_enrolled.2 hd, rfl⟩, rfl⟩

/-! ### What of it reaches the other blocks -/

theorem State.deliverCm_pool (c : ChainId) (s : State) (o : CmOut) : (s.deliverCm c o).pool = s.pool := by
  cases o <;> rfl

theorem State.manage_pool (c : ChainId) (f : Cm → Cm) (s : State) : (s.manage c f).pool = s.pool := by
  have hall (l : List CmOut) : ∀ s : State, (l.foldl (State.deliverCm c) s).pool = s.pool := by
    induction l with
    | nil => exact fun s => rfl
    | cons o l ih => exact fun s => (ih _).trans (State.deliverCm_pool c s o)
  rw [State.manage_eq, hall]
  rfl

/-- A clamp message handed on is in the Scene Table's mailbox. -/
theorem State.mem_clamps_deliver {c : ChainId} {k : ClampMsg} (l : List CmOut) (s : State)
    (h : .clamp k ∈ l ∨ k ∈ s.mail.clamps.get c) : k ∈ (l.foldl (State.deliverCm c) s).mail.clamps.get c := by
  induction l generalizing s with
  | nil => exact h.resolve_left List.not_mem_nil
  | cons o l ih =>
      refine ih _ ?_
      rcases h with h | h
      · rcases List.mem_cons.1 h with rfl | h
        · refine .inr ?_
          simp only [State.deliverCm, Four.get_set_same]
          exact List.mem_append.2 (.inr (List.mem_singleton.2 rfl))
        · exact .inl h
      · refine .inr ?_
        cases o with
        | clamp k' =>
            simp only [State.deliverCm, Four.get_set_same]
            exact List.mem_append.2 (.inl h)
        | report r => exact h
        | fault f n => exact h
        | notice n => exact h
        | order x => exact h
        | faulted => exact h
        | disabled => exact h

theorem State.deliver_messages_link_orders (c : ChainId) {l : List CmOut} (h : ∀ o ∈ l, o.isMessage) (s : State) :
    (l.foldl (State.deliverCm c) s).link = s.link ∧ (l.foldl (State.deliverCm c) s).mail.orders = s.mail.orders := by
  obtain ⟨k, n, heq⟩ := State.deliver_messages c l h s
  exact heq ▸ ⟨rfl, rfl⟩

/-- Of a clash the Control Link has the one fault and the Frame Assembler the one order (R52). -/
theorem Clashed.deliver {m : Cm} {out : List CmOut} (h : Clashed m out) (c : ChainId) (s : State) :
    (out.foldl (State.deliverCm c) s).link.faultCount = bump16 s.link.faultCount ∧
      (out.foldl (State.deliverCm c) s).mail.orders = s.mail.orders.set c (s.mail.orders.get c ++ [.faulted]) := by
  obtain ⟨f, node, r, before, after, rfl, hbefore, hafter, -⟩ := h.told
  rw [List.foldl_cons, List.foldl_append, List.foldl_cons, List.foldl_cons]
  obtain ⟨hlink, horders⟩ := State.deliver_messages_link_orders c hbefore (s.deliverCm c (.fault f node))
  obtain ⟨hlink', horders'⟩ := State.deliver_messages_link_orders c hafter
    (((before.foldl (State.deliverCm c) (s.deliverCm c (.fault f node))).deliverCm c (.report r)).deliverCm c .faulted)
  refine ⟨?_, ?_⟩
  · exact (congrArg Link.faultCount hlink').trans ((Link.offer_faultCount _ _ _).trans
      ((congrArg Link.faultCount hlink).trans (State.raise_faultCount _ _ _ _)))
  · exact horders'.trans (congrArg (fun o : Four (List AsmMsg) => o.set c (o.get c ++ [AsmMsg.faulted])) horders)

/-! ### The return with a clash (R43, R51, R52) -/

/-- A return that ends in a clash (R52): the fault, the order, and the chain with no record. -/
theorem exec_returnItemReceived_of_clash {c : ChainId} {item : Instr} {info : BundleInfo} {x : Answer}
    {blocks : List StatusBlock} {trailer : Nat} {s : State}
    (hexec : exec item s = .next (s.manage c (Cm.arrival info blocks trailer)).ended)
    (harrival : (s.manager c).arrival info blocks trailer =
      (((s.manager c).modify (Chain.withComplete blocks)).clash info x).endHandling) :
    ∃ u, exec item s = .next u ∧ u.chains.get c = ((s.chains.get c).withComplete blocks).clashed ∧
      u.link.faultCount = bump16 s.link.faultCount ∧
      u.mail.orders = s.mail.orders.set c (s.mail.orders.get c ++ [.faulted]) ∧
      (∀ d m, (s.chains.get c).node d = some m → .absent d ∈ u.mail.clamps.get c) ∧
      (∀ d, d ≠ c → u.chains.get d = s.chains.get d) ∧ u.asm = s.asm ∧ u.pool = s.pool := by
  obtain ⟨out, hclash, htold⟩ := Cm.clash_ended (m := (s.manager c).modify (Chain.withComplete blocks)) rfl info x
  have hmanage := harrival.trans hclash
  obtain ⟨hcount, horders⟩ := htold.deliver c (s.setChain c ((s.chains.get c).withComplete blocks).clashed)
  have heq : s.manage c (Cm.arrival info blocks trailer) =
      out.foldl (State.deliverCm c) (s.setChain c ((s.chains.get c).withComplete blocks).clashed) := State.manage_of_outs hmanage
  refine ⟨_, hexec, ?_, ?_, ?_, fun d m hd => ?_, fun d hd => State.manage_other_chain hd _ s, State.manage_asm c _ s,
    State.manage_pool c _ s⟩
  · exact (State.manage_chain c _ s).trans (congrArg Cm.ch hmanage)
  · rw [State.ended_faultCount, heq, hcount]
    rfl
  · rw [State.ended_mail, heq, horders]
    rfl
  · rw [State.ended_mail, heq]
    obtain ⟨f, node, r, before, after, rfl, -, -, hclamps⟩ := htold.told
    exact State.mem_clamps_deliver _ _ (.inl (List.mem_cons_of_mem _ (List.mem_append.2 (.inl (hclamps d m hd)))))

end Sys2Proof.Machine
end

section
/-! Walks that find nodes, or end (R51 to R54). -/

namespace Sys2Proof.Machine

section Clash
variable {m : Cm} {info : BundleInfo} {blocks : List StatusBlock} {x : Answer}

/-- The one block of a return, at its path hop, tells another position than its record's (R43). -/
theorem Cm.arrival_of_clash (hanswers : answersOf blocks = [x]) (hprobe : info.atProbe x = false)
    (hclash : m.ch.clashes info x = true) (trailer : Nat) :
    m.arrival info blocks trailer = ((m.modify (Chain.withComplete blocks)).clash info x).endHandling := by
  have hfind : [x].find? (fun x => !info.atProbe x && (m.modify (Chain.withComplete blocks)).ch.clashes info x) = some x := by
    rw [List.find?_singleton, hprobe, show (m.modify (Chain.withComplete blocks)).ch.clashes info x = true from hclash]
    rfl
  rw [Cm.arrival_eq, hanswers]
  dsimp only
  rw [hfind]

/-- The one block of a return, at the probe place, tells a position no walk can give its node (R51). -/
theorem Cm.arrival_of_probeClash (hanswers : answersOf blocks = [x]) (hprobe : info.atProbe x = true)
    (hclash : m.ch.probeClash info [x] = some x) (trailer : Nat) :
    m.arrival info blocks trailer = ((m.modify (Chain.withComplete blocks)).clash info x).endHandling := by
  have hfind : [x].find? (fun x => !info.atProbe x && (m.modify (Chain.withComplete blocks)).ch.clashes info x) = none := by
    rw [List.find?_singleton, hprobe]
    rfl
  rw [Cm.arrival_eq, hanswers]
  dsimp only
  rw [hfind]
  dsimp only
  rw [show (m.modify (Chain.withComplete blocks)).ch.probeClash info [x] = some x from hclash]

theorem Chain.walksOn_of_first {ch : Chain} (hstate : ch.state = .walking ∨ ch.state = .extending)
    (hprobeHop : ch.probeHop = some 1) (hprobe : info.probe = some 1) : ch.walksOn info = true := by
  rw [Chain.walksOn, hprobeHop, hprobe]
  rcases hstate with hs | hs <;> rw [hs] <;> rfl

theorem Chain.probeClash_of_misfit {ch : Chain} {n : Node} (hwalks : ch.walksOn info = true) (hprobe : info.atProbe x = true)
    (h : 30 < info.stop ∨ ch.node x.address = some n ∧ n.position ≠ info.stop) : ch.probeClash info [x] = some x := by
  rw [Chain.probeClash, if_pos hwalks, List.find?_singleton, hprobe, if_pos rfl]
  dsimp only
  cases hnode : ch.node x.address with
  | none => exact if_pos (h.resolve_right fun h => nomatch hnode.symm.trans h.1)
  | some n' => exact if_pos (h.imp_right fun h => Option.some.inj (h.1.symm.trans hnode) ▸ h.2)

theorem Chain.clashes_of_place {ch : Chain} {n : Node} {q : Nat} {a : Option Nat}
    (hplace : placeAt info.path x.hop = some { position := q, address := a }) (hnode : ch.node x.address = some n)
    (hpos : n.position ≠ q) : ch.clashes info x = true := by
  rw [Chain.clashes, hnode, hplace]
  exact decide_eq_true hpos.symm

end Clash

/-- Settles O20: the return of a walk at its first probe place is `Cm.arrival_of_told`, over the record enrolled, the one that
took a CUT record's place or the one found again, or `Cm.arrival_of_not_found`; a clash is `Cm.clash_ended`; a missing return
is `Cm.endWalk_of_probe`; and the bundle of the set-back takes the whole front of the queue
(`exec_chainManagerTick_of_walkDone`). -/
theorem walksFindNodesOrEnd : Obligations.WalksFindNodesOrEnd := by
  unfold Obligations.WalksFindNodesOrEnd
  refine ⟨?found, ?clash, ?missing, ?walkDone, ?five, ?extending⟩
  case found =>
    intro c k s a q kb tag f hi lo kd mode gen identity ch echo hcollect hstop hstate hprobeHop hattempt hlost hlen hprobe hstopAt
      hpath hcrc item heard mail said state enrolled joined hot block
    have hwalk : WalksAtFirst (s.manager c).ch k.info := ⟨hstate, hattempt, hprobeHop, hprobe, hstopAt ▸ hpath⟩
    have hexec : exec item s = .next (s.manage c (Cm.arrival k.info k.blocks 1)).ended :=
      exec_returnItemReceived_of_arrival hcollect hstop hcrc (by decide) (by decide) rfl
    refine ⟨fun hblocks h1 h30 hf hkind => ?answered, fun hblocks hq hend => ?silent⟩
    case answered =>
      have ha : isAddress a = true := isAddress_of h1 h30
      let x : Answer :=
        { hop := 1, address := a, kind := kd, mode := mode, tag := tag, gen := some gen, health := f.setWidth 4,
          identity := identity }
      have hrange : block.InRange := nodeBlock_inRange h1 h30 (hkind.imp And.left And.left) hf
      have hread : block.read = x := nodeBlock_read h30 hkind
      have hanswers : answersOf k.blocks = [x] := by rw [hblocks, answersOf_one hrange, hread]
      have hcomplete := Chain.withComplete_of_inRange (blocks := k.blocks)
        (fun b hb => by rw [hblocks] at hb; exact List.mem_singleton.1 hb ▸ hrange) ch
      have hstate_eq : mode.state = state := by cases mode <;> rfl
      have hkind_eq : kd.enrolment = enrolled := by cases kd <;> rfl
      have henrol : x.enrol q = joined := by
        rw [Answer.enrol, show x.mode.state = state from hstate_eq, show x.kind.enrolment = enrolled from hkind_eq]
        rfl
      have hprobeClash (hq : q ≤ 30) (hn : ∀ n, ch.node a = some n → n.position = q) :
          (s.manager c).ch.probeClash k.info [x] = none := hwalk.probeClash_of_fit rfl (hstopAt ▸ hq) (hstopAt ▸ hn)
      refine ⟨fun hq hn hfree => ?free, fun b m hq hn hat hcut => ?left, fun n hq hn hcut hpos => ?again⟩
      case free =>
        have hfound := Cm.foundProbe_of_free (m := (s.manager c).modify Chain.returned) (q := k.info.stop) (x := x)
          ((congrArg List.length Chain.returned_nodes).trans hlen) ha ((congrFun Chain.returned_node a).trans hn)
          (fun b m hb => hstopAt ▸ hfree b m ((congrFun Chain.returned_node b).symm.trans hb))
        have harrival := Cm.arrival_of_told hwalk hcomplete hanswers rfl (hprobeClash hq fun n h => nomatch hn.symm.trans h) hfound
          Chain.returned_state Chain.returned_probeHop 1
        intro ch'
        have hch' : ch' = ch.walkedOn (ch.setNode a (some joined)).nodes := (Chain.walkedOn_of_none_lost hlost _).symm
        have hout : (s.manager c).arrival k.info k.blocks 1 =
            { id := c, ch := ch',
              out := [.clamp (.enrolled a 600 hot), .report (said .joined ch' joined), .notice .complete] } := by
          rw [harrival, hch', hstopAt, henrol]
          have hkept : ((s.manager c).modify Chain.returned).ch.lostHeld = [] := Chain.returned_lostHeld.trans hlost
          rw [hkept]
          rfl
        rw [hexec, State.manage_of_outs hout]
        rfl
      case left =>
        have hfound := Cm.foundProbe_of_cut (m := (s.manager c).modify Chain.returned) (q := k.info.stop) (x := x)
          ((congrArg List.length Chain.returned_nodes).trans hlen) ha ((congrFun Chain.returned_node a).trans hn)
          (hstopAt ▸ (congrFun Chain.returned_atPosition q).trans hat) hcut
        have harrival := Cm.arrival_of_told hwalk hcomplete hanswers rfl (hprobeClash hq fun n h => nomatch hn.symm.trans h) hfound
          Chain.returned_state Chain.returned_probeHop 1
        intro ch'
        have hch' : ch' = ch.walkedOn ((ch.setNode b none).setNode a (some joined)).nodes :=
          (Chain.walkedOn_of_none_lost hlost _).symm
        have hout : (s.manager c).arrival k.info k.blocks 1 =
            { id := c, ch := ch',
              out := [.clamp (.absent b), .report (.node .left c b none), .clamp (.enrolled a 600 hot),
                .report (said .joined ch' joined), .notice (.lost b m.kindName false (.all false)), .notice .complete] } := by
          rw [harrival, hch', hstopAt, henrol]
          have hkept : (((s.manager c).modify Chain.returned).left b m).ch.lostHeld =
              insertLost { address := b, position := m.position, kind := m.kindName, reachable := false, since := .all false } [] :=
            congrArg (insertLost _) (Chain.returned_lostHeld.trans hlost)
          rw [hkept]
          rfl
        rw [hexec, State.manage_of_outs hout, State.deliver_left]
        rfl
      case again =>
        intro y ch'
        have hagain : n.foundAgain x = y := by
          simp only [Node.foundAgain, y, decide_eq_true_eq, hkind_eq, hstate_eq, x, enrolmentClamp, Option.some_or]
        have hfound := Cm.foundProbe_of_node (m := (s.manager c).modify Chain.returned) (q := k.info.stop) (x := x)
          ((congrArg List.length Chain.returned_nodes).trans hlen) ((congrFun Chain.returned_node a).trans hn)
        have harrival := Cm.arrival_of_told hwalk hcomplete hanswers rfl
          (hprobeClash hq fun n' h => Option.some.inj (hn.symm.trans h) ▸ hpos) hfound Chain.returned_state
          Chain.returned_probeHop 1
        have hch' : ch' = ch.walkedOn (ch.setNode a (some y)).nodes := (Chain.walkedOn_of_none_lost hlost _).symm
        have hout : (s.manager c).arrival k.info k.blocks 1 =
            { id := c, ch := ch',
              out := [.clamp (.enrolled a y.clamp hot), .report (said .found ch' y), .notice .complete] } := by
          rw [harrival, hch', hagain]
          have hkept : ((s.manager c).modify Chain.returned).ch.lostHeld = [] := Chain.returned_lostHeld.trans hlost
          rw [hkept]
          rfl
        rw [hexec, State.manage_of_outs hout]
        rfl
    case silent =>
      have harrival := Cm.arrival_of_not_found hwalk hend hq
      rw [Cm.endHandling_of_none (by exact hlost)] at harrival
      have hout : (s.manager c).arrival k.info [] 1 =
          { id := c, ch := (((ch.withComplete []).noStranger).walkEnded 1).unbroken, out := [.notice .complete] } := harrival
      rw [hexec, hblocks, State.manage_of_outs hout, Chain.walkEnded_returned, State.deliver_notice]
      rfl
  case clash =>
    intro c k s a q n b x hi lo ch echo hcollect hstop hlen hblocks hx hhop hcrc hcase
    have hanswers : answersOf k.blocks = [x] := by rw [hblocks, answersOf_single hx]
    have hexec : exec (.returnItemReceived c [0x54, 1, echo, hi, lo]) s = .next (s.manage c (Cm.arrival k.info k.blocks 1)).ended :=
      exec_returnItemReceived_of_arrival hcollect hstop hcrc (by decide) (by decide) rfl
    have harrival : (s.manager c).arrival k.info k.blocks 1 =
        (((s.manager c).modify (Chain.withComplete k.blocks)).clash k.info x).endHandling := by
      rcases hcase with ⟨hstate, hprobeHop, hprobe, hq, -, hfit⟩ | ⟨hprobe, hpath, hnode, hpos⟩
      · have hat : k.info.atProbe x = true := decide_eq_true (by rw [hprobe, hhop])
        exact Cm.arrival_of_probeClash hanswers hat
          (Chain.probeClash_of_misfit (n := n) (Chain.walksOn_of_first hstate hprobeHop hprobe) hat (hq ▸ hfit)) 1
      · have hat : k.info.atProbe x = false := decide_eq_false (by rw [hprobe]; exact nofun)
        exact Cm.arrival_of_clash hanswers hat
          (Chain.clashes_of_place (q := q) (a := some a) (by rw [hpath, hhop]; rfl) hnode hpos) 1
    obtain ⟨u, hu, hch, hcount, horders, hclamps, hothers, hasm, hpool⟩ := exec_returnItemReceived_of_clash hexec harrival
    refine ⟨u, hu, ?_⟩
    rw [hch]
    exact ⟨rfl, Chain.node_clashed _, rfl, rfl, rfl, rfl, rfl, rfl, rfl, rfl, rfl, rfl, hcount, horders, hclamps, hothers, hasm,
      hpool⟩
  case missing =>
    intro c k p s ch hcollect hstate hattempt hp hticks hprobe hq back
    have hmissing := (Cm.missing_of_walk (m := s.manager c) hcollect hstate).trans (Cm.endWalk_of_probe (by exact hprobe) (by exact hq))
    have hnone : ∀ t, ch.attempt = some t → t.evicted = false ∧ t.lapsed = false := by simp [hattempt]
    rw [exec_returnDeadline_of_due hcollect hp hticks, State.manage_of_silent (Cm.deadline_of_missing hmissing hnone)]
    rfl
  case walkDone =>
    intro c n ticks h on s ch x hticks hstate hp hcollect hattempt hlost hclaims renumbered cmd sent info left hleft
    have hone : ∃ tagged, ch.queue = [{ cmd := x, issuer := .manager, ofAttempt := false, endsWalk := tagged }] ∧
        ch.walkDoneDue + ([({ cmd := x, issuer := .manager, ofAttempt := false, endsWalk := tagged } : QEntry)].map
          QEntry.walksEnded).sum = 1 := by
      rcases hleft with ⟨hdue, hq⟩ | ⟨hdue, hq⟩
      · exact ⟨_, hq, by rw [hdue]; rfl⟩
      · exact ⟨_, hq, by rw [hdue]; rfl⟩
    obtain ⟨tagged, hq, hdue⟩ := hone
    obtain ⟨h', on', hcmd⟩ := ch.onNewPath_setEnd h on
    have hsent : ch.walkDoneSent ch.queue [] = sent := by
      have hcmd' : cmd = .setEnd h' on' := hcmd
      simp only [sent, hcmd', Chain.depart_setEnd]
      rw [hq, ← hcmd]
      rfl
    rw [exec_chainManagerTick_of_walkDone hticks hstate hp hcollect hattempt hlost hclaims (List.append_nil _).symm
      (by rw [hq]; exact fun y hy => List.mem_singleton.1 hy ▸ ⟨⟨h, on, rfl⟩, rfl⟩) (by rw [hq]; exact Nat.le_add_left 1 3) (.inl rfl)
      (by rw [hq]; exact hdue), hsent, hq, show info = ch.bundleInfo n from ?_]
    · rfl
    · rw [Chain.bundleInfo, Chain.decidesNext_of_none hattempt]
  case five =>
    intro c n ticks p k s ch back hticks hstate hp hcollect hattempt hlost hdue hclaims moved cmds endHop hq info
    refine ⟨fun hpath hne => ?_, ?_⟩
    · have hmoved (h : Nat) (on : Bool) : moved h on = .setEnd h on := by
        simp only [moved, hpath, Cmd.onPath_same]
      refine ⟨hmoved, ?_⟩
      simp only [endHop, cmds, hmoved]
      exact foldl_endAfter_twoWalks hne _
    · have hinfo : info = ch.bundleInfo n := by rw [Chain.bundleInfo, Chain.decidesNext_of_none hattempt]
      rw [exec_chainManagerTick_of_walkDone (l := [back p true false, back (p + 1) false true, back k true false, back p false false])
        (rest := [back (p + 2) false false]) hticks hstate hp hcollect hattempt hlost hclaims hq ?_ (Nat.le_refl 4) (.inr rfl)
        (by rw [hdue]; rfl), hinfo]
      · have hsent : ch.walkDoneSent [back p true false, back (p + 1) false true, back k true false, back p false false]
            [back (p + 2) false false] = { ch with
              lastPath := ch.path.1, endHop := endHop, queue := [{ back (p + 2) false false with cmd := moved (p + 2) false }],
              counters := { ch.counters with sent := bump16By 4 ch.counters.sent } } := by
          unfold Chain.walkDoneSent
          rw [← hdue]
          rfl
        rw [hsent]
        rfl
      · intro x hx
        simp only [List.mem_cons, List.not_mem_nil, or_false] at hx
        rcases hx with rfl | rfl | rfl | rfl <;> exact ⟨⟨_, _, rfl⟩, rfl⟩
  case extending =>
    intro c n ticks p s ch hticks hstate hp hcollect hattempt hlost hdue hq hclaims hprobe full p' cmds info
    have hsend : Cm.send n (s.manager c) = _ := (show Cm.send n (s.manager c) = Cm.prepareBundle n (s.manager c) from by
      rw [Cm.send, State.manager_ch, hstate]).trans (Cm.prepareBundle_of_extending hstate hattempt hdue hq hclaims hprobe n)
    have htick := Cm.tick_of_send hp (Cm.deadline_of_none hcollect hattempt) hsend hlost
    have hcmds : (probeEnds p').map (fun x => Cmd.setEnd x.1 x.2) = cmds := by
      simp only [cmds, probeEnds]
      split <;> rfl
    rw [exec_chainManagerTick_of_order hticks htick, ← hcmds, List.length_map]
    rfl

end Sys2Proof.Machine
end

section
/-! Attempts that end at a deadline (R61, R63, R64). -/

namespace Sys2Proof.Machine

/-! ### Reports alone, and a cut, delivered -/

theorem State.deliver_reports (c : ChainId) {l : List CmOut} (h : ∀ o ∈ l, o.isReport) (s : State) :
    ∃ k, l.foldl (State.deliverCm c) s = { s with link := k } ∧ k.faultCount = s.link.faultCount := by
  induction l generalizing s with
  | nil => exact ⟨s.link, rfl, rfl⟩
  | cons o l ih =>
      obtain ⟨⟨b, rfl⟩, hl⟩ := List.forall_mem_cons.1 h
      obtain ⟨k, heq, hk⟩ := ih hl (s.report b)
      exact ⟨k, heq, hk.trans (Link.offer_faultCount _ _ _)⟩

/-- Reports around one fault reach the Control Link alone, which counts the fault. -/
theorem State.deliver_reports_fault (c : ChainId) {r r' : List CmOut} (h : ∀ o ∈ r ++ r', o.isReport) (f : PartFault)
    (node : Option NodeRef) (s : State) :
    ∃ k, (r ++ .fault f node :: r').foldl (State.deliverCm c) s = { s with link := k } ∧
      k.faultCount = bump16 s.link.faultCount := by
  obtain ⟨k, heq, hk⟩ := State.deliver_reports c (fun o ho => h o (List.mem_append.2 (.inl ho))) s
  obtain ⟨k', heq', hk'⟩ := State.deliver_reports c (fun o ho => h o (List.mem_append.2 (.inr ho)))
    (({ s with link := k } : State).raise f (.chain c) node)
  refine ⟨k', ?_, hk'.trans ((State.raise_faultCount _ _ _ _).trans (congrArg bump16 hk))⟩
  rw [List.foldl_append, List.foldl_cons, heq]
  exact heq'

/-- What a cut at a position leaves of a state (R59). -/
def IsCut (c : ChainId) (at_ : Nat) (s u : State) : Prop :=
  let ch := s.chains.get c
  let ch' := u.chains.get c
  ch'.state = .running ∧ ch'.attempt = none ∧ ch'.brokenFrom = none ∧ ch'.breakCount = 0 ∧ ch'.collect = none ∧
  (∀ a n, ch.node a = some n →
    (n.state.reachable = true → at_ < n.position → ch'.node a = some { n with state := .cut }) ∧
    (¬ (n.state.reachable = true ∧ at_ < n.position) → ch'.node a = some n)) ∧
  (∀ a, ch.node a = none → ch'.node a = none) ∧
  ch'.endHop = ch.endHop ∧ ch'.portRoute = ch.portRoute ∧ (∀ d, d ≠ c → u.chains.get d = s.chains.get d) ∧
  u.link.faultCount = bump16 s.link.faultCount ∧ u.asm = s.asm ∧ u.pool = s.pool ∧ u.scene = s.scene

/-- The chain record of a Chain Manager that is about to cut: the records, END and the port route as they were, no return
collected. -/
structure Chain.CutsFrom (ch ch0 : Chain) : Prop where
  node : ch0.node = ch.node
  endHop : ch0.endHop = ch.endHop
  portRoute : ch0.portRoute = ch.portRoute
  collect : ch0.collect = none

section CutAt
variable {ch : Chain} (q h : Nat) (held : List LostNode)

theorem Chain.cutAt_state : (ch.cutAt q h held).state = .running := rfl
theorem Chain.cutAt_attempt : (ch.cutAt q h held).attempt = none := rfl
theorem Chain.cutAt_brokenFrom : (ch.cutAt q h held).brokenFrom = none := rfl
theorem Chain.cutAt_breakCount : (ch.cutAt q h held).breakCount = 0 := rfl
theorem Chain.cutAt_collect : (ch.cutAt q h held).collect = ch.collect := rfl
theorem Chain.cutAt_endHop : (ch.cutAt q h held).endHop = ch.endHop := rfl
theorem Chain.cutAt_portRoute : (ch.cutAt q h held).portRoute = ch.portRoute := rfl
theorem Chain.cutAt_queue : (ch.cutAt q h held).queue = (ch.endAtCutQueue h).map QEntry.settled := rfl

end CutAt

/-- A Chain Manager's event that is one cut with room for its SET_END (R59). -/
theorem State.manage_of_cut {c : ChainId} {f : Cm → Cm} {s : State} {m : Cm} {at_ h target : Nat}
    (hcut : f (s.manager c) = m.cut at_ h target) (hid : m.id = c) (hout : m.out = []) (hq : m.ch.queue.length < 16)
    (hfrom : (s.chains.get c).CutsFrom m.ch) :
    IsCut c at_ s (s.manage c f).ended ∧ (s.manage c f).ended.mail = s.mail ∧
      ((s.manage c f).ended.chains.get c).queue = (m.ch.endAtCutQueue h).map QEntry.settled := by
  obtain ⟨held, r, r', hr, hroom⟩ := Cm.cut_of_room hq at_ h target
  have hmanage : s.manage c f = _ := State.manage_of_outs (hcut.trans (hroom.trans (by rw [hid, hout])))
  obtain ⟨k, hlink, hcount⟩ := State.deliver_reports_fault c hr (.chainCut h) (some (m.ref target))
    (s.setChain c (m.ch.cutAt at_ h held))
  have heq : s.manage c f = { s.setChain c (m.ch.cutAt at_ h held) with link := k } := by
    rw [hmanage, ← hlink]
    rfl
  have hch : (s.manage c f).ended.chains.get c = m.ch.cutAt at_ h held := by
    rw [State.ended_chains, heq]
    exact Four.get_set_same _ _ _
  refine ⟨?_, by rw [State.ended_mail, heq]; rfl, by rw [hch, Chain.cutAt_queue]⟩
  unfold IsCut
  rw [hch]
  have hnode (a : Nat) : (m.ch.cutAt at_ h held).node a = ((s.chains.get c).node a).map (Node.cutBeyond at_) := by
    rw [Chain.node_cutAt, hfrom.node]
  refine ⟨Chain.cutAt_state .., Chain.cutAt_attempt .., Chain.cutAt_brokenFrom .., Chain.cutAt_breakCount .., hfrom.collect,
    fun a n hn => ⟨fun hreach hpos => ?_, fun hkept => ?_⟩, fun a hn => by rw [hnode, hn, Option.map_none], hfrom.endHop, hfrom.portRoute,
    fun d hd => State.manage_other_chain hd f s, ?_, State.manage_asm c f s, State.manage_pool c f s, by rw [State.ended_scene, heq]; rfl⟩
  · rw [hnode, hn, Option.map_some, Node.cutBeyond_of_beyond hreach hpos]
  · rw [hnode, hn, Option.map_some, Node.cutBeyond_of_kept hkept]
  · rw [State.ended_faultCount, heq]
    exact hcount

/-! ### An attempt at a deadline (R61, R63, R64) -/

section Deadline
variable {m : Cm} {k : Collection} {t : Attempt}

theorem Cm.cut_attempt (q h target : Nat) (m : Cm) : (m.cut q h target).ch.attempt = none := by
  obtain ⟨r, r', -, heq⟩ := Cm.afterCut_eq h target (m.ch.beyond q)
    ((((m.ch.beyond q).foldl (fun m a => m.lose a) m).modify (Chain.updateAll (Node.cutBeyond q))).endAtCut h)
  rw [Cm.cut_eq, heq]
  rfl

theorem Cm.endReinstate_attempt (t : Attempt) (m : Cm) : (m.endReinstate t).ch.attempt = none := rfl

theorem Cm.modify_withMissing (m : Cm) : (m.modify fun ch =>
    { ch with collect := none, counters := { ch.counters with missing := bump16 ch.counters.missing } }) =
      m.modify Chain.withMissing := rfl

/-- The missing return of the deciding bundle, on a RUNNING or a BROKEN chain (R61, R63). -/
theorem Cm.missing_of_deciding (hk : m.ch.collect = some k) (hs : m.ch.state = .running ∨ m.ch.state = .broken)
    (ha : m.ch.attempt = some t) (hd : k.info.deciding = true) (hb : t.bundled = true) :
    (t.kind = .bypass → m.missing = (m.modify Chain.withMissing).bypassFails t k.info.path) ∧
      (t.kind = .reinstate → m.missing = (m.modify Chain.withMissing).reinstateFails t k.info.path) := by
  have hdeciding : (m.modify Chain.withMissing).ch.deciding k.info = some t := by
    rw [Chain.deciding, if_pos hd, show (m.modify Chain.withMissing).ch.attempt = some t from ha, Option.filter_some, hb]
    rfl
  have hattempt : (m.modify Chain.withMissing).ch.attempt = some t := ha
  refine ⟨fun hkind => ?_, fun hkind => ?_⟩
  all_goals
    rw [Cm.missing, hk]
    dsimp only
    rw [Cm.modify_withMissing]
    rcases hs with hs | hs
    · rw [show (m.modify Chain.withMissing).ch.state = .running from hs, hdeciding]
      dsimp only
      rw [hkind]
    · rw [show (m.modify Chain.withMissing).ch.state = .broken from hs, hattempt, hdeciding]
      dsimp only
      rw [hkind]

/-- The missing return of another bundle, while an attempt is present: only a RUNNING chain counts the break (R55). -/
theorem Cm.missing_of_undecided (hk : m.ch.collect = some k) (hs : m.ch.state = .running ∨ m.ch.state = .broken)
    (ha : m.ch.attempt = some t) (hd : k.info.deciding = false) :
    ∃ n, m.missing = m.modify fun ch => { ch.withMissing with breakCount := n } := by
  have hdeciding (ch : Chain) : ch.deciding k.info = none := if_neg (by rw [hd]; exact Bool.false_ne_true)
  have hattempt : (m.modify Chain.withMissing).ch.attempt = some t := ha
  rw [Cm.missing, hk]
  dsimp only
  rw [Cm.modify_withMissing]
  rcases hs with hs | hs
  · rw [show (m.modify Chain.withMissing).ch.state = .running from hs, hdeciding]
    exact ⟨bump15 m.ch.breakCount, if_neg fun h => Option.some_ne_none t (ha.symm.trans (by exact h.2.2))⟩
  · rw [show (m.modify Chain.withMissing).ch.state = .broken from hs, hattempt, hdeciding]
    exact ⟨m.ch.breakCount, rfl⟩

/-- A bypass whose deciding return is missing (R61). -/
theorem Cm.deadline_of_bypass (hk : m.ch.collect = some k) (hs : m.ch.state = .running ∨ m.ch.state = .broken)
    (ha : m.ch.attempt = some t) (hd : k.info.deciding = true) (hb : t.bundled = true) (hkind : t.kind = .bypass) :
    m.deadline = (m.modify Chain.withMissing).bypassFails t k.info.path := by
  have hnone : ((m.modify Chain.withMissing).bypassFails t k.info.path).ch.attempt = none := Cm.cut_attempt ..
  exact Cm.deadline_of_missing ((Cm.missing_of_deciding hk hs ha hd hb).1 hkind) fun t' ht => nomatch hnone.symm.trans ht

/-- A reinstate whose deciding return is missing (R63). -/
theorem Cm.deadline_of_reinstate (hk : m.ch.collect = some k) (hs : m.ch.state = .running ∨ m.ch.state = .broken)
    (ha : m.ch.attempt = some t) (hd : k.info.deciding = true) (hb : t.bundled = true) (hkind : t.kind = .reinstate) :
    m.deadline = (m.modify Chain.withMissing).reinstateFails t k.info.path := by
  have hnone : ((m.modify Chain.withMissing).reinstateFails t k.info.path).ch.attempt = none := Cm.endReinstate_attempt ..
  exact Cm.deadline_of_missing ((Cm.missing_of_deciding hk hs ha hd hb).2 hkind) fun t' ht => nomatch hnone.symm.trans ht

/-- An attempt whose ROUTE was evicted, at the deadline of another bundle's return (R64). -/
theorem Cm.deadline_of_evicted (hk : m.ch.collect = some k) (hs : m.ch.state = .running ∨ m.ch.state = .broken)
    (ha : m.ch.attempt = some t) (hd : k.info.deciding = false) (he : t.evicted = true) :
    ∃ n, (t.kind = .bypass → m.deadline = (m.modify fun ch => { ch.withMissing with breakCount := n }).cut
        (m.ch.positionOf t.pred) (predHop m.ch.lastPath t.pred) t.target) ∧
      (t.kind = .reinstate → m.deadline = (m.modify fun ch => { ch.withMissing with breakCount := n }).endReinstate t) := by
  obtain ⟨n, hmissing⟩ := Cm.missing_of_undecided hk hs ha hd
  have hattempt : (m.modify fun ch => { ch.withMissing with breakCount := n }).ch.attempt = some t := ha
  refine ⟨n, fun hkind => ?_, fun hkind => ?_⟩
  · have hfail : (m.modify fun ch => { ch.withMissing with breakCount := n }).failEvicted =
        (m.modify fun ch => { ch.withMissing with breakCount := n }).cut (m.ch.positionOf t.pred)
          (predHop m.ch.lastPath t.pred) t.target := by
      rw [Cm.failEvicted, hattempt]
      dsimp only
      rw [if_pos he, hkind]
      rfl
    rw [Cm.deadline, hmissing, hfail, Cm.failLapsed_of_none (Cm.cut_attempt ..)]
  · have hfail : (m.modify fun ch => { ch.withMissing with breakCount := n }).failEvicted =
        (m.modify fun ch => { ch.withMissing with breakCount := n }).endReinstate t := by
      rw [Cm.failEvicted, hattempt]
      dsimp only
      rw [if_pos he, hkind]
    rw [Cm.deadline, hmissing, hfail, Cm.failLapsed_of_none (Cm.endReinstate_attempt ..)]

/-- The queue that a failed reinstate leaves: the ROUTE set back, and END brought back to the predecessor when the target held
the trial END hop (R63). -/
def Chain.reinstateQueue (t : Attempt) (path : List Place) (ch : Chain) : List QEntry :=
  let routed := insertRepair ch.queue (Cmd.route t.pred .skipNext).repairEntry
  if hopOfAddress path t.target = some t.trialEnd ∧ 0 < predHop path t.pred then
    insertRepair routed (Cmd.setEnd (predHop path t.pred) true).repairEntry
  else routed

/-- The chain record behind a reinstate attempt that failed. -/
def Chain.reinstateEnded (q : List QEntry) (ch : Chain) : Chain :=
  { ch with attempt := none, queue := q.map QEntry.settled, breakCount := 0 }

theorem Cm.endReinstate_eq (t : Attempt) (m : Cm) :
    ∃ r, m.endReinstate t = { m with ch := m.ch.reinstateEnded m.ch.queue, out := m.out ++ [.report r] } := ⟨_, rfl⟩

theorem Cm.reinstateFails_of_room (hq : m.ch.queue.length ≤ 14) (t : Attempt) (path : List Place) :
    ∃ r, m.reinstateFails t path = { m with ch := m.ch.reinstateEnded (m.ch.reinstateQueue t path), out := m.out ++ [.report r] } := by
  have hroute : m.offerRepair (.route t.pred .skipNext) = m.modify (Chain.offered (.route t.pred .skipNext)) :=
    Cm.offerRepair_eq (by omega) _
  have hoffers : (if hopOfAddress path t.target = some t.trialEnd ∧ 0 < predHop path t.pred then
      (m.offerRepair (.route t.pred .skipNext)).offerRepair (.setEnd (predHop path t.pred) true)
      else m.offerRepair (.route t.pred .skipNext)) = m.modify fun ch => { ch with queue := m.ch.reinstateQueue t path } := by
    unfold Chain.reinstateQueue
    split_ifs
    · exact Cm.offerRepair_twice hq _ _
    · exact hroute
  obtain ⟨r, hr⟩ := (m.modify fun ch => { ch with queue := m.ch.reinstateQueue t path }).endReinstate_eq t
  exact ⟨r, (congrArg (Cm.endReinstate t) hoffers).trans hr⟩

end Deadline

/-- A Chain Manager's event that hands one report on. -/
theorem State.manage_of_report {c : ChainId} {f : Cm → Cm} {s : State} {ch : Chain} {r : ReportBody}
    (h : f (s.manager c) = { id := c, ch := ch, out := [.report r] }) :
    (s.manage c f).ended.chains.get c = ch ∧ (s.manage c f).ended.mail = s.mail ∧
      (s.manage c f).ended.link.faultCount = s.link.faultCount := by
  have heq : s.manage c f = (s.setChain c ch).report r := State.manage_of_outs h
  refine ⟨by rw [State.ended_chains, heq]; exact Four.get_set_same _ _ _, by rw [State.ended_mail, heq]; rfl, ?_⟩
  rw [State.ended_faultCount, heq]
  exact Link.offer_faultCount _ _ _

end Sys2Proof.Machine
end

section
/-! What a bundle prepared on a chain without a repair attempt leaves: no attempt begins, and a FAILED or CUT record stays so
(R31, R32). -/

namespace Sys2Proof.Machine

/-! ### Room in the queue (R30) -/

theorem Cm.makeRoom_nodes (m : Cm) : m.makeRoom.ch.nodes = m.ch.nodes := by
  unfold Cm.makeRoom
  split
  · rfl
  · split
    · rfl
    · dsimp only
      split <;> rfl

theorem Cm.offerRepair_nodes (cmd : Cmd) (m : Cm) : (m.offerRepair cmd).ch.nodes = m.ch.nodes := m.makeRoom_nodes

theorem Chain.node_of_nodes {ch ch' : Chain} (h : ch'.nodes = ch.nodes) : ch'.node = ch.node := by
  unfold Chain.node
  rw [h]

theorem Cm.endAtCut_nodes (h : Nat) (m : Cm) : (m.endAtCut h).ch.nodes = m.ch.nodes := by
  unfold Cm.endAtCut
  split
  · split
    · exact m.offerRepair_nodes _
    · rfl
  · split
    · exact m.offerRepair_nodes _
    · rfl

/-! ### A chain record that commands leave -/

/-- `ch'` is what the sending of commands can make of `ch`: no attempt begins, the state and the break count stay, and a record
that is not reachable stays in its state. -/
structure Chain.Sends (ch ch' : Chain) : Prop where
  attempt : ch.attempt = none → ch'.attempt = none
  state : ch'.state = ch.state
  breakCount : ch'.breakCount = ch.breakCount
  length : ch'.nodes.length = ch.nodes.length
  unreachable : ∀ a n, ch.node a = some n → n.state.reachable = false → ∃ y, ch'.node a = some y ∧ y.state = n.state

theorem Chain.Sends.trans {ch ch' ch'' : Chain} (h : ch.Sends ch') (h' : ch'.Sends ch'') : ch.Sends ch'' where
  attempt ha := h'.attempt (h.attempt ha)
  state := h'.state.trans h.state
  breakCount := h'.breakCount.trans h.breakCount
  length := h'.length.trans h.length
  unreachable a n hn hr := by
    obtain ⟨y, hy, hstate⟩ := h.unreachable a n hn hr
    obtain ⟨z, hz, hstate'⟩ := h'.unreachable a y hy (hstate ▸ hr)
    exact ⟨z, hz, hstate'.trans hstate⟩

/-- A change beside the records, the state, the break count and the attempt. -/
theorem Chain.sends_of_same {ch ch' : Chain} (hattempt : ch.attempt = none → ch'.attempt = none) (hstate : ch'.state = ch.state)
    (hbreak : ch'.breakCount = ch.breakCount) (hnodes : ch'.nodes = ch.nodes) : ch.Sends ch' where
  attempt := hattempt
  state := hstate
  breakCount := hbreak
  length := congrArg List.length hnodes
  unreachable a n hn _ := ⟨n, (congrFun (Chain.node_of_nodes hnodes) a).trans hn, rfl⟩

theorem Chain.Sends.refl (ch : Chain) : ch.Sends ch := Chain.sends_of_same id rfl rfl rfl

theorem Node.configured_unreachable {n : Node} (h : n.state.reachable = false) : n.configured = n :=
  if_neg (ne_true_of_eq_false h)

theorem Node.enabled_unreachable {n : Node} (h : n.state.reachable = false) : n.enabled = n := if_neg (ne_true_of_eq_false h)

/-- One record rewritten, or each, in a way that leaves an unreachable record's state. -/
theorem Chain.sends_updateNode {ch : Chain} (hlen : ch.nodes.length = 30) (a : Nat) {f : Node → Node}
    (hf : ∀ n, n.state.reachable = false → (f n).state = n.state) : ch.Sends (ch.updateNode a f) where
  attempt h := by unfold Chain.updateNode; split <;> exact h
  state := by unfold Chain.updateNode; split <;> rfl
  breakCount := by unfold Chain.updateNode; split <;> rfl
  length := by
    unfold Chain.updateNode
    split
    · exact List.length_set ..
    · rfl
  unreachable b n hn hr := by
    rw [Chain.node_updateNode hlen, hn]
    split
    · exact ⟨f n, rfl, hf n hr⟩
    · exact ⟨n, rfl, rfl⟩

theorem Chain.sends_updateAll (ch : Chain) {f : Node → Node} (hf : ∀ n, n.state.reachable = false → (f n).state = n.state) :
    ch.Sends (ch.updateAll f) where
  attempt h := h
  state := rfl
  breakCount := rfl
  length := List.length_map ..
  unreachable b n hn hr := ⟨f n, by rw [Chain.node_updateAll, hn, Option.map_some], hf n hr⟩

theorem Chain.sends_depart {ch : Chain} (hlen : ch.nodes.length = 30) (cmd : Cmd) : ch.Sends (ch.depart cmd) := by
  have hconfigured (n : Node) (h : n.state.reachable = false) : n.configured.state = n.state := by
    rw [Node.configured_unreachable h]
  have henabled (n : Node) (h : n.state.reachable = false) : n.enabled.state = n.state := by rw [Node.enabled_unreachable h]
  cases cmd with
  | setEnd h on =>
      cases on with
      | true => exact Chain.sends_of_same id rfl rfl rfl
      | false =>
          rw [Chain.depart]
          split
          · exact Chain.sends_of_same id rfl rfl rfl
          · exact .refl ch
  | route target r =>
      cases target with
      | none => exact Chain.sends_of_same id rfl rfl rfl
      | some a => exact Chain.sends_updateNode hlen a fun _ _ => rfl
  | configure a tag settings =>
      rw [Chain.depart]
      split
      · exact ch.sends_updateAll hconfigured
      · exact Chain.sends_updateNode hlen a hconfigured
  | enable a =>
      rw [Chain.depart]
      split
      · exact ch.sends_updateAll henabled
      · exact Chain.sends_updateNode hlen a henabled

/-! ### A bundle prepared -/

theorem Cm.serveClaims_sends (claims : List QClaim) (m : Cm) : m.ch.Sends (m.serveClaims claims).ch := by
  induction claims generalizing m with
  | nil => exact Chain.sends_of_same (fun h => h) rfl rfl rfl
  | cons k rest ih =>
      unfold Cm.serveClaims
      split
      · refine Chain.Sends.trans ?_ (ih _)
        rw [Cm.giveRoom_ch]
        exact Chain.sends_of_same (fun h => h) rfl rfl rfl
      · exact Chain.sends_of_same (fun h => h) rfl rfl rfl

theorem Cm.fillPlaces_sends (m : Cm) : m.ch.Sends m.fillPlaces.ch := Cm.serveClaims_sends _ m

theorem Cm.fillCommands_sends (fuel : Nat) : ∀ (left : Nat) (carried : List Cmd) {m : Cm}, m.ch.nodes.length = 30 →
    m.ch.Sends (m.fillCommands fuel left carried).1.ch := by
  induction fuel with
  | zero =>
      intro left carried m _
      cases left <;> exact .refl _
  | succ fuel ih =>
      intro left carried m hlen
      cases left with
      | zero => exact .refl _
      | succ left =>
          unfold Cm.fillCommands
          split
          · exact .refl _
          · next x rest hq =>
              split
              · have hdead : m.ch.Sends (m.modify fun ch => { ch with
                    queue := rest, counters := { ch.counters with discarded := bump16 ch.counters.discarded } }).fillPlaces.ch := by
                  refine Chain.Sends.trans ?_ (Cm.fillPlaces_sends _)
                  exact Chain.sends_of_same (fun h => h) rfl rfl rfl
                exact hdead.trans (ih _ _ (hdead.length.trans hlen))
              · have hsent : m.ch.Sends (m.modify fun ch => { ch.depart x.cmd with
                    queue := rest, counters := { ch.counters with sent := bump16 ch.counters.sent },
                    walkDoneDue := ch.walkDoneDue + x.walksEnded,
                    attempt := if x.ofAttempt then ch.attempt.map fun t => { t with phase := .deciding }
                               else ch.attempt }).fillPlaces.ch := by
                  refine Chain.Sends.trans ?_ (Cm.fillPlaces_sends _)
                  refine (Chain.sends_depart hlen x.cmd).trans (Chain.sends_of_same (fun hnone => ?_) rfl rfl rfl)
                  have hattempt : m.ch.attempt = none := (m.ch.depart_attempt x.cmd).symm.trans hnone
                  change (if x.ofAttempt then m.ch.attempt.map _ else m.ch.attempt) = none
                  rw [hattempt]
                  exact ite_self _
                exact hsent.trans (ih _ _ (hsent.length.trans hlen))

theorem Cm.departures_sends {m : Cm} (hlen : m.ch.nodes.length = 30) : m.ch.Sends m.departures.1.ch :=
  Cm.fillCommands_sends _ _ _ hlen

theorem Cm.reportWalkDone_sends (m : Cm) : m.ch.Sends m.reportWalkDone.ch := by
  rw [Cm.reportWalkDone, Cm.walkReports_ch]
  exact Chain.sends_of_same (fun h => h) rfl rfl rfl

theorem Cm.orderBundle_sends {m : Cm} (hlen : m.ch.nodes.length = 30) (info : BundleInfo) :
    m.ch.Sends (m.orderBundle info).ch := (Cm.departures_sends hlen).trans (Cm.reportWalkDone_sends _)

/-- A bundle prepared on a RUNNING chain with no attempt. -/
theorem Cm.send_sends {m : Cm} (hlen : m.ch.nodes.length = 30) (hstate : m.ch.state = .running) (ha : m.ch.attempt = none)
    (n : Word16) : m.ch.Sends (m.send n).ch := by
  obtain ⟨hprobes, hext⟩ := ChainMode.not_probes (.inl hstate)
  rw [Cm.send_of_bundle (.inl hstate), Cm.prepareBundle_of_plain hprobes hext (Chain.decidesNext_of_none ha)]
  refine Chain.Sends.trans ?_ (Cm.orderBundle_sends (m := m.modify Chain.rerouted) hlen _)
  exact Chain.sends_of_same (fun h => h) rfl rfl rfl

/-! ### A cut, whatever its queue (R59) -/

theorem Cm.cut_ch (q h target : Nat) (m : Cm) :
    (m.cut q h target).ch.attempt = none ∧ (m.cut q h target).ch.state = .running ∧ (m.cut q h target).ch.breakCount = 0 ∧
      (m.cut q h target).ch.nodes = (m.ch.updateAll (Node.cutBeyond q)).nodes := by
  obtain ⟨held, hlose⟩ := Cm.foldl_lose (m.ch.beyond q) m
  obtain ⟨r, r', -, hafter⟩ := Cm.afterCut_eq h target (m.ch.beyond q)
    ((((m.ch.beyond q).foldl (fun m a => m.lose a) m).modify (Chain.updateAll (Node.cutBeyond q))).endAtCut h)
  rw [Cm.cut_eq, hafter]
  refine ⟨rfl, rfl, rfl, ?_⟩
  exact (Cm.endAtCut_nodes h _).trans (by rw [hlose]; rfl)

theorem Node.cutBeyond_state {q : Nat} {n : Node} (h : q < n.position) :
    (n.cutBeyond q).state = (if n.state.reachable then .cut else n.state) := by
  split
  case isTrue hr => rw [Node.cutBeyond_of_beyond hr h]
  case isFalse hr => rw [Node.cutBeyond_of_kept fun hand => hr hand.1]

/-- The tick that is the deadline of a bypass whose deciding bundle left with no END (R61, log 16). -/
theorem Cm.tick_of_lapsed {m : Cm} {t : Attempt} (hp : m.ch.pendingDisable = false) (hcollect : m.ch.collect = none)
    (ha : m.ch.attempt = some t) (hkind : t.kind = .bypass) (hl : t.lapsed = true) (he : t.evicted = false)
    (hlen : m.ch.nodes.length = 30) (n : Word16) :
    (m.tick n).ch.attempt = none ∧ (m.tick n).ch.state = .running ∧ (m.tick n).ch.breakCount = 0 ∧
      ∀ a x, m.ch.node a = some x → m.ch.positionOf t.pred < x.position →
        ∃ y, (m.tick n).ch.node a = some y ∧ y.state = if x.state.reachable then .cut else x.state := by
  have hdeadline : m.deadline = m.bypassFails t m.ch.lastPath := by
    rw [Cm.deadline, Cm.missing_of_none hcollect, Cm.failEvicted_of_route ha he, Cm.failLapsed, ha]
    dsimp only
    rw [if_pos hl, hkind]
  obtain ⟨hnone, hrunning, hbreak, hnodes⟩ := Cm.cut_ch (m.ch.positionOf t.pred) (predHop m.ch.lastPath t.pred) t.target
    (m.offerRepair (.route t.pred .normal))
  have hcut : (m.bypassFails t m.ch.lastPath).ch.nodes = (m.ch.updateAll (Node.cutBeyond (m.ch.positionOf t.pred))).nodes := by
    refine hnodes.trans ?_
    rw [Chain.updateAll, Cm.offerRepair_nodes]
    rfl
  have hsends := Cm.send_sends (m := m.bypassFails t m.ch.lastPath)
    (by rw [hcut]; exact (List.length_map ..).trans hlen) hrunning hnone n
  have htick : (m.tick n).ch = { (m.deadline.send n).ch with lostHeld := [] } := by
    rw [Cm.tick, if_neg (ne_true_of_eq_false hp), Cm.flushLost_eq]
  rw [htick, hdeadline]
  refine ⟨hsends.attempt hnone, hsends.state.trans hrunning, hsends.breakCount.trans hbreak, fun a x hx hpos => ?_⟩
  have hnode : (m.bypassFails t m.ch.lastPath).ch.node a = some (x.cutBeyond (m.ch.positionOf t.pred)) := by
    rw [Chain.node_of_nodes hcut, Chain.node_updateAll, hx, Option.map_some]
  have hstate := Node.cutBeyond_state hpos
  have hunreachable : (x.cutBeyond (m.ch.positionOf t.pred)).state.reachable = false := by
    rw [hstate]
    split
    case isTrue => rfl
    case isFalse hr => exact eq_false_of_ne_true hr
  obtain ⟨y, hy, hyx⟩ := hsends.unreachable a _ hnode hunreachable
  exact ⟨y, hy, hyx.trans hstate⟩

end Sys2Proof.Machine
end

section
/-! Attempts that a return decides (R61, R63). -/

namespace Sys2Proof.Machine

/-! ### Notices and faults among what a Chain Manager hands on -/

def CmOut.notice? : CmOut → Option RunnerMsg
  | .notice n => some n
  | .report _ => none
  | .fault _ _ => none
  | .clamp _ => none
  | .order _ => none
  | .faulted => none
  | .disabled => none

def CmOut.isFault : CmOut → Bool
  | .fault _ _ => true
  | .notice _ => false
  | .report _ => false
  | .clamp _ => false
  | .order _ => false
  | .faulted => false
  | .disabled => false

theorem State.deliver_notices (c : ChainId) (l : List CmOut) (s : State) :
    (l.foldl (State.deliverCm c) s).mail.notices.get c = s.mail.notices.get c ++ l.filterMap CmOut.notice? := by
  induction l generalizing s with
  | nil => exact (List.append_nil _).symm
  | cons o l ih =>
      rw [List.foldl_cons, ih]
      cases o with
      | notice n =>
          simp only [State.deliverCm, Four.get_set_same, List.append_assoc]
          rfl
      | report r => rfl
      | fault f n => rfl
      | clamp k => rfl
      | order x => rfl
      | faulted => rfl
      | disabled => rfl

theorem Link.undefer_faultCount (what : Deferral) (l : Link) : (l.undefer what).faultCount = l.faultCount := by
  unfold Link.undefer
  split <;> rfl

theorem State.deliver_faultless (c : ChainId) {l : List CmOut} (h : ∀ o ∈ l, o.isFault = false) (s : State) :
    (l.foldl (State.deliverCm c) s).link.faultCount = s.link.faultCount := by
  induction l generalizing s with
  | nil => rfl
  | cons o l ih =>
      obtain ⟨ho, hl⟩ := List.forall_mem_cons.1 h
      refine (ih hl _).trans ?_
      cases o with
      | notice n => rfl
      | report r => exact Link.offer_faultCount _ _ _
      | fault f n => exact nomatch ho
      | clamp k => rfl
      | order x => rfl
      | faulted => rfl
      | disabled => exact Link.undefer_faultCount _ _

/-- A Chain Manager that has handed no fault on. -/
def Cm.faultless (m : Cm) : Prop := ∀ o ∈ m.out, o.isFault = false

/-- The notices that a Chain Manager has handed on. -/
def Cm.noticed (m : Cm) : List RunnerMsg := m.out.filterMap CmOut.notice?

theorem Cm.faultless_emit {m : Cm} {o : CmOut} (h : m.faultless) (ho : o.isFault = false) : (m.emit o).faultless := fun o' ho' =>
  (List.mem_append.1 ho').elim (h o') fun ho' => List.mem_singleton.1 ho' ▸ ho

theorem Cm.noticed_emit {m : Cm} {o : CmOut} (ho : o.notice? = none) : (m.emit o).noticed = m.noticed := by
  rw [Cm.noticed, Cm.emit, List.filterMap_append, List.filterMap_cons_none ho]
  exact List.append_nil _

/-! ### END restated, whatever the queue (R44) -/

/-- What a repair command offered changes beside the queue: never the records, the state, the breaks and the nodes lost; and no
fault is raised. -/
structure Cm.Offers (m m' : Cm) : Prop where
  nodes : m'.ch.nodes = m.ch.nodes
  state : m'.ch.state = m.ch.state
  breakCount : m'.ch.breakCount = m.ch.breakCount
  brokenFrom : m'.ch.brokenFrom = m.ch.brokenFrom
  lostHeld : m'.ch.lostHeld = m.ch.lostHeld
  attempt : m.ch.attempt = none → m'.ch.attempt = none
  faultless : m.faultless → m'.faultless

theorem Cm.Offers.refl (m : Cm) : m.Offers m := ⟨rfl, rfl, rfl, rfl, rfl, fun h => h, fun h => h⟩

theorem Cm.Offers.trans {m m' m'' : Cm} (h : m.Offers m') (h' : m'.Offers m'') : m.Offers m'' where
  nodes := h'.nodes.trans h.nodes
  state := h'.state.trans h.state
  breakCount := h'.breakCount.trans h.breakCount
  brokenFrom := h'.brokenFrom.trans h.brokenFrom
  lostHeld := h'.lostHeld.trans h.lostHeld
  attempt ha := h'.attempt (h.attempt ha)
  faultless hf := h'.faultless (h.faultless hf)

theorem Cm.offers_makeRoom (m : Cm) : m.Offers m.makeRoom := by
  unfold Cm.makeRoom
  split
  · exact .refl m
  · split
    · exact .refl m
    · next x q hx =>
        let evicted : Chain :=
          { m.ch with queue := q,
                      counters := { m.ch.counters with dropped := bump16 m.ch.counters.dropped },
                      walkDoneDue := m.ch.walkDoneDue + x.walksEnded,
                      attempt := if x.ofAttempt then m.ch.attempt.map fun t => { t with evicted := true } else m.ch.attempt }
        have hevicted (out : List CmOut) (hout : m.faultless → ∀ o ∈ out, o.isFault = false) :
            m.Offers { m with ch := evicted, out := out } :=
          ⟨rfl, rfl, rfl, rfl, rfl, fun h => by
            change (if x.ofAttempt then m.ch.attempt.map _ else m.ch.attempt) = none
            rw [h]
            exact ite_self _, hout⟩
        have hreport (h : m.faultless) (r : ReportBody) : ∀ o ∈ m.out ++ [.report r], o.isFault = false := Cm.faultless_emit h rfl
        dsimp only
        cases x.issuer with
        | runner r =>
            exact hevicted _ fun h => Cm.faultless_emit (m := { m with out := m.out ++ [.report _] }) (hreport h _) rfl
        | manager => exact hevicted _ fun h => hreport h _
        | control => exact hevicted _ fun h => hreport h _

theorem Cm.offers_offerRepair (cmd : Cmd) (m : Cm) : m.Offers (m.offerRepair cmd) :=
  m.offers_makeRoom.trans ⟨rfl, rfl, rfl, rfl, rfl, fun h => h, fun h => h⟩

theorem Cm.offers_restate (trailer : Nat) (m : Cm) : m.Offers (m.restate trailer) := by
  unfold Cm.restate
  split
  · exact .refl m
  · dsimp only
    have hcoming : m.Offers (match m.ch.comingEnd with
        | some k => m.offerRepair (.setEnd k true)
        | none => m) := by
      split
      · exact m.offers_offerRepair _
      · exact .refl m
    split
    · exact hcoming
    · exact hcoming.trans (Cm.offers_offerRepair _ _)

/-- With room in the queue nothing is handed on. -/
theorem Cm.restate_out {m : Cm} (hq : m.ch.queue.length ≤ 14) (trailer : Nat) : (m.restate trailer).out = m.out := by
  cases hend : m.ch.endHop with
  | none => rw [Cm.restate, if_pos (.inl hend)]
  | some e => rw [Cm.restate_of_end hend hq]; rfl

/-! ### A block that its node's attempt was about (R45, R48) -/

section Answer
variable {m : Cm} {a : Nat} {n : Node} {x : Answer}

theorem Cm.compareIdentity_told (m : Cm) (a : Nat) (n : Node) (x : Answer) :
    ∃ out, m.compareIdentity a n x = { m with out := out } ∧ out.filterMap CmOut.notice? = m.noticed ∧
      (m.faultless → ∀ o ∈ out, o.isFault = false) := by
  unfold Cm.compareIdentity
  split
  · exact ⟨_, rfl, Cm.noticed_emit rfl, fun h => Cm.faultless_emit h rfl⟩
  · exact ⟨_, rfl, rfl, fun h => h⟩

/-- The health set of a block put to a record that has taken the rest of it. -/
theorem Cm.compareHealth_told (hlen : m.ch.nodes.length = 30) (ha : isAddress a = true) (out : List CmOut) :
    ∃ out', ({ m.put a (n.answered x) with out := out } : Cm).compareHealth a n x = { m.put a (n.heard x) with out := out' } ∧
      out'.filterMap CmOut.notice? = out.filterMap CmOut.notice? ∧
      ((∀ o ∈ out, o.isFault = false) → ∀ o ∈ out', o.isFault = false) := by
  by_cases h : n.health = x.health
  · refine ⟨out, ?_, rfl, fun h => h⟩
    have hheard : n.heard x = n.answered x := congrArg (fun f => ({ n.answered x with health := f } : Node)) h.symm
    rw [Cm.compareHealth_of_same h, hheard]
  · have hput : ({ m.put a (n.answered x) with out := out } : Cm).modify
        (fun ch => ch.updateNode a fun n => { n with health := x.health }) = { m.put a (n.heard x) with out := out } :=
      congrArg (fun ch => ({ m with ch := ch, out := out } : Cm)) (Chain.updateNode_setNode hlen ha (n.answered x) _)
    rw [Cm.compareHealth_of_other h, hput]
    refine ⟨_, rfl, ?_, fun hf => ?_⟩
    · exact (Cm.noticed_emit rfl).trans (Cm.noticed_emit (m := { m.put a (n.heard x) with out := out }) rfl)
    · exact Cm.faultless_emit (Cm.faultless_emit (m := { m.put a (n.heard x) with out := out }) hf rfl) rfl

theorem Cm.compareMode_noticed (m : Cm) (a : Nat) (n : Node) : (m.compareMode a n).noticed = m.noticed := by
  unfold Cm.compareMode
  split_ifs
  · rfl
  · rfl
  · exact (Cm.noticed_emit rfl).trans (Cm.noticed_emit (m := m) rfl)
  · rfl

/-- A matched block raises no notice. -/
theorem Cm.takeAnswer_noticed (hlen : m.ch.nodes.length = 30) (ha : isAddress a = true) (n : Node) (x : Answer) :
    (m.takeAnswer a n x).noticed = m.noticed := by
  obtain ⟨out, hidentity, hnotices, -⟩ := (m.put a (n.answered x)).compareIdentity_told a n x
  obtain ⟨out', hhealth, hnotices', -⟩ := Cm.compareHealth_told (n := n) (x := x) hlen ha out
  rw [Cm.takeAnswer_eq, Cm.compareMode_noticed]
  refine (congrArg (fun m : Cm => (m.compareHealth a n x).noticed) hidentity).trans ?_
  rw [hhealth]
  exact hnotices'.trans hnotices

/-- A matched block in the mode that its record expects raises no fault. -/
theorem Cm.takeAnswer_of_consistent (hlen : m.ch.nodes.length = 30) (ha : isAddress a = true)
    (hf : (n.answered x).state ≠ .failed) (h : consistent (n.answered x).state (n.answered x).mode = true) :
    ∃ out, m.takeAnswer a n x = { m.put a { n.heard x with mismatch := false } with out := out } ∧
      (m.faultless → ∀ o ∈ out, o.isFault = false) := by
  obtain ⟨out, hidentity, -, hfaults⟩ := (m.put a (n.answered x)).compareIdentity_told a n x
  obtain ⟨out', hhealth, -, hfaults'⟩ := Cm.compareHealth_told (n := n) (x := x) hlen ha out
  refine ⟨out', ?_, fun hm => hfaults' (hfaults hm)⟩
  have hput : (m.modify fun ch => ch.setNode a (some (n.answered x))) = m.put a (n.answered x) := rfl
  rw [Cm.takeAnswer_eq, hput, hidentity, hhealth, Cm.compareMode_of_consistent hf h]
  exact congrArg (fun ch => ({ m with ch := ch, out := out' } : Cm)) (Chain.updateNode_setNode hlen ha (n.heard x) _)

end Answer

/-! ### The effect of the deciding return (R61, R63) -/

/-- The chain record when a bypass has succeeded (R61). -/
def Chain.bypassed (a : Nat) (n : Node) (ch : Chain) : Chain :=
  { (ch.setNode a (some { n with state := .failed })).endAttempt with
    lostHeld := insertLost { address := a, position := n.position, kind := n.kindName, reachable := n.state.reachable,
                             since := .all false } ch.lostHeld,
    brokenFrom := none, state := .running }

theorem Cm.bypassSucceeds_eq {m : Cm} {t : Attempt} {n : Node} (hs : m.ch.state = .running ∨ m.ch.state = .broken)
    (hn : m.ch.node t.target = some n) :
    ∃ r, (∀ o ∈ r, o.isReport) ∧ m.bypassSucceeds t = { m with ch := m.ch.bypassed t.target n, out := m.out ++ r } := by
  have hlose : m.lose t.target = m.modify fun ch => { ch with
      lostHeld := insertLost { address := t.target, position := n.position, kind := n.kindName, reachable := n.state.reachable,
                               since := .all false } ch.lostHeld } := by rw [Cm.lose, hn]
  have hfailed : ((m.lose t.target).modify fun ch => ch.updateNode t.target fun n => { n with state := .failed }).modify
      (fun ch => { ch.endAttempt with brokenFrom := none, state := if decide (m.ch.state = .broken) then .running else ch.state }) =
        m.modify (Chain.bypassed t.target n) := by
    rw [hlose]
    rcases hs with hs | hs
    all_goals
      rw [Cm.modify, Cm.modify, Cm.modify, Cm.modify, Chain.updateNode_of_node (by exact hn), hs]
      rfl
  have hreports (b b' : ReportBody) : ∀ o ∈ [CmOut.report b, .report b'], o.isReport :=
    List.forall_mem_cons.2 ⟨⟨b, rfl⟩, fun o ho => ⟨b', List.mem_singleton.1 ho⟩⟩
  unfold Cm.bypassSucceeds
  dsimp only
  rw [hfailed]
  split
  · exact ⟨_, hreports _ _, congrArg (fun o => ({ m with ch := m.ch.bypassed t.target n, out := o } : Cm))
      (List.append_assoc m.out [_] [_])⟩
  · exact ⟨[.report _], fun o ho => ⟨_, List.mem_singleton.1 ho⟩, rfl⟩

/-- The chain record when a reinstate has succeeded (R63). -/
def Chain.reinstated (a : Nat) (n : Node) (mode : NodeMode) (ch : Chain) : Chain :=
  (ch.setNode a (some { n with state := mode.state, silent := 0, mismatch := false })).endAttempt

theorem Cm.reinstateSucceeds_eq {m : Cm} {t : Attempt} {n : Node} (hn : m.ch.node t.target = some n) (mode : NodeMode) :
    ∃ r, m.reinstateSucceeds t mode = { m with ch := m.ch.reinstated t.target n mode, out := m.out ++ [.report r] } := by
  unfold Cm.reinstateSucceeds
  rw [show (m.modify fun ch => (ch.updateNode t.target fun n => { n with state := mode.state, silent := 0, mismatch := false }).endAttempt) =
    m.modify (Chain.reinstated t.target n mode) from by
      rw [Cm.modify, Chain.updateNode_of_node hn]
      rfl]
  exact ⟨_, rfl⟩

/-! ### A return with the block of its bundle's one node (R43, R44) -/

/-- The handling of a return of one node behind the effect of the chain state. -/
def Cm.endWithPlace (info : BundleInfo) (x : Answer) (q a : Nat) (m : Cm) : Cm :=
  ((if (m.modify Chain.unbroken).ch.settled then (m.modify Chain.unbroken).restate 1 else m.modify Chain.unbroken).takePlace info [x]
    ({ position := q, address := some a }, 0)).endHandling

section Handling
variable {m : Cm} {info : BundleInfo} {blocks : List StatusBlock} {x : Answer} {q a : Nat} {n : Node}

theorem Chain.matches_of_one {ch : Chain} (hpath : info.path = [{ position := q, address := some a }]) (hn : ch.node a = some n)
    (hx : x.hop = 1) (haddr : x.address = a) (hkind : x.kind = n.kindName) : ch.matches info x = true := by
  rw [Chain.matches, hx, haddr, hn, hpath]
  exact decide_eq_true ⟨rfl, hkind.symm⟩

theorem Cm.arrival_of_one_place (hanswers : answersOf blocks = [x]) (hprobe : info.probe = none)
    (hpath : info.path = [{ position := q, address := some a }]) (hn : m.ch.node a = some n) (hpos : n.position = q)
    (hx : x.hop = 1) (haddr : x.address = a) (hkind : x.kind = n.kindName) :
    m.arrival info blocks 1 =
      (((m.modify (Chain.withComplete blocks)).modify Chain.noStranger).stateEffect info [x]).endWithPlace info x q a := by
  have hclash : m.ch.clashes info x = false := by
    rw [Chain.clashes, haddr, hn, hx, hpath]
    exact decide_eq_false (not_not_intro hpos.symm)
  have hfilter (ch : Chain) (h : ch.node a = some n) : [x].filter (fun x => !info.atProbe x && !ch.matches info x) = [] := by
    rw [List.filter_singleton, Chain.matches_of_one hpath h hx haddr hkind, Bool.not_true, Bool.and_false]
    rfl
  rw [Cm.arrival_of_no_clash (by rw [hanswers]; exact fun y hy => .inr (List.mem_singleton.1 hy ▸ hclash))
    (Chain.probeClash_of_no_walk (Chain.walksOn_of_no_probe hprobe _) _), hanswers, Cm.handleReturn_eq, hfilter _ (by exact hn),
    Cm.strangers_of_none, hpath]
  rfl

/-- What the place of a node that gave its block changes beside that node's record, and it raises no notice. -/
structure Cm.Places (a : Nat) (m m' : Cm) : Prop where
  attempt : m'.ch.attempt = m.ch.attempt
  state : m'.ch.state = m.ch.state
  breakCount : m'.ch.breakCount = m.ch.breakCount
  brokenFrom : m'.ch.brokenFrom = m.ch.brokenFrom
  lostHeld : m'.ch.lostHeld = m.ch.lostHeld
  node : ∀ b, b ≠ a → m'.ch.node b = m.ch.node b
  noticed : m'.noticed = m.noticed

theorem Cm.places_takePlace (hlen : m.ch.nodes.length = 30) (hn : m.ch.node a = some n) (hx : x.hop = 1)
    (hmatch : m.ch.matches info x = true) : m.Places a (m.takePlace info [x] ({ position := q, address := some a }, 0)) := by
  have ha := Chain.isAddress_of_node hn
  have hfind : [x].find? (fun x => decide (x.hop = 0 + 1) && m.ch.matches info x) = some x := by
    rw [List.find?_singleton, hx, hmatch]
    rfl
  by_cases hcut : n.state = .cut
  · have hplace : m.takePlace info [x] ({ position := q, address := some a }, 0) = m := by
      unfold Cm.takePlace
      dsimp only
      rw [hn]
      exact if_pos hcut
    rw [hplace]
    exact ⟨rfl, rfl, rfl, rfl, rfl, fun _ _ => rfl, rfl⟩
  · have hnotices := Cm.takeAnswer_noticed (m := m) hlen ha n x
    rw [Cm.takePlace_of_answer rfl hn hcut hfind]
    obtain ⟨n', out, htake, -⟩ := Cm.takeAnswer_revises hlen ha n x
    rw [htake] at hnotices ⊢
    exact ⟨rfl, rfl, rfl, rfl, rfl, fun b hb => Chain.node_setNode_ne ha hb _, hnotices⟩

theorem Cm.endHandling_noticed (m : Cm) : m.endHandling.noticed = m.noticed ++ (m.ch.lostHeld.map LostNode.message ++ [.complete]) := by
  have hlost (l : List LostNode) : (l.map LostNode.notice).filterMap CmOut.notice? = l.map LostNode.message := by
    rw [List.filterMap_map]
    exact List.filterMap_eq_map (f := LostNode.message) ▸ rfl
  rw [Cm.endHandling, Cm.flushLost_eq, Cm.noticed, Cm.emit, List.filterMap_append, List.filterMap_append, hlost, List.append_assoc]
  rfl

/-- A return handled behind a bypass that succeeded: the records beside the one that answers are as the bypass left them. -/
theorem Cm.endWithPlace_of_bypassed (hlen : m.ch.nodes.length = 30) (hstate : m.ch.state = .running) (ha : m.ch.attempt = none)
    (hn : m.ch.node a = some n) (hx : x.hop = 1) (hpath : info.path = [{ position := q, address := some a }])
    (haddr : x.address = a) (hkind : x.kind = n.kindName) :
    (m.endWithPlace info x q a).ch.attempt = none ∧ (m.endWithPlace info x q a).ch.state = .running ∧
      (m.endWithPlace info x q a).ch.breakCount = 0 ∧ (m.endWithPlace info x q a).ch.brokenFrom = m.ch.brokenFrom ∧
      (∀ b, b ≠ a → (m.endWithPlace info x q a).ch.node b = m.ch.node b) ∧
      (m.ch.queue.length ≤ 14 →
        (m.endWithPlace info x q a).noticed = m.noticed ++ (m.ch.lostHeld.map LostNode.message ++ [.complete])) := by
  have hsettled : (m.modify Chain.unbroken).ch.settled = true := decide_eq_true ⟨hstate, ha⟩
  have hoffers := (m.modify Chain.unbroken).offers_restate 1
  have hnode : ((m.modify Chain.unbroken).restate 1).ch.node = m.ch.node := Chain.node_of_nodes (ch := m.ch) hoffers.nodes
  have hn' : ((m.modify Chain.unbroken).restate 1).ch.node a = some n := (congrFun hnode a).trans hn
  have hplaces := Cm.places_takePlace (q := q) ((congrArg List.length hoffers.nodes).trans hlen) hn' hx
    (Chain.matches_of_one hpath hn' hx haddr hkind)
  rw [Cm.endWithPlace, if_pos hsettled, Cm.endHandling_ch, Cm.endHandling_noticed]
  refine ⟨hplaces.attempt.trans (hoffers.attempt ha), hplaces.state.trans (hoffers.state.trans hstate),
    hplaces.breakCount.trans hoffers.breakCount, hplaces.brokenFrom.trans hoffers.brokenFrom,
    fun b hb => (hplaces.node b hb).trans (congrFun hnode b), fun hq => ?_⟩
  rw [hplaces.noticed, hplaces.lostHeld, hoffers.lostHeld, Cm.noticed, Cm.restate_out (by exact hq)]
  rfl

theorem Cm.endHandling_faultless (h : m.faultless) : m.endHandling.faultless := by
  rw [Cm.endHandling, Cm.flushLost_eq]
  refine Cm.faultless_emit (fun o ho => ?_) rfl
  rcases List.mem_append.1 ho with ho | ho
  · exact h o ho
  · obtain ⟨y, -, rfl⟩ := List.mem_map.1 ho
    rfl

/-- The state that a reported mode gives is consistent with it (R24, R48). -/
theorem Node.answered_of_mode (h : n.state = x.mode.state) :
    (n.answered x).state = x.mode.state ∧ (n.answered x).silent = 0 ∧ consistent (n.answered x).state (n.answered x).mode = true := by
  unfold Node.answered consistent
  rw [h]
  cases x.mode <;> exact ⟨rfl, rfl, rfl⟩

/-- A return handled behind a reinstate that succeeded: the record takes the block, with no fault. -/
theorem Cm.endWithPlace_of_reinstated (hlen : m.ch.nodes.length = 30) (ha : m.ch.attempt = none) (hn : m.ch.node a = some n)
    (hmode : n.state = x.mode.state) (hx : x.hop = 1) (hpath : info.path = [{ position := q, address := some a }])
    (haddr : x.address = a) (hkind : x.kind = n.kindName) :
    (m.endWithPlace info x q a).ch.attempt = none ∧ (m.endWithPlace info x q a).ch.state = m.ch.state ∧
      (m.endWithPlace info x q a).ch.node a = some { n.heard x with mismatch := false } ∧
      (m.faultless → (m.endWithPlace info x q a).faultless) := by
  have hoffers : (m.modify Chain.unbroken).Offers
      (if (m.modify Chain.unbroken).ch.settled then (m.modify Chain.unbroken).restate 1 else m.modify Chain.unbroken) := by
    split
    · exact Cm.offers_restate 1 _
    · exact .refl _
  rw [Cm.endWithPlace]
  generalize (if (m.modify Chain.unbroken).ch.settled then (m.modify Chain.unbroken).restate 1 else m.modify Chain.unbroken) = r
    at hoffers
  have hlen' : r.ch.nodes.length = 30 := (congrArg List.length hoffers.nodes).trans hlen
  have hn' : r.ch.node a = some n := (congrFun (Chain.node_of_nodes (ch := m.ch) hoffers.nodes) a).trans hn
  have haddress := Chain.isAddress_of_node hn
  obtain ⟨hstate, -, hconsistent⟩ := Node.answered_of_mode hmode
  have hcut : n.state ≠ .cut := by rw [hmode]; cases x.mode <;> exact nofun
  have hfailed : (n.answered x).state ≠ .failed := by rw [hstate]; cases x.mode <;> exact nofun
  have hfind : [x].find? (fun x => decide (x.hop = 0 + 1) && r.ch.matches info x) = some x := by
    rw [List.find?_singleton, hx, Chain.matches_of_one hpath hn' hx haddr hkind]
    rfl
  obtain ⟨out, htake, hfaults⟩ := Cm.takeAnswer_of_consistent (m := r) hlen' haddress hfailed hconsistent
  rw [Cm.takePlace_of_answer rfl hn' hcut hfind, htake]
  refine ⟨?_, ?_, ?_, fun hm => Cm.endHandling_faultless (hfaults (hoffers.faultless hm))⟩
  · rw [Cm.endHandling_ch]
    exact hoffers.attempt ha
  · rw [Cm.endHandling_ch]
    exact hoffers.state
  · rw [Cm.endHandling_ch]
    exact Chain.node_setNode_same hlen' haddress _

end Handling

end Sys2Proof.Machine
end

section
/-! Repair attempts decided (R57 to R59, R61, R63, R64). -/

namespace Sys2Proof.Machine

theorem Chain.cutsFrom_offered (cmd : Cmd) (ch : Chain) : ch.CutsFrom (ch.withMissing.offered cmd) := ⟨rfl, rfl, rfl, rfl⟩

theorem Chain.cutsFrom_counted (n : Nat) (ch : Chain) : ch.CutsFrom { ch.withMissing with breakCount := n } := ⟨rfl, rfl, rfl, rfl⟩

theorem Cm.bypassFails_of_room {m : Cm} (hq : m.ch.queue.length < 16) (t : Attempt) (path : List Place) :
    m.bypassFails t path =
      (m.modify (Chain.offered (.route t.pred .normal))).cut (m.ch.positionOf t.pred) (predHop path t.pred) t.target := by
  rw [Cm.bypassFails, Cm.offerRepair_eq hq]

theorem Chain.besideFailed_of_node {ch : Chain} {b q : Nat} {n : Node} (hb : ch.node b = some n) (hn : n.state = .failed)
    (hq : n.position + 1 = q ∨ q + 1 = n.position) : ch.besideFailed q = true :=
  List.any_eq_true.2 ⟨(b, n), Chain.mem_enrolled.2 hb, decide_eq_true ⟨hn, hq⟩⟩

/-- Probe-back that ends at the port where no skip is possible (R56, R58). -/
theorem Cm.missing_of_probeBack {m : Cm} {k : Collection} {q a : Nat} {n : Node} (hk : m.ch.collect = some k)
    (hs : m.ch.state = .broken) (ha : m.ch.attempt = none) (hq : m.ch.queue.length ≤ 14) (hend : m.ch.endHop = some 1)
    (hpath : k.info.path.head? = some { position := q, address := some a }) (hn : m.ch.node a = some n)
    (hskip : m.ch.portRoute = .skipNext ∨
      ∃ b x, m.ch.node b = some x ∧ x.state = .failed ∧ (x.position + 1 = n.position ∨ n.position + 1 = x.position)) :
    m.missing = (m.modify fun ch => ch.withMissing.offered (.setEnd 1 false)).cut 0 0 a := by
  have hbypass : (m.modify fun ch => ch.withMissing.offered (.setEnd 1 false)).ch.besideFailed
      ((m.modify fun ch => ch.withMissing.offered (.setEnd 1 false)).ch.positionOf (some a)) = true ∨
      (m.modify fun ch => ch.withMissing.offered (.setEnd 1 false)).ch.routeOf none ≠ .normal := by
    rcases hskip with hport | ⟨b, x, hb, hx, hpos⟩
    · exact .inr fun h => nomatch hport.symm.trans h
    · rw [Chain.positionOf_of_node (ch := (m.modify fun ch => ch.withMissing.offered (.setEnd 1 false)).ch) (by exact hn)]
      exact .inl (Chain.besideFailed_of_node (by exact hb) hx hpos)
  rw [Cm.missing_of_broken hk hs ha, Cm.probeBack_of_first (m := m.modify Chain.withMissing) hend hpath,
    Cm.offerRepair_eq (m := m.modify Chain.withMissing) (Nat.lt_of_le_of_lt hq (by decide))]
  exact (Cm.beginBypass_of_cut hbypass 0).trans (Cm.endBeforeFailed_of_first (Nat.zero_le 1) none _)

/-! ### The deciding return (R61, R63) -/

section Deciding
variable {m : Cm} {info : BundleInfo} {t : Attempt} {answers : List Answer}

theorem Cm.stateEffect_of_bypass (ha : m.ch.attempt = some t) (hd : info.deciding = true) (hb : t.bundled = true)
    (hkind : t.kind = .bypass) : m.stateEffect info answers = m.bypassSucceeds t := by
  have hdeciding : m.ch.deciding info = some t := by
    rw [Chain.deciding, if_pos hd, ha, Option.filter_some, hb]
    rfl
  rw [Cm.stateEffect, ha, hdeciding]
  dsimp only
  rw [hkind]

theorem Cm.stateEffect_of_reinstate {x : Answer} (ha : m.ch.attempt = some t) (hd : info.deciding = true) (hb : t.bundled = true)
    (hkind : t.kind = .reinstate) (hx : answers.find? (fun x => decide (x.address = t.target) && m.ch.matches info x) = some x) :
    m.stateEffect info answers = m.reinstateSucceeds t x.mode := by
  have hdeciding : m.ch.deciding info = some t := by
    rw [Chain.deciding, if_pos hd, ha, Option.filter_some, hb]
    rfl
  rw [Cm.stateEffect, ha, hdeciding]
  dsimp only
  rw [hkind, hx]

variable {x : Answer} {q a : Nat} {n target : Node}

/-- The deciding return of a bypass: the target is FAILED, and one notice says so (R49, R61). -/
theorem Cm.bypass_endWithPlace (hout : m.out = []) (hlen : m.ch.nodes.length = 30)
    (hs : m.ch.state = .running ∨ m.ch.state = .broken) (ht : m.ch.node t.target = some target) (hne : t.target ≠ a)
    (hn : m.ch.node a = some n) (hx : x.hop = 1) (hpath : info.path = [{ position := q, address := some a }])
    (haddr : x.address = a) (hkind : x.kind = n.kindName) :
    ((m.bypassSucceeds t).endWithPlace info x q a).ch.attempt = none ∧
      ((m.bypassSucceeds t).endWithPlace info x q a).ch.node t.target = some { target with state := .failed } ∧
      ((m.bypassSucceeds t).endWithPlace info x q a).ch.brokenFrom = none ∧
      ((m.bypassSucceeds t).endWithPlace info x q a).ch.state = .running ∧
      ((m.bypassSucceeds t).endWithPlace info x q a).ch.breakCount = 0 ∧
      (m.ch.lostHeld = [] → m.ch.queue.length ≤ 14 → ((m.bypassSucceeds t).endWithPlace info x q a).noticed =
        [.lost t.target target.kindName target.state.reachable (.all false), .complete]) := by
  obtain ⟨r, hr, heq⟩ := Cm.bypassSucceeds_eq hs ht
  have htarget := Chain.isAddress_of_node ht
  have hlen' : (m.bypassSucceeds t).ch.nodes.length = 30 := by rw [heq]; exact (List.length_set ..).trans hlen
  have hn' : (m.bypassSucceeds t).ch.node a = some n := by
    rw [heq]
    exact (Chain.node_setNode_ne htarget hne.symm _).trans hn
  have ht' : (m.bypassSucceeds t).ch.node t.target = some { target with state := .failed } := by
    rw [heq]
    exact Chain.node_setNode_same hlen htarget _
  have hnoticed : (m.bypassSucceeds t).noticed = [] := by
    rw [heq, hout]
    refine List.filterMap_eq_nil_iff.2 fun o ho => ?_
    obtain ⟨b, rfl⟩ := hr o ho
    rfl
  obtain ⟨hnone, hrunning, hbreak, hfrom, hnode, hnotices⟩ := Cm.endWithPlace_of_bypassed (m := m.bypassSucceeds t) hlen'
    (by rw [heq]; rfl) (by rw [heq]; rfl) hn' hx hpath haddr hkind
  refine ⟨hnone, (hnode _ hne).trans ht', hfrom.trans (by rw [heq]; rfl), hrunning, hbreak, fun hlost hq => ?_⟩
  have hheld : (m.bypassSucceeds t).ch.lostHeld = (m.ch.bypassed t.target target).lostHeld := by rw [heq]
  rw [hnotices (by rw [heq]; exact (List.length_map ..).trans_le hq), hnoticed, hheld, Chain.bypassed, hlost]
  rfl

/-- The deciding return of a reinstate that holds the target's block (R63). -/
theorem Cm.reinstate_endWithPlace (hout : m.out = []) (hlen : m.ch.nodes.length = 30) (hn : m.ch.node a = some n)
    (ht : t.target = a) (hx : x.hop = 1) (hpath : info.path = [{ position := q, address := some a }]) (haddr : x.address = a)
    (hkind : x.kind = n.kindName) :
    ((m.reinstateSucceeds t x.mode).endWithPlace info x q a).ch.attempt = none ∧
      ((m.reinstateSucceeds t x.mode).endWithPlace info x q a).ch.state = m.ch.state ∧
      ((m.reinstateSucceeds t x.mode).endWithPlace info x q a).ch.node a =
        some { ({ n with state := x.mode.state, silent := 0, mismatch := false } : Node).heard x with mismatch := false } ∧
      ((m.reinstateSucceeds t x.mode).endWithPlace info x q a).faultless := by
  subst ht
  obtain ⟨r, heq⟩ := Cm.reinstateSucceeds_eq hn x.mode
  have hreset : (m.reinstateSucceeds t x.mode).ch.node t.target =
      some { n with state := x.mode.state, silent := 0, mismatch := false } := by
    rw [heq]
    exact Chain.node_setNode_same hlen (Chain.isAddress_of_node hn) _
  have hfaultless : (m.reinstateSucceeds t x.mode).faultless := by
    rw [heq, hout]
    exact fun o ho => List.mem_singleton.1 ho ▸ rfl
  obtain ⟨hnone, hstate, hnode, hfaults⟩ := Cm.endWithPlace_of_reinstated (m := m.reinstateSucceeds t x.mode)
    (by rw [heq]; exact (List.length_set ..).trans hlen) (by rw [heq]; rfl) hreset rfl hx hpath haddr hkind
  exact ⟨hnone, hstate.trans (by rw [heq]; rfl), hnode, hfaults hfaultless⟩

end Deciding

/-- Settles O21: a cut at a deadline is `State.manage_of_cut`, over the queue that the missing return, the evicted ROUTE or the end
of probe-back leaves; the deciding return is its effect (`Cm.bypass_endWithPlace`, `Cm.reinstate_endWithPlace`) with the handling
behind it; and after a lapsed attempt's cut the bundle of the tick leaves every record that is not reachable in its state
(`Cm.send_sends`). -/
theorem attemptsAreDecided : Obligations.AttemptsAreDecided := by
  unfold Obligations.AttemptsAreDecided
  intro manager settled endAtCut reachable isCut
  have hisCut {c : ChainId} {at_ : Nat} {s u : State} (h : IsCut c at_ s u) : isCut c at_ s u := by
    simpa only [IsCut, NodeState.reachable_iff] using h
  refine ⟨?deadline, ?probeBack, ?answer, ?token, ?tick⟩
  case deadline =>
    intro c k t s ch info hstate hcollect hp hticks hlen hq ha h at_
    have hexec := exec_returnDeadline_of_due hcollect hp hticks
    refine ⟨fun hd hb hkind => ?bypass, fun hd hb hkind => ?reinstate,
      fun hd he hl => ⟨fun hkind => ?evictedBypass, fun hkind => ?evictedReinstate⟩⟩
    case bypass =>
      have hdeadline : (s.manager c).deadline = _ := (Cm.deadline_of_bypass hcollect hstate ha hd hb hkind).trans
        (Cm.bypassFails_of_room (m := (s.manager c).modify Chain.withMissing) (Nat.lt_of_le_of_lt hq (by decide)) t k.info.path)
      obtain ⟨hcut, hmail, hqueue⟩ := State.manage_of_cut hdeadline rfl rfl
        (by rw [Cm.modify_ch, Chain.offered_length]; exact Nat.lt_of_le_of_lt (Nat.succ_le_succ hq) (by decide))
        (Chain.cutsFrom_offered _ _)
      exact ⟨_, hexec, hisCut hcut, hmail, hqueue⟩
    case reinstate =>
      obtain ⟨r, hfails⟩ := Cm.reinstateFails_of_room (m := (s.manager c).modify Chain.withMissing) hq t k.info.path
      obtain ⟨hch, hmail, hcount⟩ := State.manage_of_report ((Cm.deadline_of_reinstate hcollect hstate ha hd hb hkind).trans hfails)
      refine ⟨_, hexec, ?_⟩
      rw [hch]
      exact ⟨rfl, rfl, rfl, rfl, hmail, hcount, rfl⟩
    case evictedBypass =>
      obtain ⟨n, hdeadline, -⟩ := Cm.deadline_of_evicted (m := s.manager c) hcollect hstate ha hd he
      obtain ⟨hcut, hmail, hqueue⟩ := State.manage_of_cut (hdeadline hkind) rfl rfl (Nat.lt_of_le_of_lt hq (by decide))
        (Chain.cutsFrom_counted n _)
      exact ⟨_, hexec, hisCut hcut, hmail, hqueue⟩
    case evictedReinstate =>
      obtain ⟨n, -, hdeadline⟩ := Cm.deadline_of_evicted (m := s.manager c) hcollect hstate ha hd he
      obtain ⟨r, hends⟩ := ((s.manager c).modify fun ch => { ch.withMissing with breakCount := n }).endReinstate_eq t
      obtain ⟨hch, hmail, -⟩ := State.manage_of_report ((hdeadline hkind).trans hends)
      refine ⟨_, hexec, ?_⟩
      rw [hch]
      exact ⟨rfl, rfl, rfl, rfl, rfl, hmail⟩
  case probeBack =>
    intro c k q a n s ch hstate ha hcollect hp hticks hlen hq hend hpath hn hskip
    have hmissing := Cm.missing_of_probeBack (m := s.manager c) hcollect hstate ha hq hend hpath hn hskip
    have hdeadline := Cm.deadline_of_missing hmissing fun t ht => nomatch (Cm.cut_attempt ..).symm.trans ht
    obtain ⟨hcut, hmail, hqueue⟩ := State.manage_of_cut hdeadline rfl rfl
      (by rw [Cm.modify_ch, Chain.offered_length]; exact Nat.lt_of_le_of_lt (Nat.succ_le_succ hq) (by decide))
      (Chain.cutsFrom_offered _ _)
    exact ⟨_, exec_returnDeadline_of_due hcollect hp hticks, hisCut hcut, hqueue⟩
  case answer =>
    intro c k t s a q n target b x hi lo ch echo hcollect hstop hd ha hb hlen hprobe hpath hn hpos ht hcrc hs hblocks hanswer hx
      haddr hkind
    have hexec : exec (.returnItemReceived c [0x54, 1, echo, hi, lo]) s = .next (s.manage c (Cm.arrival k.info k.blocks 1)).ended :=
      exec_returnItemReceived_of_arrival hcollect hstop hcrc (by decide) (by decide) rfl
    have harrival := Cm.arrival_of_one_place (m := s.manager c) (blocks := k.blocks) (by rw [hblocks, answersOf_single hanswer])
      hprobe hpath hn hpos hx haddr hkind
    have hch (m : Cm) (h : (s.manager c).arrival k.info k.blocks 1 = m) :
        (s.manage c (Cm.arrival k.info k.blocks 1)).ended.chains.get c = m.ch :=
      (State.manage_chain c _ s).trans (congrArg Cm.ch h)
    refine ⟨fun hbypass hne => ?bypass, fun hreinstate htarget hfailed => ?reinstate⟩
    case bypass =>
      rw [Cm.stateEffect_of_bypass (by exact ha) hd hb hbypass] at harrival
      obtain ⟨hnone, hnode, hfrom, hrunning, hbreak, hnotices⟩ := Cm.bypass_endWithPlace (t := t)
        (m := ((s.manager c).modify (Chain.withComplete k.blocks)).modify Chain.noStranger) rfl hlen hs ht hne hn hx hpath haddr hkind
      refine ⟨_, hexec, ?_⟩
      rw [hch _ harrival]
      refine ⟨hnone, hnode, hfrom, hrunning, hbreak, fun hlost hq => ?_⟩
      rw [State.ended_mail, State.manage_eq, State.deliver_notices, harrival]
      exact congrArg _ (hnotices hlost hq)
    case reinstate =>
      obtain rfl : n = target := Option.some.inj (hn.symm.trans (htarget ▸ ht))
      have hfind (m : Cm) (h : m.ch.node a = some n) :
          [x].find? (fun x => decide (x.address = t.target) && m.ch.matches k.info x) = some x := by
        rw [List.find?_singleton, Chain.matches_of_one hpath h hx haddr hkind, haddr, htarget, decide_eq_true rfl]
        rfl
      rw [Cm.stateEffect_of_reinstate (by exact ha) hd hb hreinstate (hfind _ (by exact hn))] at harrival
      obtain ⟨hnone, hstate, hnode, hfaultless⟩ := Cm.reinstate_endWithPlace (t := t)
        (m := ((s.manager c).modify (Chain.withComplete k.blocks)).modify Chain.noStranger) rfl hlen hn htarget hx hpath haddr hkind
      obtain ⟨hmode, hsilent, -⟩ := Node.answered_of_mode
        (n := { n with state := x.mode.state, silent := 0, mismatch := false }) (x := x) rfl
      refine ⟨_, hexec, ?_⟩
      rw [hch _ harrival]
      refine ⟨hnone, ⟨_, hnode, ?_, hsilent, rfl, rfl, rfl, hpos, rfl, rfl⟩, hstate, ?_⟩
      · exact hmode.trans (by cases x.mode <;> rfl)
      · rw [State.ended_faultCount, State.manage_eq, State.deliver_faultless c (by rw [harrival]; exact hfaultless)]
        rfl
  case token =>
    intro c b t s ch m hb hw hstop hd hwaiting hcollect hend ha hbundled
    have hcollecting : Chain.collecting b.info ch = { ch with attempt := some { t with lapsed := true } } := by
      rw [Chain.collecting, hend, ha]
      exact if_pos ⟨hd, hbundled⟩
    rw [exec_returnTokenSent_of_bundle hb hw hstop hwaiting, State.manage_of_silent (Cm.token_of_none (by exact hcollect) b.info)]
    exact congrArg (fun x => Host.Outcome.next (((s.setAsm c m.bundleLeft).setChain c x).ended)) hcollecting
  case tick =>
    intro c n ticks t s ch hticks hs hp hcollect ha hkind hl he hlen
    obtain ⟨hnone, hrunning, hbreak, hcut⟩ := Cm.tick_of_lapsed (m := s.manager c) hp hcollect ha hkind hl he hlen n
    have hch : ((s.setChainTicks c ticks).manage c (Cm.tick n)).ended.chains.get c = ((s.manager c).tick n).ch :=
      State.manage_chain c (Cm.tick n) (s.setChainTicks c ticks)
    refine ⟨_, exec_chainManagerTick_of_tick hticks, ?_⟩
    rw [hch]
    refine ⟨hnone, hrunning, hbreak, fun a m hm hpos => ?_⟩
    obtain ⟨y, hy, hstate⟩ := hcut a m hm hpos
    exact ⟨y, hy, hstate.trans (if_congr (NodeState.reachable_iff _) rfl rfl)⟩

end Sys2Proof.Machine
end
